-- ==== Sys2Proof/Word.lean ====
section
/-! DEFINITION. Word types of the GLD3-M: bytes, words, doubles and addresses (R4, R5, R21, R124). -/
namespace Sys2Proof

/-- Eight bits (R4). -/
abbrev Byte := BitVec 8
/-- A word is 32 bits (R5). -/
abbrev Word := BitVec 32
/-- A double is 64 bits (R5). -/
abbrev Double := BitVec 64
/-- A virtual address or PC is 56 bits (R21, R121). -/
abbrev VAddr := BitVec 56
/-- A register number in an operand field (R181). -/
abbrev Reg := BitVec 6
/-- A predicate number in an operand field: 7 is `pt` or `ct` (R181). -/
abbrev Pred := BitVec 3

/-- A one-bit vector from a truth value. -/
def bit (b : Bool) : BitVec 1 := BitVec.ofBool b

end Sys2Proof
end

