-- ==== Sys2Proof/Syntax.lean ====
section
/-! DEFINITION. The instructions and events of the GLD3-M: one constructor of `Instr` for each row of
spec/opcode_table.json. Words are laid out by R172 to R180; an event names the agents and values it concerns. -/
namespace Sys2Proof

/-- Two-bit floating-point type (R186, Table 7-11). -/
inductive FTy where
  | f32 | f64 | f16 | bf16
deriving DecidableEq, Repr

/-- Conversion format codes 0 to 6 (R230, Table 8-7). -/
inductive CvtFmt where
  | f32 | f64 | f16 | bf16 | e4m3 | e5m2 | e2m1
deriving DecidableEq, Repr

/-- Conditions of comparisons (R212, Table 8-4). -/
inductive Cond where
  | eq | ne | lt | le | gt | ge | un | ord
deriving DecidableEq, Repr

/-- Scopes (R146, Table 6-1). -/
inductive Scope where
  | fibre | warp | block | core | cluster | die | device | system | fabric
deriving DecidableEq, Repr

/-- Orderings (R151, Table 6-2). -/
inductive MemOrd where
  | rlx | acq | rel | ar | sc
deriving DecidableEq, Repr

/-- Segments (R119, Table 5-2). -/
inductive Seg where
  | glob | loc | clus | priv | args | const | trap | debug
deriving DecidableEq, Repr

/-- Memory element types: size code and ALT of R177 and R178. -/
inductive MTy where
  | u8 | i8 | u16 | i16 | b32 | b64 | b128 | f16 | bf16 | f32 | f64
deriving DecidableEq, Repr

/-- Uniform memory sizes: size codes 0 to 4 (R179). -/
inductive USize where
  | b1 | b2 | b4 | b8 | b16
deriving DecidableEq, Repr

/-- Atomic operations (R258, Table 10-4). -/
inductive AtomOp where
  | add | min | max | and_ | or_ | xor_ | exch | inc
deriving DecidableEq, Repr

/-- Atomic types (R258). -/
inductive AtomTy where
  | u32 | i32 | u64 | i64 | f32 | f64 | f16 | bf16
deriving DecidableEq, Repr

/-- Lane special registers (R183). -/
inductive LaneSr where
  | tid | sib | lane | icount
deriving DecidableEq, Repr

/-- Uniform special registers (R183, Table 7-9). -/
inductive USr where
  | bidX | bidY | bidZ | nblk | wid | nwarp | role | team | core | cluster | die
  | seed | clock | tick | launch | rmver | numctl | numflags | fpflags | lsconf | tlcopy | tlmx
deriving DecidableEq, Repr

/-- Types `sparsify` takes (R245). -/
inductive SparseTy where
  | e4m3 | e5m2 | f16 | bf16 | i8
deriving DecidableEq, Repr

/-- Codes of `scdec` (R244, Table 9-3). -/
inductive ScdecCode where
  | e4m3 | e5m2 | e2m1 | dec | nx4
deriving DecidableEq, Repr

/-- Modes of `xlane` (R270). -/
inductive XlaneMode where
  | from_ | rot | swap | rev
deriving DecidableEq, Repr

/-- Engines that own a timeline (R165, R308). -/
inductive Engine where
  | copy | mx
deriving DecidableEq, Repr

/-- Levels of `pref` (R264). -/
inductive PrefLevel where
  | l2 | l1 | near
deriving DecidableEq, Repr

/-- Plane modes of a tile operation (R335). -/
inductive PlaneMode where
  | one | shared | triple
deriving DecidableEq, Repr

/-- What the LX word before an instruction says of guard, rounding and siblings (R175), and the
instruction's B bit (R172). Its extension bits are fields of the instruction itself (R176). -/
structure Lx where
  present : Bool
  neg : Bool
  pred : Pred
  rnd : BitVec 3
  sib : BitVec 2
  eor : Bool
deriving DecidableEq, Repr

/-- No LX word: guard `pt`, attributes inherited (R175). -/
def Lx.none : Lx := ⟨false, false, 7, 0, 0, false⟩

/-- Which queue a drained store stands in: a warp's store queue or a core's retirement tracker (R149, R52). -/
inductive DrainSrc where
  | warp (w : Nat)
  | tracker (core idx : Nat)
deriving DecidableEq, Repr

/-- Which copy a landing piece belongs to: a Carter command of a block, or a `cpa` of a warp (R163, R261). -/
inductive PieceSrc where
  | carter (blk n idx : Nat)
  | cpa (w idx : Nat)
deriving DecidableEq, Repr

/-- A block, or a spawned warp, which takes a block's place in faults (R473). -/
inductive Owner where
  | blk (b : Nat)
  | warp (w : Nat)
deriving DecidableEq, Repr

/-- Where an uncorrectable error is found (R495, Table 22-6). -/
inductive ErrPlace where
  | registers (w : Nat)
  | window (b : Nat)
  | accumulator (b : Nat)
  | saved (o : Owner)
  | l1 (core line : Nat)
  | cleanLine (line : Nat)
  | dirtyLine (line : Nat)
  | nearPinned (line : Nat)
  | farLine (line : Nat)
  | farLink (line retries : Nat)
deriving DecidableEq, Repr

/-- Hardware the Survey withdraws or lowers (R406, R497). -/
inductive UnitLoss where
  | core (c : Nat)
  | subArray (c s : Nat)
  | die (d : Nat)
  | nearStack (d : Nat)
  | peerPort (p lanes : Nat)
  | ucie (m lanes : Nat)
  | farChannel (ch code : Nat)
deriving DecidableEq, Repr

/-- Sources of corrected errors, the unit kinds of Table 22-7 (R496). -/
structure ErrUnit where
  kind : Nat
  number : Nat
  core : Option Nat
  addr : Nat
deriving DecidableEq, Repr

/-- One access of the host or a peer: a read of n bytes, a write of given bytes, or an atomic of Table 10-4 or a
compare-and-swap, with its rounding attribute and draw (R142, R160, R403). -/
inductive BusAccess where
  | read (size : Nat)
  | write (data : List Byte)
  | atomic (op : AtomOp) (ty : AtomTy) (v : Double) (rnd : BitVec 3) (draw : Double)
  | compare (ty : AtomTy) (old new : Double)
deriving DecidableEq, Repr

/-- What an access of the host reaches: device memory through a CXL.mem window, its own memory, the register window, or the
inbound ASID of a peer port (R142, R397, R403, log 92). -/
inductive HostTarget where
  | window (i : Nat)
  | own
  | registers
  | inbound (port : Nat)
deriving DecidableEq, Repr

/-- What a host snoop asks of a line in the home L2 (R141). -/
inductive Snoop where
  | data | invalidate
deriving DecidableEq, Repr

/-- The steps of the part: lane-set, uniform-set and Foreman instructions, and events. -/
inductive Instr where
  -- lane set (R185)
  | lxWord (neg : Bool) (pred : Pred) (rnd : BitVec 3) (sib : BitVec 2) (imm : BitVec 15)
  | iadd (x : Lx) (cy : BitVec 3) (sat : BitVec 2) (w : Bool) (d a b : Reg)
  | isub (x : Lx) (cy : BitVec 3) (sat : BitVec 2) (w : Bool) (d a b : Reg)
  | iaddc (x : Lx) (cy : BitVec 3) (w : Bool) (d a b : Reg)
  | isubb (x : Lx) (cy : BitVec 3) (w : Bool) (d a b : Reg)
  | imul (x : Lx) (w : Bool) (d a b : Reg)
  | imulhi (x : Lx) (s w : Bool) (d a b : Reg)
  | imad (x : Lx) (w : Bool) (d a b c : Reg)
  | imadw (x : Lx) (s : Bool) (d a b c : Reg)
  | imin (x : Lx) (s w : Bool) (d a b : Reg)
  | imax (x : Lx) (s w : Bool) (d a b : Reg)
  | iabs (x : Lx) (sat w : Bool) (d a : Reg)
  | ineg (x : Lx) (sat w : Bool) (d a : Reg)
  | andB (x : Lx) (w : Bool) (d a b : Reg)
  | orB (x : Lx) (w : Bool) (d a b : Reg)
  | xorB (x : Lx) (w : Bool) (d a b : Reg)
  | andn (x : Lx) (w : Bool) (d a b : Reg)
  | shl (x : Lx) (imm w : Bool) (d a b : Reg)
  | shr (x : Lx) (imm w : Bool) (d a b : Reg)
  | sar (x : Lx) (imm w : Bool) (d a b : Reg)
  | rotl (x : Lx) (imm w : Bool) (d a b : Reg)
  | fsh (x : Lx) (l : Bool) (d a b c : Reg)
  | popc (x : Lx) (w : Bool) (d a : Reg)
  | clz (x : Lx) (w : Bool) (d a : Reg)
  | ctz (x : Lx) (w : Bool) (d a : Reg)
  | brev (x : Lx) (w : Bool) (d a : Reg)
  | bfx (x : Lx) (s w : Bool) (d a b : Reg)
  | bfi (x : Lx) (w : Bool) (d a b c : Reg)
  | bpick (x : Lx) (ctl : BitVec 20) (d a b : Reg)
  | icmp (x : Lx) (c : Cond) (s w : Bool) (pd : Pred) (a b : Reg)
  | sel (x : Lx) (w neg : Bool) (pn : Pred) (d a b : Reg)
  | mov (x : Lx) (w : Bool) (d a : Reg)
  | movUniform (x : Lx) (w : Bool) (d b : Reg)
  | movs (x : Lx) (d : Reg) (sr : LaneSr)
  | movi (x : Lx) (h : Bool) (d : Reg) (v : BitVec 27)
  | movpRd (x : Lx) (d : Reg)
  | movpWr (x : Lx) (a : Reg)
  | movpLop (x : Lx) (t : BitVec 4) (pd pa pb : Pred)
  | fadd (x : Lx) (ty : FTy) (d a b : Reg)
  | fsub (x : Lx) (ty : FTy) (d a b : Reg)
  | fmul (x : Lx) (ty : FTy) (d a b : Reg)
  | ffmaF32 (x : Lx) (d a b c : Reg)
  | ffmaF64 (x : Lx) (d a b c : Reg)
  | fmin (x : Lx) (ty : FTy) (d a b : Reg)
  | fmax (x : Lx) (ty : FTy) (d a b : Reg)
  | fminm (x : Lx) (ty : FTy) (d a b : Reg)
  | fmaxm (x : Lx) (ty : FTy) (d a b : Reg)
  | fabs (x : Lx) (ty : FTy) (d a : Reg)
  | fneg (x : Lx) (ty : FTy) (d a : Reg)
  | fcopysign (x : Lx) (ty : FTy) (d a b : Reg)
  | fcmp (x : Lx) (c : Cond) (ty : FTy) (pd : Pred) (a b : Reg)
  | fclass (x : Lx) (ty : FTy) (d a : Reg)
  | fdiv (x : Lx) (ty : FTy) (d a b : Reg)
  | fsqrt (x : Lx) (ty : FTy) (d a : Reg)
  | frcp (x : Lx) (ty : FTy) (d a : Reg)
  | frsq (x : Lx) (ty : FTy) (d a : Reg)
  | fex2 (x : Lx) (ty : FTy) (d a : Reg)
  | flg2 (x : Lx) (ty : FTy) (d a : Reg)
  | fsin (x : Lx) (ty : FTy) (d a : Reg)
  | fcos (x : Lx) (ty : FTy) (d a : Reg)
  | ftanh (x : Lx) (ty : FTy) (d a : Reg)
  | frint (x : Lx) (ra exact : Bool) (ty : FTy) (d a : Reg)
  | fcvt (x : Lx) (ra : Bool) (dst src : CvtFmt) (d a : Reg)
  | f2i (x : Lx) (ra w s : Bool) (ty : FTy) (d a : Reg)
  | i2f (x : Lx) (w s : Bool) (ty : FTy) (d a : Reg)
  | fldexp (x : Lx) (ty : FTy) (d a b : Reg)
  | ffrexp (x : Lx) (ty : FTy) (d a : Reg)
  | digits (x : Lx) (ty : FTy) (d a : Reg)
  | agree (x : Lx) (ty : FTy) (d a : Reg)
  | sibget (x : Lx) (w : Bool) (k : BitVec 2) (d a : Reg)
  | sibput (x : Lx) (w : Bool) (k : BitVec 2) (d a : Reg)
  | sibrot (x : Lx) (w : Bool) (r : BitVec 2) (d a : Reg)
  | sibmean (x : Lx) (ty : FTy) (d a : Reg)
  | sibmaj (x : Lx) (w : Bool) (d a : Reg)
  | rdraw (x : Lx) (d b : Reg)
  | fdp16 (x : Lx) (sc : Option Reg) (ta tb : Bool) (d a b : Reg)
  | fdp8 (x : Lx) (bf : Bool) (d a b : Reg)
  | fdpsc (x : Lx) (mx : Bool) (nb : BitVec 2) (e d a b : Reg)
  | idp4 (x : Lx) (sat sa sb : Bool) (d a b : Reg)
  | idp8 (x : Lx) (sat sa sb : Bool) (d a b : Reg)
  | cvtpk (x : Lx) (ra : Bool) (dst : CvtFmt) (d a : Reg) (sc : Option Reg)
  | cvtupk (x : Lx) (src : CvtFmt) (d a : Reg)
  | scdec (x : Lx) (c : ScdecCode) (d a : Reg)
  | sparsify (x : Lx) (ty : SparseTy) (d a : Reg)
  | xclr (x : Lx) (k : BitVec 3)
  | xadd (x : Lx) (k : BitVec 3) (a : Reg)
  | xfma (x : Lx) (k : BitVec 3) (a b : Reg)
  | xget (x : Lx) (k : BitVec 3) (d : Reg)
  | xmerge (x : Lx) (k : BitVec 3) (seg : Seg) (a : Reg)
  | xsave (x : Lx) (k : BitVec 3) (seg : Seg) (a : Reg)
  | xload (x : Lx) (k : BitVec 3) (seg : Seg) (a : Reg)
  | xstat (x : Lx) (k : BitVec 3) (d : Reg)
  | pollSome (x : Lx) (mm : Option Reg) (pd pa : Pred)
  | pollEvery (x : Lx) (mm : Option Reg) (pd pa : Pred)
  | pollSame (x : Lx) (mm : Option Reg) (pd pa : Pred)
  | pollCount (x : Lx) (mm : Option Reg) (d : Reg) (pa : Pred)
  | pollMask (x : Lx) (mm : Option Reg) (d : Reg) (pa : Pred)
  | leadFirst (x : Lx) (mm : Option Reg) (pd : Pred)
  | leadLast (x : Lx) (mm : Option Reg) (pd : Pred)
  | wmask (x : Lx) (mm : Option Reg) (d : Reg)
  | xlane (x : Lx) (mm : Option Reg) (seg : BitVec 4) (mode : XlaneMode) (w : Bool) (d a b : Reg)
  | wred (x : Lx) (mm : Option Reg) (ty : AtomTy) (op : AtomOp) (d a : Reg)
  | wscan (x : Lx) (mm : Option Reg) (excl : Bool) (ty : AtomTy) (op : AtomOp) (d a : Reg)
  | warpMatch (x : Lx) (mm : Option Reg) (w : Bool) (d a : Reg)
  | ld (x : Lx) (ty : MTy) (seg : Seg) (off : BitVec 20) (t a : Reg)
  | st (x : Lx) (ty : MTy) (seg : Seg) (off : BitVec 20) (t a : Reg)
  | lda (x : Lx) (ty : MTy) (sc : Scope) (seg : Seg) (off : BitVec 16) (t a : Reg)
  | stl (x : Lx) (ty : MTy) (sc : Scope) (seg : Seg) (off : BitVec 16) (t a : Reg)
  | atom (x : Lx) (op : AtomOp) (ty : AtomTy) (o : MemOrd) (sc : Scope) (seg : Seg) (d a b : Reg)
  | atomc (x : Lx) (w : Bool) (o : MemOrd) (sc : Scope) (seg : Seg) (d a b c : Reg)
  | red (x : Lx) (op : AtomOp) (ty : AtomTy) (o : MemOrd) (sc : Scope) (seg : Seg) (a b : Reg)
  | cpa (x : Lx) (sc : Scope) (seg : Seg) (dclus : Bool) (bar : Option (BitVec 4)) (d a : Reg)
  | pref (x : Lx) (sc : Scope) (seg : Seg) (lv : PrefLevel) (a : Reg)
  | ldf (x : Lx) (sc : Scope) (seg : Seg) (d a : Reg)
  | stf (x : Lx) (sc : Scope) (seg : Seg) (a b : Reg)
  | mwatch (x : Lx) (sc : Scope) (seg : Seg) (a : Reg)
  | mwait (x : Lx) (sc : Scope) (seg : Seg) (d b : Reg)
  | tcopy (x : Lx) (sc : Scope) (seg : Seg) (d a : Reg)
  | fence (x : Lx) (o : MemOrd) (sc : Scope)
  | bra (x : Lx) (neg : Bool) (pred : Pred) (off : BitVec 35)
  | call (x : Lx) (neg : Bool) (pred : Pred) (off : BitVec 35)
  | brx (x : Lx) (off : BitVec 27) (a : Reg)
  | callx (x : Lx) (off : BitVec 27) (a : Reg)
  | ret (x : Lx) (a : Reg)
  | exit (x : Lx)
  | tail (x : Lx)
  | rcvset (x : Lx) (off : BitVec 33)
  | rcvwait (x : Lx)
  | spawn (x : Lx) (n : BitVec 4) (s : Reg) (pd : Pred) (a b : Reg)
  | jwait (x : Lx) (d a : Reg)
  | yield (x : Lx)
  | trap (x : Lx) (n : BitVec 12)
  | brkpt (x : Lx)
  | nop (x : Lx)
  -- uniform set (R187); e is the word's B bit
  | sadd (e w : Bool) (d a b : Reg)
  | ssub (e w : Bool) (d a b : Reg)
  | smul (e w : Bool) (d a b : Reg)
  | smulhi (e s w : Bool) (d a b : Reg)
  | sand (e w : Bool) (d a b : Reg)
  | sor (e w : Bool) (d a b : Reg)
  | sxor (e w : Bool) (d a b : Reg)
  | sshl (e imm w : Bool) (d a b : Reg)
  | sshr (e imm w : Bool) (d a b : Reg)
  | ssar (e imm w : Bool) (d a b : Reg)
  | smin (e s w : Bool) (d a b : Reg)
  | smax (e s w : Bool) (d a b : Reg)
  | smov (e w : Bool) (d a : Reg)
  | simm (e : Bool) (d : Reg) (v : BitVec 18)
  | simmh (e : Bool) (d : Reg) (v : BitVec 16)
  | scmp (e : Bool) (c : Cond) (s w : Bool) (cd : Pred) (a b : Reg)
  | ssel (e w neg : Bool) (cn : Pred) (d a b : Reg)
  | sld (e : Bool) (sz : USize) (seg : Seg) (off : BitVec 6) (t a : Reg)
  | sst (e : Bool) (sz : USize) (seg : Seg) (off : BitVec 6) (t a : Reg)
  | satom (e : Bool) (op : AtomOp) (ar : Bool) (ty : BitVec 2) (d a b : Reg)
  | rdlane (e f w : Bool) (d a b : Reg)
  | jmp (e : Bool) (off : BitVec 24)
  | jc (e neg : Bool) (c : Pred) (off : BitVec 20)
  | jx (e : Bool) (a : Reg)
  | binit (e fm : Bool) (bn : BitVec 4) (a : Reg)
  | barrive (e : Bool) (bn : BitVec 4) (tx : Option Reg)
  | bwait (e : Bool) (bn : BitVec 4) (a : Reg)
  | btest (e : Bool) (cd : Pred) (bn : BitVec 4) (a : Reg)
  | bexpect (e : Bool) (bn : BitVec 4) (a : Reg)
  | cbar (e : Bool)
  | wait (e : Bool) (n0 n1 n2 n3 : BitVec 6)
  | claim (e : Bool) (n : BitVec 3)
  | give (e : Bool) (n : BitVec 3)
  | qtryPop (e : Bool) (cd : Pred) (d : Reg) (q : BitVec 2)
  | qtryPush (e : Bool) (cd : Pred) (q : BitVec 2) (a : Reg)
  | tlrd (e : Bool) (g : Engine) (d : Reg)
  | tlwait (e : Bool) (g : Engine) (a : Reg)
  | tagpub (e : Bool) (a b : Reg)
  | tagrd (e : Bool) (d a b : Reg)
  | tqpush (e : Bool) (cd : Pred) (a b : Reg)
  | tqtake (e : Bool) (cd : Pred) (a b : Reg)
  | ordwait (e : Bool)
  | rdsr (e : Bool) (d : Reg) (sr : USr)
  | wrsr (e : Bool) (sr : USr) (d : Reg)
  | segld (e : Bool) (k : BitVec 3) (a : Reg)
  | icinv (e : Bool) (sc : Scope) (a b : Reg)
  | tlbinvPage (e : Bool) (a : Reg)
  | tlbinvAsid (e : Bool)
  | rmack (e : Bool) (cd : Pred) (a : Reg)
  | snop (e : Bool)
  | strap (e : Bool) (n : BitVec 18)
  | resume (e : Bool)
  -- Foreman words (R337)
  | mlay (l : BitVec 3) (off : BitVec 20)
  | madd (l : BitVec 3) (dim : BitVec 2) (inc : Word)
  | mclr (s : BitVec 4) (three int : Bool)
  | mma (s : BitVec 4) (pm : PlaneMode) (a b : BitVec 3)
  | mmas (s : BitVec 4) (pm : PlaneMode) (a b md : BitVec 3)
  | mmax (s : BitVec 4) (pm : PlaneMode) (a b sa sb : BitVec 3)
  | mrd (s : BitVec 4) (pl : BitVec 2) (d : BitVec 3)
  | mcol (s : BitVec 4) (d : BitVec 3)
  | mbarr (bn : BitVec 4)
  | mbwait (bn : BitVec 4)
  | mloop (count : BitVec 24)
  | mloopL (off : BitVec 24)
  | mendl
  | mjmp (off : Word)
  | mstamp (clu : Bool) (addr : BitVec 22)
  | mconfRnd (code : BitVec 3)
  | mconfTs (off : BitVec 20)
  | mconfWph (bn : BitVec 4) (ph : BitVec 16)
  | mend
  -- words that are not instructions (R188 to R190)
  | unallocatedEncoding (lx : Option Word) (w : Word)
  | foremanWordUnallocated (w : Double)
  -- events of the engines and of memory
  | foremanFetch (b : Nat)
  | foremanCommandComplete (b n : Nat)
  | copyCommandStart (b n : Nat)
  | copyPieceLand (src : PieceSrc)
  | copyCommandComplete (b n : Nat)
  | loadDataReturn (w idx : Nat)
  | storeDrain (src : DrainSrc)
  | pageWalkComplete (idx : Nat)
  | tlbInvalidateComplete (idx : Nat)
  | icinvComplete (idx : Nat)
  | mwaitLimitExpire (w : Nat)
  -- events of warps, spawn and traps
  | warpEnd (w : Nat)
  | joinEndUpdate (idx : Nat)
  | spawnTimeout (core launch : Nat)
  | spillReturn (core launch : Nat)
  | fragmentDeliver (w : Nat)
  | resourceMapDeliver (l : Nat)
  | blockFaultSave (o : Owner)
  | coreDump (ctx : Nat)
  | workHalt (ctx : Nat)
  -- events of the Loom and of issue
  | launchTake (ctx : Nat)
  | loomChoice
  | blockStart (b : Nat)
  | migration (b : Nat)
  | forwardEntryFree (core idx : Nat)
  | issueSlotGrant (core quarter : Nat)
  | runBreak (core quarter : Nat)
  | yieldExpire (w : Nat)
  | launchComplete (l : Nat)
  | taskComplete (b : Nat)
  | pendingEnqueueDrain (ctx : Nat)
  | bakeryAdvance (l : Nat)
  | deadlockSuspect (ctx : Nat)
  | contextDiscardComplete (ctx : Nat)
  | contextStopComplete (ctx : Nat)
  | resourceMapTimeout (ctx : Nat)
  | selfTest (core : Nat) (passed : Bool)
  | warpEvict (w : Nat)
  | budgetPeriod
  -- events of the machine
  | surveyDegradation (losses : List UnitLoss)
  | hourglassLatch
  | bellowsGrant (demand : List Nat)
  | powerUp
  | powerDown
  | junctionThrottle (die temp : Nat)
  | currentTrip
  | thermalTrip
  | correctedError (u : ErrUnit)
  | uncorrectableError (p : ErrPlace)
  | linkLaneFail (l : UnitLoss)
  | ideIntegrityFail
  | peerFlitAuthFail (port : Nat)
  | peerInboundAccess (port : Nat) (addr : Nat) (acc : BusAccess)
  | hostMemAccess (target : HostTarget) (off : Nat) (acc : BusAccess)
  -- register window
  | pwrlimWrite (v : Double)
  | nearpartWrite (v : Double)
  | fwgoWrite (v : Double)
  | firmwareVerifyDone
  | attgoWrite (v : Double)
  | attestReportDone
  | keyopLoad
  | keyopClear
  | keyOpComplete
  | notifyWrite (ctx : Nat) (v : Word)
  | ctxStateStop (ctx : Nat) (v : Double)
  | ctxStateRun (ctx : Nat) (v : Double)
  | ctxStateFree (ctx : Nat) (v : Double)
  | tagclrWrite (ctx : Nat) (v : Double)
  | rmackWrite (ctx : Nat) (v : Double)
  | eventRead (ctx : Nat)
  | trlostRead (ctx : Nat)
  | hglostRead
  | mclostRead
  | pwrstatRead
  | bftailWrite (ctx : Nat) (v : Word)
  | bfreplyRetry (ctx : Nat) (rec : Word)
  | bfreplyKill (ctx : Nat) (rec : Word)
  | bfreplyRestart (ctx : Nat) (rec : Word)
  | saveAreaWrite (ctx : Nat) (size : Bool) (v : Double)
  | dbgctlHalt (ctx : Nat) (v : Double)
  | dbgctlResume (ctx : Nat) (v : Double)
  | dbgiclenWrite (ctx : Nat) (v : Double)
  | registerWrite (off : Nat) (size : Nat) (v : Double)
  | debugRightClear (ctx : Nat) (v : Double)
  | ideEstablished
  | throttleRelease (die : Nat)
  | hostSnoop (addr : Nat) (k : Snoop)
deriving DecidableEq, Repr

end Sys2Proof
end

