-- ==== Sys2Proof/Decode.lean ====
section
/-! DEFINITION. The decoder of instruction words and of Foreman words (R172 to R191, R337), total and rejecting by
name, and after it the encoder, written from the same tables. -/
namespace Sys2Proof

/-- Why a word or a pair is an unallocated encoding: the items of R188, and R190 for Foreman words. -/
inductive Reject where
  /-- item 1: an unallocated opcode -/
  | opcode
  /-- item 2: an unassigned selector or modifier value -/
  | selector
  /-- item 3: a nonzero reserved bit -/
  | reserved
  /-- items 4 and 8: fields an LX word may not hold -/
  | lxField
  /-- item 5: rounding or sibling control before an instruction with no rounding event -/
  | lxNoRounding
  /-- item 6: an LX word before an LX word or a uniform-set word -/
  | lxTarget
  /-- item 7: a guard before an LB word -/
  | lxBranch
  /-- item 8: the complement of `pt` in an LB word -/
  | guardNeg
  /-- item 9: a scope, ordering, ALT or size code -/
  | code
  /-- item 10: a special register or access -/
  | special
deriving DecidableEq, Repr

/-- An instruction word as the two frame bits and its six-bit groups (Tables 7-1, 7-2 and 7-7). -/
structure Fields where
  set : Bool
  eor : Bool
  op : BitVec 6
  d : BitVec 6
  a : BitVec 6
  b : BitVec 6
  fn : BitVec 6
deriving DecidableEq, Repr

/-- The fields of a word (R172). -/
def unpack (w : Word) : Fields :=
  ⟨w.getLsbD 31, w.getLsbD 30, w.extractLsb' 24 6, w.extractLsb' 18 6, w.extractLsb' 12 6, w.extractLsb' 6 6,
    w.extractLsb' 0 6⟩

/-- The word of given fields (R172). -/
def pack (f : Fields) : Word :=
  bit f.set ++ bit f.eor ++ f.op ++ f.d ++ f.a ++ f.b ++ f.fn

/-- Upper three bits of a six-bit field: a selector (R184). -/
def hi3 (v : BitVec 6) : BitVec 3 := v.extractLsb' 3 3
/-- Lower three bits of a six-bit field. -/
def lo3 (v : BitVec 6) : BitVec 3 := v.extractLsb' 0 3

/-! ### Codes of enumerated fields -/

/-- Table 7-11. -/
def FTy.ofCode (c : BitVec 2) : FTy := if c = 0 then .f32 else if c = 1 then .f64 else if c = 2 then .f16 else .bf16
/-- Table 7-11. -/
def FTy.code : FTy → BitVec 2 | .f32 => 0 | .f64 => 1 | .f16 => 2 | .bf16 => 3

/-- Table 8-7. -/
def CvtFmt.ofCode (c : BitVec 3) : Option CvtFmt :=
  match c.toNat with
  | 0 => some .f32 | 1 => some .f64 | 2 => some .f16 | 3 => some .bf16 | 4 => some .e4m3 | 5 => some .e5m2
  | 6 => some .e2m1 | _ => none
/-- Table 8-7. -/
def CvtFmt.code : CvtFmt → BitVec 3
  | .f32 => 0 | .f64 => 1 | .f16 => 2 | .bf16 => 3 | .e4m3 => 4 | .e5m2 => 5 | .e2m1 => 6

/-- Table 8-4. -/
def Cond.ofCode (c : BitVec 3) : Cond :=
  match c.toNat with
  | 0 => .eq | 1 => .ne | 2 => .lt | 3 => .le | 4 => .gt | 5 => .ge | 6 => .un | _ => .ord
/-- Table 8-4. -/
def Cond.code : Cond → BitVec 3
  | .eq => 0 | .ne => 1 | .lt => 2 | .le => 3 | .gt => 4 | .ge => 5 | .un => 6 | .ord => 7
/-- Codes 6 and 7 compare floating point only (Table 8-4). -/
def Cond.integer (c : Cond) : Bool := c != .un && c != .ord

/-- Table 6-1. -/
def Scope.ofCode (c : BitVec 4) : Option Scope :=
  match c.toNat with
  | 0 => some .fibre | 1 => some .warp | 2 => some .block | 3 => some .core | 4 => some .cluster | 5 => some .die
  | 6 => some .device | 7 => some .system | 8 => some .fabric | _ => none
/-- Table 6-1. -/
def Scope.code : Scope → BitVec 4
  | .fibre => 0 | .warp => 1 | .block => 2 | .core => 3 | .cluster => 4 | .die => 5 | .device => 6 | .system => 7
  | .fabric => 8

/-- Table 6-2. -/
def MemOrd.ofCode (c : BitVec 3) : Option MemOrd :=
  match c.toNat with
  | 0 => some .rlx | 1 => some .acq | 2 => some .rel | 3 => some .ar | 4 => some .sc | _ => none
/-- Table 6-2. -/
def MemOrd.code : MemOrd → BitVec 3 | .rlx => 0 | .acq => 1 | .rel => 2 | .ar => 3 | .sc => 4

/-- Table 5-2. -/
def Seg.ofCode (c : BitVec 3) : Seg :=
  match c.toNat with
  | 0 => .glob | 1 => .loc | 2 => .clus | 3 => .priv | 4 => .args | 5 => .const | 6 => .trap | _ => .debug
/-- Table 5-2. -/
def Seg.code : Seg → BitVec 3
  | .glob => 0 | .loc => 1 | .clus => 2 | .priv => 3 | .args => 4 | .const => 5 | .trap => 6 | .debug => 7

/-- Table 7-5 with the ALT bit of R178; `load` says whether ALT may sign-extend. -/
def MTy.ofCode (load alt : Bool) (c : BitVec 3) : Option MTy :=
  match c.toNat, alt with
  | 0, false => some .u8 | 1, false => some .u16 | 2, false => some .b32 | 3, false => some .b64
  | 4, false => some .b128 | 5, false => some .f16 | 6, false => some .f32 | 7, false => some .f64
  | 5, true => some .bf16
  | 0, true => if load then some .i8 else none
  | 1, true => if load then some .i16 else none
  | _, _ => none
/-- Table 7-5: the size code. -/
def MTy.code : MTy → BitVec 3
  | .u8 | .i8 => 0 | .u16 | .i16 => 1 | .b32 => 2 | .b64 => 3 | .b128 => 4 | .f16 | .bf16 => 5 | .f32 => 6 | .f64 => 7
/-- R178: whether the element type needs the ALT bit. -/
def MTy.alt : MTy → Bool | .i8 | .i16 | .bf16 => true | _ => false

/-- Size codes 0 to 4 (R179). -/
def USize.ofCode (c : BitVec 3) : Option USize :=
  match c.toNat with
  | 0 => some .b1 | 1 => some .b2 | 2 => some .b4 | 3 => some .b8 | 4 => some .b16 | _ => none
/-- Size codes 0 to 4 (R179). -/
def USize.code : USize → BitVec 3 | .b1 => 0 | .b2 => 1 | .b4 => 2 | .b8 => 3 | .b16 => 4

/-- Table 10-4. -/
def AtomOp.ofCode (c : BitVec 3) : AtomOp :=
  match c.toNat with
  | 0 => .add | 1 => .min | 2 => .max | 3 => .and_ | 4 => .or_ | 5 => .xor_ | 6 => .exch | _ => .inc
/-- Table 10-4. -/
def AtomOp.code : AtomOp → BitVec 3
  | .add => 0 | .min => 1 | .max => 2 | .and_ => 3 | .or_ => 4 | .xor_ => 5 | .exch => 6 | .inc => 7

/-- TYPE codes of R258. -/
def AtomTy.ofCode (c : BitVec 3) : AtomTy :=
  match c.toNat with
  | 0 => .u32 | 1 => .i32 | 2 => .u64 | 3 => .i64 | 4 => .f32 | 5 => .f64 | 6 => .f16 | _ => .bf16
/-- TYPE codes of R258. -/
def AtomTy.code : AtomTy → BitVec 3
  | .u32 => 0 | .i32 => 1 | .u64 => 2 | .i64 => 3 | .f32 => 4 | .f64 => 5 | .f16 => 6 | .bf16 => 7
/-- The floating types of R258. -/
def AtomTy.float : AtomTy → Bool | .f32 | .f64 | .f16 | .bf16 => true | _ => false

/-- The combinations of operation and type that Table 10-4 allows. -/
def atomAllowed (op : AtomOp) (ty : AtomTy) : Bool :=
  match op with
  | .and_ | .or_ | .xor_ => !ty.float
  | .inc => ty == .u32 || ty == .u64
  | _ => true
/-- The combinations that `wred` and `wscan` allow (R271). -/
def wredAllowed (op : AtomOp) (ty : AtomTy) : Bool := op != .exch && op != .inc && atomAllowed op ty
/-- The orderings that `red` allows (R258). -/
def redOrd (o : MemOrd) : Bool := o == .rlx || o == .rel

/-- Codes 0x000 to 0x003 (R183, R215). -/
def LaneSr.ofCode (c : BitVec 6) : Option LaneSr :=
  match c.toNat with | 0 => some .tid | 1 => some .sib | 2 => some .lane | 3 => some .icount | _ => none
/-- Codes 0x000 to 0x003 (R183, R215). -/
def LaneSr.code : LaneSr → BitVec 6 | .tid => 0 | .sib => 1 | .lane => 2 | .icount => 3

/-- Table 7-9. -/
def USr.ofCode (c : BitVec 10) : Option USr :=
  match c.toNat with
  | 0x010 => some .bidX | 0x011 => some .bidY | 0x012 => some .bidZ | 0x013 => some .nblk | 0x014 => some .wid
  | 0x015 => some .nwarp | 0x016 => some .role | 0x017 => some .team | 0x018 => some .core | 0x019 => some .cluster
  | 0x01A => some .die | 0x020 => some .seed | 0x021 => some .clock | 0x022 => some .tick | 0x023 => some .launch
  | 0x024 => some .rmver | 0x030 => some .numctl | 0x031 => some .numflags | 0x032 => some .fpflags
  | 0x033 => some .lsconf | 0x040 => some .tlcopy | 0x041 => some .tlmx | _ => none
/-- Table 7-9. -/
def USr.code : USr → BitVec 10
  | .bidX => 0x010 | .bidY => 0x011 | .bidZ => 0x012 | .nblk => 0x013 | .wid => 0x014 | .nwarp => 0x015
  | .role => 0x016 | .team => 0x017 | .core => 0x018 | .cluster => 0x019 | .die => 0x01A | .seed => 0x020
  | .clock => 0x021 | .tick => 0x022 | .launch => 0x023 | .rmver => 0x024 | .numctl => 0x030 | .numflags => 0x031
  | .fpflags => 0x032 | .lsconf => 0x033 | .tlcopy => 0x040 | .tlmx => 0x041
/-- The registers that `wrsr` may write (Table 7-9). -/
def USr.writable : USr → Bool | .numctl | .numflags | .fpflags | .lsconf => true | _ => false

/-- Types of `sparsify` (R245). -/
def SparseTy.ofCode (c : BitVec 3) : Option SparseTy :=
  match c.toNat with | 0 => some .e4m3 | 1 => some .e5m2 | 2 => some .f16 | 3 => some .bf16 | 4 => some .i8 | _ => none
/-- Types of `sparsify` (R245). -/
def SparseTy.code : SparseTy → BitVec 3 | .e4m3 => 0 | .e5m2 => 1 | .f16 => 2 | .bf16 => 3 | .i8 => 4

/-- Table 9-3. -/
def ScdecCode.ofCode (c : BitVec 3) : Option ScdecCode :=
  match c.toNat with | 0 => some .e4m3 | 1 => some .e5m2 | 2 => some .e2m1 | 3 => some .dec | 4 => some .nx4 | _ => none
/-- Table 9-3. -/
def ScdecCode.code : ScdecCode → BitVec 3 | .e4m3 => 0 | .e5m2 => 1 | .e2m1 => 2 | .dec => 3 | .nx4 => 4

/-- MODE of `xlane` (R270). -/
def XlaneMode.ofCode (c : BitVec 2) : XlaneMode :=
  if c = 0 then .from_ else if c = 1 then .rot else if c = 2 then .swap else .rev
/-- MODE of `xlane` (R270). -/
def XlaneMode.code : XlaneMode → BitVec 2 | .from_ => 0 | .rot => 1 | .swap => 2 | .rev => 3

/-- ENG of `tlrd` and `tlwait` (R308). -/
def Engine.ofCode (b : Bool) : Engine := if b then .mx else .copy
/-- ENG of `tlrd` and `tlwait` (R308). -/
def Engine.code : Engine → Bool | .copy => false | .mx => true

/-- LEVEL of `pref` (R264). -/
def PrefLevel.ofCode (c : BitVec 3) : Option PrefLevel :=
  match c.toNat with | 0 => some .l2 | 1 => some .l1 | 2 => some .near | _ => none
/-- LEVEL of `pref` (R264). -/
def PrefLevel.code : PrefLevel → BitVec 3 | .l2 => 0 | .l1 => 1 | .near => 2

/-- PM of R335; 3 is unassigned. -/
def PlaneMode.ofCode (c : BitVec 2) : Option PlaneMode :=
  if c = 0 then some .one else if c = 1 then some .shared else if c = 2 then some .triple else none
/-- PM of R335. -/
def PlaneMode.code : PlaneMode → BitVec 2 | .one => 0 | .shared => 1 | .triple => 2

/-! ### Decoding -/

/-- What a decoder answers when a check names the reason of refusal. -/
def need (c : Bool) (r : Reject) (k : Except Reject Instr) : Except Reject Instr := if c then k else .error r

/-- A decoded code, or the reason it is unassigned. -/
def withCode {α : Type} (o : Option α) (r : Reject) (k : α → Except Reject Instr) : Except Reject Instr :=
  match o with | some v => k v | none => .error r

/-- The common end of a lane arm: reserved bits are zero, and an instruction without a rounding event stands
behind no RND and no SIBC (R188 items 3 and 5). -/
def lane (rounds : Bool) (x : Lx) (zero : Bool) (i : Instr) : Except Reject Instr :=
  need zero .reserved (need (rounds || (x.rnd == 0 && x.sib == 0)) .lxNoRounding (.ok i))

/-- The LX fields of an LX word (Table 7-3). -/
def lxOf (f : Fields) : Lx :=
  { present := true, neg := f.d.getLsbD 5, pred := f.d.extractLsb' 2 3,
    rnd := f.d.extractLsb' 0 2 ++ f.a.extractLsb' 5 1, sib := f.a.extractLsb' 3 2, eor := false }
/-- IMM15 of an LX word (Table 7-3). -/
def immOf (f : Fields) : BitVec 15 := f.a.extractLsb' 0 3 ++ f.b ++ f.fn

/-- What R188 items 3, 4 and 8 require of an LX word by itself. -/
def lxFieldsOk (f : Fields) : Bool :=
  let x := lxOf f
  !f.eor && x.rnd != 7 && x.sib != 3 && !(x.sib == 2 && x.rnd != 0) && !(x.neg && x.pred == 7)

/-- Whether a word is an LX word: lane opcode 0x3F (R175). -/
def isLx (w : Word) : Bool := let f := unpack w; !f.set && f.op == 0x3F

/-- The IMM15 of opcodes 0x36 to 0x39 when there is no LX word: SCOPE 6 (R253). -/
def memImmDefault : BitVec 15 := 0x0180

/-- LM words: element type, segment and offset (R177, R178, Tables 7-2 and 7-6). -/
def parseLm (x : Lx) (imm : Option (BitVec 15)) (f : Fields) (load rel : Bool)
    (k : MTy → Scope → Seg → BitVec 20 → Except Reject Instr) : Except Reject Instr :=
  let i := imm.getD 0
  need (x.rnd == 0 && x.sib == 0) .lxNoRounding <|
  withCode (MTy.ofCode load (i.getLsbD 14) (lo3 f.b)) .code fun ty =>
  if rel then
    withCode (if imm.isSome then Scope.ofCode (i.extractLsb' 10 4) else some .device) .code fun sc =>
      k ty sc (Seg.ofCode (hi3 f.b)) ((i.extractLsb' 0 10 ++ f.fn).setWidth 20)
  else k ty .device (Seg.ofCode (hi3 f.b)) (i.extractLsb' 0 10 ++ i.extractLsb' 10 4 ++ f.fn)

/-- IMM15 of opcodes 0x36 to 0x39 (Table 10-1): scope, ordering and segment, with its reserved bits. -/
def parseMem (imm : Option (BitVec 15)) (wOk ordOk : Bool)
    (k : Bool → Scope → MemOrd → Seg → Except Reject Instr) : Except Reject Instr :=
  let i := imm.getD memImmDefault
  need (i.extractLsb' 11 4 == 0 && (wOk || !i.getLsbD 10) && (ordOk || i.extractLsb' 3 3 == 0)) .reserved <|
  withCode (Scope.ofCode (i.extractLsb' 6 4)) .code fun sc =>
  withCode (MemOrd.ofCode (i.extractLsb' 3 3)) .code fun o =>
  k (i.getLsbD 10) sc o (Seg.ofCode (i.extractLsb' 0 3))

/-- The member-mask fields of a warp-wide instruction's IMM15 (R268); without MM the group field is reserved. -/
def parseMm (imm : Option (BitVec 15)) (k : Option Reg → Except Reject Instr) : Except Reject Instr :=
  let i := imm.getD 0
  need (i.extractLsb' 11 4 == 0) .reserved <|
  if i.getLsbD 6 then k (some (i.extractLsb' 0 6))
  else need (i.extractLsb' 0 6 == 0) .reserved (k none)

/-- Lane opcodes 0x00 to 0x17 (Tables 8-2, 8-3, 8-4 and R211 to R217). -/
def parseInteger (x : Lx) (imm : Option (BitVec 15)) (f : Fields) : Except Reject Instr :=
  let d := f.d; let a := f.a; let b := f.b; let c := f.fn; let fn := f.fn
  let i := imm.getD 0
  let z := i == 0
  let w := fn.getLsbD 0
  let cy := hi3 fn
  let sat := fn.extractLsb' 1 2
  let m := lo3 fn
  match f.op.toNat with
  | 0x00 => need (sat != 3) .selector (lane false x z (.iadd x cy sat w d a b))
  | 0x01 => need (sat != 3) .selector (lane false x z (.isub x cy sat w d a b))
  | 0x02 => need (cy != 0) .selector (lane false x (z && sat == 0) (.iaddc x cy w d a b))
  | 0x03 => need (cy != 0) .selector (lane false x (z && sat == 0) (.isubb x cy w d a b))
  | 0x04 => lane false x (z && fn.extractLsb' 1 5 == 0) (.imul x w d a b)
  | 0x05 => lane false x (z && fn.extractLsb' 2 4 == 0) (.imulhi x (fn.getLsbD 1) w d a b)
  | 0x06 => lane false x (i.extractLsb' 1 14 == 0) (.imad x (i.getLsbD 0) d a b c)
  | 0x07 => lane false x (i.extractLsb' 1 14 == 0) (.imadw x (i.getLsbD 0) d a b c)
  | 0x08 => match (hi3 fn).toNat with
    | 0 => lane false x (z && !fn.getLsbD 2) (.imin x (fn.getLsbD 1) w d a b)
    | 1 => lane false x (z && !fn.getLsbD 2) (.imax x (fn.getLsbD 1) w d a b)
    | 2 => lane false x (z && !fn.getLsbD 1 && b == 0) (.iabs x (fn.getLsbD 2) w d a)
    | 3 => lane false x (z && !fn.getLsbD 1 && b == 0) (.ineg x (fn.getLsbD 2) w d a)
    | _ => .error .selector
  | 0x09 => match (hi3 fn).toNat with
    | 0 => lane false x (z && sat == 0) (.andB x w d a b)
    | 1 => lane false x (z && sat == 0) (.orB x w d a b)
    | 2 => lane false x (z && sat == 0) (.xorB x w d a b)
    | 3 => lane false x (z && sat == 0) (.andn x w d a b)
    | _ => .error .selector
  | 0x0A => match (hi3 fn).toNat with
    | 0 => lane false x (z && !fn.getLsbD 2) (.shl x (fn.getLsbD 1) w d a b)
    | 1 => lane false x (z && !fn.getLsbD 2) (.shr x (fn.getLsbD 1) w d a b)
    | 2 => lane false x (z && !fn.getLsbD 2) (.sar x (fn.getLsbD 1) w d a b)
    | 3 => lane false x (z && !fn.getLsbD 2) (.rotl x (fn.getLsbD 1) w d a b)
    | _ => .error .selector
  | 0x0B => lane false x (i.extractLsb' 1 14 == 0) (.fsh x (i.getLsbD 0) d a b c)
  | 0x0C => match (hi3 fn).toNat with
    | 0 => lane false x (z && sat == 0 && b == 0) (.popc x w d a)
    | 1 => lane false x (z && sat == 0 && b == 0) (.clz x w d a)
    | 2 => lane false x (z && sat == 0 && b == 0) (.ctz x w d a)
    | 3 => lane false x (z && sat == 0 && b == 0) (.brev x w d a)
    | _ => .error .selector
  | 0x0D => lane false x (z && fn.extractLsb' 2 4 == 0) (.bfx x (fn.getLsbD 1) w d a b)
  | 0x0E => lane false x (i.extractLsb' 1 14 == 0) (.bfi x (i.getLsbD 0) d a b c)
  | 0x0F => lane false x (!i.getLsbD 14) (.bpick x (i.extractLsb' 0 14 ++ fn) d a b)
  | 0x10 => need (Cond.ofCode m).integer .selector <|
    lane false x (z && hi3 d == 0 && !fn.getLsbD 5)
      (.icmp x (Cond.ofCode m) (fn.getLsbD 3) (fn.getLsbD 4) (lo3 d) a b)
  | 0x11 => lane false x (z && !fn.getLsbD 5) (.sel x (fn.getLsbD 4) (fn.getLsbD 3) m d a b)
  | 0x12 => match (hi3 fn).toNat with
    | 0 => need (!fn.getLsbD 2) .selector <|
      if fn.getLsbD 0 then
        lane false x (z && a == 0 && decide (b.toNat < 60)) (.movUniform x (fn.getLsbD 1) d b)
      else lane false x (z && b == 0) (.mov x (fn.getLsbD 1) d a)
    | 1 => withCode (LaneSr.ofCode b) .special fun sr => lane false x (z && a == 0 && m == 0) (.movs x d sr)
    | _ => .error .selector
  | 0x13 =>
    let v : BitVec 27 := match imm with | none => (b ++ fn).signExtend 27 | some i => i ++ (b ++ fn)
    need (!(a.getLsbD 0 && v.extractLsb' 16 11 != 0)) .selector <|
    lane false x (a.extractLsb' 1 5 == 0) (.movi x (a.getLsbD 0) d v)
  | 0x14 => match (fn.extractLsb' 4 2).toNat with
    | 0 => lane false x (z && a == 0 && b == 0 && fn.extractLsb' 0 4 == 0) (.movpRd x d)
    | 1 => lane false x (z && d == 0 && b == 0 && fn.extractLsb' 0 4 == 0) (.movpWr x a)
    | 2 => lane false x (z && hi3 d == 0 && hi3 a == 0 && hi3 b == 0)
        (.movpLop x (fn.extractLsb' 0 4) (lo3 d) (lo3 a) (lo3 b))
    | _ => .error .selector
  | 0x15 => lane true x (z && fn.extractLsb' 2 4 == 0) (.fadd x (FTy.ofCode (fn.extractLsb' 0 2)) d a b)
  | 0x16 => lane true x (z && fn.extractLsb' 2 4 == 0) (.fsub x (FTy.ofCode (fn.extractLsb' 0 2)) d a b)
  | 0x17 => lane true x (z && fn.extractLsb' 2 4 == 0) (.fmul x (FTy.ofCode (fn.extractLsb' 0 2)) d a b)
  | _ => .error .opcode

/-- Lane opcodes 0x18 to 0x27 (R220 to R235). -/
def parseFloat (x : Lx) (imm : Option (BitVec 15)) (f : Fields) : Except Reject Instr :=
  let d := f.d; let a := f.a; let b := f.b; let fn := f.fn
  let i := imm.getD 0
  let z := i == 0
  let ty := FTy.ofCode (fn.extractLsb' 0 2)
  let t2 := !fn.getLsbD 2
  match f.op.toNat with
  | 0x18 => lane true x z (.ffmaF32 x d a b fn)
  | 0x19 => lane true x z (.ffmaF64 x d a b fn)
  | 0x1A => match (hi3 fn).toNat with
    | 0 => lane false x (z && t2) (.fmin x ty d a b)
    | 1 => lane false x (z && t2) (.fmax x ty d a b)
    | 2 => lane false x (z && t2) (.fminm x ty d a b)
    | 3 => lane false x (z && t2) (.fmaxm x ty d a b)
    | _ => .error .selector
  | 0x1B => match (hi3 fn).toNat with
    | 0 => lane false x (z && t2 && b == 0) (.fabs x ty d a)
    | 1 => lane false x (z && t2 && b == 0) (.fneg x ty d a)
    | 2 => lane false x (z && t2) (.fcopysign x ty d a b)
    | _ => .error .selector
  | 0x1C => lane false x (z && hi3 d == 0 && !fn.getLsbD 5)
      (.fcmp x (Cond.ofCode (lo3 fn)) (FTy.ofCode (fn.extractLsb' 3 2)) (lo3 d) a b)
  | 0x1D => lane false x (z && fn.extractLsb' 2 4 == 0 && b == 0) (.fclass x ty d a)
  | 0x1E => lane true x (z && fn.extractLsb' 2 4 == 0) (.fdiv x ty d a b)
  | 0x1F => match (hi3 fn).toNat with
    | 0 => lane true x (z && t2 && b == 0) (.fsqrt x ty d a)
    | 1 => lane true x (z && t2 && b == 0) (.frcp x ty d a)
    | 2 => lane true x (z && t2 && b == 0) (.frsq x ty d a)
    | _ => .error .selector
  | 0x20 => need (ty != .f64) .selector <| match (hi3 fn).toNat with
    | 0 => lane true x (z && t2 && b == 0) (.fex2 x ty d a)
    | 1 => lane true x (z && t2 && b == 0) (.flg2 x ty d a)
    | 2 => lane true x (z && t2 && b == 0) (.fsin x ty d a)
    | 3 => lane true x (z && t2 && b == 0) (.fcos x ty d a)
    | 4 => lane true x (z && t2 && b == 0) (.ftanh x ty d a)
    | _ => .error .selector
  | 0x21 => lane true x (z && fn.extractLsb' 4 2 == 0 && b == 0) (.frint x (fn.getLsbD 3) (fn.getLsbD 2) ty d a)
  | 0x22 => withCode (CvtFmt.ofCode (hi3 fn)) .selector fun dst =>
    withCode (CvtFmt.ofCode (lo3 fn)) .selector fun src =>
    lane true x (i.extractLsb' 1 14 == 0 && b == 0) (.fcvt x (i.getLsbD 0) dst src d a)
  | 0x23 => match (hi3 fn).toNat with
    | 0 => lane true x (i.extractLsb' 2 13 == 0 && b == 0)
        (.f2i x (i.getLsbD 1) (i.getLsbD 0) (fn.getLsbD 2) ty d a)
    | 1 => lane true x (i.extractLsb' 1 14 == 0 && b == 0) (.i2f x (i.getLsbD 0) (fn.getLsbD 2) ty d a)
    | _ => .error .selector
  | 0x24 => match (hi3 fn).toNat with
    | 0 => lane true x (z && t2) (.fldexp x ty d a b)
    | 1 => lane false x (z && t2 && b == 0) (.ffrexp x ty d a)
    | _ => .error .selector
  | 0x25 => match (hi3 fn).toNat with
    | 0 => lane false x (z && t2 && b == 0) (.digits x ty d a)
    | 1 => lane false x (z && t2 && b == 0) (.agree x ty d a)
    | _ => .error .selector
  | 0x26 => match (hi3 fn).toNat with
    | 0 => need (fn.extractLsb' 0 2 != 3) .selector <|
      lane false x (z && b == 0) (.sibget x (fn.getLsbD 2) (fn.extractLsb' 0 2) d a)
    | 1 => need (fn.extractLsb' 0 2 != 3) .selector <|
      lane false x (z && b == 0) (.sibput x (fn.getLsbD 2) (fn.extractLsb' 0 2) d a)
    | 2 => need (fn.extractLsb' 0 2 != 3) .selector <|
      lane false x (z && b == 0) (.sibrot x (fn.getLsbD 2) (fn.extractLsb' 0 2) d a)
    | 3 => lane false x (z && t2 && b == 0) (.sibmean x ty d a)
    | 4 => lane false x (z && fn.extractLsb' 1 2 == 0 && b == 0) (.sibmaj x (fn.getLsbD 0) d a)
    | _ => .error .selector
  | 0x27 => lane true x (z && fn == 0 && a == 0) (.rdraw x d b)
  | _ => .error .opcode

/-- Lane opcodes 0x28 to 0x2E (R238 to R250). An `fdp16` without a scale whose e field is not 0 is rejected like one with a
reserved field, though R238 does not say so (log 104). -/
def parsePacked (x : Lx) (imm : Option (BitVec 15)) (f : Fields) : Except Reject Instr :=
  let d := f.d; let a := f.a; let b := f.b; let fn := f.fn
  let i := imm.getD 0
  let z := i == 0
  match f.op.toNat with
  | 0x28 =>
    let sc := if i.getLsbD 0 then some (i.extractLsb' 1 6) else none
    lane true x (fn.extractLsb' 2 4 == 0 && i.extractLsb' 7 8 == 0 && (i.getLsbD 0 || i.extractLsb' 1 6 == 0))
      (.fdp16 x sc (fn.getLsbD 0) (fn.getLsbD 1) d a b)
  | 0x29 => match (hi3 fn).toNat with
    | 0 => lane true x (z && fn.extractLsb' 1 2 == 0) (.fdp8 x (fn.getLsbD 0) d a b)
    | 1 => need (!(fn.getLsbD 2 && fn.extractLsb' 0 2 != 3)) .selector <|
      lane true x (i.extractLsb' 6 9 == 0) (.fdpsc x (fn.getLsbD 2) (fn.extractLsb' 0 2) (i.extractLsb' 0 6) d a b)
    | _ => .error .selector
  | 0x2A => match (hi3 fn).toNat with
    | 0 => lane false x z (.idp4 x (fn.getLsbD 2) (fn.getLsbD 1) (fn.getLsbD 0) d a b)
    | 1 => lane false x z (.idp8 x (fn.getLsbD 2) (fn.getLsbD 1) (fn.getLsbD 0) d a b)
    | _ => .error .selector
  | 0x2B => match (hi3 fn).toNat with
    | 0 => withCode (CvtFmt.ofCode (lo3 fn)) .selector fun dst =>
      need (dst != .f32 && dst != .f64) .selector <|
      lane true x (i.extractLsb' 2 13 == 0 && (i.getLsbD 0 || b == 0))
        (.cvtpk x (i.getLsbD 1) dst d a (if i.getLsbD 0 then some b else none))
    | 1 => withCode (CvtFmt.ofCode (lo3 fn)) .selector fun src =>
      need (src != .f32 && src != .f64) .selector <| lane false x (z && b == 0) (.cvtupk x src d a)
    | 2 => withCode (ScdecCode.ofCode (lo3 fn)) .selector fun c => lane false x (z && b == 0) (.scdec x c d a)
    | _ => .error .selector
  | 0x2C => withCode (SparseTy.ofCode (lo3 fn)) .selector fun ty =>
    lane false x (z && hi3 fn == 0 && b == 0) (.sparsify x ty d a)
  | 0x2D => match (lo3 fn).toNat with
    | 0 => lane false x (z && d == 0 && a == 0 && b == 0) (.xclr x (hi3 fn))
    | 1 => lane false x (z && d == 0 && b == 0) (.xadd x (hi3 fn) a)
    | 2 => lane false x (z && d == 0) (.xfma x (hi3 fn) a b)
    | 3 => lane true x (z && a == 0 && b == 0) (.xget x (hi3 fn) d)
    | _ => .error .selector
  | 0x2E => match (hi3 fn).toNat with
    | 0 => lane false x (z && d == 0 && hi3 b == 0) (.xmerge x (lo3 fn) (Seg.ofCode (lo3 b)) a)
    | 1 => lane false x (z && d == 0 && hi3 b == 0) (.xsave x (lo3 fn) (Seg.ofCode (lo3 b)) a)
    | 2 => lane false x (z && d == 0 && hi3 b == 0) (.xload x (lo3 fn) (Seg.ofCode (lo3 b)) a)
    | 3 => lane false x (z && a == 0 && b == 0) (.xstat x (lo3 fn) d)
    | _ => .error .selector
  | _ => .error .opcode

/-- Lane opcodes 0x2F to 0x31: warp-wide instructions (R268 to R272). -/
def parseWarpWide (x : Lx) (imm : Option (BitVec 15)) (f : Fields) : Except Reject Instr :=
  let d := f.d; let a := f.a; let b := f.b; let fn := f.fn
  let i := imm.getD 0
  let e := i.extractLsb' 7 4 == 0
  parseMm imm fun mm =>
  match f.op.toNat with
  | 0x2F => match (hi3 fn).toNat, (lo3 fn).toNat with
    | 0, 0 => lane false x (e && hi3 d == 0 && hi3 a == 0 && b == 0) (.pollSome x mm (lo3 d) (lo3 a))
    | 0, 1 => lane false x (e && hi3 d == 0 && hi3 a == 0 && b == 0) (.pollEvery x mm (lo3 d) (lo3 a))
    | 0, 2 => lane false x (e && hi3 d == 0 && hi3 a == 0 && b == 0) (.pollSame x mm (lo3 d) (lo3 a))
    | 0, 3 => lane false x (e && hi3 a == 0 && b == 0) (.pollCount x mm d (lo3 a))
    | 0, 4 => lane false x (e && hi3 a == 0 && b == 0) (.pollMask x mm d (lo3 a))
    | 1, 0 => lane false x (e && hi3 d == 0 && a == 0 && b == 0) (.leadFirst x mm (lo3 d))
    | 1, 1 => lane false x (e && hi3 d == 0 && a == 0 && b == 0) (.leadLast x mm (lo3 d))
    | 2, 0 => lane false x (e && a == 0 && b == 0) (.wmask x mm d)
    | _, _ => .error .selector
  | 0x30 =>
    let mode := XlaneMode.ofCode (fn.extractLsb' 0 2)
    need (decide ((i.extractLsb' 7 4).toNat ≤ 8)) .selector <|
    lane false x (hi3 fn == 0 && (mode != .rev || b == 0))
      (.xlane x mm (i.extractLsb' 7 4) mode (fn.getLsbD 2) d a b)
  | 0x31 =>
    let ty := AtomTy.ofCode (i.extractLsb' 7 3)
    let op := AtomOp.ofCode (lo3 fn)
    match (hi3 fn).toNat with
    | 0 => need (wredAllowed op ty) .selector <|
      lane (ty.float && op == .add) x (!i.getLsbD 10 && b == 0) (.wred x mm ty op d a)
    | 1 => need (wredAllowed op ty) .selector <|
      lane (ty.float && op == .add) x (b == 0) (.wscan x mm (i.getLsbD 10) ty op d a)
    | 2 => lane false x (e && fn.extractLsb' 1 2 == 0 && b == 0) (.warpMatch x mm (fn.getLsbD 0) d a)
    | _ => .error .selector
  | _ => .error .opcode

/-- Lane opcodes 0x32 to 0x3A: memory and fences (R253 to R267). -/
def parseMemory (x : Lx) (imm : Option (BitVec 15)) (f : Fields) : Except Reject Instr :=
  let d := f.d; let a := f.a; let b := f.b; let fn := f.fn
  match f.op.toNat with
  | 0x32 => parseLm x imm f true false fun ty _ seg off => .ok (.ld x ty seg off d a)
  | 0x33 => parseLm x imm f false false fun ty _ seg off => .ok (.st x ty seg off d a)
  | 0x34 => parseLm x imm f true true fun ty sc seg off => .ok (.lda x ty sc seg (off.setWidth 16) d a)
  | 0x35 => parseLm x imm f false true fun ty sc seg off => .ok (.stl x ty sc seg (off.setWidth 16) d a)
  | 0x36 =>
    let op := AtomOp.ofCode (hi3 fn); let ty := AtomTy.ofCode (lo3 fn)
    need (atomAllowed op ty) .selector <| parseMem imm false true fun _ sc o seg =>
    lane (ty.float && op == .add) x true (.atom x op ty o sc seg d a b)
  | 0x37 => parseMem imm true true fun w sc o seg => lane false x true (.atomc x w o sc seg d a b fn)
  | 0x38 =>
    let op := AtomOp.ofCode (hi3 fn); let ty := AtomTy.ofCode (lo3 fn)
    need (atomAllowed op ty && op != .exch) .selector <| parseMem imm false true fun _ sc o seg =>
    need (redOrd o) .selector <| lane (ty.float && op == .add) x (d == 0) (.red x op ty o sc seg a b)
  | 0x39 => match (hi3 fn).toNat with
    | 0 =>
      let i := imm.getD memImmDefault
      need (i.extractLsb' 10 5 == 0 && i.extractLsb' 4 2 == 0) .reserved <|
      withCode (Scope.ofCode (i.extractLsb' 6 4)) .code fun sc =>
      lane false x (fn.extractLsb' 1 2 == 0 && b.extractLsb' 4 2 == 0 && (fn.getLsbD 0 || b == 0))
        (.cpa x sc (Seg.ofCode (i.extractLsb' 0 3)) (i.getLsbD 3)
          (if fn.getLsbD 0 then some (b.extractLsb' 0 4) else none) d a)
    | 1 => withCode (PrefLevel.ofCode (lo3 fn)) .selector fun lv => parseMem imm false false fun _ sc _ seg =>
      lane false x (d == 0 && b == 0) (.pref x sc seg lv a)
    | 2 => parseMem imm false false fun _ sc _ seg => lane false x (lo3 fn == 0 && b == 0) (.ldf x sc seg d a)
    | 3 => parseMem imm false false fun _ sc _ seg => lane false x (lo3 fn == 0 && d == 0) (.stf x sc seg a b)
    | 4 => parseMem imm false false fun _ sc _ seg =>
      lane false x (lo3 fn == 0 && d == 0 && b == 0) (.mwatch x sc seg a)
    | 5 => parseMem imm false false fun _ sc _ seg => lane false x (lo3 fn == 0 && a == 0) (.mwait x sc seg d b)
    | 6 => parseMem imm false false fun _ sc _ seg => lane false x (lo3 fn == 0 && b == 0) (.tcopy x sc seg d a)
    | _ => .error .selector
  | 0x3A => withCode (MemOrd.ofCode (lo3 fn)) .code fun o => withCode (Scope.ofCode (b.extractLsb' 0 4)) .code fun sc =>
    lane false x (imm.getD 0 == 0 && hi3 fn == 0 && b.extractLsb' 4 2 == 0 && d == 0 && a == 0) (.fence x o sc)
  | _ => .error .opcode

/-- Lane opcodes 0x3B to 0x3D: control (R273 to R283). -/
def parseControl (x : Lx) (imm : Option (BitVec 15)) (f : Fields) : Except Reject Instr :=
  let d := f.d; let a := f.a; let b := f.b; let fn := f.fn
  let i := imm.getD 0
  let z := i == 0
  let off20 : BitVec 20 := d.extractLsb' 0 2 ++ a ++ b ++ fn
  let off35 : BitVec 35 := match imm with | none => off20.signExtend 35 | some v => v ++ off20
  let neg := d.getLsbD 2
  let pred : Pred := hi3 d
  let lb := fun (i : Instr) =>
    need (x.pred == 7 && !x.neg) .lxBranch <| need (!(neg && pred == 7)) .guardNeg <| lane false x true i
  let table : BitVec 27 := match imm with | none => (d ++ b).signExtend 27 | some v => v ++ (d ++ b)
  match f.op.toNat with
  | 0x3B => lb (.bra x neg pred off35)
  | 0x3C => lb (.call x neg pred off35)
  | 0x3D => need (fn.extractLsb' 0 2 == 0) .reserved <| match (fn.extractLsb' 2 4).toNat with
    | 0 => lane false x true (.brx x table a)
    | 1 => lane false x true (.callx x table a)
    | 2 => lane false x (z && d == 0 && b == 0) (.ret x a)
    | 3 => lane false x (z && d == 0 && a == 0 && b == 0) (.exit x)
    | 4 => lane false x (z && d == 0 && a == 0 && b == 0) (.tail x)
    | 5 =>
      let off : BitVec 33 := match imm with | none => (d ++ a ++ b).signExtend 33 | some v => v ++ (d ++ a ++ b)
      lane false x true (.rcvset x off)
    | 6 => lane false x (z && d == 0 && a == 0 && b == 0) (.rcvwait x)
    | 7 => need (decide ((i.extractLsb' 6 4).toNat ≤ 8)) .selector <|
      lane false x (i.extractLsb' 10 5 == 0 && hi3 d == 0)
        (.spawn x (i.extractLsb' 6 4) (i.extractLsb' 0 6) (lo3 d) a b)
    | 8 => lane false x (z && b == 0) (.jwait x d a)
    | 9 => lane false x (z && d == 0 && a == 0 && b == 0) (.yield x)
    | 10 => lane false x (z && d == 0) (.trap x (a ++ b))
    | 11 => lane false x (z && d == 0 && a == 0 && b == 0) (.brkpt x)
    | 12 => lane false x (z && d == 0 && a == 0 && b == 0) (.nop x)
    | _ => .error .selector
  | _ => .error .opcode

/-- The lane set by opcode (Table 7-10). -/
def parseLane (x : Lx) (imm : Option (BitVec 15)) (f : Fields) : Except Reject Instr :=
  if f.op.toNat < 0x18 then parseInteger x imm f
  else if f.op.toNat < 0x28 then parseFloat x imm f
  else if f.op.toNat < 0x2F then parsePacked x imm f
  else if f.op.toNat < 0x32 then parseWarpWide x imm f
  else if f.op.toNat < 0x3B then parseMemory x imm f
  else parseControl x imm f

/-- A uniform arm whose reserved bits must be zero. -/
def uni (zero : Bool) (i : Instr) : Except Reject Instr := need zero .reserved (.ok i)

/-- The uniform set (Table 7-12, R289 to R323). -/
def parseUniform (f : Fields) : Except Reject Instr :=
  let e := f.eor; let d := f.d; let a := f.a; let b := f.b; let fn := f.fn
  let w := fn.getLsbD 0
  let imm18 : BitVec 18 := a ++ b ++ fn
  let h15 := fn.extractLsb' 1 5 == 0
  let bar := d.extractLsb' 0 4
  let barZ := d.extractLsb' 4 2 == 0
  match f.op.toNat with
  | 0x00 => uni h15 (.sadd e w d a b)
  | 0x01 => uni h15 (.ssub e w d a b)
  | 0x02 => uni h15 (.smul e w d a b)
  | 0x03 => uni (fn.extractLsb' 2 4 == 0) (.smulhi e (fn.getLsbD 1) w d a b)
  | 0x04 => match (hi3 fn).toNat with
    | 0 => uni (fn.extractLsb' 1 2 == 0) (.sand e w d a b)
    | 1 => uni (fn.extractLsb' 1 2 == 0) (.sor e w d a b)
    | 2 => uni (fn.extractLsb' 1 2 == 0) (.sxor e w d a b)
    | _ => .error .selector
  | 0x05 => match (hi3 fn).toNat with
    | 0 => uni (!fn.getLsbD 2) (.sshl e (fn.getLsbD 1) w d a b)
    | 1 => uni (!fn.getLsbD 2) (.sshr e (fn.getLsbD 1) w d a b)
    | 2 => uni (!fn.getLsbD 2) (.ssar e (fn.getLsbD 1) w d a b)
    | _ => .error .selector
  | 0x06 => match (hi3 fn).toNat with
    | 0 => uni (!fn.getLsbD 2) (.smin e (fn.getLsbD 1) w d a b)
    | 1 => uni (!fn.getLsbD 2) (.smax e (fn.getLsbD 1) w d a b)
    | _ => .error .selector
  | 0x07 => uni (h15 && b == 0) (.smov e w d a)
  | 0x08 => uni true (.simm e d imm18)
  | 0x09 => uni (imm18.extractLsb' 16 2 == 0) (.simmh e d (imm18.setWidth 16))
  | 0x0A => need (Cond.ofCode (lo3 fn)).integer .selector <|
    uni (hi3 d == 0 && !fn.getLsbD 5) (.scmp e (Cond.ofCode (lo3 fn)) (fn.getLsbD 3) (fn.getLsbD 4) (lo3 d) a b)
  | 0x0B => uni (!fn.getLsbD 5) (.ssel e (fn.getLsbD 4) (fn.getLsbD 3) (lo3 fn) d a b)
  | 0x0C => withCode (USize.ofCode (lo3 b)) .code fun sz => need (Seg.ofCode (hi3 b) != .priv) .selector <|
    uni true (.sld e sz (Seg.ofCode (hi3 b)) fn d a)
  | 0x0D => withCode (USize.ofCode (lo3 b)) .code fun sz => need (Seg.ofCode (hi3 b) != .priv) .selector <|
    uni true (.sst e sz (Seg.ofCode (hi3 b)) fn d a)
  | 0x0E =>
    let op := AtomOp.ofCode (hi3 fn); let ty := AtomTy.ofCode (0#1 ++ fn.extractLsb' 0 2)
    need (atomAllowed op ty) .selector (uni true (.satom e op (fn.getLsbD 2) (fn.extractLsb' 0 2) d a b))
  | 0x0F => uni (fn.extractLsb' 2 4 == 0) (.rdlane e (fn.getLsbD 1) w d a b)
  | 0x10 => uni true (.jmp e (d ++ a ++ b ++ fn))
  | 0x11 => need (!(d.getLsbD 5 && d.extractLsb' 2 3 == 7)) .guardNeg <|
    uni true (.jc e (d.getLsbD 5) (d.extractLsb' 2 3) (d.extractLsb' 0 2 ++ a ++ b ++ fn))
  | 0x12 => uni (d == 0 && b == 0 && fn == 0) (.jx e a)
  | 0x14 => uni (barZ && b == 0 && h15) (.binit e w bar a)
  | 0x15 => uni (barZ && b == 0 && h15 && (w || a == 0)) (.barrive e bar (if w then some a else none))
  | 0x16 => match (hi3 fn).toNat with
    | 0 => uni (barZ && b == 0 && lo3 fn == 0) (.bwait e bar a)
    | 1 => uni (barZ && b == 0) (.btest e (lo3 fn) bar a)
    | _ => .error .selector
  | 0x17 => uni (barZ && b == 0 && fn == 0) (.bexpect e bar a)
  | 0x18 => uni (d == 0 && a == 0 && b == 0 && fn == 0) (.cbar e)
  | 0x19 => uni true (.wait e d a b fn)
  | 0x1A => match (hi3 fn).toNat with
    | 0 => need (lo3 fn != 0) .selector (uni (d == 0 && a == 0 && b == 0) (.claim e (lo3 fn)))
    | 1 => need (lo3 fn != 0) .selector (uni (d == 0 && a == 0 && b == 0) (.give e (lo3 fn)))
    | _ => .error .selector
  | 0x1B => match (hi3 fn).toNat with
    | 0 => uni (b.extractLsb' 2 4 == 0 && a == 0) (.qtryPop e (lo3 fn) d (b.extractLsb' 0 2))
    | 1 => uni (b.extractLsb' 2 4 == 0 && d == 0) (.qtryPush e (lo3 fn) (b.extractLsb' 0 2) a)
    | _ => .error .reserved
  | 0x1C => uni (h15 && a == 0 && b == 0) (.tlrd e (Engine.ofCode w) d)
  | 0x1D => uni (h15 && d == 0 && b == 0) (.tlwait e (Engine.ofCode w) a)
  | 0x1E => uni (d == 0 && fn == 0) (.tagpub e a b)
  | 0x1F => uni (fn == 0) (.tagrd e d a b)
  | 0x20 => uni (hi3 d == 0 && fn == 0) (.tqpush e (lo3 d) a b)
  | 0x21 => uni (hi3 d == 0 && fn == 0) (.tqtake e (lo3 d) a b)
  | 0x22 => uni (d == 0 && a == 0 && b == 0 && fn == 0) (.ordwait e)
  | 0x23 => need (imm18.extractLsb' 10 8 == 0) .reserved <|
    withCode (USr.ofCode (imm18.extractLsb' 0 10)) .special fun sr => .ok (.rdsr e d sr)
  | 0x24 => need (imm18.extractLsb' 10 8 == 0) .reserved <|
    withCode (USr.ofCode (imm18.extractLsb' 0 10)) .special fun sr => need sr.writable .special (.ok (.wrsr e sr d))
  | 0x25 => uni (hi3 d == 0 && b == 0 && fn == 0) (.segld e (lo3 d) a)
  | 0x26 => need (fn.extractLsb' 4 2 == 0 && d == 0) .reserved <|
    need (decide (3 ≤ (fn.extractLsb' 0 4).toNat) && decide ((fn.extractLsb' 0 4).toNat ≤ 6)) .selector <|
    withCode (Scope.ofCode (fn.extractLsb' 0 4)) .code fun sc => .ok (.icinv e sc a b)
  | 0x27 =>
    if w then uni (h15 && d == 0 && a == 0 && b == 0) (.tlbinvAsid e) else uni (h15 && d == 0 && b == 0) (.tlbinvPage e a)
  | 0x28 => uni (hi3 d == 0 && b == 0 && fn == 0) (.rmack e (lo3 d) a)
  | 0x29 => uni (d == 0 && a == 0 && b == 0 && fn == 0) (.snop e)
  | 0x2A => uni (d == 0) (if imm18 = 0x3FFFF then .resume e else .strap e imm18)
  | _ => .error .opcode

/-- The instruction a word is, behind an LX word or alone; an LX word alone is its own instruction, which the fetch
of its successor completes (R175, R188). -/
def decode (lx : Option Word) (w : Word) : Except Reject Instr :=
  let f := unpack w
  match lx with
  | some p =>
    let g := unpack p
    need (isLx p && lxFieldsOk g) .lxField <| need (!f.set && f.op != 0x3F) .lxTarget <|
    parseLane { lxOf g with eor := f.eor } (some (immOf g)) f
  | none =>
    if f.set then parseUniform f
    else if f.op = 0x3F then
      let x := lxOf f
      need (lxFieldsOk f) .lxField (.ok (.lxWord x.neg x.pred x.rnd x.sib (immOf f)))
    else parseLane { Lx.none with eor := f.eor } none f

/-! ### Foreman words -/

/-- A Foreman word as opcode and groups (Table 12-6). -/
structure FmFields where
  op : BitVec 8
  s : BitVec 4
  pm : BitVec 2
  a : BitVec 3
  b : BitVec 3
  c : BitVec 3
  d : BitVec 3
  low : BitVec 38
deriving DecidableEq, Repr

/-- The fields of a Foreman word (R180, R337). -/
def unpackFm (w : Double) : FmFields :=
  ⟨w.extractLsb' 56 8, w.extractLsb' 52 4, w.extractLsb' 50 2, w.extractLsb' 47 3, w.extractLsb' 44 3,
    w.extractLsb' 41 3, w.extractLsb' 38 3, w.extractLsb' 0 38⟩

/-- The Foreman word of given fields. -/
def packFm (f : FmFields) : Double :=
  f.op ++ f.s ++ f.pm ++ f.a ++ f.b ++ f.c ++ f.d ++ f.low

/-- The Foreman instruction a word is; SUB, RND and SC values that are not assigned are refused here, operands at
execution (R190, R337, R355). -/
def decodeForeman (w : Double) : Except Reject Instr :=
  let f := unpackFm w
  let l : BitVec 3 := f.s.extractLsb' 0 3
  let s3 := !f.s.getLsbD 3
  let cd := f.c == 0 && f.d == 0
  let bcd := f.b == 0 && cd
  let abcd := f.a == 0 && bcd
  let lz := f.low == 0
  match f.op.toNat with
  | 0x01 => uni (s3 && f.pm == 0 && abcd && f.low.extractLsb' 20 18 == 0) (.mlay l (f.low.extractLsb' 0 20))
  | 0x02 => uni (s3 && abcd && f.low.extractLsb' 32 6 == 0) (.madd l f.pm (f.low.extractLsb' 0 32))
  | 0x03 => need (!f.pm.getLsbD 1) .selector <|
    uni (f.a.extractLsb' 0 2 == 0 && bcd && lz) (.mclr f.s (f.pm.getLsbD 0) (f.a.getLsbD 2))
  | 0x04 => withCode (PlaneMode.ofCode f.pm) .selector fun pm => uni (cd && lz) (.mma f.s pm f.a f.b)
  | 0x05 => withCode (PlaneMode.ofCode f.pm) .selector fun pm => uni (f.d == 0 && lz) (.mmas f.s pm f.a f.b f.c)
  | 0x06 => withCode (PlaneMode.ofCode f.pm) .selector fun pm => uni lz (.mmax f.s pm f.a f.b f.c f.d)
  | 0x07 => uni (bcd && lz) (.mrd f.s f.pm f.a)
  | 0x08 => uni (f.pm == 0 && bcd && lz) (.mcol f.s f.a)
  | 0x09 => uni (f.pm == 0 && abcd && lz) (.mbarr f.s)
  | 0x0A => uni (f.pm == 0 && abcd && lz) (.mbwait f.s)
  | 0x0B => need (l == 0 && f.pm == 0 && abcd && f.low.extractLsb' 24 14 == 0) .reserved <|
    if f.s.getLsbD 3 then .ok (.mloopL (f.low.extractLsb' 0 24)) else .ok (.mloop (f.low.extractLsb' 0 24))
  | 0x0C => uni (f.s == 0 && f.pm == 0 && abcd && lz) .mendl
  | 0x0D => uni (f.s == 0 && f.pm == 0 && abcd && f.low.extractLsb' 32 6 == 0) (.mjmp (f.low.extractLsb' 0 32))
  | 0x0E => need (f.s == 2 || f.s == 4) .selector <|
    uni (f.pm == 0 && abcd && f.low.extractLsb' 22 16 == 0) (.mstamp (f.s == 4) (f.low.extractLsb' 0 22))
  | 0x0F => need (f.pm == 0 && abcd && f.low.extractLsb' 24 14 == 0) .reserved <| match f.s.toNat with
    | 0 =>
      let code := f.low.extractLsb' 0 3
      need (code != 0 && code != 7) .selector <| uni (f.low.extractLsb' 3 21 == 0) (.mconfRnd code)
    | 1 => uni (f.low.extractLsb' 20 4 == 0) (.mconfTs (f.low.extractLsb' 0 20))
    | 2 => uni (f.low.extractLsb' 16 4 == 0) (.mconfWph (f.low.extractLsb' 20 4) (f.low.extractLsb' 0 16))
    | _ => .error .selector
  | 0x10 => uni (f.s == 0 && f.pm == 0 && abcd && lz) .mend
  | _ => .error .opcode

/-! ### Encoding -/

/-- What an instruction is stored as. -/
inductive Code where
  | lane (lx : Option Word) (w : Word)
  | foreman (w : Double)
  | event
deriving DecidableEq, Repr

/-- An LX word (Table 7-3). -/
def packLx (neg : Bool) (pred : Pred) (rnd : BitVec 3) (sib : BitVec 2) (imm : BitVec 15) : Word :=
  pack ⟨false, false, 0x3F, bit neg ++ pred ++ rnd.extractLsb' 1 2,
    rnd.extractLsb' 0 1 ++ sib ++ imm.extractLsb' 12 3, imm.extractLsb' 6 6, imm.extractLsb' 0 6⟩

/-- A lane word, with its LX word where one is present. -/
def enc (x : Lx) (imm : BitVec 15) (op d a b fn : BitVec 6) : Code :=
  .lane (if x.present then some (packLx x.neg x.pred x.rnd x.sib imm) else none) (pack ⟨false, x.eor, op, d, a, b, fn⟩)

/-- A uniform word. -/
def encU (e : Bool) (op d a b fn : BitVec 6) : Code := .lane none (pack ⟨true, e, op, d, a, b, fn⟩)

/-- A predicate number in a six-bit field. -/
def ofPred (p : Pred) : BitVec 6 := 0#3 ++ p
/-- A barrier number in a six-bit field. -/
def ofBar (b : BitVec 4) : BitVec 6 := 0#2 ++ b
/-- fn of a selector and three modifier bits. -/
def fnOf (sel : BitVec 3) (m2 m1 m0 : Bool) : BitVec 6 := sel ++ bit m2 ++ bit m1 ++ bit m0
/-- IMM15 of Table 10-1. -/
def memImm (w : Bool) (sc : Scope) (o : MemOrd) (seg : Seg) : BitVec 15 :=
  0#4 ++ bit w ++ sc.code ++ o.code ++ seg.code
/-- The low seven IMM15 bits of R268. -/
def mmImm (hi : BitVec 4) (mm : Option Reg) : BitVec 15 :=
  0#4 ++ hi ++ bit mm.isSome ++ mm.getD 0
/-- IMM15 holding only bits 1 and 0. -/
def imm2 (b1 b0 : Bool) : BitVec 15 := 0#13 ++ bit b1 ++ bit b0

/-- The words of the lane opcodes 0x00 to 0x31. -/
def encodeLane : Instr → Option Code
  | .lxWord n p r s i => some (.lane none (packLx n p r s i))
  | .iadd x cy sat w d a b => some (enc x 0 0x00 d a b (cy ++ sat ++ bit w))
  | .isub x cy sat w d a b => some (enc x 0 0x01 d a b (cy ++ sat ++ bit w))
  | .iaddc x cy w d a b => some (enc x 0 0x02 d a b (cy ++ 0#2 ++ bit w))
  | .isubb x cy w d a b => some (enc x 0 0x03 d a b (cy ++ 0#2 ++ bit w))
  | .imul x w d a b => some (enc x 0 0x04 d a b (fnOf 0 false false w))
  | .imulhi x s w d a b => some (enc x 0 0x05 d a b (fnOf 0 false s w))
  | .imad x w d a b c => some (enc x (imm2 false w) 0x06 d a b c)
  | .imadw x s d a b c => some (enc x (imm2 false s) 0x07 d a b c)
  | .imin x s w d a b => some (enc x 0 0x08 d a b (fnOf 0 false s w))
  | .imax x s w d a b => some (enc x 0 0x08 d a b (fnOf 1 false s w))
  | .iabs x sat w d a => some (enc x 0 0x08 d a 0 (fnOf 2 sat false w))
  | .ineg x sat w d a => some (enc x 0 0x08 d a 0 (fnOf 3 sat false w))
  | .andB x w d a b => some (enc x 0 0x09 d a b (fnOf 0 false false w))
  | .orB x w d a b => some (enc x 0 0x09 d a b (fnOf 1 false false w))
  | .xorB x w d a b => some (enc x 0 0x09 d a b (fnOf 2 false false w))
  | .andn x w d a b => some (enc x 0 0x09 d a b (fnOf 3 false false w))
  | .shl x i w d a b => some (enc x 0 0x0A d a b (fnOf 0 false i w))
  | .shr x i w d a b => some (enc x 0 0x0A d a b (fnOf 1 false i w))
  | .sar x i w d a b => some (enc x 0 0x0A d a b (fnOf 2 false i w))
  | .rotl x i w d a b => some (enc x 0 0x0A d a b (fnOf 3 false i w))
  | .fsh x l d a b c => some (enc x (imm2 false l) 0x0B d a b c)
  | .popc x w d a => some (enc x 0 0x0C d a 0 (fnOf 0 false false w))
  | .clz x w d a => some (enc x 0 0x0C d a 0 (fnOf 1 false false w))
  | .ctz x w d a => some (enc x 0 0x0C d a 0 (fnOf 2 false false w))
  | .brev x w d a => some (enc x 0 0x0C d a 0 (fnOf 3 false false w))
  | .bfx x s w d a b => some (enc x 0 0x0D d a b (fnOf 0 false s w))
  | .bfi x w d a b c => some (enc x (imm2 false w) 0x0E d a b c)
  | .bpick x ctl d a b => some (enc x (0#1 ++ ctl.extractLsb' 6 14) 0x0F d a b (ctl.extractLsb' 0 6))
  | .icmp x c s w pd a b => some (enc x 0 0x10 (ofPred pd) a b (0#1 ++ bit w ++ bit s ++ c.code))
  | .sel x w n p d a b => some (enc x 0 0x11 d a b (0#1 ++ bit w ++ bit n ++ p))
  | .mov x w d a => some (enc x 0 0x12 d a 0 (fnOf 0 false w false))
  | .movUniform x w d b => some (enc x 0 0x12 d 0 b (fnOf 0 false w true))
  | .movs x d sr => some (enc x 0 0x12 d 0 sr.code (fnOf 1 false false false))
  | .movi x h d v => some (enc x (v.extractLsb' 12 15) 0x13 d (0#5 ++ bit h) (v.extractLsb' 6 6) (v.extractLsb' 0 6))
  | .movpRd x d => some (enc x 0 0x14 d 0 0 0)
  | .movpWr x a => some (enc x 0 0x14 0 a 0 0x10)
  | .movpLop x t pd pa pb => some (enc x 0 0x14 (ofPred pd) (ofPred pa) (ofPred pb) (2#2 ++ t))
  | .fadd x t d a b => some (enc x 0 0x15 d a b (0#4 ++ t.code))
  | .fsub x t d a b => some (enc x 0 0x16 d a b (0#4 ++ t.code))
  | .fmul x t d a b => some (enc x 0 0x17 d a b (0#4 ++ t.code))
  | .ffmaF32 x d a b c => some (enc x 0 0x18 d a b c)
  | .ffmaF64 x d a b c => some (enc x 0 0x19 d a b c)
  | .fmin x t d a b => some (enc x 0 0x1A d a b (0#4 ++ t.code))
  | .fmax x t d a b => some (enc x 0 0x1A d a b (2#4 ++ t.code))
  | .fminm x t d a b => some (enc x 0 0x1A d a b (4#4 ++ t.code))
  | .fmaxm x t d a b => some (enc x 0 0x1A d a b (6#4 ++ t.code))
  | .fabs x t d a => some (enc x 0 0x1B d a 0 (0#4 ++ t.code))
  | .fneg x t d a => some (enc x 0 0x1B d a 0 (2#4 ++ t.code))
  | .fcopysign x t d a b => some (enc x 0 0x1B d a b (4#4 ++ t.code))
  | .fcmp x c t pd a b => some (enc x 0 0x1C (ofPred pd) a b (0#1 ++ t.code ++ c.code))
  | .fclass x t d a => some (enc x 0 0x1D d a 0 (0#4 ++ t.code))
  | .fdiv x t d a b => some (enc x 0 0x1E d a b (0#4 ++ t.code))
  | .fsqrt x t d a => some (enc x 0 0x1F d a 0 (0#4 ++ t.code))
  | .frcp x t d a => some (enc x 0 0x1F d a 0 (2#4 ++ t.code))
  | .frsq x t d a => some (enc x 0 0x1F d a 0 (4#4 ++ t.code))
  | .fex2 x t d a => some (enc x 0 0x20 d a 0 (0#4 ++ t.code))
  | .flg2 x t d a => some (enc x 0 0x20 d a 0 (2#4 ++ t.code))
  | .fsin x t d a => some (enc x 0 0x20 d a 0 (4#4 ++ t.code))
  | .fcos x t d a => some (enc x 0 0x20 d a 0 (6#4 ++ t.code))
  | .ftanh x t d a => some (enc x 0 0x20 d a 0 (8#4 ++ t.code))
  | .frint x ra ex t d a => some (enc x 0 0x21 d a 0 (0#2 ++ bit ra ++ bit ex ++ t.code))
  | .fcvt x ra ds sr d a => some (enc x (imm2 false ra) 0x22 d a 0 (ds.code ++ sr.code))
  | .f2i x ra w s t d a => some (enc x (imm2 ra w) 0x23 d a 0 (0#3 ++ bit s ++ t.code))
  | .i2f x w s t d a => some (enc x (imm2 false w) 0x23 d a 0 (1#3 ++ bit s ++ t.code))
  | .fldexp x t d a b => some (enc x 0 0x24 d a b (0#4 ++ t.code))
  | .ffrexp x t d a => some (enc x 0 0x24 d a 0 (2#4 ++ t.code))
  | .digits x t d a => some (enc x 0 0x25 d a 0 (0#4 ++ t.code))
  | .agree x t d a => some (enc x 0 0x25 d a 0 (2#4 ++ t.code))
  | .sibget x w k d a => some (enc x 0 0x26 d a 0 (0#3 ++ bit w ++ k))
  | .sibput x w k d a => some (enc x 0 0x26 d a 0 (1#3 ++ bit w ++ k))
  | .sibrot x w r d a => some (enc x 0 0x26 d a 0 (2#3 ++ bit w ++ r))
  | .sibmean x t d a => some (enc x 0 0x26 d a 0 (6#4 ++ t.code))
  | .sibmaj x w d a => some (enc x 0 0x26 d a 0 (fnOf 4 false false w))
  | .rdraw x d b => some (enc x 0 0x27 d 0 b 0)
  | .fdp16 x sc ta tb d a b => some (enc x (0#8 ++ sc.getD 0 ++ bit sc.isSome) 0x28 d a b (0#4 ++ bit tb ++ bit ta))
  | .fdp8 x bf d a b => some (enc x 0 0x29 d a b (fnOf 0 false false bf))
  | .fdpsc x mx nb e d a b => some (enc x (0#9 ++ e) 0x29 d a b (1#3 ++ bit mx ++ nb))
  | .idp4 x sat sa sb d a b => some (enc x 0 0x2A d a b (fnOf 0 sat sa sb))
  | .idp8 x sat sa sb d a b => some (enc x 0 0x2A d a b (fnOf 1 sat sa sb))
  | .cvtpk x ra ds d a sc => some (enc x (imm2 ra sc.isSome) 0x2B d a (sc.getD 0) (0#3 ++ ds.code))
  | .cvtupk x sr d a => some (enc x 0 0x2B d a 0 (1#3 ++ sr.code))
  | .scdec x c d a => some (enc x 0 0x2B d a 0 (2#3 ++ c.code))
  | .sparsify x t d a => some (enc x 0 0x2C d a 0 (0#3 ++ t.code))
  | .xclr x k => some (enc x 0 0x2D 0 0 0 (k ++ 0#3))
  | .xadd x k a => some (enc x 0 0x2D 0 a 0 (k ++ 1#3))
  | .xfma x k a b => some (enc x 0 0x2D 0 a b (k ++ 2#3))
  | .xget x k d => some (enc x 0 0x2D d 0 0 (k ++ 3#3))
  | .xmerge x k seg a => some (enc x 0 0x2E 0 a (ofPred seg.code) (0#3 ++ k))
  | .xsave x k seg a => some (enc x 0 0x2E 0 a (ofPred seg.code) (1#3 ++ k))
  | .xload x k seg a => some (enc x 0 0x2E 0 a (ofPred seg.code) (2#3 ++ k))
  | .xstat x k d => some (enc x 0 0x2E d 0 0 (3#3 ++ k))
  | .pollSome x mm pd pa => some (enc x (mmImm 0 mm) 0x2F (ofPred pd) (ofPred pa) 0 0x00)
  | .pollEvery x mm pd pa => some (enc x (mmImm 0 mm) 0x2F (ofPred pd) (ofPred pa) 0 0x01)
  | .pollSame x mm pd pa => some (enc x (mmImm 0 mm) 0x2F (ofPred pd) (ofPred pa) 0 0x02)
  | .pollCount x mm d pa => some (enc x (mmImm 0 mm) 0x2F d (ofPred pa) 0 0x03)
  | .pollMask x mm d pa => some (enc x (mmImm 0 mm) 0x2F d (ofPred pa) 0 0x04)
  | .leadFirst x mm pd => some (enc x (mmImm 0 mm) 0x2F (ofPred pd) 0 0 0x08)
  | .leadLast x mm pd => some (enc x (mmImm 0 mm) 0x2F (ofPred pd) 0 0 0x09)
  | .wmask x mm d => some (enc x (mmImm 0 mm) 0x2F d 0 0 0x10)
  | .xlane x mm seg mode w d a b => some (enc x (mmImm seg mm) 0x30 d a b (0#3 ++ bit w ++ mode.code))
  | .wred x mm ty op d a => some (enc x (mmImm (0#1 ++ ty.code) mm) 0x31 d a 0 (0#3 ++ op.code))
  | .wscan x mm ex ty op d a => some (enc x (mmImm (bit ex ++ ty.code) mm) 0x31 d a 0 (1#3 ++ op.code))
  | .warpMatch x mm w d a => some (enc x (mmImm 0 mm) 0x31 d a 0 (fnOf 2 false false w))
  | _ => none

/-- The words of the lane opcodes 0x32 to 0x3D. -/
def encodeMemory : Instr → Option Code
  | .ld x ty seg off t a =>
    some (enc x (bit ty.alt ++ off.extractLsb' 6 4 ++ off.extractLsb' 10 10) 0x32 t a (seg.code ++ ty.code)
      (off.extractLsb' 0 6))
  | .st x ty seg off t a =>
    some (enc x (bit ty.alt ++ off.extractLsb' 6 4 ++ off.extractLsb' 10 10) 0x33 t a (seg.code ++ ty.code)
      (off.extractLsb' 0 6))
  | .lda x ty sc seg off t a =>
    some (enc x (bit ty.alt ++ sc.code ++ off.extractLsb' 6 10) 0x34 t a (seg.code ++ ty.code) (off.extractLsb' 0 6))
  | .stl x ty sc seg off t a =>
    some (enc x (bit ty.alt ++ sc.code ++ off.extractLsb' 6 10) 0x35 t a (seg.code ++ ty.code) (off.extractLsb' 0 6))
  | .atom x op ty o sc seg d a b => some (enc x (memImm false sc o seg) 0x36 d a b (op.code ++ ty.code))
  | .atomc x w o sc seg d a b c => some (enc x (memImm w sc o seg) 0x37 d a b c)
  | .red x op ty o sc seg a b => some (enc x (memImm false sc o seg) 0x38 0 a b (op.code ++ ty.code))
  | .cpa x sc seg dc bar d a =>
    some (enc x (0#5 ++ sc.code ++ 0#2 ++ bit dc ++ seg.code) 0x39 d a (ofBar (bar.getD 0)) (0#5 ++ bit bar.isSome))
  | .pref x sc seg lv a => some (enc x (memImm false sc .rlx seg) 0x39 0 a 0 (1#3 ++ lv.code))
  | .ldf x sc seg d a => some (enc x (memImm false sc .rlx seg) 0x39 d a 0 0x10)
  | .stf x sc seg a b => some (enc x (memImm false sc .rlx seg) 0x39 0 a b 0x18)
  | .mwatch x sc seg a => some (enc x (memImm false sc .rlx seg) 0x39 0 a 0 0x20)
  | .mwait x sc seg d b => some (enc x (memImm false sc .rlx seg) 0x39 d 0 b 0x28)
  | .tcopy x sc seg d a => some (enc x (memImm false sc .rlx seg) 0x39 d a 0 0x30)
  | .fence x o sc => some (enc x 0 0x3A 0 0 (ofBar sc.code) (0#3 ++ o.code))
  | .bra x n p off =>
    some (enc x (off.extractLsb' 20 15) 0x3B (p ++ bit n ++ off.extractLsb' 18 2) (off.extractLsb' 12 6)
      (off.extractLsb' 6 6) (off.extractLsb' 0 6))
  | .call x n p off =>
    some (enc x (off.extractLsb' 20 15) 0x3C (p ++ bit n ++ off.extractLsb' 18 2) (off.extractLsb' 12 6)
      (off.extractLsb' 6 6) (off.extractLsb' 0 6))
  | .brx x off a => some (enc x (off.extractLsb' 12 15) 0x3D (off.extractLsb' 6 6) a (off.extractLsb' 0 6) 0x00)
  | .callx x off a => some (enc x (off.extractLsb' 12 15) 0x3D (off.extractLsb' 6 6) a (off.extractLsb' 0 6) 0x04)
  | .ret x a => some (enc x 0 0x3D 0 a 0 0x08)
  | .exit x => some (enc x 0 0x3D 0 0 0 0x0C)
  | .tail x => some (enc x 0 0x3D 0 0 0 0x10)
  | .rcvset x off =>
    some (enc x (off.extractLsb' 18 15) 0x3D (off.extractLsb' 12 6) (off.extractLsb' 6 6) (off.extractLsb' 0 6) 0x14)
  | .rcvwait x => some (enc x 0 0x3D 0 0 0 0x18)
  | .spawn x n s pd a b => some (enc x (0#5 ++ n ++ s) 0x3D (ofPred pd) a b 0x1C)
  | .jwait x d a => some (enc x 0 0x3D d a 0 0x20)
  | .yield x => some (enc x 0 0x3D 0 0 0 0x24)
  | .trap x n => some (enc x 0 0x3D 0 (n.extractLsb' 6 6) (n.extractLsb' 0 6) 0x28)
  | .brkpt x => some (enc x 0 0x3D 0 0 0 0x2C)
  | .nop x => some (enc x 0 0x3D 0 0 0 0x30)
  | _ => none

/-- The words of the uniform set. -/
def encodeUniform : Instr → Option Code
  | .sadd e w d a b => some (encU e 0x00 d a b (fnOf 0 false false w))
  | .ssub e w d a b => some (encU e 0x01 d a b (fnOf 0 false false w))
  | .smul e w d a b => some (encU e 0x02 d a b (fnOf 0 false false w))
  | .smulhi e s w d a b => some (encU e 0x03 d a b (fnOf 0 false s w))
  | .sand e w d a b => some (encU e 0x04 d a b (fnOf 0 false false w))
  | .sor e w d a b => some (encU e 0x04 d a b (fnOf 1 false false w))
  | .sxor e w d a b => some (encU e 0x04 d a b (fnOf 2 false false w))
  | .sshl e i w d a b => some (encU e 0x05 d a b (fnOf 0 false i w))
  | .sshr e i w d a b => some (encU e 0x05 d a b (fnOf 1 false i w))
  | .ssar e i w d a b => some (encU e 0x05 d a b (fnOf 2 false i w))
  | .smin e s w d a b => some (encU e 0x06 d a b (fnOf 0 false s w))
  | .smax e s w d a b => some (encU e 0x06 d a b (fnOf 1 false s w))
  | .smov e w d a => some (encU e 0x07 d a 0 (fnOf 0 false false w))
  | .simm e d v => some (encU e 0x08 d (v.extractLsb' 12 6) (v.extractLsb' 6 6) (v.extractLsb' 0 6))
  | .simmh e d v => some (encU e 0x09 d (0#2 ++ v.extractLsb' 12 4) (v.extractLsb' 6 6) (v.extractLsb' 0 6))
  | .scmp e c s w cd a b => some (encU e 0x0A (ofPred cd) a b (0#1 ++ bit w ++ bit s ++ c.code))
  | .ssel e w n cn d a b => some (encU e 0x0B d a b (0#1 ++ bit w ++ bit n ++ cn))
  | .sld e sz seg off t a => some (encU e 0x0C t a (seg.code ++ sz.code) off)
  | .sst e sz seg off t a => some (encU e 0x0D t a (seg.code ++ sz.code) off)
  | .satom e op ar ty d a b => some (encU e 0x0E d a b (op.code ++ bit ar ++ ty))
  | .rdlane e f w d a b => some (encU e 0x0F d a b (fnOf 0 false f w))
  | .jmp e off =>
    some (encU e 0x10 (off.extractLsb' 18 6) (off.extractLsb' 12 6) (off.extractLsb' 6 6) (off.extractLsb' 0 6))
  | .jc e n c off =>
    some (encU e 0x11 (bit n ++ c ++ off.extractLsb' 18 2) (off.extractLsb' 12 6) (off.extractLsb' 6 6)
      (off.extractLsb' 0 6))
  | .jx e a => some (encU e 0x12 0 a 0 0)
  | .binit e fm bn a => some (encU e 0x14 (ofBar bn) a 0 (fnOf 0 false false fm))
  | .barrive e bn tx => some (encU e 0x15 (ofBar bn) (tx.getD 0) 0 (fnOf 0 false false tx.isSome))
  | .bwait e bn a => some (encU e 0x16 (ofBar bn) a 0 0)
  | .btest e cd bn a => some (encU e 0x16 (ofBar bn) a 0 (1#3 ++ cd))
  | .bexpect e bn a => some (encU e 0x17 (ofBar bn) a 0 0)
  | .cbar e => some (encU e 0x18 0 0 0 0)
  | .wait e n0 n1 n2 n3 => some (encU e 0x19 n0 n1 n2 n3)
  | .claim e n => some (encU e 0x1A 0 0 0 (0#3 ++ n))
  | .give e n => some (encU e 0x1A 0 0 0 (1#3 ++ n))
  | .qtryPop e cd d q => some (encU e 0x1B d 0 (0#4 ++ q) (0#3 ++ cd))
  | .qtryPush e cd q a => some (encU e 0x1B 0 a (0#4 ++ q) (1#3 ++ cd))
  | .tlrd e g d => some (encU e 0x1C d 0 0 (fnOf 0 false false g.code))
  | .tlwait e g a => some (encU e 0x1D 0 a 0 (fnOf 0 false false g.code))
  | .tagpub e a b => some (encU e 0x1E 0 a b 0)
  | .tagrd e d a b => some (encU e 0x1F d a b 0)
  | .tqpush e cd a b => some (encU e 0x20 (ofPred cd) a b 0)
  | .tqtake e cd a b => some (encU e 0x21 (ofPred cd) a b 0)
  | .ordwait e => some (encU e 0x22 0 0 0 0)
  | .rdsr e d sr => some (encU e 0x23 d 0 (0#2 ++ sr.code.extractLsb' 6 4) (sr.code.extractLsb' 0 6))
  | .wrsr e sr d => some (encU e 0x24 d 0 (0#2 ++ sr.code.extractLsb' 6 4) (sr.code.extractLsb' 0 6))
  | .segld e k a => some (encU e 0x25 (ofPred k) a 0 0)
  | .icinv e sc a b => some (encU e 0x26 0 a b (ofBar sc.code))
  | .tlbinvPage e a => some (encU e 0x27 0 a 0 0)
  | .tlbinvAsid e => some (encU e 0x27 0 0 0 1)
  | .rmack e cd a => some (encU e 0x28 (ofPred cd) a 0 0)
  | .snop e => some (encU e 0x29 0 0 0 0)
  | .strap e n => some (encU e 0x2A 0 (n.extractLsb' 12 6) (n.extractLsb' 6 6) (n.extractLsb' 0 6))
  | .resume e => some (encU e 0x2A 0 0x3F 0x3F 0x3F)
  | _ => none

/-- The words of the Foreman (Table 12-6). -/
def encodeForeman : Instr → Option Code
  | .mlay l off => some (.foreman (packFm ⟨0x01, 0#1 ++ l, 0, 0, 0, 0, 0, 0#18 ++ off⟩))
  | .madd l dim inc => some (.foreman (packFm ⟨0x02, 0#1 ++ l, dim, 0, 0, 0, 0, 0#6 ++ inc⟩))
  | .mclr s three int => some (.foreman (packFm ⟨0x03, s, 0#1 ++ bit three, bit int ++ 0#2, 0, 0, 0, 0⟩))
  | .mma s pm a b => some (.foreman (packFm ⟨0x04, s, pm.code, a, b, 0, 0, 0⟩))
  | .mmas s pm a b md => some (.foreman (packFm ⟨0x05, s, pm.code, a, b, md, 0, 0⟩))
  | .mmax s pm a b sa sb => some (.foreman (packFm ⟨0x06, s, pm.code, a, b, sa, sb, 0⟩))
  | .mrd s pl d => some (.foreman (packFm ⟨0x07, s, pl, d, 0, 0, 0, 0⟩))
  | .mcol s d => some (.foreman (packFm ⟨0x08, s, 0, d, 0, 0, 0, 0⟩))
  | .mbarr bn => some (.foreman (packFm ⟨0x09, bn, 0, 0, 0, 0, 0, 0⟩))
  | .mbwait bn => some (.foreman (packFm ⟨0x0A, bn, 0, 0, 0, 0, 0, 0⟩))
  | .mloop c => some (.foreman (packFm ⟨0x0B, 0, 0, 0, 0, 0, 0, 0#14 ++ c⟩))
  | .mloopL off => some (.foreman (packFm ⟨0x0B, 8, 0, 0, 0, 0, 0, 0#14 ++ off⟩))
  | .mendl => some (.foreman (packFm ⟨0x0C, 0, 0, 0, 0, 0, 0, 0⟩))
  | .mjmp off => some (.foreman (packFm ⟨0x0D, 0, 0, 0, 0, 0, 0, 0#6 ++ off⟩))
  | .mstamp clu addr => some (.foreman (packFm ⟨0x0E, if clu then 4 else 2, 0, 0, 0, 0, 0, 0#16 ++ addr⟩))
  | .mconfRnd c => some (.foreman (packFm ⟨0x0F, 0, 0, 0, 0, 0, 0, 0#35 ++ c⟩))
  | .mconfTs off => some (.foreman (packFm ⟨0x0F, 1, 0, 0, 0, 0, 0, 0#18 ++ off⟩))
  | .mconfWph bn ph => some (.foreman (packFm ⟨0x0F, 2, 0, 0, 0, 0, 0, 0#14 ++ bn ++ 0#4 ++ ph⟩))
  | .mend => some (.foreman (packFm ⟨0x10, 0, 0, 0, 0, 0, 0, 0⟩))
  | _ => none

/-- The words of an instruction; an event has none. -/
def encode (i : Instr) : Code :=
  (encodeLane i <|> encodeMemory i <|> encodeUniform i <|> encodeForeman i).getD .event

/-- The host's question of one row's word: up to 32 bits are one word; with more, an LX word and its successor, or one
word where the first is no LX word. -/
def decodeTableWord (nbits w : Nat) : Option Instr :=
  let w0 := BitVec.ofNat 32 w
  let r := if isLx w0 && decide (32 < nbits) then decode (some w0) (BitVec.ofNat 32 (w >>> 32)) else decode none w0
  r.toOption

end Sys2Proof
end

