-- ==== Sys2Proof/Config.lean ====
section
/-! DEFINITION. What one module fixes and what the specification leaves open: free values with no body, each named in
the assumption log, and the constants of the full configuration (R9 to R12). -/
namespace Sys2Proof.Config

/-- Bytes, less one, that the Carters of the module can move in a budget period: no rate is given (R378, log 36). -/
opaque carterBytes : Nat
/-- Where a read may be served by a cached copy or by memory (R137, R157, R191), whether the copy is used: a free
value for each such read (log 2, log 8). -/
opaque useCached : Nat → Bool
/-- Which of n possible orders or choices the hardware takes, below n after reduction (log 2, log 11). -/
opaque pick : Nat → Nat
/-- A word that the specification calls undefined (R334, log 12). -/
opaque freeWord : Nat → BitVec 32
/-- A double whose value the specification does not give (log 14). -/
opaque freeDouble : Nat → BitVec 64
/-- Whether Glanil's signature of a firmware image is good (R404): its key is not given (log 13). -/
opaque firmwareSignatureGood : List (BitVec 8) → Bool
/-- The bytes of the signature of an attestation report (R405): the key is not given (log 13). -/
opaque attestSignature : List (BitVec 8) → List (BitVec 8)
/-- The public key of the identity that the controller derives from its PUF (R405, log 13). -/
opaque deviceIdentity : List (BitVec 8)
/-- Whether the PUF response passes its self-check at a boot (R499, log 13). -/
opaque pufGood : Nat → Bool
/-- Code of a machine-log record of a throttled die or, if true, of a current trip (R494, R496, log 25). -/
opaque powerCode : Bool → BitVec 16
/-- Unit number of the machine-log record of a current trip, and of the security controller (R494, R496, log 25). -/
opaque logUnit : Bool → BitVec 16
/-- Address or index of a machine-log record whose event has neither, by unit kind (R496, log 25). -/
opaque logIndex : Nat → BitVec 64
/-- Whether the module at the far end of a peer link refuses an access (R403): its page tables are not ours (log 17). -/
opaque peerRefused : Nat → Bool
/-- Code of a launch state, DONE or REFUSED, in a trace record (R413, log 25). -/
opaque launchStateCode : Bool → BitVec 16
/-- KIND of a tag fallback, coarse or serial, in a trace record (R413, log 25). -/
opaque tagKind : Bool → BitVec 8
/-- CORE of a trace record of an event that no core causes (R413, log 25). -/
opaque noCore : BitVec 16
/-- Unit kind in a slot of an Hourglass record (R418, log 34). -/
opaque hgKind : Nat → BitVec 16
/-- Demand of one island at a power level, in watts, as Bellows weighs it (R16, log 14). -/
opaque islandPower : Nat → Nat → Nat

/-- Dies of the module (R9). -/
def dies : Nat := 8
/-- Clusters of the module (R11). -/
def clusters : Nat := 64
/-- Cores of the module (R11). -/
def cores : Nat := 256
/-- Contexts of the module (R399). -/
def contexts : Nat := 256
/-- Key slots (R401). -/
def keySlots : Nat := 512

end Sys2Proof.Config
end

