-- ==== Sys2Proof/Machine/State.lean ====
section
/-! DEFINITION. The whole state of the module as plain data: every register, memory, queue and status bit that the
specification names, with the model's own schedule; the state after reset; and the reasons a step can stop. -/
namespace Sys2Proof.Machine

/-- Why the machine stops with a fault. The specification itself names no such stop: its traps and faults are next
states. -/
inductive Fault where
  /-- A lane-set or uniform-set instruction is executed with no warp holding the issue slot. No step of `step` does
  this (safe). -/
  | noIssuer
  /-- A Foreman word is executed with no Foreman context in focus. No step of `step` does this (safe). -/
  | noForeman
deriving DecidableEq, Repr

/-- Why an instruction is refused. -/
inductive Refusal where
  /-- An arm of `exec` whose meaning is not written; raised by `exec` alone (safe). -/
  | notModelled (mnemonic : String)
deriving DecidableEq, Repr

/-- A finite table: keys strictly rising, and no entry equal to what an unlisted key reads as. -/
abbrev Tab (α : Type) := List (Nat × α)

/-- Sibling layouts (R103, Table 4-2). -/
inductive SibLayout where
  | plain | triple | mean
deriving DecidableEq, Repr

/-- Access kinds of R93, as Table 21-2 numbers them. -/
inductive AccKind where
  | read | write | rmw | fetch
deriving DecidableEq, Repr

/-- One lane slot of a fibre: the registers of one sibling, zero where unlisted, and p0 to p6 (R21, R94). -/
structure Lane where
  regs : Tab Word
  preds : BitVec 7
deriving DecidableEq, Repr

/-- Resources that budgets share out: those of Table 13-9 in order, the two links in the direction inward, and then each link
in the direction outward. -/
inductive Resource where
  | issue | carter | near | far | loom | hostIn | peerIn | hostOut | peerOut
deriving DecidableEq, Repr

/-- What a waiting PC group waits for (Table 11-1, R49, R169, R387 to R389, R459, R474). -/
inductive WaitFor where
  /-- a pop finds its stage ring empty (R37) -/
  | ringToken (q : Nat)
  /-- a push finds its stage ring full (R37) -/
  | ringRoom (q : Nat)
  /-- `bwait` (R302) -/
  | barrier (b : Nat) (phase : BitVec 16)
  /-- `cbar` has arrived in this phase of its team (R304) -/
  | teamPhase (phase : Nat)
  /-- `wait` (R305) -/
  | counts (n0 n1 n2 n3 : Nat)
  /-- `claim` (R35) -/
  | pool (n : Nat)
  /-- loads in flight must return first that write registers of some fibres, or uniform ones: each run of registers is its first
  one and their number (R255, R306) -/
  | regs (slots : List Nat) (lane uni : List (Nat × Nat))
  /-- `tlwait` (R309) -/
  | timeline (g : Engine) (v : Nat)
  /-- the block must be the head of its ordered launch (R315, R387 to R389) -/
  | head
  /-- an invalidation of this number must complete (R319, R320) -/
  | inval (id : Nat)
  /-- `jwait` on this effective address (R279) -/
  | join (addr : Nat)
  /-- `mwait` until the core's CLOCK reaches this value (R266) -/
  | monitor (clock : Nat)
  /-- the member set must stand together (R268) -/
  | members (mask : List Nat)
  /-- a copy holds bytes of a local range (R169) -/
  | range (blk lo hi : Nat)
  /-- scoreboard entries must free (R169) -/
  | boardRoom
  /-- this fibre's `cpa` of this number is recorded, and another fibre's is not yet (R169) -/
  | recorded (id : Nat)
  /-- the warp's earlier stores must be performed (R255) -/
  | stores
  /-- the warp runs a handler, and this group stands at a uniform instruction (R459) -/
  | handlerDone
  /-- a saved member of the team must be restored or retire (R474) -/
  | member (blk : Nat)
  /-- the block must be the head, since no stage entry is free (R388) -/
  | stage
  /-- host memory is out of reach: CXL.cache carries nothing (R396) -/
  | link
  /-- the context must wait for its share of a unit of a resource, or for the next period (R379) -/
  | budget (r : Resource) (unit : Nat)
deriving DecidableEq, Repr

/-- A wait: the instruction that waits (a `nop` stands for one that reaches registers alone, or a branch), its LX word and
instruction word, which are decoded again when it goes on, and when the wait began. -/
structure Wait where
  why : WaitFor
  instr : Instr
  lx : Option Word
  word : Word
  since : Nat
deriving DecidableEq, Repr

/-- Where a fibre stands (R27, R276, R458, R471). -/
inductive Status where
  | ready
  | waiting (w : Wait)
  /-- parked in the queued fragment of this id (R458) -/
  | fragment (id : BitVec 16)
  /-- parked at an instruction that took a block fault (R471) -/
  | faulted
  /-- parked at the reconvergence entry of this number (R276) -/
  | entry (e : Nat)
deriving DecidableEq, Repr

/-- A fibre that has not ended (Table 2-1). -/
structure Fibre where
  slot : Nat
  pc : VAddr
  tid : Word
  /-- window base: the start of v0 to v63 in the fibre's lane slot's registers (R21, log 85) -/
  base : BitVec 11
  icount : BitVec 48
  join : VAddr
  status : Status
  /-- id of the handler fragment the fibre runs in, 0 for none (R458) -/
  frag : BitVec 16
  /-- code of the widest scope of the acquire fences the fibre has executed, 0 for none (R155) -/
  fenced : Nat
  /-- its load of a future has trapped, and it has only yielded since (R55, log 93) -/
  yields : Bool
  /-- three lanes in sibling mode, one in single-lane mode (R94, R96) -/
  lanes : List Lane
deriving DecidableEq, Repr

/-- A segment register (R119, R120). -/
structure SegReg where
  base : Double
  limit : Double
deriving DecidableEq, Repr

/-- A reconvergence entry (R276). -/
structure RcEntry where
  id : Nat
  pc : VAddr
  mask : List Nat
deriving DecidableEq, Repr

/-- A name (R408, Table 16-1). -/
structure Name where
  pc : Nat
  seq : Nat
  launch : Nat
  block : Nat
  warp : Nat
  engine : Nat
deriving DecidableEq, Repr

/-- A fragment (R458) with what its frame will hold (Table 20-4). -/
structure Fragment where
  id : BitVec 16
  parent : BitVec 16
  code : Nat
  flags : Nat
  mask : List Nat
  sibs : List Nat
  pc : VAddr
  lxw : Word
  word : Word
  addr : Nat
  engine : Nat
  seq : Nat
  /-- NUMFLAGS after the raising instruction (Table 20-4) -/
  numflags : Double
deriving DecidableEq, Repr

/-- A numeric trap that a fibre parked by `rcvwait` takes when that completes (R114, R276), with the words of its frame. -/
structure OwedTrap where
  slot : Nat
  lxw : Word
  word : Word
deriving DecidableEq, Repr

/-- A running handler: its fragment, its frame slot and the fibres it was entered with (R460, R463). -/
structure Handler where
  id : BitVec 16
  slot : Nat
  mask : List Nat
deriving DecidableEq, Repr

/-- A location of one element: a block's window or physical memory, the base of the sibling region there, and the
logical offset in it (R105, R106, R123, R132), with the attributes of its leaf (R130). -/
structure Place where
  sram : Option Nat
  base : Nat
  off : Nat
  sib : SibLayout
  place : Nat
  key : Nat
  cp : Nat
  tso : Bool
  va : Nat
  /-- whether R386 tracks the access in an ordered launch -/
  tracked : Bool
deriving DecidableEq, Repr

/-- One byte to be written under a bit mask (R106 writes half a byte for a 2-byte element). -/
structure MByte where
  addr : Nat
  val : Byte
  mask : Byte
deriving DecidableEq, Repr

/-- The rounding a reduction performs when it is performed: attribute code and lane key (R200, R259). -/
structure Rounding where
  mode : BitVec 3
  sibc : BitVec 2
  tid : Word
  icount : BitVec 48
deriving DecidableEq, Repr

/-- The reduction of a `red` that waits in a store queue or stage (R259, R387). -/
structure RedOp where
  op : AtomOp
  ty : AtomTy
  vals : List Double
  r : Rounding
deriving DecidableEq, Repr

/-- A store or reduction between issue and performance (R149, R476). -/
structure StoreOp where
  place : Place
  size : Nat
  writes : List MByte
  rmw : Option RedOp
  scope : Scope
  release : Bool
  pc : VAddr
  slot : Nat
  /-- numeric events and IEEE flags that the store's combination raised, made when it is performed (R255) -/
  fp : BitVec 5
  num : BitVec 4
  /-- numeric events among them that were raised at issue, their traps being enabled (R112, R114) -/
  raised : BitVec 4
deriving DecidableEq, Repr

/-- A load whose data has not returned: register writes of one fibre, or of the warp's uniform registers when there
is no slot (R255); each is sibling, register and value. -/
structure PendingLoad where
  slot : Option Nat
  regs : List (Nat × Nat × Word)
deriving DecidableEq, Repr

/-- A `cpa` piece in flight (R261). -/
structure CpaPiece where
  /-- the instruction that issued it: pieces of one share its scoreboard entries (R169) -/
  id : Nat
  src : Place
  dst : Place
  bar : Option Nat
  dstBlk : Nat
  pc : VAddr
  slot : Nat
deriving DecidableEq, Repr

/-- The warp's single monitor (R266): the watched bytes and what has happened since arming. -/
structure Monitor where
  sram : Option Nat
  addr : Nat
  woken : Bool
  moved : Bool
  expired : Bool
deriving DecidableEq, Repr

/-- Where a warp's state stands (R363, R381). -/
inductive Residence where
  | resident
  | saved
  /-- ended, its accesses draining before its slot is freed (R52) -/
  | draining
deriving DecidableEq, Repr

/-- Answers of the host to a block-fault record (R473). -/
inductive Reply where
  | retry | kill | restart
deriving DecidableEq, Repr

/-- A block-fault report (R472, Table 21-2); it has a record number once it is in the ring. -/
structure FaultRec where
  num : Option Nat
  code : Nat
  imprecise : Bool
  exited : Bool
  alive : Bool
  slot : Nat
  name : Name
  addr : Nat
  kind : AccKind
  reply : Option Reply
deriving DecidableEq, Repr

/-- An architectural warp (R25, R23). -/
structure Warp where
  ctx : Nat
  launch : Nat
  /-- the block's key, none for a spawned warp (R45) -/
  blk : Option Nat
  wid : Nat
  kind : Nat
  abBase : Nat
  abCount : Nat
  core : Nat
  quarter : Nat
  /-- warp slot of the quarter (R376, log 86) -/
  wslot : Nat
  window : Nat
  started : Nat
  residence : Residence
  halted : Bool
  /-- the PC at which it stopped for a breakpoint, exempt on its first issue (R412) -/
  exempt : Option VAddr
  fibres : List Fibre
  sregs : Tab Word
  cpreds : BitVec 7
  fpflags : Word
  numflags : Double
  numctl : Double
  segs : List SegReg
  stack : List RcEntry
  monitor : Option Monitor
  /-- trap area number G (R460) -/
  area : Nat
  nextFrag : BitVec 16
  queue : List Fragment
  handlers : List Handler
  /-- traps owed to fibres that are parked at an `rcvwait` -/
  owed : List OwedTrap
  storeQ : List StoreOp
  /-- the store queue's head has taken an imprecise fault and is held (R476) -/
  heldStores : Bool
  loads : List PendingLoad
  cpas : List CpaPiece
  /-- timeline numbers of the `tcopy` commands this warp issued and that have not completed (R305) -/
  copies : List Nat
  /-- instructions in the present run (R173) -/
  runLen : Nat
  /-- PC of the group that last ran and its runs in a row (R27) -/
  groupRuns : Nat
  groupPc : VAddr
  /-- CLOCK since which the warp has been ready, none while it is not (R376) -/
  age : Option Nat
  /-- stamp of the end of its latest run: the model's own (R280, log 77) -/
  ran : Nat
  /-- its run was broken by an instruction that needs a load's destination (R377) -/
  stalled : Bool
  /-- CLOCK until which a `yield` holds the warp back (R280) -/
  yield : Option Nat
  /-- the warp ended by `tail` (R52) -/
  tailed : Bool
  /-- save-area image of a saved or halted warp: offset and length (R381, R412) -/
  image : Option (Nat × Nat)
  /-- block faults of a spawned warp, which takes a block's place (R473) -/
  faults : List FaultRec
  /-- fibres that have ended: the warp keeps their registers until it ends (R52) -/
  ended : List Fibre
deriving DecidableEq, Repr

/-- A stage ring: 16 tokens, phase bits, and pointers of 4 bits with a lap bit (R36). -/
structure Ring where
  tokens : Tab Word
  phases : BitVec 16
  rd : BitVec 5
  wr : BitVec 5
deriving DecidableEq, Repr

/-- A numbered barrier (R297, Table 11-3). -/
structure Barrier where
  phase : Word
  count : Byte
  arr : Byte
  bytes : Double
  fm : Bool
  /-- a case 3 fault that landing bytes caused, with its copy's number, not yet taken (R479) -/
  owed : Option Nat
deriving DecidableEq, Repr

/-- An Abacus register (R86, R246). -/
structure Abacus where
  n : BitVec 4288
  pinf : Bool
  ninf : Bool
  nan : Bool
  ovf : Bool
  div : Nat
deriving DecidableEq, Repr

/-- A tile slot: its type, set by `mclr`, and its 128 by 128 elements, zero where unlisted (R334). -/
structure Tile where
  int : Option Bool
  cells : Tab Word
deriving DecidableEq, Repr

/-- A layout slot: the 64-byte record as read and four signed origins (R329, R338). -/
structure LaySlot where
  bytes : List Byte
  origins : List Word
deriving DecidableEq, Repr

/-- A Foreman command in flight: its number, word, and the context state it copied (R340, R352). -/
structure FmCmd where
  n : Nat
  op : Instr
  pc : VAddr
  fcount : Double
  rnd : BitVec 3
  ts : Word
  slots : List (Option LaySlot)
deriving DecidableEq, Repr

/-- A command that has completed while an earlier one has not: its number, release scope and PC (R165, R408). -/
structure DoneCmd where
  n : Nat
  scope : Nat
  pc : VAddr
deriving DecidableEq, Repr

/-- A Foreman context (R326, Table 12-2). -/
structure Foreman where
  fpc : VAddr
  fcount : Double
  timeline : Nat
  /-- number of the latest command (R165) -/
  issued : Nat
  rnd : BitVec 3
  ts : Word
  slots : List (Option LaySlot)
  loops : List (VAddr × Nat)
  wph : List (BitVec 16)
  ended : Bool
  /-- stopped at a refused word or fetch fault (R355), or by a sequence breakpoint (R411) -/
  stopped : Bool
  cmds : List FmCmd
  /-- completed commands above the timeline (R165) -/
  above : List DoneCmd
  /-- code of the widest release scope of the commands up to the timeline (R165, R348) -/
  scope : Nat
deriving DecidableEq, Repr

/-- A piece of a copy (R163, R263): the 16-byte piece of a flat copy, or the element of a layout copy, of this index,
for one member of the team in a multicast. -/
structure Piece where
  index : Nat
  member : Option Nat
deriving DecidableEq, Repr

/-- A Carter command (R262, R263). -/
structure CopyCmd where
  n : Nat
  record : List Byte
  recAddr : Nat
  pc : VAddr
  warp : Nat
  /-- segment registers of the issuing warp -/
  segs : List SegReg
  /-- the lowest fibre slot of that instruction (R52) -/
  slot : Nat
  /-- the layout records of a layout copy, once it has begun -/
  lays : Option (List Byte × List Byte)
  started : Bool
  /-- pieces still to land -/
  pieces : List Piece
  /-- bytes given to barriers so far, by the block whose barrier took them (R263, R490) -/
  landed : Tab Nat
  /-- destination bytes that several elements share and that have been counted: owner and address -/
  seen : List (Nat × Nat)
  /-- bytes landed in all (R503) -/
  moved : Nat
  /-- code of the fault that stopped it -/
  fault : Option Nat
deriving DecidableEq, Repr

/-- A Carter context (R262, R165). -/
structure Carter where
  timeline : Nat
  issued : Nat
  cmds : List CopyCmd
  /-- completed commands above the timeline (R165) -/
  above : List DoneCmd
  /-- code of the widest release scope of the commands up to the timeline (R165) -/
  scope : Nat
deriving DecidableEq, Repr

/-- Block states (R363, Table 13-6); a block that STALE_TAG prevents is never started. -/
inductive BlockState where
  | pending | held | ready | resident | part | saved | migrating | retired | stale
deriving DecidableEq, Repr

/-- A task record (R41, Table 2-4). -/
structure Task where
  entry : Nat
  args : Nat
  x : Word
  y : Word
  z : Word
  warps : Nat
  mask : Nat
  flags : Nat
  succ1 : Nat
  succ2 : Nat
  tensor : Nat
  gen : BitVec 16
  tile : Nat
  priority : Nat
  /-- the record's bytes 0x39 to 0x3F and everything else as it was pushed, for `tqtake` (R314) -/
  raw : List Byte
  /-- when it arrived (R361) -/
  arrival : Nat
  /-- queue that holds or held it, and the address of its slot there -/
  queue : Nat
  slot : Nat
deriving DecidableEq, Repr

/-- A block (R30), with everything that is saved and restored with it (R381). -/
structure Block where
  ctx : Nat
  launch : Nat
  lin : Nat
  x : Word
  y : Word
  z : Word
  task : Option Task
  /-- key of the team's first block, position in the team and team size (R39) -/
  team : Nat
  pos : Nat
  teamSize : Nat
  state : BlockState
  /-- chosen by the Loom; its window is cleared and its warps created at `blockStart` (R118) -/
  placed : Bool
  core : Nat
  nwarp : Nat
  priority : Nat
  arrival : Nat
  started : Nat
  /-- physical window size in bytes, window layout, and its bytes, zero where unlisted (R117, R123) -/
  winSize : Nat
  winSib : SibLayout
  win : Tab Byte
  rings : List Ring
  bars : List Barrier
  pool : Nat
  abacus : List Abacus
  tiles : List Tile
  fm : Option Foreman
  carter : Carter
  lsconf : Word
  committed : Bool
  halted : Bool
  killed : Bool
  faults : List FaultRec
  image : Option (Nat × Nat)
deriving DecidableEq, Repr

/-- A child record of the Shuttle or a spill ring (R45, R48, R375). -/
structure Child where
  ctx : Nat
  launch : Nat
  entry : VAddr
  payload : List (List Word)
  tid : Word
  join : VAddr
  since : Nat
  /-- core of the parent -/
  core : Nat
deriving DecidableEq, Repr

/-- The end of a spawned fibre, whose join counter is still to be updated (R47). -/
structure JoinEnd where
  warp : Nat
  ctx : Nat
  launch : Nat
  core : Nat
  addr : VAddr
  faulted : Bool
  name : Name
  /-- the fibre's slot (R475) -/
  slot : Nat
deriving DecidableEq, Repr

/-- A role table entry (R31, Table 2-2). -/
structure Role where
  warps : Nat
  window : Nat
  kind : Nat
  abacus : Nat
deriving DecidableEq, Repr

/-- An input tag declaration (R358, Table 13-3). -/
structure TagDecl where
  tensor : Nat
  gen : BitVec 16
  base : Nat
  mx : Int
  my : Int
  mz : Int
  valid : Bool
deriving DecidableEq, Repr

/-- A launch record (R356, Table 13-1). -/
structure LaunchRec where
  entry : Nat
  args : Nat
  gx : Nat
  gy : Nat
  gz : Nat
  warps : Nat
  single : Bool
  ordered : Bool
  fused : Bool
  idempotent : Bool
  numTraps : Bool
  tsoStrict : Bool
  merge : Nat
  window : Nat
  roles : List Role
  localKiB : Nat
  team : Nat
  priority : Nat
  stagger : Nat
  seed : Double
  trapVec : Nat
  numctl : Double
  recAddr : Nat
  spillBase : Nat
  spillSize : Nat
  spawnTimeout : Nat
  tag0 : TagDecl
  tag1 : TagDecl
  outTensor : Nat
  outGen : BitVec 16
  outValid : Bool
  succ : Nat
  segPtr : Nat
  ctrPtr : Nat
  fmStream : Nat
  tileSlots : Nat
  abacus : Nat
deriving DecidableEq, Repr

/-- Launch states (R362, Table 13-5); a template is checked but not dispatched (R42). -/
inductive LaunchState where
  | refused | dispatching | running | completing | done | template | discarded
deriving DecidableEq, Repr

/-- States of a Hallmark entry (R390). -/
inductive HallState where
  | read | priv | shared
deriving DecidableEq, Repr

/-- A Hallmark entry (R390, Table 14-1), with the staged or applied writers that R392 asks about. -/
structure Hall where
  state : HallState
  owner : Nat
  mask : BitVec 64
  released : Bool
  maxrd : Nat
  writers : List Nat
  readers : List Nat
  /-- what OWNER wrote to bytes that lower blocks have written since, before its release: it stands again with that (log 19) -/
  kept : List MByte
  /-- the key under which those bytes were last written -/
  key : Option (BitVec 512)
deriving DecidableEq, Repr

/-- A stage entry (R387, R388). -/
structure Stage where
  ticket : Nat
  die : Nat
  op : StoreOp
  warp : Nat
  /-- order within its block's program, then TID (R387) -/
  order : Nat
  tid : Nat
  /-- the name of the issuing work (R475) -/
  name : Name
deriving DecidableEq, Repr

/-- The barrier of one team (R304). -/
structure TeamBar where
  phase : Nat
  arrived : List Nat
deriving DecidableEq, Repr

/-- A launch (R40, R362). -/
structure Launch where
  ctx : Nat
  addr : Nat
  lrec : LaunchRec
  segs : List SegReg
  state : LaunchState
  arrival : Nat
  /-- linear index of the next block to leave PENDING (R366) -/
  nextBlk : Nat
  retired : Nat
  /-- children created and not yet ended (R40) -/
  children : Nat
  teams : Tab TeamBar
  /-- CLOCK of the latest start on each die (R367) -/
  lastStart : Tab Nat
  cur : Nat
  /-- retired tickets of an ordered launch above CUR (R384) -/
  retiredTickets : List Nat
  hall : Tab Hall
  stages : List Stage
  hallFallback : Bool
  ring : List Child
  ringHigh : Nat
  /-- per-launch record (R417) -/
  status : Word
  reason : Nat
  tickStart : Double
  tickDone : Double
  faultRec : Option FaultRec
  coarse : Nat
  serial : Nat
  hallCount : Nat
  /-- per die: lowest granted clock, and clock-ticks and ticks for the mean (R417) -/
  clocks : Tab (Nat × Nat × Nat)
  startCounts : List Double
  doneCounts : List Double
  /-- RESOURCE_MAP traps owed to this launch: the new RMVER of each, oldest first (R465) -/
  rmOwed : List Nat
deriving DecidableEq, Repr

/-- A task queue (R361, Table 13-4) as the Loom holds it: tasks oldest first and the next slot number. -/
structure TaskQueue where
  tasks : List Task
  tail : Nat
  /-- key of the template's launch once it is checked -/
  template : Option Nat
deriving DecidableEq, Repr

/-- A tensor record (R368). -/
structure Tensor where
  done : BitVec 16
  doneV : Bool
  coarse : Bool
deriving DecidableEq, Repr

/-- CTXCTL STATE (R399). -/
inductive CtxState where
  | free | stopped | running | suspended
deriving DecidableEq, Repr

/-- A breakpoint comparator (R410, Table 16-3). -/
structure Comparator where
  addr : Double
  ctl : Double
deriving DecidableEq, Repr

/-- A Sieve definition (R415, Table 16-7). -/
structure Sieve where
  op : Nat
  dest : Nat
  a : Nat
  b : Nat
  param : Nat
  step : Nat
deriving DecidableEq, Repr

/-- A section of a dump (R503, Table 22-10). -/
structure Section where
  kind : Nat
  block : Nat
  warp : Nat
  core : Nat
  bytes : List Byte
deriving DecidableEq, Repr

/-- A dump that is being written (R502, R504): offsets from its header, what is written, and what is still to come. -/
structure Dump where
  /-- address of the header -/
  head : Nat
  /-- end of the section table of all that was planned -/
  table : Nat
  todo : List Section
  /-- sections written in full, each with its offset -/
  done : List (Nat × Section)
  /-- end of the last section written -/
  upto : Nat
  truncated : Bool
deriving DecidableEq, Repr

/-- A context page with what the Loom and the Pegboard hold for the context (R398, R410, R472, R487, R368). -/
structure Ctx where
  asid : Nat
  dbgr : Bool
  sysr : Bool
  state : CtxState
  /-- going to STOPPED, or being discarded, but not there yet (R399, R485) -/
  stopping : Bool
  discarding : Bool
  root : Double
  lqbase : Double
  lqsize : Double
  lqread : Word
  notify : Word
  notified : Bool
  tqtable : Double
  savearea : Double
  savesize : Double
  budgets : List Double
  /-- use of each unit of each resource in the present period, keyed by resource times 2^16 plus unit (R378) -/
  budgetUse : Tab Nat
  rmack : Double
  ackVersion : Word
  /-- tick by which the present version must be acknowledged (R407) -/
  ackBy : Option Nat
  event : Double
  /-- interrupts sent on the context's MSI-X vector: the module's output (R486) -/
  msix : Nat
  evinfo : Double
  evaddr : Double
  dumpaddr : Double
  bfhead : Word
  bftail : Word
  bfreply : Double
  dbgctl : Double
  dbgstat : Word
  trbase : Double
  trsize : Double
  trhead : Word
  trtail : Word
  trmask : Word
  trlost : Word
  comparators : List Comparator
  dbgicaddr : Double
  dbgiclen : Double
  /-- the whole context is halted: nothing of it starts until RESUME (R410, R412) -/
  halted : Bool
  /-- a halt not yet completed: the comparator that caused it, or 0xFF (R411, R412, Table 16-5) -/
  haltOwed : Option Nat
  /-- the name of the work whose match caused it (R408) -/
  haltName : Option Name
  /-- the core of that work (R413) -/
  haltCore : Nat
  queues : Tab TaskQueue
  /-- released tasks whose queue was full: the record's address and when its counter reached 0 (R43, R361) -/
  pendEnq : List (Nat × Nat)
  tensors : Tab Tensor
  /-- tile entries, keyed by tensor id times 2^32 plus tile (R368) -/
  tiles : Tab (BitVec 16)
  serial : Bool
  selectors : List Nat
  sieves : List Sieve
  /-- a context fault being reported: code, detail, address and reason (R502), with a frame fault's code (R460) -/
  fault : Option (Nat × Nat × Nat × Name)
  /-- TICK and RMVER at that fault (Table 22-9) -/
  faultTick : Double
  faultVer : Word
  /-- Carter commands that had begun at the stop for its dump, by block, as they now are (Table 22-10) -/
  begun : List (Nat × CopyCmd)
  /-- the dump that is being written -/
  dump : Option Dump
  /-- the code met while a frame was written, or 65536 and the code of a second context fault (R504) -/
  secondary : Option Nat
  /-- end of the saved images in the save area (R381, R502) -/
  saveEnd : Nat
  /-- a save waits for room or for a fault to go (R520) -/
  saveWaits : Bool
  /-- tick at which every fibre was first found blocked with a full spill ring (R484) -/
  blockedSince : Option Nat
deriving DecidableEq, Repr

/-- An entry of the retirement tracker (R52). -/
structure Track where
  ctx : Nat
  launch : Nat
  pc : VAddr
  blk : Option Nat
  lin : Nat
  warp : Nat
  wid : Nat
  slot : Nat
  op : Option StoreOp
  cpa : Option CpaPiece
  /-- number of a Carter command of the block -/
  copy : Option Nat
  held : Bool
deriving DecidableEq, Repr

/-- A range-scoreboard entry: a range of a block's window, held by a copy (R169). -/
structure Board where
  blk : Nat
  /-- the range as runs of whole granules, each its first byte and the one after its last: a layout copy's has one for each
  row of its tensor (log 22) -/
  runs : List (Nat × Nat)
  dest : Bool
  /-- the owning copy: a Carter command of a block, or a warp's `cpa` -/
  owner : PieceSrc
deriving DecidableEq, Repr

/-- A forwarding entry: a block that left this core (R382, R383). -/
structure Forward where
  blk : Nat
  toCore : Nat
deriving DecidableEq, Repr

/-- An event that occurs once in each cycle of a range: its code, the unit whose cycles they are, the first cycle and the one
after the last (R416). -/
structure Span where
  code : Nat
  unit : Nat
  first : Nat
  stop : Nat
deriving DecidableEq, Repr

/-- Counts of one context on one core: 64 counters, the events of the present cycle and of the one before, and
open histogram runs (R414, R416). -/
structure Bank where
  counters : Tab Double
  cycle : Nat
  now : Tab Nat
  before : Tab Nat
  runs : Tab Nat
  /-- events that last for cycles still to come -/
  spans : List Span
deriving DecidableEq, Repr

/-- A store that has left its warp's queue, and is seen by the warps of its core, or of its fused cluster, but has not reached
its home L2 (R128, R149, R150): the operation, the key its leaf named, and the work that issued it. -/
structure Passing where
  op : StoreOp
  key : Option (BitVec 512)
  warp : Nat
  launch : Nat
  blk : Option Nat
deriving DecidableEq, Repr

/-- The lowest command that a block has run on a sub-array since its last passing test (R491): its number, the address of its
word, and the launch and linear index of the block, which may be gone by then. -/
structure Suspect where
  n : Nat
  pc : VAddr
  launch : Nat
  lin : Nat
deriving DecidableEq, Repr

/-- A core (R11) and what it holds. -/
structure Core where
  clock : Double
  /-- the warp that holds each quarter's issue slot (R376) -/
  slots : List (Option Nat)
  shuttle : List Child
  tracker : List Track
  /-- stores on their way to their home L2s, oldest first (R150) -/
  passing : List Passing
  board : List Board
  l1 : Tab (BitVec 512)
  icache : Tab (BitVec 512)
  forwards : List Forward
  banks : Tab Bank
  fenced : BitVec 4
  arrayCycles : Nat
  nextSub : Nat
  /-- block whose Foreman last used the array (R352) -/
  lastFm : Nat
  /-- lowest command that each block has run on a sub-array since its last passing test, keyed by sub-array times 2^40
  plus block (R491) -/
  suspects : Tab Suspect
  /-- ticks of recent corrected errors, newest first (R495) -/
  corrected : List Nat
  withdrawn : Bool
deriving DecidableEq, Repr

/-- The level of a translation cache (Table 5-10): of a core, of a cluster, or of the die. -/
inductive TlbLevel where
  | core (k : Nat)
  | cluster (k : Nat)
  | die
deriving DecidableEq, Repr

/-- A cached translation (R136): the level that holds it, the leaf entry and the page it maps. -/
structure Tlb where
  level : TlbLevel
  asid : Nat
  global : Bool
  page : Nat
  bits : Nat
  leaf : Double
deriving DecidableEq, Repr

/-- A compute die: its translation caches (R136), its thermal state (R494), and the CLOCK of the Loom's latest start on it
(R364). -/
structure Die where
  tlb : List Tlb
  throttled : Bool
  started : Option Nat
deriving DecidableEq, Repr

/-- An island (R14): powered, and its clock in MHz. -/
structure Island where
  powered : Bool
  mhz : Nat
deriving DecidableEq, Repr

/-- What an invalidation covers (R319, R320, R399, R501). -/
inductive InvalKind where
  | page (asid va : Nat)
  | asid (asid : Nat)
  | code (cores : List Nat) (ctx lo len : Nat)
  | discard (ctx : Nat)
deriving DecidableEq, Repr

/-- An invalidation that has begun (R137, R320). -/
structure Inval where
  id : Nat
  kind : InvalKind
  /-- the context whose DBGICLEN reads the length until completion (R501) -/
  dbg : Option Nat
deriving DecidableEq, Repr

/-- A walk that has begun for a prefetch (R136, R264). -/
structure Walk where
  die : Nat
  ctx : Nat
  va : Nat
  /-- the cores that wait for it, whose misses to its page are one walk -/
  cores : List Nat
deriving DecidableEq, Repr

/-- The Survey (R406, Table 15-5), without the image's constant parts. -/
structure Survey where
  tick : Double
  liveCores : BitVec 256
  fenced : BitVec 1024
  liveDies : BitVec 16
  nearStacks : BitVec 8
  peerPorts : BitVec 8
  ucie : BitVec 8
  ucieLanes : List Nat
  peerLanes : List Nat
  farSpeed : List Nat
deriving DecidableEq, Repr

/-- A CXL.mem window (R397). -/
structure MemWin where
  base : Double
  size : Double
  key : Double
deriving DecidableEq, Repr

/-- The device part of the register window (R397, R17, R402 to R405, R419, R494, R496). -/
structure Device where
  rmver : Word
  pwrLimit : BitVec 16
  pwrLock : Bool
  /-- clock that each island demands for the next microsecond, in MHz (R16) -/
  demand : List Nat
  nearpart : Nat
  nearpartNext : Option Nat
  surveyAddr : Double
  fwaddr : Double
  fwlen : Double
  fwgo : Double
  fwstat : Double
  fwBusy : Bool
  measurement : List Byte
  keyslot : Double
  keydata : List Double
  keyPending : Option (Nat × Option (BitVec 512))
  attnonce : List Double
  attaddr : Double
  attgo : Double
  attstat : Double
  attBusy : Bool
  pufFailed : Bool
  memwin : List MemWin
  mcbase : Double
  mcsize : Double
  mchead : Word
  mctail : Word
  mclost : Word
  temp : Nat
  trips : Nat
  /-- grants left for which a current trip holds every CORE island at its floor (R494) -/
  tripGrants : Nat
  hgOn : Bool
  hgK : Nat
  hgbase : Double
  hgsize : Double
  hghead : Double
  hgtail : Double
  hglost : Double
  /-- counts of each unit since the last latch, keyed by die times 64 plus slot, times 16 plus place (R418) -/
  hgCounts : Tab Nat
  /-- corrected errors so far by unit, keyed by kind times 65536 plus number (Table 22-7) -/
  errors : Tab Nat
  ideActive : Bool
  /-- machine-log records that AON keeps until the ring can take them (R494) -/
  kept : List (List Byte)
  /-- main supply present (R19, R20) -/
  mainPower : Bool
  inboundAsid : List Nat
deriving DecidableEq, Repr

/-- A Foreman word in execution: the block, the word's address and the word (R328). -/
structure FmIssue where
  blk : Nat
  pc : VAddr
  word : Double
deriving DecidableEq, Repr

/-- An instruction in execution: the warp, the PC group, the address of its first word, the LX word latched before it
and the word itself (R27, R175). -/
structure Issue where
  warp : Nat
  group : List Nat
  pc : VAddr
  lx : Option Word
  word : Word
deriving DecidableEq, Repr

/-- One entry of the schedule: ordinary steps that come first, then ticks that pass, and then an event (log 1). -/
structure Sched where
  after : Nat
  dt : Nat
  ev : Instr
deriving DecidableEq, Repr

/-- The state of the module. -/
structure State where
  /-- inputs and scheduling choices still to come: the model's own (log 1) -/
  agenda : List Sched
  /-- the warp whose run is in focus: the model's own (log 1) -/
  turn : Option Nat
  /-- the instruction in execution: the model's own (log 1) -/
  cur : Option Issue
  /-- the Foreman word in execution: the model's own (log 1) -/
  fcur : Option (FmIssue × Instr)
  /-- counter of free values: the model's own (log 2) -/
  free : Nat
  /-- names given to launches, blocks, warps and waits so far: the model's own (log 1) -/
  next : Nat
  /-- what the host or a peer last read: the model's output (log 5) -/
  hostOut : Double
  /-- whether that read received poison (R495): the model's output -/
  hostPoison : Bool
  /-- global timebase (R13) -/
  tick : Double
  /-- physical memory by 52-bit address (R124) -/
  mem : List Host.Cell
  /-- the key a far line was last written under, by line (R138, R139, log 7) -/
  lineKeys : Tab (BitVec 512)
  /-- poisoned lines, rising (R495) -/
  poison : List Nat
  /-- lines of host or TSO memory cached in their home L2 (R141): 1 shared, 2 exclusive -/
  hostLines : Tab Nat
  /-- key slots that hold a key (R401) -/
  keys : Tab (BitVec 512)
  launches : Tab Launch
  blocks : Tab Block
  warps : Tab Warp
  ctxs : Tab Ctx
  cores : Tab Core
  dies : Tab Die
  islands : List Island
  survey : Survey
  dev : Device
  joins : List JoinEnd
  invals : List Inval
  walks : List Walk
deriving DecidableEq, Repr

/-- A context page at reset: FREE, no rights, no events (R399, Table 22-1, Table 16-3); BUDGET guarantees nothing and
caps nothing (log 6); other registers 0 (log 5). -/
def Ctx.reset : Ctx where
  asid := 0
  dbgr := false
  sysr := false
  state := .free
  stopping := false
  discarding := false
  root := 0
  lqbase := 0
  lqsize := 0
  lqread := 0
  notify := 0
  notified := false
  tqtable := 0
  savearea := 0
  savesize := 0
  budgets := List.replicate 7 0x04000000
  budgetUse := []
  rmack := 0
  ackVersion := 0
  ackBy := none
  event := 0
  msix := 0
  evinfo := 0
  evaddr := 0
  dumpaddr := 0
  bfhead := 0
  bftail := 0
  bfreply := 0
  dbgctl := 0
  dbgstat := 0
  trbase := 0
  trsize := 0
  trhead := 0
  trtail := 0
  trmask := 0
  trlost := 0
  comparators := List.replicate 8 ⟨0, 0xFFFFFFFF00000000⟩
  dbgicaddr := 0
  dbgiclen := 0
  halted := false
  haltOwed := none
  haltName := none
  haltCore := 0
  queues := []
  pendEnq := []
  tensors := []
  tiles := []
  serial := false
  selectors := List.replicate 64 0
  sieves := []
  fault := none
  faultTick := 0
  faultVer := 0
  begun := []
  dump := none
  secondary := none
  saveEnd := 4096
  saveWaits := false
  blockedSince := none

/-- A core at reset: nothing resident, nothing cached, no sub-array fenced; CLOCK 0 (log 5). -/
def Core.reset : Core where
  clock := 0
  slots := [none, none, none, none]
  shuttle := []
  tracker := []
  passing := []
  board := []
  l1 := []
  icache := []
  forwards := []
  banks := []
  fenced := 0
  arrayCycles := 0
  nextSub := 0
  lastFm := 0
  suspects := []
  corrected := []
  withdrawn := false

/-- A die at reset: no translation cached, nothing started. -/
def Die.reset : Die := ⟨[], false, none⟩

/-- The Survey of the full configuration (R9 to R12): everything live, full lanes, speed code 1 (log 5). -/
def Survey.reset : Survey where
  tick := 0
  liveCores := BitVec.allOnes 256
  fenced := 0
  liveDies := 0x3FF
  nearStacks := 0xFF
  peerPorts := 0xFF
  ucie := 0xFF
  ucieLanes := List.replicate 8 64
  peerLanes := List.replicate 8 8
  farSpeed := List.replicate 48 1

/-- The device registers at reset: LIMIT 4,200 and LOCK 0 (Table 1-3), IDE inactive (R396); others log 5. -/
def Device.reset : Device where
  rmver := 0
  pwrLimit := 4200
  pwrLock := false
  demand := List.replicate 32 800
  nearpart := 0
  nearpartNext := none
  surveyAddr := 0x100000000000
  fwaddr := 0
  fwlen := 0
  fwgo := 0
  fwstat := 0
  fwBusy := false
  measurement := List.replicate 64 0
  keyslot := 0
  keydata := List.replicate 8 0
  keyPending := none
  attnonce := List.replicate 4 0
  attaddr := 0
  attgo := 0
  attstat := 0
  attBusy := false
  pufFailed := false
  memwin := List.replicate 16 ⟨0, 0, 0⟩
  mcbase := 0
  mcsize := 0
  mchead := 0
  mctail := 0
  mclost := 0
  temp := 0
  trips := 0
  tripGrants := 0
  hgOn := false
  hgK := 0
  hgbase := 0
  hgsize := 0
  hghead := 0
  hgtail := 0
  hglost := 0
  hgCounts := []
  errors := []
  ideActive := false
  kept := []
  mainPower := false
  inboundAsid := List.replicate 8 0

/-- The module right after reset: standby power not yet applied to the other islands (R20), every context FREE (R399),
no key, no work, memory with nothing listed (log 4, log 5). -/
def State.reset : State where
  agenda := []
  turn := none
  cur := none
  fcur := none
  free := 0
  next := 1
  hostOut := 0
  hostPoison := false
  tick := 0
  mem := []
  lineKeys := []
  poison := []
  hostLines := []
  keys := []
  launches := []
  blocks := []
  warps := []
  ctxs := []
  cores := []
  dies := []
  islands := List.replicate 32 ⟨false, 800⟩
  survey := Survey.reset
  dev := Device.reset
  joins := []
  invals := []
  walks := []

end Sys2Proof.Machine
end

