-- ==== Sys2Proof/Machine/Base.lean ====
section
/-! DEFINITION. Reading and changing one warp, block, launch, context, core or die of the state, and the registers of
lanes and warps. -/
namespace Sys2Proof.Machine

/-! ### What a key that names nothing reads as -/

/-- A warp that does not exist: no fibre, no work. -/
def Warp.absent : Warp where
  ctx := 0
  launch := 0
  blk := none
  wid := 0
  kind := 0
  abBase := 0
  abCount := 0
  core := 0
  quarter := 0
  wslot := 0
  window := 0
  started := 0
  residence := .draining
  halted := false
  exempt := none
  fibres := []
  sregs := []
  cpreds := 0
  fpflags := 0
  numflags := 0
  numctl := 0
  segs := []
  stack := []
  monitor := none
  area := 0
  nextFrag := 1
  queue := []
  handlers := []
  owed := []
  storeQ := []
  heldStores := false
  loads := []
  cpas := []
  copies := []
  runLen := 0
  groupRuns := 0
  groupPc := 0
  age := none
  ran := 0
  stalled := false
  yield := none
  tailed := false
  image := none
  faults := []
  ended := []

/-- A block that does not exist. -/
def Block.absent : Block where
  ctx := 0
  launch := 0
  lin := 0
  x := 0
  y := 0
  z := 0
  task := none
  team := 0
  pos := 0
  teamSize := 1
  state := .retired
  placed := false
  core := 0
  nwarp := 0
  priority := 0
  arrival := 0
  started := 0
  winSize := 0
  winSib := .plain
  win := []
  rings := []
  bars := []
  pool := 0
  abacus := []
  tiles := []
  fm := none
  carter := ⟨0, 0, [], [], 0⟩
  lsconf := 0
  committed := false
  halted := false
  killed := false
  faults := []
  image := none

/-- A declaration that is not valid. -/
def TagDecl.none : TagDecl := ⟨0, 0, 0, 0, 0, 0, false⟩

/-- A launch record of zeros. -/
def LaunchRec.zero : LaunchRec where
  entry := 0
  args := 0
  gx := 1
  gy := 1
  gz := 1
  warps := 1
  single := false
  ordered := false
  fused := false
  idempotent := false
  numTraps := false
  tsoStrict := false
  merge := 0
  window := 1
  roles := []
  localKiB := 0
  team := 1
  priority := 0
  stagger := 0
  seed := 0
  trapVec := 0
  numctl := 0
  recAddr := 0
  spillBase := 0
  spillSize := 0
  spawnTimeout := 0
  tag0 := TagDecl.none
  tag1 := TagDecl.none
  outTensor := 0
  outGen := 0
  outValid := false
  succ := 0
  segPtr := 0
  ctrPtr := 0
  fmStream := 0
  tileSlots := 0
  abacus := 0

/-- A launch as the Loom first holds it (R360, R362). -/
def Launch.fresh (ctx addr : Nat) (r : LaunchRec) (segs : List SegReg) (st : LaunchState) (arrival : Nat) : Launch where
  ctx := ctx
  addr := addr
  lrec := r
  segs := segs
  state := st
  arrival := arrival
  nextBlk := 0
  retired := 0
  children := 0
  teams := []
  lastStart := []
  cur := 0
  retiredTickets := []
  hall := []
  stages := []
  hallFallback := false
  ring := []
  ringHigh := 0
  status := 0
  reason := 0
  tickStart := 0
  tickDone := 0
  faultRec := none
  coarse := 0
  serial := 0
  hallCount := 0
  clocks := []
  startCounts := []
  doneCounts := []
  rmOwed := []

/-- A launch that does not exist. -/
def Launch.absent : Launch := Launch.fresh 0 0 LaunchRec.zero [] .discarded 0

/-! ### Reading and replacing one part -/

def State.warp (s : State) (w : Nat) : Warp := (Tab.find s.warps w).getD Warp.absent
def State.blk (s : State) (b : Nat) : Block := (Tab.find s.blocks b).getD Block.absent
def State.launch (s : State) (l : Nat) : Launch := (Tab.find s.launches l).getD Launch.absent
def State.ctx (s : State) (c : Nat) : Ctx := (Tab.find s.ctxs c).getD Ctx.reset
def State.core (s : State) (c : Nat) : Core := (Tab.find s.cores c).getD Core.reset
def State.die (s : State) (d : Nat) : Die := (Tab.find s.dies d).getD Die.reset

def State.setWarp (s : State) (w : Nat) (W : Warp) : State := { s with warps := Tab.put s.warps w W }
def State.setBlk (s : State) (b : Nat) (B : Block) : State := { s with blocks := Tab.put s.blocks b B }
def State.setLaunch (s : State) (l : Nat) (L : Launch) : State := { s with launches := Tab.put s.launches l L }
def State.setCtx (s : State) (c : Nat) (C : Ctx) : State := { s with ctxs := Tab.put s.ctxs c C }
def State.setCore (s : State) (c : Nat) (C : Core) : State := { s with cores := Tab.put s.cores c C }
def State.setDie (s : State) (d : Nat) (D : Die) : State := { s with dies := Tab.put s.dies d D }

/-- Change a warp that exists. -/
def State.modWarp (s : State) (w : Nat) (f : Warp → Warp) : State := { s with warps := Tab.modify s.warps w f }
/-- Change a block that exists. -/
def State.modBlk (s : State) (b : Nat) (f : Block → Block) : State := { s with blocks := Tab.modify s.blocks b f }
/-- Change a launch that exists. -/
def State.modLaunch (s : State) (l : Nat) (f : Launch → Launch) : State :=
  { s with launches := Tab.modify s.launches l f }
/-- Change a context page. -/
def State.modCtx (s : State) (c : Nat) (f : Ctx → Ctx) : State := s.setCtx c (f (s.ctx c))
/-- EVENT takes a value: when a bit of 6:0 goes from 0 to 1, the context's MSI-X vector is sent (R486). -/
def Ctx.setEvent (C : Ctx) (e : Double) : Ctx :=
  { C with event := e, msix := if e &&& ~~~C.event &&& 0x7F = 0 then C.msix else C.msix + 1 }
/-- Change a core. -/
def State.modCore (s : State) (c : Nat) (f : Core → Core) : State := s.setCore c (f (s.core c))
/-- Change a die. -/
def State.modDie (s : State) (d : Nat) (f : Die → Die) : State := s.setDie d (f (s.die d))
/-- Change every warp. -/
def State.mapWarps (s : State) (f : Nat → Warp → Warp) : State :=
  { s with warps := s.warps.map fun e => (e.1, f e.1 e.2) }
/-- Change every block. -/
def State.mapBlks (s : State) (f : Nat → Block → Block) : State :=
  { s with blocks := s.blocks.map fun e => (e.1, f e.1 e.2) }

/-- A free value's number, and the state in which it is used up (log 2). -/
def State.fresh (s : State) : Nat × State := (s.free, { s with free := s.free + 1 })
/-- A new name or stamp. -/
def State.stamp (s : State) : Nat × State := (s.next, { s with next := s.next + 1 })
/-- One of n choices, left open: choice 0 when there is no more than one (log 2). -/
def State.choose (s : State) (n : Nat) : Nat × State :=
  if n ≤ 1 then (0, s) else (Config.pick s.free % n, { s with free := s.free + 1 })

/-! ### Cores, clusters and dies (R11) -/

def clusterOf (core : Nat) : Nat := core / 4
def dieOf (core : Nat) : Nat := core / 32
/-- Cores of a cluster. -/
def coresOfCluster (cl : Nat) : List Nat := (List.range 4).map (4 * cl + ·)
/-- A core's CLOCK. -/
def State.clock (s : State) (core : Nat) : Nat := (s.core core).clock.toNat

/-! ### Launch properties of a warp -/

/-- Sibling mode (R94): three siblings to a fibre. -/
def State.three (s : State) (W : Warp) : Bool := !(s.launch W.launch).lrec.single
/-- Fibres of a warp: 128 or 384 (R24). -/
def fibreCount (three : Bool) : Nat := if three then 128 else 384
/-- Siblings of a fibre. -/
def lanesPer (three : Bool) : Nat := if three then 3 else 1

/-! ### Registers -/

/-- A lane with every register and predicate 0 (R23). -/
def Lane.zero : Lane := ⟨[], 0⟩
/-- A lane register. -/
def Lane.reg (l : Lane) (r : Nat) : Nat := (Tab.read (0 : Word) l.regs r).toNat
/-- An even pair, its low word in the even register (R182). -/
def Lane.pair (l : Lane) (r : Nat) : Nat := l.reg r + 2 ^ 32 * l.reg (r + 1)
/-- A register or a pair, by the W bit (R198). -/
def Lane.val (l : Lane) (w : Bool) (r : Nat) : Nat := if w then l.pair r else l.reg r
/-- n consecutive registers. -/
def Lane.many (l : Lane) (r n : Nat) : Nat := (List.range n).foldl (fun a i => a + 2 ^ (32 * i) * l.reg (r + i)) 0
/-- Write a lane register. -/
def Lane.setReg (l : Lane) (r v : Nat) : Lane := { l with regs := Tab.write (0 : Word) l.regs r (BitVec.ofNat 32 v) }
/-- Write an even pair. -/
def Lane.setPair (l : Lane) (r v : Nat) : Lane := (l.setReg r v).setReg (r + 1) (v / 2 ^ 32)
/-- Write a register or a pair. -/
def Lane.setVal (l : Lane) (w : Bool) (r v : Nat) : Lane := if w then l.setPair r v else l.setReg r v
/-- Write n consecutive registers. -/
def Lane.setMany (l : Lane) : Nat → Nat → Nat → Lane
  | _, 0, _ => l
  | r, n + 1, v => Lane.setMany (l.setReg r v) (r + 1) n (v / 2 ^ 32)
/-- A predicate; 7 is `pt`, which reads as 1 (R21). -/
def Lane.pred (l : Lane) (p : Pred) : Bool := if p = 7 then true else l.preds.getLsbD p.toNat
/-- Write a predicate; writing `pt` discards the value. -/
def Lane.setPred (l : Lane) (p : Pred) (b : Bool) : Lane :=
  if p = 7 then l
  else { l with preds := if b then l.preds ||| (1#7 <<< p.toNat) else l.preds &&& ~~~(1#7 <<< p.toNat) }

/-- A uniform register. -/
def Warp.sreg (W : Warp) (r : Nat) : Nat := (Tab.read (0 : Word) W.sregs r).toNat
/-- A uniform register or an even pair. -/
def Warp.sval (W : Warp) (w : Bool) (r : Nat) : Nat := if w then W.sreg r + 2 ^ 32 * W.sreg (r + 1) else W.sreg r
/-- Write a uniform register. -/
def Warp.setSreg (W : Warp) (r v : Nat) : Warp := { W with sregs := Tab.write (0 : Word) W.sregs r (BitVec.ofNat 32 v) }
/-- Write a uniform register or an even pair. -/
def Warp.setSval (W : Warp) (w : Bool) (r v : Nat) : Warp :=
  if w then (W.setSreg r v).setSreg (r + 1) (v / 2 ^ 32) else W.setSreg r v
/-- A uniform predicate; 7 is `ct`, which reads as 1 (R284). -/
def Warp.cpred (W : Warp) (c : Pred) : Bool := if c = 7 then true else W.cpreds.getLsbD c.toNat
/-- Write a uniform predicate; writing `ct` discards the value. -/
def Warp.setCpred (W : Warp) (c : Pred) (b : Bool) : Warp :=
  if c = 7 then W
  else { W with cpreds := if b then W.cpreds ||| (1#7 <<< c.toNat) else W.cpreds &&& ~~~(1#7 <<< c.toNat) }

/-! ### Fibres -/

/-- The fibre of a slot. -/
def Warp.fibre? (W : Warp) (k : Nat) : Option Fibre := W.fibres.find? (fun f => f.slot == k)
/-- The fibre of a slot, ended or not (R52). -/
def Warp.slotFibre? (W : Warp) (k : Nat) : Option Fibre := (W.fibres ++ W.ended).find? (fun f => f.slot == k)
/-- Change the fibres of a set of slots. -/
def Warp.mapFibres (W : Warp) (ks : List Nat) (f : Fibre → Fibre) : Warp :=
  { W with fibres := W.fibres.map fun x => if ks.contains x.slot then f x else x }
/-- Lane j of a fibre; in single-lane mode every sibling number reads the one lane (R96). -/
def Fibre.lane (f : Fibre) (j : Nat) : Lane :=
  match f.lanes with
  | [l] => l
  | ls => ls.getD j Lane.zero
/-- A value of each lane. -/
def Fibre.vals (f : Fibre) (g : Lane → Nat) : List Nat := f.lanes.map g

/-! ### Waits -/

/-- Whether a wait stalls its run (R377): the instruction cannot issue yet, and holds the slot for some cycles. What waits by
Table 11-1, for a join, a monitor, the members of a set or a handler gives its slot up at once (R173, R285). -/
def Wait.stalls (x : Wait) : Bool :=
  match x.instr with
  | .ordwait _ | .give _ _ => false
  | _ => match x.why with
    | .regs _ _ _ | .range _ _ _ | .boardRoom | .recorded _ | .stores | .link | .budget _ _ | .stage | .head | .member _ => true
    | _ => false
/-- Whether a wait is one of Table 11-1. -/
def Wait.tabled (x : Wait) : Bool := x.word.getLsbD 31 && !x.stalls && x.why != .handlerDone

/-- The majority of three truth values, and whether they all agree; one value is its own majority (R97). -/
def majorityBool : List Bool → Bool × Bool
  | [a, b, c] => ((a && b) || (a && c) || (b && c), (a == b) && (b == c))
  | [a] => (a, true)
  | _ => (false, true)
/-- Whether values are all equal. -/
def allEqual {α : Type} [DecidableEq α] : List α → Bool
  | [] => true
  | x :: t => t.all (fun y => decide (y = x))

end Sys2Proof.Machine
end

