-- ==== Sys2Proof/Machine/Counters.lean ====
section
/-! DEFINITION. Counter banks, Sieve definitions and the unit counts of the Hourglass (R414 to R416, R418). -/
namespace Sys2Proof.Machine

/-! ### Banks and the Sieve (R414, R416) -/

/-- An empty bank, from a cycle on. -/
def Bank.zero (cycle : Nat) : Bank := ⟨[], cycle, [], [], [], []⟩
/-- The bank of a context on a core, where none was loaded the one of a core that has begun. -/
def Core.bank (C : Core) (c : Nat) : Bank := (Tab.find C.banks c).getD (Bank.zero 0)

/-- Whether a counter belongs to a HIST definition, whose selectors are ignored. -/
def histOwns (sieves : List Sieve) (i : Nat) : Bool :=
  sieves.any fun v => v.op == 4 && decide (v.dest ≤ i) && decide (i < v.dest + 8)
/-- Counters that count a code. -/
def countersOf (C : Ctx) (code : Nat) : List Nat :=
  (List.range 64).filter fun i => C.selectors.getD i 0 == code && !histOwns C.sieves i
/-- Add to one counter. -/
def bumpOne (t : Tab Double) (i n : Nat) : Tab Double := Tab.write (0 : Double) t i (Tab.read 0 t i + BitVec.ofNat 64 n)
/-- Add to every counter that counts a code. -/
def bumpCode (C : Ctx) (t : Tab Double) (code n : Nat) : Tab Double :=
  (countersOf C code).foldl (fun t i => bumpOne t i n) t

/-- Bound b_j of a HIST definition. -/
def histBound (v : Sieve) (j : Nat) : Nat :=
  if 32768 ≤ v.step then v.param * 2 ^ (j - 1) else v.param + v.step % 32768 * (j - 1)
/-- The bin of a run of d cycles: how many bounds it reaches. -/
def histBin (v : Sieve) (d : Nat) : Nat := ((List.range 7).filter fun j => decide (histBound v (j + 1) ≤ d)).length

/-- Output of one definition in one cycle, with counts of that cycle and of the one before. -/
def sieveOut (v : Sieve) (now before : Tab Nat) : Nat :=
  let a := Tab.read 0 now v.a
  match v.op with
  | 1 => if a ≠ 0 ∧ Tab.read 0 now v.b ≠ 0 then 1 else 0
  | 2 => if a ≠ 0 ∧ Tab.read 0 before v.a = 0 then 1 else 0
  | 3 => if v.param ≤ a then 1 else 0
  | _ => 0

/-- A definition over n cycles that are alike, the last of them closing on what the one before it held (R416). -/
def closeSieve (C : Ctx) (n : Nat) (now before : Tab Nat) (B : Bank) (k : Nat) (v : Sieve) : Bank :=
  if v.op = 4 then
    let d := Tab.read 0 B.runs k
    if Tab.read 0 now v.a ≠ 0 then { B with runs := Tab.write 0 B.runs k (d + n) }
    else if d = 0 then B
    else { B with counters := bumpOne B.counters (v.dest + histBin v d) 1, runs := Tab.drop B.runs k }
  else { B with counters := bumpCode C B.counters (0x100 + k) (n * sieveOut v now before) }
/-- Every definition over n cycles alike. -/
def closeSieves (C : Ctx) (n : Nat) (now before : Tab Nat) (B : Bank) : Bank :=
  C.sieves.zipIdx.foldl (fun B e => closeSieve C n now before B e.2 e.1) B
/-- What the events that last put into a cycle, added to what it holds already. -/
def spanCounts (B : Bank) (cycle : Nat) (t : Tab Nat) : Tab Nat :=
  B.spans.foldl (fun t x =>
    if x.first ≤ cycle ∧ cycle < x.stop then Tab.write 0 t x.code (Tab.read 0 t x.code + 1) else t) t
/-- Close the present cycle: every definition, and the cycle becomes the one before. -/
def closeCycle (C : Ctx) (B : Bank) : Bank :=
  let now := spanCounts B B.cycle B.now
  let B := closeSieves C 1 now B.before B
  { B with before := now, now := [], cycle := B.cycle + 1 }
/-- Cycles, n at most, up to the next one in which a lasting event begins or ends. -/
def alikeFor (B : Bank) (n : Nat) : Nat :=
  B.spans.foldl (fun n x =>
    let n := if B.cycle < x.first then min n (x.first - B.cycle) else n
    if B.cycle < x.stop then min n (x.stop - B.cycle) else n) n
/-- One cycle more in which some codes occur. -/
def oneCycle (C : Ctx) (codes : List Nat) (B : Bank) : Bank :=
  closeCycle C { B with now := codes.foldl (fun t k => Tab.write 0 t k (Tab.read 0 t k + 1)) B.now }
/-- Pass n cycles, in each of which some codes occur beside the events that last: the first of a stretch of like cycles is
closed by itself, and the rest of it at once (R416). -/
def passCycles (C : Ctx) (codes : List Nat) : Nat → Nat → Bank → Bank
  | 0, n, B => { B with cycle := B.cycle + n }
  | _ + 1, 0, B => B
  | f + 1, n + 1, B =>
    let B := oneCycle C codes B
    let m := alikeFor B n
    let now := spanCounts B B.cycle (codes.foldl (fun t k => Tab.write 0 t k 1) [])
    if m ≤ 1 ∨ now ≠ B.before then passCycles C codes f n B
    else
      let D := closeSieves C m now now B
      passCycles C codes f (n - m) { D with before := now, cycle := B.cycle + m }
/-- Pass n cycles of a bank, and forget the lasting events that are over. -/
def holdCycles (C : Ctx) (codes : List Nat) (n : Nat) (B : Bank) : Bank :=
  let B := { B with counters := codes.foldl (fun t k => bumpCode C t k n) B.counters }
  let B := passCycles C codes (8 * B.spans.length + 8) n B
  { B with spans := B.spans.filter fun x => decide (B.cycle < x.stop) }
/-- Bring a bank to a cycle: in those between nothing occurred but the events that last. -/
def toCycle (C : Ctx) (B : Bank) (t : Nat) : Bank :=
  match t - B.cycle with
  | 0 => B
  | n + 1 => holdCycles C [] (n + 1) B

/-- Whether a context's counters can count something: a selector is set, or a Sieve definition is (R416). -/
def Ctx.counts (C : Ctx) : Bool := !(C.selectors.all (· == 0) && C.sieves.isEmpty)
/-- Count an event of a context on a core n times (R414). -/
def count (s : State) (c core code n : Nat) : State :=
  let C := s.ctx c
  if !C.counts || n == 0 then s
  else s.modCore core fun K =>
    let B := toCycle C (K.bank c) K.clock.toNat
    { K with banks := Tab.put K.banks c { B with
        counters := bumpCode C B.counters code n
        now := Tab.write 0 B.now code (Tab.read 0 B.now code + n) } }

/-- Count the numeric events of one fibre (Table 16-6). -/
def countNum (s : State) (c core : Nat) (num : BitVec 4) : State :=
  (List.range 4).foldl (fun s i => if num.getLsbD i then count s c core (0x40 + i) 1 else s) s

/-- Count an event that occurs in each of n cycles of a unit: the cycles follow those of the unit's earlier ones that are
still to come (R416, log 109). -/
def countCycles (s : State) (c core code unit n : Nat) : State :=
  let C := s.ctx c
  if !C.counts || n == 0 then s
  else s.modCore core fun K =>
    let B := toCycle C (K.bank c) K.clock.toNat
    let first := (B.spans.filter fun x => x.code == code && x.unit == unit).foldl (fun a x => max a x.stop) B.cycle
    { K with banks := Tab.put K.banks c { B with
        counters := bumpCode C B.counters code n
        spans := B.spans ++ [⟨code, unit, first, first + n⟩] } }

/-! ### Unit counts of the Hourglass (R418) -/

/-- Place of a core's count: its die's slot, and which of the 15 counts. -/
def hgKey (core place : Nat) : Nat := (dieOf core * 64 + core % 32) * 16 + place
/-- Add to a core's unit count. -/
def unitCount (s : State) (core place n : Nat) : State :=
  if s.dev.hgOn && n != 0 then
    let k := hgKey core place
    let t := Tab.write 0 s.dev.hgCounts k (Tab.read 0 s.dev.hgCounts k + n)
    { s with dev := { s.dev with hgCounts := t } }
  else s

end Sys2Proof.Machine
end

