-- ==== Sys2Proof/Machine/Cache.lean ====
section
/-! DEFINITION. The L1 of a core: the local SRAM that windows leave it (R117, R118), the lines it holds, and the fused L1
of a cluster (R128). -/
namespace Sys2Proof.Machine

/-! ### Local SRAM (R117) -/

/-- Local SRAM of a core in bytes. -/
def sramBytes : Nat := 1310720
/-- Bytes that the windows of a core's blocks may total. -/
def windowBytes : Nat := 1179648
/-- Whether a block holds room on a core. -/
def occupies (core : Nat) (B : Block) : Bool := B.core == core && B.placed && B.state != .saved && B.state != .retired
/-- Window bytes in use on a core: blocks there, retired blocks whose copies still land (R118), and the old windows that
forwarding entries keep (R383). -/
def windowUsed (s : State) (core : Nat) : Nat :=
  s.blocks.foldl (fun a e =>
    if occupies core e.2
        || (e.2.core == core && e.2.state == .retired && (s.core core).board.any fun x => x.blk == e.1)
        || (s.core core).forwards.any (fun f => f.blk == e.1 && f.toCore != core)
      then a + e.2.winSize else a) 0
/-- Lines that fit in the SRAM which no window holds. -/
def l1Capacity (s : State) (core : Nat) : Nat := (sramBytes - windowUsed s core) / 64

/-! ### Fusion (R128) -/

/-- Whether a cluster is fused: it holds a block of a launch with the fused-L1 bit (R128). -/
def fusedCluster (s : State) (cl : Nat) : Bool :=
  s.blocks.any fun e =>
    clusterOf e.2.core == cl && e.2.placed && e.2.state != .retired && e.2.state != .saved && (s.launch e.2.launch).lrec.fused
/-- The core whose L1 holds a line for a core: in a fused cluster, cluster core PA[7:6] (R128). -/
def l1Core (s : State) (core a : Nat) : Nat :=
  if fusedCluster s (clusterOf core) then 4 * clusterOf core + a / 64 % 4 else core
/-! ### Lines -/

/-- Name of a line in an L1: the physical line, the key slot of the leaf that read it, whether that was a MEAN leaf,
whose elements take two lines together (R162), and whether its policy is streaming (Table 5-9). -/
def l1Key (line key : Nat) (mean low : Bool) : Nat :=
  ((line * 512 + key) * 2 + (if mean then 1 else 0)) * 2 + (if low then 1 else 0)
/-- Physical line of a name. -/
def l1Line (k : Nat) : Nat := k / 2048
/-- Whether a name is of a line that is evicted first: one of a streaming page (R134). -/
def l1Low (k : Nat) : Bool := k % 2 == 1

/-- Take n lines out of an L1: those of streaming pages first (R134), and which ones of equals is left open (log 87). -/
def evictLines : Nat → State → Tab (BitVec 512) → Tab (BitVec 512) × State
  | 0, s, t => (t, s)
  | n + 1, s, t =>
    let low := (t.zipIdx.filter fun e => l1Low e.1.1).map (·.2)
    let among := if low = [] then List.range t.length else low
    let (i, s) := s.choose among.length
    evictLines n s (dropAt t (among.getD i 0))
/-- An L1 takes a line under a name: its other copies of the line go, and so does another line where it is full (R117). -/
def l1Fill (s : State) (core k : Nat) (line : BitVec 512) : State :=
  let t := (s.core core).l1.filter fun e => l1Line e.1 != l1Line k
  let (t, s) := evictLines (t.length + 1 - l1Capacity s core) s t
  s.modCore core fun C => { C with l1 := Tab.put t k line }
/-- The L1 that serves a core for a line gives up its copies of it. -/
def dropLine (s : State) (core line : Nat) : State :=
  let c := l1Core s core (line * 64)
  if (s.core c).l1.any (fun e => l1Line e.1 == line) then
    s.modCore c fun C => { C with l1 := C.l1.filter fun e => l1Line e.1 != line }
  else s
/-- Drop the copies that the L1s of a core hold of the lines of some bytes. -/
def dropL1 (s : State) (core : Nat) (ws : List MByte) : State :=
  (ws.foldl (fun a b => insertNat a (b.addr / 64)) []).foldl (fun s line => dropLine s core line) s

/-- Which of an L1's lines lie outside a range of its SRAM is left open (log 87). -/
def linesOutside : Tab (BitVec 512) → State → Tab (BitVec 512) × State
  | [], s => ([], s)
  | e :: t, s =>
    let (i, s) := s.choose 2
    let (t, s) := linesOutside t s
    (if i = 0 then e :: t else t, s)
/-- A window takes its SRAM from the L1: the lines in the range are given up, and what remains fits (R118). -/
def reclaim (s : State) (core size : Nat) : State :=
  if size = 0 then s
  else
    let (t, s) := linesOutside (s.core core).l1 s
    let (t, s) := evictLines (t.length - l1Capacity s core) s t
    s.modCore core fun C => { C with l1 := t }

end Sys2Proof.Machine
end

