-- ==== Sys2Proof/Machine/Crypto.lean ====
section
/-! DEFINITION. AES-256 in XTS mode for far lines (R138) and SHAKE256 for the firmware measurement (R404). The
specification names both by their standards (IEEE 1619 with FIPS 197, and FIPS 202). -/
namespace Sys2Proof.Machine

/-! ### AES-256 -/

/-- Multiplication by x in the field of AES. -/
def gfDouble (a : Byte) : Byte := (a <<< 1) ^^^ (if a.getLsbD 7 then 0x1B else 0)
/-- Product in the field of AES, by the bits of the second factor. -/
def gfMulAux : Nat → Byte → Byte → Byte
  | 0, _, _ => 0
  | n + 1, a, b => (if b.getLsbD 0 then a else 0) ^^^ gfMulAux n (gfDouble a) (b >>> 1)
/-- Product in the field of AES. -/
def gfMul (a b : Byte) : Byte := gfMulAux 8 a b
/-- a^254, the inverse of a, and 0 for 0. -/
def gfInv (a : Byte) : Byte :=
  let a2 := gfMul a a
  let a3 := gfMul a2 a
  let a6 := gfMul a3 a3
  let a12 := gfMul a6 a6
  let a15 := gfMul a12 a3
  let a30 := gfMul a15 a15
  let a60 := gfMul a30 a30
  let a120 := gfMul a60 a60
  let a126 := gfMul a120 a6
  let a127 := gfMul a126 a
  gfMul a127 a127
/-- The substitution box. -/
def sbox (a : Byte) : Byte :=
  let b := gfInv a
  b ^^^ b.rotateLeft 1 ^^^ b.rotateLeft 2 ^^^ b.rotateLeft 3 ^^^ b.rotateLeft 4 ^^^ 0x63
/-- The inverse substitution box. -/
def sboxInv (a : Byte) : Byte := gfInv (a.rotateLeft 1 ^^^ a.rotateLeft 3 ^^^ a.rotateLeft 6 ^^^ 0x05)

/-- Bytewise exclusive OR. -/
def xorBytes (a b : List Byte) : List Byte := List.zipWith (· ^^^ ·) a b
/-- Byte i of a list, 0 beyond it. -/
def byteAt (a : List Byte) (i : Nat) : Byte := a.getD i 0

/-- Key words after the first eight, newest first: AES-256 needs 60 words in all. -/
def expandKey : Nat → Nat → Byte → List (List Byte) → List (List Byte)
  | 0, _, _, ws => ws
  | n + 1, i, rc, ws =>
    let t := ws.headD []
    let t8 := ws.getD 7 []
    let u := if i % 8 = 0 then
        match t with
        | [a, b, c, d] => [sbox b ^^^ rc, sbox c, sbox d, sbox a]
        | t => t
      else if i % 8 = 4 then t.map sbox else t
    expandKey n (i + 1) (if i % 8 = 0 then gfDouble rc else rc) (xorBytes t8 u :: ws)
/-- Four-byte pieces of a list. -/
def chunks4 : Nat → List Byte → List (List Byte)
  | 0, _ => []
  | n + 1, bs => bs.take 4 :: chunks4 n (bs.drop 4)
/-- Four words joined to a round key, for each group of four. -/
def joinWords : List (List Byte) → List (List Byte)
  | a :: b :: c :: d :: t => (a ++ b ++ c ++ d) :: joinWords t
  | _ => []
/-- The 15 round keys of a 32-byte key. -/
def roundKeys (key : List Byte) : List (List Byte) :=
  joinWords (expandKey 52 8 1 (chunks4 8 key).reverse).reverse
/-- Rows shifted: byte 4c + r comes from column c + k·r. -/
def shiftRows (k : Nat) (s : List Byte) : List Byte :=
  (List.range 16).map fun i => byteAt s ((i + 4 * (k * (i % 4))) % 16)
/-- One output byte of a column product. -/
def mixByte (m s : List Byte) (i : Nat) : Byte :=
  let c := i / 4 * 4
  let r := i % 4
  gfMul (byteAt m ((4 - r) % 4)) (byteAt s c) ^^^ gfMul (byteAt m ((5 - r) % 4)) (byteAt s (c + 1))
    ^^^ gfMul (byteAt m ((6 - r) % 4)) (byteAt s (c + 2)) ^^^ gfMul (byteAt m ((7 - r) % 4)) (byteAt s (c + 3))
/-- Columns multiplied by a circulant whose first row is m. -/
def mixColumns (m s : List Byte) : List Byte := (List.range 16).map (mixByte m s)
/-- The rounds of encryption after the first key addition. -/
def encRounds : List (List Byte) → List Byte → List Byte
  | [], s => s
  | [k], s => xorBytes k (shiftRows 1 (s.map sbox))
  | k :: t, s => encRounds t (xorBytes k (mixColumns [2, 3, 1, 1] (shiftRows 1 (s.map sbox))))
/-- The rounds of decryption after the first key addition. -/
def decRounds : List (List Byte) → List Byte → List Byte
  | [], s => s
  | [k], s => xorBytes k ((shiftRows 3 s).map sboxInv)
  | k :: t, s => decRounds t (mixColumns [14, 11, 13, 9] (xorBytes k ((shiftRows 3 s).map sboxInv)))
/-- AES-256 encryption of one block. -/
def aesEnc (rk : List (List Byte)) (b : List Byte) : List Byte :=
  match rk with
  | [] => b
  | k :: t => encRounds t (xorBytes k b)
/-- AES-256 decryption of one block. -/
def aesDec (rk : List (List Byte)) (b : List Byte) : List Byte :=
  match rk.reverse with
  | [] => b
  | k :: t => decRounds t (xorBytes k b)

/-- The next tweak: multiplication by x in GF(2^128), little-endian. -/
def tweakDouble (t : List Byte) : List Byte :=
  let v := leNat t * 2
  leBytes 16 (if 2 ^ 128 ≤ v then v % 2 ^ 128 ^^^ 0x87 else v)
/-- The blocks of a line in XTS order under a tweak. -/
def xtsBlocks (f : List Byte → List Byte) : Nat → List Byte → List Byte → List Byte
  | 0, _, _ => []
  | n + 1, t, bs => xorBytes t (f (xorBytes t (bs.take 16))) ++ xtsBlocks f n (tweakDouble t) (bs.drop 16)
/-- The data key is the low half of the pair, the tweak key the high half (IEEE 1619's Key1 and Key2, log 7). -/
def dataKey (k : BitVec 512) : List (List Byte) := roundKeys (leBytes 32 (k.toNat % 2 ^ 256))
/-- The round keys of the tweak key. -/
def tweakKey (k : BitVec 512) : List (List Byte) := roundKeys (leBytes 32 (k.toNat / 2 ^ 256))
/-- Encrypt a 64-byte line at a physical address (R138). -/
def xtsEnc (k : BitVec 512) (addr : Nat) (line : List Byte) : List Byte :=
  xtsBlocks (aesEnc (dataKey k)) 4 (aesEnc (tweakKey k) (leBytes 16 addr)) line
/-- Decrypt a 64-byte line at a physical address (R138). -/
def xtsDec (k : BitVec 512) (addr : Nat) (line : List Byte) : List Byte :=
  xtsBlocks (aesDec (dataKey k)) 4 (aesEnc (tweakKey k) (leBytes 16 addr)) line

/-! ### SHAKE256 -/

/-- Rotation of a lane. -/
def rotLane (v : Double) (n : Nat) : Double := v.rotateLeft (n % 64)
/-- Lane x, y of a Keccak state of 25 lanes. -/
def laneXY (s : List Double) (x y : Nat) : Double := s.getD (x % 5 + 5 * (y % 5)) 0
/-- θ. -/
def keccakTheta (s : List Double) : List Double :=
  let c := (List.range 5).map fun x =>
    laneXY s x 0 ^^^ laneXY s x 1 ^^^ laneXY s x 2 ^^^ laneXY s x 3 ^^^ laneXY s x 4
  (List.range 25).map fun i =>
    s.getD i 0 ^^^ c.getD ((i + 4) % 5) 0 ^^^ rotLane (c.getD ((i + 1) % 5) 0) 1
/-- Rotation offsets of ρ by lane number x + 5y. -/
def rhoOffsets : List Nat :=
  [0, 1, 62, 28, 27, 36, 44, 6, 55, 20, 3, 10, 43, 25, 39, 41, 45, 15, 21, 8, 18, 2, 61, 56, 14]
/-- ρ and π: lane (x, y) comes from lane (x + 3y, x). -/
def keccakRhoPi (s : List Double) : List Double :=
  (List.range 25).map fun i =>
    let x := i % 5
    let y := i / 5
    let j := (x + 3 * y) % 5 + 5 * x
    rotLane (s.getD j 0) (rhoOffsets.getD j 0)
/-- χ. -/
def keccakChi (s : List Double) : List Double :=
  (List.range 25).map fun i =>
    let x := i % 5
    let y := i / 5
    laneXY s x y ^^^ (~~~ laneXY s (x + 1) y &&& laneXY s (x + 2) y)
/-- One step of the register that gives the round constants. -/
def rcStep (r : Byte) : Byte := (r <<< 1) ^^^ (if r.getLsbD 7 then 0x71 else 0)
/-- The round constant of one round, from the register's state, and the state after it. -/
def roundConst : Nat → Nat → Byte → Double × Byte
  | 0, _, r => (0, r)
  | n + 1, j, r =>
    let rest := roundConst n (j + 1) (rcStep r)
    ((if r.getLsbD 0 then (1 : Double) <<< (2 ^ j - 1) else 0) ^^^ rest.1, rest.2)
/-- The rounds of Keccak-f[1600]. -/
def keccakRounds : Nat → Byte → List Double → List Double
  | 0, _, s => s
  | n + 1, r, s =>
    let rc := roundConst 7 0 r
    let t := keccakChi (keccakRhoPi (keccakTheta s))
    keccakRounds n rc.2 (match t with | a :: b => (a ^^^ rc.1) :: b | [] => [])
/-- Keccak-f[1600]. -/
def keccakF (s : List Double) : List Double := keccakRounds 24 1 s
/-- Eight-byte lanes of a byte list. -/
def lanesOf : Nat → List Byte → List Double
  | 0, _ => []
  | n + 1, bs => BitVec.ofNat 64 (leNat (bs.take 8)) :: lanesOf n (bs.drop 8)
/-- Absorb blocks of 136 bytes. -/
def absorb : Nat → List Byte → List Double → List Double
  | 0, _, s => s
  | n + 1, bs, s =>
    absorb n (bs.drop 136)
      (keccakF (List.zipWith (· ^^^ ·) s (lanesOf 17 (bs.take 136) ++ List.replicate 8 0)))
/-- SHAKE256 with an output of at most 136 bytes (FIPS 202). -/
def shake256 (msg : List Byte) (outLen : Nat) : List Byte :=
  let r := msg.length % 136
  let pad : List Byte := if r = 135 then [0x9F] else [0x1F] ++ List.replicate (134 - r) 0 ++ [0x80]
  let s := absorb (msg.length / 136 + 1) (msg ++ pad) (List.replicate 25 0)
  (s.flatMap (fun l => leBytes 8 l.toNat)).take outLen

end Sys2Proof.Machine
end

