-- ==== Sys2Proof/Machine/Numbers.lean ====
section
/-! DEFINITION. Number formats, Round, draws, and the order of sums (R56 to R93). Values are exact: a sign, a natural
number and a power of two; quotients and roots are rounded from their exact floors. -/
namespace Sys2Proof.Machine

/-- A floating-point format (Table 3-1): width, fraction bits, bias, and which specials it has (Table 3-2). -/
structure Fmt where
  width : Nat
  frac : Nat
  bias : Nat
  inf : Bool
  nan : Bool
deriving DecidableEq, Repr

def binary64 : Fmt := ⟨64, 52, 1023, true, true⟩
def binary32 : Fmt := ⟨32, 23, 127, true, true⟩
def binary16 : Fmt := ⟨16, 10, 15, true, true⟩
def bfloat16 : Fmt := ⟨16, 7, 127, true, true⟩
def e4m3 : Fmt := ⟨8, 3, 7, false, true⟩
def e5m2 : Fmt := ⟨8, 2, 15, true, true⟩
def e2m1 : Fmt := ⟨4, 1, 1, false, false⟩

/-- The format of a two-bit type (Table 7-11). -/
def fmtOf : FTy → Fmt
  | .f32 => binary32 | .f64 => binary64 | .f16 => binary16 | .bf16 => bfloat16

/-- The format of a conversion code (Table 8-7). -/
def fmtOfCvt : CvtFmt → Fmt
  | .f32 => binary32 | .f64 => binary64 | .f16 => binary16 | .bf16 => bfloat16
  | .e4m3 => e4m3 | .e5m2 => e5m2 | .e2m1 => e2m1

/-- Precision with the implicit bit (Table 3-1). -/
def Fmt.p (f : Fmt) : Nat := f.frac + 1
/-- Exponent of the smallest normal binade. -/
def Fmt.emin (f : Fmt) : Int := 1 - (f.bias : Int)
/-- The exponent field of all ones. -/
def Fmt.expOnes (f : Fmt) : Nat := 2 ^ (f.width - 1 - f.frac) - 1
/-- Bits of the largest finite magnitude: E4M3 and E2M1 use their top exponent for numbers (R58). -/
def Fmt.maxBits (f : Fmt) : Nat :=
  if f.inf then f.expOnes * 2 ^ f.frac - 1
  else if f.nan then f.expOnes * 2 ^ f.frac + 2 ^ f.frac - 2
  else 2 ^ (f.width - 1) - 1
/-- Bits of +∞, for a format that has it. -/
def Fmt.infBits (f : Fmt) : Nat := f.expOnes * 2 ^ f.frac
/-- The canonical NaN (Table 3-2). -/
def Fmt.nanBits (f : Fmt) : Nat :=
  if f.inf then f.infBits + 2 ^ (f.frac - 1) else 2 ^ (f.width - 1) - 1
/-- The sign bit. -/
def Fmt.signBit (f : Fmt) : Nat := 2 ^ (f.width - 1)

/-- What an encoding decodes to: a NaN, signalling or quiet; an infinity; or (−1)^neg · m · 2^e exactly. -/
inductive Num where
  | nan (signalling : Bool)
  | inf (neg : Bool)
  | fin (neg : Bool) (m : Nat) (e : Int)
deriving DecidableEq, Repr

/-- Flags NV, DZ, OF, UF and NX in bits 4 to 0 (R84). -/
abbrev Flags := BitVec 5
def flagNV : Flags := 16
def flagDZ : Flags := 8
def flagOF : Flags := 4
def flagUF : Flags := 2
def flagNX : Flags := 1

/-- Decode (R57, R58, R59, R89). -/
def decodeNum (f : Fmt) (bits : Nat) : Num :=
  let b := bits % 2 ^ f.width
  let neg := decide (f.signBit ≤ b)
  let mag := b % f.signBit
  let ex := mag / 2 ^ f.frac
  let fr := mag % 2 ^ f.frac
  if f.inf && ex == f.expOnes then
    if fr = 0 then .inf neg
    else .nan (decide (8 < f.width) && decide (fr < 2 ^ (f.frac - 1)))
  else if f.nan && !f.inf && mag == 2 ^ (f.width - 1) - 1 then .nan false
  else if ex = 0 then .fin neg fr (f.emin - (f.frac : Int))
  else .fin neg (2 ^ f.frac + fr) ((ex : Int) - (f.bias : Int) - (f.frac : Int))

/-- E8M0 (R57): 2^(X − 127), or NaN for 0xFF. -/
def decodeE8 (x : Nat) : Num := if x % 256 = 255 then .nan false else .fin false 1 ((x % 256 : Nat) - 127 : Int)

/-- Whether a number is zero. -/
def Num.isZero : Num → Bool | .fin _ 0 _ => true | _ => false
/-- Whether a number is a NaN. -/
def Num.isNan : Num → Bool | .nan _ => true | _ => false
/-- Whether a number is a signalling NaN. -/
def Num.isSnan : Num → Bool | .nan s => s | _ => false
/-- Whether a number is an infinity. -/
def Num.isInf : Num → Bool | .inf _ => true | _ => false
/-- The sign; a NaN has none. -/
def Num.neg : Num → Bool | .nan _ => false | .inf n => n | .fin n _ _ => n
/-- The number with the other sign. -/
def Num.flip : Num → Num | .nan s => .nan s | .inf n => .inf (!n) | .fin n m e => .fin (!n) m e
/-- floor(log2 |x|) of a nonzero finite number. -/
def Num.exp : Num → Option Int | .fin _ m e => if m = 0 then none else some ((m.log2 : Int) + e) | _ => none
/-- NV for signalling NaN inputs (R59). -/
def snanFlag (xs : List Num) : Flags := if xs.any Num.isSnan then flagNV else 0

/-- m · 2^e as an integer at the scale 2^s, which must not be above e for the result to be exact. -/
def scaled (m : Nat) (e s : Int) : Nat := m * 2 ^ (e - s).toNat

/-- floor(m · 2^k), and whether it is exact. -/
def shiftFloor (m : Nat) (k : Int) : Nat × Bool :=
  if 0 ≤ k then (m * 2 ^ k.toNat, true)
  else (m / 2 ^ (-k).toNat, m % 2 ^ (-k).toNat == 0)

/-- Exact sum of two finite numbers: signed mantissa and exponent. -/
def addExact (n1 : Bool) (m1 : Nat) (e1 : Int) (n2 : Bool) (m2 : Nat) (e2 : Int) : Int × Int :=
  let s := min e1 e2
  let a : Int := scaled m1 e1 s
  let b : Int := scaled m2 e2 s
  ((if n1 then -a else a) + (if n2 then -b else b), s)

/-- A finite number from a signed mantissa; zero takes the sign given. -/
def finOf (v : Int × Int) (zeroNeg : Bool) : Num :=
  if v.1 = 0 then .fin zeroNeg 0 0 else .fin (decide (v.1 < 0)) v.1.natAbs v.2

/-! ### The draw (R71) -/

/-- Mix64 (R71). -/
def mix64 (x : Double) : Double :=
  let x := x ^^^ (x >>> 30)
  let x := x * 0xBF58476D1CE4E5B9
  let x := x ^^^ (x >>> 27)
  let x := x * 0x94D049BB133111EB
  x ^^^ (x >>> 31)

/-- Draw (R71). -/
def draw (seed k c : Double) : Double := mix64 (mix64 (seed ^^^ k) ^^^ c)

/-- The lane key and counter of R72 and R200. -/
def laneDraw (seed : Double) (tid : Word) (sib : Nat) (icount : BitVec 48) (event : Nat) : Double :=
  draw seed (((tid.setWidth 64) <<< 2) ||| BitVec.ofNat 64 sib)
    (((icount.setWidth 64) <<< 16) ||| BitVec.ofNat 64 (event % 65536))

/-- The matrix key and counter of R72 and R336. -/
def matrixDraw (seed : Double) (lin plane : Nat) (fcount : Double) (i j ch : Nat) : Double :=
  draw seed (BitVec.ofNat 64 (2 ^ 63 + (lin % 2 ^ 32) * 4 + plane))
    (BitVec.ofNat 64 ((fcount.toNat % 2 ^ 32) * 2 ^ 32 + (i % 256) * 2 ^ 24 + (j % 256) * 2 ^ 16 + ch % 65536))

/-! ### Round (R68 to R70) -/

/-- Rounding attributes: the LX codes 1 to 6 of Table 3-5, and 7 for RA, which only a modifier selects. -/
abbrev Mode := BitVec 3
def modeRN : Mode := 1
def modeRZ : Mode := 2
def modeRU : Mode := 3
def modeRD : Mode := 4
def modeRSD : Mode := 5
def modeRSP : Mode := 6
def modeRA : Mode := 7

/-- Whether the magnitude goes up (R70): k is the quantum count below, f33 the fraction in units of 2^−33, rest whether
more lies below that. -/
def roundsUp (mode : Mode) (d : Double) (neg : Bool) (k f33 : Nat) (rest : Bool) : Bool :=
  let half := 2 ^ 32
  let above := decide (half < f33) || (f33 == half && rest)
  let tie := f33 == half && !rest
  if mode = modeRN then above || (tie && k % 2 == 1)
  else if mode = modeRA then above || tie
  else if mode = modeRU then !neg
  else if mode = modeRD then neg
  else if mode = modeRSD then d.getLsbD 63 == !neg
  else if mode = modeRSP then decide (d.toNat % 2 ^ 32 < f33 / 2)
  else false

/-- Whether an overflow stays at the largest finite value (R70). -/
def towardZero (mode : Mode) (d : Double) (neg : Bool) : Bool :=
  mode == modeRZ || (mode == modeRU && neg) || (mode == modeRD && !neg)
    || (mode == modeRSD && d.getLsbD 63 == neg)

/-- Round (R70) of a nonzero magnitude a, given e = floor(log2 a) and `fl s`, the floor of a · 2^s and whether that is
exact: the encoding and its flags. -/
def roundMag (f : Fmt) (mode : Mode) (d : Double) (neg : Bool) (e : Int) (fl : Int → Nat × Bool) : Nat × Flags :=
  let qe := max e f.emin - (f.p : Int) + 1
  let (n, ex) := fl (33 - qe)
  let k := n / 2 ^ 33
  let f33 := n % 2 ^ 33
  let exact := f33 == 0 && ex
  let up := !exact && roundsUp mode d neg k f33 (!ex)
  let m := if up then k + 1 else k
  let fl1 : Flags := if exact then 0 else if e < f.emin then flagNX ||| flagUF else flagNX
  let sign := if neg then f.signBit else 0
  -- m is at most 2^p: a carry into the next binade is the same encoding
  let mag := if m < 2 ^ f.frac then m else (qe - f.emin + (f.p : Int)).toNat * 2 ^ f.frac + (m - 2 ^ f.frac)
  if f.maxBits < mag then
    (sign + (if !f.inf || towardZero mode d neg then f.maxBits else f.infBits), flagOF ||| flagNX)
  else (sign + mag, fl1)

/-- Round of an exact dyadic value; zero takes its sign. -/
def roundDyadic (f : Fmt) (mode : Mode) (d : Double) (neg : Bool) (m : Nat) (e : Int) : Nat × Flags :=
  if m = 0 then (if neg then f.signBit else 0, 0)
  else roundMag f mode d neg ((m.log2 : Int) + e) (fun s => shiftFloor m (e + s))

/-- floor(log2(n / d)) of positive naturals. -/
def log2Ratio (n d : Nat) : Int :=
  let g : Int := (n.log2 : Int) - (d.log2 : Int)
  let le := if 0 ≤ g then decide (d * 2 ^ g.toNat ≤ n) else decide (d ≤ n * 2 ^ (-g).toNat)
  if le then g else g - 1

/-- floor(n / d · 2^s) and whether it is exact. -/
def ratioFloor (n d : Nat) (s : Int) : Nat × Bool :=
  let a := if 0 ≤ s then n * 2 ^ s.toNat else n
  let b := if 0 ≤ s then d else d * 2 ^ (-s).toNat
  (a / b, a % b == 0)

/-- Round of n / d · 2^e; zero takes its sign. -/
def roundRatio (f : Fmt) (mode : Mode) (d : Double) (neg : Bool) (n dn : Nat) (e : Int) : Nat × Flags :=
  if n = 0 then (if neg then f.signBit else 0, 0)
  else roundMag f mode d neg (log2Ratio n dn + e) (fun s => ratioFloor n dn (s + e))

/-- Integer square root by bits from the top: the largest r with r² ≤ n. -/
def isqrtAux : Nat → Nat → Nat → Nat
  | 0, _, r => r
  | i + 1, n, r => let t := r + 2 ^ i; isqrtAux i n (if t * t ≤ n then t else r)
/-- Integer square root. -/
def isqrt (n : Nat) : Nat := isqrtAux (n.log2 / 2 + 1) n 0

/-- floor(√(n / d) · 2^s) and whether it is exact. -/
def rootFloor (n d : Nat) (s : Int) : Nat × Bool :=
  let a := if 0 ≤ s then n * 2 ^ (2 * s.toNat) else n
  let b := if 0 ≤ s then d else d * 2 ^ (2 * (-s).toNat)
  let r := isqrt (a / b)
  (r, decide (r * r * b = a))

/-- Round of √(n / d) for positive n and d. -/
def roundRoot (f : Fmt) (mode : Mode) (d : Double) (n dn : Nat) : Nat × Flags :=
  roundMag f mode d false (log2Ratio n dn / 2) (fun s => rootFloor n dn s)

/-- Encode (R89): Round of a number, its specials by R58 and R82. An infinity into a format without one is its
largest value with OF and NX; a NaN into E2M1 is +0 with NV. -/
def encodeNum (f : Fmt) (mode : Mode) (d : Double) (x : Num) : Nat × Flags :=
  match x with
  | .nan _ => if f.nan then (f.nanBits, 0) else (0, flagNV)
  | .inf neg =>
    let sign := if neg then f.signBit else 0
    if f.inf then (sign + f.infBits, 0) else (sign + f.maxBits, flagOF ||| flagNX)
  | .fin neg m e => roundDyadic f mode d neg m e

/-! ### Arithmetic (R218 to R232) -/

/-- A result and its flags; `drop` is the exponent drop of CANC (R111): the largest addend exponent and, for a nonzero
exact result, its exponent. -/
structure FOut where
  bits : Nat
  flags : Flags
  drop : Option (Int × Option Int)
deriving DecidableEq, Repr

/-- A result without addends. -/
def fout (r : Nat × Flags) : FOut := ⟨r.1, r.2, none⟩
/-- The canonical NaN with NV for an invalid operation or a signalling input. -/
def invalid (f : Fmt) : FOut := ⟨f.nanBits, flagNV, none⟩

/-- The larger of two addend exponents; zero addends are left out (R111). -/
def maxExp : Option Int → Option Int → Option Int
  | some a, some b => some (max a b)
  | some a, none => some a
  | none, b => b

/-- Sign of an exactly zero sum (R218): both zeros of one sign keep it; otherwise − under RD alone. -/
def zeroSumNeg (mode : Mode) (x y : Num) : Bool :=
  if x.isZero && y.isZero && x.neg == y.neg then x.neg else mode == modeRD

/-- x + y in a format (R219). -/
def fAdd (f : Fmt) (mode : Mode) (d : Double) (x y : Num) : FOut :=
  match x, y with
  | .nan _, _ | _, .nan _ => ⟨f.nanBits, snanFlag [x, y], none⟩
  | .inf a, .inf b => if a = b then fout (encodeNum f mode d (.inf a)) else invalid f
  | .inf a, _ => fout (encodeNum f mode d (.inf a))
  | _, .inf b => fout (encodeNum f mode d (.inf b))
  | .fin n1 m1 e1, .fin n2 m2 e2 =>
    let v := finOf (addExact n1 m1 e1 n2 m2 e2) (zeroSumNeg mode x y)
    let r := encodeNum f mode d v
    ⟨r.1, r.2, (maxExp x.exp y.exp).map (fun m => (m, v.exp))⟩

/-- The exact product of two numbers, and whether it is the invalid 0 × ∞ (R59). -/
def mulNum (x y : Num) : Num × Bool :=
  match x, y with
  | .nan s, .nan t => (.nan (s || t), false)
  | .nan s, _ => (.nan s, false)
  | _, .nan s => (.nan s, false)
  | .inf a, .inf b => (.inf (a != b), false)
  | .inf a, .fin b m _ => if m = 0 then (.nan false, true) else (.inf (a != b), false)
  | .fin a m _, .inf b => if m = 0 then (.nan false, true) else (.inf (a != b), false)
  | .fin a m e, .fin b n g => (.fin (a != b) (m * n) (e + g), false)

/-- x × y in a format (R219). -/
def fMul (f : Fmt) (mode : Mode) (d : Double) (x y : Num) : FOut :=
  let (p, bad) := mulNum x y
  if bad then invalid f
  else let r := encodeNum f mode d p; ⟨r.1, r.2 ||| snanFlag [x, y], none⟩

/-- x × y + z with one rounding (R220). -/
def fFma (f : Fmt) (mode : Mode) (d : Double) (x y z : Num) : FOut :=
  let (p, bad) := mulNum x y
  if bad then invalid f
  else
    let r := fAdd f mode d p z
    { r with flags := r.flags ||| snanFlag [x, y, z] }

/-- x / y (R225). -/
def fDiv (f : Fmt) (mode : Mode) (d : Double) (x y : Num) : FOut :=
  let sign := x.neg != y.neg
  match x, y with
  | .nan _, _ | _, .nan _ => ⟨f.nanBits, snanFlag [x, y], none⟩
  | .inf _, .inf _ => invalid f
  | .inf _, .fin _ _ _ => fout (encodeNum f mode d (.inf sign))
  | .fin _ _ _, .inf _ => fout (encodeNum f mode d (.fin sign 0 0))
  | .fin _ m e, .fin _ n g =>
    if n = 0 then
      if m = 0 then invalid f
      else let r := encodeNum f mode d (.inf sign); ⟨r.1, r.2 ||| flagDZ, none⟩
    else fout (roundRatio f mode d sign m n (e - g))

/-- √x (R226). -/
def fSqrt (f : Fmt) (mode : Mode) (d : Double) (x : Num) : FOut :=
  match x with
  | .nan s => ⟨f.nanBits, if s then flagNV else 0, none⟩
  | .inf n => if n then invalid f else fout (encodeNum f mode d x)
  | .fin n m e =>
    if m = 0 then fout (encodeNum f mode d x)
    else if n then invalid f
    else if 0 ≤ e then fout (roundRoot f mode d (m * 2 ^ e.toNat) 1)
    else fout (roundRoot f mode d m (2 ^ (-e).toNat))

/-- 1 / x (R226). -/
def fRcp (f : Fmt) (mode : Mode) (d : Double) (x : Num) : FOut := fDiv f mode d (.fin false 1 0) x

/-- 1 / √x (R226). -/
def fRsq (f : Fmt) (mode : Mode) (d : Double) (x : Num) : FOut :=
  match x with
  | .nan s => ⟨f.nanBits, if s then flagNV else 0, none⟩
  | .inf n => if n then invalid f else fout (encodeNum f mode d (.fin false 0 0))
  | .fin n m e =>
    if m = 0 then let r := encodeNum f mode d (.inf n); ⟨r.1, r.2 ||| flagDZ, none⟩
    else if n then invalid f
    else if 0 ≤ e then fout (roundRoot f mode d 1 (m * 2 ^ e.toNat))
    else fout (roundRoot f mode d (2 ^ (-e).toNat) m)

/-- Exact comparison of two numbers that are not NaN: −1, 0 or 1. -/
def cmpNum (x y : Num) : Int :=
  match x, y with
  | .nan _, _ | _, .nan _ => 0
  | .inf a, .inf b => if a = b then 0 else if a then -1 else 1
  | .inf a, _ => if a then -1 else 1
  | _, .inf b => if b then 1 else -1
  | .fin n1 m1 e1, .fin n2 m2 e2 => (addExact n1 m1 e1 (!n2) m2 e2).1.sign

/-- minimumNumber and maximumNumber, or minimum and maximum when `prop` (R221): −0 lies below +0. -/
def fMinMax (f : Fmt) (isMax prop : Bool) (xb yb : Nat) : FOut :=
  let x := decodeNum f xb
  let y := decodeNum f yb
  let fl := snanFlag [x, y]
  if x.isNan && y.isNan then ⟨f.nanBits, fl, none⟩
  else if x.isNan || y.isNan then
    if prop then ⟨f.nanBits, fl, none⟩ else ⟨(if x.isNan then yb else xb) % 2 ^ f.width, fl, none⟩
  else
    let c := cmpNum x y
    let less := decide (c < 0) || (c == 0 && x.neg && !y.neg)
    ⟨(if less == isMax then yb else xb) % 2 ^ f.width, fl, none⟩

/-- Table 8-4 for floating point: the result and NV. -/
def fCompare (c : Cond) (x y : Num) : Bool × Flags :=
  let un := x.isNan || y.isNan
  let k := cmpNum x y
  let quiet := snanFlag [x, y]
  let loud : Flags := if un then flagNV else 0
  match c with
  | .eq => (!un && k == 0, quiet)
  | .ne => (un || k != 0, quiet)
  | .lt => (!un && decide (k < 0), loud)
  | .le => (!un && decide (k ≤ 0), loud)
  | .gt => (!un && decide (0 < k), loud)
  | .ge => (!un && decide (0 ≤ k), loud)
  | .un => (un, quiet)
  | .ord => (!un, quiet)

/-- The class mask of Table 8-5. -/
def fClass (f : Fmt) (bits : Nat) : Nat :=
  match decodeNum f bits with
  | .nan s => if s then 256 else 512
  | .inf n => if n then 1 else 128
  | .fin n m _ =>
    if m = 0 then (if n then 8 else 16)
    else if m < 2 ^ f.frac then (if n then 4 else 32)
    else (if n then 2 else 64)

/-- A magnitude rounded to an integer under an attribute: the integer and whether it is inexact (R83, R228). -/
def roundInt (mode : Mode) (d : Double) (neg : Bool) (m : Nat) (e : Int) : Nat × Bool :=
  let (n, ex) := shiftFloor m (e + 33)
  let k := n / 2 ^ 33
  let f33 := n % 2 ^ 33
  if f33 == 0 && ex then (k, false)
  else (if roundsUp mode d neg k f33 (!ex) then k + 1 else k, true)

/-- `frint` (R228). -/
def fRint (f : Fmt) (mode : Mode) (d : Double) (exact : Bool) (bits : Nat) : FOut :=
  match decodeNum f bits with
  | .nan s => ⟨f.nanBits, if s then flagNV else 0, none⟩
  | .inf _ => ⟨bits % 2 ^ f.width, 0, none⟩
  | .fin n m e =>
    if m = 0 || decide ((f.p : Int) - 1 ≤ (m.log2 : Int) + e) then ⟨bits % 2 ^ f.width, 0, none⟩
    else
      let (k, nx) := roundInt mode d n m e
      ⟨(roundDyadic f modeRZ 0 n k 0).1, if nx && exact then flagNX else 0, none⟩

/-- `f2i` (R83, R231): w-bit result. -/
def fToInt (mode : Mode) (d : Double) (w : Nat) (signed : Bool) (x : Num) : Nat × Flags :=
  let lo : Int := if signed then -(2 ^ (w - 1) : Nat) else 0
  let hi : Int := if signed then (2 ^ (w - 1) : Nat) - 1 else (2 ^ w : Nat) - 1
  let enc : Int → Nat := fun v => (v % (2 ^ w : Nat)).toNat
  match x with
  | .nan _ => (0, flagNV)
  | .inf n => (enc (if n then lo else hi), flagNV)
  | .fin n m e =>
    let (k, nx) := roundInt mode d n m e
    let v : Int := if n then -(k : Int) else k
    if v < lo then (enc lo, flagNV) else if hi < v then (enc hi, flagNV)
    else (enc v, if nx then flagNX else 0)

/-- `fldexp` (R232). -/
def fLdexp (f : Fmt) (mode : Mode) (d : Double) (x : Num) (k : Int) : FOut :=
  match x with
  -- no format spans 4,096 binades, so a larger exponent acts as 4,096 does
  | .fin n m e => fout (encodeNum f mode d (.fin n m (e + max (-4096) (min 4096 k))))
  | _ => let r := encodeNum f mode d x; ⟨r.1, r.2 ||| snanFlag [x], none⟩

/-- `ffrexp` (R232): significand bits, exponent and NV. -/
def fFrexp (f : Fmt) (bits : Nat) : Nat × Int × Flags :=
  match decodeNum f bits with
  | .nan s => (f.nanBits, 0, if s then flagNV else 0)
  | .inf _ => (bits % 2 ^ f.width, 0, 0)
  | .fin n m e =>
    if m = 0 then (bits % 2 ^ f.width, 0, 0)
    else
      let x : Int := (m.log2 : Int) + e + 1
      ((roundDyadic f modeRN 0 n m (e - x)).1, x, 0)

/-! ### Mean3, Majority, Digits and Agree (R90 to R92) -/

/-- Mean3 (R90): encoding and NV. A quiet NaN beside infinities of unlike sign raises nothing: which of R90's two sentences
holds then is left open (log 88). -/
def mean3 (f : Fmt) (x0 x1 x2 : Num) : Nat × Flags :=
  let xs := [x0, x1, x2]
  if xs.any Num.isNan then (f.nanBits, snanFlag xs)
  else if xs.any (fun x => x.isInf && x.neg) && xs.any (fun x => x.isInf && !x.neg) then (f.nanBits, flagNV)
  else match xs.find? Num.isInf with
    | some (.inf n) => ((encodeNum f modeRN 0 (.inf n)).1, 0)
    | _ =>
      match x0, x1, x2 with
      | .fin n0 m0 e0, .fin n1 m1 e1, .fin n2 m2 e2 =>
        let s := addExact n0 m0 e0 n1 m1 e1
        let t := addExact (decide (s.1 < 0)) s.1.natAbs s.2 n2 m2 e2
        if t.1 = 0 then (if xs.all (fun x => x.isZero && x.neg) then f.signBit else 0, 0)
        else ((roundRatio f modeRN 0 (decide (t.1 < 0)) t.1.natAbs 3 t.2).1, 0)
      | _, _, _ => (f.nanBits, 0)

/-- Majority (R90): the value and whether there is a majority. -/
def majority (y0 y1 y2 : Nat) : Nat × Bool :=
  if y0 = y1 ∨ y0 = y2 then (y0, true) else if y1 = y2 then (y1, true) else (y0, false)

/-- Signed value of a finite number in units of 2^s. -/
def signedAt (x : Num) (s : Int) : Int :=
  match x with
  | .fin n m e => let v : Int := scaled m e s; if n then -v else v
  | _ => 0

/-- The exponent unit of a finite number; specials give no bound. -/
def Num.unit : Num → Int | .fin _ m e => if m = 0 then 0 else e | _ => 0

/-- The lowest unit of nonzero numbers. -/
def lowUnit (xs : List Num) : Int :=
  match xs.filter (fun x => !x.isZero) with
  | [] => 0
  | x :: t => t.foldl (fun a y => min a y.unit) x.unit

/-- Largest C with 4^C ≤ n / d, for n / d at least 1, up to a bound. -/
def log4Floor (n d : Nat) : Nat → Nat
  | 0 => 0
  | b + 1 => if d * 4 ^ (b + 1) ≤ n then b + 1 else log4Floor n d b

/-- Digits (R91). -/
def digits3 (x0 x1 x2 : Num) (p : Nat) : Nat :=
  let xs := [x0, x1, x2]
  if xs.any Num.isNan then 0
  else if xs.any Num.isInf then (if x0 = x1 ∧ x1 = x2 then p else 0)
  else
    let s := lowUnit xs
    let a := signedAt x0 s; let b := signedAt x1 s; let c := signedAt x2 s
    -- with t = a + b + c the mean is t / 3, and 9 · 2 · s² = Σ (3x − t)²
    let t := a + b + c
    let dev := ((3 * a - t) * (3 * a - t) + (3 * b - t) * (3 * b - t) + (3 * c - t) * (3 * c - t)).toNat
    if dev = 0 then p
    else if t = 0 then 0
    -- Q = 3 (t/3)² 10^6 / (18515809 · dev / 18)
    else log4Floor (6 * 1000000 * (t * t).toNat) (18515809 * dev) p

/-- Agree (R92). -/
def agree3Aux (a b c : Int) (s emax : Int) : Nat → Nat
  | 0 => 0
  | k + 1 =>
    -- w = 2^(emax − k) in units of 2^s; a weight below the unit leaves exact values
    let sh := emax - (k : Int) - s
    let fl : Int → Int := fun x => if 0 ≤ sh then x / (2 ^ sh.toNat : Nat) else x
    if fl a = fl b ∧ fl b = fl c then k + 1 else agree3Aux a b c s emax k

/-- Agree (R92). -/
def agree3 (x0 x1 x2 : Num) (p : Nat) : Nat :=
  let xs := [x0, x1, x2]
  if xs.any Num.isNan then 0
  else if xs.any Num.isInf then (if x0 = x1 ∧ x1 = x2 then p else 0)
  else
    let s := lowUnit xs
    let a := signedAt x0 s; let b := signedAt x1 s; let c := signedAt x2 s
    if a = b ∧ b = c then p
    else if (decide (a < 0) || decide (b < 0) || decide (c < 0)) && (decide (0 < a) || decide (0 < b) || decide (0 < c)) then 0
    else
      match maxExp x0.exp (maxExp x1.exp x2.exp) with
      | none => p
      | some emax => agree3Aux a b c s emax p

/-! ### The order of sums (R74 to R81) -/

/-- Align (R74) of a signed value in units of 2^s to the window of w bits below 2^(emax + 1). -/
def alignAt (v : Int) (s emax : Int) (w : Nat) : Int :=
  let k := emax - (w : Int) + 1 - s
  if 0 ≤ k then
    let u : Int := (2 ^ k.toNat : Nat)
    if v < 0 then -((-v) / u * u) else v / u * u
  else v

/-- floor(log2 |v|) of a nonzero integer in units of 2^s. -/
def expAt (v : Int) (s : Int) : Int := (v.natAbs.log2 : Int) + s

/-- Largest exponent of nonzero terms. -/
def maxTermExp (vs : List Int) (s : Int) : Option Int :=
  vs.foldl (fun a v => if v = 0 then a else maxExp a (some (expAt v s))) none

/-- Exact products with an indication of invalid ones. -/
def products (xs ys : List Num) : List (Num × Bool) := (xs.zip ys).map fun (x, y) => mulNum x y

/-- Sum of finite numbers aligned to a window of w bits, or exact when there is no window: mantissa and unit. -/
def alignedSum (ps : List Num) (w : Option Nat) : Int × Int :=
  let s := lowUnit ps
  let vs := ps.map (fun p => signedAt p s)
  match w, maxTermExp vs s with
  | some w, some emax => ((vs.map (fun v => alignAt v s emax w)).foldl (· + ·) 0, s)
  | _, _ => (vs.foldl (· + ·) 0, s)

/-- The specials of R76 over products and addend: the outcome when there is one. Where a NaN stands beside infinities of unlike
sign, R76 gives both results and leaves open whether NV is raised: here the NaN wins, and they raise none (log 88). -/
def sumSpecials (ps : List (Num × Bool)) (c : Num) (snan : Bool) : Option (Nat × Flags) :=
  let nv : Flags := if snan || ps.any (·.2) then flagNV else 0
  let infs := (ps.map (·.1) ++ [c]).filter Num.isInf
  if c.isNan || ps.any (fun p => p.1.isNan) then some (binary32.nanBits, nv)
  else match infs with
    | [] => none
    | i :: t =>
      if t.any (fun j => j.neg != i.neg) then some (binary32.nanBits, nv ||| flagNV)
      else some ((encodeNum binary32 modeRN 0 i).1, nv)

/-- One chunk step (R75 to R77): products of xs and ys, window w (none: exact, R78), a factor 2^k, addend c in
binary32. -/
def chunkStep (mode : Mode) (d : Double) (w : Option Nat) (k : Int) (xs ys : List Num) (c : Nat) : Nat × Flags :=
  let cn := decodeNum binary32 c
  let ps := products xs ys
  let snan := cn.isSnan || xs.any Num.isSnan || ys.any Num.isSnan
  match sumSpecials ps cn snan with
  | some r => r
  | none =>
    let fs := ps.map (·.1)
    if fs.all Num.isZero then (c % 2 ^ 32, 0)
    else
      let (v, s) := alignedSum fs w
      match cn with
      | .fin n m e =>
        let t := addExact (decide (v < 0)) v.natAbs (s + k) n m e
        encodeNum binary32 mode d (finOf t (mode == modeRD))
      | _ => (binary32.nanBits, 0)

/-- An NX4 dot over blocks (R79, R80): element products by block, block scales, tensor scales and addend. -/
def nx4Dot (mode : Mode) (d : Double) (blocks : List (List Num × List Num × Num × Num)) (ta tb : Num) (c : Nat) :
    Nat × Flags :=
  let cn := decodeNum binary32 c
  let nan : Flags → Nat × Flags := fun f => (binary32.nanBits, f)
  let anyNan := cn.isNan || ta.isNan || tb.isNan
    || blocks.any (fun (xs, ys, sa, sb) => sa.isNan || sb.isNan || xs.any Num.isNan || ys.any Num.isNan)
  if anyNan then nan (snanFlag [ta, tb, cn])
  else
    let (t, tBad) := mulNum ta tb
    let scales : List (Num × Bool) := blocks.map (fun (_, _, sa, sb) => mulNum sa sb)
    if tBad || scales.any (·.2) then nan flagNV
    else
      -- T_j = D_j × B_j; an infinite B_j with D_j zero is invalid
      let terms : List (Num × Bool) := blocks.map (fun (xs, ys, sa, sb) =>
        let dj := finOf (alignedSum ((products xs ys).map (·.1)) none) false
        mulNum dj (mulNum sa sb).1)
      if terms.any (·.2) then nan flagNV
      else
        let ts := terms.map (·.1)
        let infs := ts.filter Num.isInf
        let total : Option Num := match infs with
          | [] => some (finOf (alignedSum ts (some 96)) false)
          | i :: rest => if rest.any (fun j => j.neg != i.neg) then none else some i
        match total with
        | none => nan flagNV
        | some tot =>
          let (scaledTot, bad) := mulNum tot t
          if bad then nan flagNV
          else if ts.all (fun x => x.isZero || t.isZero) && !(t.isInf) && cn.isInf == false && infs.isEmpty then
            (c % 2 ^ 32, 0)
          else
            match scaledTot, cn with
            | .inf a, .inf b => if a = b then encodeNum binary32 mode d (.inf a) else nan flagNV
            | .inf a, _ => encodeNum binary32 mode d (.inf a)
            | _, .inf b => encodeNum binary32 mode d (.inf b)
            | .fin n m e, .fin n2 m2 e2 =>
              encodeNum binary32 mode d (finOf (addExact n m e n2 m2 e2) (mode == modeRD))
            | _, _ => nan 0

end Sys2Proof.Machine
end

