-- ==== Sys2Proof/Machine/Mem.lean ====
section
/-! DEFINITION. Physical memory, the page walk, Access, sibling layouts, and reading and writing one element
(R103 to R109, R119 to R140, R521). -/
namespace Sys2Proof.Machine

/-! ### The physical map (R124, R403) -/

def farEnd : Nat := 0x30000000000
def nearBase : Nat := 0x100000000000
def nearPerDie : Nat := 0x80000000
def nearEnd : Nat := nearBase + 8 * nearPerDie
def peerBase : Nat := 0x400000000000
def peerSpan : Nat := 0x80000000000
def peerNear : Nat := 0x40000000000
def peerEnd : Nat := 0x800000000000
def hostBase : Nat := 0x8000000000000
def physEnd : Nat := 0x10000000000000

/-- Whether n bytes from an address lie in one mapped region of a peer window (R403). -/
def peerMapped (a n : Nat) : Bool :=
  decide (peerBase ≤ a) && decide (a < peerEnd) &&
  (let o := (a - peerBase) % peerSpan
   decide (o + n ≤ farEnd) || (decide (peerNear ≤ o) && decide (o + n ≤ peerNear + 8 * nearPerDie)))
/-- The peer port of an address. -/
def peerPort (a : Nat) : Nat := (a - peerBase) / peerSpan
/-- Whether an address is in a peer window. -/
def isPeer (a : Nat) : Bool := decide (peerBase ≤ a) && decide (a < peerEnd)
/-- Whether an address is far memory. -/
def isFar (a : Nat) : Bool := decide (a < farEnd)
/-- Whether an address is host memory. -/
def isHost (a : Nat) : Bool := decide (hostBase ≤ a) && decide (a < physEnd)

/-! ### Bytes -/

/-- The 64 bytes of a line as stored, in plaintext under the key they were last written under. -/
def rawLine (s : State) (line : Nat) : List Byte := (List.range 64).map fun i => Tab.read (0 : Byte) s.mem (line * 64 + i)
/-- What a line written under one key holds when read under another (R139). -/
def rekey (t k : BitVec 512) (line : Nat) (bs : List Byte) : List Byte := xtsDec k (line * 64) (xtsEnc t (line * 64) bs)

/-- n bytes at a physical address, read under a key; none reads as stored. Unwritten far lines read as 0 under any key
(log 7). -/
def readPhys (s : State) (key : Option (BitVec 512)) (a n : Nat) : List Byte :=
  let raw := (List.range n).map fun i => Tab.read (0 : Byte) s.mem (a + i)
  match key with
  | none => raw
  | some k =>
    if isFar a then
      (List.range n).map fun i =>
        let line := (a + i) / 64
        match Tab.find s.lineKeys line with
        | none => Tab.read (0 : Byte) s.mem (a + i)
        | some t =>
          if t = k then Tab.read (0 : Byte) s.mem (a + i)
          else (rekey t k line (rawLine s line)).getD ((a + i) % 64) 0
    else raw

/-- Store bytes as they are from an address. -/
def putBytes (m : Tab Byte) : Nat → List Byte → Tab Byte
  | _, [] => m
  | a, b :: t => putBytes (Tab.write (0 : Byte) m a b) (a + 1) t
/-- One byte of a table written under its mask. -/
def writeMasked (m : Tab Byte) (b : MByte) : Tab Byte :=
  Tab.write (0 : Byte) m b.addr ((Tab.read (0 : Byte) m b.addr &&& ~~~ b.mask) ||| (b.val &&& b.mask))

/-- Make a far line one that was last written under a key, holding what a read under that key returns. -/
def adoptKey (s : State) (key : Option (BitVec 512)) (a : Nat) : State :=
  match key with
  | none => s
  | some k =>
    let line := a / 64
    if isFar a then
      match Tab.find s.lineKeys line with
      | none => { s with lineKeys := Tab.put s.lineKeys line k }
      | some t =>
        if t = k then s
        else { s with mem := putBytes s.mem (line * 64) (rekey t k line (rawLine s line)),
                      lineKeys := Tab.put s.lineKeys line k }
    else s

/-- Whether two ranges of bytes overlap. -/
def overlaps (a n b m : Nat) : Bool := decide (a < b + m) && decide (b < a + n)

/-- Whether a scoreboard entry holds one of n bytes of its window from an offset (R169). -/
def Board.meets (e : Board) (a n : Nat) : Bool := e.runs.any fun r => overlaps a n r.1 (r.2 - r.1)

/-- A write to watched bytes wakes a monitor (R168, R266). -/
def wakeMonitors (s : State) (sram : Option Nat) (ws : List MByte) : State :=
  s.mapWarps fun _ W =>
    match W.monitor with
    | none => W
    | some m =>
      if m.sram = sram && ws.any (fun b => overlaps m.addr 8 b.addr 1)
      then { W with monitor := some { m with woken := true } } else W

/-- A write of all 64 bytes of a line clears its poison (R495). -/
def clearPoison (s : State) (ws : List MByte) : State :=
  if s.poison = [] then s
  else { s with poison := s.poison.filter fun l =>
    !(List.range 64).all (fun i => ws.any (fun b => b.addr == l * 64 + i && b.mask == 0xFF)) }

/-- Lines of host memory that the device writes are held exclusively in their home L2 (R141, R160). -/
def holdHost (s : State) (v : Nat) (a : Nat) : State :=
  if isHost a then { s with hostLines := Tab.put s.hostLines (a / 64) (max v (Tab.read 0 s.hostLines (a / 64))) } else s

/-- Perform writes to physical memory under a key, made by a core's work or by no core. -/
def writePhys (s : State) (core : Option Nat) (key : Option (BitVec 512)) (ws : List MByte) : State :=
  let s := ws.foldl (fun s b => adoptKey s key b.addr) s
  let s := { s with mem := ws.foldl writeMasked s.mem }
  let s := clearPoison s ws
  let s := wakeMonitors s none ws
  let s := match ws with | b :: _ => holdHost s 2 b.addr | [] => s
  match core with
  | some c => dropL1 s c ws
  | none => s

/-! ### Stores on their way to their home L2s (R149, R150) -/

/-- Host memory that CXL.cache does not reach (R396). -/
def linkDown (s : State) (p : Place) : Bool := p.sram.isNone && isHost p.base && !s.dev.ideActive
/-- Whether a store cannot reach its home L2, which lies beyond a link that carries nothing (R396). -/
def Passing.stuck (s : State) (y : Passing) : Bool := linkDown s y.op.place
/-- A store reaches its home L2. -/
def landWrite (core : Nat) (s : State) (y : Passing) : State := writePhys s (some core) y.key y.op.writes
/-- Whether two lists of writes touch a byte in common. -/
def sharesByte (xs ys : List MByte) : Bool := xs.any fun a => ys.any fun b => a.addr == b.addr
/-- Among the stores before one, latest first, the earliest that it must follow: one that shares a byte with it, or with
another that it must follow (R145). -/
def firstShared : List (Passing × Nat) → List MByte → Nat → Nat
  | [], _, i => i
  | y :: t, ws, i => if sharesByte y.1.op.writes ws then firstShared t (ws ++ y.1.op.writes) y.2 else firstShared t ws i
/-- A core's store of this index reaches its home L2, or first the earliest that it must follow (R145). -/
def landOne (s : State) (core idx : Nat) : State :=
  let ps := (s.core core).passing
  match ps[idx]? with
  | none => s
  | some x =>
    let j := firstShared (ps.zipIdx.take idx).reverse x.op.writes idx
    let y := ps.getD j x
    if y.stuck s then s else landWrite core (s.modCore core fun C => { C with passing := dropAt C.passing j }) y
/-- Every store of a core that can reach its home L2 does, in order. -/
def landCore (s : State) (core : Nat) : State :=
  let ps := (s.core core).passing
  let go := ps.filter fun y => !y.stuck s
  if go = [] then s
  else go.foldl (landWrite core) (s.modCore core fun C => { C with passing := ps.filter fun y => y.stuck s })
/-- Whether a store of some kind is on its way. -/
def onWay (s : State) (which : Passing → Bool) : Bool := s.cores.any fun e => e.2.passing.any which
/-- The stores of every core reach their home L2s. -/
def landAll (s : State) : State := s.cores.foldl (fun s e => landCore s e.1) s
/-- The cores whose stores on their way a core sees: itself, or its whole cluster where that is fused (R128, R146). -/
def passCores (s : State) (core : Nat) : List Nat :=
  if fusedCluster s (clusterOf core) then coresOfCluster (clusterOf core) else [core]
/-- The stores that a core sees reach their home L2s. -/
def landHome (s : State) (core : Nat) : State := (passCores s core).foldl landCore s
/-- Whether a store that a core sees cannot reach its home L2. -/
def stuckHome (s : State) (core : Nat) : Bool := (passCores s core).any fun c => (s.core c).passing.any (·.stuck s)
/-- The stores of some cores that are on their way to lines are performed, before an access made there directly. -/
def landOn (s : State) (cores ls : List Nat) : State :=
  cores.foldl (fun s c =>
    if (s.core c).passing.any (fun x => x.op.writes.any fun b => ls.contains (b.addr / 64)) then landCore s c else s) s
/-- The stores that a core sees on their way to lines are performed. -/
def landLines (s : State) (core : Nat) (ls : List Nat) : State := landOn s (passCores s core) ls
/-- A change of which blocks a cluster holds: when it enters or leaves the fused state, the stores of its cores are performed
and its L1s give up every line (R128). -/
def refuse (before : State) (core : Nat) (s : State) : State :=
  let cl := clusterOf core
  if fusedCluster before cl = fusedCluster s cl then s
  else (coresOfCluster cl).foldl (fun s c => (landCore s c).modCore c fun C => { C with l1 := [] }) s

/-- Perform writes to a block's window (R123). -/
def writeWin (s : State) (b : Nat) (ws : List MByte) : State :=
  wakeMonitors (s.modBlk b fun B => { B with win := ws.foldl writeMasked B.win }) (some b) ws

/-- Whole bytes to write from an address. -/
def wholeBytes : Nat → List Byte → List MByte
  | _, [] => []
  | a, b :: t => ⟨a, b, 0xFF⟩ :: wholeBytes (a + 1) t

/-! ### Page table entries and the walk (R129 to R133) -/

def pteKey (e : Nat) : Nat := e / 2 ^ 55
def pteFrame (e : Nat) : Nat := e / 65536 % 2 ^ 36 * 65536
def pteCp (e : Nat) : Nat := e / 4096 % 4
def ptePlace (e : Nat) : Nat := e / 256 % 4
def pteSib (e : Nat) : Nat := e / 64 % 4
/-- A one-bit field of an entry: 0 V, 1 R, 2 W, 3 X, 4 USER, 5 TSO, 10 LEAF, 11 GLOBAL (Table 5-7). -/
def pteBit (e i : Nat) : Bool := e.testBit i

/-- Page size as a power of two at a level (Table 5-6). -/
def pageBits (level : Nat) : Nat := 16 + 10 * level
/-- Physical bytes that a leaf maps (R131). -/
def pteExtent (level e : Nat) : Nat :=
  let n := 2 ^ pageBits level
  if pteSib e = 1 then 4 * n else if pteSib e = 2 then n / 4 * 5 else n

/-- Whether a leaf's whole extent lies in the frame range of its placement (R124, R127, R131, Table 5-8). -/
def placeOk (s : State) (level e : Nat) : Bool :=
  let f := pteFrame e
  let x := pteExtent level e
  match ptePlace e with
  | 0 | 2 => decide (f + x ≤ farEnd)
  | 1 =>
    let d := (f - nearBase) / nearPerDie
    decide (nearBase ≤ f) && decide (d < 8) && decide (f + x ≤ nearBase + d * nearPerDie + s.dev.nearpart * 2 ^ 26)
  | _ => (decide (hostBase ≤ f) && decide (f + x ≤ physEnd)) || peerMapped f x

/-- Malformed entries (R131). -/
def pteBad (s : State) (level e : Nat) : Bool :=
  (e / 2 ^ 52 % 8 != 0) || (e / 2 ^ 14 % 4 != 0) ||
  (if pteBit e 10 then
    decide (3 ≤ level) || (pteFrame e % 2 ^ pageBits level != 0) || (pteSib e == 3)
      || (pteSib e != 0 && ptePlace e == 3) || !placeOk s level e
      || (pteKey e != 0 && ptePlace e != 0 && ptePlace e != 2)
  else (level == 0) || (e != pteFrame e + 1))

/-- Memory code of a translation (Table 20-1). -/
def codeTranslation : Nat := 0x0303
def codeMalformed : Nat := 0x0304
def codePermission : Nat := 0x0305
def codeSibLayout : Nat := 0x0306
def codeKey : Nat := 0x0307
def codePeer : Nat := 0x030A

/-- Whether a physical address exists at all (Table 5-4). -/
def mapped (a : Nat) : Bool :=
  isFar a || (decide (nearBase ≤ a) && decide (a < nearEnd)) || peerMapped a 1 || isHost a
/-- Whether the device reaches a physical address: host memory only while IDE is active (R396, log 89). -/
def reached (s : State) (a : Nat) : Bool := mapped a && !(isHost a && !s.dev.ideActive)

/-- The walk from a level down (R129): the leaf's level and entry, or a code. Entries are read in plaintext through
the home L2 (log 8); a table where no memory answers gives a malformed one (log 101). -/
def walk (s : State) : Nat → Nat → Nat → Except Nat (Nat × Nat)
  | 0, table, va =>
    let a := table + 8 * (va / 2 ^ 16 % 1024)
    let e := if reached s a then leNat (readPhys s none a 8) else 3
    if !pteBit e 0 then .error codeTranslation
    else if pteBad s 0 e then .error codeMalformed
    else .ok (0, e)
  | l + 1, table, va =>
    let a := table + 8 * (va / 2 ^ pageBits (l + 1) % 1024)
    let e := if reached s a then leNat (readPhys s none a 8) else 3
    if !pteBit e 0 then .error codeTranslation
    else if pteBad s (l + 1) e then .error codeMalformed
    else if pteBit e 10 then .ok (l + 1, e)
    else walk s l (pteFrame e) va

/-- The walk of a context (R129). -/
def walkCtx (s : State) (c va : Nat) : Except Nat (Nat × Nat) :=
  walk s 3 (pteFrame (s.ctx c).root.toNat) (va % 2 ^ 56)

/-- Who asks for a translation: a core, or a unit of a die. -/
inductive Walker where
  | core (k : Nat)
  | die (d : Nat)
deriving DecidableEq, Repr
/-- The die of a walker. -/
def Walker.home : Walker → Nat
  | .core k => dieOf k
  | .die d => d
/-- The translation caches that serve a walker (Table 5-10). -/
def Walker.levels : Walker → List TlbLevel
  | .core k => [.core k, .cluster (clusterOf k), .die]
  | .die _ => [.die]
/-- Entries of a translation cache (Table 5-10). -/
def TlbLevel.size : TlbLevel → Nat
  | .core _ => 256
  | .cluster _ => 2048
  | .die => 32768

/-- The cached entries that match a virtual address (R136). -/
def cachedFor (s : State) (a : Walker) (c va : Nat) : List Tlb :=
  (s.die a.home).tlb.filter fun t =>
    a.levels.contains t.level && (t.global || t.asid == (s.ctx c).asid) && t.page == va / 2 ^ t.bits
/-- What an entry translates to: the leaf's level and the leaf. -/
def Tlb.target (t : Tlb) : Nat × Nat := ((t.bits - 16) / 10, t.leaf.toNat)
/-- The translations that entries give, each once. -/
def targets (ts : List Tlb) : List (Nat × Nat) := ts.foldl (fun a t => if a.contains t.target then a else a ++ [t.target]) []

/-- A translation cache takes an entry; a full one gives up another, which one being left open (log 8). -/
def fillTlb (d : Nat) (s : State) (t : Tlb) : State :=
  if (s.die d).tlb.contains t then s
  else
    let held := (s.die d).tlb.filter fun x => x.level == t.level
    if held.length < t.level.size then s.modDie d fun D => { D with tlb := t :: D.tlb }
    else
      let (i, s) := s.choose held.length
      s.modDie d fun D => { D with tlb := t :: D.tlb.erase (held.getD i t) }
/-- Cache a translation in every cache that serves a walker (R136). -/
def cacheLeaf (s : State) (a : Walker) (c va level e : Nat) : State :=
  (a.levels.map fun l => (⟨l, (s.ctx c).asid, pteBit e 11, va / 2 ^ pageBits level, pageBits level, BitVec.ofNat 64 e⟩ : Tlb)).foldl
    (fillTlb a.home) s

/-- Translate (R136, R137): a cached GLOBAL translation, which every context uses; or a fresh walk, or a cached
translation that no invalidation has covered, which of them where they differ being left open (log 8). -/
def translate (s : State) (a : Walker) (c va : Nat) : Except Nat (Nat × Nat) × State :=
  let va := va % 2 ^ 56
  let hits := cachedFor s a c va
  let fresh := walkCtx s c va
  let shared := targets (hits.filter (·.global))
  let cands : List (Except Nat (Nat × Nat)) :=
    if shared ≠ [] then shared.map .ok
    else fresh :: ((targets hits).filter fun x => match fresh with | .ok y => decide (x ≠ y) | .error _ => true).map .ok
  let (i, s) := s.choose cands.length
  match cands.getD i fresh with
  | .error k => (.error k, s)
  | .ok (l, e) => (.ok (l, e), cacheLeaf s a c va l e)

/-! ### Access (R93, R121, R122, R135) -/

/-- A condition that diverts a fibre: its code, fault address and kind of access (Table 20-1, Table 21-1). -/
structure Cause where
  code : Nat
  addr : Nat
  kind : AccKind
deriving DecidableEq, Repr

/-- Why an instruction does not go on for a fibre: a condition, or a wait. -/
inductive Stop where
  | cause (c : Cause)
  | wait (why : WaitFor)
deriving DecidableEq, Repr

/-- An effective address: a byte of a block's window, or a virtual address. -/
inductive EffAddr where
  | win (blk off : Nat)
  | virt (va : Nat)
deriving DecidableEq, Repr

/-- Segment codes (Table 5-2). -/
def segCode : Seg → Nat
  | .glob => 0 | .loc => 1 | .clus => 2 | .priv => 3 | .args => 4 | .const => 5 | .trap => 6 | .debug => 7

/-- Base and limit of a segment register (Table 5-3). -/
def SegReg.baseAddr (g : SegReg) : Nat := g.base.toNat % 2 ^ 56
def SegReg.size (g : SegReg) : Nat := g.limit.toNat % 2 ^ 48
/-- A segment register of a warp. -/
def Warp.seg (W : Warp) (g : Seg) : SegReg := W.segs.getD (segCode g) ⟨0, 0⟩

/-- Logical size of a window (R123). -/
def logicalSize (sib : SibLayout) (n : Nat) : Nat :=
  match sib with
  | .plain => n
  | .triple => n / 4 / 256 * 256
  | .mean => n * 4 / 5 / 256 * 256

/-- The block of a launch that stands at a position of a team (R39). -/
def teamMember (s : State) (launch team pos : Nat) : Option Nat :=
  (s.blocks.find? fun e => e.2.launch == launch && e.2.team == team && e.2.pos == pos).map (·.1)

def codeSegment : Nat := 0x0301
def codeAlignment : Nat := 0x0302
def codeDebugAccess : Nat := 0x0308
def codeAddrDivergence : Nat := 0x0309

/-- Resolve a CLUSTER offset for a block (R122): a saved member is waited for and a killed or retired one is outside
the team (R474, log 18). -/
def clusterAddr (s : State) (b : Nat) (n size : Nat) (k : AccKind) : Except Stop EffAddr :=
  let B := s.blk b
  let bad : Except Stop EffAddr := .error (.cause ⟨codeSegment, n, k⟩)
  if n / 2 ^ 22 ≠ 0 then bad
  else if B.teamSize ≤ n / 2 ^ 20 then bad
  else
    match teamMember s B.launch B.team (n / 2 ^ 20) with
    | none => bad
    | some m =>
      let M := s.blk m
      if M.killed || M.state == .retired then bad
      else if logicalSize M.winSib M.winSize < n % 2 ^ 20 + size then bad
      else if M.state == .saved && m != b then .error (.wait (.member m))
      else .ok (.win m (n % 2 ^ 20))

/-- ea_of (R121): the warp, the TID of the fibre, the segment, the address operand, the offset and the size. A PRIVATE address
beyond 2^56, which ea_of does not test, is taken modulo 2^56 (log 101). -/
def effAddr (s : State) (W : Warp) (tid : Nat) (g : Seg) (v off size : Nat) (k : AccKind) : Except Stop EffAddr :=
  let n := v + off
  let base := (W.seg g).baseAddr
  let limit := (W.seg g).size
  let bad : Except Stop EffAddr := .error (.cause ⟨codeSegment, n, k⟩)
  match g with
  | .priv => if limit < n + size then bad else .ok (.virt ((base + tid * limit + n) % 2 ^ 56))
  | .trap =>
    if n < W.area * limit || decide ((W.area + 1) * limit < n + size) then bad
    else if 2 ^ 56 < base + n + size then bad
    else .ok (.virt (base + n))
  | .clus =>
    match W.blk with
    | none => bad
    | some b => clusterAddr s b n size k
  | .loc =>
    match W.blk with
    | none => bad
    | some b => if limit < n + size then bad else .ok (.win b n)
  | .glob | .args | .const | .debug =>
    if limit < n + size then bad
    else if 2 ^ 56 < base + n + size then bad
    else .ok (.virt (base + n))

/-- The number of an effective address, as faults report it. -/
def EffAddr.num : EffAddr → Nat
  | .win _ o => o
  | .virt a => a

/-- Alignment of an effective address (R121). -/
def alignCheck (ea : EffAddr) (size : Nat) (k : AccKind) : Except Stop Unit :=
  if ea.num % size ≠ 0 then .error (.cause ⟨codeAlignment, ea.num, k⟩) else .ok ()
/-- The debug right for DEBUG (R121). -/
def debugCheck (s : State) (W : Warp) (g : Seg) (ea : EffAddr) (k : AccKind) : Except Stop Unit :=
  if g = .debug && !(s.ctx W.ctx).dbgr then .error (.cause ⟨codeDebugAccess, ea.num, k⟩) else .ok ()
/-- Alignment, then the debug right (R467). -/
def checkAddr (s : State) (W : Warp) (g : Seg) (ea : EffAddr) (size : Nat) (k : AccKind) : Except Stop Unit :=
  match alignCheck ea size k with
  | .error e => .error e
  | .ok () => debugCheck s W g ea k

/-- Layout of a code (Table 4-2). -/
def sibOf (n : Nat) : SibLayout := if n = 1 then .triple else if n = 2 then .mean else .plain

/-- The place of a byte of a window. -/
def winPlace (s : State) (b off : Nat) : Place :=
  ⟨some b, 0, off, (s.blk b).winSib, 0, 0, 0, false, off, false⟩
/-- The place that a leaf gives a virtual address (R132). -/
def leafPlace (level e va : Nat) (tracked : Bool) : Place :=
  ⟨none, pteFrame e, va % 2 ^ pageBits level, sibOf (pteSib e), ptePlace e, pteKey e, pteCp e, pteBit e 5, va, tracked⟩

/-- Permission checks of R135 after translation; a structure access (R521) asks for a PLAIN leaf instead of a size. -/
def leafCheck (g : Seg) (ea size : Nat) (k : AccKind) (struct : Bool) (e : Nat) : Option Cause :=
  let perm : Option Cause := some ⟨codePermission, ea, k⟩
  if k = .fetch && (!pteBit e 3 || !pteBit e 4) then perm
  else if (k = .read || k = .rmw) && !pteBit e 1 then perm
  else if (k = .write || k = .rmw) && !pteBit e 2 then perm
  else if !pteBit e 4 && g ≠ .trap && g ≠ .debug then perm
  else if pteSib e ≠ 0 && (struct || size == 1 || size == 16) then some ⟨codeSibLayout, ea, k⟩
  else none

/-- Whether the launch of a warp tracks accesses through a segment (R386): a read through a leaf without W is not
tracked. -/
def tracks (s : State) (W : Warp) (g : Seg) (k : AccKind) (e : Nat) : Bool :=
  (s.launch W.launch).lrec.ordered && W.blk.isSome && (g == .glob || g == .args || g == .const)
    && (k != .read || pteBit e 2)

/-- Access (R135) of one element: its place, or what stops the fibre. -/
def access (s : State) (W : Warp) (g : Seg) (ea : EffAddr) (size : Nat) (k : AccKind) (struct : Bool) :
    Except Stop Place × State :=
  match ea with
  | .win b off =>
    let p := winPlace s b off
    if p.sib ≠ .plain && (struct || size == 1 || size == 16) then (.error (.cause ⟨codeSibLayout, off, k⟩), s)
    else (.ok p, s)
  | .virt va =>
    match translate s (.core W.core) W.ctx va with
    | (.error c, s) => (.error (.cause ⟨c, va, k⟩), s)
    | (.ok (l, e), s) =>
      match leafCheck g va size k struct e with
      | some c => (.error (.cause c), s)
      | none => (.ok (leafPlace l e va (tracks s W g k e)), s)

/-- ea_of, its checks and Access together (R121, R135, R467 steps 4 to 7). -/
def locate (s : State) (W : Warp) (tid : Nat) (g : Seg) (v off size : Nat) (k : AccKind) (struct : Bool) :
    Except Stop Place × State :=
  match effAddr s W tid g v off size k with
  | .error e => (.error e, s)
  | .ok ea =>
    match checkAddr s W g ea size k with
    | .error e => (.error e, s)
    | .ok () => access s W g ea size k struct

/-! ### Places (R105, R106) -/

/-- Address of the data of sibling j in an element of n bytes. -/
def Place.data (p : Place) (n j : Nat) : Nat :=
  match p.sib with
  | .plain => p.base + p.off
  | .triple => p.base + 4 * p.off + j * n
  | .mean => p.base + 320 * (p.off / 256) + p.off % 256
/-- Address of the digit byte of a MEAN element. -/
def Place.digit (p : Place) : Nat := p.base + 320 * (p.off / 256) + 256 + p.off % 256 / 4
/-- The runs of bytes that an element of n bytes occupies. -/
def Place.runs (p : Place) (n : Nat) : List (Nat × Nat) :=
  match p.sib with
  | .plain => [(p.data n 0, n)]
  | .triple => [(p.data n 0, 4 * n)]
  | .mean => [(p.data n 0, n), (p.digit, if n = 8 then 2 else 1)]

/-- The key of a place: far places use their slot's key (R138). -/
def Place.keyOf (s : State) (p : Place) : Option (BitVec 512) :=
  if p.sram.isNone && isFar p.base then Tab.find s.keys p.key else none
/-- Whether KEY stops an access to a place (R139). -/
def Place.keyMissing (s : State) (p : Place) : Bool :=
  p.sram.isNone && isFar p.base && (Tab.find s.keys p.key).isNone

/-- KEY and PEER_REFUSED (R139, R403, R467 step 7): whether a peer refuses is left open (log 17). -/
def linkCheck (s : State) (p : Place) (n : Nat) (k : AccKind) : Option Cause × State :=
  if p.keyMissing s then (some ⟨codeKey, p.va, k⟩, s)
  else if p.sram.isNone && isPeer p.base then
    let a := p.data n 0
    if !s.survey.peerPorts.getLsbD (peerPort a) then (some ⟨codePeer, a, k⟩, s)
    else
      let (i, s) := s.fresh
      (if Config.peerRefused i then some ⟨codePeer, a, k⟩ else none, s)
  else (none, s)

/-- Bytes at a place, current, whatever any L1 holds. -/
def freshBytes (s : State) (p : Place) (a n : Nat) : List Byte :=
  match p.sram with
  | some b => (List.range n).map fun i => Tab.read (0 : Byte) (s.blk b).win (a + i)
  | none => readPhys s (p.keyOf s) a n

/-- A byte overlaid by the writes of queued operations at the same place, oldest first (R149). -/
def overlayByte (q : List StoreOp) (sram : Option Nat) (a : Nat) (b : Byte) : Byte :=
  q.foldl (fun b o =>
    if o.place.sram = sram then
      o.writes.foldl (fun b m => if m.addr = a then (b &&& ~~~ m.mask) ||| (m.val &&& m.mask) else b) b
    else b) b
/-- Bytes overlaid by queued operations. -/
def overlay (q : List StoreOp) (sram : Option Nat) : Nat → List Byte → List Byte
  | _, [] => []
  | a, b :: t => overlayByte q sram a b :: overlay q sram (a + 1) t

/-- An element as memory holds it: its copies and its digit field. -/
structure Elem where
  copies : List Nat
  digits : Nat
deriving DecidableEq, Repr

/-- The lines that an element of n bytes touches. -/
def placeLines (p : Place) (n : Nat) : List Nat :=
  (p.runs n).foldl (fun a r => insertNat a (r.1 / 64)) []

/-- An element whose bytes are read by a function of address and length. -/
def elemFrom (get : Nat → Nat → List Byte) (p : Place) (n : Nat) : Elem :=
  match p.sib with
  | .plain => ⟨[leNat (get (p.data n 0) n)], 0⟩
  | .triple =>
    let bs := get (p.data n 0) (4 * n)
    ⟨[field bs 0 n, field bs n n, field bs (2 * n) n], field bs (3 * n) 1⟩
  | .mean =>
    let d := leNat (get p.digit 1)
    ⟨[leNat (get (p.data n 0) n)], if n = 2 then (if p.off % 4 = 0 then d % 16 else d / 16) else d⟩

/-! ### The L1's part in a load (R134, R145, R157, R162) -/

/-- Whether loads of a place use the L1 (R134). -/
def Place.inL1 (p : Place) : Bool := p.sram.isNone && !p.tso && (p.cp == 0 || p.cp == 3)
/-- The name of a place's line in an L1. -/
def Place.l1Key (p : Place) (line : Nat) : Nat := Machine.l1Key line p.key (p.sib == .mean) (p.cp == 3)
/-- A line as a place's leaf reads it. -/
def lineAt (s : State) (p : Place) (line : Nat) : BitVec 512 :=
  BitVec.ofNat 512 (leNat (freshBytes s p (line * 64) 64))
/-- The copies that L1s hold of all of an element's lines, where they do. -/
def l1Copies (s : State) (core : Nat) (p : Place) : List Nat → Option (List (Nat × BitVec 512))
  | [] => some []
  | x :: t =>
    match Tab.find (s.core (l1Core s core (x * 64))).l1 (p.l1Key x), l1Copies s core p t with
    | some v, some vs => some ((x, v) :: vs)
    | _, _ => none
/-- The digit line of a MEAN unit has changed since the L1 took it: copies of the unit's other lines are of another time
and go (R162). -/
def meanRenew (s : State) (core : Nat) (p : Place) : State :=
  if p.sib = .mean then
    let x := p.digit / 64
    if Tab.find (s.core (l1Core s core (x * 64))).l1 (p.l1Key x) = some (lineAt s p x) then s
    else (List.range 5).foldl (fun s i => dropLine s core ((p.base + 320 * (p.off / 256)) / 64 + i)) s
  else s
/-- The L1 takes the lines of an element as memory holds them. -/
def l1Take (s : State) (core : Nat) (p : Place) (ls : List Nat) : State :=
  ls.foldl (fun s x => l1Fill s (l1Core s core (x * 64)) (p.l1Key x) (lineAt s p x)) (meanRenew s core p)
/-- A read at the home L2: older copies of its lines may serve no later load (R145). -/
def l1Renew (s : State) (core : Nat) (p : Place) (ls : List Nat) : State :=
  ls.foldl (fun s x =>
    let C := s.core (l1Core s core (x * 64))
    if C.l1.any (fun e => l1Line e.1 == x && e != (p.l1Key x, lineAt s p x)) then dropLine s core x else s) s
/-- What serves a load of an element: the copies of its lines in L1s, or memory. A relaxed read of a page cached in L1 may
take copies held since before (R134, R157, log 8); they are of all its lines or none (R162). -/
def l1View (s : State) (core : Nat) (relaxed : Bool) (p : Place) (ls : List Nat) :
    Option (List (Nat × BitVec 512)) × State :=
  if p.sram.isSome then (none, s)
  else if relaxed && p.inL1 then
    match l1Copies s core p ls with
    | none => (none, l1Take s core p ls)
    | some old =>
      if old = ls.map (fun x => (x, lineAt s p x)) then (none, s)
      else
        let (i, s) := s.fresh
        if Config.useCached i then (some old, s) else (none, l1Take s core p ls)
  else (none, l1Renew s core p ls)
/-- Bytes of a line's copy among those that serve a load. -/
def viewBytes (v : List (Nat × BitVec 512)) (a n : Nat) : List Byte :=
  let line := ((v.find? fun e => e.1 == a / 64).map (·.2.toNat)).getD 0
  (List.range n).map fun j => BitVec.ofNat 8 (line / 256 ^ (a % 64 + j))

/-- Read an element of n bytes for a core through a list of its stores that memory does not hold yet. -/
def readElem (s : State) (core : Nat) (relaxed : Bool) (q : List StoreOp) (p : Place) (n : Nat) : Elem × State :=
  let (view, s) := l1View s core relaxed p (placeLines p n)
  let s := if p.sram.isNone && p.cp != 2 then holdHost s 1 (p.data n 0) else s
  let get : Nat → Nat → List Byte := match view with
    | some v => viewBytes v
    | none => freshBytes s p
  (elemFrom (fun a m => overlay q p.sram a (get a m)) p n, s)

/-! ### Sibling layouts of values (R101, R105 to R107) -/

/-- The values that a MEAN load of a floating type gives (R107). -/
def meanTriple (f : Fmt) (m digits : Nat) : List Nat :=
  let c := min digits f.p
  match decodeNum f m with
  | .fin neg k e =>
    if k = 0 then [m, m, m]
    else
      let d := (roundDyadic f modeRZ 0 false (k * 103) (e - (c : Int) - 8)).1
      match decodeNum f d with
      | .fin _ kd ed =>
        if kd = 0 then [m, m, m]
        else
          let x := fun (n : Bool) => (encodeNum f modeRN 0 (finOf (addExact neg k e n kd ed) false)).1
          [m, x false, x true]
      | _ => [m, m, m]
  | _ => [m, m, m]

/-- The values an element gives the siblings of a fibre (R96, R105, R107, R257). -/
def siblingValues (three : Bool) (p : Place) (fmt : Option Fmt) (e : Elem) : List Nat :=
  match three, p.sib, e.copies with
  | true, .triple, cs => cs
  | true, .mean, [m] =>
    match fmt with
    | some f => meanTriple f m e.digits
    | none => [m, m, m]
  | true, _, c :: _ => [c, c, c]
  | false, _, c :: _ => [c]
  | _, _, [] => []

/-- NUMFLAGS bits (Table 4-5). -/
def evCANC : BitVec 4 := 1
def evUCMP : BitVec 4 := 2
def evZDIV : BitVec 4 := 4
def evDIVG : BitVec 4 := 8

/-- Combination of a fibre's values (R101): the value, IEEE flags and numeric events. -/
def combine (fmt : Option Fmt) (vs : List Nat) : Nat × Flags × BitVec 4 :=
  match vs with
  | [a, b, c] =>
    match fmt with
    | some f =>
      let r := mean3 f (decodeNum f a) (decodeNum f b) (decodeNum f c)
      (r.1, r.2, 0)
    | none =>
      let r := majority a b c
      (r.1, 0, if r.2 then 0 else evDIVG)
  | a :: _ => (a, 0, 0)
  | [] => (0, 0, 0)

/-- Three values from a fibre's values: one value stands three times (R96), also where the fibre of a single-lane launch stores
to a TRIPLE element, of which R105 says nothing (log 90). -/
def tripled : List Nat → Nat × Nat × Nat
  | [a, b, c] => (a, b, c)
  | a :: _ => (a, a, a)
  | [] => (0, 0, 0)
/-- The digit count of a fibre's values in a format, 0 for other types (R105, R106). -/
def digitsOf (fmt : Option Fmt) (vs : List Nat) : Nat :=
  match fmt with
  | some f => let (a, b, c) := tripled vs; digits3 (decodeNum f a) (decodeNum f b) (decodeNum f c) f.p
  | none => 0

/-- The writes of a TRIPLE element (R105). -/
def tripleWrites (p : Place) (n digits : Nat) (vs : List Nat) : List MByte :=
  let (a, b, c) := tripled vs
  wholeBytes (p.data n 0) (leBytes n a ++ leBytes n b ++ leBytes n c ++ leBytes n digits)
/-- The writes of a MEAN element (R106). -/
def meanWrites (p : Place) (n digits v : Nat) : List MByte :=
  wholeBytes (p.data n 0) (leBytes n v) ++
  (if n = 2 then
    (if p.off % 4 = 0 then [⟨p.digit, BitVec.ofNat 8 digits, 0x0F⟩] else [⟨p.digit, BitVec.ofNat 8 (digits * 16), 0xF0⟩])
   else if n = 8 then [⟨p.digit, BitVec.ofNat 8 digits, 0xFF⟩, ⟨p.digit + 1, 0, 0xFF⟩]
   else [⟨p.digit, BitVec.ofNat 8 digits, 0xFF⟩])

/-- The writes of a store of a fibre's values, with its flags and events (R101, R105, R106, R257). -/
def storeWrites (p : Place) (n : Nat) (fmt : Option Fmt) (vs : List Nat) : List MByte × Flags × BitVec 4 :=
  match p.sib with
  | .plain =>
    let (v, fl, ev) := combine fmt vs
    (wholeBytes (p.data n 0) (leBytes n v), fl, ev)
  | .triple => (tripleWrites p n (digitsOf fmt vs) vs, 0, 0)
  | .mean =>
    let (v, fl, ev) := combine fmt vs
    (meanWrites p n (digitsOf fmt vs) v, fl, ev)

/-- Perform the writes of an operation at its place. -/
def writePlace (s : State) (core : Nat) (p : Place) (ws : List MByte) : State :=
  match p.sram with
  | some b => writeWin s b ws
  | none => writePhys s (some core) (p.keyOf s) ws

/-- Whether a place's element lies on a poisoned line (R495). -/
def poisoned (s : State) (p : Place) (n : Nat) : Bool :=
  p.sram.isNone && s.poison.any (fun l => (p.runs n).any (fun r => overlaps (l * 64) 64 r.1 r.2))

/-! ### Structure accesses of the device (R520, R521) -/

/-- What a structure access to host memory out of reach reports: the code of the lost integrity (R499, log 89). -/
def codeLinkDown : Nat := 0x0706

/-- Translate a structure access of the device for a context: V, R or W and a PLAIN leaf (R520). -/
def structPlace (s : State) (c va : Nat) (k : AccKind) : Except Nat Place × State :=
  match translate s (.die 0) c va with
  | (.error e, s) => (.error e, s)
  | (.ok (l, e), s) =>
    if (k = .read || k = .rmw) && !pteBit e 1 then (.error codePermission, s)
    else if (k = .write || k = .rmw) && !pteBit e 2 then (.error codePermission, s)
    else if pteSib e ≠ 0 then (.error codeSibLayout, s)
    else
      let p := leafPlace l e va false
      if linkDown s p then (.error codeLinkDown, s)
      else
        match linkCheck s p 1 k with
        | (some x, s) => (.error x.code, s)
        | (none, s) => (.ok p, s)

/-- The pieces of a range of virtual addresses, none crossing a 64-byte line. -/
def linePieces : Nat → Nat → Nat → List (Nat × Nat)
  | 0, _, _ => []
  | f + 1, a, n =>
    if n = 0 then []
    else
      let m := min n (64 - a % 64)
      (a, m) :: linePieces f (a + m) (n - m)

/-- The pieces of n bytes from an address. -/
def piecesOf (a n : Nat) : List (Nat × Nat) := linePieces (n / 64 + 2) a n

/-- Check every line of a range of a context's addresses for one kind of access. -/
def structCheck (s : State) (c : Nat) (k : AccKind) : List (Nat × Nat) → Except (Nat × Nat) (List (Place × Nat)) × State
  | [] => (.ok [], s)
  | (a, n) :: t =>
    match structPlace s c a k with
    | (.error e, s) => (.error (e, a), s)
    | (.ok p, s) =>
      match structCheck s c k t with
      | (.error e, s) => (.error e, s)
      | (.ok ps, s) => (.ok ((p, n) :: ps), s)

/-- The code of an access that reads a poisoned line (R495). -/
def codeSoftError : Nat := 0x0701
/-- Read n bytes of a context's memory for the device; an error is a memory code and the address. One that meets a poisoned line
has no block to kill, and is reported by its code (R495, R520, log 108). -/
def structRead (s : State) (c va n : Nat) : Except (Nat × Nat) (List Byte) × State :=
  match structCheck s c .read (piecesOf va n) with
  | (.error e, s) => (.error e, s)
  | (.ok ps, s) =>
    match ps.find? fun (p, m) => poisoned s p m with
    | some (p, _) => (.error (codeSoftError, p.va), s)
    | none => (.ok (ps.flatMap fun (p, m) => freshBytes s p (p.base + p.off) m), s)

/-- Write parts of a byte list at places. -/
def structPut (s : State) : List (Place × Nat) → List Byte → State
  | [], _ => s
  | (p, n) :: t, bs => structPut (writePhys s none (p.keyOf s) (wholeBytes (p.base + p.off) (bs.take n))) t (bs.drop n)

/-- Write bytes of a context's memory for the device: nothing is written when any of it faults. -/
def structWrite (s : State) (c va : Nat) (bs : List Byte) : Except (Nat × Nat) State × State :=
  match structCheck s c .write (piecesOf va bs.length) with
  | (.error e, s) => (.error e, s)
  | (.ok ps, s) => let t := structPut s ps bs; (.ok t, t)

end Sys2Proof.Machine
end

