-- ==== Sys2Proof/Machine/Budgets.lean ====
section
/-! DEFINITION. Budgets of a context for each resource of a period (R378, R379, Table 13-9). -/
namespace Sys2Proof.Machine

/-! ### Resources (Table 13-9) -/

/-- Number of a resource among the keys of `Ctx.budgetUse`. -/
def Resource.index : Resource → Nat
  | .issue => 0 | .carter => 1 | .near => 2 | .far => 3 | .loom => 4 | .hostIn => 5 | .peerIn => 6 | .hostOut => 7
  | .peerOut => 8
/-- The BUDGET register of a resource: one serves both directions of a link. -/
def Resource.register : Resource → Nat
  | .hostOut => 5 | .peerOut => 6 | r => r.index
/-- Capacity, in a period of 10 µs, of each unit at which a resource is enforced: issue cycles of a quarter at 2.4 GHz, a
core's Carter, whose bytes are open, 16 TB/s of a die's near store (R11), 85.6 GB/s of a far channel (R12), a Loom start each 8
cycles on each die (R364), 256 GB/s of each host module of the link (R396) and 212.5 GB/s of a peer port (R403); log 36. -/
def Resource.capacity : Resource → Nat
  | .issue => 24000
  | .carter => Config.carterBytes + 1
  | .near => 160000000
  | .far => 856000
  | .loom => 24000
  | .hostIn | .hostOut => 8 * 2560000
  | .peerIn | .peerOut => 2125000
/-- The unit of the issue slots of a quarter. -/
def quarterUnit (core q : Nat) : Nat := 4 * core + q

/-! ### Use, guarantees and caps (R378, R379) -/

/-- Key of a unit of a resource. -/
def Resource.key (r : Resource) (u : Nat) : Nat := r.index * 65536 + u
/-- What a context has used of a unit of a resource in the present period. -/
def Ctx.used (C : Ctx) (r : Resource) (u : Nat) : Nat := Tab.read 0 C.budgetUse (r.key u)
/-- Share of a unit that a context may use in a period, by its cap. -/
def Ctx.cap (C : Ctx) (r : Resource) : Nat := (C.budgets.getD r.register 0).toNat / 65536 % 65536 * r.capacity / 1024
/-- Whether a context has come to its cap, and waits for the next period. -/
def atCap (s : State) (c : Nat) (r : Resource) (u : Nat) : Bool := decide ((s.ctx c).cap r ≤ (s.ctx c).used r u)
/-- The sum of the guarantees of a resource. -/
def guaranteeSum (s : State) (r : Resource) : Nat :=
  s.ctxs.foldl (fun a e => a + (e.2.budgets.getD r.register 0).toNat % 65536) 0
/-- Whether a context is within its guarantee of a unit, scaled down where guarantees sum to more than all of it. -/
def inGuarantee (s : State) (c : Nat) (r : Resource) (u : Nat) : Bool :=
  let C := s.ctx c
  decide (C.used r u < (C.budgets.getD r.register 0).toNat % 65536 * r.capacity / max 1024 (guaranteeSum s r))
/-- Count a context's use of a unit. -/
def charge (s : State) (c : Nat) (r : Resource) (u n : Nat) : State :=
  s.modCtx c fun C => { C with budgetUse := Tab.write 0 C.budgetUse (r.key u) (C.used r u + n) }

/-! ### Bytes of accesses -/

/-- The unit that an access to a place takes: a die's near store, a far channel, the host link or a peer port, by region and
direction (R124, R126). -/
def Place.share (p : Place) (write : Bool) : Option (Resource × Nat) :=
  let a := p.data 1 0
  if p.sram.isSome then none
  else if isFar p.base then some (.far, a / 256 % 48)
  else if isHost p.base then some (if write then .hostOut else .hostIn, 0)
  else if isPeer p.base then some (if write then .peerOut else .peerIn, peerPort a)
  else some (.near, (a - nearBase) / nearPerDie)
/-- Whether a warp has an access outstanding that takes a unit: its oldest store, or a piece of its copies. -/
def Warp.asks (W : Warp) (x : Resource × Nat) : Bool :=
  (!W.heldStores && match W.storeQ with | o :: _ => o.place.share true == some x | [] => false)
    || W.cpas.any fun p => p.src.share false == some x
/-- Whether another context, within its guarantee of a unit, waits for it: its request is served before any beyond a guarantee
(R379). -/
def shareRival (s : State) (c : Nat) (x : Resource × Nat) : Bool :=
  !inGuarantee s c x.1 x.2
    && s.warps.any fun e => e.2.ctx != c && inGuarantee s e.2.ctx x.1 x.2 && !atCap s e.2.ctx x.1 x.2 && e.2.asks x
/-- Whether a context's request of a unit is held back: at its cap it waits for the next period, and beyond its guarantee for
those within theirs (R379). -/
def shareHeld (s : State) (c : Nat) (x : Resource × Nat) : Bool := atCap s c x.1 x.2 || shareRival s c x
/-- Whether a context must wait before it accesses a place (R379). -/
def budgetHeld (s : State) (c : Nat) (p : Place) (write : Bool) : Bool :=
  match p.share write with
  | some x => shareHeld s c x
  | none => false
/-- The wait of an access that is held back so. -/
def Place.budgetWait (p : Place) (write : Bool) : WaitFor :=
  match p.share write with
  | some x => .budget x.1 x.2
  | none => .budget .near 0
/-- Count the bytes of a context's access. Those of a link all pass it; whether those of near and far memory reach its
controller, or the home L2 serves them, is left open (log 36). -/
def chargeBytes (s : State) (c : Nat) (p : Place) (n : Nat) (write : Bool) : State :=
  match p.share write with
  | some (.near, u) => let (i, s) := s.fresh; charge s c .near u (n * (Config.pick i % 2))
  | some (.far, u) => let (i, s) := s.fresh; charge s c .far u (n * (Config.pick i % 2))
  | some (r, u) => charge s c r u n
  | none => s

end Sys2Proof.Machine
end

