-- ==== Sys2Proof/Machine/Ordered.lean ====
section
/-! DEFINITION. The Hallmark table and the stage entries of ordered launches (R384 to R394). -/
namespace Sys2Proof.Machine

/-- Entries the Hallmark table holds for the device (R390). -/
def hallCapacity : Nat := 1048576
/-- Stage entries of a die (R388). -/
def stageCapacity : Nat := 16384

/-- Hallmark entries in use (R390). -/
def hallUsed (s : State) : Nat := s.launches.foldl (fun a e => a + e.2.hall.length) 0
/-- Stage entries in use on a die (R388). -/
def stagesUsed (s : State) (die : Nat) : Nat :=
  s.launches.foldl (fun a e => a + (e.2.stages.filter (fun x => x.die == die)).length) 0

/-- The ticket of a block is its linear index (R384). -/
def isHead (s : State) (b : Nat) : Bool := (s.blk b).lin == (s.launch (s.blk b).launch).cur

/-- Whether some block other than i has written a line, unless i is the head and the writer is lower (R392). -/
def readHazard (e : Hall) (i : Nat) (head : Bool) : Bool :=
  let ws := if e.state = .read then e.writers else e.owner :: e.writers
  ws.any fun j => j != i && !(decide (j < i) && head)

/-- The launch enters full-table fallback, which is counted once, on the core of the block with ticket i (R393, Table 16-8,
raw event 0x0052). -/
def enterFallback (s : State) (l i : Nat) : State :=
  let L := s.launch l
  if L.hallFallback then s
  else
    let core := ((s.blocks.find? fun e => e.2.launch == l && e.2.lin == i).map (·.2.core)).getD 0
    (count s L.ctx core 0x52 1).modLaunch l fun L => { L with hallFallback := true, hallCount := L.hallCount + 1 }

/-- One tracked read of a line by the block with ticket i (R391 to R393): false for a hazard. -/
def hallReadLine (s : State) (l i : Nat) (head : Bool) (line : Nat) : Bool × State :=
  let L := s.launch l
  match Tab.find L.hall line with
  | some e =>
    if readHazard e i head then (false, s)
    else (true, s.modLaunch l fun L =>
      { L with hall := Tab.put L.hall line { e with maxrd := max e.maxrd i, readers := insertNat e.readers i } })
  | none =>
    if L.hallFallback then (true, s)
    else if hallCapacity ≤ hallUsed s then (true, enterFallback s l i)
    else (true, s.modLaunch l fun L => { L with hall := Tab.put L.hall line ⟨.read, 0, 0, false, i, [], [i], [], none⟩ })

/-- Reads of several lines: all or none. -/
def hallRead (s : State) (l i : Nat) (head : Bool) : List Nat → Option State
  | [] => some s
  | x :: t =>
    match hallReadLine s l i head x with
    | (false, _) => none
    | (true, s) => hallRead s l i head t

/-- The byte mask of a line that writes cover. -/
def lineMask (ws : List MByte) (line : Nat) : BitVec 64 :=
  ws.foldl (fun m b => if b.addr / 64 = line then m ||| (1#64 <<< (b.addr % 64)) else m) 0

/-- A block other than i has read the line, and the highest such ticket is above i (R392). -/
def writeHazard (e : Hall) (i : Nat) : Bool := decide (i < e.maxrd) || e.readers.any (fun j => decide (i < j))

/-- One tracked write of a line (R391, R393): none for a hazard, else whether it must be staged. A reduction, which is not
performed at once, makes no line PRIVATE, and one by another block makes a PRIVATE line SHARED (log 19). -/
def hallWriteLine (s : State) (l i : Nat) (head red : Bool) (ws : List MByte) (line : Nat) : Option (Bool × State) :=
  let L := s.launch l
  let put : Hall → State := fun e => s.modLaunch l fun L => { L with hall := Tab.put L.hall line e }
  match Tab.find L.hall line with
  | some e =>
    if writeHazard e i then none
    else
      let wr := insertNat e.writers i
      if red then
        some (!head, put { e with writers := wr, state := if e.state = .priv ∧ e.owner ≠ i then .shared else e.state })
      else match e.state with
        | .read => some (false, put { e with state := .priv, owner := i, mask := lineMask ws line, writers := wr })
        | .priv =>
          if e.owner = i then some (false, put { e with mask := e.mask ||| lineMask ws line, writers := wr })
          else some (!head, put { e with state := .shared, writers := wr })
        | .shared => some (!head, put { e with writers := wr })
  | none =>
    if L.hallFallback then some (!head, s)
    else if hallCapacity ≤ hallUsed s then some (!head, enterFallback s l i)
    else if red then some (!head, put ⟨.read, 0, 0, false, 0, [i], [], [], none⟩)
    else some (false, put ⟨.priv, i, lineMask ws line, false, 0, [i], [], [], none⟩)

/-- Writes of several lines: none for a hazard; staged when any line asks for it. -/
def hallWrite (s : State) (l i : Nat) (head red : Bool) (ws : List MByte) : List Nat → Option (Bool × State)
  | [] => some (false, s)
  | x :: t =>
    match hallWriteLine s l i head red ws x with
    | none => none
    | some (a, s) => (hallWrite s l i head red ws t).map fun (b, s) => (a || b, s)

/-- Whether an entry's owner, a block above i, wrote a byte of its SHARED line. -/
def Hall.above (e : Hall) (i a : Nat) : Bool := e.state == .shared && decide (i < e.owner) && e.mask.getLsbD (a % 64)
/-- Bytes that a higher block has released are dropped from a write to a SHARED line (R391). -/
def dropReleased (s : State) (l i : Nat) (ws : List MByte) : List MByte :=
  let L := s.launch l
  ws.filter fun b =>
    match Tab.find L.hall (b.addr / 64) with
    | some e => !(e.released && e.above i b.addr)
    | none => true
/-- An entry keeps what its owner wrote to a byte before a lower block's write takes its place: the bits that are not kept
yet, read under the key of the write. -/
def Hall.keep (e : Hall) (i : Nat) (key : Option (BitVec 512)) (s : State) (b : MByte) : Hall :=
  if e.above i b.addr && !e.released then
    let held := e.kept.foldl (fun m x => if x.addr = b.addr then m ||| x.mask else m) (0 : Byte)
    { e with kept := e.kept ++ [⟨b.addr, (readPhys s key b.addr 1).headD 0, b.mask &&& ~~~held⟩], key := key }
  else e
/-- A write by block i to bytes that a higher block wrote and has not released is performed, and gives way to them at their
release (R391, R395, log 19). -/
def keepOwners (s : State) (l i : Nat) (key : Option (BitVec 512)) (ws : List MByte) : State :=
  ws.foldl (fun t b =>
    match Tab.find (t.launch l).hall (b.addr / 64) with
    | some e =>
      if e.above i b.addr && !e.released then
        t.modLaunch l fun L => { L with hall := Tab.put L.hall (b.addr / 64) (e.keep i key s b) }
      else t
    | none => t) s
/-- What a block wrote stands again where lower blocks have written since (R391, R395, log 19). -/
def standAgain (s : State) (l i : Nat) : State :=
  let mine := (s.launch l).hall.filter fun e => e.2.owner == i && e.2.state == .shared && e.2.kept != []
  mine.foldl (fun s e =>
    (writePhys s none e.2.key e.2.kept).modLaunch l fun L =>
      { L with hall := L.hall.map fun x => if x.1 = e.1 then (x.1, { x.2 with kept := [] }) else x }) s
/-- Perform the writes of an ordered block's tracked access at its place (R391). -/
def writeTracked (s : State) (core l : Nat) (tk : Option Nat) (p : Place) (ws : List MByte) : State :=
  match tk with
  | none => writePlace s core p ws
  | some i =>
    let ws := dropReleased s l i ws
    writePlace (keepOwners s l i (p.keyOf s) ws) core p ws

/-- Stage entries of a block that write bytes of an element, as queued stores (R387). -/
def stagedStores (s : State) (l i : Nat) : List StoreOp :=
  ((s.launch l).stages.filter fun x => x.ticket == i && x.op.rmw.isNone).map (·.op)
/-- Whether the block has staged a reduction of bytes of an element (R387). -/
def stagedRed (s : State) (l i : Nat) (p : Place) (n : Nat) : Bool :=
  (s.launch l).stages.any fun x =>
    x.ticket == i && x.op.rmw.isSome && x.op.place.sram == p.sram
      && (x.op.place.runs x.op.size).any (fun r => (p.runs n).any (fun q => overlaps r.1 r.2 q.1 q.2))

def codeOrderHazard : Nat := 0x0606

/-- The ordered-mode step of a load by a block (R386, R387, R392): what stops it, if anything. Bytes that the block has
staged by a reduction are waited for however they are read; only a tracked read enters the Hallmark table. -/
def orderedLoad (s : State) (b : Nat) (p : Place) (n ea : Nat) : Except Stop State :=
  let B := s.blk b
  let head := isHead s b
  if !head && stagedRed s B.launch B.lin p n then .error (.wait .head)
  else if !p.tracked then .ok s
  else match hallRead s B.launch B.lin head (placeLines p n) with
    | none => .error (.cause ⟨codeOrderHazard, ea, .read⟩)
    | some s => .ok s

end Sys2Proof.Machine
end

