-- ==== Sys2Proof/Machine/Stores.lean ====
section
/-! DEFINITION. Names and block faults, and the performance of loads, stores, reductions and atomics: the store queue
(R149), read-modify-writes (R108, R258, R259), and imprecise faults (R475, R476). -/
namespace Sys2Proof.Machine

/-! ### Names (R408) and block faults (R471, R472) -/

/-- BLOCK of a name: 0xFFFFFFFF for spawned fibres. -/
def blockIndex (s : State) (W : Warp) : Nat :=
  match W.blk with
  | some b => (s.blk b).lin % 2 ^ 32
  | none => 0xFFFFFFFF
/-- The name of fibre work (R408). -/
def nameOf (s : State) (W : Warp) (pc : Nat) : Name :=
  ⟨pc, 0, (s.launch W.launch).addr, blockIndex s W, W.wid, 0⟩
/-- The name of engine work (R408): kind 1 Carter, 2 Foreman. -/
def engineName (s : State) (b kind n pc : Nat) : Name :=
  let B := s.blk b
  ⟨pc, n, (s.launch B.launch).addr, B.lin % 2 ^ 32, 0xFFFF, kind⟩

/-- Who takes a warp's block faults: its block, or the spawned warp itself (R473). -/
def ownerOf (w : Nat) (W : Warp) : Owner :=
  match W.blk with
  | some b => .blk b
  | none => .warp w
/-- The faults of an owner. -/
def faultsOf (s : State) : Owner → List FaultRec
  | .blk b => (s.blk b).faults
  | .warp w => (s.warp w).faults
/-- Add a fault to its owner (R471). -/
def addFault (s : State) (o : Owner) (r : FaultRec) : State :=
  match o with
  | .blk b => s.modBlk b fun B => { B with faults := B.faults ++ [r] }
  | .warp w => s.modWarp w fun W => { W with faults := W.faults ++ [r] }

/-- Set bits of EVENT (Table 22-1). -/
def setEvent (s : State) (c : Nat) (bits : Double) : State := s.modCtx c fun C => C.setEvent (C.event ||| bits)

/-! ### Scopes and acquires (R146, R152 to R157) -/

/-- Numbers of the scopes (Table 6-1). -/
def scopeCode : Scope → Nat
  | .fibre => 0 | .warp => 1 | .block => 2 | .core => 3 | .cluster => 4 | .die => 5 | .device => 6 | .system => 7
  | .fabric => 8
/-- Whether the point of a scope of a code lies beyond a core's L1: die scope and wider, and cluster scope unless the
cluster's L1s are one (Table 6-1, R128). -/
def homeCode (s : State) (core n : Nat) : Bool := decide (5 ≤ n) || (n == 4 && !fusedCluster s (clusterOf core))
/-- Whether the point of a scope lies beyond a core's L1. -/
def atHome (s : State) (core : Nat) (sc : Scope) : Bool := homeCode s core (scopeCode sc)
/-- An L1 gives up every line. -/
def clearL1 (s : State) (core : Nat) : State :=
  if (s.core core).l1 = [] then s else s.modCore core fun C => { C with l1 := [] }
/-- Acquire at the scope of a code: no later load of the core may be served by a copy older than the scope's point, so
beyond the L1 the copies that serve the core are given up (R153, R157). -/
def acquireAt (s : State) (core n : Nat) : State :=
  if homeCode s core n then
    if fusedCluster s (clusterOf core) then (coresOfCluster (clusterOf core)).foldl clearL1 s else clearL1 s core
  else s
/-- Acquire at a scope. -/
def acquire (s : State) (core : Nat) (sc : Scope) : State := acquireAt s core (scopeCode sc)

/-! ### Queued work of a warp -/

/-- Whether the scoreboard holds back an access to bytes of a window (R169), apart from entries of one copy. -/
def boardHitBut (s : State) (own : Option PieceSrc) (p : Place) (n : Nat) (store : Bool) : Bool :=
  match p.sram with
  | none => false
  | some b =>
    (s.core (s.blk b).core).board.any fun e =>
      e.blk == b && (store || e.dest) && some e.owner != own && (p.runs n).any (fun r => e.meets r.1 r.2)
/-- Whether the scoreboard holds back an access to bytes of a window (R169). -/
def boardHit (s : State) (p : Place) (n : Nat) (store : Bool) : Bool :=
  boardHitBut s none p n store
/-- The wait for a range. -/
def boardWait (p : Place) (n : Nat) : WaitFor :=
  let r := (p.runs n).headD (0, 0)
  .range (p.sram.getD 0) r.1 (r.1 + r.2)

/-- Size of an atomic type in bytes (R258). -/
def atomSize : AtomTy → Nat
  | .u32 | .i32 | .f32 => 4
  | .u64 | .i64 | .f64 => 8
  | .f16 | .bf16 => 2
/-- The format of a floating atomic type. -/
def atomFmt : AtomTy → Option Fmt
  | .f32 => some binary32
  | .f64 => some binary64
  | .f16 => some binary16
  | .bf16 => some bfloat16
  | _ => none
/-- Whether an atomic type compares as signed. -/
def atomSigned : AtomTy → Bool
  | .i32 | .i64 => true
  | _ => false

/-- The result of Table 10-4. -/
def atomResult (op : AtomOp) (ty : AtomTy) (old b : Nat) (mode : Mode) (d : Double) : Nat × Flags :=
  let w := 8 * atomSize ty
  match op with
  | .add =>
    match atomFmt ty with
    | some f => let r := fAdd f mode d (decodeNum f old) (decodeNum f b); (r.bits, r.flags)
    | none => ((old + b) % 2 ^ w, 0)
  | .min | .max =>
    match atomFmt ty with
    | some f => let r := fMinMax f (op == .max) false old b; (r.bits, r.flags)
    | none =>
      let x : Int := if atomSigned ty then toSigned w old else old
      let y : Int := if atomSigned ty then toSigned w b else b
      ((if decide (x < y) == (op == .max) then b else old), 0)
  | .and_ => (old &&& b, 0)
  | .or_ => (old ||| b, 0)
  | .xor_ => (old ^^^ b, 0)
  | .exch => (b, 0)
  | .inc => (if b ≤ old then 0 else old + 1, 0)

/-- The attribute and draw of sibling j under a reduction's rounding (R95, R200). -/
def Rounding.drawOf (r : Rounding) (seed : Double) (j : Nat) : Double :=
  laneDraw seed r.tid (if r.sibc = 1 then 0 else j) r.icount 0

/-- What a read-modify-write of one element does (R108, R259): the writes, the old values of the siblings, flags and
events. `f` gives the new value of sibling j's copy from its old value and operand, or none for no write. The operand of a PLAIN
or MEAN element is Mean3 of the siblings' (R108), whose NV counts beside those of Table 10-2 (log 103). -/
def rmwElem (three : Bool) (p : Place) (n : Nat) (fmt : Option Fmt) (e : Elem) (vals : List Nat)
    (f : Nat → Nat → Nat → Option Nat × Flags) : List MByte × List Nat × Flags × BitVec 4 :=
  let spread : Nat → List Nat := fun v => if three then [v, v, v] else [v]
  match p.sib, e.copies with
  | .plain, [old] =>
    let (v, fl, ev) := combine fmt vals
    let r := f 0 old v
    ((match r.1 with | some x => wholeBytes (p.data n 0) (leBytes n x) | none => []), spread old, fl ||| r.2, ev)
  | .mean, [old] =>
    let (v, fl, ev) := combine fmt vals
    let r := f 0 old v
    let dg := match fmt with | some _ => min e.digits (digitsOf fmt vals) | none => 0
    ((match r.1 with | some x => meanWrites p n dg x | none => []), spread old, fl ||| r.2, ev)
  | .triple, [o0, o1, o2] =>
    let (v0, v1, v2) := tripled vals
    let r0 := f 0 o0 v0
    let r1 := f 1 o1 v1
    let r2 := f 2 o2 v2
    let new := [r0.1.getD o0, r1.1.getD o1, r2.1.getD o2]
    ((if r0.1.isNone && r1.1.isNone && r2.1.isNone then [] else tripleWrites p n (digitsOf fmt new) new),
      if three then [o0, o1, o2] else [o0], if three then r0.2 ||| r1.2 ||| r2.2 else r0.2, 0)
  | _, _ => ([], spread 0, 0, 0)

/-- The reduction of a `red` on an element. -/
def redElem (three : Bool) (seed : Double) (p : Place) (r : RedOp) (e : Elem) :
    List MByte × List Nat × Flags × BitVec 4 :=
  rmwElem three p (atomSize r.ty) (atomFmt r.ty) e (r.vals.map BitVec.toNat) fun j old b =>
    let x := atomResult r.op r.ty old b r.r.mode (r.r.drawOf seed j)
    (some x.1, x.2)

/-- Whether a store that leaves its warp's queue may still be on its way to its home L2 (R150): it writes translated
memory, no total store order holds it (R141), and it releases nothing beyond its core (R152). -/
def mayPass (s : State) (core l : Nat) (o : StoreOp) : Bool :=
  o.rmw.isNone && o.place.sram.isNone && !o.place.tso && !(s.launch l).lrec.tsoStrict
    && !(o.release && atHome s core o.scope)
/-- What must reach its home L2 before an operation of a core is performed there: everything that the core sees at a release
beyond the core (R152), else the writes of the same lines (R145). -/
def landBefore (s : State) (core : Nat) (o : StoreOp) : State :=
  if o.release && atHome s core o.scope then landHome s core
  else if o.place.sram.isNone then landLines s core (placeLines o.place o.size)
  else s

/-- A store is on its way (R150): the cores that see it with those of its own core see its bytes in one order, so what another
core of a fused cluster has on its way there is performed first. -/
def sendStore (s : State) (core : Nat) (y : Passing) : State :=
  (landOn s ((passCores s core).filter (· != core)) (placeLines y.op.place y.op.size)).modCore core fun C =>
    { C with passing := C.passing ++ [y] }

/-- Perform a queued store or reduction of a warp of a launch and block: the state after it with its flags and events, or the
imprecise condition (R469). -/
def performStore (s : State) (core w l : Nat) (blk tk : Option Nat) (o : StoreOp) :
    Except Cause (State × Flags × BitVec 4) × State :=
  match linkCheck s o.place o.size (if o.rmw.isSome then .rmw else .write) with
  | (some c, s) => (.error c, s)
  | (none, s) =>
    match o.rmw with
    | none =>
      if tk.isNone && mayPass s core l o then (.ok (sendStore s core ⟨o, o.place.keyOf s, w, l, blk⟩, o.fp, o.num), s)
      else (.ok (writeTracked (landBefore s core o) core l tk o.place o.writes, o.fp, o.num), s)
    | some r =>
      if poisoned s o.place o.size then (.error ⟨codeSoftError, o.place.va, .rmw⟩, s)
      else
        let L := (s.launch l).lrec
        let (e, s) := readElem (landBefore s core o) core false [] o.place o.size
        let (ws, _, fp, num) := redElem (!L.single) L.seed o.place r e
        (.ok (writeTracked s core l tk o.place ws, fp, num), s)
/-- Whether an operation must stay where it is: its host memory is out of reach (R396), its context must wait for its share
of a unit (R379), or it is a release behind stores that cannot reach their home L2s (R152). -/
def opStays (s : State) (c core : Nat) (o : StoreOp) : Bool :=
  linkDown s o.place || budgetHeld s c o.place true || (o.release && atHome s core o.scope && stuckHome s core)

/-- The report of an imprecise condition of a store of a warp that is resident or saved (R475 case 1). -/
def impreciseRec (s : State) (W : Warp) (o : StoreOp) (c : Cause) (exited : Bool) : FaultRec :=
  ⟨none, c.code, true, exited, true, o.slot, nameOf s W o.pc.toNat, c.addr, c.kind, none⟩

/-- Or flags into a warp (R84, R113). -/
def Warp.addFlags (W : Warp) (fp : Flags) (num : BitVec 4) : Warp :=
  { W with fpflags := W.fpflags ||| fp.setWidth 32, numflags := W.numflags ||| num.setWidth 64 }

/-- Numeric events whose traps are enabled for a warp (R112). -/
def trapEvents (s : State) (W : Warp) (num : BitVec 4) : BitVec 4 :=
  if (s.launch W.launch).lrec.numTraps then num &&& (W.numctl >>> 16).setWidth 4 else 0

/-- The ticket whose released bytes a warp's writes must not overwrite, in an ordered launch (R391). -/
def ticketOf (s : State) (W : Warp) : Option Nat :=
  match W.blk with
  | some b => if (s.launch W.launch).lrec.ordered then some (s.blk b).lin else none
  | none => none

/-- Perform the oldest operation of a warp's store queue (R149), unless it must stay; a fault holds it and all behind it
(R476). -/
def drainOne (s : State) (w : Nat) : State :=
  let W := s.warp w
  if W.heldStores then s
  else match W.storeQ with
    | [] => s
    | o :: rest =>
      if opStays s W.ctx W.core o then s
      else match performStore s W.core w W.launch W.blk (if o.place.tracked then ticketOf s W else none) o with
      | (.ok (t, fp, num), _) =>
        countNum ((chargeBytes t W.ctx o.place o.size true).modWarp w fun W => { W.addFlags fp num with storeQ := rest }) W.ctx W.core (num &&& ~~~o.raised)
      | (.error c, s) =>
        addFault (s.modWarp w fun W => { W with heldStores := true }) (ownerOf w W) (impreciseRec s W o c false)

/-- Perform up to n operations of a queue. -/
def drainN (w : Nat) : Nat → State → State
  | 0, s => s
  | n + 1, s => drainN w n (drainOne s w)
/-- Perform a warp's whole store queue, up to the home L2s. -/
def drainAll (s : State) (w : Nat) : State := landHome (drainN w (s.warp w).storeQ.length s) (s.warp w).core

/-- The first committing action of an idempotent block (R483). -/
def commitBlock (s : State) (W : Warp) : State :=
  match W.blk with
  | some b => if (s.blk b).committed then s else s.modBlk b fun B => { B with committed := true }
  | none => s
/-- Whether a store to a place commits the block: a translated segment, or CLUSTER naming another core (R483, R394). -/
def storeCommits (s : State) (W : Warp) (p : Place) : Bool :=
  match p.sram with
  | none => true
  | some b => (s.blk b).core != W.core

/-- Whether a queue holds a reduction of bytes of an element. -/
def queuedRed (q : List StoreOp) (p : Place) (n : Nat) : Bool :=
  q.any fun o => o.rmw.isSome && o.place.sram == p.sram
    && (o.place.runs o.size).any (fun r => (p.runs n).any (fun x => overlaps r.1 r.2 x.1 x.2))

/-- The relaxed reads that an L1 copy may serve are those not kept in total store order (R141, R157). -/
def mayBeStale (s : State) (W : Warp) : Bool := !(s.launch W.launch).lrec.tsoStrict

/-- Whether an operation writes a line of an element. -/
def StoreOp.onLines (o : StoreOp) (p : Place) (ls : List Nat) : Bool :=
  o.place.sram == p.sram && o.writes.any fun b => ls.contains (b.addr / 64)
/-- Whether a load sees operations on its lines only as memory holds them: those made under another key than its own leaf
names (R139, R140). -/
def aliased (s : State) (p : Place) (n : Nat) (os : List StoreOp) : Bool :=
  p.sram.isNone && os.any fun o => o.place.keyOf s != p.keyOf s && o.onLines p (placeLines p n)
/-- Stores on their way to the lines of an element reach them first where a load sees them only as memory holds them: under
another key, or at the point of visibility of an acquire, which the load names or a fence before it asks for (R153, R157). -/
def landAliases (s : State) (core : Nat) (relaxed : Bool) (p : Place) (n : Nat) : State :=
  let ls := placeLines p n
  if p.sram.isSome then s
  else if !relaxed then landLines s core ls
  else if (passCores s core).any fun c => (s.core c).passing.any fun x => x.key != p.keyOf s && x.op.onLines p ls then
    landLines s core ls
  else s
/-- The stores that a block has staged, of the block of a warp (R387). -/
def stagedOf (s : State) (W : Warp) : List StoreOp :=
  match W.blk with
  | some b => stagedStores s W.launch (s.blk b).lin
  | none => []
/-- The stores that a load of a warp sees and memory does not hold yet, oldest first: those on their way that its core sees
(R128, R149), those its block has staged (R387), and those of its queue. -/
def ownStores (s : State) (W : Warp) (q : List StoreOp) : List StoreOp :=
  ((passCores s W.core).flatMap fun c => (s.core c).passing.map (·.op)) ++ stagedOf s W ++ q
/-- Whether a load must have its warp's queue performed first: a reduction of its bytes (R255), a store of its lines under
another key (R139), or, for an acquire, any store of its lines (R153). -/
def queueFirst (s : State) (relaxed : Bool) (p : Place) (n : Nat) (q : List StoreOp) : Bool :=
  queuedRed q p n || aliased s p n q || (!relaxed && q.any fun o => o.onLines p (placeLines p n))

/-- Load an element for a warp, its address checked (R149, R161, R169, R387). -/
def loadElem (s : State) (w : Nat) (relaxed : Bool) (p : Place) (n ea : Nat) : Except Stop Elem × State :=
  let W := s.warp w
  match linkCheck s p n .read with
  | (some c, s) => (.error (.cause c), s)
  | (none, s) =>
    if linkDown s p then (.error (.wait .link), s)
    else if budgetHeld s W.ctx p false then (.error (.wait (p.budgetWait false)), s)
    else if boardHit s p n false then (.error (.wait (boardWait p n)), s)
    else
      match (match W.blk with
        | some b => orderedLoad s b p n ea
        | none => .ok s) with
      | .error e => (.error e, s)
      | .ok s =>
        let s := if queueFirst s relaxed p n W.storeQ then drainAll s w else s
        let q := (s.warp w).storeQ
        if queueFirst s relaxed p n q then (.error (.wait .stores), s)
        else if aliased s p n (stagedOf s W) then (.error (.wait .head), s)
        else if poisoned s p n then (.error (.cause ⟨codeSoftError, p.va, .read⟩), s)
        else
          let s := landAliases s W.core relaxed p n
          let (e, s) := readElem s W.core (relaxed && mayBeStale s W) (ownStores s W q) p n
          (.ok e, chargeBytes s W.ctx p n false)

/-- What holds a locked reduction back, which enters the queue only to leave it at once (R141): earlier stores of its warp, its
link, or its share. -/
def lockWait (s : State) (w : Nat) (o : StoreOp) : Option WaitFor :=
  let t := drainAll s w
  if (t.warp w).storeQ ≠ [] then some .stores
  else if linkDown t o.place || (o.release && atHome t (t.warp w).core o.scope && stuckHome t (t.warp w).core) then some .link
  else if budgetHeld t (t.warp w).ctx o.place true then some (o.place.budgetWait true)
  else none
/-- Whether a reduction is a locked operation: it updates a TSO page, or a page that its launch keeps in that order, and no
access of the warp passes it (R141). -/
def locked (s : State) (W : Warp) (o : StoreOp) : Bool :=
  o.rmw.isSome && o.place.sram.isNone && (o.place.tso || (s.launch W.launch).lrec.tsoStrict)

/-- Give a store or reduction its place among the warp's operations: into the store queue, or, when tracked in an
ordered launch, staged or performed at once (R149, R387, R388, R391). -/
def issueStore (s : State) (w : Nat) (o : StoreOp) (ea order tid : Nat) : Except Stop State :=
  let W := s.warp w
  if boardHit s o.place o.size true then .error (.wait (boardWait o.place o.size))
  else
    let queue : State → State := fun s => s.modWarp w fun W => { W with storeQ := W.storeQ ++ [o] }
    let commit : State → State := fun s => if storeCommits s W o.place then commitBlock s W else s
    let enter : State → Except Stop State := fun s =>
      if locked s W o then
        match lockWait s w o with
        | some why => .error (.wait why)
        | none => .ok (drainAll (queue s) w)
      else .ok (queue s)
    match W.blk with
    | none => enter s
    | some b =>
      if o.place.tracked then
        let B := s.blk b
        let head := isHead s b
        match hallWrite s B.launch B.lin head o.rmw.isSome o.writes (placeLines o.place o.size) with
        | none => .error (.cause ⟨codeOrderHazard, ea, if o.rmw.isSome then .rmw else .write⟩)
        | some (stage, t) =>
          if (stage || o.rmw.isSome) && !head then
            if stageCapacity ≤ stagesUsed s (dieOf W.core) then .error (.wait .stage)
            else .ok (commit (t.modLaunch B.launch fun L =>
              { L with stages := L.stages ++ [⟨B.lin, dieOf W.core, o, w, order, tid, nameOf s W o.pc.toNat⟩] }))
          else .ok (commit (drainAll (queue t) w))
      else (enter s).map commit

/-- Perform a returning atomic on an element at once, after the warp's own stores (R160, R259, R389, log 10): the old
values with flags and events. -/
def performAtomic (s : State) (w : Nat) (p : Place) (n ea : Nat) (fmt : Option Fmt) (vals : List Nat)
    (f : Nat → Nat → Nat → Option Nat × Flags) : Except Stop (List Nat × Flags × BitVec 4) × State :=
  let W := s.warp w
  let three := s.three W
  match linkCheck s p n .rmw with
  | (some c, s) => (.error (.cause c), s)
  | (none, s) =>
    if linkDown s p then (.error (.wait .link), s)
    else if budgetHeld s W.ctx p false then (.error (.wait (p.budgetWait false)), s)
    else if budgetHeld s W.ctx p true then (.error (.wait (p.budgetWait true)), s)
    else if boardHit s p n true then (.error (.wait (boardWait p n)), s)
    else
      let s := drainAll s w
      if (s.warp w).storeQ ≠ [] then (.error (.wait .stores), s)
      else
        let tracked := p.tracked && W.blk.isSome
        let b := W.blk.getD 0
        if tracked && !isHead s b then (.error (.wait .head), s)
        else
          match (if tracked then hallRead s W.launch (s.blk b).lin true (placeLines p n) else some s) with
          | none => (.error (.cause ⟨codeOrderHazard, ea, .rmw⟩), s)
          | some t =>
            if poisoned t p n then (.error (.cause ⟨codeSoftError, p.va, .rmw⟩), s)
            else
              let (e, t) := readElem t W.core false [] p n
              let (ws, olds, fp, num) := rmwElem three p n fmt e vals f
              let t := if p.sram.isNone then holdHost t 2 (p.data n 0) else t
              match (if tracked && ws != [] then hallWrite t W.launch (s.blk b).lin true false ws (placeLines p n)
                  else some (false, t)) with
              | none => (.error (.cause ⟨codeOrderHazard, ea, .rmw⟩), s)
              | some (_, t) =>
                let t := writeTracked t W.core W.launch (if tracked then some (s.blk b).lin else none) p ws
                (.ok (olds, fp, num), commitBlock (chargeBytes (chargeBytes t W.ctx p n false) W.ctx p n true) W)

end Sys2Proof.Machine
end

