-- ==== Sys2Proof/Machine/Ops.lean ====
section
/-! DEFINITION. Taking a trap or fault and returning from it (R455 to R466), the end of fibres (R52, R457), trace
records (R413), and the common end of an instruction for the fibres of its group. -/
namespace Sys2Proof.Machine

/-! ### Trace (R413) and counters of the host -/

/-- A name in memory (Table 16-1). -/
def Name.bytes (n : Name) : List Byte :=
  leBytes 8 n.pc ++ leBytes 8 n.seq ++ leBytes 8 n.launch ++ leBytes 4 n.block ++ leBytes 2 n.warp ++ leBytes 2 n.engine

/-- 32-bit saturating increment. -/
def satInc (w : Word) : Word := if w = BitVec.allOnes 32 then w else w + 1

/-- A trace record of a type, when the context's trace is on and enables it (R410, R413). -/
def trace (s : State) (c core ty : Nat) (n : Name) (data : List Byte) : State :=
  let C := s.ctx c
  if C.dbgr && C.dbgctl.getLsbD 3 && C.trmask.getLsbD ty then
    let slots := C.trsize.toNat / 64
    let lost : State → State := fun s => s.modCtx c fun C => { C with trlost := satInc C.trlost }
    if (C.trhead - C.trtail).toNat < slots then
      let bytes : List Byte := leBytes 2 ty ++ leBytes 2 core ++ leBytes 4 0 ++ leBytes 8 s.tick.toNat ++ n.bytes
        ++ (data ++ List.replicate 16 0).take 16
      match structWrite s c (C.trbase.toNat + 64 * (C.trhead.toNat % slots)) bytes with
      | (.ok s, _) => s.modCtx c fun C => { C with trhead := C.trhead + 1 }
      | (.error _, s) => lost s
    else lost s
  else s

/-! ### Context faults and the per-launch fault record (R417, R456, R487, R492) -/

/-- The launch's record takes a fault: the first is kept (R417). -/
def launchFault (s : State) (l : Nat) (r : FaultRec) : State :=
  s.modLaunch l fun L =>
    match L.faultRec with
    | some _ => L
    | none => { L with faultRec := some { r with alive := false }, status := L.status ||| 0x10,
                       reason := if L.reason = 0 then r.code else L.reason }

/-- A fault record of a code and name with no flags. -/
def plainRec (code : Nat) (n : Name) (addr slot : Nat) (k : AccKind) : FaultRec :=
  ⟨none, code, false, false, false, slot, n, addr, k, none⟩

/-- EVENT with a new CODE and bits set (Table 22-1). -/
def eventWith (e : Double) (code : Nat) (bits : Double) : Double :=
  (e &&& 0xFFFF0000FFFFFFFF) ||| (BitVec.ofNat 64 (code % 65536) <<< 32) ||| bits

/-- What is being reported of a context meets a second fault (R504): the dump that is being written ends before its present
section. -/
def Ctx.spoil (C : Ctx) (code : Nat) : Ctx :=
  { C with
    secondary := some (match C.secondary with
      | some x => if x < 65536 then 65536 + code else x
      | none => 65536 + code)
    dump := C.dump.map fun d => { d with todo := [], truncated := true } }
/-- EVINFO and EVADDR take a code with its detail and an address (Table 22-2). -/
def Ctx.inform (C : Ctx) (code detail addr : Nat) : Ctx :=
  { C with evinfo := BitVec.ofNat 64 (code + detail * 65536), evaddr := BitVec.ofNat 64 addr }

/-- DATA of a trace record of type 3 (Table 16-5). -/
def faultData (code id addr : Nat) : List Byte := leBytes 2 code ++ leBytes 2 id ++ leBytes 8 addr

/-- Whether a command goes on when its block or context stops: it has begun, and has not faulted (R473, R502). -/
def copyGoesOn (c : CopyCmd) : Bool := c.started && c.fault.isNone
/-- The Carter commands of a context that have begun, by block. -/
def openCopies (s : State) (c : Nat) : List (Nat × CopyCmd) :=
  (s.blocks.filter fun e => e.2.ctx == c).flatMap fun e => (e.2.carter.cmds.filter copyGoesOn).map fun x => (e.1, x)

/-- A context fault (R456): the context becomes STOPPED, EVENT, EVINFO, EVADDR and the launch's record take the code, a
trace record of it is written (Table 16-5) and a dump is owed (R502). One that comes while another is being reported is
secondary (R504): EVENT, EVINFO and EVADDR take its values too, and the dump in progress ends. -/
def ctxFault (s : State) (c core : Nat) (l : Option Nat) (code detail addr : Nat) (n : Name) (secondary : Option Nat) :
    State :=
  let s := trace s c core 3 n (faultData code 0 addr)
  let C := s.ctx c
  match C.fault with
  | some _ => s.setCtx c (((C.setEvent (eventWith C.event code 2)).inform code detail addr).spoil code)
  | none =>
    let s := s.setCtx c { (C.setEvent (eventWith C.event code 2)).inform code detail addr with
      fault := some (code, detail, addr, n)
      faultTick := s.tick
      faultVer := s.dev.rmver
      begun := openCopies s c
      dump := none
      secondary := secondary
      stopping := false
      state := if C.state = .free then .free else .stopped }
    match l with
    | some l => launchFault s l (plainRec code n addr 0 .read)
    | none => s

/-! ### Loads in flight -/

/-- Write the registers of a load whose data has returned (R255). -/
def applyLoad (W : Warp) (p : PendingLoad) : Warp :=
  match p.slot with
  | none => p.regs.foldl (fun W r => W.setSreg r.2.1 r.2.2.toNat) W
  | some k => W.mapFibres [k] fun f =>
      { f with lanes := (f.lanes.zipIdx).map fun (l, j) =>
          p.regs.foldl (fun l r => if r.1 = j then l.setReg r.2.1 r.2.2.toNat else l) l }
/-- Whether a register lies in one of some runs, each its first register and their number. -/
def inRuns (runs : List (Nat × Nat)) (r : Nat) : Bool := runs.any fun u => decide (u.1 ≤ r) && decide (r < u.1 + u.2)
/-- Whether loads in flight are still to write registers of some fibres, or uniform ones (R255). -/
def loadsHold (W : Warp) (slots : List Nat) (lane uni : List (Nat × Nat)) : Bool :=
  W.loads.any fun p =>
    match p.slot with
    | some k => (p.regs.any fun r => inRuns lane r.2.1) && slots.contains k
    | none => p.regs.any fun r => inRuns uni r.2.1
/-- Every load of a warp returns. -/
def Warp.settle (W : Warp) : Warp := { W.loads.foldl applyLoad W with loads := [] }

/-! ### Reconvergence and the end of fibres (R52, R276, R277) -/

/-- Entry e is complete when every fibre of its mask that lives is parked at it (R276). -/
def entryDone (W : Warp) (e : RcEntry) : Bool :=
  W.fibres.all fun f => !e.mask.contains f.slot || f.status == .entry e.id
/-- The entries below and with the lowest complete one, from the top: what remains of the stack below it, and the
entry. -/
def findDone (W : Warp) : List RcEntry → Option (RcEntry × List RcEntry)
  | [] => none
  | e :: t => if entryDone W e then some (e, t) else findDone W t
/-- Complete an entry: it and all above it go, and its fibres go on (R276). What becomes of a fibre that is parked at one of
those above, R276 does not say: it stays parked (log 107). -/
def completeEntry (W : Warp) : Option Warp :=
  (findDone W W.stack).map fun (e, rest) =>
    { W with stack := rest, fibres := W.fibres.map fun f =>
        if f.status == .entry e.id then { f with status := .ready, icount := f.icount + 1 } else f }
/-- Complete every entry that can complete. -/
def settleStack : Nat → Warp → Warp
  | 0, W => W
  | n + 1, W => match completeEntry W with | some V => settleStack n V | none => W

/-- Handlers whose fibres have all ended are over (R463). -/
def dropHandlers (live : List Nat) : List Handler → List Handler
  | [] => []
  | h :: t => if h.mask.any live.contains then h :: t else dropHandlers live t

/-! ### Raising user traps (R456 to R459) -/

/-- One fragment to be made: a code, the PC at which it parks, its parent and fibres, the fault address, and the engine
work it names. -/
structure Raise where
  code : Nat
  flags : Nat
  pc : VAddr
  /-- id of the handler fragment that its fibres run in (R458) -/
  parent : BitVec 16
  mask : List Nat
  addr : Nat
  engine : Nat
  seq : Nat
deriving DecidableEq, Repr

/-- Put a raise where its code belongs among others, ascending, after those of equal code. -/
def insertRaise (r : Raise) : List Raise → List Raise
  | [] => [r]
  | x :: t => if r.code < x.code then r :: x :: t else x :: insertRaise r t

/-- Add a fibre to the raise of its code, PC and handler, keeping the address of the lowest fibre, which is added first
(R458). -/
def addRaise (rs : List Raise) (code flags : Nat) (pc : VAddr) (parent : BitVec 16) (k addr : Nat) : List Raise :=
  match rs with
  | [] => [⟨code, flags, pc, parent, [k], addr, 0, 0⟩]
  | r :: t => if r.code = code && r.pc = pc && r.parent = parent then { r with mask := insertNat r.mask k } :: t
              else r :: addRaise t code flags pc parent k addr
def codeUnstable : Nat := 0x0102
def codeFutureEmpty : Nat := 0x0404

/-- The next fragment id: from 0xFFFF to 1 (R458). -/
def nextId (i : BitVec 16) : BitVec 16 := if i = 0xFFFF then 1 else i + 1

/-- Make fragments in delivery order: their fibres park, and nested ones go ahead of the queue (R458, R459). -/
def makeFragments (lx word : Word) (all : List Nat) : List Raise → Warp → List Fragment → Warp × List Fragment
  | [], W, acc => (W, acc)
  | r :: t, W, acc =>
    let id := W.nextFrag
    let q : Fragment := ⟨id, r.parent, r.code, r.flags, r.mask, all.filter (fun k => !r.mask.contains k), r.pc, lx, word,
      r.addr, r.engine, r.seq, W.numflags⟩
    let V := (W.mapFibres r.mask fun f => { f with
      pc := r.pc, status := .fragment id, yields := f.yields || r.code == codeFutureEmpty })
    makeFragments lx word all t { V with nextFrag := nextId id } (acc ++ [q])

/-- Raise user traps for fibres of one group (R456 to R459): fragments, or a context fault when the launch has no trap
vector (R457). -/
def raiseUser (s : State) (w : Nat) (lx word : Word) (rs : List Raise) : State :=
  match rs.foldl (fun a r => insertRaise r a) [] with
  | [] => s
  | r :: t =>
    let W := s.warp w
    if (s.launch W.launch).lrec.trapVec = 0 then
      ctxFault s W.ctx W.core (some W.launch) r.code 0 r.addr
        { nameOf s W r.pc.toNat with engine := r.engine, seq := r.seq } none
    else
      let (V, qs) := makeFragments lx word ((r :: t).flatMap (·.mask)) (r :: t) W []
      let nested : Fragment → Bool := fun q => match V.handlers with
        | h :: _ => q.parent == h.id
        | [] => false
      s.setWarp w { V with queue := qs.filter nested ++ V.queue ++ qs.filter fun q => !nested q }

/-! ### What `rcvwait` owes, and the end of fibres (R52, R114, R276) -/

/-- The traps of fibres whose `rcvwait` has completed (R114, R276): each is raised at the next instruction. -/
def raiseOwed (s : State) (w : Nat) : State :=
  let W := s.warp w
  let due := W.owed.filter fun o => match W.fibre? o.slot with
    | some f => match f.status with | .entry _ => false | _ => true
    | none => false
  match due with
  | [] => s
  | o :: _ =>
    let rs := due.foldl (fun rs o => match W.fibre? o.slot with
      | some f => addRaise rs codeUnstable 4 f.pc f.frag o.slot 0
      | none => rs) []
    raiseUser (s.modWarp w fun W => { W with owed := W.owed.filter fun o => !due.contains o }) w o.lxw o.word rs
/-- Complete the entries of a warp's reconvergence stack that can complete. -/
def settleWarp (s : State) (w : Nat) : State :=
  raiseOwed (s.modWarp w fun W => settleStack W.stack.length W) w

/-- End fibres of a warp (R52): they leave every mask, a spawned fibre's join update is owed (R47), and a warp whose
fibres have all ended drains. -/
def endFibres (s : State) (w : Nat) (ks : List Nat) (killed : Bool) : State :=
  let W := s.warp w
  let ends : List JoinEnd := if W.blk.isSome then [] else
    (W.fibres.filter fun f => ks.contains f.slot).map fun f =>
      ⟨w, W.ctx, W.launch, W.core, f.join, killed, nameOf s W f.pc.toNat, f.slot⟩
  let fs := W.fibres.filter fun f => !ks.contains f.slot
  let live := fs.map (·.slot)
  let V := { W with
    fibres := fs
    ended := W.ended ++ W.settle.fibres.filter fun f => ks.contains f.slot
    stack := W.stack.map fun e => { e with mask := e.mask.filter fun k => !ks.contains k }
    handlers := dropHandlers live W.handlers
    queue := W.queue.filter fun q => q.mask.any live.contains
    owed := W.owed.filter fun o => !ks.contains o.slot
    residence := if fs = [] then (if W.residence = .resident then .draining else W.residence) else W.residence }
  let s := settleWarp (s.setWarp w V) w
  { s with joins := s.joins ++ ends }

/-! ### Entering a handler and RESUME (R460 to R464) -/

/-- Bytes of a frame for a window of W registers (R460). -/
def frameBytes (window : Nat) : Nat := 1536 * window + 4032
/-- Frame slots of a trap area (R460). -/
def frameSlots (W : Warp) : Nat := (W.seg .trap).size / frameBytes W.window
/-- TRAP byte offset of a frame slot. -/
def frameOffset (W : Warp) (d : Nat) : Nat := W.area * (W.seg .trap).size + d * frameBytes W.window

/-- The lane of a lane slot (R25). -/
def laneAt (three : Bool) (W : Warp) (slot : Nat) : Lane :=
  if three then ((W.slotFibre? (slot / 3)).map (·.lane (slot % 3))).getD Lane.zero
  else ((W.slotFibre? slot).map (·.lane 0)).getD Lane.zero
/-- A mask of fibre slots as n little-endian bytes. -/
def maskBytes (n : Nat) (ks : List Nat) : List Byte :=
  leBytes n (ks.foldl (fun a k => if k < 8 * n then a ||| 2 ^ k else a) 0)

/-- The save area (Table 20-5). -/
def saveArea (three : Bool) (W : Warp) (mask sibs : List Nat) : List Byte :=
  let ls := (List.range 384).map (laneAt three W)
  ((List.range W.window).flatMap fun r => ls.flatMap fun l => leBytes 4 (l.reg r))
  ++ ls.map (fun l => l.preds.setWidth 8)
  ++ ((List.range 384).flatMap fun k => leBytes 8 (((W.slotFibre? k).map (·.icount.toNat)).getD 0))
  ++ ((List.range 64).flatMap fun r => leBytes 4 (if r < 60 then W.sreg r else 0))
  ++ [W.cpreds.setWidth 8] ++ List.replicate 63 0
  ++ maskBytes 48 mask ++ maskBytes 48 sibs ++ List.replicate 32 0

/-- A trap frame with its save area (Tables 20-4 and 20-5). -/
def frameOf (s : State) (W : Warp) (q : Fragment) (d : Nat) : List Byte :=
  let low := (q.mask.head?.bind W.fibre?).map (·.icount.toNat)
  leBytes 4 q.code ++ leBytes 4 q.flags ++ leBytes 8 q.pc.toNat ++ leBytes 4 q.lxw.toNat ++ leBytes 4 q.word.toNat
  ++ leBytes 8 q.addr ++ leBytes 2 q.id.toNat ++ leBytes 2 q.parent.toNat ++ leBytes 2 W.wid ++ leBytes 4 (blockIndex s W)
  ++ leBytes 1 W.window ++ leBytes 1 d ++ leBytes 4 0 ++ maskBytes 16 q.mask ++ maskBytes 16 q.sibs
  ++ leBytes 2 q.engine ++ leBytes 6 0 ++ leBytes 8 q.seq ++ leBytes 8 (low.getD 0) ++ leBytes 8 q.numflags.toNat
  ++ List.replicate 16 0 ++ saveArea (s.three W) W q.mask q.sibs

def codeTrapFrame : Nat := 0x0204

/-- The queued fragment that may enter its handler: the first, when no handler runs, or the first that fibres of the running
one raised (R459). -/
def deliverable (W : Warp) : Option Fragment :=
  match W.handlers with
  | [] => W.queue.head?
  | h :: _ => W.queue.find? fun q => q.parent == h.id
/-- The name of the work that raised a fragment (R408, R461). -/
def fragmentName (s : State) (W : Warp) (q : Fragment) : Name :=
  { nameOf s W q.pc.toNat with engine := q.engine, seq := q.seq }
/-- Write a fragment's frame at a TRAP byte offset (R121, R460, R521). -/
def writeFrame (s : State) (W : Warp) (q : Fragment) (d off : Nat) : Except (Nat × Nat) State × State :=
  let a := (W.seg .trap).baseAddr + off
  if 2 ^ 56 < a + frameBytes W.window then (.error (codeSegment, off), s)
  else structWrite s W.ctx a (frameOf s W q d)

/-- Taking a user trap (R460, R463): the fragment's frame is written and its fibres enter the trap vector as one group; a
missing slot or a fault of the frame is a context fault. -/
def enterHandler (s : State) (w : Nat) : State :=
  let W := (s.warp w).settle
  match deliverable W with
  | none => s
  | some q =>
    let d := W.handlers.length
    let name := fragmentName s W q
    if frameSlots W ≤ d then ctxFault s W.ctx W.core (some W.launch) codeTrapFrame 0 q.addr name none
    else
      let off := frameOffset W d
      match writeFrame s W q d off with
      | (.error e, s) => ctxFault s W.ctx W.core (some W.launch) q.code 0 q.addr name (some e.1)
      | (.ok s, _) =>
        let V := W.mapFibres q.mask fun f =>
          { f with pc := BitVec.ofNat 56 (s.launch W.launch).lrec.trapVec, status := .ready, frag := q.id }
        let s := s.setWarp w { V.setSval true 58 off with
          monitor := (s.warp w).monitor, queue := W.queue.filter (fun x => x.id != q.id), handlers := ⟨q.id, d, q.mask⟩ :: W.handlers }
        trace s W.ctx W.core 3 name (faultData q.code q.id.toNat q.addr)

/-- Bytes of a frame as loads of the warp see them, after every store of the warp; one that is held is read from its queue
(R464). -/
def frameRead (s : State) (w : Nat) (off n : Nat) : Except Stop (List Byte) × State :=
  let s := drainAll s w
  let W := s.warp w
  let ea := (W.seg .trap).baseAddr + off
  let limit := (W.seg .trap).size
  if off < W.area * limit || decide ((W.area + 1) * limit < off + n) || decide (2 ^ 56 < ea + n) then
    (.error (.cause ⟨codeSegment, off, .read⟩), s)
  else
    match structCheck s W.ctx .read (piecesOf ea n) with
    | (.error e, s) => (.error (.cause ⟨e.1, e.2, .read⟩), s)
    | (.ok ps, s) =>
      match ps.find? fun (p, m) => poisoned s p m with
      | some (p, _) => (.error (.cause ⟨codeSoftError, p.va, .read⟩), s)
      | none =>
        if ps.any fun (p, m) => queuedRed W.storeQ p m then (.error (.wait .stores), s)
        else
          (.ok (ps.flatMap fun (p, m) =>
            overlay W.storeQ none (p.base + p.off) (freshBytes s p (p.base + p.off) m)), s)

/-- Fibres of the running handler that have not ended. -/
def handlerLive (W : Warp) (h : Handler) : List Nat := (W.fibres.map (·.slot)).filter h.mask.contains

/-- A lane's registers and predicates from a save area at lane slot S (Table 20-5). -/
def laneFrom (bs : List Byte) (window slot : Nat) : Lane :=
  ⟨(List.range window).foldl (fun t r => Tab.write (0 : Word) t r (BitVec.ofNat 32 (field bs (0x80 + 1536 * r + 4 * slot) 4))) [],
   (byteAt bs (0x80 + 1536 * window + slot)).setWidth 7⟩

/-- State of a fibre from a frame (R464). -/
def fibreFrom (three : Bool) (bs : List Byte) (window : Nat) (pc : VAddr) (frag : BitVec 16) (f : Fibre) : Fibre :=
  { f with
    lanes := (List.range f.lanes.length).map fun j => laneFrom bs window (if three then 3 * f.slot + j else f.slot)
    icount := BitVec.ofNat 48 (field bs (0x80 + 1536 * window + 0x180 + 8 * f.slot) 8)
    pc := pc
    status := .ready
    frag := frag }

def codeIllegalInstr : Nat := 0x0201
def codeIllegalOperand : Nat := 0x0202

/-- Returning from a handler (R464): what stops it, or the state in which the group rejoins its warp. -/
def leaveHandler (s : State) (w : Nat) (group : List Nat) : Except Stop State × State :=
  let W := s.warp w
  let bad : Except Stop State := .error (.cause ⟨codeIllegalOperand, 0, .read⟩)
  match W.handlers with
  | [] => (bad, s)
  | h :: rest =>
    if handlerLive W h ≠ group then (bad, s)
    else
      match frameRead s w (W.sval true 58) (frameBytes W.window) with
      | (.error e, s) => (.error e, s)
      | (.ok bs, s) =>
        let pc := field bs 8 8
        if pc % 4 ≠ 0 || pc / 2 ^ 56 ≠ 0 then (bad, s)
        else
          let W := (s.warp w).settle
          let frag := match rest with | p :: _ => p.id | [] => 0
          let p := 0x80 + 1536 * W.window
          let V := W.mapFibres group (fibreFrom (s.three W) bs W.window (BitVec.ofNat 56 pc) frag)
          let t := s.setWarp w { V with
            handlers := rest
            sregs := (List.range 60).foldl (fun t r =>
              Tab.write (0 : Word) t r (BitVec.ofNat 32 (field bs (p + 0xD80 + 4 * r) 4))) V.sregs
            cpreds := (byteAt bs (p + 0xE80)).setWidth 7 }
          (.ok t, t)

/-! ### Retiring and killing (R53, R456, R457, R473) -/

/-- A block retires (R53): its rings go, its ticket is retired, and what it wrote to lines of its own is released and stands
(R390, R391). -/
def retireBlock (s : State) (b : Nat) : State :=
  let B := s.blk b
  if B.state = .retired then s
  else
    let s := refuse s B.core (s.modBlk b fun B => { B with state := .retired, rings := [], abacus := [], tiles := [] })
    let s := if B.task.isNone then standAgain s B.launch B.lin else s
    let s := s.modLaunch B.launch fun L =>
      if B.task.isSome then L
      else
        let done := decide (L.lrec.gx * L.lrec.gy * L.lrec.gz ≤ L.retired + 1)
        { L with
          retired := L.retired + 1
          state := if done && L.state == .running then .completing else L.state
          retiredTickets := if L.lrec.ordered then insertNat L.retiredTickets B.lin else []
          hall := L.hall.map fun e => if e.2.owner = B.lin && e.2.state != .read then (e.1, { e.2 with released := true }) else e }
    trace s B.ctx B.core 2 (engineName s b 0 0 0) []

/-- Remove a warp that ends by kill: its performed stores stand and its held ones are discarded (R473, R476). -/
def killWarp (s : State) (w : Nat) : State :=
  let s := drainAll s w
  let s := endFibres s w ((s.warp w).fibres.map (·.slot)) true
  let s := { s with warps := s.warps.filter fun e => e.1 != w, turn := if s.turn = some w then none else s.turn }
  { s with cores := s.cores.map fun e => (e.1, { e.2 with
      slots := e.2.slots.map fun x => if x = some w then none else x
      board := e.2.board.filter fun b => match b.owner with | .cpa v _ => v != w | .carter _ _ _ => true }) }

def codeIdempotenceLost : Nat := 0x0607

/-- Kill a block or a spawned warp with a code (R473, R483, R495). -/
def kill (s : State) (o : Owner) (r : FaultRec) : State :=
  match o with
  | .warp w =>
    let l := (s.warp w).launch
    killWarp (launchFault s l r) w
  | .blk b =>
    let B := s.blk b
    let L := s.launch B.launch
    let lost := L.lrec.idempotent && B.committed
    let s := launchFault s B.launch (if lost then { r with code := codeIdempotenceLost } else r)
    let s := if lost then ctxFault s B.ctx B.core (some B.launch) codeIdempotenceLost 0 0 r.name none else s
    let s := (s.warps.filter fun e => e.2.blk == some b).foldl (fun s e => killWarp s e.1) s
    let s := s.modBlk b fun B => { B with
      killed := true, faults := []
      fm := B.fm.map fun F => { F with ended := true, stopped := false }
      carter := { B.carter with cmds := B.carter.cmds.filter copyGoesOn } }
    let kept := ((s.blk b).carter.cmds).map (·.n)
    let s := { s with cores := s.cores.map fun e => (e.1, { e.2 with board := e.2.board.filter fun x =>
      match x.owner with | .carter q n _ => q != b || kept.contains n | .cpa _ _ => true }) }
    retireBlock s b

/-! ### The end of an instruction for its fibres -/

/-- How an instruction ends for one fibre. -/
inductive FibreEnd where
  /-- completed: the fibre after it -/
  | done (f : Fibre)
  /-- the fibre has ended -/
  | gone
  /-- diverted, or waiting -/
  | stop (e : Stop)
deriving DecidableEq, Repr

/-- The outcome for one fibre with the flags and numeric events it raised. -/
structure FibreRes where
  slot : Nat
  fin : FibreEnd
  fp : Flags
  num : BitVec 4
deriving DecidableEq, Repr

/-- Whether a code is delivered at block level (Table 20-1). -/
def blockLevel (code : Nat) : Bool :=
  code == 0x0303 || code == 0x0304 || code == 0x0305 || code == 0x0307 || code == 0x030A

/-- The lowest code of enabled events (Table 4-6, R114). -/
def eventCode (ev : BitVec 4) : Option Nat :=
  if ev.getLsbD 0 then some 0x0101 else if ev.getLsbD 1 then some codeUnstable
  else if ev.getLsbD 2 then some 0x0103 else if ev.getLsbD 3 then some 0x0104 else none

/-- The handler fragment that a fibre of a slot runs in, 0 for none. -/
def Warp.fragOf (W : Warp) (k : Nat) : BitVec 16 := ((W.fibre? k).map (·.frag)).getD 0
/-- The conditions of each fibre that a handler takes; a fibre that `rcvwait` parks has not completed it
(R462), and one that `exit` or `tail` ends takes no trap (log 55). -/
def userRaises (s : State) (W : Warp) (pc : VAddr) (rs : List FibreRes) : List Raise :=
  rs.foldl (fun a r =>
    match r.fin with
    | .stop (.cause c) =>
      if blockLevel c.code || c.code == codeSoftError then a else addRaise a c.code 0 pc (W.fragOf r.slot) r.slot c.addr
    | .done f =>
      match f.status, eventCode (trapEvents s W r.num) with
      | .entry _, _ => a
      | _, some code => addRaise a code 4 f.pc f.frag r.slot 0
      | _, none => a
    | _ => a) []
/-- The raise of one code for fibres of a group, one for each handler they run in. -/
def raisesOf (W : Warp) (code : Nat) (pc : VAddr) (ks : List Nat) (addr : Nat) : List Raise :=
  ks.foldl (fun a k => addRaise a code 0 pc (W.fragOf k) k addr) []
/-- The traps that fibres parked by an instruction will take when it completes (R114, R276). -/
def owedTraps (s : State) (W : Warp) (c : Issue) (rs : List FibreRes) : List OwedTrap :=
  rs.filterMap fun r =>
    match r.fin with
    | .done f => match f.status, eventCode (trapEvents s W r.num) with
      | .entry _, some _ => some ⟨r.slot, c.lx.getD 0, c.word⟩
      | _, _ => none
    | _ => none

/-- One block-fault report for each code, with its lowest fibre and that fibre's address (R471, R472). -/
def blockRecs (s : State) (W : Warp) (pc : VAddr) (rs : List FibreRes) : List FaultRec :=
  rs.foldl (fun a r =>
    match r.fin with
    | .stop (.cause c) =>
      if blockLevel c.code && !a.any (fun x => x.code == c.code) then
        a ++ [⟨none, c.code, false, false, true, r.slot, nameOf s W pc.toNat, c.addr, c.kind, none⟩]
      else a
    | _ => a) []

/-- The fibre after an instruction; one that it ends has executed it (R22). -/
def fibreAfter (i : Instr) (c : Issue) (since : Nat) (rs : List FibreRes) (f : Fibre) : Fibre :=
  match rs.find? (fun r => r.slot == f.slot) with
  | none => f
  | some r =>
    match r.fin with
    | .done g => { g with status := match g.status with | .waiting _ => .ready | x => x }
    | .gone => { f with icount := f.icount + 1 }
    | .stop (.wait why) =>
      { f with status := .waiting ⟨why, i, c.lx, c.word,
          match f.status with | .waiting w => w.since | _ => since⟩ }
    | .stop (.cause x) =>
      if blockLevel x.code then { f with status := .faulted } else { f with status := .ready }

/-- Count the numeric events that fibres raised (Table 16-6). -/
def countEvents (s : State) (c core : Nat) (rs : List FibreRes) : State :=
  if rs.all fun r => r.num == 0 then s
  else (List.range 4).foldl (fun s i => count s c core (0x40 + i) (rs.filter fun r => r.num.getLsbD i).length) s

/-- Count a warp that begins to wait for a stage entry (R388, Table 16-6). -/
def countStage (s : State) (W : Warp) (rs : List FibreRes) : State :=
  let waits : Fibre → Bool := fun f => match f.status with
    | .waiting x => x.why == .stage
    | _ => false
  if rs.any (fun r => r.fin == .stop (.wait .stage)) && !W.fibres.any waits then count s W.ctx W.core 0x53 1 else s

/-- Whether a result is that of a fibre which executed the whole instruction. -/
def FibreRes.whole (r : FibreRes) : Bool := match r.fin with | .stop _ => false | _ => true
/-- The soft error that a result found (R495). -/
def FibreRes.softError (r : FibreRes) : Option (Nat × Cause) :=
  match r.fin with
  | .stop (.cause x) => if x.code == codeSoftError then some (r.slot, x) else none
  | _ => none
/-- The warp after its group's results: its fibres, and the flags and events of those that executed. -/
def warpAfter (W : Warp) (i : Instr) (c : Issue) (since : Nat) (rs : List FibreRes) : Warp :=
  ({ W with fibres := W.fibres.map (fibreAfter i c since rs) } : Warp).addFlags
    ((rs.filter FibreRes.whole).foldl (fun a r => a ||| r.fp) 0)
    ((rs.filter FibreRes.whole).foldl (fun a r => a ||| r.num) 0)
/-- Fibres that have ended leave their warp. -/
def endGone (s : State) (w : Nat) (rs : List FibreRes) : State :=
  let gone := (rs.filter fun r => r.fin == .gone).map (·.slot)
  if gone = [] then s else endFibres s w gone false
/-- Fragments, block faults and soft errors of a group's results, with the warp after them (R456, R471, R495). -/
def divert (s : State) (c : Issue) (V : Warp) (rs : List FibreRes) : State :=
  let s := raiseUser s c.warp (c.lx.getD 0) c.word (userRaises s V c.pc rs)
  let s := (blockRecs s V c.pc rs).foldl (fun s r => addFault s (ownerOf c.warp V) r) s
  match rs.findSome? FibreRes.softError with
  | some (k, x) => kill s (ownerOf c.warp V) (plainRec codeSoftError (nameOf s V c.pc.toNat) x.addr k x.kind)
  | none => s

/-- Put a result among others by ascending fibre slot. -/
def insertRes (r : FibreRes) : List FibreRes → List FibreRes
  | [] => [r]
  | x :: t => if r.slot < x.slot then r :: x :: t else x :: insertRes r t
/-- Results by ascending fibre slot, whatever order the fibres performed their accesses in (R472). -/
def bySlot (rs : List FibreRes) : List FibreRes := rs.foldl (fun a r => insertRes r a) []

/-- Finish an instruction for the fibres of its group: registers, flags, waits, fragments, block faults, ended fibres
(R455 to R471). -/
def finish (s : State) (i : Instr) (c : Issue) (results : List FibreRes) : State :=
  let rs := bySlot results
  let V := warpAfter (s.warp c.warp) i c s.next rs
  let V := { V with owed := V.owed ++ owedTraps s V c rs }
  let t := countEvents ({ s with next := s.next + 1 }.setWarp c.warp V) V.ctx V.core (rs.filter FibreRes.whole)
  let t := countStage t (s.warp c.warp) rs
  divert (endGone t c.warp rs) c V rs

end Sys2Proof.Machine
end

