-- ==== Sys2Proof/Machine/Barriers.lean ====
section
/-! DEFINITION. Numbered barriers and the team barrier (R166, R297, R298, R302, R304, R479). -/
namespace Sys2Proof.Machine

/-- A barrier that nothing has used. -/
def Barrier.zero : Barrier := ⟨0, 0, 0, 0, false, none⟩
/-- A barrier of a block. -/
def barAt (s : State) (b n : Nat) : Barrier := (s.blk b).bars.getD n Barrier.zero
/-- Replace a barrier. -/
def setBar (s : State) (b n : Nat) (v : Barrier) : State := s.modBlk b fun B => { B with bars := setAt B.bars n v }

/-- Completion of a phase in one atomic step (R298). -/
def Barrier.settle (v : Barrier) : Barrier :=
  if v.count ≠ 0 ∧ v.arr = v.count ∧ v.bytes = 0 then { v with phase := v.phase + 1, arr := 0 } else v
/-- Case 3 of Table 21-4: bytes below 0 with every arrival made. -/
def Barrier.below (v : Barrier) : Bool := v.count != 0 && v.arr == v.count && v.bytes.msb

/-- An arrival, with bytes added before it is counted (R300): the case of a barrier fault, or the barrier after it. -/
def Barrier.arrive (v : Barrier) (tx : Double) : Except Nat Barrier :=
  if v.count = 0 then .error 1
  else if v.arr = v.count then .error 2
  else
    let u := { v with bytes := v.bytes + tx, arr := v.arr + 1 }
    if u.below then .error 3 else .ok u.settle
/-- Bytes added without arriving (R301). -/
def Barrier.expect (v : Barrier) (tx : Double) : Except Nat Barrier :=
  let u := { v with bytes := v.bytes + tx }
  if u.below then .error 3 else .ok u.settle

/-- Whether a phase has been reached (R302). -/
def Barrier.reached (v : Barrier) (e : BitVec 16) : Bool := decide ((v.phase.setWidth 16 - e).toNat < 32768)

def codeBarrier : Nat := 0x0401
/-- Fault address of a barrier fault (R479). -/
def barrierAddr (n case : Nat) : Nat := n + 256 * case

/-- The waiting group of lowest WID on a barrier of a block: the warp and its fibres at their lowest PC. -/
def barrierWaiter (s : State) (b n : Nat) : Option (Nat × Fibre × List Nat) :=
  let on : Fibre → Bool := fun f => match f.status with
    | .waiting w => (match w.why with | .barrier m _ => m == n | _ => false)
    | _ => false
  let ws := s.warps.filter fun e => e.2.blk == some b && e.2.fibres.any on
  match ws with
  | [] => none
  | e :: t =>
    let (w, W) := t.foldl (fun a e => if e.2.wid < a.2.wid then e else a) e
    match W.fibres.filter on with
    | [] => none
    | f :: r =>
      let g := r.foldl (fun a f => if f.pc.toNat < a.pc.toNat then f else a) f
      some (w, g, ((f :: r).filter fun f => f.pc == g.pc).map (·.slot))

/-- Bytes that land for a barrier (R166, R479): a fault that they cause goes to a waiting group, or is owed to the next
one. `seq` is the copy's timeline number, 0 for a `cpa`. -/
def landBytes (s : State) (b n bytes seq : Nat) : State :=
  let v := barAt s b n
  let u := ({ v with bytes := v.bytes - BitVec.ofNat 64 bytes } : Barrier).settle
  let s := setBar s b n u
  if u.below then
    match barrierWaiter s b n with
    | some (w, f, ks) =>
      let (lx, word) := match f.status with | .waiting q => (q.lx.getD 0, q.word) | _ => (0, 0)
      raiseUser s w lx word ((raisesOf (s.warp w) codeBarrier f.pc ks (barrierAddr n 3)).map fun r =>
        { r with engine := if seq = 0 then 0 else 1, seq := seq })
    | none => setBar s b n { u with owed := some seq }
  else s
/-- Bytes given back to a barrier before a replay (R490). -/
def giveBytes (s : State) (b n bytes : Nat) : State :=
  let v := barAt s b n
  setBar s b n ({ v with bytes := v.bytes + BitVec.ofNat 64 bytes } : Barrier).settle

/-! ### The team barrier (R304) -/

/-- The barrier of a team. -/
def teamBar (s : State) (l t : Nat) : TeamBar := (Tab.find (s.launch l).teams t).getD ⟨0, []⟩
/-- Warps of a team's blocks that have not ended; those of a block that has been given room and has not started yet have not
(R304). -/
def teamWarps (s : State) (l t : Nat) : List Nat :=
  (s.warps.filter fun e => (e.2.fibres != [] || e.2.residence == .resident) && (match e.2.blk with
    | some b => (s.blk b).launch == l && (s.blk b).team == t
    | none => false)).map (·.1)
/-- Whether every such warp has arrived. -/
def teamAll (s : State) (l t : Nat) (arrived : List Nat) : Bool := (teamWarps s l t).all arrived.contains

end Sys2Proof.Machine
end

