-- ==== Sys2Proof/Machine/Fetch.lean ====
section
/-! DEFINITION. Instruction fetch (R135, R191, R320, R328, R470). -/
namespace Sys2Proof.Machine

/-- Name of a line in an instruction cache: the context and virtual line, the physical line and its key slot. -/
def icKey (c va pa k : Nat) : Nat := ((c * 2 ^ 50 + va / 64) * 2 ^ 46 + pa / 64) * 512 + k
/-- Context of a cached line, and its virtual line. -/
def icCtx (key : Nat) : Nat := key / 512 / 2 ^ 46 / 2 ^ 50
def icLine (key : Nat) : Nat := key / 512 / 2 ^ 46 % 2 ^ 50

/-- n bytes of code at a place on a core: the line as memory holds it, or the copy that the core's instruction cache
holds (R191), which alone serves it where the memory is out of reach (R396). -/
def codeBytes (s : State) (core c : Nat) (p : Place) (n : Nat) : Nat × State :=
  let a := p.data n 0
  let fresh := leNat (freshBytes s p a n)
  let line := BitVec.ofNat 512 (leNat (freshBytes s p (a / 64 * 64) 64))
  let key := icKey c p.va a p.key
  match Tab.find (s.core core).icache key with
  | none => (fresh, s.modCore core fun C => { C with icache := Tab.put C.icache key line })
  | some old =>
    let kept := old.toNat / 256 ^ (a % 64) % 256 ^ n
    if kept = fresh then (fresh, s)
    else
      if linkDown s p then (kept, s)
      else
        let (i, s) := s.fresh
        (if Config.useCached i then kept else fresh, s)

/-- Fetch n bytes of code of a context on a core: the value, or the fault of the fetch. An element on a TRIPLE or MEAN
page is read by its first copy (log 23). -/
def fetchCode (s : State) (core c va n : Nat) : Except Cause Nat × State :=
  match translate s (.core core) c va with
  | (.error k, s) => (.error ⟨k, va, .fetch⟩, s)
  | (.ok (l, e), s) =>
    match leafCheck .glob va n .fetch false e with
    | some k => (.error k, s)
    | none =>
      let p := leafPlace l e (va % 2 ^ 56) false
      match linkCheck s p n .fetch with
      | (some k, s) => (.error k, s)
      | (none, s) =>
        if poisoned s p n then (.error ⟨codeSoftError, va, .fetch⟩, s)
        else
          let (v, s) := codeBytes s core c p n
          (.ok v, s)

/-- Whether the code at an address waits for its memory: a line of host memory that is out of reach, and of which the core's
instruction cache holds no copy (R396). -/
def codeHeld (s : State) (core c va n : Nat) : Bool :=
  !s.dev.ideActive && (match (translate s (.core core) c va).1 with
    | .ok (l, e) =>
      let p := leafPlace l e (va % 2 ^ 56) false
      (leafCheck .glob va n .fetch false e).isNone && linkDown s p
        && (Tab.find (s.core core).icache (icKey c p.va (p.data n 0) p.key)).isNone
    | .error _ => false)

end Sys2Proof.Machine
end

