-- ==== Sys2Proof/Machine/Halts.lean ====
section
/-! DEFINITION. What a breakpoint match or a HALT stops (R411, R412). -/
namespace Sys2Proof.Machine

/-- The comparator number of HALT and `brkpt` in a trace record (Table 16-5). -/
def haltIndex : Nat := 0xFF

/-- A block that is to be halted issues nothing more; one that has only been given room gives it up (R412). -/
def Block.halt (B : Block) : Block := { B with halted := true, placed := B.placed && B.state != .ready }
/-- Warps of blocks that have given up their room before they started are gone. -/
def unseat (s : State) : State :=
  { s with warps := s.warps.filter fun e => match e.2.blk with
      | some b => (s.blk b).state != .ready || (s.blk b).placed
      | none => true }
/-- Mark blocks as to be halted, and let the clusters that hold fewer blocks be as they then are (R128). -/
def haltBlocks (s : State) (which : Block → Bool) : State :=
  let t := unseat (s.mapBlks fun _ X => if which X then X.halt else X)
  (List.range Config.clusters).foldl (fun t cl => refuse s (4 * cl) t) t
/-- Mark the blocks of a team as to be halted: WORK_HALT saves them. -/
def haltTeam (s : State) (b : Nat) : State :=
  let B := s.blk b
  haltBlocks s fun X => X.launch == B.launch && X.team == B.team && X.state != .retired
/-- Mark all work of a context as to be halted; what has not started does not start either (R410, R412). -/
def haltContext (s : State) (c : Nat) : State :=
  (haltBlocks (s.modCtx c fun C => { C with halted := true }) fun X => X.ctx == c && X.placed && X.state != .retired).mapWarps
    fun _ W => if W.ctx = c ∧ W.blk = none then { W with halted := true } else W
/-- A halt is owed: the first match that causes it is named in its record, with its core (R408, R412, R413). -/
def oweHalt (s : State) (c idx core : Nat) (n : Option Name) : State :=
  s.modCtx c fun C =>
    if C.haltOwed.isSome then C else { C with haltOwed := some idx, haltName := n, haltCore := core }
/-- A match of a warp at a PC (R411): its team or its context halts, and the warp stops there. -/
def matchWarp (s : State) (w idx : Nat) (wide : Bool) (pc : VAddr) : State :=
  let W := s.warp w
  let t := if wide then haltContext s W.ctx
    else match W.blk with
      | some b => haltTeam s b
      | none => s.modWarp w fun W => { W with halted := true }
  oweHalt (t.modWarp w fun W => { W with exempt := some pc }) W.ctx idx W.core (some (nameOf s W pc.toNat))
/-- A match of an engine context of a block, by the name of its work. -/
def matchBlock (s : State) (b idx : Nat) (wide : Bool) (n : Name) : State :=
  let B := s.blk b
  oweHalt (if wide then haltContext s B.ctx else haltTeam s b) B.ctx idx B.core (some n)

/-- Whether the context's breakpoints are armed (R410, R411). -/
def armed (C : Ctx) : Bool := C.dbgr && C.dbgctl.getLsbD 2

/-- A comparator's fields (Table 16-3). -/
def Comparator.kind (k : Comparator) : Nat := k.ctl.toNat % 4
def Comparator.wide (k : Comparator) : Bool := k.ctl.getLsbD 2
def Comparator.block (k : Comparator) : Nat := k.ctl.toNat / 2 ^ 32
/-- Whether a comparator matches a block index: all ones match every block and spawned warp. -/
def Comparator.covers (k : Comparator) (lin : Nat) : Bool := k.block == 0xFFFFFFFF || k.block == lin
/-- The first comparator of a kind that matches a value in a block, and whether any of those that match is wide: several
matches make one halt (R412). -/
def matching (C : Ctx) (kind lin v : Nat) : Option (Nat × Bool) :=
  if armed C then
    let ms := C.comparators.zipIdx.filter fun e => e.1.kind == kind && e.1.covers lin && e.1.addr.toNat == v
    ms.head?.map fun e => (e.2, ms.any (·.1.wide))
  else none

end Sys2Proof.Machine
end

