-- ==== Sys2Proof/Machine/Layouts.lean ====
section
/-! DEFINITION. Layout records (R329 to R331, R338) and the elements that they place, in packed, bit-plane and swizzled
layouts (R64 to R66). -/
namespace Sys2Proof.Machine

/-- A layout record that passed its checks (Table 12-3). -/
structure Layout where
  base : Nat
  typ : Nat
  bitplane : Bool
  planes : Nat
  sib : SibLayout
  dims : Nat
  swz : Nat
  ext : List Nat
  str : List Int
deriving DecidableEq, Repr

/-- Width in bits of an element type (Table 12-4). -/
def typWidth (t : Nat) : Nat :=
  if t = 1 then 64 else if t = 0 ∨ t = 8 then 32 else if t = 2 ∨ t = 3 then 16
  else if t = 6 ∨ t = 11 ∨ t = 12 then 4 else if t = 13 ∨ t = 14 then 2 else 8
/-- The format of a floating element type; `.e8m0` is a scale and has none. -/
def typFmt (t : Nat) : Option Fmt :=
  if t = 0 then some binary32 else if t = 1 then some binary64 else if t = 2 then some binary16
  else if t = 3 then some bfloat16 else if t = 4 then some e4m3 else if t = 5 then some e5m2
  else if t = 6 then some e2m1 else none
/-- Whether a type is an integer. -/
def typInt (t : Nat) : Bool := decide (8 ≤ t) && decide (t ≤ 14)
/-- Whether an integer type is signed. -/
def typSigned (t : Nat) : Bool := t == 8 || t == 9 || t == 11 || t == 13

def Layout.width (l : Layout) : Nat := typWidth l.typ
/-- Bytes that an access of one element touches. -/
def Layout.size (l : Layout) : Nat := max (l.width / 8) 1
/-- Pieces in a swizzle group (Table 12-5). -/
def Layout.group (l : Layout) : Nat := if l.swz = 1 then 4 else if l.swz = 2 then 8 else if l.swz = 3 then 16 else 1
/-- Extent and stride of a dimension: extent 1 and stride 0 above DIMS (R333). -/
def Layout.extent (l : Layout) (d : Nat) : Nat := if d < l.dims then l.ext.getD d 1 else 1
def Layout.stride (l : Layout) (d : Nat) : Int := if d < l.dims then l.str.getD d 0 else 0
/-- Bits of a row. -/
def Layout.rowBits (l : Layout) : Nat :=
  if l.bitplane then (l.extent 0 + 63) / 64 * 64 * l.width else l.extent 0 * l.width
/-- Elements of the tensor. -/
def Layout.count (l : Layout) : Nat := l.extent 0 * l.extent 1 * l.extent 2 * l.extent 3

/-- Signed 64-bit and 32-bit fields. -/
def signedField (bs : List Byte) (off n : Nat) : Int := toSigned (8 * n) (field bs off n)

/-- Read a record's fields. -/
def Layout.ofBytes (bs : List Byte) : Layout where
  base := field bs 0 8
  typ := field bs 8 1
  bitplane := (field bs 9 1).testBit 7
  planes := field bs 9 1 % 16
  sib := sibOf (field bs 0x0A 1)
  dims := field bs 0x0B 1
  swz := field bs 0x0C 1
  ext := (List.range 4).map fun d => field bs (0x10 + 4 * d) 4
  str := (List.range 4).map fun d => signedField bs (0x20 + 8 * d) 8

/-- The rules of a dimension's extent and stride (Table 12-3). -/
def Layout.dimOk (l : Layout) (d : Nat) : Bool :=
  let e := l.ext.getD d 0
  let t := l.str.getD d 0
  if d < l.dims then decide (1 ≤ e) && decide (e ≤ 2 ^ 31) && (if d = 0 then t == 0 else t % 16 == 0)
  else e == 0 && t == 0

/-- The rules of R329 and R331. -/
def Layout.ok (bs : List Byte) (l : Layout) : Bool :=
  decide (l.typ ≤ 14) && field bs 9 1 / 16 % 8 == 0 && field bs 0x0D 3 == 0
  && decide (field bs 0x0A 1 ≤ 2) && decide (1 ≤ l.dims) && decide (l.dims ≤ 4) && decide (l.swz ≤ 3)
  && (if l.bitplane then typInt l.typ && decide (1 ≤ l.planes) && decide (l.planes ≤ l.width) else l.planes == 0)
  && l.base % (if l.swz = 0 then 16 else 1024) == 0
  && (l.sib == .plain || decide (16 ≤ l.width))
  && (List.range 4).all l.dimOk
  && (l.swz == 0 || (l.rowBits % (128 * l.group) == 0 && l.stride 1 % (16 * l.group : Nat) == 0))

/-- A record, if it breaks no rule; the Foreman's BASE is a CLUSTER-form offset. -/
def Layout.parse (foreman : Bool) (bs : List Byte) : Option Layout :=
  let l := Layout.ofBytes bs
  if l.ok bs && (!foreman || decide (l.base < 2 ^ 22)) then some l else none

/-- Where a byte of a row stands after the swizzle (R331). -/
def Layout.swizzle (l : Layout) (i1 : Int) (byte : Nat) : Nat :=
  let g := l.group
  let c := byte / 16
  (c / g * g + (c % g ^^^ (i1 % (g : Int)).toNat)) * 16 + byte % 16
/-- Offset from BASE of the row of an element. -/
def Layout.row (l : Layout) (i1 i2 i3 : Int) : Int := i1 * l.stride 1 + i2 * l.stride 2 + i3 * l.stride 3
/-- Whether indices lie in the tensor. -/
def Layout.inside (l : Layout) (i0 i1 i2 i3 : Int) : Bool :=
  let ok : Nat → Int → Bool := fun d i => decide (0 ≤ i) && decide (i < l.extent d)
  ok 0 i0 && ok 1 i1 && ok 2 i2 && ok 3 i3
/-- Byte offset from BASE and bit of a packed element (R329). -/
def Layout.spot (l : Layout) (i0 i1 i2 i3 : Int) : Int × Nat :=
  let bit := i0.toNat * l.width
  (l.row i1 i2 i3 + (l.swizzle i1 (bit / 8) : Nat), bit % 8)
/-- Byte offset from BASE of the double that holds plane j of an element (R65). -/
def Layout.planeSpot (l : Layout) (i0 i1 i2 i3 : Int) (j : Nat) : Int :=
  l.row i1 i2 i3 + (l.swizzle i1 (i0.toNat / 64 * 8 * l.width + 8 * j) : Nat)
/-- The planes read of a bit-plane element (R66). -/
def Layout.planesRead (l : Layout) : List Nat := (List.range l.width).drop (l.width - l.planes)
/-- The byte ranges that an element's access touches, as offsets from BASE. -/
def Layout.touches (l : Layout) (i0 i1 i2 i3 : Int) : List (Int × Nat) :=
  if l.bitplane then l.planesRead.map fun j => (l.planeSpot i0 i1 i2 i3 j, 8)
  else [((l.spot i0 i1 i2 i3).1, l.size)]
/-- The rows of a tensor: the first byte of each and the one after its last, as offsets from BASE (R329). -/
def Layout.rows (l : Layout) : List (Int × Int) :=
  let n : Nat := (l.rowBits + 7) / 8
  (List.range (l.extent 1 * l.extent 2 * l.extent 3)).map fun i =>
    let r := l.row (i % l.extent 1 : Nat) (i / l.extent 1 % l.extent 2 : Nat) (i / l.extent 1 / l.extent 2 : Nat)
    (r, r + n)
/-- Whether each dimension's stride steps over all that the dimensions below it reach: no two rows then share a byte. -/
def Layout.nested (l : Layout) : Bool :=
  let reach : Nat → Nat → Nat := fun d n => (l.extent d - 1) * (l.stride d).natAbs + n
  let ok : Nat → Nat → Bool := fun d n => l.extent d == 1 || decide (n ≤ (l.stride d).natAbs)
  let n := (l.rowBits + 7) / 8
  ok 1 n && ok 2 (reach 1 n) && ok 3 (reach 2 (reach 1 n))
/-- Indices of the element of a linear index, dimension 0 fastest (R263). -/
def Layout.indices (l : Layout) (n : Nat) : Int × Int × Int × Int :=
  (((n % l.extent 0 : Nat) : Int), ((n / l.extent 0 % l.extent 1 : Nat) : Int),
    ((n / l.extent 0 / l.extent 1 % l.extent 2 : Nat) : Int), ((n / l.extent 0 / l.extent 1 / l.extent 2 : Nat) : Int))

/-- Physical bytes of a logical range of a window (R105, R106). -/
def physRange (sib : SibLayout) (lo hi : Nat) : Nat × Nat :=
  match sib with
  | .plain => (lo, hi)
  | .triple => (4 * lo, 4 * hi)
  | .mean => (320 * (lo / 256) + lo % 256, 320 * ((hi - 1) / 256) + 320)
/-- Physical bytes of the part of a range of offsets that lies in a window; none where it has none. -/
def windowRun (M : Block) (lo hi : Int) : Option (Nat × Nat) :=
  let a := (max lo 0).toNat
  let b := min hi.toNat (logicalSize M.winSib M.winSize)
  if a < b then some (physRange M.winSib a b) else none

/-- Copy p of n bytes of an element at a place, as a number. -/
def copyAt (s : State) (p : Place) (n c : Nat) : Nat := leNat (freshBytes s p (p.data n c) n)

end Sys2Proof.Machine
end

