-- ==== Sys2Proof/Machine/Bits.lean ====
section
/-! DEFINITION. Integer, logic, shift and bit-field results of the lane set and the uniform set on values of w bits
(R201 to R212, R288 to R292). -/
namespace Sys2Proof.Machine

/-- Operand width of the W bit (R198). -/
def widthOf (w : Bool) : Nat := if w then 64 else 32
/-- A value modulo 2^w. -/
def wrap (w v : Nat) : Nat := v % 2 ^ w
/-- An integer modulo 2^w. -/
def wrapInt (w : Nat) (v : Int) : Nat := (v % (2 ^ w : Nat)).toNat
/-- A value read as signed or unsigned. -/
def intOf (s : Bool) (w v : Nat) : Int := if s then toSigned w v else v
/-- The nearest integer in a range. -/
def clampInt (lo hi v : Int) : Int := if v < lo then lo else if hi < v then hi else v
/-- The signed range. -/
def clampSigned (w : Nat) (v : Int) : Nat := wrapInt w (clampInt (-(2 ^ (w - 1) : Nat)) ((2 ^ (w - 1) : Nat) - 1) v)

/-- `iadd` and `isub` (R202): result and carry. -/
def addSub (sub : Bool) (sat : BitVec 2) (w x y : Nat) : Nat × Bool :=
  let t : Int := if sub then (x : Int) - y else (x : Int) + y
  let carry := if sub then decide (x < y) else decide (2 ^ w ≤ x + y)
  let st : Int := if sub then toSigned w x - toSigned w y else toSigned w x + toSigned w y
  (if sat = 1 then clampSigned w st
   else if sat = 2 then (clampInt 0 ((2 ^ w : Nat) - 1) t).toNat
   else wrapInt w t, carry)

/-- `iaddc` and `isubb` (R203): result and carry. -/
def addCarry (sub : Bool) (w x y : Nat) (c : Bool) : Nat × Bool :=
  let k : Nat := if c then 1 else 0
  if sub then (wrapInt w ((x : Int) - y - (k : Nat)), decide (x < y + k))
  else (wrap w (x + y + k), decide (2 ^ w ≤ x + y + k))

/-- The high w bits of a product (R204, R289). -/
def mulHigh (s : Bool) (w x y : Nat) : Nat :=
  wrapInt w ((intOf s w x * intOf s w y) / (2 ^ w : Nat))

/-- The smaller or larger operand (R205). -/
def minMax (isMax s : Bool) (w x y : Nat) : Nat :=
  if decide (intOf s w x < intOf s w y) == isMax then y else x

/-- `iabs` and `ineg` (R205). -/
def absNeg (isNeg sat : Bool) (w x : Nat) : Nat :=
  let v := toSigned w x
  let t := if isNeg then -v else if v < 0 then -v else v
  if sat then clampSigned w t else wrapInt w t

/-- Logic operations: 0 and, 1 or, 2 xor, 3 and not (R206). -/
def logicOp (op w x y : Nat) : Nat :=
  match op with
  | 0 => x &&& y
  | 1 => x ||| y
  | 2 => x ^^^ y
  | _ => x &&& (y ^^^ (2 ^ w - 1))

/-- Shift kinds. -/
inductive Shift where
  | shl | shr | sar | rotl
deriving DecidableEq, Repr

/-- Shifts and rotation (R207). -/
def shiftOp (k : Shift) (w x n : Nat) : Nat :=
  match k with
  | .shl => if n < w then wrap w (x * 2 ^ n) else 0
  | .shr => if n < w then x / 2 ^ n else 0
  | .sar => wrapInt w (toSigned w x / (2 ^ (min n w) : Nat))
  | .rotl => let r := n % w; wrap w (x * 2 ^ r) ||| (x / 2 ^ (w - r))

/-- `fsh` (R208). -/
def funnel (l : Bool) (a b c : Nat) : Nat :=
  let n := c % 32
  let u := a * 2 ^ 32 + b
  if l then wrap 32 (u * 2 ^ n / 2 ^ 32) else wrap 32 (u / 2 ^ n)

/-- Number of 1 bits. -/
def popCount : Nat → Nat → Nat
  | 0, _ => 0
  | w + 1, x => x % 2 + popCount w (x / 2)
/-- Leading zeros (R209). -/
def leadZeros (w x : Nat) : Nat := if x = 0 then w else w - 1 - x.log2
/-- Trailing zeros (R209). -/
def trailZeros : Nat → Nat → Nat
  | 0, _ => 0
  | w + 1, x => if x % 2 = 1 then 0 else 1 + trailZeros w (x / 2)
/-- Bits in reverse order (R209). -/
def bitReverse : Nat → Nat → Nat
  | 0, _ => 0
  | w + 1, x => (x % 2) * 2 ^ w + bitReverse w (x / 2)

/-- `bfx` (R210). -/
def bitExtract (s : Bool) (w a b : Nat) : Nat :=
  let pos := b % 256
  let len := b / 256 % 256
  if w ≤ pos ∨ len = 0 then 0
  else
    let l := min len (w - pos)
    let f := a / 2 ^ pos % 2 ^ l
    if s then wrapInt w (toSigned l f) else f

/-- `bfi` (R210). -/
def bitInsert (w a b c : Nat) : Nat :=
  let pos := c % 256
  let len := c / 256 % 256
  if w ≤ pos ∨ len = 0 then a
  else
    let l := min len (w - pos)
    a / 2 ^ (pos + l) * 2 ^ (pos + l) + (b % 2 ^ l) * 2 ^ pos + a % 2 ^ pos

/-- One byte of `bpick` (R211). -/
def pickByte (a b code : Nat) : Nat :=
  let src := (if code % 8 < 4 then a / 256 ^ (code % 4) else b / 256 ^ (code % 4)) % 256
  match code / 8 % 4 with
  | 0 => src
  | 1 => bitReverse 8 src
  | 2 => src % 16 * 16 + src / 16
  | _ => if 128 ≤ src then 255 else 0

/-- `bpick` (R211). -/
def bytePick (ctl a b : Nat) : Nat :=
  pickByte a b (ctl % 32) + 256 * pickByte a b (ctl / 32 % 32) + 65536 * pickByte a b (ctl / 1024 % 32)
    + 16777216 * pickByte a b (ctl / 32768 % 32)

/-- Integer conditions of Table 8-4; `un` and `ord` have no integer meaning and never decode. -/
def intCompare (c : Cond) (s : Bool) (w x y : Nat) : Bool :=
  let a := intOf s w x
  let b := intOf s w y
  match c with
  | .eq => a == b
  | .ne => a != b
  | .lt => decide (a < b)
  | .le => decide (a ≤ b)
  | .gt => decide (b < a)
  | .ge => decide (b ≤ a)
  | .un => false
  | .ord => false

end Sys2Proof.Machine
end

