-- ==== Sys2Proof/Machine/Operands.lean ====
section
/-! DEFINITION. Operand forms of the lane set: windows and alignment (R116, R182, R198), guards (R97, R175), rounding
attributes and draws (R69, R95, R200), and the two ways a lane instruction acts on its group. -/
namespace Sys2Proof.Machine

/-- A use of n registers from a start that must be a multiple of `align` (R116, R182). -/
structure RegUse where
  start : Nat
  n : Nat
  align : Nat
deriving DecidableEq, Repr

/-- One register. -/
def one (r : Reg) : RegUse := ⟨r.toNat, 1, 1⟩
/-- An even pair. -/
def two (r : Reg) : RegUse := ⟨r.toNat, 2, 2⟩
/-- Four registers from a multiple of 4. -/
def four (r : Reg) : RegUse := ⟨r.toNat, 4, 4⟩
/-- One register or an even pair, by the W bit (R198). -/
def byW (w : Bool) (r : Reg) : RegUse := if w then two r else one r
/-- One register or an even pair, by the type (R198). -/
def byTy (ty : FTy) (r : Reg) : RegUse := byW (ty == .f64) r
/-- Whether every use lies in the window and is aligned; a use of no register lies in any window (R278). -/
def usesOk (window : Nat) (us : List RegUse) : Bool :=
  us.all fun u => decide (u.start % u.align = 0) && (u.n == 0 || decide (u.start + u.n ≤ window))

/-- The runs of registers of some uses. -/
def spans (us : List RegUse) : List (Nat × Nat) := us.map fun u => (u.start, u.n)

/-- What a lane instruction reads besides its fibre. -/
structure LaneEnv where
  three : Bool
  warp : Warp
  x : Lx
  seed : Double
  /-- the address of the next instruction -/
  next : VAddr
  /-- the lowest slot of the fibres that execute it, by which reports name it (R52, R475) -/
  lead : Nat
deriving DecidableEq, Repr

/-- Address of the instruction after the one in execution: its LX word counts (R176, R462). -/
def nextPc (c : Issue) : VAddr := if c.lx.isSome then c.pc + 8 else c.pc + 4

/-- The fibres of the group in execution, in ascending slot order. -/
def groupOf (W : Warp) (c : Issue) : List Fibre := W.fibres.filter fun f => c.group.contains f.slot

/-- A fibre's guard: whether it executes, and whether its siblings agree (R97, R175). -/
def guardOf (x : Lx) (f : Fibre) : Bool × Bool :=
  let (m, u) := majorityBool (f.lanes.map (·.pred x.pred))
  (m != x.neg, u)

/-- The lowest slot of the fibres that execute an instruction. -/
def leadSlot (W : Warp) (c : Issue) (x : Lx) : Nat :=
  (((groupOf W c).filter fun f => (guardOf x f).1).head?.map (·.slot)).getD 0

/-- The environment of the instruction in execution. -/
def laneEnv (s : State) (c : Issue) (x : Lx) : LaneEnv :=
  let W := s.warp c.warp
  ⟨s.three W, W, x, (s.launch W.launch).lrec.seed, nextPc c, leadSlot W c x⟩

/-- The attribute in force (R69, R95): PLAIN-RN, the override, the instruction's own RA, or the launch's default. -/
def LaneEnv.mode (e : LaneEnv) (ra : Bool) : Mode :=
  if e.x.sib = 2 then modeRN
  else if e.x.rnd ≠ 0 then e.x.rnd
  else if ra then modeRA
  else if e.three then modeRSD else modeRN

/-- The draw of sibling j at an event index (R72, R95, R200). -/
def LaneEnv.drawOf (e : LaneEnv) (f : Fibre) (j event : Nat) : Double :=
  laneDraw e.seed f.tid (if e.x.sib = 1 then 0 else j) f.icount event

/-- The rounding of a reduction issued by a fibre (R259). -/
def LaneEnv.rounding (e : LaneEnv) (f : Fibre) : Rounding := ⟨e.mode false, e.x.sib, f.tid, f.icount⟩

/-- The guard's numeric event (R97). -/
def guardEvent (unanimous : Bool) : BitVec 4 := if unanimous then 0 else evUCMP

/-- A fibre that has completed a lane instruction: the next PC, and ICOUNT advanced (R22). -/
def Fibre.advance (f : Fibre) (next : VAddr) : Fibre := { f with pc := next, icount := f.icount + 1 }
/-- A fibre masked off goes on without executing (R22). -/
def Fibre.skip (f : Fibre) (next : VAddr) : Fibre := { f with pc := next }

/-- The result of an instruction of registers alone, for one fibre. -/
structure LaneOut where
  lanes : List Lane
  fp : Flags
  num : BitVec 4
deriving DecidableEq, Repr

/-- Change every lane of a fibre by its sibling number. -/
def mapLanes (f : Fibre) (g : Nat → Lane → Lane) : List Lane := f.lanes.zipIdx.map fun (l, j) => g j l
/-- A result without flags or events. -/
def quiet (f : Fibre) (g : Nat → Lane → Lane) : LaneOut := ⟨mapLanes f g, 0, 0⟩

/-- What a register instruction does for one fibre (R199): masked off, an operand outside the window or misaligned
(ILLEGAL_OPERAND), or its result. -/
def laneStep (e : LaneEnv) (us : List RegUse) (op : LaneEnv → Fibre → LaneOut) (f : Fibre) : FibreRes :=
  let (active, u) := guardOf e.x f
  if !active then ⟨f.slot, .done (f.skip e.next), 0, guardEvent u⟩
  else if !usesOk e.warp.window us then ⟨f.slot, .stop (.cause ⟨codeIllegalOperand, 0, .read⟩), 0, 0⟩
  else
    let r := op e f
    ⟨f.slot, .done { f.advance e.next with lanes := r.lanes }, r.fp, r.num ||| guardEvent u⟩

/-- A group waits for loads in flight. -/
def waitLoads (i : Instr) (c : Issue) (lane uni : List (Nat × Nat)) (s : State) : State :=
  finish s i c ((groupOf (s.warp c.warp) c).map fun f => ⟨f.slot, .stop (.wait (.regs c.group lane uni)), 0, 0⟩)
/-- An instruction waits with its whole group while loads in flight are still to write registers that it reads or writes
(R255). -/
def afterLoads (i : Instr) (c : Issue) (lane uni : List (Nat × Nat)) (s : State) (go : State → State) : State :=
  if loadsHold (s.warp c.warp) c.group lane uni then waitLoads i c lane uni s else go s

/-- A lane instruction that touches registers alone (R197). -/
def lanePure (x : Lx) (us : List RegUse) (op : LaneEnv → Fibre → LaneOut) (s : State) :
    Host.Outcome State Fault Refusal :=
  match s.cur with
  | none => .fault .noIssuer
  | some c =>
    .next (afterLoads (.nop x) c (spans us) [] s fun s =>
      finish s (.nop x) c ((groupOf (s.warp c.warp) c).map (laneStep (laneEnv s c x) us op)))

/-- The outcome of an instruction that reaches memory or other shared state, for one fibre. -/
structure LaneAct where
  fin : FibreEnd
  fp : Flags
  num : BitVec 4
deriving DecidableEq, Repr

/-- Completed with new lanes. -/
def LaneAct.ok (e : LaneEnv) (f : Fibre) (lanes : List Lane) : LaneAct :=
  ⟨.done { f.advance e.next with lanes := lanes }, 0, 0⟩
/-- Stopped. -/
def LaneAct.stop (e : Stop) : LaneAct := ⟨.stop e, 0, 0⟩
/-- Diverted with an ILLEGAL_OPERAND. -/
def LaneAct.illegal : LaneAct := .stop (.cause ⟨codeIllegalOperand, 0, .read⟩)

/-- Take fibres in an order left open (R144, R260, log 11): the order of one fibre, or of a launch in ascending TID
order, is fixed. -/
def orderFibres : Nat → State → List Fibre → List Fibre × State
  | 0, s, _ => ([], s)
  | n + 1, s, fs =>
    let (i, s) := s.choose fs.length
    match fs[i]? with
    | none => ([], s)
    | some f =>
      let (t, s) := orderFibres n s (dropAt fs i)
      (f :: t, s)

/-- Act on fibres one after another. -/
def foldFibres (act : State → LaneEnv → Fibre → LaneAct × State) (e : LaneEnv) :
    List Fibre → State → List FibreRes × State
  | [], s => ([], s)
  | f :: t, s =>
    let (a, s) := act s e f
    let (rs, s) := foldFibres act e t s
    (⟨f.slot, a.fin, a.fp, a.num⟩ :: rs, s)

/-- One fibre of an instruction that reaches shared state: guard and operands first (R467). -/
def guarded (us : List RegUse) (act : State → LaneEnv → Fibre → LaneAct × State) (s : State) (e : LaneEnv)
    (f : Fibre) : LaneAct × State :=
  let (active, u) := guardOf e.x f
  if !active then (⟨.done (f.skip e.next), 0, guardEvent u⟩, s)
  else if !usesOk e.warp.window us then (LaneAct.illegal, s)
  else
    let (a, s) := act s e f
    ({ a with num := a.num ||| guardEvent u }, s)

/-- A lane instruction that reaches memory or other shared state, fibre by fibre; `free` says whether the order of the
fibres is left open. -/
def laneFold (i : Instr) (x : Lx) (free : Bool) (us : List RegUse)
    (act : State → LaneEnv → Fibre → LaneAct × State) (s : State) : Host.Outcome State Fault Refusal :=
  match s.cur with
  | none => .fault .noIssuer
  | some c =>
    .next (afterLoads i c (spans us) [] s fun s =>
      let fs := groupOf (s.warp c.warp) c
      let ordered := (s.launch (s.warp c.warp).launch).lrec.ordered
      let (fs, s) := if free && !ordered then orderFibres fs.length s fs else (fs, s)
      let (rs, s) := foldFibres (guarded us act) (laneEnv s c x) fs s
      finish s i c rs)

/-! ### Operands combined over the siblings (R99) -/

/-- A fibre's operand that does not stay in the triple: the majority, or divergence with sibling 0's value. -/
def oneValue (f : Fibre) (g : Lane → Nat) (k : AccKind) : Except Stop Nat :=
  match f.vals g with
  | [a, b, c] =>
    let r := majority a b c
    if r.2 then .ok r.1 else .error (.cause ⟨codeAddrDivergence, a, k⟩)
  | a :: _ => .ok a
  | [] => .ok 0

/-- Registers of an address operand: a pair for GLOBAL and DEBUG (R121, R253). -/
def addrUse (g : Seg) (a : Reg) : RegUse := byW (g == .glob || g == .debug) a
/-- A fibre's address operand (R253). -/
def addrValue (g : Seg) (a : Reg) (f : Fibre) (k : AccKind) : Except Stop Nat :=
  oneValue f (fun l => l.val (g == .glob || g == .debug) a.toNat) k

/-! ### Instructions executed once for the warp -/

/-- An operand that is never allowed: an illegal operand. -/
def refusedUse : RegUse := ⟨1, 0, 2⟩

/-- The result of a fibre that completes. -/
def doneRes (e : LaneEnv) (f : Fibre) (lanes : List Lane) : FibreRes :=
  ⟨f.slot, .done { f.advance e.next with lanes := lanes }, 0, (guardEvent (guardOf e.x f).2)⟩
/-- The result of a fibre that stops. -/
def stopRes (e : Stop) (f : Fibre) : FibreRes := ⟨f.slot, .stop e, 0, 0⟩

/-- A lane instruction executed once for the warp by its lowest-numbered active fibre (R250, R262, R266): operands
outside the window divert every active fibre. -/
def laneOnce (i : Instr) (x : Lx) (us : List RegUse)
    (act : State → LaneEnv → Issue → Fibre → List Fibre → List FibreRes × State) (s : State) :
    Host.Outcome State Fault Refusal :=
  match s.cur with
  | none => .fault .noIssuer
  | some c =>
    .next (afterLoads i c (spans us) [] s fun s =>
      let e := laneEnv s c x
      let fs := groupOf (s.warp c.warp) c
      let off := (fs.filter fun f => !(guardOf x f).1).map fun f =>
        (⟨f.slot, .done (f.skip e.next), 0, guardEvent (guardOf x f).2⟩ : FibreRes)
      match fs.filter fun f => (guardOf x f).1 with
      | [] => finish s i c off
      | lead :: rest =>
        if !usesOk e.warp.window us then
          finish s i c (off ++ (lead :: rest).map (stopRes (.cause ⟨codeIllegalOperand, 0, .read⟩)))
        else
          let (rs, s) := act s e c lead (lead :: rest)
          finish s i c (off ++ rs))

/-- The 16-byte pieces of an access of n bytes, each passed by Access (R250, R251): alignment is that of the whole. -/
def placesFrom (s : State) (W : Warp) (g : Seg) (k : AccKind) : List EffAddr → Except Stop (List Place) × State
  | [] => (.ok [], s)
  | ea :: t =>
    match access s W g ea 16 k false with
    | (.error e, s) => (.error e, s)
    | (.ok p, s) =>
      match placesFrom s W g k t with
      | (.error e, s) => (.error e, s)
      | (.ok ps, s) => (.ok (p :: ps), s)

/-- An effective address further on. -/
def EffAddr.plus : EffAddr → Nat → EffAddr
  | .win b o, d => .win b (o + d)
  | .virt a, d => .virt ((a + d) % 2 ^ 56)

/-- Locate n bytes, a multiple of 16, aligned to `align`: the effective address and its pieces. -/
def locatePieces (s : State) (W : Warp) (tid : Nat) (g : Seg) (v n align : Nat) (k : AccKind) :
    Except Stop (Nat × List Place) × State :=
  match effAddr s W tid g v 0 n k with
  | .error e => (.error e, s)
  | .ok ea =>
    match checkAddr s W g ea align k with
    | .error e => (.error e, s)
    | .ok () =>
      match placesFrom s W g k ((List.range (n / 16)).map fun i => ea.plus (16 * i)) with
      | (.error e, s) => (.error e, s)
      | (.ok ps, s) => (.ok (ea.num, ps), s)

/-- The Hallmark entries of a launch as they were: an access that has a hazard changes none (R478). -/
def restoreHall (s t : State) (l : Nat) : State := t.modLaunch l fun L => { L with hall := (s.launch l).hall }
/-- Load located pieces of 16 bytes as the warp's loads (R251), relaxed or at the home L2; a hazard of one undoes what the
others entered (R478). -/
def loadPieces (s : State) (w : Nat) (relaxed : Bool) (ea : Nat) : List Place → Except Stop (List Byte) × State
  | [] => (.ok [], s)
  | p :: t =>
    match loadElem s w relaxed p 16 ea with
    | (.error e, s) => (.error e, s)
    | (.ok el, u) =>
      match loadPieces u w relaxed (ea + 16) t with
      | (.error e, u) => (.error e, restoreHall s u (s.warp w).launch)
      | (.ok bs, u) => (.ok (leBytes 16 (el.copies.headD 0) ++ bs), u)
/-- Whether a fibre's relaxed loads may be served by its core's L1: not after an acquire fence whose scope lies beyond it
(R155, R157). -/
def Fibre.relaxed (s : State) (core : Nat) (f : Fibre) : Bool := !homeCode s core f.fenced

/-- Code of the widest scope of the acquire fences that some fibres have executed (R155). -/
def widestFence (fs : List Fibre) : Nat := fs.foldl (fun a f => max a f.fenced) 0
/-- Load located pieces once for some fibres, with the acquire that their fences before it ask for (R155). -/
def loadShared (s : State) (w : Nat) (fs : List Fibre) (ea : Nat) (ps : List Place) : Except Stop (List Byte) × State :=
  let core := (s.warp w).core
  match loadPieces s w (fs.all (·.relaxed s core)) ea ps with
  | (.error e, s) => (.error e, s)
  | (.ok bs, s) => (.ok bs, acquireAt s core (widestFence fs))

/-- A plain store of bytes at a place. -/
def plainStore (p : Place) (bs : List Byte) (pc : VAddr) (slot : Nat) : StoreOp :=
  ⟨p, bs.length, wholeBytes (p.base + p.off) bs, none, .device, false, pc, slot, 0, 0, 0⟩

/-- Store bytes into located pieces of 16 bytes as the warp's stores, for a fibre of a slot and TID; they take their places in
the warp's queue in ascending order, one of the orders that R251 allows (log 106). -/
def storePieces (s : State) (w : Nat) (c : Issue) (slot tid ea : Nat) : List Place → List Byte → Except Stop State
  | [], _ => .ok s
  | p :: t, bs =>
    match issueStore s w (plainStore p (bs.take 16) c.pc slot) ea s.next tid with
    | .error e => .error e
    | .ok s => storePieces s w c slot tid (ea + 16) t (bs.drop 16)

/-! ### Values by type (R177, R198) -/

/-- A value of a floating type. -/
def Lane.fval (l : Lane) (ty : FTy) (r : Nat) : Nat :=
  match ty with
  | .f64 => l.pair r
  | .f32 => l.reg r
  | .f16 | .bf16 => l.reg r % 65536
/-- Write a value of a floating type; 16-bit types clear bits 31:16 (R198). -/
def Lane.setFval (l : Lane) (ty : FTy) (r v : Nat) : Lane :=
  match ty with
  | .f64 => l.setPair r v
  | .f32 => l.setReg r v
  | .f16 | .bf16 => l.setReg r (v % 65536)

end Sys2Proof.Machine
end

