-- ==== Sys2Proof/Machine/Flags.lean ====
section
/-! DEFINITION. The conditions of numeric events (R111, Table 4-3) and the IEEE flags of a triple of results (R84). -/
namespace Sys2Proof.Machine

/-- UCMP: results that are not all equal (R98). -/
def unstable (rs : List Bool) : BitVec 4 := if allEqual rs then 0 else evUCMP

/-- Write each sibling's own result predicate; unlike results raise UCMP (R98). -/
def predicates (f : Fibre) (pd : Pred) (rs : List Bool) : List Lane × BitVec 4 :=
  ((f.lanes.zip rs).map fun (l, r) => l.setPred pd r, unstable rs)

/-- NUMCTL.CANC and NUMCTL.AGREE (Table 4-4). -/
def cancBound (numctl : Double) : Nat := numctl.toNat % 64
def agreeBound (numctl : Double) : Nat := numctl.toNat / 256 % 64

/-- Whether one sibling's exponent drop reaches the threshold (R111). -/
def dropReached (bound : Nat) (o : FOut) : Bool :=
  match o.drop with
  | none => false
  | some (_, none) => true
  | some (m, some r) => decide ((bound : Int) ≤ m - r)

/-- Agree of the values of a fibre in a format (R92, R110). -/
def agreeOf (f : Fmt) (vs : List Nat) : Nat :=
  let (a, b, c) := tripled vs
  agree3 (decodeNum f a) (decodeNum f b) (decodeNum f c) f.p

/-- CANC (R111). -/
def cancEvent (e : LaneEnv) (f : Fmt) (os : List FOut) : BitVec 4 :=
  let bound := cancBound e.warp.numctl
  if bound ≠ 0 && os.any (dropReached bound)
      && (!e.three || decide (agreeOf f (os.map (·.bits)) < agreeBound e.warp.numctl))
  then evCANC else 0

/-- ZDIV on the divisors of a fibre (R111). -/
def zdivEvent (e : LaneEnv) (f : Fmt) (vs : List Nat) : BitVec 4 :=
  let xs := vs.map (decodeNum f)
  if e.three then
    if xs.any Num.isZero || !allEqual (xs.map Num.neg) || agreeOf f vs == 0 then evZDIV else 0
  else if xs.any Num.isZero then evZDIV else 0

/-- The flags of every sibling together (R84). -/
def orFlags (fs : List Flags) : Flags := fs.foldl (· ||| ·) 0

end Sys2Proof.Machine
end

