-- ==== Sys2Proof/Machine/LaneMemory.lean ====
section
/-! DEFINITION. Loads, stores, atomics, copies, futures, monitors and fences of the lane set (R253 to R267). -/
namespace Sys2Proof

/-! ### Element types (R177, R178) -/

/-- Size of an element in bytes. -/
def MTy.size : MTy → Nat
  | .u8 | .i8 => 1
  | .u16 | .i16 | .f16 | .bf16 => 2
  | .b32 | .f32 => 4
  | .b64 | .f64 => 8
  | .b128 => 16
/-- Registers of an element. -/
def MTy.regs : MTy → Nat
  | .b64 | .f64 => 2
  | .b128 => 4
  | _ => 1
/-- Format of a floating element. -/
def MTy.fmt : MTy → Option Machine.Fmt
  | .f16 => some Machine.binary16
  | .bf16 => some Machine.bfloat16
  | .f32 => some Machine.binary32
  | .f64 => some Machine.binary64
  | _ => none
/-- Operand use of a data register (R256). -/
def MTy.use (ty : MTy) (t : Reg) : Machine.RegUse := ⟨t.toNat, ty.regs, ty.regs⟩
/-- What a load writes of an element's bits: signed types are extended to 32 bits (R177). -/
def MTy.extend (ty : MTy) (v : Nat) : Nat :=
  match ty with
  | .i8 => Machine.wrapInt 32 (Machine.toSigned 8 v)
  | .i16 => Machine.wrapInt 32 (Machine.toSigned 16 v)
  | _ => v
/-- The bits of an element that a store takes from a lane. -/
def MTy.data (ty : MTy) (t : Reg) (l : Machine.Lane) : Nat := l.many t.toNat ty.regs % 2 ^ (8 * ty.size)

end Sys2Proof

namespace Sys2Proof.Machine

/-! ### Loads (R255 to R257) -/

/-- Register writes of values, one for each sibling, into n registers from r. -/
def regWrites (r n : Nat) (vs : List Nat) : List (Nat × Nat × Word) :=
  vs.zipIdx.flatMap fun (v, j) => (List.range n).map fun i => (j, r + i, BitVec.ofNat 32 (v / 2 ^ (32 * i)))

/-- Append a load in flight to a warp (R255). -/
def addLoad (s : State) (w : Nat) (slot : Option Nat) (regs : List (Nat × Nat × Word)) : State :=
  s.modWarp w fun W => { W with loads := W.loads ++ [⟨slot, regs⟩] }

/-- Whether the L1 may serve a load of a fibre: not where it acquires, by itself or after a fence, at a point beyond the L1
(R153, R155, R157). -/
def fromL1 (s : State) (core : Nat) (f : Fibre) (acq : Option Scope) : Bool :=
  f.relaxed s core && (match acq with | some sc => !atHome s core sc | none => true)
/-- The acquire that a load or atomic of a fibre makes: its own, and that of an acquire fence before it (R153, R155). -/
def acquireFor (s : State) (core : Nat) (f : Fibre) (acq : Option Scope) : State :=
  let s := match acq with | some sc => acquire s core sc | none => s
  acquireAt s core f.fenced

/-- One fibre's load. -/
def laneLoad (w : Nat) (ty : MTy) (seg : Seg) (off : Nat) (t a : Reg) (acq : Option Scope)
    (s : State) (e : LaneEnv) (f : Fibre) : LaneAct × State :=
  match addrValue seg a f .read with
  | .error st => (.stop st, s)
  | .ok v =>
    match locate s e.warp f.tid.toNat seg v (off * ty.size) ty.size .read false with
    | (.error st, s) => (.stop st, s)
    | (.ok p, s) =>
      match loadElem s w (fromL1 s e.warp.core f acq) p ty.size p.va with
      | (.error st, s) => (.stop st, s)
      | (.ok el, s) =>
        let vs := (siblingValues e.three p ty.fmt el).map ty.extend
        let s := addLoad s w (some f.slot) (regWrites t.toNat ty.regs vs)
        (.ok e f f.lanes, acquireFor s e.warp.core f acq)

/-- The warp of the instruction in execution. -/
def curWarp (s : State) : Nat := match s.cur with | some c => c.warp | none => 0
/-- Its address. -/
def curPc (s : State) : VAddr := match s.cur with | some c => c.pc | none => 0

def execLd (x : Lx) (ty : MTy) (seg : Seg) (off : BitVec 20) (t a : Reg) (s : State) :
    Host.Outcome State Fault Refusal :=
  laneFold (.ld x ty seg off t a) x false [ty.use t, addrUse seg a]
    (laneLoad (curWarp s) ty seg off.toNat t a none) s

def execLda (x : Lx) (ty : MTy) (sc : Scope) (seg : Seg) (off : BitVec 16) (t a : Reg) (s : State) :
    Host.Outcome State Fault Refusal :=
  laneFold (.lda x ty sc seg off t a) x false [ty.use t, addrUse seg a]
    (laneLoad (curWarp s) ty seg off.toNat t a (some sc)) s

/-! ### Stores -/

/-- One fibre's store; its traps are taken at issue and its flags when it is performed (R255). -/
def laneStore (w : Nat) (pc : VAddr) (ty : MTy) (seg : Seg) (off : Nat) (t a : Reg) (rel : Option Scope)
    (s : State) (e : LaneEnv) (f : Fibre) : LaneAct × State :=
  match addrValue seg a f .write with
  | .error st => (.stop st, s)
  | .ok v =>
    match locate s e.warp f.tid.toNat seg v (off * ty.size) ty.size .write false with
    | (.error st, s) => (.stop st, s)
    | (.ok p, s) =>
      let (ws, fp, ev) := storeWrites p ty.size ty.fmt (f.vals (ty.data t))
      let op : StoreOp := ⟨p, ty.size, ws, none, rel.getD .device, rel.isSome, pc, e.lead, fp, ev, trapEvents s e.warp ev⟩
      match issueStore s w op p.va s.next f.tid.toNat with
      | .error st => (.stop st, s)
      | .ok s => ({ LaneAct.ok e f f.lanes with num := trapEvents s e.warp ev }, s)

def execSt (x : Lx) (ty : MTy) (seg : Seg) (off : BitVec 20) (t a : Reg) (s : State) :
    Host.Outcome State Fault Refusal :=
  laneFold (.st x ty seg off t a) x true [ty.use t, addrUse seg a]
    (laneStore (curWarp s) (curPc s) ty seg off.toNat t a none) s

def execStl (x : Lx) (ty : MTy) (sc : Scope) (seg : Seg) (off : BitVec 16) (t a : Reg) (s : State) :
    Host.Outcome State Fault Refusal :=
  laneFold (.stl x ty sc seg off t a) x true [ty.use t, addrUse seg a]
    (laneStore (curWarp s) (curPc s) ty seg off.toNat t a (some sc)) s

/-! ### Atomics and reductions (R258 to R260) -/

/-- Operand use of an atomic's values. -/
def atomUse (ty : AtomTy) (r : Reg) : RegUse := byW (atomSize ty == 8) r
/-- The operand bits of an atomic. -/
def atomData (ty : AtomTy) (r : Reg) (l : Lane) : Nat :=
  l.val (atomSize ty == 8) r.toNat % 2 ^ (8 * atomSize ty)
/-- Whether an ordering acquires. -/
def acquires : MemOrd → Bool
  | .acq | .ar | .sc => true
  | .rlx | .rel => false

/-- One fibre's returning atomic. -/
def laneAtomic (w : Nat) (n : Nat) (fmt : Option Fmt) (o : MemOrd) (sc : Scope) (seg : Seg) (d a : Reg)
    (vals : Place → Fibre → List Nat × BitVec 4) (g : LaneEnv → Fibre → Nat → Nat → Nat → Option Nat × Flags)
    (s : State) (e : LaneEnv) (f : Fibre) : LaneAct × State :=
  match addrValue seg a f .rmw with
  | .error st => (.stop st, s)
  | .ok v =>
    match locate s e.warp f.tid.toNat seg v 0 n .rmw false with
    | (.error st, s) => (.stop st, s)
    | (.ok p, s) =>
      let (vs, ev0) := vals p f
      match performAtomic s w p n p.va fmt vs (g e f) with
      | (.error st, s) => (.stop st, s)
      | (.ok (olds, fp, ev), s) =>
        let s := addLoad s w (some f.slot) (regWrites d.toNat (if n = 8 then 2 else 1) olds)
        let s := acquireFor s e.warp.core f (if acquires o then some sc else none)
        ({ LaneAct.ok e f f.lanes with fp := fp, num := ev ||| ev0 }, s)

def execAtom (x : Lx) (op : AtomOp) (ty : AtomTy) (o : MemOrd) (sc : Scope) (seg : Seg) (d a b : Reg) (s : State) :
    Host.Outcome State Fault Refusal :=
  laneFold (.atom x op ty o sc seg d a b) x true [atomUse ty d, addrUse seg a, atomUse ty b]
    (laneAtomic (curWarp s) (atomSize ty) (atomFmt ty) o sc seg d a (fun _ f => (f.vals (atomData ty b), 0))
      fun e f j old v =>
        let r := atomResult op ty old v (e.mode false) ((e.rounding f).drawOf e.seed j)
        (some r.1, r.2)) s

/-- The compared and new values of `atomc` for a place: combined each by itself unless the place is TRIPLE (R108). -/
def atomcVals (n : Nat) (gb gc : Lane → Nat) (p : Place) (f : Fibre) : List Nat × BitVec 4 :=
  let pair : Nat → Nat → Nat := fun b c => b + c * 2 ^ (8 * n)
  if p.sib = .triple then (f.lanes.map fun l => pair (gb l) (gc l), 0)
  else
    let rb := combine none (f.vals gb)
    let rc := combine none (f.vals gc)
    ([pair rb.1 rc.1], rb.2.2 ||| rc.2.2)

def execAtomc (x : Lx) (w : Bool) (o : MemOrd) (sc : Scope) (seg : Seg) (d a b c : Reg) (s : State) :
    Host.Outcome State Fault Refusal :=
  let n := if w then 8 else 4
  laneFold (.atomc x w o sc seg d a b c) x true [byW w d, addrUse seg a, byW w b, byW w c]
    (laneAtomic (curWarp s) n none o sc seg d a (atomcVals n (·.val w b.toNat) (·.val w c.toNat))
      fun _ _ _ old v => (if old = v % 2 ^ (8 * n) then some (v / 2 ^ (8 * n)) else none, 0)) s

/-- One fibre's reduction (R259): performed when its turn comes in the store queue or stage. -/
def laneRed (w : Nat) (pc : VAddr) (op : AtomOp) (ty : AtomTy) (o : MemOrd) (sc : Scope) (seg : Seg) (a b : Reg)
    (s : State) (e : LaneEnv) (f : Fibre) : LaneAct × State :=
  match addrValue seg a f .rmw with
  | .error st => (.stop st, s)
  | .ok v =>
    match locate s e.warp f.tid.toNat seg v 0 (atomSize ty) .rmw false with
    | (.error st, s) => (.stop st, s)
    | (.ok p, s) =>
      let vs := f.vals (atomData ty b)
      let ev := if p.sib = .triple then 0 else (combine (atomFmt ty) vs).2.2
      let r : RedOp := ⟨op, ty, vs.map (BitVec.ofNat 64), e.rounding f⟩
      let q : StoreOp := ⟨p, atomSize ty, [], some r, sc, o == .rel, pc, e.lead, 0, 0, trapEvents s e.warp ev⟩
      match issueStore s w q p.va s.next f.tid.toNat with
      | .error st => (.stop st, s)
      | .ok s => ({ LaneAct.ok e f f.lanes with num := trapEvents s e.warp ev }, commitBlock s e.warp)

def execRed (x : Lx) (op : AtomOp) (ty : AtomTy) (o : MemOrd) (sc : Scope) (seg : Seg) (a b : Reg) (s : State) :
    Host.Outcome State Fault Refusal :=
  laneFold (.red x op ty o sc seg a b) x true [addrUse seg a, atomUse ty b]
    (laneRed (curWarp s) (curPc s) op ty o sc seg a b) s

/-! ### The range scoreboard (R169) -/

/-- Entries of a core's scoreboard. -/
def boardSize : Nat := 64

/-- Put a run among others, one with those that it overlaps or adjoins. -/
def addRun (lo hi : Nat) : List (Nat × Nat) → List (Nat × Nat)
  | [] => [(lo, hi)]
  | x :: t => if lo ≤ x.2 && x.1 ≤ hi then addRun (min lo x.1) (max hi x.2) t else x :: addRun lo hi t
/-- An entry for a range of a window, given as runs, rounded outward to 64-byte granules. -/
def boardEntry (blk : Nat) (runs : List (Nat × Nat)) (dest : Bool) (owner : PieceSrc) : Board :=
  ⟨blk, runs.foldl (fun a r => addRun (r.1 / 64 * 64) ((r.2 + 63) / 64 * 64) a) [], dest, owner⟩
/-- Whether two entries overlap or adjoin. -/
def Board.adjoins (x e : Board) : Bool := x.runs.any fun r => e.runs.any fun q => decide (r.1 ≤ q.2) && decide (q.1 ≤ r.2)
/-- Add an entry, shared with those of the same copy that it overlaps or adjoins. -/
def joinEntry (e : Board) : List Board → List Board
  | [] => [e]
  | x :: t =>
    if x.owner = e.owner && x.blk = e.blk && x.adjoins e then
      joinEntry { e with runs := x.runs.foldl (fun a r => addRun r.1 r.2 a) e.runs, dest := x.dest || e.dest } t
    else x :: joinEntry e t
/-- Record a range, where the scoreboard of the window's core has room. -/
def recordRange (s : State) (e : Board) : Option State :=
  let c := (s.blk e.blk).core
  let b := joinEntry e (s.core c).board
  if boardSize < b.length then none else some (s.modCore c fun C => { C with board := b })
/-- Record several ranges: all or none. -/
def recordRanges (s : State) : List Board → Option State
  | [] => some s
  | e :: t => match recordRange s e with | none => none | some s => recordRanges s t

/-- Whether a warp may issue copy commands (R33, R45). -/
def mayCopy (s : State) (W : Warp) : Bool :=
  W.blk.isSome && ((s.launch W.launch).lrec.roles == [] || W.kind == 1 || W.kind == 3)

/-- Perform the warp's earlier stores, which a copy must see (R164): false when they are held. -/
def flushed (s : State) (w : Nat) : Bool × State :=
  let s := drainAll s w
  ((s.warp w).storeQ == [], s)
/-- Release a warp's earlier stores at a scope (R152): the wait, where they are held, or, beyond the core, cannot reach their home
L2s (R396). -/
def releaseAt (s : State) (w : Nat) (sc : Scope) : Except WaitFor State :=
  match flushed s w with
  | (false, _) => .error .stores
  | (true, t) => if atHome t (t.warp w).core sc && stuckHome t (t.warp w).core then .error .link else .ok t

/-- The source and destination of one fibre's `cpa`, in the order of R467: segments, alignments, the debug right, and then
the two accesses. -/
def cpaPlaces (s : State) (W : Warp) (tid : Nat) (seg dseg : Seg) (v dv : Nat) : Except Stop (Place × Place) × State :=
  match effAddr s W tid seg v 0 16 .read, effAddr s W tid dseg dv 0 16 .write with
  | .error st, _ => (.error st, s)
  | _, .error st => (.error st, s)
  | .ok a, .ok b =>
    match alignCheck a 16 .read, alignCheck b 16 .write, debugCheck s W seg a .read with
    | .error st, _, _ => (.error st, s)
    | _, .error st, _ => (.error st, s)
    | _, _, .error st => (.error st, s)
    | .ok (), .ok (), .ok () =>
      match access s W seg a 16 .read false with
      | (.error st, s) => (.error st, s)
      | (.ok src, s) =>
        match access s W dseg b 16 .write false with
        | (.error st, s) => (.error st, s)
        | (.ok dst, s) => (.ok (src, dst), s)
/-- The tracked read of a `cpa`'s source (R386, R392): none for a hazard. -/
def cpaTrack (s : State) (W : Warp) (src : Place) : Option State :=
  let b := W.blk.getD 0
  if src.tracked then hallRead s W.launch (s.blk b).lin (isHead s b) (placeLines src 16) else some s

/-- One fibre of `cpa` (R261): its ranges recorded and its piece in flight. Entries of the same instruction hold it back
from nothing: they are shared (R169). -/
def cpaFibre (s : State) (e : LaneEnv) (c : Issue) (id : Nat) (seg : Seg) (dclus : Bool) (bar : Option (BitVec 4))
    (d a : Reg) (f : Fibre) : Except Stop Unit × State :=
  match addrValue seg a f .read, oneValue f (·.reg d.toNat) .write with
  | .error st, _ => (.error st, s)
  | _, .error st => (.error st, s)
  | .ok v, .ok dv =>
    match cpaPlaces s e.warp f.tid.toNat seg (if dclus then .clus else .loc) v dv with
    | (.error st, s) => (.error st, s)
    | (.ok (src, dst), s) =>
      let own : PieceSrc := .cpa c.warp id
      if boardHitBut s (some own) src 16 false then (.error (.wait (boardWait src 16)), s)
      else if boardHitBut s (some own) dst 16 true then (.error (.wait (boardWait dst 16)), s)
      else
        let ranges := (match src.sram with | some b => [boardEntry b [(src.off, src.off + 16)] false own] | none => [])
          ++ (match dst.sram with | some b => [boardEntry b [(dst.off, dst.off + 16)] true own] | none => [])
        match cpaTrack s e.warp src, recordRanges s ranges with
        | none, _ => (.error (.cause ⟨codeOrderHazard, src.va, .read⟩), s)
        | _, none => (.error (.wait .boardRoom), s)
        | some _, some s =>
          let s := (cpaTrack s e.warp src).getD s
          let s := s.modWarp c.warp fun W =>
            { W with cpas := W.cpas ++ [⟨id, src, dst, bar.map (·.toNat), e.warp.blk.getD 0, c.pc, e.lead⟩] }
          (.ok (), commitBlock s e.warp)

/-- `cpa` for fibres in ascending slot order: one that the scoreboard has no room for holds back those after it. -/
def cpaFibres (one : State → Fibre → Except Stop Unit × State) : List Fibre → State → Bool →
    List (Fibre × Option Stop) × State
  | [], s, _ => ([], s)
  | f :: t, s, full =>
    let recorded := match f.status with | .waiting w => (match w.why with | .recorded _ => true | _ => false) | _ => false
    if recorded then
      let (rs, s) := cpaFibres one t s full
      ((f, none) :: rs, s)
    else if full then
      let (rs, s) := cpaFibres one t s true
      ((f, some (.wait .boardRoom)) :: rs, s)
    else
      match one s f with
      | (.ok (), s) => let (rs, s) := cpaFibres one t s false; ((f, none) :: rs, s)
      | (.error st, s) => let (rs, s) := cpaFibres one t s (st == .wait .boardRoom); ((f, some st) :: rs, s)

/-- The number of a `cpa` that goes on after a wait, or a new one. -/
def cpaId (s : State) (fs : List Fibre) : Nat :=
  (fs.findSome? fun f => match f.status with
    | .waiting w => (match w.why with | .recorded id => some id | _ => none)
    | _ => none).getD s.next

def execCpa (x : Lx) (sc : Scope) (seg : Seg) (dclus : Bool) (bar : Option (BitVec 4)) (d a : Reg) (s : State) :
    Host.Outcome State Fault Refusal :=
  laneOnce (.cpa x sc seg dclus bar d a) x [one d, addrUse seg a] (fun s e c _ fs =>
    if !mayCopy s e.warp then (fs.map (stopRes (.cause ⟨codeIllegalOperand, 0, .read⟩)), s)
    else
      match flushed s c.warp with
      | (false, s) => (fs.map (stopRes (.wait .stores)), s)
      | (true, s) =>
        let id := cpaId s fs
        let (rs, s) := cpaFibres (fun s f => cpaFibre s e c id seg dclus bar d a f) fs s false
        let full := rs.any fun r => r.2 == some (.wait .boardRoom)
        (rs.map fun (f, o) =>
          match o with
          | some st => stopRes st f
          | none => if full then stopRes (.wait (.recorded id)) f else doneRes e f f.lanes, s)) s

/-! ### Bulk copies (R262) -/

/-- Segment of a three-bit code, for the segments that a copy record may name (R263). -/
def copySeg (n : Nat) : Option Seg :=
  if n = 0 then some .glob else if n = 1 then some .loc else if n = 2 then some .clus else none

/-- A layout record as it stands when a copy that names it is issued, for the ranges of the copy (log 22). -/
def layoutNow (s : State) (W : Warp) (addr : Nat) : Option Layout :=
  match locatePieces s W 0 .glob addr 64 64 .read with
  | (.error _, _) => none
  | (.ok (_, ps), s) => Layout.parse false (ps.flatMap fun p =>
      overlay (ownStores s W []) p.sram (p.data 16 0) (freshBytes s p (p.data 16 0) 16))
/-- The offsets that one side of a copy record reaches, in its segment: one range, or one for each row of a tensor. -/
def copySpans (addr len : Nat) (lay : Option Layout) : List (Int × Int) :=
  match lay with
  | none => [((addr : Int), ((addr + len : Nat) : Int))]
  | some l => l.rows.map fun r => ((addr + l.base : Nat) + r.1, (addr + l.base : Nat) + r.2)
/-- The entries of a window for a side of a copy record, one for each of its ranges there; d is the window's own offset in the
segment. -/
def windowEntry (s : State) (m : Nat) (d : Int) (spans : List (Int × Int)) (dest : Bool) (own : PieceSrc) : List Board :=
  (spans.filterMap fun r => windowRun (s.blk m) (r.1 - d) (r.2 - d)).map fun r => boardEntry m [r] dest own
/-- The window ranges of one side of a copy record: the block's own window, members', or those of a multicast. -/
def copyRanges (s : State) (b : Nat) (seg : Option Seg) (spans : List (Int × Int)) (mask : Option Nat) (dest : Bool)
    (own : PieceSrc) : List Board :=
  let B := s.blk b
  let member : Nat → Int → List Board := fun i d => match teamMember s B.launch B.team i with
    | some m => windowEntry s m d spans dest own
    | none => []
  match seg, mask with
  | some .loc, none => windowEntry s b 0 spans dest own
  | some .loc, some k => (List.range B.teamSize).flatMap fun i => if k.testBit i then member i 0 else []
  | some .clus, _ => (List.range B.teamSize).flatMap fun (i : Nat) =>
      if spans.any fun r => decide (r.1 / 2 ^ 20 = (i : Int)) then member i ((i * 2 ^ 20 : Nat) : Int) else []
  | _, _ => []

/-- Put an entry with those of its window and side. -/
def joinWindow (e : Board) : List Board → List Board
  | [] => [e]
  | x :: t =>
    if x.blk = e.blk && x.dest == e.dest then { x with runs := e.runs.foldl (fun a r => addRun r.1 r.2 a) x.runs } :: t
    else x :: joinWindow e t
/-- The entries of one copy: a window in which it has more ranges than a scoreboard has entries, for which it would wait for
ever, takes one for each side of the copy (log 22). -/
def fitBoards (es : List Board) : List Board :=
  let es := es.foldl (fun a e => joinEntry e a) []
  es.foldl (fun a e => if boardSize < (es.filter fun x => x.blk == e.blk).length then joinWindow e a else a ++ [e]) []
/-- Ranges of a copy record of a warp in local windows; a record whose layouts cannot be read is taken to reach whole
windows (log 22). -/
def recordBoards (s : State) (W : Warp) (b : Nat) (bs : List Byte) (own : PieceSrc) : List Board :=
  let flags := field bs 0x14 2
  let len := field bs 0x10 4
  let side : Nat → Nat → List (Int × Int) := fun lay addr =>
    if field bs 0x20 8 = 0 && field bs 0x28 8 = 0 then copySpans addr len none
    else match layoutNow s W lay with
      | some l => copySpans addr 0 (some l)
      | none => [(0, 2 ^ 20)]
  copyRanges s b (copySeg (flags % 8)) (side (field bs 0x20 8) (field bs 0 8)) none false own
  ++ copyRanges s b (copySeg (flags / 8 % 8)) (side (field bs 0x28 8) (field bs 8 8))
      (if flags.testBit 7 then some (field bs 0x16 1) else none) true own

/-- Queue a command with a block's Carter context (R165, R262): its number. -/
def queueCopy (s : State) (b : Nat) (bs : List Byte) (ea : Nat) (pc : VAddr) (w slot : Nat) : Nat × State :=
  let n := (s.blk b).carter.issued + 1
  (n, (s.modBlk b fun B => { B with carter := { B.carter with
      issued := n
      cmds := B.carter.cmds ++ [⟨n, bs, ea, pc, w, (s.warp w).segs, slot, none, false, [], [], [], 0, none⟩] } }).modWarp w fun W =>
    { W with copies := W.copies ++ [n] })

def execTcopy (x : Lx) (sc : Scope) (seg : Seg) (d a : Reg) (s : State) : Host.Outcome State Fault Refusal :=
  laneOnce (.tcopy x sc seg d a) x [two d, addrUse seg a] (fun s e c lead fs =>
    let others := (fs.filter fun f => f.slot != lead.slot).map fun f => doneRes e f f.lanes
    let all : Stop → List FibreRes := fun st =>
      match st with
      | .wait _ => fs.map (stopRes st)
      | .cause _ => stopRes st lead :: others
    if !mayCopy s e.warp then (all (.cause ⟨codeIllegalOperand, 0, .read⟩), s)
    else
      match addrValue seg a lead .read with
      | .error st => (all st, s)
      | .ok v =>
        match locatePieces s e.warp lead.tid.toNat seg v 64 16 .read with
        | (.error st, s) => (all st, s)
        | (.ok (ea, ps), s) =>
          match flushed s c.warp with
          | (false, s) => (all (.wait .stores), s)
          | (true, s) =>
            match loadShared s c.warp [lead] ea ps with
            | (.error st, s) => (all st, s)
            | (.ok bs, s) =>
              let b := e.warp.blk.getD 0
              match recordRanges s (fitBoards (recordBoards s e.warp b bs (.carter b ((s.blk b).carter.issued + 1) 0))) with
              | none => (all (.wait .boardRoom), s)
              | some s =>
                let (n, s) := queueCopy s b bs ea c.pc c.warp lead.slot
                (doneRes e lead (mapLanes lead fun _ l => l.setPair d.toNat n) :: others, commitBlock s e.warp)) s

/-! ### Prefetch (R264) -/

/-- Walkers of a die (Table 5-10). -/
def walkerCount : Nat := 64
/-- A core asks for a walk: one that has begun for its page answers it too, and without a walker free a hint is dropped
(R136, R264). -/
def askWalk (s : State) (core c va : Nat) : State :=
  let d := dieOf core
  let same : Walk → Bool := fun k => k.die == d && k.ctx == c && k.va / 65536 == va / 65536
  if s.walks.any same then
    { s with walks := s.walks.map fun k => if same k then { k with cores := insertNat k.cores core } else k }
  else if walkerCount ≤ (s.walks.filter fun k => k.die == d).length then s
  else { s with walks := s.walks ++ [⟨d, c, va, [core]⟩] }
/-- One fibre's hint: a walk may begin, and nothing else; a prefetch that would fault is dropped. -/
def lanePref (seg : Seg) (a : Reg) (s : State) (e : LaneEnv) (f : Fibre) : LaneAct × State :=
  let done := LaneAct.ok e f f.lanes
  match addrValue seg a f .read with
  | .error _ => (done, s)
  | .ok v =>
    match effAddr s e.warp f.tid.toNat seg v 0 1 .read with
    | .ok (.virt va) =>
      let k := e.warp.core
      if cachedFor s (.core k) e.warp.ctx va = [] then (done, askWalk s k e.warp.ctx va) else (done, s)
    | _ => (done, s)

def execPref (x : Lx) (sc : Scope) (seg : Seg) (lv : PrefLevel) (a : Reg) (s : State) :
    Host.Outcome State Fault Refusal :=
  laneFold (.pref x sc seg lv a) x false [addrUse seg a] (lanePref seg a) s

/-! ### Futures (R265) -/


/-- One fibre's `ldf`. -/
def laneLdf (w : Nat) (sc : Scope) (seg : Seg) (d a : Reg) (s : State) (e : LaneEnv) (f : Fibre) : LaneAct × State :=
  match addrValue seg a f .read with
  | .error st => (.stop st, s)
  | .ok v =>
    match locate s e.warp f.tid.toNat seg v 0 8 .read true with
    | (.error st, s) => (.stop st, s)
    | (.ok p, s) =>
      match loadElem s w false p 8 p.va with
      | (.error st, s) => (.stop st, s)
      | (.ok el, s) =>
        let v := el.copies.headD 0
        if v < 2 ^ 63 then (.stop (.cause ⟨codeFutureEmpty, p.va, .read⟩), s)
        else (LaneAct.ok e f (mapLanes f fun _ l => l.setPair d.toNat (v - 2 ^ 63)), acquire s e.warp.core sc)

def execLdf (x : Lx) (sc : Scope) (seg : Seg) (d a : Reg) (s : State) : Host.Outcome State Fault Refusal :=
  laneFold (.ldf x sc seg d a) x false [two d, addrUse seg a] (laneLdf (curWarp s) sc seg d a) s

/-- One fibre's `stf`. -/
def laneStf (w : Nat) (pc : VAddr) (sc : Scope) (seg : Seg) (a b : Reg) (s : State) (e : LaneEnv) (f : Fibre) :
    LaneAct × State :=
  match addrValue seg a f .write with
  | .error st => (.stop st, s)
  | .ok v =>
    match locate s e.warp f.tid.toNat seg v 0 8 .write true with
    | (.error st, s) => (.stop st, s)
    | (.ok p, s) =>
      let r := combine none (f.vals (·.pair b.toNat))
      let op : StoreOp := { plainStore p (leBytes 8 (r.1 % 2 ^ 63 + 2 ^ 63)) pc e.lead with
        scope := sc, release := true, num := r.2.2, raised := trapEvents s e.warp r.2.2 }
      match issueStore s w op p.va s.next f.tid.toNat with
      | .error st => (.stop st, s)
      | .ok s => ({ LaneAct.ok e f f.lanes with num := trapEvents s e.warp r.2.2 }, commitBlock s e.warp)

def execStf (x : Lx) (sc : Scope) (seg : Seg) (a b : Reg) (s : State) : Host.Outcome State Fault Refusal :=
  laneFold (.stf x sc seg a b) x true [addrUse seg a, two b] (laneStf (curWarp s) (curPc s) sc seg a b) s

/-! ### Monitors (R266) -/

def execMwatch (x : Lx) (sc : Scope) (seg : Seg) (a : Reg) (s : State) : Host.Outcome State Fault Refusal :=
  laneOnce (.mwatch x sc seg a) x [addrUse seg a] (fun s e c lead fs =>
    let others := (fs.filter fun f => f.slot != lead.slot).map fun f => doneRes e f f.lanes
    let all : Stop → List FibreRes := fun st =>
      match st with
      | .wait _ => fs.map (stopRes st)
      | .cause _ => stopRes st lead :: others
    match addrValue seg a lead .read with
    | .error st => (all st, s)
    | .ok v =>
      match locate s e.warp lead.tid.toNat seg v 0 8 .read false with
      | (.error st, s) => (all st, s)
      | (.ok p, s) =>
        match linkCheck s p 8 .read with
        | (some k, s) => (all (.cause k), s)
        | (none, s) =>
          (fs.map fun f => doneRes e f f.lanes,
            s.modWarp c.warp fun W => { W with monitor := some ⟨p.sram, p.data 8 0, false, false, false⟩ })) s

/-- The code with which `mwait` returns, if it does (Table 10-6). -/
def monitorCode : Option Monitor → Option Nat
  | none => some 3
  | some m => if m.woken then some 0 else if m.moved then some 1 else if m.expired then some 2 else none

def execMwait (x : Lx) (sc : Scope) (seg : Seg) (d b : Reg) (s : State) : Host.Outcome State Fault Refusal :=
  laneOnce (.mwait x sc seg d b) x [one d, one b] (fun s e c lead fs =>
    match oneValue lead (·.reg b.toNat) .read with
    | .error st => (stopRes st lead :: ((fs.filter fun f => f.slot != lead.slot).map fun f => doneRes e f f.lanes), s)
    | .ok v =>
      match monitorCode e.warp.monitor with
      | some k =>
        (fs.map fun f => doneRes e f (mapLanes f fun _ l => l.setReg d.toNat k),
          s.modWarp c.warp fun W => { W with monitor := none })
      | none =>
        let limit := match lead.status with
          | .waiting w => (match w.why with | .monitor k => k | _ => 0)
          | _ => s.clock e.warp.core + (if v = 0 then 1048576 else v)
        (fs.map (stopRes (.wait (.monitor limit))), s)) s

/-! ### Fences (R267) -/

/-- Whether an ordering releases. -/
def releases : MemOrd → Bool
  | .rel | .ar | .sc => true
  | .rlx | .acq => false
/-- Whether a fence waits until the warp's stores are performed (R155): `.sc` always, and one that releases beyond the core
so that no later store is ahead of them. -/
def fenceDrains (s : State) (core : Nat) (o : MemOrd) (sc : Scope) : Bool := o == .sc || (releases o && atHome s core sc)
/-- A fibre after an acquire fence of a scope (R155). -/
def Fibre.fence (f : Fibre) (o : MemOrd) (sc : Scope) : Fibre :=
  if acquires o then { f with fenced := max f.fenced (scopeCode sc) } else f

def execFence (x : Lx) (o : MemOrd) (sc : Scope) (s : State) : Host.Outcome State Fault Refusal :=
  laneOnce (.fence x o sc) x [] (fun s e c _ fs =>
    let done := fs.map fun f => doneRes e (f.fence o sc) f.lanes
    match (if fenceDrains s e.warp.core o sc then releaseAt s c.warp sc else .ok s) with
    | .error why => (fs.map (stopRes (.wait why)), s)
    | .ok s => (done, if acquires o then acquire s e.warp.core sc else s)) s

end Sys2Proof.Machine
end

