-- ==== Sys2Proof/Machine/Uniform.lean ====
section
/-! DEFINITION. How a uniform instruction executes (R284 to R288), its operands and queue ports (R36 to R38), scalar
arithmetic (R289 to R292), uniform memory (R293, R294), lane reads (R295) and branches (R296). -/
namespace Sys2Proof.Machine

/-! ### The common form -/

/-- A use of n uniform registers; a use of one register may allow a queue port (R286). -/
structure UniUse where
  start : Nat
  n : Nat
  port : Bool
deriving DecidableEq, Repr

/-- A register or a pair, never a port. -/
def plainUse (w : Bool) (r : Reg) : UniUse := ⟨r.toNat, if w then 2 else 1, false⟩
/-- A register that may be a port, or a pair. -/
def portUse (w : Bool) (r : Reg) : UniUse := ⟨r.toNat, if w then 2 else 1, !w⟩
/-- Whether a use is allowed: alignment, and registers 60 to 63 only as ports of a block's warp (R286, log 26). -/
def UniUse.ok (W : Warp) (u : UniUse) : Bool :=
  decide (u.start % u.n = 0) && (decide (u.start + u.n ≤ 60) || (u.port && W.blk.isSome))

/-- The result of a uniform instruction for its group: the next PC, or what stops it, with flags and events. -/
structure UniRes where
  fin : Except Stop VAddr
  fp : Flags
  num : BitVec 4

/-- Complete and go on. -/
def UniRes.go (pc : VAddr) : UniRes := ⟨.ok pc, 0, 0⟩
/-- Stop. -/
def UniRes.halt (e : Stop) : UniRes := ⟨.error e, 0, 0⟩
/-- Stop with a condition of no address. -/
def UniRes.trap (code addr : Nat) : UniRes := .halt (.cause ⟨code, addr, .read⟩)

/-- The fibres for which a uniform instruction acts (R288): those that are not parked and have not exited. -/
def standing (W : Warp) : List Fibre :=
  W.fibres.filter fun f => match f.status with
    | .ready | .waiting _ => true
    | _ => false

/-- The result of every fibre of the group (R287). -/
def uniResults (fs : List Fibre) (r : UniRes) : List FibreRes :=
  fs.map fun f =>
    match r.fin with
    | .ok pc => ⟨f.slot, .done { f with pc := pc }, r.fp, r.num⟩
    | .error e => ⟨f.slot, .stop e, 0, 0⟩

/-- Whether a group may issue a uniform instruction: no handler runs, or it is the running handler (R459). -/
def handlerFree (W : Warp) (fs : List Fibre) : Bool :=
  match W.handlers with
  | [] => true
  | h :: _ => fs.all fun f => f.frag == h.id

/-- Fibres outside the running handler wait at a uniform instruction; those of the handler among them issue it next
(R459). -/
def handlerWait (s : State) (i : Instr) (c : Issue) (W : Warp) (fs : List Fibre) : State :=
  finish s i c (uniResults (fs.filter fun f => !handlerFree W [f]) (.halt (.wait .handlerDone)))

/-- The runs of registers of some uniform uses. -/
def uniSpans (us : List UniUse) : List (Nat × Nat) := us.map fun u => (u.start, u.n)

/-- A uniform instruction: its operands, which loads in flight write first (R255), then its act (R287). -/
def uniform (i : Instr) (us : List UniUse) (act : State → Issue → Warp → UniRes × State) (s : State) :
    Host.Outcome State Fault Refusal :=
  match s.cur with
  | none => .fault .noIssuer
  | some c =>
    let W := s.warp c.warp
    let fs := groupOf W c
    if !handlerFree W fs then .next (handlerWait s i c W fs)
    else if !us.all (UniUse.ok W) then .next (finish s i c (uniResults fs (.trap codeIllegalOperand 0)))
    else .next (afterLoads i c [] (uniSpans us) s fun s =>
      let (r, s) := act s c (s.warp c.warp)
      finish s i c (uniResults (groupOf (s.warp c.warp) c) r))

/-- Since when the group has waited; a group that has not, waits from now. -/
def waitingSince (s : State) (c : Issue) : Nat :=
  (((groupOf (s.warp c.warp) c).findSome? fun f => match f.status with | .waiting w => some w.since | _ => none)).getD
    s.next

/-! ### Stage rings (R36 to R38) -/

/-- Tokens in a ring. -/
def Ring.count (r : Ring) : Nat := (r.wr - r.rd).toNat
/-- A ring when its block starts. -/
def Ring.empty : Ring := ⟨[], 0, 0, 0⟩
/-- The token at the read pointer. -/
def Ring.head (r : Ring) : Nat := (Tab.read (0 : Word) r.tokens (r.rd.toNat % 16)).toNat
/-- Take the token at the read pointer. -/
def Ring.pop (r : Ring) : Ring := { r with rd := r.rd + 1 }
/-- Write a token: the slot's phase bit turns. -/
def Ring.push (r : Ring) (v : Nat) : Ring :=
  let i := r.wr.toNat % 16
  { r with tokens := Tab.write (0 : Word) r.tokens i (BitVec.ofNat 32 v), phases := r.phases ^^^ (1#16 <<< i), wr := r.wr + 1 }

/-- Whether a group of the block has waited longer for the same thing (R35, R38). -/
def olderWaits (s : State) (b since : Nat) (same : WaitFor → Bool) : Bool :=
  s.warps.any fun e => e.2.blk == some b && e.2.fibres.any fun f =>
    match f.status with
    | .waiting w => same w.why && decide (w.since < since)
    | _ => false

/-- A ring of a block. -/
def ringAt (s : State) (b q : Nat) : Ring := (s.blk b).rings.getD q Ring.empty
/-- Change a ring. -/
def modRing (s : State) (b q : Nat) (f : Ring → Ring) : State :=
  s.modBlk b fun B => { B with rings := modAt B.rings q f }

/-- Read a source: a register, or a token that is popped (R37); an error names the empty ring. -/
def readSource (s : State) (c : Issue) (b : Nat) (since : Nat) (w : Bool) (r : Reg) : Except Nat Nat × State :=
  if w || r.toNat < 60 then (.ok ((s.warp c.warp).sval w r.toNat), s)
  else
    let q := r.toNat - 60
    let R := ringAt s b q
    if R.count = 0 || olderWaits s b since (· == .ringToken q) then (.error q, s)
    else (.ok R.head, modRing s b q Ring.pop)
/-- Read sources in order: all, or none is popped. -/
def readSources (s : State) (c : Issue) (b since : Nat) (w : Bool) : List Reg → Except Nat (List Nat) × State
  | [] => (.ok [], s)
  | r :: t =>
    match readSource s c b since w r with
    | (.error q, s) => (.error q, s)
    | (.ok v, s) =>
      match readSources s c b since w t with
      | (.error q, s) => (.error q, s)
      | (.ok vs, s) => (.ok (v :: vs), s)

/-- Write a register destination, or push a token with release at block scope (R37). -/
def writeDest (s : State) (c : Issue) (b since : Nat) (w : Bool) (d : Reg) (v : Nat) : Except WaitFor State :=
  if w || d.toNat < 60 then .ok (s.modWarp c.warp fun W => W.setSval w d.toNat v)
  else
    let q := d.toNat - 60
    if 16 ≤ (ringAt s b q).count || olderWaits s b since (· == .ringRoom q) then .error (.ringRoom q)
    else
      match flushed s c.warp with
      | (false, _) => .error .stores
      | (true, s) => .ok (modRing s b q (·.push v))

/-- A scalar instruction with sources and a destination that may be queue ports. -/
def scalar (i : Instr) (w : Bool) (d : Reg) (srcs : List Reg) (f : Warp → List Nat → Nat) (s : State) :
    Host.Outcome State Fault Refusal :=
  uniform i (portUse w d :: srcs.map (portUse w)) (fun s c W =>
    let b := W.blk.getD 0
    let since := waitingSince s c
    match readSources s c b since w srcs with
    | (.error q, _) => (.halt (.wait (.ringToken q)), s)
    | (.ok vs, t) =>
      match writeDest t c b since w d (f W vs) with
      | .error why => (.halt (.wait why), s)
      | .ok t => (.go (nextPc c), t)) s

/-- A scalar operation of two sources. -/
def scalar2 (i : Instr) (w : Bool) (d a b : Reg) (f : Nat → Nat → Nat) (s : State) :
    Host.Outcome State Fault Refusal :=
  scalar i w d [a, b] (fun _ vs => f (vs.getD 0 0) (vs.getD 1 0)) s

/-! ### Arithmetic and constants (R289, R290) -/

def execSadd (e w : Bool) (d a b : Reg) (s : State) : Host.Outcome State Fault Refusal :=
  scalar2 (.sadd e w d a b) w d a b (fun x y => wrap (widthOf w) (x + y)) s
def execSsub (e w : Bool) (d a b : Reg) (s : State) : Host.Outcome State Fault Refusal :=
  scalar2 (.ssub e w d a b) w d a b (fun x y => wrapInt (widthOf w) ((x : Int) - y)) s
def execSmul (e w : Bool) (d a b : Reg) (s : State) : Host.Outcome State Fault Refusal :=
  scalar2 (.smul e w d a b) w d a b (fun x y => wrap (widthOf w) (x * y)) s
def execSmulhi (e sg w : Bool) (d a b : Reg) (s : State) : Host.Outcome State Fault Refusal :=
  scalar2 (.smulhi e sg w d a b) w d a b (mulHigh sg (widthOf w)) s
def execSand (e w : Bool) (d a b : Reg) (s : State) : Host.Outcome State Fault Refusal :=
  scalar2 (.sand e w d a b) w d a b (fun x y => x &&& y) s
def execSor (e w : Bool) (d a b : Reg) (s : State) : Host.Outcome State Fault Refusal :=
  scalar2 (.sor e w d a b) w d a b (fun x y => x ||| y) s
def execSxor (e w : Bool) (d a b : Reg) (s : State) : Host.Outcome State Fault Refusal :=
  scalar2 (.sxor e w d a b) w d a b (fun x y => x ^^^ y) s

/-- A scalar shift: the amount is a register's value or the field itself (R207, R289). -/
def scalarShift (i : Instr) (k : Shift) (imm w : Bool) (d a b : Reg) (s : State) : Host.Outcome State Fault Refusal :=
  if imm then scalar i w d [a] (fun _ vs => shiftOp k (widthOf w) (vs.getD 0 0) b.toNat) s
  else
    uniform i [portUse w d, portUse w a, portUse false b] (fun s c W =>
      let blk := W.blk.getD 0
      let since := waitingSince s c
      match readSource s c blk since w a with
      | (.error q, _) => (.halt (.wait (.ringToken q)), s)
      | (.ok x, t) =>
        match readSource t c blk since false b with
        | (.error q, _) => (.halt (.wait (.ringToken q)), s)
        | (.ok n, t) =>
          match writeDest t c blk since w d (shiftOp k (widthOf w) x n) with
          | .error why => (.halt (.wait why), s)
          | .ok t => (.go (nextPc c), t)) s

def execSshl (e imm w : Bool) (d a b : Reg) (s : State) : Host.Outcome State Fault Refusal :=
  scalarShift (.sshl e imm w d a b) .shl imm w d a b s
def execSshr (e imm w : Bool) (d a b : Reg) (s : State) : Host.Outcome State Fault Refusal :=
  scalarShift (.sshr e imm w d a b) .shr imm w d a b s
def execSsar (e imm w : Bool) (d a b : Reg) (s : State) : Host.Outcome State Fault Refusal :=
  scalarShift (.ssar e imm w d a b) .sar imm w d a b s

def execSmin (e sg w : Bool) (d a b : Reg) (s : State) : Host.Outcome State Fault Refusal :=
  scalar2 (.smin e sg w d a b) w d a b (minMax false sg (widthOf w)) s
def execSmax (e sg w : Bool) (d a b : Reg) (s : State) : Host.Outcome State Fault Refusal :=
  scalar2 (.smax e sg w d a b) w d a b (minMax true sg (widthOf w)) s
def execSmov (e w : Bool) (d a : Reg) (s : State) : Host.Outcome State Fault Refusal :=
  scalar (.smov e w d a) w d [a] (fun _ vs => vs.getD 0 0) s
def execSimm (e : Bool) (d : Reg) (v : BitVec 18) (s : State) : Host.Outcome State Fault Refusal :=
  scalar (.simm e d v) false d [] (fun _ _ => wrapInt 32 v.toInt) s
def execSimmh (e : Bool) (d : Reg) (v : BitVec 16) (s : State) : Host.Outcome State Fault Refusal :=
  uniform (.simmh e d v) [plainUse false d] (fun s c W =>
    (.go (nextPc c), s.setWarp c.warp (W.setSreg d.toNat (v.toNat * 65536 + W.sreg d.toNat % 65536)))) s

/-! ### Comparison and selection (R291, R292) -/

def execScmp (e : Bool) (cn : Cond) (sg w : Bool) (cd : Pred) (a b : Reg) (s : State) :
    Host.Outcome State Fault Refusal :=
  uniform (.scmp e cn sg w cd a b) [portUse w a, portUse w b] (fun s c W =>
    match readSources s c (W.blk.getD 0) (waitingSince s c) w [a, b] with
    | (.error q, _) => (.halt (.wait (.ringToken q)), s)
    | (.ok vs, t) =>
      (.go (nextPc c), t.modWarp c.warp fun W =>
        W.setCpred cd (intCompare cn sg (widthOf w) (vs.getD 0 0) (vs.getD 1 0)))) s

def execSsel (e w neg : Bool) (cn : Pred) (d a b : Reg) (s : State) : Host.Outcome State Fault Refusal :=
  scalar (.ssel e w neg cn d a b) w d [a, b] (fun W vs => vs.getD (if W.cpred cn != neg then 0 else 1) 0) s

/-! ### Uniform memory (R293, R294) -/

/-- Bytes of a size code. -/
def usize : USize → Nat
  | .b1 => 1 | .b2 => 2 | .b4 => 4 | .b8 => 8 | .b16 => 16
/-- Registers of a size code. -/
def usizeRegs : USize → Nat
  | .b8 => 2 | .b16 => 4 | _ => 1
/-- A uniform address operand. -/
def uniAddr (W : Warp) (g : Seg) (a : Reg) : Nat := W.sval (g == .glob || g == .debug) a.toNat
/-- Its registers. -/
def uniAddrUse (g : Seg) (a : Reg) : UniUse := plainUse (g == .glob || g == .debug) a

def execSld (e : Bool) (sz : USize) (seg : Seg) (off : BitVec 6) (t a : Reg) (s : State) :
    Host.Outcome State Fault Refusal :=
  uniform (.sld e sz seg off t a) [⟨t.toNat, usizeRegs sz, false⟩, uniAddrUse seg a] (fun s c W =>
    let n := usize sz
    match locate s W 0 seg (uniAddr W seg a) (off.toNat * n) n .read false with
    | (.error st, s) => (.halt st, s)
    | (.ok p, s) =>
      let fs := standing W
      match loadElem s c.warp (fs.all (·.relaxed s W.core)) p n p.va with
      | (.error st, s) => (.halt st, s)
      | (.ok el, s) =>
        let s := addLoad s c.warp none (regWrites t.toNat (usizeRegs sz) [el.copies.headD 0])
        (.go (nextPc c), acquireAt s W.core (widestFence fs))) s

/-- The writes of a uniform value: every copy, and a digit field of 0 (R293). -/
def uniWrites (p : Place) (n v : Nat) : List MByte :=
  match p.sib with
  | .plain => wholeBytes (p.data n 0) (leBytes n v)
  | .triple => tripleWrites p n 0 [v]
  | .mean => meanWrites p n 0 v

/-- The lowest slot of a group, which the reports of its stores name. -/
def lowSlot (c : Issue) : Nat := c.group.headD 0

def execSst (e : Bool) (sz : USize) (seg : Seg) (off : BitVec 6) (t a : Reg) (s : State) :
    Host.Outcome State Fault Refusal :=
  uniform (.sst e sz seg off t a) [⟨t.toNat, usizeRegs sz, false⟩, uniAddrUse seg a] (fun s c W =>
    let n := usize sz
    match locate s W 0 seg (uniAddr W seg a) (off.toNat * n) n .write false with
    | (.error st, s) => (.halt st, s)
    | (.ok p, s) =>
      let v := (List.range (usizeRegs sz)).foldl (fun v i => v + 2 ^ (32 * i) * W.sreg (t.toNat + i)) 0
      let op : StoreOp := ⟨p, n, uniWrites p n (v % 2 ^ (8 * n)), none, .device, false, c.pc, lowSlot c, 0, 0, 0⟩
      match issueStore s c.warp op p.va s.next 0 with
      | .error st => (.halt st, s)
      | .ok s => (.go (nextPc c), s)) s

/-- Type of a `satom` (R294). -/
def satomTy (ty : BitVec 2) : AtomTy :=
  if ty = 0 then .u32 else if ty = 1 then .i32 else if ty = 2 then .u64 else .i64

def execSatom (e : Bool) (op : AtomOp) (ar : Bool) (ty : BitVec 2) (d a b : Reg) (s : State) :
    Host.Outcome State Fault Refusal :=
  let t := satomTy ty
  let w := atomSize t == 8
  uniform (.satom e op ar ty d a b) [plainUse w d, plainUse true a, plainUse w b] (fun s c W =>
    match locate s W 0 .glob (W.sval true a.toNat) 0 (atomSize t) .rmw true with
    | (.error st, s) => (.halt st, s)
    | (.ok p, s) =>
      match performAtomic s c.warp p (atomSize t) p.va none [W.sval w b.toNat]
          (fun _ old v => let r := atomResult op t old v modeRN 0; (some r.1, r.2)) with
      | (.error st, s) => (.halt st, s)
      | (.ok (olds, _, _), s) =>
        let s := s.modWarp c.warp fun W => W.setSval w d.toNat (olds.headD 0)
        let s := if ar then acquire s W.core .device else s
        (.go (nextPc c), acquireAt s W.core (widestFence (standing W)))) s

/-! ### Lane reads (R295) -/

def execRdlane (e f w : Bool) (d a b : Reg) (s : State) : Host.Outcome State Fault Refusal :=
  let i : Instr := .rdlane e f w d a b
  uniform i [portUse w d, plainUse false b] (fun s c W =>
    let held := [W.sreg b.toNat]
    if !usesOk W.window [byW w a] then (.trap codeIllegalOperand 0, s)
    else if loadsHold W held (spans [byW w a]) [] then (.halt (.wait (.regs held (spans [byW w a]) [])), s)
    else
      let r : Nat × Flags × BitVec 4 := match W.fibre? (W.sreg b.toNat) with
        | none => (0, 0, 0)
        | some x => combine (if f then some (if w then binary64 else binary32) else none) (x.vals (·.val w a.toNat))
      match writeDest s c (W.blk.getD 0) (waitingSince s c) w d r.1 with
      | .error why => (.halt (.wait why), s)
      | .ok t => (⟨.ok (nextPc c), r.2.1, r.2.2⟩, t)) s

/-! ### Branches (R296) -/

def execJmp (e : Bool) (off : BitVec 24) (s : State) : Host.Outcome State Fault Refusal :=
  uniform (.jmp e off) [] (fun s c _ => (.go (c.pc + BitVec.ofInt 56 (4 * off.toInt)), s)) s
def execJc (e neg : Bool) (cn : Pred) (off : BitVec 20) (s : State) : Host.Outcome State Fault Refusal :=
  uniform (.jc e neg cn off) [] (fun s c W =>
    (.go (if W.cpred cn != neg then c.pc + BitVec.ofInt 56 (4 * off.toInt) else nextPc c), s)) s
def execJx (e : Bool) (a : Reg) (s : State) : Host.Outcome State Fault Refusal :=
  uniform (.jx e a) [plainUse true a] (fun s _ W =>
    let v := W.sval true a.toNat
    if v % 4 = 0 ∧ v / 2 ^ 56 = 0 then (.go (BitVec.ofNat 56 v), s) else (.trap codeIllegalOperand 0, s)) s

end Sys2Proof.Machine
end

