-- ==== Sys2Proof/Machine/Matrix.lean ====
section
/-! DEFINITION. Tile operations of the matrix engine: their operands (R333, R335), sums (R324, R343 to R345), and the
results read out of the accumulator store (R346, R347). -/
namespace Sys2Proof.Machine

/-- Why a Foreman word does not execute: it waits, or it is refused (R355). -/
inductive FmStop where
  | wait | refuse
deriving DecidableEq, Repr

/-! ### Operands (R333) -/

/-- A record with the window that it lies in and its origins. -/
structure Operand where
  blk : Nat
  lay : Layout
  org : List Int
deriving DecidableEq, Repr

/-- For what an operand is looked up: a word that is executed, a command that takes effect, or the bytes it reaches. -/
inductive OperandUse where
  | word | effect | reach
deriving DecidableEq, Repr

/-- The window of a record: the member that BASE names, whose layout it must have (R122, R333). A word finds its members
live; a saved one is waited for, by a word and by a command in flight (R474). -/
def windowOf (s : State) (b : Nat) (use : OperandUse) (l : Layout) : Except FmStop Nat :=
  let B := s.blk b
  if B.teamSize ≤ l.base / 2 ^ 20 then .error .refuse
  else
    match teamMember s B.launch B.team (l.base / 2 ^ 20) with
    | none => .error .refuse
    | some m =>
      let M := s.blk m
      if use == .word && (M.killed || M.state == .retired) then .error .refuse
      else if use != .reach && M.state == .saved && m != b then .error .wait
      else if l.sib ≠ M.winSib then .error .refuse
      else .ok m

/-- The operand of a layout slot, for a word or for a command in flight. -/
def operandOf (s : State) (b : Nat) (use : OperandUse) (slot : Option LaySlot) : Except FmStop Operand :=
  match slot with
  | none => .error .refuse
  | some x =>
    match Layout.parse true x.bytes with
    | none => .error .refuse
    | some l =>
      match windowOf s b use l with
      | .error e => .error e
      | .ok m => .ok ⟨m, l, x.origins.map BitVec.toInt⟩

/-- Offset of the tensor in its window. -/
def Operand.start (o : Operand) : Nat := o.lay.base % 2 ^ 20
/-- Origin of a dimension. -/
def Operand.origin (o : Operand) (d : Nat) : Int := o.org.getD d 0
/-- Whether position k of row i lies in the tensor. -/
def Operand.holds (o : Operand) (k i : Nat) : Bool :=
  o.lay.inside (o.origin 0 + k) (o.origin 1 + i) (o.origin 2) (o.origin 3)
/-- Whether row i lies in the tensor. -/
def Operand.rowIn (o : Operand) (i : Nat) : Bool :=
  o.lay.inside 0 (o.origin 1 + i) (o.origin 2) (o.origin 3)
/-- Byte ranges of position k of row i, as offsets in the window. -/
def Operand.ranges (o : Operand) (k i : Nat) : List (Int × Nat) :=
  (o.lay.touches (o.origin 0 + k) (o.origin 1 + i) (o.origin 2) (o.origin 3)).map fun r => (o.start + r.1, r.2)
/-- Whether every element of n positions in 128 rows that is not padding lies in the window (R333). -/
def Operand.bounded (s : State) (o : Operand) (n : Nat) : Bool :=
  let M := s.blk o.blk
  let size := logicalSize M.winSib M.winSize
  (List.range 128).all fun i => !o.rowIn i || (List.range n).all fun k => !o.holds k i ||
    (o.ranges k i).all fun r => decide (0 ≤ r.1) && decide (r.1 + r.2 ≤ size)
/-- The physical bytes that n positions of 128 rows reach, a range of the window for each row: the window, the range's
first byte and the one after its last. -/
def Operand.spans (o : Operand) (n : Nat) : List (Nat × Nat × Nat) :=
  (List.range 128).filterMap fun i =>
    if o.rowIn i then
      match ((List.range n).filter fun k => o.holds k i).flatMap fun k => o.ranges k i with
      | [] => none
      | r :: t =>
        let lo : Int := t.foldl (fun a x => min a x.1) r.1
        let hi : Int := t.foldl (fun a x => max a (x.1 + (x.2 : Int))) (r.1 + (r.2 : Int))
        let p := physRange o.lay.sib lo.toNat hi.toNat
        some (o.blk, p.1, p.2)
    else none
/-- Whether the scoreboard holds back an access to a range of a window (R169). -/
def rangeHeld (s : State) (r : Nat × Nat × Nat) (store : Bool) : Bool :=
  (s.core (s.blk r.1).core).board.any fun e => e.blk == r.1 && (store || e.dest) && e.meets r.2.1 (r.2.2 - r.2.1)

/-- Copy p of position k of row i; none is padding. -/
def Operand.elem (s : State) (o : Operand) (p k i : Nat) : Option Nat :=
  if o.holds k i then
    let i0 := o.origin 0 + k
    let i1 := o.origin 1 + i
    if o.lay.bitplane then
      some (o.lay.planesRead.foldl (fun v j =>
        let a := (o.start + o.lay.planeSpot i0 i1 (o.origin 2) (o.origin 3) j).toNat
        v + (if (copyAt s (winPlace s o.blk a) 8 p).testBit (i0.toNat % 64) then 2 ^ j else 0)) 0)
    else
      let (a, sh) := o.lay.spot i0 i1 (o.origin 2) (o.origin 3)
      some (copyAt s (winPlace s o.blk (o.start + a).toNat) o.lay.size p / 2 ^ sh % 2 ^ o.lay.width)
  else none
/-- An element with padding as 0. -/
def Operand.value (s : State) (o : Operand) (p k i : Nat) : Nat := (o.elem s p k i).getD 0

/-! ### Kinds of operation (Table 12-1) -/

/-- How products are summed. -/
inductive MatKind where
  /-- chunks in a window of bits, or exact -/
  | chunks (fa fb : Fmt) (w : Option Nat)
  /-- exact integers -/
  | ints (sa sb : Bool) (wa wb : Nat)
  /-- chunks with E8M0 scales, so many to a block -/
  | scaled (fa fb : Fmt) (w : Option Nat) (per : Nat)
  | nx4
deriving DecidableEq, Repr

/-- A row of Table 12-1: depth and chunks. -/
structure MatPlan where
  kind : MatKind
  depth : Nat
  chunks : Nat
deriving DecidableEq, Repr

/-- Whether a plan accumulates in INT32. -/
def MatPlan.int (p : MatPlan) : Bool := match p.kind with | .ints _ _ _ _ => true | _ => false

/-- Whether a type is an FP8 type. -/
def typFp8 (t : Nat) : Bool := t == 4 || t == 5
/-- The row of unscaled types. -/
def densePlan (ta tb : Nat) : Option MatPlan :=
  if ta = tb ∧ ta = 2 then some ⟨.chunks binary16 binary16 (some 40), 32, 4⟩
  else if ta = tb ∧ ta = 3 then some ⟨.chunks bfloat16 bfloat16 (some 40), 32, 4⟩
  else if typFp8 ta && typFp8 tb then
    some ⟨.chunks (if ta = 4 then e4m3 else e5m2) (if tb = 4 then e4m3 else e5m2) (some 24), 64, 4⟩
  else if ta = 6 ∧ tb = 6 then some ⟨.chunks e2m1 e2m1 none, 128, 4⟩
  else if typInt ta && typInt tb && typWidth ta == 8 && typWidth tb == 8 then
    some ⟨.ints (typSigned ta) (typSigned tb) 8 8, 64, 1⟩
  else if typInt ta && typInt tb && decide (typWidth ta ≤ 4) && decide (typWidth tb ≤ 4) then
    some ⟨.ints (typSigned ta) (typSigned tb) (typWidth ta) (typWidth tb), 128, 1⟩
  else none
/-- The row of a 2:4 sparse operation (R344). -/
def sparsePlan (ta tb : Nat) : Option MatPlan :=
  match densePlan ta tb with
  | some p => if p.depth = 128 then none else some { p with depth := 2 * p.depth, chunks := 2 * p.chunks }
  | none => none
/-- The row of a scaled operation (R345). -/
def scaledPlan (ta tb sa sb : Nat) : Option MatPlan :=
  if typFp8 ta && typFp8 tb && sa == 7 && sb == 7 then
    some ⟨.scaled (if ta = 4 then e4m3 else e5m2) (if tb = 4 then e4m3 else e5m2) (some 24) 2, 64, 4⟩
  else if ta = 6 ∧ tb = 6 ∧ sa = 7 ∧ sb = 7 then some ⟨.scaled e2m1 e2m1 none 1, 128, 4⟩
  else if ta = 6 ∧ tb = 6 ∧ sa = 5 ∧ sb = 5 then some ⟨.nx4, 128, 1⟩
  else none
/-- Scales of a row. -/
def MatPlan.blocks (p : MatPlan) : Nat :=
  match p.kind with | .scaled _ _ _ per => p.chunks / per | .nx4 => 16 | _ => 0

/-- One position of a decompressed 2:4 row (R344). -/
def sparseAt (a m : Nat → Nat) (t : Nat) : Nat :=
  let g := t / 4
  if m (2 * g + 1) = t % 4 then a (2 * g + 1) else if m (2 * g) = t % 4 then a (2 * g) else 0

/-- One chunk into an element: row and column by depth, scales by block, tensor scales (R343, R345). -/
def MatPlan.chunk (p : MatPlan) (mode : Mode) (dr : Nat → Double) (a b sa sb : Nat → Nat) (ts : Word) (acc ch : Nat) :
    Nat × Flags :=
  let n := p.depth / p.chunks
  let ks := (List.range n).map (n * ch + ·)
  match p.kind with
  | .chunks fa fb w =>
    chunkStep mode (dr ch) w 0 (ks.map fun k => decodeNum fa (a k)) (ks.map fun k => decodeNum fb (b k)) acc
  | .ints x y wa wb =>
    (wrapInt 32 (ks.foldl (fun t k => t + intOf x wa (a k) * intOf y wb (b k)) (acc : Int)), 0)
  | .scaled fa fb w per =>
    let xa := sa (ch / per)
    let xb := sb (ch / per)
    if xa = 255 ∨ xb = 255 then (binary32.nanBits, 0)
    else chunkStep mode (dr ch) w ((xa : Int) + xb - 254) (ks.map fun k => decodeNum fa (a k))
      (ks.map fun k => decodeNum fb (b k)) acc
  | .nx4 =>
    nx4Dot mode (dr ch) ((List.range 16).map fun j =>
        let es := (List.range 8).map (8 * j + ·)
        (es.map fun k => decodeNum e2m1 (a k), es.map fun k => decodeNum e2m1 (b k),
          decodeNum e5m2 (sa j), decodeNum e5m2 (sb j)))
      (decodeNum bfloat16 (ts.toNat % 65536)) (decodeNum bfloat16 (ts.toNat / 65536)) acc
/-- Every chunk in increasing depth (R81). -/
def MatPlan.run (p : MatPlan) (mode : Mode) (dr : Nat → Double) (a b sa sb : Nat → Nat) (ts : Word) (acc : Nat) :
    Nat × Flags :=
  (List.range p.chunks).foldl (fun r ch =>
    let x := p.chunk mode dr a b sa sb ts r.1 ch
    (x.1, r.2 ||| x.2)) (acc, 0)

/-! ### Tile slots (R334) -/

/-- A slot of a block. -/
def tileAt (s : State) (b k : Nat) : Tile := (s.blk b).tiles.getD k ⟨none, []⟩
/-- The cells of a tile from a function of row and column. -/
def cellsOf (f : Nat → Nat → Nat) : Tab Word :=
  (List.range 16384).filterMap fun n =>
    let v := BitVec.ofNat 32 (f (n / 128) (n % 128))
    if v = 0 then none else some (n, v)
/-- An element of a tile. -/
def Tile.cell (t : Tile) (i j : Nat) : Nat := (Tab.read (0 : Word) t.cells (128 * i + j)).toNat
/-- Put a tile. -/
def setTile (s : State) (b k : Nat) (t : Tile) : State := s.modBlk b fun B => { B with tiles := setAt B.tiles k t }

/-- A slot that no `mclr` has written holds undefined contents, whose type and values are left open (R334, log 12). -/
def ensureTile (s : State) (b k : Nat) : State :=
  let t := tileAt s b k
  match t.int with
  | some _ => s
  | none =>
    let (i, s) := s.choose 2
    let n := s.free
    let cells := cellsOf fun r c => (Config.freeWord (n + 128 * r + c)).toNat
    setTile { s with free := n + 16384 } b k ⟨some (i == 1), cells⟩

/-- Results of 128 by 128 elements as cells, with their flags together. -/
def tileResults (f : Nat → Nat → Nat × Flags) : Tab Word × Flags :=
  let rs := (List.range 16384).map fun n => (n, f (n / 128) (n % 128))
  (rs.filterMap fun r => let v := BitVec.ofNat 32 r.2.1; if v = 0 then none else some (r.1, v),
    rs.foldl (fun a r => a ||| r.2.2) 0)

/-! ### Multiplying (R343 to R345) -/

/-- Operands of a multiplying word: A, B, metadata and scales. -/
structure MatArgs where
  plan : MatPlan
  three : Bool
  copies : Bool
  a : Operand
  b : Operand
  md : Option Operand
  sa : Option Operand
  sb : Option Operand
deriving DecidableEq, Repr

/-- A layout slot copied by a command or held by a context. -/
def laySlot (slots : List (Option LaySlot)) (l : BitVec 3) : Option LaySlot := slots.getD l.toNat none

/-- Read the operands that a word names. -/
def matArgs (s : State) (b : Nat) (use : OperandUse) (slots : List (Option LaySlot)) (pm : PlaneMode) (la lb : BitVec 3)
    (md : Option (BitVec 3)) (sc : Option (BitVec 3 × BitVec 3)) : Except FmStop MatArgs :=
  match operandOf s b use (laySlot slots la), operandOf s b use (laySlot slots lb) with
  | .error e, _ => .error e
  | _, .error e => .error e
  | .ok a, .ok bb =>
    let three := pm != .one
    let copies := pm == .triple
    match md, sc with
    | some m, _ =>
      match operandOf s b use (laySlot slots m), sparsePlan a.lay.typ bb.lay.typ with
      | .error e, _ => .error e
      | .ok o, some p => if o.lay.typ = 14 ∧ o.lay.sib = .plain then .ok ⟨p, three, copies, a, bb, some o, none, none⟩ else .error .refuse
      | .ok _, none => .error .refuse
    | none, some (x, y) =>
      match operandOf s b use (laySlot slots x), operandOf s b use (laySlot slots y) with
      | .error e, _ => .error e
      | _, .error e => .error e
      | .ok o, .ok q =>
        match scaledPlan a.lay.typ bb.lay.typ o.lay.typ q.lay.typ with
        | some p => if o.lay.sib = .plain ∧ q.lay.sib = .plain then .ok ⟨p, three, copies, a, bb, none, some o, some q⟩ else .error .refuse
        | none => .error .refuse
    | none, none =>
      match densePlan a.lay.typ bb.lay.typ with
      | some p => .ok ⟨p, three, copies, a, bb, none, none, none⟩
      | none => .error .refuse

/-- The plane rules of R335. -/
def MatArgs.planesOk (m : MatArgs) (sibling : Bool) : Bool :=
  let sibs := [m.a.lay.sib, m.b.lay.sib]
  (!m.three || (sibling && !m.plan.int))
  && (if m.copies then sibs.contains .triple && !sibs.contains .mean else !sibs.contains .triple)
/-- Every operand with the depth that it is read at. -/
def MatArgs.operands (m : MatArgs) : List (Operand × Nat) :=
  let k := m.plan.depth
  let list : Option Operand → Nat → List (Operand × Nat) := fun o n => match o with | some o => [(o, n)] | none => []
  [(m.a, if m.md.isSome then k / 2 else k), (m.b, k)] ++ list m.md (k / 2) ++ list m.sa m.plan.blocks
    ++ list m.sb m.plan.blocks

/-- Banks of local SRAM (R332). -/
def bankCount : Nat := 32
/-- Whether two pieces of a list, each a window and a 16-byte piece of it, share a bank; t holds the piece found in each
bank of each core's SRAM so far. -/
def bankClash : List (Nat × Nat × Nat) → Tab (Nat × Nat) → Bool
  | [], _ => false
  | (core, b, p) :: rest, t =>
    let k := core * bankCount + p % bankCount
    match Tab.find t k with
    | some q => q != (b, p) || bankClash rest t
    | none => bankClash rest (Tab.put t k (b, p))
/-- The 16-byte pieces of windows that the engine reads for a command, with their cores (R332). -/
def MatArgs.pieces (s : State) (m : MatArgs) : List (Nat × Nat × Nat) :=
  m.operands.flatMap fun (o, n) => (List.range 128).flatMap fun i =>
    if o.rowIn i then
      ((List.range n).filter fun k => o.holds k i).flatMap fun k => (o.ranges k i).flatMap fun r =>
        let copies := if m.copies && o.lay.sib == .triple then [0, 1, 2] else [0]
        copies.flatMap fun c =>
          let a := (winPlace s o.blk r.1.toNat).data r.2 c
          (List.range ((a + r.2 - 1) / 16 - a / 16 + 1)).map fun j => ((s.blk o.blk).core, o.blk, a / 16 + j)
    else []

/-- Padding of a scale (R345). -/
def scalePad (p : MatPlan) : Nat := match p.kind with | .nx4 => 0x3C | _ => 0x7F
/-- Position k of row i of A for plane p. -/
def MatArgs.aAt (s : State) (m : MatArgs) (p i k : Nat) : Nat :=
  let c := if m.copies && m.a.lay.sib == .triple then p else 0
  match m.md with
  | none => m.a.value s c k i
  | some o => sparseAt (fun k => m.a.value s c k i) (fun k => o.value s 0 k i) k
/-- Position k of column j of B for plane p. -/
def MatArgs.bAt (s : State) (m : MatArgs) (p j k : Nat) : Nat :=
  m.b.value s (if m.copies && m.b.lay.sib == .triple then p else 0) k j
/-- Block scale n of a row. -/
def scaleAt (s : State) (p : MatPlan) (o : Option Operand) (i n : Nat) : Nat :=
  match o with | some o => (o.elem s 0 n i).getD (scalePad p) | none => 0

/-- What a multiplying command makes of plane p of its tile: rows and columns beyond the extents keep what the slot
held (R333, log 28). -/
def MatArgs.plane (s : State) (m : MatArgs) (b : Nat) (c : FmCmd) (p : Nat) (t : Tile) : Tab Word × Flags :=
  let B := s.blk b
  let seed := (s.launch B.launch).lrec.seed
  tileResults fun i j =>
    if m.a.rowIn i && m.b.rowIn j then
      m.plan.run c.rnd (matrixDraw seed B.lin p c.fcount i j) (m.aAt s p i) (m.bAt s p j)
        (scaleAt s m.plan m.sa i) (scaleAt s m.plan m.sb j) c.ts (t.cell i j)
    else (t.cell i j, 0)

/-- Slots of a three-plane or one-plane tile. -/
def tileSlots (k : Nat) (three : Bool) : List Nat := if three then [k, k + 1, k + 2] else [k]
/-- Whether a tile's slots exist for a block (R335). -/
def slotsOk (s : State) (b k : Nat) (three : Bool) : Bool :=
  (!three || k % 3 == 0) && decide ((tileSlots k three).getLastD k < (s.blk b).tiles.length)

/-! ### Reading out (R346, R347) -/

/-- Destination elements inside the tensor, row by row. -/
def Operand.targets (o : Operand) : List (Nat × Nat) :=
  (List.range 128).flatMap fun i =>
    if o.rowIn i then ((List.range 128).filter fun j => o.holds j i).map fun j => (i, j) else []
/-- The place and bit of element (i, j) of a destination. -/
def Operand.spotOf (s : State) (o : Operand) (i j : Nat) : Place × Nat :=
  let (a, sh) := o.lay.spot (o.origin 0 + j) (o.origin 1 + i) (o.origin 2) (o.origin 3)
  (winPlace s o.blk (o.start + a).toNat, sh)
/-- Writes of a value into a PLAIN tensor's element (R346). -/
def plainElem (l : Layout) (p : Place) (sh v : Nat) : List MByte :=
  if l.width < 8 then
    [⟨p.data 1 0, BitVec.ofNat 8 (v % 2 ^ l.width * 2 ^ sh), BitVec.ofNat 8 ((2 ^ l.width - 1) * 2 ^ sh)⟩]
  else wholeBytes (p.data l.size 0) (leBytes l.size v)

/-- A tile element converted to a destination type (R346). -/
def mrdValue (int : Bool) (typ : Nat) (mode : Mode) (d : Double) (v : Nat) : Nat × Flags :=
  if int then (if typ = 9 then (clampSigned 8 (toSigned 32 v), 0) else (v, 0))
  else if typ = 0 then (v, 0)
  else match typFmt typ with
    | some f =>
      let r := encodeNum f mode d (decodeNum binary32 v)
      (r.1, r.2 ||| snanFlag [decodeNum binary32 v])
    | none => (0, 0)
/-- Types that a tile of a kind converts to. -/
def mrdType (int : Bool) (typ : Nat) : Bool :=
  if int then typ == 8 || typ == 9 else typ == 0 || (decide (2 ≤ typ) && decide (typ ≤ 6))

/-- Writes of `mrd` with their flags: planes with their slots. -/
def mrdWrites (s : State) (b : Nat) (c : FmCmd) (planes : List (Nat × Nat)) (o : Operand) : List MByte × Flags :=
  let B := s.blk b
  let seed := (s.launch B.launch).lrec.seed
  let rs : List (List MByte × Flags) := o.targets.map fun (i, j) =>
    let vs : List (Nat × Flags) := planes.map fun (p, k) =>
      let t := tileAt s b k
      mrdValue (t.int == some true) o.lay.typ c.rnd (matrixDraw seed B.lin p c.fcount i j 0) (t.cell i j)
    let (p, sh) := o.spotOf s i j
    let ws := match vs with
      | [v] => plainElem o.lay p sh v.1
      | _ => tripleWrites p o.lay.size (digitsOf (typFmt o.lay.typ) (vs.map (·.1))) (vs.map (·.1))
    (ws, vs.foldl (fun a v => a ||| v.2) 0)
  (rs.flatMap (·.1), rs.foldl (fun a r => a ||| r.2) 0)

/-- Writes of `mcol` with their flags: of those that Mean3's rounding might raise, NV alone, which R90 names (log 103). -/
def mcolWrites (s : State) (b k : Nat) (o : Operand) : List MByte × Flags :=
  match typFmt o.lay.typ with
  | none => ([], 0)
  | some f =>
    let rs : List (List MByte × Flags) := o.targets.map fun (i, j) =>
      let xs := [0, 1, 2].map fun q => decodeNum binary32 ((tileAt s b (k + q)).cell i j)
      let x := fun n => xs.getD n (.nan false)
      let dg := digits3 (x 0) (x 1) (x 2) f.p
      let (p, sh) := o.spotOf s i j
      let mean := mean3 f (x 0) (x 1) (x 2)
      match o.lay.sib with
      | .plain => (plainElem o.lay p sh mean.1, mean.2)
      | .mean => (meanWrites p o.lay.size dg mean.1, mean.2)
      | .triple =>
        let cs : List (Nat × Flags) := xs.map fun v => encodeNum f modeRN 0 v
        (tripleWrites p o.lay.size dg (cs.map (·.1)), cs.foldl (fun a v => a ||| v.2) (snanFlag xs))
    (rs.flatMap (·.1), rs.foldl (fun a r => a ||| r.2) 0)

end Sys2Proof.Machine
end

