-- ==== Sys2Proof/Machine/Foreman.lean ====
section
/-! DEFINITION. Foreman contexts: fetching and executing Foreman words (R326 to R328, R337 to R350), commands in flight
and their completion (R351 to R353), and refused words (R355, R488, R489). -/
namespace Sys2Proof.Machine

/-! ### Contexts -/

/-- A context at the start of its block (R326, Table 12-2). -/
def Foreman.start (stream : Nat) (single : Bool) : Foreman where
  fpc := BitVec.ofNat 56 stream
  fcount := 0
  timeline := 0
  issued := 0
  rnd := if single then modeRN else modeRSD
  ts := 0x3F803F80
  slots := List.replicate 8 none
  loops := []
  wph := List.replicate 16 1
  ended := false
  stopped := false
  cmds := []
  above := []
  scope := scopeCode .block

/-- Change the context of a block. -/
def modFm (s : State) (b : Nat) (f : Foreman → Foreman) : State := s.modBlk b fun B => { B with fm := B.fm.map f }

/-- A block's engine fault (R488, R489): kind 1 Carter, 2 Foreman. -/
def engineFault (s : State) (b kind n pc code addr : Nat) (k : AccKind) : State :=
  addFault s (.blk b) ⟨none, code, false, false, true, 0, engineName s b kind n pc, addr, k, none⟩

def codeForemanWord : Nat := 0x0503
def codeForemanFetch : Nat := 0x0504

/-- A word is refused (R355): the context stops at it, and the number is the one it would have taken. -/
def refuseWord (s : State) (b code : Nat) (addr : Nat) (k : AccKind) : State :=
  match (s.blk b).fm with
  | none => s
  | some F =>
    engineFault (modFm s b fun F => { F with stopped := true }) b 2 (F.issued + 1) F.fpc.toNat code addr k

/-- Whether a block's engines may begin new work: it is placed, not halted, and its context runs. -/
def engineRuns (s : State) (b : Nat) : Bool :=
  let B := s.blk b
  let C := s.ctx B.ctx
  B.placed && (B.state == .resident || B.state == .part) && !B.halted && !B.killed
    && C.state == .running && !C.stopping && !C.discarding

/-- Whether a sequence comparator holds an engine back from the command after one that has not completed (R411). -/
def sequenceHolds (s : State) (b kind issued timeline : Nat) : Bool :=
  let B := s.blk b
  let C := s.ctx B.ctx
  armed C && decide (timeline < issued) &&
    C.comparators.any fun k => k.kind == kind && k.covers B.lin && k.addr.toNat == issued

/-- A block retires when all its warps have ended and its context has ended with every command complete (R53,
R326). -/
def retireIfDone (s : State) (b : Nat) : State :=
  let B := s.blk b
  let fmDone := match B.fm with | none => true | some F => F.ended && F.cmds.isEmpty
  if B.placed && (B.state == .resident || B.state == .part) && fmDone && B.faults.isEmpty
      && !s.warps.any (fun e => e.2.blk == some b) then retireBlock s b
  else s

/-- What a word does: the context goes on at an address, waits, or refuses the word. -/
inductive FmRes where
  | go (pc : VAddr)
  | wait
  | refuse (code : Nat) (addr : Nat) (k : AccKind)
deriving DecidableEq, Repr

/-- Execute a Foreman word (R327, R355): a word that waits is fetched again. -/
def foremanWord (act : State → FmIssue → Foreman → FmRes × State) (s : State) : Host.Outcome State Fault Refusal :=
  match s.fcur with
  | none => .fault .noForeman
  | some (c, _) =>
    let s := { s with fcur := none }
    match (s.blk c.blk).fm with
    | none => .next s
    | some F =>
      match act s c F with
      | (.go pc, t) => .next (modFm t c.blk fun F => { F with fpc := pc, fcount := F.fcount + 1 })
      | (.wait, _) => .next s
      | (.refuse code addr k, t) => .next (refuseWord t c.blk code addr k)

/-- Refusal of a word for what it asks. -/
def FmRes.bad (c : FmIssue) : FmRes := .refuse codeForemanWord c.pc.toNat .read
/-- The word after. -/
def FmRes.on (c : FmIssue) : FmRes := .go (c.pc + 8)
/-- A stop as a result. -/
def FmRes.ofStop (c : FmIssue) (e : FmStop) : FmRes := match e with | .wait => .wait | .refuse => .bad c

def execForemanWordUnallocated (_w : Double) (s : State) : Host.Outcome State Fault Refusal :=
  foremanWord (fun s c _ => (.bad c, s)) s

/-! ### Commands in flight (R340, R351) -/

/-- Operands of a multiplying command, as it copied their slots. -/
def cmdArgs (s : State) (b : Nat) (use : OperandUse) (c : FmCmd) : Except FmStop MatArgs :=
  match c.op with
  | .mma _ pm x y => matArgs s b use c.slots pm x y none none
  | .mmas _ pm x y md => matArgs s b use c.slots pm x y (some md) none
  | .mmax _ pm x y u v => matArgs s b use c.slots pm x y none (some (u, v))
  | _ => .error .refuse
/-- The ranges of a destination, as a command copied its slot. -/
def destSpans (s : State) (b : Nat) (c : FmCmd) (l : BitVec 3) : List (Nat × Nat × Nat) :=
  match operandOf s b .reach (laySlot c.slots l) with | .ok o => o.spans 128 | .error _ => []
/-- The window range of a stamp. -/
def stampRange (s : State) (b : Nat) (addr : BitVec 22) : Option (Nat × Nat × Nat) :=
  let B := s.blk b
  (teamMember s B.launch B.team (addr.toNat / 2 ^ 20)).map fun m =>
    let r := physRange (s.blk m).winSib (addr.toNat % 2 ^ 20) (addr.toNat % 2 ^ 20 + 8)
    (m, r.1, r.2)
/-- Ranges of windows that a command writes. -/
def cmdWrites (s : State) (b : Nat) (c : FmCmd) : List (Nat × Nat × Nat) :=
  match c.op with
  | .mrd _ _ d => destSpans s b c d
  | .mcol _ d => destSpans s b c d
  | .mstamp _ a => (stampRange s b a).toList
  | _ => []
/-- Ranges of windows that a command reads. -/
def cmdReads (s : State) (b : Nat) (c : FmCmd) : List (Nat × Nat × Nat) :=
  match cmdArgs s b .reach c with
  | .ok m => m.operands.flatMap fun o => o.1.spans o.2
  | .error _ => []
/-- Tile slots that a command touches. -/
def cmdTiles (i : Instr) : List Nat :=
  match i with
  | .mclr k three _ => tileSlots k.toNat three
  | .mma k pm _ _ => tileSlots k.toNat (pm != .one)
  | .mmas k pm _ _ _ => tileSlots k.toNat (pm != .one)
  | .mmax k pm _ _ _ _ => tileSlots k.toNat (pm != .one)
  | .mrd k pl _ => if pl = 3 then tileSlots k.toNat true else [k.toNat + pl.toNat]
  | .mcol k _ => tileSlots k.toNat true
  | _ => []
/-- Whether two ranges of windows overlap. -/
def rangesMeet (x y : Nat × Nat × Nat) : Bool :=
  x.1 == y.1 && overlaps x.2.1 (x.2.2 - x.2.1) y.2.1 (y.2.2 - y.2.1)
/-- Whether any of two lists of ranges overlap. -/
def anyMeet (xs ys : List (Nat × Nat × Nat)) : Bool := xs.any fun x => ys.any (rangesMeet x)
/-- Whether a command must wait for an earlier one (R348, R351). -/
def cmdAfter (s : State) (b : Nat) (first later : FmCmd) : Bool :=
  let w1 := cmdWrites s b first
  let w2 := cmdWrites s b later
  (match later.op with | .mstamp _ _ => true | _ => false)
  || (cmdTiles first.op).any (cmdTiles later.op).contains
  || anyMeet w1 (w2 ++ cmdReads s b later) || anyMeet (cmdReads s b first) w2

/-- Issue a command (R165, R352): at most 8 are in flight. -/
def issueCmd (s : State) (c : FmIssue) (F : Foreman) (op : Instr) : FmRes × State :=
  if 8 ≤ F.cmds.length || sequenceHolds s c.blk 3 F.issued F.timeline then (.wait, s)
  else (.on c, modFm s c.blk fun F =>
    { F with issued := F.issued + 1, cmds := F.cmds ++ [⟨F.issued + 1, op, c.pc, F.fcount, F.rnd, F.ts, F.slots⟩] })

/-! ### Layout slots, configuration and reads of the window (R338 to R341) -/

/-- Read n bytes of the block's own window as the Foreman reads it: data, or copy 0 of each 4-byte element (R338),
after the earlier commands that write them (R351). -/
def windowRead (s : State) (b : Nat) (F : Foreman) (off n : Nat) : Except FmStop (List Byte) :=
  let B := s.blk b
  if logicalSize B.winSib B.winSize < off + n then .error .refuse
  else
    let r := physRange B.winSib off (off + n)
    if rangeHeld s (b, r.1, r.2) false then .error .wait
    else if F.cmds.any fun c => anyMeet (cmdWrites s b c) [(b, r.1, r.2)] then .error .wait
    else .ok ((List.range (n / 4)).flatMap fun i => leBytes 4 (copyAt s (winPlace s b (off + 4 * i)) 4 0))

def execMlay (l : BitVec 3) (off : BitVec 20) (s : State) : Host.Outcome State Fault Refusal :=
  foremanWord (fun s c F =>
    if off.toNat % 64 ≠ 0 then (.bad c, s)
    else
      match windowRead s c.blk F off.toNat 64 with
      | .error e => (.ofStop c e, s)
      | .ok bs =>
        match Layout.parse true bs with
        | none => (.bad c, s)
        | some _ => (.on c, modFm s c.blk fun F =>
          { F with slots := setAt F.slots l.toNat (some ⟨bs, List.replicate 4 0⟩) })) s

def execMadd (l : BitVec 3) (dim : BitVec 2) (inc : Word) (s : State) : Host.Outcome State Fault Refusal :=
  foremanWord (fun s c F =>
    match laySlot F.slots l with
    | none => (.bad c, s)
    | some x => (.on c, modFm s c.blk fun F => { F with
        slots := setAt F.slots l.toNat (some { x with origins := modAt x.origins dim.toNat (· + inc) }) })) s

def execMconfRnd (code : BitVec 3) (s : State) : Host.Outcome State Fault Refusal :=
  foremanWord (fun s c _ =>
    if code = 0 ∨ code = 7 then (.bad c, s) else (.on c, modFm s c.blk fun F => { F with rnd := code })) s

def execMconfTs (off : BitVec 20) (s : State) : Host.Outcome State Fault Refusal :=
  foremanWord (fun s c F =>
    if off.toNat % 4 ≠ 0 then (.bad c, s)
    else
      match windowRead s c.blk F off.toNat 4 with
      | .error e => (.ofStop c e, s)
      | .ok bs => (.on c, modFm s c.blk fun F => { F with ts := BitVec.ofNat 32 (leNat bs) })) s

def execMconfWph (bn : BitVec 4) (ph : BitVec 16) (s : State) : Host.Outcome State Fault Refusal :=
  foremanWord (fun s c _ => (.on c, modFm s c.blk fun F => { F with wph := setAt F.wph bn.toNat ph })) s

/-! ### Tile commands as they are executed (R342 to R348) -/

/-- The type that a slot holds for a word that is executed now: what the latest `mclr` in flight sets, else what the slot
holds (R334, R351). -/
def slotType (s : State) (b : Nat) (F : Foreman) (k : Nat) : Option Bool :=
  match F.cmds.reverse.findSome? (fun c => match c.op with
    | .mclr j three int => if (tileSlots j.toNat three).contains k then some int else none
    | _ => none) with
  | some x => some x
  | none => (tileAt s b k).int
/-- Make sure that the slots of a tile hold a type (R334, log 12). -/
def ensureTiles (s : State) (b : Nat) (F : Foreman) (ks : List Nat) : State :=
  ks.foldl (fun s k => if (slotType s b F k).isSome then s else ensureTile s b k) s
/-- Make sure that the slots of a tile hold a type, and that it is the one wanted. -/
def withTiles (s : State) (b : Nat) (F : Foreman) (ks : List Nat) (int : Bool) : Option State :=
  let t := ensureTiles s b F ks
  if ks.all fun k => slotType t b F k == some int then some t else none

def execMclr (k : BitVec 4) (three int : Bool) (s : State) : Host.Outcome State Fault Refusal :=
  foremanWord (fun s c F =>
    if slotsOk s c.blk k.toNat three then issueCmd s c F (.mclr k three int) else (.bad c, s)) s

/-- A multiplying word. -/
def multiply (op : Instr) (k : BitVec 4) (pm : PlaneMode) (a b : BitVec 3) (md : Option (BitVec 3))
    (sc : Option (BitVec 3 × BitVec 3)) (s : State) : Host.Outcome State Fault Refusal :=
  foremanWord (fun s c F =>
    match matArgs s c.blk .word F.slots pm a b md sc with
    | .error e => (.ofStop c e, s)
    | .ok m =>
      if !slotsOk s c.blk k.toNat m.three || !m.planesOk (!(s.launch (s.blk c.blk).launch).lrec.single)
        || !(m.operands.all fun o => o.1.bounded s o.2) then (.bad c, s)
      else if m.operands.any fun o => (o.1.spans o.2).any fun r => rangeHeld s r false then (.wait, s)
      else
        match withTiles s c.blk F (tileSlots k.toNat m.three) m.plan.int with
        | none => (.bad c, s)
        | some t => issueCmd t c F op) s

def execMma (k : BitVec 4) (pm : PlaneMode) (a b : BitVec 3) (s : State) : Host.Outcome State Fault Refusal :=
  multiply (.mma k pm a b) k pm a b none none s
def execMmas (k : BitVec 4) (pm : PlaneMode) (a b md : BitVec 3) (s : State) : Host.Outcome State Fault Refusal :=
  multiply (.mmas k pm a b md) k pm a b (some md) none s
def execMmax (k : BitVec 4) (pm : PlaneMode) (a b sa sb : BitVec 3) (s : State) : Host.Outcome State Fault Refusal :=
  multiply (.mmax k pm a b sa sb) k pm a b none (some (sa, sb)) s

/-- A word that reads a tile out: its slots, their type and its destination. -/
def readOut (op : Instr) (ks : List Nat) (ok : Bool) (d : BitVec 3) (fits : Bool → Operand → Bool) (s : State) :
    Host.Outcome State Fault Refusal :=
  foremanWord (fun s c F =>
    match operandOf s c.blk .word (laySlot F.slots d) with
    | .error e => (.ofStop c e, s)
    | .ok o =>
      if !ok || !(ks.all fun k => slotsOk s c.blk k false) || o.lay.bitplane || !o.bounded s 128 then (.bad c, s)
      else if (o.spans 128).any fun r => rangeHeld s r true then (.wait, s)
      else
        let t := ensureTiles s c.blk F ks
        let int := slotType t c.blk F (ks.headD 0) == some true
        if (ks.all fun k => slotType t c.blk F k == some int) && fits int o then issueCmd t c F op else (.bad c, t)) s

def execMrd (k : BitVec 4) (pl : BitVec 2) (d : BitVec 3) (s : State) : Host.Outcome State Fault Refusal :=
  readOut (.mrd k pl d) (cmdTiles (.mrd k pl d)) (pl != 3 || k.toNat % 3 == 0) d (fun int o =>
    mrdType int o.lay.typ && o.lay.sib == (if pl = 3 then .triple else .plain)) s
def execMcol (k : BitVec 4) (d : BitVec 3) (s : State) : Host.Outcome State Fault Refusal :=
  readOut (.mcol k d) (cmdTiles (.mcol k d)) (k.toNat % 3 == 0) d (fun int o =>
    !int && (o.lay.typ == 0 || o.lay.typ == 2 || o.lay.typ == 3)) s

def execMstamp (clu : Bool) (addr : BitVec 22) (s : State) : Host.Outcome State Fault Refusal :=
  foremanWord (fun s c F =>
    if addr.toNat % 8 ≠ 0 then (.bad c, s)
    else
      match clusterAddr s c.blk addr.toNat 8 .write with
      | .error (.wait _) => (.wait, s)
      | .error (.cause _) => (.bad c, s)
      | .ok _ =>
        if (stampRange s c.blk addr).any fun r => rangeHeld s r true then (.wait, s)
        else issueCmd s c F (.mstamp clu addr)) s

/-! ### Barriers and control (R349, R350) -/

def execMbarr (bn : BitVec 4) (s : State) : Host.Outcome State Fault Refusal :=
  foremanWord (fun s c F =>
    let v := barAt s c.blk bn.toNat
    if F.cmds ≠ [] ∨ v.count = 0 then (.wait, s)
    else if !v.fm then (.bad c, s)
    else
      match v.arrive 0 with
      | .error _ => (.bad c, s)
      | .ok u => (.on c, setBar s c.blk bn.toNat u)) s

def execMbwait (bn : BitVec 4) (s : State) : Host.Outcome State Fault Refusal :=
  foremanWord (fun s c F =>
    let v := barAt s c.blk bn.toNat
    let e := F.wph.getD bn.toNat 0
    if v.count = 0 then (.wait, s)
    else if !v.fm then (.bad c, s)
    else if v.reached e then (.on c, modFm s c.blk fun F => { F with wph := setAt F.wph bn.toNat (e + 1) })
    else (.wait, s)) s

/-- Fetch a Foreman word (R328). -/
def fetchWord (s : State) (b : Nat) (pc : VAddr) : Except Cause Nat × State :=
  fetchCode s (s.blk b).core (s.blk b).ctx pc.toNat 8

/-- Whether a Foreman word waits for its memory (R396). -/
def wordHeld (s : State) (b : Nat) (pc : VAddr) : Bool := codeHeld s (s.blk b).core (s.blk b).ctx pc.toNat 8

/-- The word after the `mendl` that matches, from an address at a depth (R350): a fault names the word fetched, and none stands
for a word that waits for its memory. -/
def skipLoop (b : Nat) : Nat → Nat → VAddr → State → Except (Option Cause) VAddr × State
  | 0, _, pc, s => (.error (some ⟨codeTranslation, pc.toNat, .fetch⟩), s)
  | n + 1, depth, pc, s =>
    if wordHeld s b pc then (.error none, s)
    else match fetchWord s b pc with
    | (.error k, s) => (.error (some { k with addr := pc.toNat }), s)
    | (.ok w, s) =>
      let op := w / 2 ^ 56
      if op = 0x0C ∧ depth = 0 then (.ok (pc + 8), s)
      else skipLoop b n (if op = 0x0B then depth + 1 else if op = 0x0C then depth - 1 else depth) (pc + 8) s

/-- Begin a loop of a count: a count of 0 skips it. -/
def beginLoop (s : State) (c : FmIssue) (F : Foreman) (count : Nat) : FmRes × State :=
  if count = 0 then
    match skipLoop c.blk (2 ^ 53) 0 (c.pc + 8) s with
    | (.ok pc, s) => (.go pc, s)
    | (.error none, s) => (.wait, s)
    | (.error (some k), s) => (.refuse codeForemanFetch k.addr .fetch, s)
  else if 2 ^ 24 ≤ count ∨ 4 ≤ F.loops.length then (.bad c, s)
  else (.on c, modFm s c.blk fun F => { F with loops := (c.pc + 8, count) :: F.loops })

def execMloop (count : BitVec 24) (s : State) : Host.Outcome State Fault Refusal :=
  foremanWord (fun s c F => beginLoop s c F count.toNat) s
def execMloopL (off : BitVec 24) (s : State) : Host.Outcome State Fault Refusal :=
  foremanWord (fun s c F =>
    if off.toNat % 4 ≠ 0 then (.bad c, s)
    else
      match windowRead s c.blk F off.toNat 4 with
      | .error e => (.ofStop c e, s)
      | .ok bs => beginLoop s c F (leNat bs)) s

def execMendl (s : State) : Host.Outcome State Fault Refusal :=
  foremanWord (fun s c F =>
    match F.loops with
    | [] => (.bad c, s)
    | (start, n) :: rest =>
      if n - 1 = 0 then (.on c, modFm s c.blk fun F => { F with loops := rest })
      else (.go start, modFm s c.blk fun F => { F with loops := (start, n - 1) :: rest })) s

def execMjmp (off : Word) (s : State) : Host.Outcome State Fault Refusal :=
  foremanWord (fun s c _ => (.go (c.pc + BitVec.ofInt 56 (8 * off.toInt)), s)) s

/-- `mend` (R350): the stream ends, and the block retires if nothing of it is left (R53). -/
def execMend (s : State) : Host.Outcome State Fault Refusal :=
  match foremanWord (fun s c _ => (.on c, modFm s c.blk fun F => { F with ended := true })) s with
  | .next t => match s.fcur with
    | some (c, _) => .next (retireIfDone t c.blk)
    | none => .next t
  | o => o

/-! ### Fetching (R328, R337, R411) -/

/-- The event of a fetch: the word at FPC is latched for execution, or the fetch faults; one whose memory is out of reach waits
(R396). -/
def execForemanFetch (b : Nat) (s : State) : Host.Outcome State Fault Refusal :=
  match (s.blk b).fm with
  | none => .next s
  | some F =>
    let B := s.blk b
    if F.ended || F.stopped || s.fcur.isSome || !engineRuns s b || wordHeld s b F.fpc then .next s
    else
      match matching (s.ctx B.ctx) 1 B.lin F.fpc.toNat with
      | some (i, wide) => .next (matchBlock s b i wide (engineName s b 2 (F.issued + 1) F.fpc.toNat))
      | none =>
        match fetchWord s b F.fpc with
        | (.error k, s) =>
          if k.code = codeSoftError then
            .next (kill s (.blk b) (plainRec codeSoftError (engineName s b 2 (F.issued + 1) F.fpc.toNat) k.addr 0 .fetch))
          else .next (refuseWord s b codeForemanFetch F.fpc.toNat .fetch)
        | (.ok v, s) =>
          let w : Double := BitVec.ofNat 64 v
          let i := match decodeForeman w with | .ok i => i | .error _ => .foremanWordUnallocated w
          .next { s with fcur := some (⟨b, F.fpc, w⟩, i) }

/-! ### Completion (R325, R332, R351 to R353) -/

/-- Whether a command runs on the array. -/
def onArray (i : Instr) : Bool :=
  match i with
  | .mma _ _ _ _ | .mmas _ _ _ _ _ | .mmax _ _ _ _ _ _ => true
  | _ => false
/-- Cycles of the array that a command takes (R325). -/
def arrayTime (i : Instr) (fenced : Bool) : Nat :=
  let triple : Bool := match i with
    | .mma _ pm _ _ => pm == .triple
    | .mmas _ pm _ _ _ => pm == .triple
    | .mmax _ pm _ _ _ _ => pm == .triple
    | _ => false
  if triple then (if fenced then 128 else 96) else (if fenced then 43 else 32)

/-- What a multiplying command leaves in its tile, with flags: every plane from the state before it. -/
def doMultiply (s : State) (b : Nat) (c : FmCmd) (k : Nat) (m : MatArgs) : State × Flags :=
  (tileSlots k m.three).zipIdx.foldl (fun r e =>
    let t := tileAt s b e.1
    let x := m.plane s b c e.2 t
    (setTile r.1 b e.1 { t with cells := x.1 }, r.2 ||| x.2)) (s, 0)

/-- The effect of a command (R342 to R348), with the flags of its roundings; one that reaches a saved member waits
(R474). -/
def performCmd (s : State) (b : Nat) (c : FmCmd) : Except FmStop (State × Flags) :=
  let mul : BitVec 4 → Except FmStop (State × Flags) := fun k =>
    match cmdArgs s b .effect c with
    | .ok m => .ok (doMultiply s b c k.toNat m)
    | .error e => .error e
  let out : BitVec 3 → (Operand → List MByte × Flags) → Except FmStop (State × Flags) := fun d f =>
    match operandOf s b .effect (laySlot c.slots d) with
    | .ok o => let r := f o; .ok (writeWin s o.blk r.1, r.2)
    | .error e => .error e
  match c.op with
  | .mclr k three int => .ok ((tileSlots k.toNat three).foldl (fun s q => setTile s b q ⟨some int, []⟩) s, 0)
  | .mma k _ _ _ => mul k
  | .mmas k _ _ _ _ => mul k
  | .mmax k _ _ _ _ _ => mul k
  | .mrd k pl d => out d fun o =>
      mrdWrites s b c (if pl = 3 then [(0, k.toNat), (1, k.toNat + 1), (2, k.toNat + 2)]
        else [(pl.toNat, k.toNat + pl.toNat)]) o
  | .mcol k d => out d fun o => mcolWrites s b k.toNat o
  | .mstamp _ a =>
    match clusterAddr s b a.toNat 8 .write with
    | .ok (.win m off) => .ok (writeWin s m (uniWrites (winPlace s m off) 8 c.n), 0)
    | .error (.wait _) => .error .wait
    | _ => .error .refuse
  | _ => .error .refuse

/-- Whether no earlier command of a context must come before one (R351). -/
def cmdReady (s : State) (b : Nat) (F : Foreman) (c : FmCmd) : Bool :=
  !(F.cmds.any fun x => decide (x.n < c.n) && cmdAfter s b x c)
/-- Whether a command of a context waits for a saved member (R474). -/
def cmdWaits (s : State) (b : Nat) (c : FmCmd) : Bool := match cmdArgs s b .effect c with | .error .wait => true | _ => false
/-- Blocks of a core with a ready array command, in the order of their keys (R352). -/
def arrayReady (s : State) (core : Nat) : List Nat :=
  (s.blocks.filter fun e => e.2.core == core && (match e.2.fm with
    | some F => F.cmds.any fun c => onArray c.op && cmdReady s e.1 F c && !cmdWaits s e.1 c
    | none => false)).map (·.1)
/-- The context whose turn it is (R352): the first after the one that last used the array, in turn. -/
def arrayTurn (s : State) (core : Nat) : Option Nat :=
  let bs := arrayReady s core
  let last := (s.core core).lastFm
  match bs.find? fun b => decide (last < b) with
  | some b => some b
  | none => bs.head?
/-- Cycles of array work after which a self-test comes between two commands (R354). -/
def testPeriod : Nat := 65536
/-- Whether a core's array owes a self-test, before which it executes no further command (R354). -/
def testDue (s : State) (core : Nat) : Bool := decide (testPeriod ≤ (s.core core).arrayCycles)
/-- Cycles of a self-test (R354). -/
def testCycles : Nat := 32
/-- The sub-array that a self-test is on: the next in rotation that is not fenced. -/
def testTurn (K : Core) : Nat :=
  (((List.range 4).map fun i => (K.nextSub + i) % 4).find? fun q => !K.fenced.getLsbD q).getD K.nextSub
/-- A self-test of a core's array takes its cycles, which delay the context that comes next; no command before it on that
sub-array is in doubt any more (R354, R491). -/
def runTest (s : State) (core : Nat) : State :=
  let K := s.core core
  let q := testTurn K
  let s := match arrayTurn s core with
    | some b => countCycles s (s.blk b).ctx core 0x22 0 testCycles
    | none => s
  (unitCount s core 10 testCycles).modCore core fun K => { K with
    arrayCycles := 0, nextSub := (q + 1) % 4, suspects := K.suspects.filter fun e => e.1 / 2 ^ 40 != q }

/-- Key of a block's suspect command on a sub-array (R491). -/
def suspectKey (sub b : Nat) : Nat := sub * 2 ^ 40 + b

/-- What a command adds to LSCONF: nothing when no two of the pieces it reads share a bank; otherwise the order of the
engine's reads decides how many cycles pieces that share one cost, which the specification leaves open (R332, log 29). -/
def bankStalls (s : State) (b : Nat) (c : FmCmd) : Word × State :=
  match cmdArgs s b .reach c with
  | .error _ => (0, s)
  | .ok m =>
    if bankClash (m.pieces s) [] then
      let (i, s) := s.fresh
      (Config.freeWord i, s)
    else (0, s)
/-- Account for a command that used the array: cycles, the sub-arrays that computed it, and bank conflicts. -/
def arrayAccount (s : State) (b : Nat) (c : FmCmd) : State :=
  let B := s.blk b
  let t := arrayTime c.op ((s.core B.core).fenced != 0)
  let s := s.modCore B.core fun K => { K with
    arrayCycles := K.arrayCycles + t
    lastFm := b
    suspects := (List.range 4).foldl (fun u q =>
      if K.fenced.getLsbD q then u
      else
        match Tab.find u (suspectKey q b) with
        | some x => if c.n < x.n then Tab.put u (suspectKey q b) ⟨c.n, c.pc, B.launch, B.lin⟩ else u
        | none => Tab.put u (suspectKey q b) ⟨c.n, c.pc, B.launch, B.lin⟩) K.suspects }
  let s := unitCount (countCycles s B.ctx B.core 0x20 0 t) B.core 9 t
  let (n, s) := bankStalls s b c
  s.modBlk b fun B => { B with lsconf := B.lsconf + n }

/-- Stop at the sequence comparators that a timeline has reached (R411, R412): the first names the halt, by the command of
its number. -/
def sequenceMatch (s : State) (b kind before now : Nat) (passed : List DoneCmd) : State :=
  let B := s.blk b
  let C := s.ctx B.ctx
  let ms := C.comparators.zipIdx.filter fun e => e.1.kind == kind && e.1.covers B.lin
    && decide (before < e.1.addr.toNat) && decide (e.1.addr.toNat ≤ now)
  match ms with
  | [] => s
  | (k, i) :: _ =>
    if armed C then
      let pc := ((passed.find? fun d => d.n == k.addr.toNat).map (·.pc.toNat)).getD 0
      matchBlock s b i (ms.any (·.1.wide)) (engineName s b (kind - 1) k.addr.toNat pc)
    else s

/-- The number below which every command of a list has completed (R165). -/
def timelineTop (issued : Nat) (ns : List Nat) : Nat := ns.foldl (fun a n => min a (n - 1)) issued
/-- The widest release scope of some commands and one more. -/
def widestScope (a : Nat) (ds : List DoneCmd) : Nat := ds.foldl (fun a d => max a d.scope) a

/-- Release scope of a Foreman command: block scope, but for a stamp's own (R165, R348). -/
def cmdScope (i : Instr) : Nat := match i with | .mstamp true _ => scopeCode .cluster | _ => scopeCode .block
/-- A command has taken effect: its flags for every warp of the block, its account, and the timeline (R165, R353). -/
def cmdDone (s : State) (b : Nat) (F : Foreman) (c : FmCmd) (fl : Flags) : State :=
  let B := s.blk b
  let s := s.mapWarps fun _ W => if W.blk = some b then W.addFlags fl 0 else W
  let rest := F.cmds.filter fun x => x.n != c.n
  let top := timelineTop F.issued (rest.map (·.n))
  let ds := F.above ++ [⟨c.n, cmdScope c.op, c.pc⟩]
  let passed := ds.filter fun d => decide (d.n ≤ top)
  let s := modFm s b fun F => { F with
    cmds := rest, timeline := top, above := ds.filter fun d => decide (top < d.n), scope := widestScope F.scope passed }
  let s := if onArray c.op then arrayAccount s b c else s
  let s := count s B.ctx B.core 0x21 1
  retireIfDone (sequenceMatch s b 3 F.timeline top passed) b
/-- Complete a command: its effect, and what follows from it; one that waits does not complete. -/
def completeCmd (s : State) (b : Nat) (F : Foreman) (c : FmCmd) : State :=
  match performCmd s b c with
  | .error .wait => s
  | .error .refuse => cmdDone s b F c 0
  | .ok (t, fl) => cmdDone t b F c fl

/-- Whether an array command must let others come first: a self-test, or the context whose turn it is (R352, R354). -/
def arrayBusy (s : State) (b : Nat) : Bool :=
  let core := (s.blk b).core
  testDue s core || arrayTurn s core != some b
/-- The event of a completion: command n, when no earlier command of the context must come first and the array is the
context's to use. -/
def execForemanCommandComplete (b n : Nat) (s : State) : Host.Outcome State Fault Refusal :=
  let B := s.blk b
  match B.fm with
  | none => .next s
  | some F =>
    match F.cmds.find? fun c => c.n == n with
    | none => .next s
    | some c =>
      if !cmdReady s b F c || (onArray c.op && arrayBusy s b) then .next s
      else .next (completeCmd s b F c)

end Sys2Proof.Machine
end

