-- ==== Sys2Proof/Machine/Carter.lean ====
section
/-! DEFINITION. Carter commands: their beginning, pieces and completion (R163 to R169, R262, R263, R330, R488, R489), and
the pieces of `cpa` (R261). -/
namespace Sys2Proof.Machine

/-! ### Command records (Table 10-5) -/

/-- The fields of a command record. -/
structure CopyRec where
  src : Nat
  dst : Nat
  len : Nat
  flags : Nat
  mask : Nat
  scope : Nat
  stampAddr : Nat
  lsrc : Nat
  ldst : Nat
  rest : Nat
deriving DecidableEq, Repr

/-- Read a record's fields. -/
def CopyRec.ofBytes (bs : List Byte) : CopyRec :=
  ⟨field bs 0 8, field bs 8 8, field bs 0x10 4, field bs 0x14 2, field bs 0x16 1, field bs 0x17 1, field bs 0x18 8,
    field bs 0x20 8, field bs 0x28 8, field bs 0x30 16⟩

def CopyRec.srcSeg (r : CopyRec) : Option Seg := copySeg (r.flags % 8)
def CopyRec.dstSeg (r : CopyRec) : Option Seg := copySeg (r.flags / 8 % 8)
def CopyRec.stamp (r : CopyRec) : Bool := r.flags.testBit 6
def CopyRec.mcast (r : CopyRec) : Bool := r.flags.testBit 7
def CopyRec.bar (r : CopyRec) : Option Nat := if r.flags.testBit 12 then some (r.flags / 256 % 16) else none
/-- Whether it is a layout copy. -/
def CopyRec.layout (r : CopyRec) : Bool := r.lsrc != 0 && r.ldst != 0
/-- Members that a multicast names; none without one. -/
def CopyRec.members (r : CopyRec) : List (Option Nat) :=
  if r.mcast then ((List.range 8).filter r.mask.testBit).map some else [none]

/-- The rules of R263 that a record's own fields decide. -/
def CopyRec.ok (r : CopyRec) (teamSize : Nat) : Bool :=
  r.flags / 2 ^ 13 == 0 && r.srcSeg.isSome && r.dstSeg.isSome && decide (2 ≤ r.scope) && decide (r.scope ≤ 8) && r.rest == 0
  && ((r.lsrc == 0) == (r.ldst == 0))
  && (if r.layout then r.len == 0 && r.lsrc % 64 == 0 && r.ldst % 64 == 0
      else r.len % 16 == 0 && decide (16 ≤ r.len) && decide (r.len ≤ 2 ^ 30) && r.src % 16 == 0 && r.dst % 16 == 0)
  && (!r.stamp || r.stampAddr % 8 == 0)
  && (!r.mcast || (r.dstSeg == some .loc && r.mask != 0 && decide (r.mask < 2 ^ teamSize)))

/-- The rules that the two layout records of a copy must keep (R263, R330). -/
def layoutsMatch (a b : Layout) : Bool :=
  a.typ == b.typ && a.ext == b.ext && a.dims == b.dims && !b.bitplane && a.sib == b.sib

/-! ### Accesses of a command -/

def codeCopyRecord : Nat := 0x0501
def codeCopyAccess : Nat := 0x0502

/-- The view of a command: its block's context, launch, core and window, and the segments of its issuer. -/
def copyAgent (s : State) (b : Nat) (c : CopyCmd) : Warp :=
  let B := s.blk b
  { Warp.absent with ctx := B.ctx, launch := B.launch, blk := some b, core := B.core, segs := c.segs }

/-- Locate n bytes at an address that may be negative. -/
def locateAt (s : State) (W : Warp) (g : Seg) (v : Int) (n : Nat) (k : AccKind) : Except Stop Place × State :=
  if v < 0 then (.error (.cause ⟨codeSegment, wrapInt 64 v, k⟩), s)
  else
    match locate s W 0 g v.toNat 0 n k false with
    | (.error e, s) => (.error e, s)
    | (.ok p, s) =>
      match linkCheck s p n k with
      | (some c, s) => (.error (.cause c), s)
      | (none, s) => (.ok p, s)

/-- Bytes of a place as a command of a block reads them (R386, R387, R495): through the block's staged stores, when the
place can be reached (R379, R396). -/
def copyBytes (s : State) (b : Nat) (p : Place) (a n size : Nat) : Except Stop (List Byte) × State :=
  let B := s.blk b
  if linkDown s p then (.error (.wait .link), s)
  else if budgetHeld s B.ctx p false then (.error (.wait (p.budgetWait false)), s)
  else
    match orderedLoad s b p size p.va with
    | .error e => (.error e, s)
    | .ok s =>
      if aliased s p size (stagedStores s B.launch B.lin) then (.error (.wait .head), s)
      else if poisoned s p size then (.error (.cause ⟨codeSoftError, p.va, .read⟩), s)
      else (.ok (overlay (stagedStores s B.launch B.lin) p.sram a (freshBytes s p a n)), chargeBytes s B.ctx p n false)

/-- Write a piece: staged in an ordered launch where R387 asks for it (log 30). -/
def copyWrite (s : State) (b : Nat) (c : CopyCmd) (p : Place) (n : Nat) (ws : List MByte) : Except Stop State :=
  let B := s.blk b
  if linkDown s p then .error (.wait .link)
  else if budgetHeld s B.ctx p true then .error (.wait (p.budgetWait true))
  else if p.tracked then
    let head := isHead s b
    match hallWrite s B.launch B.lin head false ws (placeLines p n) with
    | none => .error (.cause ⟨codeOrderHazard, p.va, .write⟩)
    | some (stage, t) =>
      if stage && !head then
        if stageCapacity ≤ stagesUsed s (dieOf B.core) then .error (.wait .stage)
        else
          let op : StoreOp := ⟨p, n, ws, none, .device, false, c.pc, c.slot, 0, 0, 0⟩
          .ok (t.modLaunch B.launch fun L =>
            { L with stages := L.stages ++ [⟨B.lin, dieOf B.core, op, c.warp, t.next, 0, engineName s b 1 c.n c.pc.toNat⟩] })
      else .ok (chargeBytes (writeTracked t B.core B.launch (some B.lin) p ws) B.ctx p n true)
  else .ok (chargeBytes (writePlace s B.core p ws) B.ctx p n true)

/-- The destination segment and address of a piece (R122, R263). -/
def pieceDest (seg : Seg) (member : Option Nat) (v : Int) : Seg × Int :=
  match member with
  | none => (seg, v)
  | some t => (.clus, if v < 0 then v else if 2 ^ 20 ≤ v then 2 ^ 22 else v + t * 2 ^ 20)

/-- A flat piece (R163): its destination and writes. -/
def flatPiece (s : State) (b : Nat) (c : CopyCmd) (r : CopyRec) (p : Piece) : Except Stop (Place × Nat × List MByte) × State :=
  let W := copyAgent s b c
  match locateAt s W (r.srcSeg.getD .glob) (r.src + 16 * p.index : Nat) 16 .read with
  | (.error e, s) => (.error e, s)
  | (.ok src, s) =>
    match copyBytes s b src (src.data 16 0) 16 16 with
    | (.error e, s) => (.error e, s)
    | (.ok bs, s) =>
      let d := pieceDest (r.dstSeg.getD .glob) p.member (r.dst + 16 * p.index : Nat)
      match locateAt s W d.1 d.2 16 .write with
      | (.error e, s) => (.error e, s)
      | (.ok dst, s) => (.ok (dst, 16, wholeBytes (dst.data 16 0) bs), s)

/-- An element as it moves: its copies, and its meta element or digit field. -/
structure Moved where
  copies : List Nat
  extra : Nat
deriving DecidableEq, Repr

/-- Read n bytes of an element at an address of a tensor's side, whose layout the memory must have (R330). -/
def sideElem (s : State) (b : Nat) (W : Warp) (g : Seg) (l : Layout) (v : Int) (n : Nat) : Except Stop Moved × State :=
  match locateAt s W g v n .read with
  | (.error e, s) => (.error e, s)
  | (.ok p, s) =>
    if p.sib ≠ l.sib then (.error (.cause ⟨codeSibLayout, p.va, .read⟩), s)
    else
      match l.sib with
      | .plain =>
        match copyBytes s b p (p.data n 0) n n with
        | (.error e, s) => (.error e, s)
        | (.ok bs, s) => (.ok ⟨[leNat bs], 0⟩, s)
      | .triple =>
        match copyBytes s b p (p.data n 0) (4 * n) n with
        | (.error e, s) => (.error e, s)
        | (.ok bs, s) => (.ok ⟨[field bs 0 n, field bs n n, field bs (2 * n) n], field bs (3 * n) n⟩, s)
      | .mean =>
        match copyBytes s b p (p.data n 0) n n with
        | (.error e, s) => (.error e, s)
        | (.ok bs, s) =>
          match copyBytes s b p p.digit 2 n with
          | (.error e, s) => (.error e, s)
          | (.ok ds, s) =>
            let d := leNat ds
            (.ok ⟨[leNat bs], if n = 8 then d else if n = 4 then d % 256 else if p.off % 4 = 0 then d % 16 else d / 16 % 16⟩, s)

/-- Assemble the planes of a bit-plane element (R66). -/
def sidePlanes (s : State) (b : Nat) (W : Warp) (g : Seg) (l : Layout) (base : Int) (bit : Nat) (spot : Nat → Int) :
    List Nat → List Nat → Except Stop Moved × State
  | [], acc => (.ok ⟨acc, 0⟩, s)
  | j :: t, acc =>
    match sideElem s b W g l (base + spot j) 8 with
    | (.error e, s) => (.error e, s)
    | (.ok m, s) =>
      sidePlanes s b W g l base bit spot t ((m.copies.zipIdx).map fun (v, i) =>
        acc.getD i 0 + if v.testBit bit then 2 ^ j else 0)

/-- Read the element of an index of a source tensor. -/
def sourceElem (s : State) (b : Nat) (W : Warp) (g : Seg) (l : Layout) (base : Int) (i : Int × Int × Int × Int) :
    Except Stop Moved × State :=
  if l.bitplane then
    sidePlanes s b W g l base (i.1.toNat % 64) (l.planeSpot i.1 i.2.1 i.2.2.1 i.2.2.2) l.planesRead []
  else
    let (a, sh) := l.spot i.1 i.2.1 i.2.2.1 i.2.2.2
    match sideElem s b W g l (base + a) l.size with
    | (.error e, s) => (.error e, s)
    | (.ok m, s) => (.ok { m with copies := m.copies.map fun v => v / 2 ^ sh % 2 ^ l.width }, s)

/-- Writes of an element to a packed destination, its copies and its meta element or digit field with it (R330). -/
def movedWrites (p : Place) (l : Layout) (sh : Nat) (m : Moved) : List MByte :=
  let n := l.size
  let v := m.copies.headD 0
  match l.sib with
  | .plain => plainElem l p sh v
  | .triple =>
    wholeBytes (p.data n 0) ((m.copies.flatMap (leBytes n)) ++ leBytes n m.extra)
  | .mean =>
    if n = 8 then wholeBytes (p.data n 0) (leBytes 8 v) ++ wholeBytes p.digit (leBytes 2 m.extra)
    else meanWrites p n m.extra v

/-- An element of a layout copy (R263): its destination and writes. -/
def layoutPiece (s : State) (b : Nat) (c : CopyCmd) (r : CopyRec) (ls ld : Layout) (p : Piece) :
    Except Stop (Place × Nat × List MByte) × State :=
  let W := copyAgent s b c
  let i := ls.indices p.index
  match sourceElem s b W (r.srcSeg.getD .glob) ls (ls.base + r.src : Nat) i with
  | (.error e, s) => (.error e, s)
  | (.ok m, s) =>
    let (a, sh) := ld.spot i.1 i.2.1 i.2.2.1 i.2.2.2
    let d := pieceDest (r.dstSeg.getD .glob) p.member ((ld.base + r.dst : Nat) + a)
    match locateAt s W d.1 d.2 ld.size .write with
    | (.error e, s) => (.error e, s)
    | (.ok dst, s) =>
      if dst.sib ≠ ld.sib then (.error (.cause ⟨codeSibLayout, dst.va, .write⟩), s)
      else (.ok (dst, ld.size, movedWrites dst ld sh m), s)

/-- A piece of a command: its destination and writes, or what stops it. -/
def copyPiece (s : State) (b : Nat) (c : CopyCmd) (p : Piece) : Except Stop (Place × Nat × List MByte) × State :=
  let r := CopyRec.ofBytes c.record
  match c.lays with
  | none => flatPiece s b c r p
  | some (x, y) => layoutPiece s b c r (Layout.ofBytes x) (Layout.ofBytes y) p

/-! ### Beginning (R263, R411, R489) -/

/-- Change a command of a block. -/
def modCopy (s : State) (b n : Nat) (f : CopyCmd → CopyCmd) : State :=
  s.modBlk b fun B => { B with carter := { B.carter with
    cmds := B.carter.cmds.map fun c => if c.n = n then f c else c } }
/-- Remove the entries of a copy from every scoreboard. -/
def clearBoards (s : State) (own : PieceSrc) : State :=
  { s with cores := s.cores.map fun e =>
      if e.2.board.any fun x => x.owner == own then (e.1, { e.2 with board := e.2.board.filter fun x => x.owner != own })
      else e }
/-- A command goes: its scoreboard entries, the warp's count of it, and any tracker entry that holds it. -/
def dropCopy (s : State) (b n : Nat) : State :=
  let c := (s.blk b).carter.cmds.find? fun c => c.n == n
  let s := s.modBlk b fun B => { B with carter := { B.carter with cmds := B.carter.cmds.filter fun c => c.n != n } }
  let s := clearBoards s (.carter b n 0)
  let s := match c with
    | some c => s.modWarp c.warp fun W => { W with copies := W.copies.filter (· != n) }
    | none => s
  { s with cores := s.cores.map fun e =>
      if e.2.tracker.any fun t => t.blk == some b && t.copy == some n then
        (e.1, { e.2 with tracker := e.2.tracker.filter fun t => !(t.blk == some b && t.copy == some n) })
      else e }

/-- A command fails (R488, R489): an engine fault of its block; for a block that has been killed nothing more is
reported (R473), and for one that has retired the launch and its context take it (R475, log 31). While a fault of its context is
being reported, the dump alone records it (R502). -/
def copyFail (s : State) (b : Nat) (c : CopyCmd) (code addr : Nat) (k : AccKind) : State :=
  let B := s.blk b
  if B.killed then dropCopy s b c.n
  else if B.state = .retired then
    let n := engineName s b 1 c.n c.pc.toNat
    let r : FaultRec := { plainRec code n addr 0 k with exited := true }
    ctxFault (dropCopy (launchFault s B.launch r) b c.n) B.ctx B.core (some B.launch) code 0 addr n none
  else if (s.ctx B.ctx).fault.isSome then modCopy s b c.n fun c => { c with fault := some code }
  else engineFault (modCopy s b c.n fun c => { c with fault := some code }) b 1 c.n c.pc.toNat code addr k

/-- Read pieces of 16 bytes as a command reads them; a hazard of one undoes what the others entered (R478). -/
def copyPieces (s : State) (b : Nat) : List Place → Except Stop (List Byte) × State
  | [] => (.ok [], s)
  | p :: t =>
    match linkCheck s p 16 .read with
    | (some c, s) => (.error (.cause c), s)
    | (none, u) =>
      match copyBytes u b p (p.data 16 0) 16 16 with
      | (.error e, u) => (.error e, u)
      | (.ok bs, u) =>
        match copyPieces u b t with
        | (.error e, u) => (.error e, restoreHall s u (s.blk b).launch)
        | (.ok rest, u) => (.ok (bs ++ rest), u)
/-- Read a layout record for Carter (R330, R386). -/
def readLayout (s : State) (b : Nat) (W : Warp) (addr : Nat) : Except Stop (List Byte) × State :=
  match locatePieces s W 0 .glob addr 64 64 .read with
  | (.error e, s) => (.error e, s)
  | (.ok (_, ps), s) => copyPieces s b ps

/-- Pieces of a command: of each index, one for each member of a multicast. -/
def piecesFor (n : Nat) (ms : List (Option Nat)) : List Piece := (List.range n).flatMap fun i => ms.map fun m => ⟨i, m⟩

/-- Where n bytes at an address of a command lie: a window or memory, and the runs of bytes; none where they cannot be
located. -/
def reachAt (s : State) (W : Warp) (g : Seg) (k : AccKind) (v : Int) (n : Nat) : List (Option Nat × Nat × Nat) :=
  match (locateAt s W g v n k).1 with
  | .ok p => (p.runs n).map fun r => (p.sram, r.1, r.1 + r.2)
  | .error _ => []
/-- Put a run of bytes after others, one with the last where it adjoins that. -/
def joinRun (a : List (Option Nat × Nat × Nat)) (r : Option Nat × Nat × Nat) : List (Option Nat × Nat × Nat) :=
  match a with
  | x :: t => if x.1 = r.1 ∧ x.2.2 = r.2.1 then (x.1, x.2.1, r.2.2) :: t else r :: x :: t
  | [] => [r]
/-- The bytes that a command is still to write. -/
def writesLeft (s : State) (b : Nat) (c : CopyCmd) : List (Option Nat × Nat × Nat) :=
  let r := CopyRec.ofBytes c.record
  let W := copyAgent s b c
  let at_ : Option Nat → Int → Nat → List (Option Nat × Nat × Nat) := fun m v n =>
    let d := pieceDest (r.dstSeg.getD .glob) m v
    reachAt s W d.1 .write d.2 n
  (c.pieces.flatMap fun p =>
    match c.lays with
    | none => at_ p.member (r.dst + 16 * p.index : Nat) 16
    | some (x, y) =>
      let i := (Layout.ofBytes x).indices p.index
      let l := Layout.ofBytes y
      at_ p.member ((l.base + r.dst : Nat) + (l.spot i.1 i.2.1 i.2.2.1 i.2.2.2).1) l.size).foldl joinRun []
/-- The bytes that a command reads, whose source's layout is given. -/
def readsAll (s : State) (b : Nat) (c : CopyCmd) (lay : Option Layout) : List (Option Nat × Nat × Nat) :=
  let r := CopyRec.ofBytes c.record
  let W := copyAgent s b c
  let g := r.srcSeg.getD .glob
  (match lay with
  | none => (List.range (r.len / 16)).flatMap fun i => reachAt s W g .read (r.src + 16 * i : Nat) 16
  | some l => (List.range l.count).flatMap fun i =>
      let x := l.indices i
      (l.touches x.1 x.2.1 x.2.2.1 x.2.2.2).flatMap fun (t : Int × Nat) => reachAt s W g .read ((l.base + r.src : Nat) + t.1) t.2).foldl joinRun []
/-- Whether a command must wait for the data of an earlier one (R164): it reads bytes that the other is still to write,
wherever their addresses name them. -/
def sourceAfter (s : State) (b : Nat) (c : CopyCmd) (lay : Option Layout) : Bool :=
  match ((s.blk b).carter.cmds.filter fun x => decide (x.n < c.n)).flatMap (writesLeft s b) with
  | [] => false
  | ws => (readsAll s b c lay).any fun r => ws.any fun w => r.1 == w.1 && overlaps r.2.1 (r.2.2 - r.2.1) w.2.1 (w.2.2 - w.2.1)

/-- Begin a command: its record is checked, and its pieces are in flight; one whose source an earlier command is still to
write does not begin. -/
def startCopy (s : State) (b : Nat) (c : CopyCmd) : State :=
  let r := CopyRec.ofBytes c.record
  let refuse : State → State := fun s => copyFail s b c codeCopyRecord c.recAddr .read
  let go : State → Option Layout → Option (List Byte × List Byte) → Nat → State := fun t lay lays n =>
    if sourceAfter t b c lay then s
    else modCopy t b c.n fun c => { c with started := true, lays := lays, pieces := piecesFor n r.members }
  let stop : Stop → Nat → State → State := fun e addr t =>
    match e with
    | .wait _ => s
    | .cause k =>
      if k.code = codeSoftError then
        kill t (.blk b) (plainRec codeSoftError (engineName t b 1 c.n c.pc.toNat) k.addr 0 .read)
      else copyFail t b c codeCopyAccess addr .read
  if !r.ok (s.blk b).teamSize then refuse s
  else if !r.layout then go s none none (r.len / 16)
  else
    let W := copyAgent s b c
    match readLayout s b W r.lsrc with
    | (.error e, t) => stop e r.lsrc t
    | (.ok x, t) =>
      match readLayout t b W r.ldst with
      | (.error e, u) => stop e r.ldst (restoreHall s u (s.blk b).launch)
      | (.ok y, t) =>
        match Layout.parse false x, Layout.parse false y with
        | some p, some q => if layoutsMatch p q then go t (some p) (some (x, y)) p.count else refuse t
        | _, _ => refuse t

/-- The event of a command's beginning: commands of a context begin in order, so that every stop has a boundary (R409). -/
def execCopyCommandStart (b n : Nat) (s : State) : Host.Outcome State Fault Refusal :=
  let B := s.blk b
  match B.carter.cmds.find? fun c => c.n == n with
  | none => .next s
  | some c =>
    if c.started || c.fault.isSome || !(engineRuns s b || B.state == .retired)
      || B.carter.cmds.any (fun x => x.fault.isSome)
      || B.carter.cmds.any (fun x => decide (x.n < n) && !x.started)
      || sequenceHolds s b 2 (n - 1) B.carter.timeline then .next s
    else .next (startCopy s b c)

/-! ### Landing (R163, R166, R263) -/

/-- The fault of a piece as it stands, with its address and kind. -/
def pieceFault (s : State) (b : Nat) (c : CopyCmd) (p : Piece) : Option (Nat × AccKind) :=
  match (copyPiece s b c p).1 with
  | .error (.cause k) => some (k.addr, k.kind)
  | _ => none
/-- The lowest address of a faulting piece (Table 22-3). -/
def lowestFault (s : State) (b : Nat) (c : CopyCmd) (k : Cause) : Nat × AccKind :=
  (c.pieces.filterMap (pieceFault s b c)).foldl (fun a x => if x.1 < a.1 then x else a) (k.addr, k.kind)

/-- Bytes of writes that count for a barrier, each once (R263): where elements may share bytes, those counted so far are
remembered. -/
def countBytes (owner : Nat) (apart : Bool) (seen : List (Nat × Nat)) : List MByte → Nat × List (Nat × Nat)
  | [] => (0, seen)
  | w :: t =>
    if apart && w.mask = 0xFF then
      let (n, u) := countBytes owner apart seen t
      (n + 1, u)
    else if seen.contains (owner, w.addr) then countBytes owner apart seen t
    else
      let (n, u) := countBytes owner apart ((owner, w.addr) :: seen) t
      (n + 1, u)
/-- Whether no two elements of a command's destination share a whole byte. -/
def CopyCmd.apart (c : CopyCmd) : Bool := match c.lays with | some (_, y) => (Layout.ofBytes y).nested | none => true
/-- Whether a context beyond its guarantee of Carter bytes must let another's copies on its core go first (R379). -/
def carterRival (s : State) (b : Nat) : Bool :=
  let B := s.blk b
  !inGuarantee s B.ctx .carter B.core && s.blocks.any fun e =>
    e.2.core == B.core && e.2.ctx != B.ctx && inGuarantee s e.2.ctx .carter B.core && e.2.carter.cmds.any fun c =>
      c.started && c.fault.isNone && c.pieces.any fun p =>
        match (copyPiece s e.1 c p).1 with | .ok _ => true | .error _ => false

/-- A piece has been written: its bytes go to the barrier of the window that they landed in. -/
def landPiece (s : State) (b : Nat) (c : CopyCmd) (idx : Nat) (dst : Place) (ws : List MByte) : State :=
  let r := CopyRec.ofBytes c.record
  let owner := dst.sram.getD b
  let (n, seen) := countBytes owner c.apart c.seen ws
  let s := modCopy s b c.n fun c => { c with
    pieces := dropAt c.pieces idx
    seen := seen
    moved := c.moved + n
    landed := if r.bar.isSome then Tab.write 0 c.landed owner (Tab.read 0 c.landed owner + n) else c.landed }
  let s := charge (count s (s.blk b).ctx (s.blk b).core 0x23 n) (s.blk b).ctx .carter (s.blk b).core n
  match r.bar with
  | some k => landBytes s owner k n c.n
  | none => s

/-- Land one piece of a block's command. -/
def carterLand (s : State) (b n idx : Nat) : State :=
  match (s.blk b).carter.cmds.find? fun c => c.n == n with
  | none => s
  | some c =>
    if !c.started || c.fault.isSome || atCap s (s.blk b).ctx .carter (s.blk b).core || carterRival s b then s
    else
      match c.pieces[idx]? with
      | none => s
      | some p =>
        let stop : Stop → State → State := fun e t =>
          match e with
          | .wait _ => s
          | .cause k =>
            if k.code = codeSoftError then
              kill t (.blk b) (plainRec codeSoftError (engineName t b 1 n c.pc.toNat) k.addr 0 .read)
            else
              let low := lowestFault s b c k
              copyFail t b c codeCopyAccess low.1 low.2
        match copyPiece s b c p with
        | (.error e, t) => stop e t
        | (.ok (dst, size, ws), t) =>
          match copyWrite t b c dst size ws with
          | .error e => stop e t
          | .ok t => landPiece t b c idx dst ws

/-- Where a `cpa` piece stands: with its warp, or in a tracker. -/
def cpaAt (s : State) (w idx : Nat) : Option (CpaPiece × Warp × Bool) :=
  match Tab.find s.warps w with
  | some W => W.cpas[idx]?.map fun p => (p, W, W.heldStores)
  | none =>
    let ts := s.cores.flatMap fun e => (e.2.tracker.filter fun t => t.warp == w && t.cpa.isSome).map fun t => (e.1, t)
    ts[idx]?.bind fun e => e.2.cpa.map fun p =>
      (p, { Warp.absent with ctx := e.2.ctx, launch := e.2.launch, blk := e.2.blk, wid := e.2.wid, core := e.1 }, e.2.held)

/-- Remove a `cpa` piece, and its instruction's scoreboard entries when it was the last. -/
def dropCpa (s : State) (w idx : Nat) (p : CpaPiece) : State :=
  let s := match Tab.find s.warps w with
    | some _ => s.modWarp w fun W => { W with cpas := dropAt W.cpas idx }
    | none => { s with cores := s.cores.map fun e =>
        (e.1, { e.2 with tracker := e.2.tracker.filter fun t => !(t.warp == w && t.cpa == some p) }) }
  let left := (s.warp w).cpas.any (fun q => q.id == p.id)
    || s.cores.any (fun e => e.2.tracker.any fun t => t.warp == w && (t.cpa.map (·.id) == some p.id))
  if left then s else clearBoards s (.cpa w p.id)

/-- The report of a store of a warp: to the warp or its block, or to the launch when both have gone (R475). -/
def reportImprecise (s : State) (w : Nat) (W : Warp) (r : FaultRec) : State :=
  if (Tab.find s.warps w).isSome then addFault s (ownerOf w W) r
  else
    let gone : Bool := match W.blk with | some b => (s.blk b).state == .retired | none => true
    if gone then
      let r := { r with exited := true, alive := false }
      ctxFault (launchFault s W.launch r) W.ctx W.core (some W.launch) r.code 0 r.addr r.name none
    else addFault s (ownerOf w W) { r with exited := true }

/-- Hold what a warp has outstanding after an imprecise fault, or discard it where nobody can answer for it (R476). -/
def holdWarp (s : State) (w : Nat) (W : Warp) : State :=
  if (Tab.find s.warps w).isSome then s.modWarp w fun W => { W with heldStores := true }
  else
    let gone : Bool := match W.blk with | some b => (s.blk b).state == .retired | none => true
    let keep : List Track → List Track := fun ts =>
      if gone then ts.filter (fun t => t.warp != w || t.copy.isSome)
      else ts.map (fun t => if t.warp = w then { t with held := true } else t)
    { s with cores := s.cores.map fun e => (e.1, { e.2 with tracker := keep e.2.tracker }) }

/-- The 16 bytes of a `cpa`'s source, through the block's staged stores. Its read, tracked at issue, is made now: a write of
another block since then is a hazard of it (R386, R387, R392, log 100). -/
def stagedBytes (s : State) (b : Nat) (p : Place) (n : Nat) : Except Stop (List Byte × State) :=
  let B := s.blk b
  match orderedLoad s b p n p.va with
  | .error e => .error e
  | .ok t =>
    if aliased t p n (stagedStores t B.launch B.lin) then .error (.wait .head)
    else if poisoned t p n then .error (.cause ⟨codeSoftError, p.va, .read⟩)
    else .ok (overlay (stagedStores t B.launch B.lin) p.sram (p.data n 0) (freshBytes t p (p.data n 0) n), t)

/-- Land one piece of a `cpa` (R261). -/
def cpaLand (s : State) (w idx : Nat) : State :=
  match cpaAt s w idx with
  | none => s
  | some (p, W, held) =>
    if held then s
    else
      let b := p.dstBlk
      let fail : Cause → State → State := fun k t =>
        if k.code = codeSoftError then
          kill t (ownerOf w W) (plainRec codeSoftError (nameOf t W p.pc.toNat) k.addr p.slot .read)
        else
          reportImprecise (holdWarp t w W) w W
            ⟨none, k.code, true, false, true, p.slot, nameOf t W p.pc.toNat, k.addr, k.kind, none⟩
      match linkCheck s p.src 16 .read with
      | (some k, t) => fail k t
      | (none, t) =>
        if linkDown t p.src || budgetHeld t W.ctx p.src false then s
        else
          match stagedBytes t b p.src 16 with
          | .error (.wait _) => s
          | .error (.cause k) => fail k t
          | .ok (bs, t) =>
            let t := writePlace (chargeBytes t W.ctx p.src 16 false) W.core p.dst (wholeBytes (p.dst.data 16 0) bs)
            let t := dropCpa t w idx p
            match p.bar with
            | some k => landBytes t b k 16 0
            | none => t

/-- The event of a landing. -/
def execCopyPieceLand (src : PieceSrc) (s : State) : Host.Outcome State Fault Refusal :=
  match src with
  | .carter b n idx => .next (carterLand s b n idx)
  | .cpa w idx => .next (cpaLand s w idx)

/-! ### Completion (R165, R167) -/

/-- Write a stamp: a structure access, or an element of the window (R167, R521). -/
def copyStamp (s : State) (b : Nat) (c : CopyCmd) (r : CopyRec) : Except Stop State × State :=
  match locateAt s (copyAgent s b c) (r.dstSeg.getD .glob) (r.stampAddr : Nat) 8 .write with
  | (.error e, s) => (.error e, s)
  | (.ok p, s) =>
    if p.sram.isNone && p.sib != .plain then (.error (.cause ⟨codeSibLayout, p.va, .write⟩), s)
    else
      match copyWrite s b c p 8 (uniWrites p 8 c.n) with
      | .error e => (.error e, s)
      | .ok t => (.ok t, t)

/-- A command that had begun at the stop for a dump has completed: its entry there is as it now stands (Table 22-10). -/
def noteCopy (s : State) (b : Nat) (c : CopyCmd) : State :=
  if (s.ctx (s.blk b).ctx).begun = [] then s
  else s.modCtx (s.blk b).ctx fun C => { C with
    begun := C.begun.map fun e => if e.1 = b ∧ e.2.n = c.n then (b, c) else e }
/-- A command has completed: the timeline advances, and comparators look at it (R165, R411). -/
def finishCopy (s : State) (b : Nat) (c : CopyCmd) : State :=
  let before := (s.blk b).carter.timeline
  let s := dropCopy (noteCopy s b c) b c.n
  let K := (s.blk b).carter
  let top := max before (timelineTop K.issued (K.cmds.map (·.n)))
  let ds := K.above ++ [⟨c.n, (CopyRec.ofBytes c.record).scope, c.pc⟩]
  let passed := ds.filter fun d => decide (d.n ≤ top)
  let s := s.modBlk b fun B => { B with carter := { B.carter with
    timeline := top, above := ds.filter fun d => decide (top < d.n), scope := widestScope K.scope passed } }
  sequenceMatch s b 2 before top passed

/-- Complete a command whose every piece has landed: its stamp is written first (R167). -/
def completeCopy (s : State) (b n : Nat) : State :=
  match (s.blk b).carter.cmds.find? fun c => c.n == n with
  | none => s
  | some c =>
    if !c.started || c.fault.isSome || c.pieces ≠ [] then s
    else
      let r := CopyRec.ofBytes c.record
      if r.stamp then
        match copyStamp s b c r with
        | (.error (.wait _), _) => s
        | (.error (.cause _), t) => copyFail t b c codeCopyAccess r.stampAddr .write
        | (.ok t, _) => finishCopy t b c
      else finishCopy s b c

/-- The event of a completion. -/
def execCopyCommandComplete (b n : Nat) (s : State) : Host.Outcome State Fault Refusal := .next (completeCopy s b n)

end Sys2Proof.Machine
end

