-- ==== Sys2Proof/Machine/LaneAbacus.lean ====
section
/-! DEFINITION. The Abacus instructions (R86 to R88, R246 to R252). -/
namespace Sys2Proof.Machine

/-- An Abacus register when its block starts (R246). -/
def Abacus.clear (single : Bool) : Abacus := ⟨0, false, false, false, false, if single then 1 else 3⟩

/-- The key of a warp's Abacus register k within its block, when the role has it (R34). -/
def abacusKey (W : Warp) (k : BitVec 3) : Option (Nat × Nat) :=
  match W.blk with
  | some b => if k.toNat < W.abCount then some (b, W.abBase + k.toNat) else none
  | none => none
/-- A register of a block. -/
def abacusAt (s : State) (b i : Nat) : Abacus := (s.blk b).abacus.getD i (Abacus.clear true)
/-- Replace a register of a block. -/
def setAbacus (s : State) (b i : Nat) (A : Abacus) : State :=
  s.modBlk b fun B => { B with abacus := setAt B.abacus i A }

/-- An addend with whether it is the invalid product (R87). -/
abbrev Addend := Num × Bool

/-- One atomic update by several addends (R87, R247): the range is left when the sum is outside it. -/
def Abacus.add (A : Abacus) (ts : List Addend) : Abacus :=
  let v : Int := A.n.toInt + ts.foldl (fun a t => a + signedAt t.1 (-2148)) 0
  { A with
    n := BitVec.ofInt 4288 v
    pinf := A.pinf || ts.any (fun t => t.1.isInf && !t.1.neg)
    ninf := A.ninf || ts.any (fun t => t.1.isInf && t.1.neg)
    nan := A.nan || ts.any (fun t => t.1.isNan)
    ovf := A.ovf || decide (v < -(2 ^ 4287 : Nat)) || decide (((2 ^ 4287 : Nat) : Int) ≤ v) }

/-- The addition of an image (R250). -/
def Abacus.merge (A I : Abacus) : Abacus :=
  let v : Int := A.n.toInt + I.n.toInt
  { A with
    n := BitVec.ofInt 4288 v
    pinf := A.pinf || I.pinf
    ninf := A.ninf || I.ninf
    nan := A.nan || I.nan
    ovf := A.ovf || I.ovf || decide (v < -(2 ^ 4287 : Nat)) || decide (((2 ^ 4287 : Nat) : Int) ≤ v) }

/-- The rounded value of a register (R87, R247). -/
def Abacus.get (A : Abacus) (mode : Mode) (d : Double) : FOut :=
  if A.nan || A.ovf || (A.pinf && A.ninf) then
    ⟨binary64.nanBits, if A.ovf || (A.pinf && A.ninf) then flagNV else 0, none⟩
  else if A.pinf then ⟨binary64.infBits, 0, none⟩
  else if A.ninf then ⟨binary64.infBits + binary64.signBit, 0, none⟩
  else
    let v := A.n.toInt
    if v = 0 then ⟨0, 0, none⟩
    else fout (roundRatio binary64 mode d (decide (v < 0)) v.natAbs A.div (-2148))

/-- The status word (Table 9-5). -/
def Abacus.status (A : Abacus) : Nat :=
  let v := A.n.toInt
  (if v = 0 then 0 else v.natAbs.log2 + 1) * 65536 + (if v < 0 then 32768 else 0) + (if A.div = 3 then 16 else 0)
  + (if A.ovf then 8 else 0) + (if A.nan then 4 else 0) + (if A.ninf then 2 else 0) + (if A.pinf then 1 else 0)

/-- The image of a register (Table 9-6). -/
def Abacus.image (A : Abacus) : List Byte :=
  leBytes 2 0x4142
  ++ leBytes 1 ((if A.pinf then 1 else 0) + (if A.ninf then 2 else 0) + (if A.nan then 4 else 0) + (if A.ovf then 8 else 0))
  ++ leBytes 1 A.div ++ leBytes 4 0 ++ leBytes 536 A.n.toNat
/-- The register an image describes, when it is well formed for a divisor (R250). -/
def Abacus.ofImage (div : Nat) (bs : List Byte) : Option Abacus :=
  let st := field bs 2 1
  if field bs 0 2 ≠ 0x4142 || decide (16 ≤ st) || field bs 4 4 ≠ 0 || field bs 3 1 ≠ div then none
  else some ⟨BitVec.ofNat 4288 (field bs 8 536), st.testBit 0, st.testBit 1, st.testBit 2, st.testBit 3, div⟩

/-- An Abacus instruction on registers: each active fibre reads the register as it stood, and the addends of all that
execute are one update (R247, log 21). -/
def abacusOp (x : Lx) (k : BitVec 3) (us : List RegUse) (upd : Abacus → List Fibre → Abacus)
    (op : Abacus → LaneEnv → Fibre → LaneOut) (s : State) : Host.Outcome State Fault Refusal :=
  match s.cur with
  | none => .fault .noIssuer
  | some c =>
    .next (afterLoads (.nop x) c (spans us) [] s fun s =>
      let e := laneEnv s c x
      let fs := groupOf e.warp c
      match abacusKey e.warp k with
      | none => finish s (.nop x) c (fs.map (laneStep e [refusedUse] fun _ f => quiet f fun _ l => l))
      | some (b, i) =>
        let A := abacusAt s b i
        let acting := if usesOk e.warp.window us then fs.filter fun f => (guardOf x f).1 else []
        let t := if acting = [] then s else setAbacus s b i (upd A acting)
        finish t (.nop x) c (fs.map (laneStep e us (op A))))

/-- A result that changes no register. -/
def flagsOnly (f : Fibre) (fl : Flags) : LaneOut := ⟨f.lanes, fl, 0⟩

def execXclr (x : Lx) (k : BitVec 3) (s : State) : Host.Outcome State Fault Refusal :=
  abacusOp x k [] (fun A _ => ⟨0, false, false, false, false, A.div⟩) (fun _ _ f => flagsOnly f 0) s

/-- The addends of `xadd` for a fibre. -/
def xaddTerms (a : Reg) (f : Fibre) : List Addend :=
  f.lanes.map fun l => (decodeNum binary64 (l.pair a.toNat), false)
def execXadd (x : Lx) (k : BitVec 3) (a : Reg) (s : State) : Host.Outcome State Fault Refusal :=
  abacusOp x k [two a] (fun A fs => A.add (fs.flatMap (xaddTerms a)))
    (fun _ _ f => flagsOnly f (snanFlag ((xaddTerms a f).map (·.1)))) s

/-- The addends of `xfma` for a fibre: exact products. -/
def xfmaTerms (a b : Reg) (f : Fibre) : List Addend :=
  f.lanes.map fun l => mulNum (decodeNum binary64 (l.pair a.toNat)) (decodeNum binary64 (l.pair b.toNat))
def execXfma (x : Lx) (k : BitVec 3) (a b : Reg) (s : State) : Host.Outcome State Fault Refusal :=
  abacusOp x k [two a, two b] (fun A fs => A.add (fs.flatMap (xfmaTerms a b)))
    (fun _ _ f => flagsOnly f (snanFlag ((xfmaTerms a b f).map (·.1))
      ||| (if (xfmaTerms a b f).any (·.2) then flagNV else 0))) s

def execXget (x : Lx) (k : BitVec 3) (d : Reg) (s : State) : Host.Outcome State Fault Refusal :=
  abacusOp x k [two d] (fun A _ => A) (fun A e f =>
    let os := f.lanes.zipIdx.map fun (_, j) => A.get (e.mode false) (e.drawOf f j 0)
    ⟨(f.lanes.zip os).map fun (l, o) => l.setPair d.toNat o.bits, orFlags (os.map (·.flags)), 0⟩) s

def execXstat (x : Lx) (k : BitVec 3) (d : Reg) (s : State) : Host.Outcome State Fault Refusal :=
  abacusOp x k [one d] (fun A _ => A) (fun A _ f => quiet f fun _ l => l.setReg d.toNat A.status) s

/-- The address of an image, which the frame of every condition of an image instruction holds (R250): the effective
address where there is one, and otherwise the address that the condition on it has. -/
def imageAt (s : State) (W : Warp) (f : Fibre) (seg : Seg) (a : Reg) (kind : AccKind) : Nat :=
  match addrValue seg a f kind with
  | .error (.cause k) => k.addr
  | .error (.wait _) => 0
  | .ok v =>
    match effAddr s W f.tid.toNat seg v 0 544 kind with
    | .error (.cause k) => k.addr
    | .error (.wait _) => 0
    | .ok ea => ea.num
/-- A condition with an image's address; an error in the memory itself keeps its own (R495). -/
def Stop.atImage (n : Nat) : Stop → Stop
  | .cause k => if k.code = codeSoftError then .cause k else .cause { k with addr := n }
  | .wait w => .wait w
/-- An image instruction (R250): every condition is taken by every active fibre, with the image's address, and waiting is
for the whole group. -/
def abacusImage (i : Instr) (x : Lx) (k : BitVec 3) (seg : Seg) (a : Reg) (kind : AccKind)
    (act : State → LaneEnv → Issue → Fibre → Nat × List Place → Nat × Nat → Except Stop State × State)
    (s : State) : Host.Outcome State Fault Refusal :=
  laneOnce i x [addrUse seg a] (fun s e c lead fs =>
    let all : Stop → List FibreRes := fun st => fs.map (stopRes (st.atImage (imageAt s e.warp lead seg a kind)))
    match abacusKey e.warp k with
    | none => (all (.cause ⟨codeIllegalOperand, 0, kind⟩), s)
    | some key =>
      match addrValue seg a lead kind with
      | .error st => (all st, s)
      | .ok v =>
        match locatePieces s e.warp lead.tid.toNat seg v 544 16 kind with
        | (.error st, s) => (all st, s)
        | (.ok ps, s) =>
          match act s e c lead ps key with
          | (.error st, s) => (all st, s)
          | (.ok s, _) => (fs.map fun f => doneRes e f f.lanes, s)) s

def execXsave (x : Lx) (k : BitVec 3) (seg : Seg) (a : Reg) (s : State) : Host.Outcome State Fault Refusal :=
  abacusImage (.xsave x k seg a) x k seg a .write (fun s e c lead ps key =>
    match storePieces s c.warp c lead.slot lead.tid.toNat ps.1 ps.2 (abacusAt s key.1 key.2).image with
    | .error st => (.error st, s)
    | .ok t => (.ok (commitBlock t e.warp), s)) s

/-- Read an image and put a register made from it in place (R250). -/
def abacusFrom (put : Abacus → Abacus → Abacus) (s : State) (_ : LaneEnv) (c : Issue) (lead : Fibre)
    (ps : Nat × List Place) (key : Nat × Nat) : Except Stop State × State :=
  match loadShared s c.warp [lead] ps.1 ps.2 with
  | (.error st, s) => (.error st, s)
  | (.ok bs, s) =>
    let A := abacusAt s key.1 key.2
    match Abacus.ofImage A.div bs with
    | none => (.error (.cause ⟨codeIllegalOperand, ps.1, .read⟩), s)
    | some I => (.ok (setAbacus s key.1 key.2 (put A I)), s)

def execXload (x : Lx) (k : BitVec 3) (seg : Seg) (a : Reg) (s : State) : Host.Outcome State Fault Refusal :=
  abacusImage (.xload x k seg a) x k seg a .read (abacusFrom fun _ I => I) s

def execXmerge (x : Lx) (k : BitVec 3) (seg : Seg) (a : Reg) (s : State) : Host.Outcome State Fault Refusal :=
  abacusImage (.xmerge x k seg a) x k seg a .read (abacusFrom Abacus.merge) s

end Sys2Proof.Machine
end

