-- ==== Sys2Proof/Machine/Rooms.lean ====
section
/-! DEFINITION. Room on a core (R30, R35, R117, R326, R365), the creation of warps (R23, R24, R31, R34, R45, R119), and
the Shuttle's gathering of children (R48, R374, R375). -/
namespace Sys2Proof.Machine

/-! ### Room (R365) -/

/-- Register bytes of a quarter (R35). -/
def quarterBytes : Nat := 393216
/-- Register bytes of n registers (R35). -/
def regBytes (n : Nat) : Nat := 1536 * n

/-- Whether a warp holds registers and a slot of a core. -/
def holdsRoom (core : Nat) (W : Warp) : Bool := W.core == core && W.residence != .saved

/-- The quarter that a block's pool stands in: that of its first warp there (log 32). -/
def poolQuarter (s : State) (b : Nat) : Nat :=
  match s.warps.find? fun e => e.2.blk == some b && e.2.residence != .saved with
  | some e => e.2.quarter
  | none => 0
/-- Registers given to pools that stand in a quarter. -/
def poolRegs (s : State) (core q : Nat) : Nat :=
  s.blocks.foldl (fun a e => if occupies core e.2 && e.2.pool != 0 && poolQuarter s e.1 == q then a + e.2.pool else a) 0
/-- Warps and free register bytes of a quarter. -/
def quarterFree (s : State) (core q : Nat) : Nat × Nat :=
  let ws := s.warps.filter fun e => holdsRoom core e.2 && e.2.quarter == q
  (ws.length, quarterBytes - (ws.foldl (fun a e => a + regBytes e.2.window) 0 + regBytes (poolRegs s core q)))
/-- The four quarters of a core. -/
def quartersFree (s : State) (core : Nat) : List (Nat × Nat) := (List.range 4).map (quarterFree s core)
/-- Free register bytes of a core. -/
def coreFree (s : State) (core : Nat) : Nat := (quartersFree s core).foldl (fun a q => a + q.2) 0

/-- The quarter with the most free bytes among those with fewer than 16 warps, the lowest of equals (R365). -/
def bestQuarter (qs : List (Nat × Nat)) : Option Nat :=
  ((qs.zipIdx.filter fun e => decide (e.1.1 < 16)).foldl (fun (a : Option (Nat × Nat)) e =>
    match a with
    | some (m, _) => if m < e.1.2 then some (e.1.2, e.2) else a
    | none => some (e.1.2, e.2)) none).map (·.2)
/-- Place warps of given windows in order: the quarter of each (R365). -/
def assignQuarters : List Nat → List (Nat × Nat) → Option (List Nat)
  | [], _ => some []
  | w :: t, qs =>
    match bestQuarter qs with
    | none => none
    | some q =>
      if (qs.getD q (0, 0)).2 < regBytes w then none
      else (assignQuarters t (modAt qs q fun x => (x.1 + 1, x.2 - regBytes w))).map (q :: ·)

/-- Whether a core can take work: live, not withdrawn, its island powered (R20, R406). -/
def coreLive (s : State) (core : Nat) : Bool :=
  s.survey.liveCores.getLsbD core && !(s.core core).withdrawn
    && (match s.islands[3 * dieOf core]? with | some i => i.powered | none => false)

/-- Windows of a block's warps, in ascending WID (R31, R33): registers, kind, first Abacus register and their number. -/
structure WarpSpec where
  window : Nat
  kind : Nat
  abBase : Nat
  abCount : Nat
deriving DecidableEq, Repr

/-- The warps of role entries that a mask selects. -/
def roleSpecs : Nat → Nat → Nat → List Role → List WarpSpec
  | _, _, _, [] => []
  | mask, i, base, r :: t =>
    if mask.testBit i then
      List.replicate r.warps ⟨8 * r.window, r.kind, base, r.abacus⟩ ++ roleSpecs mask (i + 1) (base + r.abacus) t
    else roleSpecs mask (i + 1) base t
/-- The warps of a block: a launch's by its record, a task's by its mask and count (R33, R42). A task whose mask is 0 under a
template that has roles runs as warps of kind ANY with the template's window (log 91) and no Abacus register (R443). -/
def warpSpecs (L : LaunchRec) (t : Option Task) : List WarpSpec :=
  let plain : Nat → List WarpSpec := fun n => List.replicate n ⟨8 * L.window, 0, 0, if L.roles = [] then L.abacus else 0⟩
  match t with
  | some t => if L.roles = [] || t.mask = 0 then plain t.warps else roleSpecs t.mask 0 0 L.roles
  | none => if L.roles = [] then plain L.warps else roleSpecs 15 0 0 L.roles
/-- Abacus registers of a block (R33, R34). -/
def abacusCount (L : LaunchRec) (t : Option Task) : Nat :=
  if L.roles = [] then L.abacus
  else
    let mask := match t with | some t => t.mask | none => 15
    (L.roles.zipIdx.filter fun e => mask.testBit e.2).foldl (fun a e => a + e.1.abacus) 0

/-- Whether a core has room for a block, and the quarters that its warps of given windows take. -/
def blockRoom (s : State) (B : Block) (windows : List Nat) (core : Nat) : Option (List Nat) :=
  let on := s.blocks.filter fun e => occupies core e.2
  let fms := (on.filter fun e => e.2.fm.isSome).length
  let tiles := on.foldl (fun a e => a + e.2.tiles.length) 0
  let abs := on.foldl (fun a e => a + e.2.abacus.length) 0
  if coreLive s core && decide (on.length < 16) && decide (windowUsed s core + B.winSize ≤ windowBytes)
      && (B.fm.isNone || decide (fms < 4)) && decide (tiles + B.tiles.length ≤ 12) && decide (abs + B.abacus.length ≤ 8)
    then assignQuarters windows (quartersFree s core)
  else none
/-- The quarter that one warp of a window takes on a core. -/
def warpRoom (s : State) (window core : Nat) : Option Nat :=
  if coreLive s core then (assignQuarters [window] (quartersFree s core)).bind (·.head?) else none

/-! ### The rate of the Loom's starts (R364) -/

/-- Cycles between two starts of the Loom on one compute die. -/
def loomCycles : Nat := 8
/-- Whether the Loom may start something on the die of a core: its latest start there is far enough back. -/
def loomGap (s : State) (core : Nat) : Bool :=
  match (s.die (dieOf core)).started with
  | some t => decide (t + loomCycles ≤ s.clock (32 * dieOf core))
  | none => true
/-- The Loom starts something on the die of a core. -/
def loomStart (s : State) (core : Nat) : State :=
  s.modDie (dieOf core) fun D => { D with started := some (s.clock (32 * dieOf core)) }

/-! ### New warps (R23, R24, R119, R120) -/

/-- The segment registers of a launch for a block's warps: LOCAL is the window (R120). -/
def blockSegs (L : Launch) (B : Block) (args : Nat) : List SegReg :=
  let set := fun (l : List SegReg) i (g : SegReg) => setAt l i g
  let base := set L.segs 4 ⟨BitVec.ofNat 64 args, (L.segs.getD 4 ⟨0, 0⟩).limit⟩
  set (set base 1 ⟨0, BitVec.ofNat 64 (logicalSize B.winSib B.winSize)⟩) 2 ⟨0, 0⟩
/-- The segment registers of spawned warps: LOCAL, CLUSTER and PRIVATE have limit 0 (R45, R121). The ARGS base is the launch's
or template's own argument pointer, also for children of a task's fibres (log 91). -/
def spawnSegs (L : Launch) : List SegReg :=
  setAt (setAt (setAt (setAt L.segs 4 ⟨BitVec.ofNat 64 L.lrec.args, (L.segs.getD 4 ⟨0, 0⟩).limit⟩) 1 ⟨0, 0⟩) 2 ⟨0, 0⟩)
    3 ⟨(L.segs.getD 3 ⟨0, 0⟩).base, 0⟩

/-- The window base of a fibre: where in its lane slot's registers the hardware puts v0 is left open (R21, log 85). -/
def windowBase (free slot : Nat) : BitVec 11 := BitVec.ofNat 11 (Config.pick (free + slot))
/-- A fibre at its entry, every register 0 (R23). -/
def newFibre (three : Bool) (pc : VAddr) (slot tid : Nat) (base : BitVec 11) : Fibre :=
  ⟨slot, pc, BitVec.ofNat 32 tid, base, 0, 0, .ready, 0, 0, false, List.replicate (lanesPer three) Lane.zero⟩

/-- A block's warp, its fibres still to come. -/
def newWarp (L : Launch) (b : Nat) (B : Block) (x : WarpSpec) (wid core quarter : Nat) : Warp :=
  { Warp.absent with
    ctx := B.ctx, launch := B.launch, blk := some b, wid := wid, kind := x.kind, abBase := x.abBase, abCount := x.abCount
    core := core, quarter := quarter, window := x.window, residence := .resident
    numctl := L.lrec.numctl
    segs := blockSegs L B (match B.task with | some t => t.args | none => L.lrec.args)
    area := B.lin * B.nwarp + wid }
/-- A block's warp with all its fibres at the entry (R24, R34); `free` numbers the free values of their window bases. -/
def startWarp (L : Launch) (B : Block) (entry clock free : Nat) (W : Warp) : Warp :=
  let three := !L.lrec.single
  let f := fibreCount three
  { W with
    fibres := (List.range f).map fun k =>
      newFibre three (BitVec.ofNat 56 entry) k ((B.lin * B.nwarp + W.wid) * f + k) (windowBase free k)
    age := some clock, started := clock }
/-- A warp takes the lowest free warp slot of its quarter (R376, log 86). -/
def seatWarp (s : State) (w : Nat) : State :=
  let W := s.warp w
  let held := (s.warps.filter fun e => e.1 != w && holdsRoom W.core e.2 && e.2.quarter == W.quarter).map (·.2.wslot)
  s.modWarp w fun W => { W with wslot := ((List.range (held.length + 1)).find? fun k => !held.contains k).getD 0 }

/-! ### The Shuttle (R48, R374, R375) -/

/-- Children of a core's Shuttle that share the launch and entry of one. -/
def sameGroup (c : Child) (q : List Child) : List Child := q.filter fun x => x.launch == c.launch && x.entry == c.entry
/-- Cycles after which a partial warp issues (R48). -/
def spawnLimit (L : LaunchRec) : Nat := if L.spawnTimeout = 0 then 2048 else L.spawnTimeout
/-- The children of a warp that may issue: a full one, or one whose oldest child has waited long enough. -/
def gathered (s : State) (core : Nat) (timed : Bool) (pick : Child → Bool) : Option (List Child) :=
  let q := (s.core core).shuttle
  (q.find? fun c => pick c &&
    (decide (fibreCount (!(s.launch c.launch).lrec.single) ≤ (sameGroup c q).length)
      || (timed && decide (c.since + spawnLimit (s.launch c.launch).lrec ≤ s.clock core)))).map fun c =>
    (sameGroup c q).take (fibreCount (!(s.launch c.launch).lrec.single))
/-- Remove the first n children of a launch and entry. -/
def dropGroup (c : Child) : Nat → List Child → List Child
  | 0, q => q
  | _, [] => []
  | n + 1, x :: t => if x.launch = c.launch ∧ x.entry = c.entry then dropGroup c n t else x :: dropGroup c (n + 1) t

/-- The lowest trap area that no spawned warp of a launch holds (R460). -/
def freeArea (s : State) (l : Nat) : Nat :=
  let L := (s.launch l).lrec
  let first := L.gx * L.gy * L.gz * L.warps
  let held := (s.warps.filter fun e => e.2.launch == l && e.2.blk.isNone).map (·.2.area)
  ((List.range (held.length + 1)).map (first + ·)).find? (fun a => !held.contains a) |>.getD first

/-- A child as a fibre (R45): its payload stands in v0 upward. -/
def childFibre (slot : Nat) (base : BitVec 11) (c : Child) : Fibre :=
  ⟨slot, c.entry, c.tid, base, 0, c.join, .ready, 0, 0, false, c.payload.map fun p =>
    p.zipIdx.foldl (fun l e => l.setReg e.2 e.1.toNat) Lane.zero⟩

/-- Issue gathered children as a warp on a core that has room: its first instruction acquires what the `spawn` released
(R47, R158), and it counts as a start of the Loom (R378). Nothing of a context that is halted whole starts (R412). -/
def issueSpawned (s : State) (from_ dest : Nat) (cs : List Child) : Option State :=
  match cs with
  | [] => none
  | c :: _ =>
    let L := s.launch c.launch
    (if (s.ctx c.ctx).halted then none else warpRoom s (8 * L.lrec.window) dest).map fun q =>
      let (w, s) := s.stamp
      let W : Warp := { Warp.absent with
        ctx := c.ctx, launch := c.launch, core := dest, quarter := q, window := 8 * L.lrec.window
        started := s.clock dest, residence := .resident
        fibres := cs.zipIdx.map fun e => childFibre e.2 (windowBase s.free e.2) e.1
        numctl := L.lrec.numctl, segs := spawnSegs L, area := freeArea s c.launch, age := some (s.clock dest) }
      let s := { s with free := s.free + cs.length }
      let s := (s.modCore from_ fun C => { C with shuttle := dropGroup c cs.length C.shuttle }).setWarp w W
      acquire (charge (seatWarp s w) c.ctx .loom 0 1) dest .device

/-- Issue every full warp that the core has room for (R48, R374). -/
def issueFull : Nat → Nat → State → State
  | 0, _, s => s
  | n + 1, core, s =>
    match gathered s core false (fun _ => true) with
    | none => s
    | some cs =>
      match issueSpawned s core core cs with
      | some t => issueFull n core t
      | none => s

end Sys2Proof.Machine
end

