-- ==== Sys2Proof/Machine/Blocks.lean ====
section
/-! DEFINITION. The making of blocks (R30, R36, R117, R246, R297, R326) and bringing their outstanding work to an end
(R148, R327, R381, R409). -/
namespace Sys2Proof.Machine

/-! ### New blocks -/

/-- The window of a size in KiB: a multiple of 8 KiB (R117). -/
def windowSize (kib : Nat) : Nat := (kib * 1024 + 8191) / 8192 * 8192
/-- Sibling layout of a launch's windows (R120, Table 5-3). The reserved code 3 reads as PLAIN, and CLUSTER's code is not compared
with LOCAL's: what a launch with such a table does, the specification does not say (log 70). -/
def launchSib (L : Launch) : SibLayout := sibOf ((L.segs.getD 1 ⟨0, 0⟩).limit.toNat / 2 ^ 48 % 4)

/-- A block before it is placed, everything in it as when it starts (R36, R118, R246, R297, R326). -/
def newBlock (L : Launch) (l lin : Nat) (x y z : Word) (task : Option Task) (team pos size arrival : Nat) : Block :=
  { Block.absent with
    ctx := L.ctx, launch := l, lin := lin, x := x, y := y, z := z, task := task, team := team, pos := pos
    teamSize := size, state := .ready, arrival := arrival
    nwarp := (warpSpecs L.lrec task).length
    priority := match task with | some t => t.priority | none => L.lrec.priority
    winSize := windowSize L.lrec.localKiB, winSib := launchSib L
    rings := List.replicate 4 ⟨[], 0, 0, 0⟩
    bars := setAt (List.replicate 16 Barrier.zero) 0 { Barrier.zero with count := BitVec.ofNat 8 (warpSpecs L.lrec task).length }
    abacus := List.replicate (abacusCount L.lrec task) ⟨0, false, false, false, false, if L.lrec.single then 1 else 3⟩
    tiles := if L.lrec.fmStream = 0 then [] else List.replicate L.lrec.tileSlots ⟨none, []⟩
    fm := if L.lrec.fmStream = 0 then none else some (Foreman.start L.lrec.fmStream L.lrec.single) }

/-- A block discarded and made again from its entry (R483). -/
def freshBlock (L : Launch) (B : Block) : Block :=
  newBlock L B.launch B.lin B.x B.y B.z B.task B.team B.pos B.teamSize B.arrival

/-- Warps of a block. -/
def warpsOf (s : State) (b : Nat) : List Nat := (s.warps.filter fun e => e.2.blk == some b).map (·.1)
/-- Forget warps without ending their fibres. -/
def forgetWarps (s : State) (ws : List Nat) : State :=
  { s with
    warps := s.warps.filter fun e => !ws.contains e.1
    turn := match s.turn with | some w => if ws.contains w then none else some w | none => none
    cores := s.cores.map fun e => (e.1, { e.2 with slots := e.2.slots.map fun x =>
      match x with | some w => if ws.contains w then none else some w | none => none }) }
/-- Discard a block and make it again, ready to start (R483). -/
def restartBlock (s : State) (b : Nat) : State :=
  let B := s.blk b
  (forgetWarps s (warpsOf s b)).setBlk b (freshBlock (s.launch B.launch) B)

/-! ### Bringing work to an end (R148, R327, R409) -/

/-- The first command of a block's context that is ready for the array (R351, R352). -/
def arrayNext (s : State) (b : Nat) : Option (Foreman × FmCmd) :=
  (s.blk b).fm.bind fun F => (F.cmds.find? fun c => onArray c.op && cmdReady s b F c && !cmdWaits s b c).map fun c => (F, c)
/-- The array comes to a block: a self-test that is due comes first, and passes (R354), and so do the commands of the core's
other contexts whose turn it is, one each (R352). -/
def yieldArray (b : Nat) : Nat → State → State
  | 0, s => s
  | n + 1, s =>
    let core := (s.blk b).core
    let s := if testDue s core then runTest s core else s
    match arrayTurn s core with
    | none => s
    | some a =>
      if a = b then s
      else match arrayNext s a with
        | some (F, c) => yieldArray b n (completeCmd s a F c)
        | none => s
/-- Foreman contexts of a core (R326). -/
def coreForemen : Nat := 4
/-- Complete a block's Foreman commands in order, up to n of them, each array command in the context's turn. -/
def endForeman (b : Nat) : Nat → State → State
  | 0, s => s
  | n + 1, s =>
    match (s.blk b).fm with
    | none => s
    | some F =>
      match F.cmds with
      | [] => s
      | c :: _ =>
        if onArray c.op then
          let s := yieldArray b coreForemen s
          match (s.blk b).fm with
          | some F => endForeman b n (completeCmd s b F c)
          | none => s
        else endForeman b n (completeCmd s b F c)

/-- Land the first piece of a command, up to n times. -/
def endPieces (b cmd : Nat) : Nat → State → State
  | 0, s => s
  | n + 1, s => endPieces b cmd n (carterLand s b cmd 0)
/-- Commands of a block that have begun and go on. -/
def begunCopies (s : State) (b : Nat) : List CopyCmd := (s.blk b).carter.cmds.filter copyGoesOn
/-- Land and complete every begun command of a block, in ascending number. -/
def endCarter (s : State) (b : Nat) : State :=
  (begunCopies s b).foldl (fun s c => completeCopy (endPieces b c.n c.pieces.length s) b c.n) s

/-- Land the `cpa` pieces of a warp. -/
def endCpas (w : Nat) : Nat → State → State
  | 0, s => s
  | n + 1, s => endCpas w n (cpaLand s w 0)
/-- Bring a warp's outstanding accesses to an end: loads return, stores are performed, copies land (R148). -/
def endWarpWork (s : State) (w : Nat) : State :=
  let s := endCpas w (s.warp w).cpas.length (drainAll s w)
  s.modWarp w Warp.settle
/-- Bring a block's engines and warps to an end. -/
def endBlockWork (s : State) (b : Nat) : State :=
  let n := match (s.blk b).fm with | some F => F.cmds.length | none => 0
  let s := endCarter (endForeman b n s) b
  (warpsOf s b).foldl endWarpWork s

/-- Whether a warp has nothing outstanding but what a fault holds, nor anything on its way to a home L2. -/
def warpQuiet (s : State) (w : Nat) : Bool :=
  let W := s.warp w
  (W.heldStores || (W.storeQ.isEmpty && W.cpas.isEmpty)) && !onWay s (·.warp == w)
/-- Whether a block has nothing outstanding but what faults hold. -/
def blockQuiet (s : State) (b : Nat) : Bool :=
  (match (s.blk b).fm with | some F => F.cmds.isEmpty | none => true)
    && (begunCopies s b).isEmpty && (warpsOf s b).all (warpQuiet s)

/-- Bring an owner's work to an end. -/
def endOwnerWork (s : State) (o : Owner) : State :=
  match o with | .blk b => endBlockWork s b | .warp w => endWarpWork s w
/-- Whether an owner's work is at an end. -/
def ownerQuiet (s : State) (o : Owner) : Bool :=
  match o with | .blk b => blockQuiet s b | .warp w => warpQuiet s w

end Sys2Proof.Machine
end

