-- ==== Sys2Proof/Machine/WarpWide.lean ====
section
/-! DEFINITION. The warp-wide instructions (R268 to R272). -/
namespace Sys2Proof.Machine

/-! ### Members and mask groups (R268) -/

/-- Registers of a mask group. -/
def groupRegs (three : Bool) : Nat := if three then 4 else 12
/-- Operand use of a mask group. -/
def groupUse (three : Bool) (r : Reg) : RegUse := ⟨r.toNat, groupRegs three, 4⟩
/-- A mask of fibre slots. -/
def maskOf (fs : List Fibre) : Nat := fs.foldl (fun a f => a ||| 2 ^ f.slot) 0
/-- A fibre's own mask: the majority of its siblings' mask groups. -/
def ownMask (three : Bool) (m : Reg) (f : Fibre) : Option Nat :=
  match f.vals (·.many m.toNat (groupRegs three)) with
  | [a, b, c] => let r := majority a b c; if r.2 then some r.1 else none
  | a :: _ => some a
  | [] => none

def codeMemberMask : Nat := 0x0402

/-- A fibre that completes with a result. -/
def outRes (e : LaneEnv) (f : Fibre) (o : LaneOut) : FibreRes :=
  ⟨f.slot, .done { f.advance e.next with lanes := o.lanes }, o.fp, o.num ||| guardEvent (guardOf e.x f).2⟩

/-- A warp-wide instruction (R268): its members, the wait for them, and the result of each executing member. -/
def warpWide (i : Instr) (x : Lx) (mm : Option Reg) (us : List RegUse)
    (op : LaneEnv → List Fibre → Fibre → Except Stop LaneOut) (s : State) : Host.Outcome State Fault Refusal :=
  let three := s.three (s.warp (curWarp s))
  laneOnce i x (us ++ match mm with | some m => [groupUse three m] | none => []) (fun s e c lead fs =>
    let go : List Fibre → Fibre → FibreRes := fun mem f =>
      match op e mem f with
      | .ok o => outRes e f o
      | .error st => stopRes st f
    match mm with
    | none => (fs.map (go fs), s)
    | some m =>
      let bad : Fibre → FibreRes := stopRes (.cause ⟨codeMemberMask, m.toNat, .read⟩)
      match ownMask three m lead with
      | none => (fs.map bad, s)
      | some lm =>
        let ok : Fibre → Bool := fun f => ownMask three m f == some lm && lm.testBit f.slot
        let out := fs.filter fun f => !ok f
        let here := (groupOf e.warp c).filter fun f => !out.any fun g => g.slot == f.slot
        let mem := e.warp.fibres.filter fun f => lm.testBit f.slot
        let rest := fs.filter ok
        if mem.all fun f => here.any fun g => g.slot == f.slot then (out.map bad ++ rest.map (go mem), s)
        else (out.map bad ++ rest.map (stopRes (.wait (.members (mem.map (·.slot))))), s)) s

/-! ### Polls, leaders and masks (R269) -/

/-- A fibre's majority of a predicate, and whether its siblings agree (R100). -/
def fibrePred (p : Pred) (f : Fibre) : Bool × Bool := majorityBool (f.lanes.map (·.pred p))

/-- A poll: the result from the members' majorities. -/
def pollWith (pa : Pred) (put : List (Nat × Bool) → Lane → Lane) (_ : LaneEnv) (mem : List Fibre) (f : Fibre) :
    Except Stop LaneOut :=
  let vs := mem.map fun g => (g.slot, (fibrePred pa g).1)
  .ok ⟨f.lanes.map (put vs), 0, guardEvent (fibrePred pa f).2⟩

def execPollSome (x : Lx) (mm : Option Reg) (pd pa : Pred) (s : State) : Host.Outcome State Fault Refusal :=
  warpWide (.pollSome x mm pd pa) x mm [] (pollWith pa fun vs l => l.setPred pd (vs.any (·.2))) s
def execPollEvery (x : Lx) (mm : Option Reg) (pd pa : Pred) (s : State) : Host.Outcome State Fault Refusal :=
  warpWide (.pollEvery x mm pd pa) x mm [] (pollWith pa fun vs l => l.setPred pd (vs.all (·.2))) s
def execPollSame (x : Lx) (mm : Option Reg) (pd pa : Pred) (s : State) : Host.Outcome State Fault Refusal :=
  warpWide (.pollSame x mm pd pa) x mm [] (pollWith pa fun vs l =>
    l.setPred pd (vs.all (·.2) || vs.all (fun v => !v.2))) s
def execPollCount (x : Lx) (mm : Option Reg) (d : Reg) (pa : Pred) (s : State) : Host.Outcome State Fault Refusal :=
  warpWide (.pollCount x mm d pa) x mm [one d] (pollWith pa fun vs l =>
    l.setReg d.toNat (vs.filter (·.2)).length) s
def execPollMask (x : Lx) (mm : Option Reg) (d : Reg) (pa : Pred) (s : State) : Host.Outcome State Fault Refusal :=
  let three := s.three (s.warp (curWarp s))
  warpWide (.pollMask x mm d pa) x mm [groupUse three d] (pollWith pa fun vs l =>
    l.setMany d.toNat (groupRegs three) (vs.foldl (fun a v => if v.2 then a ||| 2 ^ v.1 else a) 0)) s

/-- Write whether the fibre is a chosen member. -/
def leadWith (pd : Pred) (pick : List Fibre → Option Nat) (_ : LaneEnv) (mem : List Fibre) (f : Fibre) :
    Except Stop LaneOut :=
  .ok (quiet f fun _ l => l.setPred pd (pick mem == some f.slot))
/-- Members stand in ascending slot order. -/
def execLeadFirst (x : Lx) (mm : Option Reg) (pd : Pred) (s : State) : Host.Outcome State Fault Refusal :=
  warpWide (.leadFirst x mm pd) x mm [] (leadWith pd fun mem => mem.head?.map (·.slot)) s
def execLeadLast (x : Lx) (mm : Option Reg) (pd : Pred) (s : State) : Host.Outcome State Fault Refusal :=
  warpWide (.leadLast x mm pd) x mm [] (leadWith pd fun mem => mem.getLast?.map (·.slot)) s
def execWmask (x : Lx) (mm : Option Reg) (d : Reg) (s : State) : Host.Outcome State Fault Refusal :=
  let three := s.three (s.warp (curWarp s))
  warpWide (.wmask x mm d) x mm [groupUse three d] (fun _ mem f =>
    .ok (quiet f fun _ l => l.setMany d.toNat (groupRegs three) (maskOf mem))) s

/-! ### `xlane` (R270) -/

/-- The source slot of a member k, when the mode defines one within f slots. -/
def xlaneSource (mode : XlaneMode) (size f k b : Nat) : Option Nat :=
  let base := k / size * size
  let src := match mode with
    | .from_ => if b < size then some (base + b) else none
    | .rot => some (base + (((k - base : Nat) : Int) + toSigned 32 b).emod size |>.toNat)
    | .swap => if (k ^^^ b) / size = k / size then some (k ^^^ b) else none
    | .rev => some (base + size - 1 - (k - base))
  src.filter fun j => decide (j < f)

def execXlane (x : Lx) (mm : Option Reg) (seg : BitVec 4) (mode : XlaneMode) (w : Bool) (d a b : Reg) (s : State) :
    Host.Outcome State Fault Refusal :=
  warpWide (.xlane x mm seg mode w d a b) x mm
    ([byW w d, byW w a] ++ if mode = .rev then [] else [one b]) (fun e mem f =>
      let n := fibreCount e.three
      let size := if seg = 0 then n else 2 ^ seg.toNat
      match (if mode = .rev then .ok 0 else oneValue f (·.reg b.toNat) .read) with
      | .error st => .error st
      | .ok v =>
        let src := ((xlaneSource mode size n f.slot v).bind fun j => mem.find? fun g => g.slot == j).getD f
        .ok (quiet f fun j l => l.setVal w d.toNat ((src.lane j).val w a.toNat))) s

/-! ### Reductions and scans (R271) -/

/-- The exact sum of values rounded once (R76, R218, R271). -/
def sumRounded (f : Fmt) (mode : Mode) (d : Double) (xs : List Num) : Nat × Flags :=
  if xs.any Num.isNan then (f.nanBits, snanFlag xs)
  else if xs.any (fun x => x.isInf && !x.neg) && xs.any (fun x => x.isInf && x.neg) then (f.nanBits, flagNV)
  else if xs.any Num.isInf then (f.infBits + (if xs.any (fun x => x.isInf && x.neg) then f.signBit else 0), 0)
  else
    let u := lowUnit xs
    let v : Int := xs.foldl (fun a x => a + signedAt x u) 0
    if v = 0 then
      let neg := if xs.all (fun x => x.isZero && x.neg) then !xs.isEmpty
        else if xs.all (fun x => x.isZero && !x.neg) then false else mode == modeRD
      encodeNum f mode d (.fin neg 0 0)
    else encodeNum f mode d (.fin (decide (v < 0)) v.natAbs u)

/-- The combination of no values (R271). -/
def wideIdentity (op : AtomOp) (ty : AtomTy) : Nat :=
  let w := 8 * atomSize ty
  match op, atomFmt ty with
  | .min, some f => f.infBits
  | .max, some f => f.infBits + f.signBit
  | .min, none => if atomSigned ty then 2 ^ (w - 1) - 1 else 2 ^ w - 1
  | .max, none => if atomSigned ty then 2 ^ (w - 1) else 0
  | .and_, _ => 2 ^ w - 1
  | _, _ => 0

/-- The combination of a list of values (R271). -/
def wideCombine (op : AtomOp) (ty : AtomTy) (mode : Mode) (d : Double) (vs : List Nat) : Nat × Flags :=
  match vs with
  | [] => (wideIdentity op ty, 0)
  | v :: t =>
    match op, atomFmt ty with
    | .add, some f => sumRounded f mode d (vs.map (decodeNum f))
    | .min, some f | .max, some f =>
      t.foldl (fun a y => let r := fMinMax f (op == .max) false a.1 y; (r.bits, a.2 ||| r.flags))
        (let r := fMinMax f (op == .max) false v v; (r.bits, r.flags))
    | _, _ => (t.foldl (fun a y => (atomResult op ty a y modeRN 0).1) v, 0)

/-- A reduction or scan for one member: the terms that `keep` admits. -/
def wideOut (op : AtomOp) (ty : AtomTy) (d a : Reg) (keep : Nat → Nat → Bool) (e : LaneEnv) (mem : List Fibre)
    (f : Fibre) : Except Stop LaneOut :=
  let ms := mem.filter fun g => keep g.slot f.slot
  let rs := f.lanes.zipIdx.map fun (_, j) =>
    wideCombine op ty (e.mode false) (e.drawOf f j 0) (ms.map fun (g : Fibre) => atomData ty a (g.lane j))
  .ok ⟨(f.lanes.zip rs).map fun (l, r) => l.setVal (atomSize ty == 8) d.toNat r.1, orFlags (rs.map (·.2)), 0⟩

def execWred (x : Lx) (mm : Option Reg) (ty : AtomTy) (op : AtomOp) (d a : Reg) (s : State) :
    Host.Outcome State Fault Refusal :=
  warpWide (.wred x mm ty op d a) x mm [atomUse ty d, atomUse ty a] (wideOut op ty d a fun _ _ => true) s
def execWscan (x : Lx) (mm : Option Reg) (excl : Bool) (ty : AtomTy) (op : AtomOp) (d a : Reg) (s : State) :
    Host.Outcome State Fault Refusal :=
  warpWide (.wscan x mm excl ty op d a) x mm [atomUse ty d, atomUse ty a]
    (wideOut op ty d a fun j k => if excl then decide (j < k) else decide (j ≤ k)) s

/-! ### `match` (R272) -/

def execWarpMatch (x : Lx) (mm : Option Reg) (w : Bool) (d a : Reg) (s : State) : Host.Outcome State Fault Refusal :=
  let three := s.three (s.warp (curWarp s))
  warpWide (.warpMatch x mm w d a) x mm [groupUse three d, byW w a] (fun _ mem f =>
    let val : Fibre → Nat × BitVec 4 := fun g => let r := combine none (g.vals (·.val w a.toNat)); (r.1, r.2.2)
    let same := mem.filter fun g => (val g).1 == (val f).1
    .ok ⟨f.lanes.map fun l => l.setMany d.toNat (groupRegs three) (maskOf same), 0, (val f).2⟩) s

end Sys2Proof.Machine
end

