-- ==== Sys2Proof/Machine/LaneControl.lean ====
section
/-! DEFINITION. Branches, calls, reconvergence, the end of fibres, spawning, waiting and traps of the lane set
(R273 to R283). -/
namespace Sys2Proof.Machine

/-! ### Branches and calls (R273 to R275) -/

/-- A word offset from the address of the first word (R176). -/
def branchTarget {n : Nat} (pc : VAddr) (off : BitVec n) : VAddr := pc + BitVec.ofInt 56 (4 * off.toInt)
/-- A fibre that goes to a target; a call writes the link pair v6:v7. -/
def jumpTo (e : LaneEnv) (link : Bool) (target : VAddr) (f : Fibre) : Fibre :=
  let g := f.advance target
  if link then { g with lanes := mapLanes f fun _ l => l.setPair 6 e.next.toNat } else g

/-- The link pair that a call writes, which lies in every window. -/
def linkUse (link : Bool) : List RegUse := if link then [two 6] else []

/-- A lane instruction that sends each active fibre its own way. -/
def laneBranch (x : Lx) (us : List RegUse) (go : State → LaneEnv → Issue → Fibre → LaneAct × State) (s : State) :
    Host.Outcome State Fault Refusal :=
  match s.cur with
  | none => .fault .noIssuer
  | some c => laneFold (.nop x) x false us (fun s e f => go s e c f) s

/-- `bra` and `call`: the guard of the word decides the path of each fibre, and all of them execute it (R273). -/
def laneBra (x : Lx) (link neg : Bool) (pred : Pred) (off : BitVec 35) (s : State) :
    Host.Outcome State Fault Refusal :=
  laneBranch x (linkUse link) (fun s e c f =>
    let (m, u) := fibrePred pred f
    let g := if m != neg then jumpTo e link (branchTarget c.pc off) f else f.advance e.next
    (⟨.done g, 0, guardEvent u⟩, s)) s

def execBra (x : Lx) (neg : Bool) (pred : Pred) (off : BitVec 35) (s : State) : Host.Outcome State Fault Refusal :=
  laneBra x false neg pred off s
def execCall (x : Lx) (neg : Bool) (pred : Pred) (off : BitVec 35) (s : State) : Host.Outcome State Fault Refusal :=
  laneBra x true neg pred off s

/-- A branch through a table (R274): entries are signed word offsets from the table (log 24). -/
def laneTable (x : Lx) (link : Bool) (off : BitVec 27) (a : Reg) (s : State) : Host.Outcome State Fault Refusal :=
  laneBranch x (one a :: linkUse link) (fun s e c f =>
    match oneValue f (·.reg a.toNat) .read with
    | .error st => (.stop st, s)
    | .ok i =>
      let table := branchTarget c.pc off
      let held : VAddr → Bool := fun a => codeHeld s e.warp.core e.warp.ctx a.toNat 4
      if held table then (.stop (.wait .link), s)
      else match fetchCode s e.warp.core e.warp.ctx table.toNat 4 with
      | (.error k, s) => (.stop (.cause k), s)
      | (.ok n, s) =>
        if n ≤ i then (LaneAct.illegal, s)
        else if held (table + BitVec.ofNat 56 (4 + 4 * i)) then (.stop (.wait .link), s)
        else
          match fetchCode s e.warp.core e.warp.ctx (table + BitVec.ofNat 56 (4 + 4 * i)).toNat 4 with
          | (.error k, s) => (.stop (.cause k), s)
          | (.ok v, s) => (⟨.done (jumpTo e link (branchTarget table (BitVec.ofNat 32 v)) f), 0, 0⟩, s)) s

def execBrx (x : Lx) (off : BitVec 27) (a : Reg) (s : State) : Host.Outcome State Fault Refusal :=
  laneTable x false off a s
def execCallx (x : Lx) (off : BitVec 27) (a : Reg) (s : State) : Host.Outcome State Fault Refusal :=
  laneTable x true off a s

/-- Whether a value is a code address: bits 1:0 and 63:56 are 0. -/
def codeAddress (v : Nat) : Bool := v % 4 == 0 && v / 2 ^ 56 == 0

def execRet (x : Lx) (a : Reg) (s : State) : Host.Outcome State Fault Refusal :=
  laneBranch x [two a] (fun s e _ f =>
    match oneValue f (·.pair a.toNat) .read with
    | .error st => (.stop st, s)
    | .ok v =>
      if codeAddress v then (⟨.done (jumpTo e false (BitVec.ofNat 56 v) f), 0, 0⟩, s) else (LaneAct.illegal, s)) s

/-! ### The end of fibres (R52, R277) -/

/-- `exit` and `tail`: the executing fibres end; the last of them decides how the warp ends. -/
def laneEnd (x : Lx) (tail : Bool) (s : State) : Host.Outcome State Fault Refusal :=
  laneBranch x [] (fun s _ c _ => (⟨.gone, 0, 0⟩, s.modWarp c.warp fun W => { W with tailed := tail })) s

def execExit (x : Lx) (s : State) : Host.Outcome State Fault Refusal := laneEnd x false s
def execTail (x : Lx) (s : State) : Host.Outcome State Fault Refusal := laneEnd x true s

/-! ### Reconvergence (R276) -/

/-- Entries of a reconvergence stack. -/
def stackDepth : Nat := 16

/-- `rcvset` pushes an entry (R276); a push onto a full stack discards the bottom one, and what was parked at that stays so
(log 107). -/
def execRcvset (x : Lx) (off : BitVec 33) (s : State) : Host.Outcome State Fault Refusal :=
  laneOnce (.rcvset x off) x [] (fun s e c _ fs =>
    let (id, s) := s.stamp
    (fs.map fun f => doneRes e f f.lanes,
      s.modWarp c.warp fun W =>
        { W with stack := (⟨id, branchTarget c.pc off, fs.map (·.slot)⟩ :: W.stack).take stackDepth })) s

/-- The topmost entry of a PC whose mask holds a fibre. -/
def entryFor (stack : List RcEntry) (pc : VAddr) (k : Nat) : Option RcEntry :=
  stack.find? fun r => r.pc == pc && r.mask.contains k
/-- Remove a fibre from the masks of the entries above one. -/
def leaveAbove (id k : Nat) : List RcEntry → List RcEntry
  | [] => []
  | r :: t => if r.id = id then r :: t else { r with mask := r.mask.filter (· != k) } :: leaveAbove id k t

/-- `rcvwait` for one fibre: it parks, a trap of its guard's event waiting until it completes (`owedTraps`), or goes on. -/
def rcvwaitFibre (c : Issue) (s : State) (e : LaneEnv) (f : Fibre) : LaneAct × State :=
  match entryFor (s.warp c.warp).stack c.pc f.slot with
  | none => (LaneAct.ok e f f.lanes, s)
  | some r =>
    (⟨.done { f with pc := e.next, status := .entry r.id }, 0, 0⟩,
      s.modWarp c.warp fun W => { W with stack := leaveAbove r.id f.slot W.stack })

def execRcvwait (x : Lx) (s : State) : Host.Outcome State Fault Refusal :=
  match s.cur with
  | none => .fault .noIssuer
  | some c =>
    match laneFold (.rcvwait x) x false [] (rcvwaitFibre c) s with
    | .next s => .next (settleWarp s c.warp)
    | o => o

/-! ### Spawning (R45 to R48, R278, R375, R481) -/

/-- Child records of a core's Shuttle queue (R48). -/
def shuttleSize : Nat := 4096
/-- Full warps that a Shuttle queue can hold. -/
def fullWarps : Nat := 33
def codeJoin : Nat := 0x0403

/-- TID of a child (R46). -/
def childTid (tid : Word) (icount : BitVec 48) : Word :=
  ((mix64 (BitVec.ofNat 64 (tid.toNat * 2 ^ 32 + icount.toNat % 2 ^ 32))).setWidth 31).setWidth 32 ||| 0x80000000

/-- Place a child with the Shuttle of its core or in the spill ring (R375); none when neither has room. -/
def placeChild (s : State) (ch : Child) : Option State :=
  let L := s.launch ch.launch
  let inQueue : Option State :=
    if (s.core ch.core).shuttle.length < shuttleSize then
      some (s.modCore ch.core fun C => { C with shuttle := C.shuttle ++ [ch] })
    else none
  let inRing : Option State :=
    if L.ring.length < L.lrec.spillSize / 128 then
      some (count (s.modLaunch ch.launch fun L =>
        { L with ring := L.ring ++ [ch], ringHigh := max L.ringHigh (L.ring.length + 1) }) ch.ctx ch.core 0x31 1)
    else none
  if L.ring.any fun r => r.core == ch.core then
    match inRing with | some t => some t | none => inQueue
  else match inQueue with | some t => some t | none => inRing

/-- Locate a join word: none for address 0. -/
def joinPlace (s : State) (W : Warp) (v : Nat) (k : AccKind) : Except Stop (Option Place) × State :=
  if v = 0 then (.ok none, s)
  else
    match locate s W 0 .glob v 0 8 k true with
    | (.error st, s) => (.error st, s)
    | (.ok p, s) => (.ok (some p), s)

/-- Add a child to a join word at once (R47): the conditions on the word, or whether there was room. -/
def joinAdd (s : State) (w : Nat) (p : Place) : Except Stop Bool × State :=
  let W := s.warp w
  match linkCheck s p 8 .rmw with
  | (some k, s) => (.error (.cause k), s)
  | (none, s) =>
    if linkDown s p then (.error (.wait .link), s)
    else if poisoned s p 8 then (.error (.cause ⟨codeSoftError, p.va, .rmw⟩), s)
    else
      let v := leNat (freshBytes s p (p.data 8 0) 8)
      if v / 2 ^ 48 ≠ 0 then (.error (.cause ⟨codeJoin, p.va, .rmw⟩), s)
      else if v % 2 ^ 32 = 2 ^ 32 - 1 then (.ok false, s)
      else (.ok true, writePlace s W.core p (wholeBytes (p.data 8 0) (leBytes 8 (v + 1))))

/-- `spawn` for one fibre. -/
def laneSpawn (w : Nat) (n : BitVec 4) (r : Reg) (pd : Pred) (a b : Reg) (s : State) (e : LaneEnv) (f : Fibre) :
    LaneAct × State :=
  let L := (s.launch e.warp.launch).lrec
  let put : Bool → LaneAct := fun v => LaneAct.ok e f (mapLanes f fun _ l => l.setPred pd v)
  if L.ordered then (LaneAct.illegal, s)
  else
    match oneValue f (·.pair a.toNat) .read with
    | .error st => (.stop st, s)
    | .ok entry =>
      if !codeAddress entry then (LaneAct.illegal, s)
      else
        match oneValue f (·.pair b.toNat) .rmw with
        | .error st => (.stop st, s)
        | .ok join =>
          match joinPlace s e.warp join .rmw with
          | (.error st, s) => (.stop st, s)
          | (.ok p, s) =>
            match releaseAt s w .device with
            | .error why => (.stop (.wait why), s)
            | .ok s =>
              let ch : Child := ⟨e.warp.ctx, e.warp.launch, BitVec.ofNat 56 entry,
                f.lanes.map fun l => (List.range n.toNat).map fun i => BitVec.ofNat 32 (l.reg (r.toNat + i)),
                childTid f.tid f.icount, BitVec.ofNat 56 join, s.clock e.warp.core, e.warp.core⟩
              let fail : State → LaneAct × State := fun s =>
                (put false, commitBlock (count s e.warp.ctx e.warp.core 0x32 1) e.warp)
              match placeChild s ch with
              | none =>
                match p with
                | none => fail s
                | some p =>
                  match linkCheck s p 8 .rmw with
                  | (some k, s) => (.stop (.cause k), s)
                  | (none, s) =>
                    if leNat (freshBytes s p (p.data 8 0) 8) / 2 ^ 48 ≠ 0 then (.stop (.cause ⟨codeJoin, p.va, .rmw⟩), s)
                    else fail s
              | some _ =>
                match (match p with | some p => joinAdd s w p | none => (.ok true, s)) with
                | (.error st, s) => (.stop st, s)
                | (.ok false, s) => fail s
                | (.ok true, s) =>
                  let s := (placeChild s ch).getD s
                  let s := s.modLaunch e.warp.launch fun L => { L with children := L.children + 1 }
                  (put true, commitBlock (count s e.warp.ctx e.warp.core 0x30 1) e.warp)

def execSpawn (x : Lx) (n : BitVec 4) (r : Reg) (pd : Pred) (a b : Reg) (s : State) :
    Host.Outcome State Fault Refusal :=
  match laneFold (.spawn x n r pd a b) x false [two a, two b, ⟨r.toNat, n.toNat, 1⟩]
      (laneSpawn (curWarp s) n r pd a b) s with
  | .next t => .next (issueFull fullWarps (s.warp (curWarp s)).core t)
  | o => o

/-! ### Waiting (R279, R280) -/

/-- `jwait` for one fibre. -/
def laneJwait (w : Nat) (d a : Reg) (s : State) (e : LaneEnv) (f : Fibre) : LaneAct × State :=
  match oneValue f (·.pair a.toNat) .read with
  | .error st => (.stop st, s)
  | .ok v =>
    match joinPlace s e.warp v .read with
    | (.error st, s) => (.stop st, s)
    | (.ok none, s) => (LaneAct.ok e f (mapLanes f fun _ l => l.setReg d.toNat 0), acquire s e.warp.core .device)
    | (.ok (some p), s) =>
      match loadElem s w false p 8 p.va with
      | (.error st, s) => (.stop st, s)
      | (.ok el, s) =>
        let v := el.copies.headD 0
        if v / 2 ^ 48 ≠ 0 then (.stop (.cause ⟨codeJoin, p.va, .read⟩), s)
        else if v % 2 ^ 32 ≠ 0 then (.stop (.wait (.join p.va)), s)
        else (LaneAct.ok e f (mapLanes f fun _ l => l.setReg d.toNat (v / 2 ^ 32)), acquire s e.warp.core .device)

def execJwait (x : Lx) (d a : Reg) (s : State) : Host.Outcome State Fault Refusal :=
  laneFold (.jwait x d a) x false [one d, two a] (laneJwait (curWarp s) d a) s

/-- Cycles after which a `yield` with no other ready warp ends (R280). -/
def yieldCycles : Nat := 64

def execYield (x : Lx) (s : State) : Host.Outcome State Fault Refusal :=
  laneOnce (.yield x) x [] (fun s e c _ fs =>
    (fs.map fun f => doneRes e f f.lanes,
      s.modWarp c.warp fun W => { W with yield := some (s.clock W.core + yieldCycles) })) s

/-! ### Traps and breakpoints (R281, R282) -/

def codeSoftwareTrap : Nat := 0x0210
def codeBreakpoint : Nat := 0x0801

/-- `trap n` (R281): the executing fibres complete it and leave as one fragment; a guard's event is only counted, the
trap being the first condition (R467). -/
def execTrap (x : Lx) (n : BitVec 12) (s : State) : Host.Outcome State Fault Refusal :=
  match s.cur with
  | none => .fault .noIssuer
  | some c =>
    let e := laneEnv s c x
    let fs := groupOf e.warp c
    let on := fs.filter fun f => (guardOf x f).1
    let rs := fs.map fun f =>
      let (active, u) := guardOf x f
      if active then (⟨f.slot, .done (f.advance e.next), 0, 0⟩ : FibreRes)
      else ⟨f.slot, .done (f.skip e.next), 0, guardEvent u⟩
    let num := if on.any fun f => !(guardOf x f).2 then evUCMP else 0
    let t := (finish s (.trap x n) c rs).modWarp c.warp fun W => W.addFlags 0 num
    if on = [] then .next t
    else .next (raiseUser t c.warp (c.lx.getD 0) c.word
      (raisesOf (s.warp c.warp) codeSoftwareTrap e.next (on.map (·.slot)) n.toNat))

/-- `brkpt` (R282): a halt where a debugger has armed breakpoints, otherwise a user trap. -/
def execBrkpt (x : Lx) (s : State) : Host.Outcome State Fault Refusal :=
  match s.cur with
  | none => .fault .noIssuer
  | some c =>
    let W := s.warp c.warp
    if armed (s.ctx W.ctx) && (groupOf W c).any (fun f => (guardOf x f).1) then
      .next (matchWarp s c.warp haltIndex false c.pc)
    else
      laneBranch x [] (fun s _ _ _ => (.stop (.cause ⟨codeBreakpoint, 0, .fetch⟩), s)) s

end Sys2Proof.Machine
end

