-- ==== Sys2Proof/Machine/MemoryEvents.lean ====
section
/-! DEFINITION. Events of memory: returning loads, draining stores, walks, invalidations and the limit of `mwait` (R136,
R137, R149, R255, R266, R320, R475, R476). -/
namespace Sys2Proof.Machine

/-! ### Loads and stores (R149, R255) -/

/-- The data of a pending load arrives. -/
def execLoadDataReturn (w idx : Nat) (s : State) : Host.Outcome State Fault Refusal :=
  .next (s.modWarp w fun W =>
    match W.loads[idx]? with
    | some p => { applyLoad W p with loads := dropAt W.loads idx }
    | none => W)

/-- A warp's view of a tracker entry, for reports. -/
def trackWarp (core : Nat) (t : Track) : Warp :=
  { Warp.absent with ctx := t.ctx, launch := t.launch, blk := t.blk, wid := t.wid, core := core }

/-- The first entry of a tracker that holds an operation of a warp. -/
def firstOp (ts : List Track) (w : Nat) : Option Nat := ts.findIdx? fun t => t.warp == w && t.op.isSome

/-- Perform the operation of a tracker entry, the oldest of its warp (R52, R149, R475, R476), unless it must stay (R379,
R396). -/
def drainTrack (s : State) (core idx : Nat) : State :=
  match (s.core core).tracker[idx]? with
  | none => s
  | some t =>
    match t.op with
    | none => s
    | some o =>
      if t.held || firstOp (s.core core).tracker t.warp ≠ some idx || opStays s t.ctx core o then s
      else
        let W := trackWarp core t
        match performStore s core t.warp t.launch t.blk (if o.place.tracked then ticketOf s W else none) o with
        | (.ok (u, _, num), _) =>
          let u := countNum (chargeBytes u t.ctx o.place o.size true) t.ctx core (num &&& ~~~o.raised)
          u.modCore core fun C => { C with tracker := dropAt C.tracker idx }
        | (.error c, u) => reportImprecise (holdWarp u t.warp W) t.warp W (impreciseRec u W o c true)
/-- Whether a tracker entry holds an operation or a `cpa` piece that nothing holds back. -/
def Track.free (t : Track) : Bool := !t.held && (t.op.isSome || t.cpa.isSome)
/-- Perform up to n tracker entries of some kind, oldest first. -/
def drainTracks (which : Track → Bool) : Nat → State → State
  | 0, s => s
  | n + 1, s =>
    match s.cores.findSome? fun e => (e.2.tracker.zipIdx.find? fun x => which x.1 && x.1.free).map fun x => (e.1, x) with
    | none => s
    | some (core, t, i) => drainTracks which n (if t.op.isSome then drainTrack s core i else cpaLand s t.warp 0)

/-- The event of a store that is performed, or, behind the entries of a tracker, of one that reaches its home L2 from its
core (R149, R150). -/
def execStoreDrain (src : DrainSrc) (s : State) : Host.Outcome State Fault Refusal :=
  match src with
  | .warp w => .next (if (Tab.find s.warps w).isSome then drainOne s w else s)
  | .tracker core idx =>
    let n := (s.core core).tracker.length
    .next (if idx < n then drainTrack s core idx else landOne s core (idx - n))

/-! ### Walks and invalidations (R136, R137, R319, R320) -/

/-- A walk that a prefetch began finishes: a leaf is cached for every core that waits for it (R136). -/
def execPageWalkComplete (idx : Nat) (s : State) : Host.Outcome State Fault Refusal :=
  match s.walks[idx]? with
  | none => .next s
  | some k =>
    let t := { s with walks := dropAt s.walks idx }
    match walkCtx t k.ctx k.va with
    | .ok (l, e) => .next (k.cores.foldl (fun t core => cacheLeaf t (.core core) k.ctx k.va l e) t)
    | .error _ => .next t

/-- Whether an invalidation covers a cached translation: `.page` takes entries of any size that cover the address,
`.asid` all of the address space but GLOBAL ones (R319). -/
def InvalKind.covers (k : InvalKind) (t : Tlb) : Bool :=
  match k with
  | .page a va => (t.global || t.asid == a) && t.page == va / 2 ^ t.bits
  | .asid a => t.asid == a && !t.global
  | .code _ _ _ _ => false
  | .discard _ => false

/-- Operations that wait to be performed after they were translated: of warps, trackers and stages, and those on their way, with
the context. -/
def openOps (s : State) : List (Nat × StoreOp) :=
  (s.warps.flatMap fun e => e.2.storeQ.map fun o => (e.2.ctx, o))
  ++ (s.cores.flatMap fun e => e.2.tracker.flatMap fun t => t.op.toList.map fun o => (t.ctx, o))
  ++ (s.launches.flatMap fun e => e.2.stages.map fun x => (e.2.ctx, x.op))
  ++ (s.cores.flatMap fun e => e.2.passing.map fun y => ((s.launch y.launch).ctx, y.op))
/-- Whether an access of a context to a place may have been translated by an entry that an invalidation covers. -/
def covered (s : State) (k : InvalKind) (c : Nat) (p : Place) : Bool :=
  p.sram.isNone &&
  match k with
  | .page a va =>
    p.va / 65536 == va / 65536 && (s.ctx c).asid == a
      || s.dies.any fun d => d.2.tlb.any fun t => k.covers t && t.page == p.va / 2 ^ t.bits
          && (t.global || (s.ctx c).asid == t.asid)
  | .asid a => (s.ctx c).asid == a
  | .code _ _ _ _ => false
  | .discard _ => false
/-- Places of `cpa` pieces that have been translated, of warps and trackers, with the context. -/
def openCpas (s : State) : List (Nat × Place) :=
  (s.warps.flatMap fun e => e.2.cpas.map fun p => (e.2.ctx, p.src))
  ++ s.cores.flatMap fun e => e.2.tracker.flatMap fun t => t.cpa.toList.map fun p => (t.ctx, p.src)

/-- Drop the covered translations of every die. -/
def dropTlbs (s : State) (k : InvalKind) : State :=
  { s with dies := s.dies.map fun d => (d.1, { d.2 with tlb := d.2.tlb.filter fun t => !k.covers t }) }

/-- The event of a completed TLB invalidation: every access that the covered entries translated has been performed
(R137). -/
def execTlbInvalidateComplete (idx : Nat) (s : State) : Host.Outcome State Fault Refusal :=
  match s.invals[idx]? with
  | none => .next s
  | some v =>
    let go : State :=
      let s := landAll s
      if (openOps s).any (fun x => covered s v.kind x.1 x.2.place) || (openCpas s).any (fun x => covered s v.kind x.1 x.2) then s
      else dropTlbs { s with invals := dropAt s.invals idx } v.kind
    match v.kind with
    | .page _ _ => .next go
    | .asid _ => .next go
    | .code _ _ _ _ => .next s
    | .discard _ => .next s

/-- Whether an `icinv` covers a cached line (R320): a length of 0 covers every line. -/
def coversLine (ctx lo len key : Nat) : Bool :=
  len == 0 || (icCtx key == ctx && decide (lo < (icLine key + 1) * 64) && decide (icLine key * 64 < lo + len))

/-- The event of a completed instruction-cache invalidation (R320, R501). -/
def execIcinvComplete (idx : Nat) (s : State) : Host.Outcome State Fault Refusal :=
  match s.invals[idx]? with
  | none => .next s
  | some v =>
    match v.kind with
    | .code cores ctx lo len =>
      let t := { s with
        invals := dropAt s.invals idx
        cores := s.cores.map fun e =>
          if cores.contains e.1 then (e.1, { e.2 with icache := e.2.icache.filter fun x => !coversLine ctx lo len x.1 })
          else e }
      .next (match v.dbg with | some c => t.modCtx c fun C => { C with dbgiclen := 0 } | none => t)
    | _ => .next s

/-- The event of an `mwait` whose limit has passed (R266). -/
def execMwaitLimitExpire (w : Nat) (s : State) : Host.Outcome State Fault Refusal :=
  let W := s.warp w
  let due := W.fibres.any fun f => match f.status with
    | .waiting x => (match x.why with | .monitor k => decide (k ≤ s.clock W.core) | _ => false)
    | _ => false
  if due then .next (s.modWarp w fun W => { W with monitor := W.monitor.map fun m => { m with expired := true } })
  else .next s

end Sys2Proof.Machine
end

