-- ==== Sys2Proof/Machine/WarpEvents.lean ====
section
/-! DEFINITION. The end of warps, the retirement tracker, join updates, the Shuttle's events and the delivery of fragments
(R47, R48, R52, R53, R375, R459, R460). -/
namespace Sys2Proof.Machine

/-! ### Join counters (R47, R481) -/

/-- The warp whose end updates a join counter, or a view of it once it is gone. -/
def joinWarp (s : State) (j : JoinEnd) : Warp :=
  match Tab.find s.warps j.warp with
  | some W => W
  | none => { Warp.absent with ctx := j.ctx, launch := j.launch, core := j.core, segs := spawnSegs (s.launch j.launch) }
/-- Whether stores of the ending warp are still to be performed. -/
def joinWaits (s : State) (j : JoinEnd) : Bool :=
  let W := s.warp j.warp
  W.heldStores || !W.storeQ.isEmpty || onWay s (·.warp == j.warp)
    || s.cores.any fun e => e.2.tracker.any fun t => t.warp == j.warp
/-- The word after a child's end: one fewer outstanding, and one more fault where it ended so. -/
def joinWord (v : Nat) (faulted : Bool) : Nat :=
  let f := v / 2 ^ 32 % 65536
  v / 2 ^ 48 * 2 ^ 48 + (if faulted then min (f + 1) 65535 else f) * 2 ^ 32 + (v % 2 ^ 32 - 1)
/-- A child has ended for its launch (R40). -/
def childDone (s : State) (idx l : Nat) : State :=
  { s with joins := dropAt s.joins idx }.modLaunch l fun L => { L with children := L.children - 1 }

/-- Update the join counter of a child that has ended (R47): JOIN is only recorded (R481), and a fault is that of a
store of its warp (R475). -/
def joinEnd (s : State) (idx : Nat) : State :=
  match s.joins[idx]? with
  | none => s
  | some j =>
    let s := if (Tab.find s.warps j.warp).isSome then drainAll s j.warp else landHome s j.core
    if joinWaits s j then s
    else if j.addr = 0 then childDone s idx j.launch
    else
      let W := joinWarp s j
      let fail : Cause → State → State := fun k t =>
        let alive := (Tab.find s.warps j.warp).isSome
        if k.code = codeSoftError then
          let r := plainRec codeSoftError j.name k.addr j.slot .rmw
          let t := childDone t idx j.launch
          if alive then kill t (.warp j.warp) r else launchFault t j.launch r
        else
          let t := if alive then t else childDone t idx j.launch
          reportImprecise (holdWarp t j.warp W) j.warp W ⟨none, k.code, true, false, true, j.slot, j.name, k.addr, .rmw, none⟩
      match locate s W 0 .glob j.addr.toNat 0 8 .rmw true with
      | (.error (.wait _), t) => t
      | (.error (.cause k), t) => fail k t
      | (.ok p, t) =>
        match linkCheck t p 8 .rmw with
        | (some k, t) => fail k t
        | (none, t) =>
          if linkDown t p || budgetHeld t j.ctx p true then t
          else if poisoned t p 8 then fail ⟨codeSoftError, p.va, .rmw⟩ t
          else
            let t := landLines t W.core (placeLines p 8)
            let v := leNat (freshBytes t p (p.data 8 0) 8)
            let bad := decide (v / 2 ^ 48 ≠ 0) || decide (v % 2 ^ 32 = 0)
            let t := if bad then launchFault t j.launch (plainRec codeJoin j.name p.va j.slot .rmw) else t
            let t := if v % 2 ^ 32 = 0 then t
              else chargeBytes (writePlace t W.core p (wholeBytes (p.data 8 0) (leBytes 8 (joinWord v j.faulted)))) j.ctx p 8 true
            childDone t idx j.launch

def execJoinEndUpdate (idx : Nat) (s : State) : Host.Outcome State Fault Refusal := .next (joinEnd s idx)

/-! ### The end of a warp (R52, R53) -/

/-- Entries of a core's retirement tracker. -/
def trackerSize : Nat := 256
/-- The tracker entries that a warp's outstanding work needs. -/
def tracksOf (s : State) (w : Nat) : List Track :=
  let W := s.warp w
  let lin := blockIndex s W
  (W.storeQ.map fun o => ⟨W.ctx, W.launch, o.pc, W.blk, lin, w, W.wid, o.slot, some o, none, none, W.heldStores⟩)
  ++ (W.cpas.map fun p => ⟨W.ctx, W.launch, p.pc, W.blk, lin, w, W.wid, p.slot, none, some p, none, W.heldStores⟩)
  ++ W.copies.map fun n =>
    let c := W.blk.bind fun b => (s.blk b).carter.cmds.find? fun c => c.n == n
    ⟨W.ctx, W.launch, (c.map (·.pc)).getD 0, W.blk, lin, w, W.wid, (c.map (·.slot)).getD 0, none, none, some n, false⟩
/-- A warp's registers and slot are free, and its block may retire. -/
def freeWarp (s : State) (w : Nat) : State :=
  let b := (s.warp w).blk
  let s := forgetWarps s [w]
  match b with
  | some b => retireIfDone s b
  | none => s

/-- The event of a warp's end: what it issued has been acknowledged, and has reached its home L2; after `tail` the tracker takes
what has not been performed. -/
def execWarpEnd (w : Nat) (s : State) : Host.Outcome State Fault Refusal :=
  match Tab.find s.warps w with
  | none => .next s
  | some W =>
    if W.residence ≠ .draining || W.fibres ≠ [] || W.faults ≠ [] then .next s
    else
      let s := landHome s W.core
      let ts := tracksOf s w
      let joins := (s.joins.filter fun j => j.warp == w).length
      if ts = [] ∧ joins = 0 ∧ !onWay s (·.warp == w) then .next (freeWarp s w)
      else if W.tailed && decide ((s.core W.core).tracker.length + ts.length ≤ trackerSize) then
        .next (freeWarp (s.modCore W.core fun C => { C with tracker := C.tracker ++ ts }) w)
      else .next s

/-! ### The Shuttle (R48, R374, R375) -/

/-- The event of a timeout: a partial warp of a launch issues on the Shuttle's own core; where that has no room it waits
for the Loom (R374). -/
def execSpawnTimeout (core launch : Nat) (s : State) : Host.Outcome State Fault Refusal :=
  match gathered s core true (fun c => c.launch == launch) with
  | none => .next s
  | some cs => .next ((issueSpawned s core core cs).getD s)

/-- The first ring record of a die, and the ring without it. -/
def takeSpilled (die : Nat) : List Child → Option (Child × List Child)
  | [] => none
  | c :: t => if dieOf c.core = die then some (c, t) else (takeSpilled die t).map fun e => (e.1, c :: e.2)

/-- The event of a spilled record's return to a Shuttle of its die that has room (R375). -/
def execSpillReturn (core launch : Nat) (s : State) : Host.Outcome State Fault Refusal :=
  if shuttleSize ≤ (s.core core).shuttle.length then .next s
  else
    match takeSpilled (dieOf core) (s.launch launch).ring with
    | none => .next s
    | some (c, rest) =>
      let s := s.modLaunch launch fun L => { L with ring := rest }
      let s := s.modCore core fun C => { C with shuttle := C.shuttle ++ [{ c with core := core }] }
      .next (issueFull fullWarps core (s.modCtx c.ctx fun C => { C with blockedSince := none }))

/-! ### Issue eligibility and fragments (R459, R460) -/

/-- Whether a context's work issues: it is RUNNING and not going elsewhere. -/
def ctxRuns (s : State) (c : Nat) : Bool :=
  let C := s.ctx c
  C.state == .running && !C.stopping && !C.discarding && C.fault.isNone
/-- Whether an owner has a fault that stops it. -/
def ownerFaulted (s : State) (o : Owner) : Bool := (faultsOf s o).any (·.alive)
/-- Whether a warp may issue at all (R363, R399, R412, R471). -/
def warpRuns (s : State) (w : Nat) : Bool :=
  let W := s.warp w
  W.residence == .resident && W.fibres != [] && !W.halted && ctxRuns s W.ctx && !ownerFaulted s (ownerOf w W)
    && (match W.blk with
      | some b => !(s.blk b).halted && ((s.blk b).state == .resident || (s.blk b).state == .part)
      | none => true)

/-- An instruction that a warp issued before its halt completes with the trap that it raised (R412): the fragment that may
enter its handler does. -/
def deliverRaised (s : State) (w : Nat) : State :=
  if (deliverable (s.warp w)).isSome && !ownerFaulted s (ownerOf w (s.warp w)) then
    let s := drainAll s w
    if ownerFaulted s (ownerOf w (s.warp w)) then s else enterHandler s w
  else s

/-- The event of a delivery: the warp's first fragment enters its handler. -/
def execFragmentDeliver (w : Nat) (s : State) : Host.Outcome State Fault Refusal :=
  .next (if warpRuns s w then
    let s := drainAll s w
    if warpRuns s w then enterHandler s w else s
  else s)

end Sys2Proof.Machine
end

