-- ==== Sys2Proof/Machine/Save.lean ====
section
/-! DEFINITION. Saved images, saving and restoring (R381, R409, R412, R502, R503, R520), and the sections of an image
(Tables 22-9 and 22-10). -/
namespace Sys2Proof.Machine

/-! ### Sections (R503, Table 22-10) -/

/-- The lowest PC of a warp's fibres. -/
def lowPc (W : Warp) : VAddr :=
  match W.fibres with
  | [] => 0
  | f :: t => t.foldl (fun a g => if g.pc.toNat < a.toNat then g.pc else a) f.pc
/-- A warp's registers: a frame of code 0 whose mask is all live fibres. -/
def warpSection (s : State) (W : Warp) (field : Nat) : Section :=
  let W := W.settle
  let q : Fragment := ⟨0, 0, 0, 0, W.fibres.map (·.slot), [], lowPc W, 0, 0, 0, 0, 0, W.numflags⟩
  ⟨1, blockIndex s W, field, W.core, frameOf s W q W.handlers.length⟩
/-- Barriers, then rings. -/
def barrierBytes (B : Block) : List Byte :=
  let bar : Barrier → List Byte := fun v =>
    leBytes 4 v.phase.toNat ++ [v.count, v.arr, if v.fm then 1 else 0, 0] ++ leBytes 8 v.bytes.toNat
  let ring : Ring → List Byte := fun r =>
    ((List.range 16).flatMap fun i => leBytes 4 (Tab.read (0 : Word) r.tokens i).toNat)
    ++ (leBytes 1 r.rd.toNat ++ leBytes 1 r.wr.toNat ++ leBytes 2 r.phases.toNat ++ List.replicate 12 0)
  B.bars.flatMap bar ++ B.rings.flatMap ring
/-- One copy with its status: 0 not begun, 1 completed, 2 faulted. -/
def copyBytesOf (c : CopyCmd) (status : Nat) : List Byte :=
  c.record ++ leBytes 8 c.n ++ leBytes 2 status ++ leBytes 2 (c.fault.getD 0) ++ leBytes 4 c.moved
/-- Put a copy with its status among others, by ascending number. -/
def insertCopy (e : CopyCmd × Nat) : List (CopyCmd × Nat) → List (CopyCmd × Nat)
  | [] => [e]
  | x :: t => if e.1.n < x.1.n then e :: x :: t else x :: insertCopy e t
/-- Copies of a block: those that had begun at the stop and are no longer there have completed. -/
def copySection (B : Block) (begun : List CopyCmd) : List Byte :=
  let gone := (begun.filter fun c => !B.carter.cmds.any fun x => x.n == c.n).map fun c => (c, 1)
  let left := B.carter.cmds.map fun c => (c, if c.fault.isSome then 2 else 0)
  ((gone ++ left).foldl (fun a e => insertCopy e a) []).flatMap fun e => copyBytesOf e.1 e.2
/-- A tile slot: its type, 0 for floating point and 1 for integers, and its elements row by row. -/
def tileBytes (t : Tile) : List Byte :=
  leBytes 4 (if t.int = some true then 1 else 0) ++ List.replicate 60 0
  ++ (List.range 16384).flatMap fun i => leBytes 4 (Tab.read (0 : Word) t.cells i).toNat
/-- A Foreman context in 768 bytes. -/
def foremanBytes (F : Foreman) : List Byte :=
  let mask := F.slots.zipIdx.foldl (fun a e => if e.1.isSome then a + 2 ^ e.2 else a) 0
  let bottom := F.loops.reverse
  leBytes 8 F.fpc.toNat ++ leBytes 8 F.fcount.toNat ++ leBytes 8 F.timeline ++ leBytes 1 F.rnd.toNat
  ++ leBytes 1 F.loops.length ++ leBytes 1 mask ++ leBytes 1 0 ++ leBytes 4 F.ts.toNat
  ++ ((List.range 8).flatMap fun i => match F.slots.getD i none with
    | some x => x.bytes ++ x.origins.flatMap fun o => leBytes 4 o.toNat
    | none => List.replicate 80 0)
  ++ ((List.range 4).flatMap fun i => match bottom[i]? with
    | some e => leBytes 8 e.1.toNat ++ leBytes 4 e.2 ++ leBytes 4 0
    | none => List.replicate 16 0)
  ++ F.wph.flatMap fun p => leBytes 2 p.toNat
/-- The sections of a block in ascending kind, with the copies that had begun at its stop. -/
def blockSections (s : State) (b : Nat) (begun : List CopyCmd) : List Section :=
  let B := s.blk b
  let i := B.lin % 2 ^ 32
  let one := fun (k w : Nat) (bs : List Byte) => if bs.isEmpty then [] else [(⟨k, i, w, B.core, bs⟩ : Section)]
  ((warpsOf s b).map fun w => warpSection s (s.warp w) (s.warp w).wid)
  ++ one 2 0 ((List.range B.winSize).map fun a => Tab.read (0 : Byte) B.win a)
  ++ one 3 0 (barrierBytes B)
  ++ one 4 1 (copySection B begun)
  ++ one 5 0 (B.tiles.flatMap tileBytes)
  ++ one 6 0 (match B.fm with | some F => foremanBytes F | none => [])
  ++ B.abacus.flatMap fun A => one 7 0 A.image
/-- The sections of an owner. -/
def ownerSections (s : State) (o : Owner) : List Section :=
  match o with
  | .blk b => blockSections s b []
  | .warp w => [warpSection s (s.warp w) ((s.warp w).area % 65536)]

/-- Round up to a multiple. -/
def roundUp (n m : Nat) : Nat := (n + m - 1) / m * m
/-- Offsets of sections from the first, each on a 64-byte boundary; a section is its place. -/
def layOut : Nat → List Section → List (Nat × Section)
  | _, [] => []
  | a, x :: t => (a, x) :: layOut (roundUp (a + x.bytes.length) 64) t
/-- A section table entry (R503). -/
def sectionEntry (e : Nat × Section) : List Byte :=
  leBytes 2 e.2.kind ++ leBytes 2 0 ++ leBytes 4 e.2.block ++ leBytes 2 e.2.warp ++ leBytes 2 e.2.core ++ leBytes 4 0
  ++ leBytes 8 e.1 ++ leBytes 8 e.2.bytes.length
/-- Sections laid out behind their table. -/
def laidOut (xs : List Section) : List (Nat × Section) := layOut (roundUp (32 * xs.length) 64) xs
/-- An image: the section table and the sections. -/
def imageOf (xs : List Section) : List Byte :=
  let ps := laidOut xs
  let padTo := fun (bs : List Byte) (n : Nat) => bs ++ List.replicate (n - bs.length) 0
  ps.foldl (fun bs e => padTo bs e.1 ++ e.2.bytes) (ps.flatMap sectionEntry)

/-! ### The save area (R520) -/

/-- A save-area fault (R520): CTXFAULT is set unless a context fault is being reported; every save waits for a write of
SAVEAREA or SAVESIZE. -/
def saveFault (s : State) (c code addr : Nat) : State :=
  let C := s.ctx c
  if C.fault.isSome then s.setCtx c { C with saveWaits := true }
  else s.setCtx c { C.setEvent (eventWith C.event code 2) with
    saveWaits := true, evinfo := BitVec.ofNat 64 code, evaddr := BitVec.ofNat 64 addr }

/-- What saving came to. -/
inductive SaveRes where
  | done (off len : Nat)
  | noRoom
  | fault (code addr : Nat)
deriving DecidableEq, Repr

/-- Write an image into a context's save area, behind those already there. -/
def writeImage (s : State) (c : Nat) (bs : List Byte) : SaveRes × State :=
  let C := s.ctx c
  let off := roundUp C.saveEnd 64
  if C.savesize.toNat < off + bs.length then (.noRoom, s)
  else
    match structWrite s c (C.savearea.toNat + off) bs with
    | (.error e, s) => (.fault e.1 e.2, s)
    | (.ok s, _) => (.done off bs.length, s.modCtx c fun C => { C with saveEnd := off + bs.length })

/-- Whether any work of a context is saved. -/
def anySaved (s : State) (c : Nat) : Bool :=
  s.warps.any (fun e => e.2.ctx == c && e.2.residence == .saved) || s.blocks.any fun e => e.2.ctx == c && e.2.state == .saved
/-- The save area is free again when nothing of the context is saved and no dump is being written above the images. -/
def trimSave (s : State) (c : Nat) : State :=
  if anySaved s c || (s.ctx c).dump.isSome then s else s.modCtx c fun C => { C with saveEnd := 4096 }

/-! ### Saving (R381, R490) -/

/-- Context of an owner. -/
def ownerCtx (s : State) (o : Owner) : Nat := match o with | .blk b => (s.blk b).ctx | .warp w => (s.warp w).ctx
/-- Whether an owner's work is saved. -/
def ownerSaved (s : State) (o : Owner) : Bool :=
  match o with | .blk b => (s.blk b).state == .saved | .warp w => (s.warp w).residence == .saved

/-- A warp leaves its core: its monitor will find that it has moved (R168). -/
def liftWarp (img : Nat × Nat) (W : Warp) : Warp :=
  { W with residence := .saved, image := some img, monitor := W.monitor.map fun m => { m with moved := true } }
/-- Free the issue slots of warps and the focus on them. -/
def freeSlots (s : State) (ws : List Nat) : State :=
  { s with
    turn := match s.turn with | some w => if ws.contains w then none else some w | none => none
    cores := s.cores.map fun e => (e.1, { e.2 with slots := e.2.slots.map fun x =>
      match x with | some w => if ws.contains w then none else some w | none => none }) }
/-- Each barrier that a failed command named takes back the bytes that landed (R490). -/
def giveBack (s : State) (b : Nat) : State :=
  (s.blk b).carter.cmds.foldl (fun s c =>
    if c.fault.isSome then
      let s := match (CopyRec.ofBytes c.record).bar with
        | some k => c.landed.foldl (fun s e => giveBytes s e.1 k e.2) s
        | none => s
      modCopy s b c.n fun c => { c with landed := [] }
    else s) s

/-- Save an owner whose work is at an end, what failed copies landed having been given back; what stands in the way otherwise is
left as it is. -/
def saveOwner (s : State) (o : Owner) : SaveRes × State :=
  let s := match o with | .blk b => giveBack s b | .warp _ => s
  match writeImage s (ownerCtx s o) (imageOf (ownerSections s o)) with
  | (.done off len, s) =>
    let t := match o with
      | .blk b =>
        refuse s (s.blk b).core <| freeSlots ((s.mapWarps fun _ W => if W.blk = some b then liftWarp (off, len) W else W).modBlk b fun B =>
          { B with state := .saved, image := some (off, len) }) (warpsOf s b)
      | .warp w => freeSlots (s.modWarp w (liftWarp (off, len))) [w]
    (.done off len, t)
  | r => r

/-- Bring the work of an owner that is not saved to an end. -/
def endUnsaved (s : State) (o : Owner) : State := if ownerSaved s o then s else endOwnerWork s o
/-- Whether an owner is on its way to another core: it can be saved once it has arrived (R382, Table 13-6). -/
def ownerMoves (s : State) (o : Owner) : Bool :=
  match o with | .blk b => (s.blk b).state == .migrating | .warp _ => false
/-- Save an owner whose work has been brought to an end: false where it is not yet saved. -/
def saveEnded (s : State) (o : Owner) : Bool × State :=
  if ownerSaved s o then (true, s)
  else if !ownerQuiet s o || ownerMoves s o then (false, s)
  else
    match saveOwner s o with
    | (.done _ _, s) => (true, s)
    | (.noRoom, s) => (false, s.modCtx (ownerCtx s o) fun C => { C with saveWaits := true })
    | (.fault code addr, s) => (false, saveFault s (ownerCtx s o) code addr)
/-- Save owners in order: whether all are saved. -/
def saveAll : List Owner → State → Bool × State
  | [], s => (true, s)
  | o :: t, s =>
    let (a, s) := saveEnded s o
    let (b, s) := saveAll t s
    (a && b, s)
/-- Bring an owner to an end and save it: false where it is not yet saved. -/
def stopOwner (s : State) (o : Owner) : Bool × State := saveEnded (endUnsaved s o) o
/-- Save owners: the work of all comes to an end before any of them leaves its core, since a command of one may reach the
window of another (R327, R474). -/
def stopAll (os : List Owner) (s : State) : Bool × State :=
  let s := os.foldl endUnsaved s
  if os.all fun o => ownerSaved s o || ownerQuiet s o then saveAll os s else (false, s)

/-- Blocks and spawned warps of a context that have started and not ended, in ascending block index, then area. -/
def insertKey (k v : Nat) : List (Nat × Nat) → List (Nat × Nat)
  | [] => [(k, v)]
  | e :: t => if k < e.1 then (k, v) :: e :: t else e :: insertKey k v t
def ownersOf (s : State) (c : Nat) : List Owner :=
  let bs := (s.blocks.filter fun e => e.2.ctx == c && (e.2.state == .resident || e.2.state == .part || e.2.state == .saved
    || e.2.state == .migrating)).foldl (fun a e => insertKey e.2.lin e.1 a) []
  let ws := (s.warps.filter fun e => e.2.ctx == c && e.2.blk.isNone).foldl (fun a e => insertKey e.2.area e.1 a) []
  bs.map (fun e => .blk e.2) ++ ws.map fun e => .warp e.2

/-! ### Restoring (R381, R476) -/

/-- A warp stands on a core again; one whose fibres have all ended goes on draining. -/
def landWarp (core quarter clock : Nat) (W : Warp) : Warp :=
  { W with core := core, quarter := quarter, residence := if W.fibres = [] then .draining else .resident, image := none
           started := clock }
/-- Whether a tracker holds operations of a block. -/
def tracksHeld (s : State) (b : Nat) : Bool := s.cores.any fun e => e.2.tracker.any fun t => t.held && t.blk == some b
/-- What trackers held for a block is performed, oldest first (R476). -/
def freeTracks (s : State) (b : Nat) : State :=
  let free : Track → Track := fun t => { t with held := t.held && t.blk != some b }
  let n := s.cores.foldl (fun a e => a + e.2.tracker.length) 0
  drainTracks (fun t => t.blk == some b) n
    { s with cores := s.cores.map fun e => (e.1, { e.2 with tracker := e.2.tracker.map free }) }
/-- The join updates that a warp's end owes are made, up to n of them (R475, R476). -/
def replayJoins (w : Nat) : Nat → State → State
  | 0, s => s
  | n + 1, s =>
    match s.joins.findIdx? fun j => j.warp == w with
    | none => s
    | some i => replayJoins w n (joinEnd s i)
/-- The held operations of warps are performed before they issue, the join updates of their ended fibres among them (R476); a
restore acquires at device scope (R148). -/
def replay (s : State) (ws : List Nat) : State :=
  ws.foldl (fun s w =>
    let s := drainAll (s.modWarp w fun W => { W with heldStores := false }) w
    acquire (replayJoins w s.joins.length s) (s.warp w).core .device) s
/-- Whether a warp may go on after that: its operations have been performed, or a new fault holds them. -/
def replayed (s : State) (w : Nat) : Bool :=
  (s.warp w).heldStores || ((s.warp w).storeQ.isEmpty && !s.joins.any fun j => j.warp == w)
/-- A restore, where everything that was held has been performed; otherwise it waits (R379, R396, R476). -/
def ifReplayed (s : State) (ws : List Nat) (b : Option Nat) : Option State :=
  let tracks := match b with
    | some b => s.cores.all fun e => e.2.tracker.all fun t => t.blk != some b || t.held || (t.op.isNone && t.cpa.isNone)
    | none => true
  if ws.all (replayed s) && tracks then some s else none
/-- Restore one warp of a block that is there in part, or a spawned warp. -/
def restoreWarp (s : State) (w core quarter : Nat) : Option State :=
  let clock := s.clock core
  let s := replay (seatWarp (s.modWarp w (landWarp core quarter clock)) w) [w]
  let s := match (s.warp w).blk with
    | some b =>
      if ((warpsOf s b).all fun x => (s.warp x).residence != .saved) then
        s.modBlk b fun B => { B with state := if B.state = .part then .resident else B.state }
      else s
    | none => s
  (ifReplayed s [w] none).map fun s => trimSave s (s.warp w).ctx
/-- The scoreboard entries of a block go with it to a core (R169, R382). -/
def carryBoards (s : State) (b core : Nat) : State :=
  let mine := (s.cores.filter fun e => e.1 != core).flatMap fun e => e.2.board.filter fun x => x.blk == b
  if mine = [] then s
  else
    let leave : Core → Core := fun K => { K with board := K.board.filter fun x => x.blk != b }
    let t : State := { s with cores := s.cores.map fun e => if e.1 = core then e else (e.1, leave e.2) }
    t.modCore core fun K => { K with board := K.board ++ mine }
/-- Restore a saved block on a core, its warps in the quarters given. -/
def restoreBlock (s : State) (b core : Nat) (qs : List Nat) : Option State :=
  let held := tracksHeld s b
  let clock := s.clock core
  let ws := warpsOf s b
  let s := (ws.zip qs).foldl (fun s e => seatWarp (s.modWarp e.1 (landWarp core e.2 clock)) e.1) s
  let s := refuse s core (s.modBlk b fun B => { B with state := .resident, core := core, image := none })
  let s := reclaim (carryBoards s b core) core (s.blk b).winSize
  (ifReplayed (replay (freeTracks s b) ws) ws (if held then some b else none)).map fun s => trimSave s (s.blk b).ctx

/-! ### Edits of a halted image (R412) -/

/-- Take up what a debugger wrote into a warp's section: registers, predicates, ICOUNT, uniform state, NUMFLAGS, and the
PC of the fibres that stood at the frame's PC (log 33). -/
def editWarp (three : Bool) (bs : List Byte) (W : Warp) : Warp :=
  let old := lowPc W
  let pc := field bs 8 8
  let p := 0x80 + 1536 * W.window
  let new : VAddr := if pc % 4 = 0 ∧ pc / 2 ^ 56 = 0 then BitVec.ofNat 56 pc else old
  let held : Fibre → Fibre := fun f => { f with
    lanes := (List.range f.lanes.length).map fun j => laneFrom bs W.window (if three then 3 * f.slot + j else f.slot)
    icount := BitVec.ofNat 48 (field bs (p + 0x180 + 8 * f.slot) 8) }
  { W with
    fibres := W.fibres.map fun f => { held f with pc := if f.pc = old then new else f.pc }
    ended := W.ended.map held
    numflags := BitVec.ofNat 64 (field bs 0x68 8 % 16)
    sregs := (List.range 60).foldl (fun t r =>
      Tab.write (0 : Word) t r (BitVec.ofNat 32 (field bs (p + 0xD80 + 4 * r) 4))) W.sregs
    cpreds := (byteAt bs (p + 0xE80)).setWidth 7 }
/-- Take up barriers and rings. -/
def editBarriers (bs : List Byte) (B : Block) : Block :=
  { B with
    bars := B.bars.zipIdx.map fun e =>
      let a := 16 * e.2
      { e.1 with phase := BitVec.ofNat 32 (field bs a 4), count := byteAt bs (a + 4), arr := byteAt bs (a + 5)
                 fm := byteAt bs (a + 6) != 0, bytes := BitVec.ofNat 64 (field bs (a + 8) 8) }
    rings := B.rings.zipIdx.map fun e =>
      let a := 256 + 80 * e.2
      { e.1 with
        tokens := (List.range 16).foldl (fun t i => Tab.write (0 : Word) t i (BitVec.ofNat 32 (field bs (a + 4 * i) 4))) []
        rd := BitVec.ofNat 5 (field bs (a + 64) 1), wr := BitVec.ofNat 5 (field bs (a + 65) 1)
        phases := BitVec.ofNat 16 (field bs (a + 66) 2) } }
/-- Take up a Foreman context. -/
def editForeman (bs : List Byte) (F : Foreman) : Foreman :=
  let depth := min 4 (field bs 25 1)
  { F with
    fpc := BitVec.ofNat 56 (field bs 0 8), fcount := BitVec.ofNat 64 (field bs 8 8), timeline := field bs 16 8
    rnd := BitVec.ofNat 3 (field bs 24 1), ts := BitVec.ofNat 32 (field bs 28 4)
    slots := (List.range 8).map fun i =>
      if (field bs 26 1).testBit i then
        some ⟨(bs.drop (32 + 80 * i)).take 64, (List.range 4).map fun j => BitVec.ofNat 32 (field bs (96 + 80 * i + 4 * j) 4)⟩
      else none
    loops := ((List.range depth).map fun i =>
      (BitVec.ofNat 56 (field bs (672 + 16 * i) 8), field bs (680 + 16 * i) 4)).reverse
    wph := (List.range 16).map fun i => BitVec.ofNat 16 (field bs (736 + 2 * i) 2) }
/-- The type that an edited tile slot holds: one that has none and reads 0 still has none. -/
def editType (old : Option Bool) (v : Nat) : Option Bool :=
  if v = 1 then some true else if v = 0 ∧ old = some true then some false else old
/-- Take up one section of an image for its owner; copies in flight are not edited. -/
def editSection (s : State) (o : Owner) (x : Section) (nth : Nat) (bs : List Byte) : State :=
  match o with
  | .warp w => s.modWarp w (editWarp (s.three (s.warp w)) bs)
  | .blk b =>
    match x.kind with
    | 1 => match (warpsOf s b).find? fun w => (s.warp w).wid == x.warp with
      | some w => s.modWarp w (editWarp (s.three (s.warp w)) bs)
      | none => s
    | 2 => s.modBlk b fun B => { B with win := putBytes [] 0 bs }
    | 3 => s.modBlk b (editBarriers bs)
    | 5 => s.modBlk b fun B => { B with tiles := B.tiles.zipIdx.map fun e =>
        let a := 65600 * e.2
        { e.1 with int := editType e.1.int (field bs a 4), cells := (List.range 16384).foldl (fun t i =>
            Tab.write (0 : Word) t i (BitVec.ofNat 32 (field bs (a + 64 + 4 * i) 4))) [] } }
    | 6 => s.modBlk b fun B => { B with fm := B.fm.map (editForeman bs) }
    | 7 => s.modBlk b fun B => { B with abacus := modAt B.abacus nth fun A => (Abacus.ofImage A.div bs).getD A }
    | _ => s
/-- Take up the sections of an image, counting those of the Abacus. -/
def editAll (o : Owner) : List (Nat × Section) → Nat → List Byte → State → State
  | [], _, _, s => s
  | e :: t, nth, bs, s =>
    editAll o t (if e.2.kind = 7 then nth + 1 else nth) bs
      (editSection s o e.2 nth ((bs.drop e.1).take e.2.bytes.length))
/-- Read a halted owner's image and take up its edits (R412): an image that cannot be read leaves it as it was. -/
def takeEdits (s : State) (o : Owner) : State :=
  let img := match o with | .blk b => (s.blk b).image | .warp w => (s.warp w).image
  match img with
  | none => s
  | some (off, len) =>
    let c := ownerCtx s o
    match structRead s c ((s.ctx c).savearea.toNat + off) len with
    | (.ok bs, t) => editAll o (laidOut (ownerSections t o)) 0 bs t
    | (.error _, t) => t

end Sys2Proof.Machine
end

