-- ==== Sys2Proof/Machine/Pegboard.lean ====
section
/-! DEFINITION. Readiness tags and task queues as the Loom holds them (R41, R44, R310, R313, R314, R361, R368 to
R373). -/
namespace Sys2Proof.Machine

/-! ### Generations and the Pegboard -/

/-- Whether a 16-bit serial generation has reached another (R302, R310). -/
def genReached (g e : BitVec 16) : Bool := decide ((g - e).toNat < 32768)
/-- Key of a tile entry. -/
def tileKey (t i : Nat) : Nat := t * 2 ^ 32 + i
/-- The die of a tile entry (R368). -/
def pegDie (t i : Nat) : Nat := (t + i) % 8
/-- Tile entries of a die. -/
def pegSize : Nat := 8192
/-- Tensor records of the device. -/
def tensorSize : Nat := 4096

/-- Tile entries in use on a die. -/
def pegUsed (s : State) (die : Nat) : Nat :=
  s.ctxs.foldl (fun a e => a + (e.2.tiles.filter fun x => pegDie (x.1 / 2 ^ 32) (x.1 % 2 ^ 32) == die).length) 0
/-- Tensor records in use. -/
def tensorsUsed (s : State) : Nat := s.ctxs.foldl (fun a e => a + e.2.tensors.length) 0

/-- The effective generation of a tile (R369). -/
def effectiveGen (C : Ctx) (t i : Nat) : Option (BitVec 16) :=
  match Tab.find C.tiles (tileKey t i) with
  | some g => some g
  | none =>
    match Tab.find C.tensors t with
    | some r => if r.doneV then some r.done else none
    | none => none

/-- What a reference to a generation finds (R370). -/
inductive TagState where
  | unsatisfied | satisfied | stale (g : BitVec 16)
deriving DecidableEq, Repr

/-- The check of a declaration or reference (R370). -/
def tagCheck (C : Ctx) (t i : Nat) (e : BitVec 16) : TagState :=
  match effectiveGen C t i with
  | none => .unsatisfied
  | some g => if g = e then .satisfied else if genReached g e then .stale g else .unsatisfied

/-- A fallback is counted and traced (R372, R413): kind 0 coarse, 1 serial; the record's code is open (log 25). -/
def tagFallback (s : State) (c l core t kind : Nat) (n : Name) : State :=
  let s := count s c core (0x50 + kind) 1
  let s := s.modLaunch l fun L =>
    if kind = 0 then { L with coarse := L.coarse + 1 } else { L with serial := L.serial + 1 }
  trace s c core 6 n (leBytes 2 t ++ [Config.tagKind (kind == 1)])

/-- Whether a launch is DISPATCHING, RUNNING or COMPLETING. -/
def Launch.isOpen (L : Launch) : Bool := L.state == .dispatching || L.state == .running || L.state == .completing
/-- Whether a context has such a launch (R372). -/
def anyOpen (s : State) (c : Nat) : Bool := s.launches.any fun e => e.2.ctx == c && e.2.isOpen
/-- Serial fallback ends when the context has no open launch (R372). -/
def endSerial (s : State) (c : Nat) : State :=
  if (s.ctx c).serial && !anyOpen s c then s.modCtx c fun C => { C with serial := false } else s

/-- Publish a tile's generation (R310, R368, R372); an error is the stored generation that it would lower. -/
def tagPublish (s : State) (c l core t i : Nat) (g : BitVec 16) (n : Name) : Except (BitVec 16) State :=
  let C := s.ctx c
  let key := tileKey t i
  match Tab.find C.tiles key with
  | some old =>
    if genReached g old then .ok (s.setCtx c { C with tiles := Tab.put C.tiles key g }) else .error old
  | none =>
    let room := decide (pegUsed s (pegDie t i) < pegSize)
    match Tab.find C.tensors t with
    | some r =>
      if r.coarse then .ok s
      else if room then .ok (s.setCtx c { C with tiles := Tab.put C.tiles key g })
      else .ok (tagFallback (s.setCtx c { C with tensors := Tab.put C.tensors t { r with coarse := true } }) c l core t 0 n)
    | none =>
      let free := decide (tensorsUsed s < tensorSize)
      let tensors := if free then Tab.put C.tensors t ⟨0, false, !room⟩ else C.tensors
      if room then .ok (s.setCtx c { C with tensors := tensors, tiles := Tab.put C.tiles key g })
      else if free then .ok (tagFallback (s.setCtx c { C with tensors := tensors }) c l core t 0 n)
      else .ok (endSerial (tagFallback (s.setCtx c { C with serial := true }) c l core t 1 n) c)

/-- The core of a block of a launch, on which the events of its completion are counted (R414). -/
def launchCore (s : State) (l : Nat) : Nat := ((s.blocks.find? fun e => e.2.launch == l).map (·.2.core)).getD 0
/-- The completion of a launch with an output tag (R368, R371, R372). -/
def tagDone (s : State) (c l t : Nat) (g : BitVec 16) (n : Name) : State :=
  let C := s.ctx c
  if (Tab.find C.tensors t).isNone && decide (tensorSize ≤ tensorsUsed s) then
    tagFallback (s.setCtx c { C with serial := true }) c l (launchCore s l) t 1 n
  else s.setCtx c { C with
    tensors := Tab.put C.tensors t ⟨g, true, false⟩
    tiles := C.tiles.filter fun e => !(e.1 / 2 ^ 32 == t && genReached g e.2) }

/-- Whether every launch of a context that arrived earlier is DONE, which serial fallback waits for (R372). -/
def earlierDone (s : State) (c arrival : Nat) : Bool :=
  s.launches.all fun e => e.2.ctx != c || decide (arrival ≤ e.2.arrival) || !e.2.isOpen
/-- Whether a context is in serial fallback: it lasts while some launch is open. -/
def inSerial (s : State) (c : Nat) : Bool := (s.ctx c).serial && anyOpen s c

/-! ### Task queues -/

/-- A queue table entry (Table 13-4). -/
structure QueueEntry where
  base : Nat
  template : Nat
  slots : Nat
  enabled : Bool
deriving DecidableEq, Repr

/-- Read the entry of a queue (R361, R520). -/
def queueEntry (s : State) (c q : Nat) : Except (Nat × Nat) QueueEntry × State :=
  match structRead s c ((s.ctx c).tqtable.toNat + 32 * q) 32 with
  | (.error e, s) => (.error e, s)
  | (.ok bs, s) => (.ok ⟨field bs 0 8, field bs 8 8, field bs 0x10 4, (field bs 0x14 4).testBit 0⟩, s)

/-- A queue as the Loom holds it. -/
def Ctx.queue (C : Ctx) (q : Nat) : TaskQueue := (Tab.find C.queues q).getD ⟨[], 0, none⟩

/-- The fields of a task record (Table 2-4). -/
def taskOf (bs : List Byte) (arrival q slot : Nat) : Task where
  entry := field bs 0 8
  args := field bs 8 8
  x := BitVec.ofNat 32 (field bs 0x10 4)
  y := BitVec.ofNat 32 (field bs 0x14 4)
  z := BitVec.ofNat 32 (field bs 0x18 4)
  warps := field bs 0x1C 1
  mask := field bs 0x1D 1
  flags := field bs 0x1E 2
  succ1 := field bs 0x20 8
  succ2 := field bs 0x28 8
  tensor := field bs 0x30 2
  gen := BitVec.ofNat 16 (field bs 0x32 2)
  tile := field bs 0x34 4
  priority := field bs 0x38 1
  raw := bs
  arrival := arrival
  queue := q
  slot := slot

/-- The first slot from the tail that holds no task: its number counted on from the tail. -/
def freeSlot (Q : TaskQueue) (e : QueueEntry) : Nat :=
  let at_ : Nat → Nat := fun i => e.base + 64 * ((Q.tail + i) % max 1 e.slots)
  ((List.range (Q.tasks.length + 1)).find? fun i => Q.tasks.all fun t => t.slot != at_ i).getD 0
/-- Append a task to a queue that has room (R313, R361), with the time of its arrival where that was earlier: its record goes
to a slot of the queue, whose write may fault (R520). -/
def pushTask (s : State) (c q : Nat) (e : QueueEntry) (bs : List Byte) (since : Option Nat) :
    Except (Nat × Nat) State × State :=
  let Q := (s.ctx c).queue q
  let n := Q.tail + freeSlot Q e
  let slot := e.base + 64 * (n % max 1 e.slots)
  match structWrite s c slot bs with
  | (.error x, s) => (.error x, s)
  | (.ok s, _) =>
    let (k, s) := s.stamp
    let t := s.modCtx c fun C => { C with queues := Tab.put C.queues q { Q with tasks := Q.tasks ++ [taskOf bs (since.getD k) q slot], tail := n + 1 } }
    (.ok t, t)
/-- Whether a queue is full (R361). -/
def queueFull (s : State) (c q : Nat) (e : QueueEntry) : Bool := decide (e.slots ≤ ((s.ctx c).queue q).tasks.length)

/-- Whether a task's tag lets it start: it has none, it is satisfied, or serial fallback lets it go (R44, R372). -/
def taskReady (s : State) (c : Nat) (t : Task) : Bool :=
  !t.flags.testBit 0
  || (inSerial s c && earlierDone s c t.arrival) || tagCheck (s.ctx c) t.tensor t.tile t.gen == .satisfied
/-- The better of two tasks: the higher priority, then the older. -/
def betterTask (a b : Task) : Task :=
  if a.priority < b.priority ∨ (a.priority = b.priority ∧ b.arrival < a.arrival) then b else a
/-- The task that the Loom would start next from a queue (R314). -/
def nextTask (s : State) (c q : Nat) : Option Task :=
  match ((s.ctx c).queue q).tasks.filter (taskReady s c) with
  | [] => none
  | t :: r => some (r.foldl betterTask t)
/-- Remove a task from its queue. -/
def dropTask (s : State) (c : Nat) (t : Task) : State :=
  s.modCtx c fun C =>
    let Q := C.queue t.queue
    { C with queues := Tab.put C.queues t.queue { Q with tasks := Q.tasks.filter fun x => x.arrival != t.arrival } }

end Sys2Proof.Machine
end

