-- ==== Sys2Proof/Machine/UniformBlock.lean ====
section
/-! DEFINITION. Uniform instructions that reach a block's barriers, pool, rings and engines, and the Loom's tags, task
queues and tickets (R297 to R315). -/
namespace Sys2Proof.Machine

/-- The act of an instruction that only a block's warp may execute (R45). -/
def inBlock (act : State → Issue → Warp → Nat → UniRes × State) (s : State) (c : Issue) (W : Warp) : UniRes × State :=
  match W.blk with
  | none => (.trap codeIllegalOperand 0, s)
  | some b => act s c W b

/-! ### Numbered barriers (R299 to R303) -/

/-- Whether the COMPUTE rule shuts a warp out of a barrier (R303). -/
def computeOnly (s : State) (W : Warp) (v : Barrier) : Bool :=
  v.fm && (s.launch W.launch).lrec.roles != [] && W.kind != 2

def execBinit (e fm : Bool) (bn : BitVec 4) (a : Reg) (s : State) : Host.Outcome State Fault Refusal :=
  uniform (.binit e fm bn a) [plainUse false a] (inBlock fun s c W b =>
    let v := barAt s b bn.toNat
    let n := W.sreg a.toNat % 256
    if n = 0 then (.trap codeIllegalOperand 0, s)
    else if v.arr ≠ 0 ∨ v.bytes ≠ 0 then (.trap codeBarrier (barrierAddr bn.toNat 4), s)
    else (.go (nextPc c), setBar s b bn.toNat { v with count := BitVec.ofNat 8 n, fm := fm, arr := 0, bytes := 0 })) s

/-- A signed 32-bit operand as a byte count. -/
def signedBytes (v : Nat) : Double := BitVec.ofInt 64 (toSigned 32 v)

def execBarrive (e : Bool) (bn : BitVec 4) (tx : Option Reg) (s : State) : Host.Outcome State Fault Refusal :=
  uniform (.barrive e bn tx) (match tx with | some a => [plainUse false a] | none => []) (inBlock fun s c W b =>
    let v := barAt s b bn.toNat
    if computeOnly s W v then (.trap codeIllegalOperand 0, s)
    else
      match v.arrive (match tx with | some a => signedBytes (W.sreg a.toNat) | none => 0) with
      | .error k => (.trap codeBarrier (barrierAddr bn.toNat k), s)
      | .ok u =>
        match flushed s c.warp with
        | (false, s) => (.halt (.wait .stores), s)
        | (true, s) => (.go (nextPc c), setBar s b bn.toNat u)) s

def execBexpect (e : Bool) (bn : BitVec 4) (a : Reg) (s : State) : Host.Outcome State Fault Refusal :=
  uniform (.bexpect e bn a) [plainUse false a] (inBlock fun s c W b =>
    match (barAt s b bn.toNat).expect (signedBytes (W.sreg a.toNat)) with
    | .error k => (.trap codeBarrier (barrierAddr bn.toNat k), s)
    | .ok u => (.go (nextPc c), setBar s b bn.toNat u)) s

/-- `bwait`: a fault that landing bytes left for the next waiting group is taken by it, and names the copy (R479). -/
def execBwait (e : Bool) (bn : BitVec 4) (a : Reg) (s : State) : Host.Outcome State Fault Refusal :=
  match uniform (.bwait e bn a) [plainUse false a] (inBlock fun s c W b =>
      let v := barAt s b bn.toNat
      let ph := BitVec.ofNat 16 (W.sreg a.toNat)
      if computeOnly s W v then (.trap codeIllegalOperand 0, s)
      else if v.count = 0 then (.trap codeBarrier (barrierAddr bn.toNat 5), s)
      else if v.reached ph then (.go (nextPc c), s)
      else (.halt (.wait (.barrier bn.toNat ph)), s)) s with
  | .next t =>
    match s.cur with
    | none => .next t
    | some c =>
      let b := (s.warp c.warp).blk.getD 0
      match (barAt t b bn.toNat).owed, barrierWaiter t b bn.toNat with
      | some seq, some (w, f, ks) =>
        .next (raiseUser (setBar t b bn.toNat { barAt t b bn.toNat with owed := none }) w (c.lx.getD 0) c.word
          ((raisesOf (t.warp w) codeBarrier f.pc ks (barrierAddr bn.toNat 3)).map fun r =>
            { r with engine := if seq = 0 then 0 else 1, seq := seq }))
      | _, _ => .next t
  | o => o

def execBtest (e : Bool) (cd : Pred) (bn : BitVec 4) (a : Reg) (s : State) : Host.Outcome State Fault Refusal :=
  uniform (.btest e cd bn a) [plainUse false a] (inBlock fun s c W b =>
    let v := barAt s b bn.toNat
    if computeOnly s W v then (.trap codeIllegalOperand 0, s)
    else if v.count = 0 then (.trap codeBarrier (barrierAddr bn.toNat 5), s)
    else (.go (nextPc c), s.modWarp c.warp fun W => W.setCpred cd (v.reached (BitVec.ofNat 16 (W.sreg a.toNat))))) s

/-! ### The team barrier (R304) -/

def execCbar (e : Bool) (s : State) : Host.Outcome State Fault Refusal :=
  uniform (.cbar e) [] (inBlock fun s c W b =>
    let B := s.blk b
    let T := teamBar s B.launch B.team
    let put : TeamBar → State → State := fun T s =>
      s.modLaunch B.launch fun L => { L with teams := Tab.put L.teams B.team T }
    let mine := (groupOf W c).findSome? fun f => match f.status with
      | .waiting w => (match w.why with | .teamPhase k => some k | _ => none)
      | _ => none
    let goOn : State → UniRes × State := fun s => (.go (nextPc c), acquire s W.core .cluster)
    match mine with
    | some k =>
      if T.phase ≠ k then goOn s
      else if teamAll s B.launch B.team T.arrived then goOn (put ⟨T.phase + 1, []⟩ s)
      else (.halt (.wait (.teamPhase k)), s)
    | none =>
      match releaseAt s c.warp .cluster with
      | .error why => (.halt (.wait why), s)
      | .ok s =>
        let arrived := insertNat T.arrived c.warp
        if teamAll s B.launch B.team arrived then goOn (put ⟨T.phase + 1, []⟩ s)
        else (.halt (.wait (.teamPhase T.phase)), put { T with arrived := arrived } s)) s

/-! ### Waiting, claiming and giving (R305, R306) -/

/-- Stores of a warp not yet performed at their scope (R305): those of its queue, staged ones, and those on their way to a home
L2 beyond the core that is the point of their scope (R146). -/
def storesOut (s : State) (w : Nat) : Nat :=
  let W := s.warp w
  W.storeQ.length + ((s.launch W.launch).stages.filter fun x => x.warp == w).length
    + s.cores.foldl (fun a e => a + (e.2.passing.filter fun y => y.warp == w && atHome s e.1 y.op.scope).length) 0
/-- Tile operations of a block that have begun and not completed. -/
def tilesOut (s : State) (b : Option Nat) : Nat :=
  match b with
  | some b => (match (s.blk b).fm with | some F => F.cmds.length | none => 0)
  | none => 0
/-- The condition of `wait` (R305). -/
def countsReached (s : State) (w n0 n1 n2 n3 : Nat) : Bool :=
  let W := s.warp w
  decide (W.loads.length ≤ n0) && decide (storesOut s w ≤ n1) && decide (W.cpas.length + W.copies.length ≤ n2)
    && decide (tilesOut s W.blk ≤ n3)

def execWait (e : Bool) (n0 n1 n2 n3 : BitVec 6) (s : State) : Host.Outcome State Fault Refusal :=
  uniform (.wait e n0 n1 n2 n3) [] (fun s c _ =>
    if countsReached s c.warp n0.toNat n1.toNat n2.toNat n3.toNat then (.go (nextPc c), s)
    else (.halt (.wait (.counts n0.toNat n1.toNat n2.toNat n3.toNat)), s)) s

/-- Whether a warp's group runs in a handler (R463). -/
def inHandler (W : Warp) (c : Issue) : Bool :=
  match W.handlers with
  | [] => false
  | h :: _ => (groupOf W c).all fun f => f.frag == h.id

def execClaim (e : Bool) (n : BitVec 3) (s : State) : Host.Outcome State Fault Refusal :=
  uniform (.claim e n) [] (inBlock fun s c W b =>
    let k := 8 * n.toNat
    let isPool : WaitFor → Bool := fun why => match why with | .pool _ => true | _ => false
    if inHandler W c || 64 < W.window + k then (.trap codeIllegalOperand 0, s)
    else if (s.blk b).pool < k || olderWaits s b (waitingSince s c) isPool then (.halt (.wait (.pool k)), s)
    else (.go (nextPc c), (s.modBlk b fun B => { B with pool := B.pool - k }).modWarp c.warp fun W =>
      { W with window := W.window + k })) s

/-- A lane that loses its registers from a number upward. -/
def Lane.shrink (n : Nat) (l : Lane) : Lane := { l with regs := l.regs.filter fun e => decide (e.1 < n) }

def execGive (e : Bool) (n : BitVec 3) (s : State) : Host.Outcome State Fault Refusal :=
  uniform (.give e n) [] (inBlock fun s c W b =>
    let k := 8 * n.toNat
    let every := W.fibres.map (·.slot)
    if inHandler W c || W.window < k + 8 then (.trap codeIllegalOperand 0, s)
    else if loadsHold W every [(W.window - k, k)] [] then (.halt (.wait (.regs every [(W.window - k, k)] [])), s)
    else (.go (nextPc c), (s.modBlk b fun B => { B with pool := B.pool + k }).modWarp c.warp fun W =>
      let less : Fibre → Fibre := fun f => { f with lanes := f.lanes.map (Lane.shrink (W.window - k)) }
      { W with window := W.window - k, fibres := W.fibres.map less, ended := W.ended.map less })) s

/-! ### Stage-ring tries (R307) -/

def execQtryPop (e : Bool) (cd : Pred) (d : Reg) (q : BitVec 2) (s : State) : Host.Outcome State Fault Refusal :=
  uniform (.qtryPop e cd d q) [plainUse false d] (inBlock fun s c _ b =>
    let R := ringAt s b q.toNat
    if R.count = 0 || olderWaits s b s.next (· == .ringToken q.toNat) then
      (.go (nextPc c), s.modWarp c.warp fun W => W.setCpred cd false)
    else (.go (nextPc c), (modRing s b q.toNat Ring.pop).modWarp c.warp fun W =>
      (W.setSreg d.toNat R.head).setCpred cd true)) s

def execQtryPush (e : Bool) (cd : Pred) (q : BitVec 2) (a : Reg) (s : State) : Host.Outcome State Fault Refusal :=
  uniform (.qtryPush e cd q a) [plainUse false a] (inBlock fun s c W b =>
    if 16 ≤ (ringAt s b q.toNat).count || olderWaits s b s.next (· == .ringRoom q.toNat) then
      (.go (nextPc c), s.modWarp c.warp fun W => W.setCpred cd false)
    else
      match flushed s c.warp with
      | (false, s) => (.halt (.wait .stores), s)
      | (true, s) =>
        (.go (nextPc c), (modRing s b q.toNat (·.push (W.sreg a.toNat))).modWarp c.warp fun W => W.setCpred cd true)) s

/-! ### Timelines (R308, R309) -/

/-- The timeline of an engine context of a block (R165). -/
def timelineOf (s : State) (g : Engine) (b : Nat) : Nat :=
  match g with
  | .copy => (s.blk b).carter.timeline
  | .mx => match (s.blk b).fm with | some F => F.timeline | none => 0

/-- Code of the widest scope of the commands that a timeline counts, at which its reader acquires (R165). -/
def timelineScope (s : State) (g : Engine) (b : Nat) : Nat :=
  match g with
  | .copy => (s.blk b).carter.scope
  | .mx => match (s.blk b).fm with | some F => F.scope | none => 0

def execTlrd (e : Bool) (g : Engine) (d : Reg) (s : State) : Host.Outcome State Fault Refusal :=
  uniform (.tlrd e g d) [plainUse true d] (inBlock fun s c W b =>
    (.go (nextPc c), acquireAt (s.modWarp c.warp fun W => W.setSval true d.toNat (timelineOf s g b)) W.core
      (timelineScope s g b))) s

def execTlwait (e : Bool) (g : Engine) (a : Reg) (s : State) : Host.Outcome State Fault Refusal :=
  uniform (.tlwait e g a) [plainUse true a] (inBlock fun s c W b =>
    let v := W.sval true a.toNat
    if v ≤ timelineOf s g b then (.go (nextPc c), acquireAt s W.core (timelineScope s g b))
    else (.halt (.wait (.timeline g v)), s)) s

/-! ### Readiness tags (R310, R311) -/

def codeTagRegress : Nat := 0x0602

def execTagpub (e : Bool) (a b : Reg) (s : State) : Host.Outcome State Fault Refusal :=
  uniform (.tagpub e a b) [plainUse false a, plainUse false b] (fun s c W =>
    match releaseAt s c.warp .device with
    | .error why => (.halt (.wait why), s)
    | .ok s =>
      let i := W.sreg a.toNat
      let t := W.sreg b.toNat % 65536
      let g := W.sreg b.toNat / 65536
      let n := nameOf s W c.pc.toNat
      match tagPublish s W.ctx W.launch W.core t i (BitVec.ofNat 16 g) n with
      | .error old => (.trap codeTagRegress (t + 65536 * g + 2 ^ 32 * old.toNat), s)
      | .ok s =>
        let s := trace s W.ctx W.core 5 n (leBytes 2 t ++ leBytes 2 g ++ leBytes 4 i)
        (.go (nextPc c), commitBlock s W)) s

def execTagrd (e : Bool) (d a b : Reg) (s : State) : Host.Outcome State Fault Refusal :=
  uniform (.tagrd e d a b) [plainUse false d, plainUse false a, plainUse false b] (fun s c W =>
    let C := s.ctx W.ctx
    let t := W.sreg b.toNat % 65536
    let coarse := match Tab.find C.tensors t with | some r => r.coarse | none => false
    let g := Tab.find C.tiles (tileKey t (W.sreg a.toNat))
    let v := (if coarse then 0x20000 else 0) + (match g with | some x => 0x10000 + x.toNat | none => 0)
    let s := s.modWarp c.warp fun W => W.setSreg d.toNat v
    (.go (nextPc c), if g.isSome then acquire s W.core .device else s)) s

/-! ### Task queues (R313, R314) -/

/-- A fault of the Loom's access to a queue table is a context fault of TASK with the memory code (R492, R520): the
instruction has no effect and stands. -/
def codeTask : Nat := 0x0603

/-- Read the entry of an enabled queue. -/
def enabledQueue (s : State) (c : Issue) (W : Warp) (q : Nat) : Except UniRes QueueEntry × State :=
  match queueEntry s W.ctx q with
  | (.error x, s) =>
    (.error (.halt (.wait .stores)), ctxFault s W.ctx W.core (some W.launch) codeTask x.1 x.2 (nameOf s W c.pc.toNat) none)
  | (.ok q, s) => if q.enabled then (.ok q, s) else (.error (.trap codeIllegalOperand 0), s)

def execTqpush (e : Bool) (cd : Pred) (a b : Reg) (s : State) : Host.Outcome State Fault Refusal :=
  uniform (.tqpush e cd a b) [plainUse true a, plainUse false b] (fun s c W =>
    let q := W.sreg b.toNat % 64
    match enabledQueue s c W q with
    | (.error r, s) => (r, s)
    | (.ok ent, s) =>
      match locatePieces s W 0 .glob (W.sval true a.toNat) 64 64 .read with
      | (.error st, s) => (.halt st, s)
      | (.ok (ea, ps), s) =>
        match releaseAt s c.warp .device with
        | .error why => (.halt (.wait why), s)
        | .ok s =>
          match loadShared s c.warp (standing W) ea ps with
          | (.error st, s) => (.halt st, s)
          | (.ok bs, s) =>
            if queueFull s W.ctx q ent then
              (.go (nextPc c), commitBlock (count (s.modWarp c.warp fun W => W.setCpred cd false) W.ctx W.core 0x32 1) W)
            else
              match pushTask s W.ctx q ent bs none with
              | (.error x, s) =>
                (.halt (.wait .stores), ctxFault s W.ctx W.core (some W.launch) codeTask x.1 x.2 (nameOf s W c.pc.toNat) none)
              | (.ok s, _) => (.go (nextPc c), commitBlock (s.modWarp c.warp fun W => W.setCpred cd true) W)) s

def execTqtake (e : Bool) (cd : Pred) (a b : Reg) (s : State) : Host.Outcome State Fault Refusal :=
  uniform (.tqtake e cd a b) [plainUse true a, plainUse false b] (fun s c W =>
    let q := W.sreg b.toNat % 64
    match enabledQueue s c W q with
    | (.error r, s) => (r, s)
    | (.ok _, s) =>
      match locatePieces s W 0 .glob (W.sval true a.toNat) 64 64 .write with
      | (.error st, s) => (.halt st, s)
      | (.ok (ea, ps), s) =>
        let blk := W.blk.getD 0
        if ps.any (·.tracked) && !isHead s blk then (.halt (.wait .head), s)
        else
          match nextTask s W.ctx q with
          | none => (.go (nextPc c), commitBlock (s.modWarp c.warp fun W => W.setCpred cd false) W)
          | some t =>
            match structRead s W.ctx t.slot 64 with
            | (.error x, s) =>
              (.halt (.wait .stores), ctxFault s W.ctx W.core (some W.launch) codeTask x.1 x.2 (nameOf s W c.pc.toNat) none)
            | (.ok _, s) =>
              match storePieces s c.warp c (lowSlot c) 0 ea ps t.raw with
              | .error st => (.halt st, s)
              | .ok s =>
                let s := acquire (dropTask s W.ctx t) W.core .device
                (.go (nextPc c), commitBlock (s.modWarp c.warp fun W => W.setCpred cd true) W)) s

/-! ### Ordered launches (R315) -/

def execOrdwait (e : Bool) (s : State) : Host.Outcome State Fault Refusal :=
  uniform (.ordwait e) [] (fun s c W =>
    match W.blk with
    | none => (.go (nextPc c), s)
    | some b =>
      if !(s.launch W.launch).lrec.ordered then (.go (nextPc c), s)
      else if isHead s b then (.go (nextPc c), acquire s W.core .device)
      else (.halt (.wait .head), s)) s

end Sys2Proof.Machine
end

