-- ==== Sys2Proof/Machine/UniformSystem.lean ====
section
/-! DEFINITION. Special registers, privileged instructions, invalidations, traps and the resource map of the uniform set
(R183, R316 to R323, R464). -/
namespace Sys2Proof.Machine

/-! ### Special registers (R183, R316) -/

/-- Width of a special register in 32-bit words. -/
def srWide : USr → Bool
  | .seed | .clock | .tick | .launch | .numctl | .numflags | .tlcopy | .tlmx => true
  | _ => false

/-- The value of a special register for a warp; what a spawned warp's NBLK and NWARP read is that of its launch,
and its WID, LSCONF, TLCOPY and TLMX read 0 (log 27). -/
def srRead (s : State) (W : Warp) (r : USr) : Nat :=
  let L := s.launch W.launch
  let B := W.blk.map s.blk
  match r with
  | .bidX => match B with | some B => B.x.toNat | none => 0xFFFFFFFF
  | .bidY => match B with | some B => B.y.toNat | none => 0xFFFFFFFF
  | .bidZ => match B with | some B => B.z.toNat | none => 0xFFFFFFFF
  | .nblk => L.lrec.gx * L.lrec.gy * L.lrec.gz
  | .wid => W.wid
  | .nwarp => match B with | some B => B.nwarp | none => L.lrec.warps
  | .role => W.kind
  | .team => match B with | some B => B.pos | none => 0
  | .core => W.core
  | .cluster => clusterOf W.core
  | .die => dieOf W.core
  | .seed => L.lrec.seed.toNat
  | .clock => s.clock W.core
  | .tick => s.tick.toNat
  | .launch => L.addr
  | .rmver => s.dev.rmver.toNat
  | .numctl => W.numctl.toNat
  | .numflags => W.numflags.toNat
  | .fpflags => W.fpflags.toNat
  | .lsconf => match B with | some B => B.lsconf.toNat | none => 0
  | .tlcopy => match W.blk with | some b => timelineOf s .copy b | none => 0
  | .tlmx => match W.blk with | some b => timelineOf s .mx b | none => 0

/-- Whether a register holds flags that earlier operations update when they are performed (R255). -/
def srFlags : USr → Bool
  | .numflags | .fpflags => true
  | _ => false
/-- Perform what a read or write of a flag register waits for (R316): what it still waits for. -/
def flagsReady (s : State) (w : Nat) (r : USr) : Except WaitFor State :=
  if srFlags r then
    match flushed s w with
    | (false, _) => .error .stores
    | (true, s) =>
      if (s.launch (s.warp w).launch).stages.any (fun x => x.warp == w) then .error .head else .ok s
  else .ok s

def execRdsr (e : Bool) (d : Reg) (sr : USr) (s : State) : Host.Outcome State Fault Refusal :=
  uniform (.rdsr e d sr) [plainUse (srWide sr) d] (fun s c _ =>
    match flagsReady s c.warp sr with
    | .error why => (.halt (.wait why), s)
    | .ok s =>
      let v := srRead s (s.warp c.warp) sr
      (.go (nextPc c), s.modWarp c.warp fun W => W.setSval (srWide sr) d.toNat v)) s

/-- Write a special register: reserved bits are ignored (R316); only those of Table 7-9 that it marks W are written. In a spawned
warp a write of LSCONF does nothing (log 27). -/
def srWrite (s : State) (w : Nat) (r : USr) (v : Nat) : State :=
  match r with
  | .numctl => s.modWarp w fun W => { W with numctl := BitVec.ofNat 64 v &&& 0xF3F3F }
  | .numflags => s.modWarp w fun W => { W with numflags := BitVec.ofNat 64 (v % 16) }
  | .fpflags => s.modWarp w fun W => { W with fpflags := BitVec.ofNat 32 (v % 32) }
  | .lsconf => match (s.warp w).blk with
    | some b => s.modBlk b fun B => { B with lsconf := BitVec.ofNat 32 v }
    | none => s
  | _ => s

def execWrsr (e : Bool) (sr : USr) (d : Reg) (s : State) : Host.Outcome State Fault Refusal :=
  uniform (.wrsr e sr d) [plainUse (srWide sr) d] (fun s c W =>
    match flagsReady s c.warp sr with
    | .error why => (.halt (.wait why), s)
    | .ok s => (.go (nextPc c), srWrite s c.warp sr (W.sval (srWide sr) d.toNat))) s

/-! ### Privileged instructions (R317 to R319) -/

def codePrivileged : Nat := 0x0203

/-- Whether a group may execute a privileged instruction (R317). -/
def privileged (s : State) (c : Issue) (W : Warp) : Bool := inHandler W c && (s.ctx W.ctx).sysr

def execSegld (e : Bool) (k : BitVec 3) (a : Reg) (s : State) : Host.Outcome State Fault Refusal :=
  uniform (.segld e k a) [plainUse true a] (fun s c W =>
    if !privileged s c W then (.trap codePrivileged 0, s)
    else if k = 1 ∨ k = 2 then (.trap codeIllegalOperand 0, s)
    else
      match locatePieces s W 0 .glob (W.sval true a.toNat) 16 16 .read with
      | (.error st, s) => (.halt st, s)
      | (.ok (ea, ps), s) =>
        match loadShared s c.warp (standing W) ea ps with
        | (.error st, s) => (.halt st, s)
        | (.ok bs, s) =>
          let base := field bs 0 8
          let limit := field bs 8 8
          if base / 2 ^ 56 ≠ 0 ∨ limit / 2 ^ 48 ≠ 0 then (.trap codeIllegalOperand 0, s)
          else (.go (nextPc c), s.modWarp c.warp fun W =>
            { W with segs := setAt W.segs k.toNat ⟨BitVec.ofNat 64 base, BitVec.ofNat 64 limit⟩ })) s

/-- Begin an invalidation and wait for it, or go on once it is complete (R319, R320). -/
def invalidate (kind : InvalKind) (s : State) (c : Issue) (W : Warp) : UniRes × State :=
  let mine := (groupOf W c).findSome? fun f => match f.status with
    | .waiting w => (match w.why with | .inval id => some id | _ => none)
    | _ => none
  match mine with
  | some id =>
    if s.invals.any fun x => x.id == id then (.halt (.wait (.inval id)), s) else (.go (nextPc c), s)
  | none =>
    let (id, s) := s.stamp
    (.halt (.wait (.inval id)), { s with invals := s.invals ++ [⟨id, kind, none⟩] })

def execTlbinvPage (e : Bool) (a : Reg) (s : State) : Host.Outcome State Fault Refusal :=
  uniform (.tlbinvPage e a) [plainUse true a] (fun s c W =>
    if !privileged s c W then (.trap codePrivileged 0, s)
    else invalidate (.page (s.ctx W.ctx).asid (W.sval true a.toNat % 2 ^ 56)) s c W) s

def execTlbinvAsid (e : Bool) (s : State) : Host.Outcome State Fault Refusal :=
  uniform (.tlbinvAsid e) [] (fun s c W =>
    if !privileged s c W then (.trap codePrivileged 0, s)
    else invalidate (.asid (s.ctx W.ctx).asid) s c W) s

/-- Cores within a scope of a core (Table 6-1). -/
def coresWithin (core : Nat) (sc : Scope) : List Nat :=
  match sc with
  | .fibre | .warp | .block | .core => [core]
  | .cluster => coresOfCluster (clusterOf core)
  | .die => (List.range 32).map (32 * dieOf core + ·)
  | _ => List.range 256

def execIcinv (e : Bool) (sc : Scope) (a b : Reg) (s : State) : Host.Outcome State Fault Refusal :=
  uniform (.icinv e sc a b) [plainUse true a, plainUse false b] (fun s c W =>
    invalidate (.code (coresWithin W.core sc) W.ctx (W.sval true a.toNat % 2 ^ 56) (W.sreg b.toNat)) s c W) s

/-! ### The resource map, no-operations and traps (R321 to R323, R464) -/

/-- A context acknowledges the present version (R323, R407). -/
def acknowledge (s : State) (c : Nat) (v : Word) : State :=
  s.modCtx c fun C => { C with ackVersion := v, ackBy := none }

def execRmack (e : Bool) (cd : Pred) (a : Reg) (s : State) : Host.Outcome State Fault Refusal :=
  uniform (.rmack e cd a) [plainUse false a] (fun s c W =>
    let v := BitVec.ofNat 32 (W.sreg a.toNat)
    if v = s.dev.rmver then
      (.go (nextPc c), (acknowledge s W.ctx v).modWarp c.warp fun W => W.setCpred cd true)
    else if (v - s.dev.rmver).toNat < 2 ^ 31 then (.trap codeIllegalOperand 0, s)
    else (.go (nextPc c), s.modWarp c.warp fun W => W.setCpred cd false)) s

def execSnop (e : Bool) (s : State) : Host.Outcome State Fault Refusal :=
  uniform (.snop e) [] (fun s c _ => (.go (nextPc c), s)) s

def codeUniformTrap : Nat := 0x0211

/-- `strap` (R322): the whole group completes it and leaves as one fragment. -/
def uniformTrap (i : Instr) (n : Nat) (s : State) : Host.Outcome State Fault Refusal :=
  match s.cur with
  | none => .fault .noIssuer
  | some c =>
    let W := s.warp c.warp
    let fs := groupOf W c
    if !handlerFree W fs then .next (handlerWait s i c W fs)
    else
      let t := finish s i c (uniResults fs (.go (nextPc c)))
      .next (raiseUser t c.warp 0 c.word (raisesOf (t.warp c.warp) codeUniformTrap (nextPc c) (fs.map (·.slot)) n))

def execStrap (e : Bool) (n : BitVec 18) (s : State) : Host.Outcome State Fault Refusal :=
  uniformTrap (.strap e n) n.toNat s

/-- RESUME (R464): in a handler the group returns from it; elsewhere the word is `strap`. -/
def execResume (e : Bool) (s : State) : Host.Outcome State Fault Refusal :=
  match s.cur with
  | none => .fault .noIssuer
  | some c =>
    let W := s.warp c.warp
    let fs := groupOf W c
    if !handlerFree W fs then .next (handlerWait s (.resume e) c W fs)
    else if !inHandler W c then uniformTrap (.strap e 0x3FFFF) 0x3FFFF s
    else
      match leaveHandler s c.warp (fs.map (·.slot)) with
      | (.error st, t) => .next (finish t (.resume e) c (uniResults fs (.halt st)))
      | (.ok t, _) => .next t

end Sys2Proof.Machine
end

