-- ==== Sys2Proof/Machine/Issue.lean ====
section
/-! DEFINITION. What a warp issues next: PC groups and waits (R27, R285), fetching and decoding a word or a pair (R175, R188,
R189, R191), comparators (R411), and the account of an instruction within its run (R22, R26, R173, R414). -/
namespace Sys2Proof.Machine

/-- Whether a word is of the uniform set (R172). -/
def isUniform (w : Word) : Bool := w.getLsbD 31

/-! ### Which waits are over -/

/-- Whether the OUTSTANDING field of a join word is 0, or the wait must look at the word again (R279). -/
def joinOver (s : State) (c a : Nat) : Bool :=
  match walkCtx s c a with
  | .error _ => true
  | .ok (l, e) =>
    let p := leafPlace l e (a % 2 ^ 56) false
    field (freshBytes s p (p.data 8 0) 8) 0 4 == 0
/-- Whether bytes of a window are free of copies (R169). -/
def rangeFree (s : State) (b lo hi : Nat) : Bool :=
  !(s.core (s.blk b).core).board.any fun e => e.blk == b && e.meets lo (hi - lo)
/-- Whether a core's scoreboard has an entry free (R169). -/
def boardFree (s : State) (core : Nat) : Bool := decide ((s.core core).board.length < boardSize)
/-- Whether a wait for the scoreboard is over. -/
def copyReady (s : State) (core : Nat) (why : WaitFor) : Bool :=
  match why with
  | .range b lo hi => rangeFree s b lo hi
  | .boardRoom => boardFree s core
  | _ => true

/-- Whether a fibre that waits for members finds them all at its PC (R268). -/
def membersHere (W : Warp) (pc : VAddr) (mask : List Nat) : Bool :=
  W.fibres.all fun f => !mask.contains f.slot || (f.pc == pc && (match f.status with
    | .ready => true
    | .waiting w => (match w.why with | .members _ => true | _ => false)
    | _ => false))

/-- Whether a waiting fibre of a warp may execute its instruction again. -/
def canGo (s : State) (w : Nat) (W : Warp) (f : Fibre) (x : Wait) : Bool :=
  let b := W.blk.getD 0
  let B := s.blk b
  match x.why with
  | .ringToken q => (ringAt s b q).count != 0 && !olderWaits s b x.since (· == .ringToken q)
  | .ringRoom q => decide ((ringAt s b q).count < 16) && !olderWaits s b x.since (· == .ringRoom q)
  | .barrier n ph => let v := barAt s b n; v.reached ph || v.owed.isSome || v.count == 0
  | .teamPhase k =>
    let T := teamBar s B.launch B.team
    T.phase != k || teamAll s B.launch B.team T.arrived
  | .counts n0 n1 n2 n3 => countsReached s w n0 n1 n2 n3
  | .pool n => decide (n ≤ B.pool) && !olderWaits s b x.since fun y => match y with | .pool _ => true | _ => false
  | .regs slots lane uni => !loadsHold W slots lane uni
  | .timeline g v => decide (v ≤ timelineOf s g b)
  | .head => isHead s b
  | .inval id => !s.invals.any fun v => v.id == id
  | .join a => joinOver s W.ctx a
  | .monitor _ => (monitorCode W.monitor).isSome
  | .members mask => membersHere W f.pc mask
  | .range _ _ _ => copyReady s W.core x.why
  | .boardRoom => boardFree s W.core
  | .recorded _ => boardFree s W.core && W.fibres.all fun g => g.pc != f.pc || (match g.status with
      | .waiting y => copyReady s W.core y.why
      | _ => true)
  | .stores => W.storeQ.isEmpty
  | .handlerDone => (match W.handlers with | h :: _ => f.frag == h.id | [] => true)
  | .member m => (s.blk m).state != .saved
  | .stage => isHead s b
  | .link => s.dev.ideActive
  | .budget r u => !shareHeld s W.ctx (r, u)

/-- The word that a fetch at an address returns. -/
def wordAt (s : State) (W : Warp) (pc : VAddr) : Option Word :=
  match (fetchCode s W.core W.ctx pc.toNat 4).1 with
  | .ok v => some (BitVec.ofNat 32 v)
  | .error _ => none
/-- Whether the words at a PC wait for their memory, the second of a pair as well (R396). -/
def fetchHeld (s : State) (W : Warp) (pc : VAddr) : Bool :=
  codeHeld s W.core W.ctx pc.toNat 4
    || ((wordAt s W pc).any isLx && codeHeld s W.core W.ctx (pc + 4).toNat 4)
/-- Whether a handler keeps a fibre outside it from the uniform set (R459). -/
def handlerKeeps (W : Warp) (f : Fibre) : Bool :=
  match W.handlers with
  | h :: _ => f.frag != h.id
  | [] => false
/-- Whether a fibre may issue: a ready one when its words can be fetched, and a waiting one when its wait is over, and, if it is
of the uniform set, once no handler keeps it from going on (R459). -/
def fibreGoes (s : State) (w : Nat) (W : Warp) (f : Fibre) : Bool :=
  match f.status with
  | .ready => s.dev.ideActive || !fetchHeld s W f.pc
  | .waiting x => !(isUniform x.word && handlerKeeps W f) && canGo s w W f x
  | _ => false
/-- The fibres of a warp that may issue. -/
def goers (s : State) (w : Nat) (W : Warp) : List Fibre := W.fibres.filter (fibreGoes s w W)
/-- Whether the loads of a wait have returned; an equal wait that was judged before is not judged again. -/
def regsCome (W : Warp) (m : Option (WaitFor × Bool)) (slots : List Nat) (lane uni : List (Nat × Nat)) : Bool :=
  match m with
  | some (y, b) => if y = .regs slots lane uni then b else !loadsHold W slots lane uni
  | none => !loadsHold W slots lane uni
/-- The fibres that may issue among some, where each wait for loads that the fibre before shares is judged once. -/
def goersFrom (s : State) (w : Nat) (W : Warp) : Option (WaitFor × Bool) → List Fibre → List Fibre
  | _, [] => []
  | m, f :: t =>
    match f.status with
    | .waiting x =>
      match x.why with
      | .regs slots lane uni =>
        let ok := regsCome W m slots lane uni
        let r := goersFrom s w W (some (.regs slots lane uni, ok)) t
        if !(isUniform x.word && handlerKeeps W f) && ok then f :: r else r
      | _ => if fibreGoes s w W f then f :: goersFrom s w W m t else goersFrom s w W m t
    | _ => if fibreGoes s w W f then f :: goersFrom s w W m t else goersFrom s w W m t
/-- `goers`, as compiled code runs it. -/
def goersFast (s : State) (w : Nat) (W : Warp) : List Fibre := goersFrom s w W none W.fibres
/-- What is kept of an earlier wait is what its loads say. -/
theorem regsCome_eq (W : Warp) (m : Option (WaitFor × Bool)) (slots : List Nat) (lane uni : List (Nat × Nat))
    (hm : ∀ y b, m = some (y, b) → ∃ a l u, y = .regs a l u ∧ b = !loadsHold W a l u) :
    regsCome W m slots lane uni = !loadsHold W slots lane uni := by
  cases m with
  | none => rfl
  | some p =>
    obtain ⟨a, l, u, h, k⟩ := hm p.1 p.2 rfl
    simp only [regsCome, h, k]
    split
    · rename_i e; cases e; rfl
    · rfl
/-- `goersFrom` answers the fibres that may issue. -/
theorem goersFrom_eq (s : State) (w : Nat) (W : Warp) (fs : List Fibre) : ∀ m : Option (WaitFor × Bool),
    (∀ y b, m = some (y, b) → ∃ a l u, y = .regs a l u ∧ b = !loadsHold W a l u) →
    goersFrom s w W m fs = fs.filter (fibreGoes s w W) := by
  induction fs with
  | nil => intro m _; rfl
  | cons f t ih =>
    intro m hm
    unfold goersFrom
    split
    · rename_i x hx
      split
      · rename_i slots lane uni hy
        simp only [regsCome_eq W m slots lane uni hm]
        rw [ih _ (fun y b h => by cases h; exact ⟨slots, lane, uni, rfl, rfl⟩)]
        simp [List.filter_cons, fibreGoes, hx, canGo, hy]
      · rw [ih m hm, List.filter_cons]
    · rw [ih m hm, List.filter_cons]
@[csimp] theorem goers_eq : @goers = @goersFast := by
  funext s w W
  exact (goersFrom_eq s w W W.fibres none (fun _ _ h => by cases h)).symm

/-! ### PC groups (R27) -/

/-- The lowest PC of a list of fibres. -/
def lowestPc : List Fibre → Option VAddr
  | [] => none
  | f :: t => some (t.foldl (fun a g => if g.pc.toNat < a.toNat then g.pc else a) f.pc)
/-- Runs in a row after which another group goes (R27). -/
def groupLimit : Nat := 64
/-- The PC of the group that issues next. Within a run its own group goes on (R173); a run begins with the lowest PC, but for
a group that has had its runs while another was ready. -/
def choosePc (W : Warp) (fs : List Fibre) : Option VAddr :=
  let others := fs.filter fun f => f.pc != W.groupPc
  if W.runLen ≠ 0 then (if fs.any fun f => f.pc == W.groupPc then some W.groupPc else none)
  else if groupLimit ≤ W.groupRuns ∧ others ≠ [] then lowestPc others
  else lowestPc fs

/-- What issues next: the fibres, their PC, the wait whose instruction they execute again, and whether some of them come to
it afresh. -/
structure Choice where
  slots : List Nat
  pc : VAddr
  again : Option Wait
  fresh : Bool
deriving DecidableEq, Repr

/-- Whether a fibre waits for a wait's instruction. -/
def waitsAlike (x : Wait) (f : Fibre) : Bool :=
  match f.status with
  | .waiting y => y.instr == x.instr && y.lx == x.lx && y.word == x.word
  | _ => false
/-- Whether memory still holds a wait's words at its PC. -/
def sameWords (s : State) (W : Warp) (pc : VAddr) (x : Wait) : Bool :=
  match x.lx with
  | none => wordAt s W pc == some x.word
  | some p => wordAt s W pc == some p && wordAt s W (pc + 4) == some x.word
/-- Whether a wait leaves its instruction wholly to be done: one that has acted already goes on alone. -/
def untouched (x : Wait) : Bool :=
  match x.why with
  | .teamPhase _ | .inval _ | .recorded _ | .monitor _ => false
  | _ => true
/-- The group at a PC among the fibres that may issue there (R27): those whose wait is over are one with the ready ones where
the instruction is the same, and else go before them; members who wait for one another take in the ready ones (R268). -/
def groupAt (s : State) (W : Warp) (pc : VAddr) (here : List Fibre) : Choice :=
  let ready := here.filter fun f => f.status == .ready
  match here.findSome? fun f => match f.status with | .waiting x => some x | _ => none with
  | none => ⟨here.map (·.slot), pc, none, true⟩
  | some x =>
    match x.why with
    | .members _ => ⟨here.map (·.slot), pc, some x, !ready.isEmpty⟩
    | _ =>
      let join := !ready.isEmpty && untouched x && sameWords s W pc x
      ⟨(here.filter fun f => waitsAlike x f || (join && f.status == .ready)).map (·.slot), pc, some x, join⟩
/-- Whether a fibre of a warp finds no scoreboard entry free, which holds the whole warp (R169). -/
def boardStalls (s : State) (W : Warp) : Bool :=
  !boardFree s W.core && W.fibres.any fun f => match f.status with
    | .waiting x => x.why == .boardRoom
    | _ => false
/-- The next group of a warp. -/
def nextGroup (s : State) (w : Nat) : Option Choice :=
  let W := s.warp w
  if boardStalls s W then none
  else
    let fs := goers s w W
    (choosePc W fs).map fun pc => groupAt s W pc (fs.filter fun f => f.pc == pc)

/-! ### Fetch and decode (R175, R188, R189, R191) -/

/-- The instruction that a word, after an LX word or not, stands for; what R188 lists is an unallocated encoding. -/
def instrOf (lx : Option Word) (w : Word) : Instr :=
  match decode lx w with
  | .ok i => i
  | .error _ => .unallocatedEncoding lx w

/-- An instruction begins: the warp's exemption from a comparator is used up (R412). -/
def beginIssue (s : State) (c : Issue) : State :=
  { s with cur := some c }.modWarp c.warp fun W => { W with exempt := none }

/-- A fetch that faults diverts its whole group, at the address of the first word (R135, R191, R470). -/
def fetchFault (s : State) (c : Issue) (k : Cause) : State :=
  finish s (.nop Lx.none) c ((groupOf (s.warp c.warp) c).map fun f => ⟨f.slot, .stop (.cause k), 0, 0⟩)

/-- What a warp's turn comes to: an instruction to execute, or nothing more in this run. -/
inductive Turn where
  | run (i : Instr) (s : State)
  | over (s : State)

/-- The run of a warp is over: its slot is free and it waits its turn again, its age from now (R173, R376). -/
def endRun (s : State) (w : Nat) : State :=
  let (n, s) := s.stamp
  let s := s.modWarp w fun W => { W with runLen := 0, age := none, ran := n }
  { s with
    turn := if s.turn = some w then none else s.turn
    cores := s.cores.map fun e => (e.1, { e.2 with slots := e.2.slots.map fun x => if x = some w then none else x }) }

/-- A prefix that R188 does not allow: the frame holds it and the word behind it, which is fetched as well (R189, R191). -/
def badLx (s : State) (c : Issue) (p : Word) : Turn :=
  let c := { c with lx := some p, word := 0 }
  match fetchCode s (s.warp c.warp).core (s.warp c.warp).ctx (c.pc + 4).toNat 4 with
  | (.error k, s) => .over (endRun (fetchFault s c k) c.warp)
  | (.ok v, s) =>
    let word : Word := BitVec.ofNat 32 v
    let i : Instr := .unallocatedEncoding (some p) word
    .run i (beginIssue s { c with word := word })
/-- Fetch the word at a PC for a group and decode it: an LX word is executed first, its instruction after it. -/
def fetchIssue (s : State) (w : Nat) (x : Choice) : Turn :=
  let W := s.warp w
  let c : Issue := ⟨w, x.slots, x.pc, none, 0⟩
  match x.again with
  | some y => .run (instrOf y.lx y.word) (beginIssue s { c with lx := y.lx, word := y.word })
  | none =>
    match fetchCode s W.core W.ctx x.pc.toNat 4 with
    | (.error k, s) => .over (endRun (fetchFault s c k) w)
    | (.ok v, s) =>
      let word : Word := BitVec.ofNat 32 v
      match decode none word with
      | .ok i => let c := { c with word := word }; .run i (beginIssue s c)
      | .error _ =>
        if isLx word then badLx s c word
        else
          let i : Instr := .unallocatedEncoding none word
          .run i (beginIssue s { c with word := word })

/-- What a warp in focus does next (R27, R411). -/
def takeTurn (s : State) (w : Nat) : Turn :=
  if !warpRuns s w then .over (endRun s w)
  else
    match nextGroup s w with
    | none => .over (endRun s w)
    | some x =>
      let W := s.warp w
      match (if !x.fresh ∨ W.exempt = some x.pc then none else matching (s.ctx W.ctx) 1 (blockIndex s W) x.pc.toNat) with
      | some (i, wide) => .over (endRun (matchWarp s w i wide x.pc) w)
      | none => fetchIssue s w x

/-- The second word of a pair: fetched, and decoded with its LX word (R175, R191). -/
def takeSecond (s : State) (c : Issue) (lx : Word) : Turn :=
  let W := s.warp c.warp
  if codeHeld s W.core W.ctx (c.pc + 4).toNat 4 then .over (endRun { s with cur := none } c.warp)
  else match fetchCode s W.core W.ctx (c.pc + 4).toNat 4 with
  | (.error k, s) => .over (endRun { fetchFault s { c with lx := some lx, word := 0 } k with cur := none } c.warp)
  | (.ok v, s) =>
    let word : Word := BitVec.ofNat 32 v
    let i := instrOf (some lx) word
    .run i (beginIssue s { c with lx := some lx, word := word })

/-! ### The LX word and unallocated encodings -/

/-- An LX word: it applies to the word that follows it, which is fetched next (R175). A word that R188 does not allow
shows itself there. -/
def execLxWord (neg : Bool) (pred : Pred) (rnd : BitVec 3) (sib : BitVec 2) (imm : BitVec 15) (s : State) :
    Host.Outcome State Fault Refusal :=
  match s.cur with
  | none => .fault .noIssuer
  | some c => .next { s with cur := some { c with lx := some (packLx neg pred rnd sib imm) } }

/-- An unallocated encoding (R189): the whole group is diverted with ILLEGAL_INSTRUCTION. -/
def execUnallocatedEncoding (lx : Option Word) (w : Word) (s : State) : Host.Outcome State Fault Refusal :=
  match s.cur with
  | none => .fault .noIssuer
  | some c =>
    let c := { c with lx := lx, word := w }
    .next (finish s (.unallocatedEncoding lx w) c ((groupOf (s.warp c.warp) c).map fun f =>
      ⟨f.slot, .stop (.cause ⟨codeIllegalInstr, 0, .fetch⟩), 0, 0⟩))

/-! ### The account of an instruction (R22, R26, R173, R414) -/

/-- Fibres of a group for which an instruction issued (R25, R26): all but those masked off and those that wait for it still. -/
def issuedFor (before after : Warp) (c : Issue) : List Nat :=
  (groupOf before c).filterMap fun f =>
    match after.fibre? f.slot with
    | none => some f.slot
    | some g => match g.status with
      | .waiting _ => none
      | .ready => if g.icount = f.icount ∧ g.pc ≠ f.pc then none else some f.slot
      | _ => some f.slot
/-- How far the ICOUNTs of a warp have advanced with an instruction (R22): those of its group that have ended executed it. -/
def icountsOn (before after : Warp) (c : Issue) : Nat :=
  before.fibres.foldl (fun n f =>
    match after.fibre? f.slot with
    | none => if c.group.contains f.slot then n + 1 else n
    | some g => n + (g.icount - f.icount).toNat) 0
/-- Whether every fibre of a group waits, and whether each of them stalls (R377). -/
def groupWaits (W : Warp) (c : Issue) (p : Wait → Bool) : Bool :=
  c.group.all fun k => match W.fibre? k with
    | some f => (match f.status with | .waiting x => p x | _ => false)
    | none => false
/-- Eighths that some fibres occupy (R25, R26). -/
def eighths (three : Bool) (ks : List Nat) : Nat :=
  ((List.range 8).filter fun e => ks.any fun k => k / (if three then 16 else 48) == e).length
/-- Whether a group still stands together, ready, at the next address. -/
def goesOn (W : Warp) (c : Issue) : Bool :=
  c.group.all fun k => match W.fibre? k with
    | some f => f.status == .ready && f.pc == nextPc c
    | none => false
/-- Instructions in a run at most (R173). -/
def runLimit : Nat := 24
/-- Instructions that end their run wherever they go (R280, R296). -/
def endsRun (i : Instr) : Bool :=
  match i with
  | .yield _ | .jmp _ _ | .jc _ _ _ _ | .jx _ _ => true
  | _ => false
/-- Whether a run ends with an instruction: its B bit, the limit, what it is, or a group that did not go straight on
(R173). -/
def runEnds (W : Warp) (i : Instr) (c : Issue) : Bool :=
  c.word.getLsbD 30 || decide (runLimit ≤ W.runLen + 1) || endsRun i || !goesOn W c

/-- Instructions of a handler that only yields, and its return (R55). -/
def onlyYields (i : Instr) : Bool :=
  match i with
  | .yield _ | .resume _ | .jmp _ _ | .jc _ _ _ _ | .jx _ _ | .bra _ _ _ _ | .nop _ | .snop _ => true
  | _ => false
/-- Whether an instruction leaves every fibre of its group in a handler that only yields, or sends it there (R55). -/
def keepsYielding (W : Warp) (i : Instr) (c : Issue) : Bool :=
  c.group.all fun k => match W.fibre? k with
    | some f => f.yields && (onlyYields i || (match f.status with | .fragment _ => true | _ => false))
    | none => false

/-- Count what an instruction took of its quarter (R26, R284, R378, R414, R418): issue cycles of the eighths it occupied, or one
cycle of the uniform pipe. -/
def accountIssue (before : State) (B W : Warp) (c : Issue) (s : State) : State :=
  let ks := issuedFor B W c
  let lane := !isUniform c.word
  let n := if lane then eighths (before.three B) ks else if (groupOf B c).any (handlerKeeps B) || groupWaits W c fun _ => true then 0 else 1
  let s := if lane then
      count (count (countCycles s B.ctx B.core 0x2 (1 + B.quarter) n) B.ctx B.core 4 (icountsOn B W c)) B.ctx B.core 9
        (if n = 0 then 0 else 8 - n)
    else count s B.ctx B.core 0x3 n
  charge (unitCount s B.core (1 + B.quarter) n) B.ctx .issue (quarterUnit B.core B.quarter) n

/-- The instruction in execution is over: counters, the run, and the rotation of groups (R27, R173, R414, R418). One that cannot
issue yet leaves its run as it is, with the slot (R377). -/
def endIssue (before : State) (i : Instr) (c : Issue) (s : State) : State :=
  let B := before.warp c.warp
  let W := s.warp c.warp
  let s := { s with cur := none }
  if (Tab.find s.warps c.warp).isNone then s
  else if groupWaits W c Wait.stalls then
    { s.modWarp c.warp fun W => { W with groupPc := c.pc } with turn := if s.turn = some c.warp then none else s.turn }
  else
    let s := accountIssue before B W c s
    let s := s.modCtx B.ctx fun C => { C with
      blockedSince := if keepsYielding W i c then C.blockedSince else none }
    let s := if onlyYields i then s else s.modWarp c.warp fun V => V.mapFibres (issuedFor B W c) fun f => { f with yields := false }
    let first := B.runLen == 0
    let s := if first then count s B.ctx B.core 5 1 else s
    let ends := runEnds W i c
    let rivals := B.fibres.any fun f => f.pc != c.pc && fibreGoes before c.warp B f
    let runs := if !first then B.groupRuns else if !rivals then 0 else if c.pc = B.groupPc then B.groupRuns + 1 else 1
    let pc := match W.fibre? (c.group.headD 0) with | some f => f.pc | none => c.pc
    let s := s.modWarp c.warp fun W => { W with runLen := W.runLen + 1, groupRuns := runs, groupPc := pc }
    if ends then endRun s c.warp else s

end Sys2Proof.Machine
end

