-- ==== Sys2Proof/Machine/FaultEvents.lean ====
section
/-! DEFINITION. Block faults, their records and replies (R456, R471 to R474, R488 to R490), halts (R412), the core dump
(R502 to R504), stopping and discarding contexts (R399, R485), suspension (R407), RESOURCE_MAP (R465) and deadlock
(R484). -/
namespace Sys2Proof.Machine

/-! ### Block-fault records (R472, R489) -/

/-- Number of an access kind (Table 21-2). -/
def kindCode : AccKind → Nat | .read => 0 | .write => 1 | .rmw => 2 | .fetch => 3
/-- Flags of a report (Table 21-2). -/
def FaultRec.flags (r : FaultRec) : Nat :=
  (if r.imprecise then 1 else 0) + (if r.exited then 2 else 0) + (if r.alive then 4 else 0)
/-- A record in the ring. -/
def FaultRec.bytes (r : FaultRec) : List Byte :=
  leBytes 2 r.code ++ leBytes 2 r.flags ++ leBytes 4 r.slot ++ r.name.bytes ++ leBytes 8 r.addr
  ++ leBytes 1 (kindCode r.kind) ++ List.replicate 15 0
/-- Fibre faults first, then Carter's, then the Foreman's, each in ascending number. -/
def insertFault (r : FaultRec) : List FaultRec → List FaultRec
  | [] => [r]
  | x :: t =>
    if r.name.engine < x.name.engine ∨ (r.name.engine = x.name.engine ∧ r.name.engine ≠ 0 ∧ r.name.seq < x.name.seq)
    then r :: x :: t else x :: insertFault r t
/-- Faults in their order. -/
def orderFaults (rs : List FaultRec) : List FaultRec := rs.foldl (fun a r => insertFault r a) []

/-- Records in the ring of a context. -/
def faultRing : Nat := 64
/-- Write one record, while the ring has room. -/
def writeRecord (s : State) (c core : Nat) (r : FaultRec) : Option Nat × State :=
  let C := s.ctx c
  if faultRing ≤ (C.bfhead - C.bftail).toNat then (none, s)
  else
    match structWrite s c (C.savearea.toNat + 64 * (C.bfhead.toNat % faultRing)) r.bytes with
    | (.error e, s) => (none, saveFault s c e.1 e.2)
    | (.ok s, _) =>
      let s := setEvent (s.modCtx c fun C => { C with bfhead := C.bfhead + 1 }) c 1
      (some C.bfhead.toNat, trace s c core 3 r.name (leBytes 2 r.code ++ leBytes 2 0 ++ leBytes 8 r.addr))
/-- Write the records of a list that are not yet in the ring: those that may be answered stay. -/
def writeRecords (c core : Nat) : List FaultRec → State → List FaultRec × State
  | [], s => ([], s)
  | r :: t, s =>
    if r.num.isSome then
      let (rs, s) := writeRecords c core t s
      (r :: rs, s)
    else
      match writeRecord s c core r with
      | (none, s) => (r :: t, s)
      | (some n, s) =>
        let (rs, s) := writeRecords c core t s
        (if r.alive then { r with num := some n } :: rs else rs, s)
/-- Replace an owner's faults. -/
def setFaults (s : State) (o : Owner) (rs : List FaultRec) : State :=
  match o with
  | .blk b => s.modBlk b fun B => { B with faults := rs }
  | .warp w => s.modWarp w fun W => { W with faults := rs }
/-- Core of an owner. -/
def ownerCore (s : State) (o : Owner) : Nat := match o with | .blk b => (s.blk b).core | .warp w => (s.warp w).core
/-- Write an owner's records once it is saved; reports that stop nothing are written as they are. -/
def reportOwner (s : State) (o : Owner) : State :=
  let fs := orderFaults (faultsOf s o)
  if fs.all (·.num.isSome) then s
  else if ownerFaulted s o && !ownerSaved s o then s
  else
    let (rs, s) := writeRecords (ownerCtx s o) (ownerCore s o) fs s
    setFaults s o rs

/-- The event of a block fault: the work is saved, and its records are written; a soft error kills instead (R495). -/
def execBlockFaultSave (o : Owner) (s : State) : Host.Outcome State Fault Refusal :=
  match (faultsOf s o).find? fun r => r.code == codeSoftError with
  | some r => .next (kill s o { r with alive := false })
  | none =>
    if faultsOf s o = [] then .next s
    else
      let t := if ownerFaulted s o && !(s.ctx (ownerCtx s o)).saveWaits then (stopOwner s o).2 else s
      .next (reportOwner t o)

/-- The event of a write of BFTAIL: waiting records are written. -/
def execBftailWrite (c : Nat) (v : Word) (s : State) : Host.Outcome State Fault Refusal :=
  if s.dev.ideActive then .next ((ownersOf s c).foldl reportOwner (s.modCtx c fun C => { C with bftail := v })) else .next s

/-! ### Replies (R473, R483, R490) -/

/-- Owners of a context that may hold a record. -/
def recordOwner (s : State) (c n : Nat) : Option Owner :=
  (ownersOf s c).find? fun o => (faultsOf s o).any fun r => r.num == some n && r.alive && r.reply.isNone
/-- Note a reply in an owner's record. -/
def noteReply (s : State) (o : Owner) (n : Nat) (a : Reply) : State :=
  setFaults s o ((faultsOf s o).map fun r => if r.num = some n then { r with reply := some a } else r)
/-- A failed copy executes again from its start (R490). -/
def renewCopy (c : CopyCmd) : CopyCmd :=
  if c.fault.isSome then { c with started := false, lays := none, pieces := [], landed := [], seen := [], moved := 0, fault := none }
  else c
/-- An owner whose every record has been answered RETRY may be restored: fibres, copies and words execute again. Reports that
nothing answers and that still wait for room in the ring stay (R472, R491). -/
def renewOwner (s : State) (o : Owner) : State :=
  let left := (faultsOf s o).filter fun r => !r.alive && r.num.isNone
  let again : Warp → Warp := fun W => { W with fibres := W.fibres.map fun f =>
    if f.status = .faulted then { f with status := .ready } else f }
  match o with
  | .warp w => (s.modWarp w again).modWarp w fun W => { W with faults := left }
  | .blk b => (s.mapWarps fun _ W => if W.blk = some b then again W else W).modBlk b fun B => { B with
      faults := left
      fm := B.fm.map fun F => { F with stopped := false }
      carter := { B.carter with cmds := B.carter.cmds.map renewCopy } }

/-- A write of BFREPLY counts as progress (R484). -/
def replied (s : State) (c : Nat) : State := s.modCtx c fun C => { C with blockedSince := none }

/-- RETRY (R473). -/
def retryRecord (s : State) (c n : Nat) : State :=
  match recordOwner s c n with
  | none => replied s c
  | some o =>
    let s := noteReply (replied s c) o n .retry
    if (faultsOf s o).all fun r => !r.alive || r.reply == some .retry then renewOwner s o else s
/-- The end of an owner by KILL: held operations are discarded (R476). -/
def killOwner (s : State) (o : Owner) (r : FaultRec) : State :=
  let c := ownerCtx s o
  let s := match o with
    | .blk b => { s with cores := s.cores.map fun e =>
        (e.1, { e.2 with tracker := e.2.tracker.filter fun t => !(t.held && t.blk == some b) }) }
    | .warp w =>
      if (s.warp w).heldStores then
        let n := (s.joins.filter fun j => j.warp == w).length
        { s with joins := s.joins.filter fun j => j.warp != w }.modLaunch (s.warp w).launch fun L =>
          { L with children := L.children - n }
      else s
  trimSave (kill s o { r with num := none, alive := false, reply := none }) c
/-- KILL (R473). -/
def killRecord (s : State) (c n : Nat) : State :=
  match recordOwner s c n with
  | none => replied s c
  | some o =>
    match (faultsOf s o).find? fun r => r.num == some n with
    | some r => killOwner (replied s c) o r
    | none => s
/-- RESTART (R473, R483): an uncommitted idempotent block starts again; any other work is killed, and its context takes
IDEMPOTENCE_LOST, which the kill of a committed idempotent block gives by itself. -/
def restartRecord (s : State) (c n : Nat) : State :=
  match recordOwner s c n with
  | none => replied s c
  | some o =>
    match (faultsOf s o).find? fun r => r.num == some n with
    | none => s
    | some r =>
      let lost : Nat → State := fun l =>
        ctxFault (killOwner (replied s c) o r) c (ownerCore s o) (some l) codeIdempotenceLost 0 0 r.name none
      match o with
      | .blk b =>
        let l := (s.blk b).launch
        if !(s.launch l).lrec.idempotent then lost l
        else if (s.blk b).committed then killOwner (replied s c) o r
        else trimSave (restartBlock (replied s c) b) c
      | .warp w => lost (s.warp w).launch

def execBfreplyRetry (c : Nat) (n : Word) (s : State) : Host.Outcome State Fault Refusal :=
  .next (if s.dev.ideActive then retryRecord (s.modCtx c fun C => { C with bfreply := n.setWidth 64 }) c n.toNat else s)
def execBfreplyKill (c : Nat) (n : Word) (s : State) : Host.Outcome State Fault Refusal :=
  .next (if s.dev.ideActive then
    killRecord (s.modCtx c fun C => { C with bfreply := n.setWidth 64 + 2 ^ 32 }) c n.toNat else s)
def execBfreplyRestart (c : Nat) (n : Word) (s : State) : Host.Outcome State Fault Refusal :=
  .next (if s.dev.ideActive then
    restartRecord (s.modCtx c fun C => { C with bfreply := n.setWidth 64 + 2 ^ 33 }) c n.toNat else s)

/-! ### Halts (R412) -/

/-- Whether an owner is to be halted, or is. -/
def ownerHalted (s : State) (o : Owner) : Bool := match o with | .blk b => (s.blk b).halted | .warp w => (s.warp w).halted
/-- A halted warp steps past the PC at which it stopped: where it matched, or where it was to issue next (R412). -/
def exemptWarp (s : State) (w : Nat) (W : Warp) : Warp :=
  if W.exempt.isSome ∨ W.fibres = [] then W
  else { W with exempt := some (((nextGroup s w).map (·.pc)).getD (lowPc W)) }
/-- The name by which a halt's record names work. -/
def ownerName (s : State) (o : Owner) : Name :=
  match o with
  | .blk b => match warpsOf s b with
    | w :: _ => nameOf s (s.warp w) (lowPc (s.warp w)).toNat
    | [] => engineName s b 0 0 0
  | .warp w => nameOf s (s.warp w) (lowPc (s.warp w)).toNat

/-- Whether a warp's work is to be halted, or is. -/
def warpHalted (s : State) (c : Nat) (W : Warp) : Bool :=
  W.ctx == c && (match W.blk with | some b => (s.blk b).halted | none => W.halted)
/-- The traps that warps have raised before they stop for a halt are taken (R412). -/
def deliverHalted (s : State) (c : Nat) : State :=
  (s.warps.filter fun e => warpHalted s c e.2 && e.2.residence == .resident).foldl (fun s e => deliverRaised s e.1) s
/-- The event of a halt: all work that is to be halted is saved and marked, and its record names the work that matched. -/
def execWorkHalt (c : Nat) (s : State) : Host.Outcome State Fault Refusal :=
  let os := (ownersOf s c).filter (ownerHalted s)
  match (s.ctx c).haltOwed with
  | none => .next s
  | some i =>
    if (s.ctx c).saveWaits then .next s
    else
      let (all, t) := stopAll os (deliverHalted s c)
      if !all then .next t
      else
        let t := t.mapWarps fun w W => if warpHalted t c W then exemptWarp t w W else W
        let C := t.ctx c
        let t := t.modCtx c fun C => { C with
          haltOwed := none, haltName := none, haltCore := 0, dbgstat := BitVec.ofNat 32 os.length, dbgctl := C.dbgctl &&& ~~~ 1 }
        match os with
        | o :: _ => .next (trace t c (if C.haltName.isSome then C.haltCore else ownerCore t o) 4
            (C.haltName.getD (ownerName t o)) (leBytes 1 i))
        | [] => .next t

/-- Unmark halted work, with or without the debugger's edits. -/
def unhalt (s : State) (c : Nat) (edits : Bool) : State :=
  let os := (ownersOf s c).filter (ownerHalted s)
  let s := if edits then os.foldl (fun s o => if ownerSaved s o then takeEdits s o else s) s else s
  let s := s.mapBlks fun _ B => if B.ctx = c then { B with halted := false } else B
  let s := s.mapWarps fun _ W => if W.ctx = c then { W with halted := false } else W
  s.modCtx c fun C => { C with
    halted := false, haltOwed := none, haltName := none, haltCore := 0, dbgstat := 0, dbgctl := C.dbgctl &&& ~~~ 1 }

/-! ### The core dump (R502 to R504) -/

/-- The header's place: the first 4,096-byte boundary above the saved images (R502). -/
def Ctx.dumpPlace (C : Ctx) : Nat := roundUp (C.savearea.toNat + C.saveEnd) 4096
/-- Bytes of the save area above a place. -/
def Ctx.dumpRoom (C : Ctx) (h : Nat) : Nat := C.savearea.toNat + C.savesize.toNat - h
/-- Whether a second context fault, or an uncorrectable error while the dump was written, has ended it (R504). -/
def Ctx.dumpSpoilt (C : Ctx) : Bool := decide (65536 ≤ C.secondary.getD 0)
/-- A dump of the sections planned at the stop; none of them is written once it is to end (R504, log 64). -/
def planDump (C : Ctx) (xs : List Section) : Dump :=
  ⟨C.dumpPlace, 0x80 + 32 * xs.length, if C.dumpSpoilt then [] else xs, [], 0x80, C.dumpSpoilt⟩
/-- The plan begun again where the save area has been given another place. -/
def Dump.placed (D : Dump) (h : Nat) : Dump :=
  if D.head = h then D else { D with head := h, todo := D.done.map (·.2) ++ D.todo, done := [], upto := 0x80 }
/-- Offset of the next section (R502, R515). -/
def Dump.next (D : Dump) : Nat := if D.done = [] then roundUp D.table 4096 else roundUp D.upto 64
/-- A dump header (Table 22-9, R504, R515). -/
def dumpHeader (C : Ctx) (c code detail addr : Nat) (n : Name) (D : Dump) : List Byte :=
  leBytes 4 0x474C4433 ++ leBytes 2 1
  ++ leBytes 2 ((if D.truncated then 1 else 0) + (if C.secondary.isSome then 2 else 0))
  ++ leBytes 2 c ++ leBytes 1 C.asid ++ leBytes 1 0 ++ leBytes 4 C.faultVer.toNat ++ leBytes 8 C.faultTick.toNat
  ++ leBytes 2 code ++ leBytes 2 detail ++ leBytes 4 0 ++ n.bytes ++ leBytes 8 addr
  ++ leBytes 2 (C.secondary.getD 0 % 65536) ++ leBytes 2 0 ++ leBytes 4 (if C.dumpSpoilt then D.upto else 0)
  ++ leBytes 4 D.done.length ++ leBytes 4 D.upto ++ List.replicate 40 0
/-- Write parts of a dump in order. -/
def writeParts (c : Nat) : List (Nat × List Byte) → State → Except (Nat × Nat) State × State
  | [], s => (.ok s, s)
  | (a, bs) :: t, s =>
    match structWrite s c a bs with
    | (.error e, s) => (.error e, s)
    | (.ok s, _) => writeParts c t s

/-- The sections of a dump: blocks, with the Carter commands that had begun, then spawned warps. -/
def dumpSections (s : State) (c : Nat) (os : List Owner) : List Section :=
  os.flatMap fun o => match o with
    | .blk b => blockSections s b (((s.ctx c).begun.filter fun e => e.1 == b).map (·.2))
    | .warp _ => ownerSections s o
/-- Write the next section of a dump: one that does not fit ends it (R504). -/
def writeSection (s : State) (c : Nat) (D : Dump) (x : Section) (rest : List Section) : State :=
  let keep : Dump → State → State := fun D s => s.modCtx c fun C => { C with dump := some D }
  if (s.ctx c).dumpRoom D.head < D.next + x.bytes.length then keep { D with todo := [], truncated := true } s
  else
    match structWrite s c (D.head + D.next) x.bytes with
    | (.error e, s) => saveFault s c e.1 e.2
    | (.ok s, _) =>
      keep { D with todo := rest, done := D.done ++ [(D.next, x)], upto := D.next + x.bytes.length } s
/-- A dump ends: its table is written and the header last, then DUMPADDR and DUMP are set (R502). -/
def endDump (s : State) (c code detail addr : Nat) (n : Name) (D : Dump) : State :=
  match writeParts c [(D.head + 0x80, D.done.flatMap sectionEntry), (D.head, dumpHeader (s.ctx c) c code detail addr n D)] s with
  | (.error e, s) => saveFault s c e.1 e.2
  | (.ok s, _) =>
    setEvent (s.modCtx c fun C => { C with
      dumpaddr := BitVec.ofNat 64 D.head, fault := none, secondary := none, dump := none, begun := []
      stopping := false, state := .stopped }) c 0x40

/-- The event of a core dump (R502): work stops and is saved; once all of it is, the dump is planned, its sections are written
one by one, and the header last. A save area without room for the header waits like a save (R520, log 64). -/
def execCoreDump (c : Nat) (s : State) : Host.Outcome State Fault Refusal :=
  let C := s.ctx c
  match C.fault with
  | none => .next s
  | some (code, detail, addr, n) =>
    if C.saveWaits || C.discarding then .next s
    else
      match C.dump with
      | none =>
        let (all, t) := stopAll (ownersOf s c) s
        .next (if !all then t
          else t.modCtx c fun C => { C with dump := some (planDump C (dumpSections t c (ownersOf t c))) })
      | some D =>
        let D := D.placed C.dumpPlace
        if C.dumpRoom D.head < 0x80 then .next (s.modCtx c fun C => { C with saveWaits := true })
        else
          match D.todo with
          | x :: rest => .next (writeSection s c D x rest)
          | [] => .next (endDump s c code detail addr n D)

/-! ### Stopping, suspending and discarding (R399, R407, R485, R498) -/

/-- The event of a stop: STATE reads STOPPED once every block is saved. -/
def execContextStopComplete (c : Nat) (s : State) : Host.Outcome State Fault Refusal :=
  let C := s.ctx c
  if !(C.stopping || C.state == .suspended) || C.fault.isSome || C.saveWaits then .next s
  else
    let (all, t) := stopAll (ownersOf s c) s
    if all && C.stopping then .next (t.modCtx c fun C => { C with state := .stopped, stopping := false }) else .next t

def codeResourceMapTimeout : Nat := 0x0704
/-- The event of a missed deadline (R407, R498): the context is SUSPENDED and its blocks are saved. -/
def execResourceMapTimeout (c : Nat) (s : State) : Host.Outcome State Fault Refusal :=
  let C := s.ctx c
  match C.ackBy with
  | none => .next s
  | some t =>
    if C.state ≠ .running || C.stopping || C.ackVersion == s.dev.rmver || decide (s.tick.toNat ≤ t) then .next s
    else
      let s := s.setCtx c { C.setEvent (eventWith C.event codeResourceMapTimeout 0x10) with state := .suspended, ackBy := none }
      .next (stopAll (ownersOf s c) s).2

/-- Perform the updates of every join counter of a context that stand. -/
def joinAll (c : Nat) : Nat → State → State
  | 0, s => s
  | n + 1, s =>
    match s.joins.findIdx? fun j => j.ctx == c with
    | none => s
    | some i =>
      let t := joinEnd s i
      let t := if t.joins.length < s.joins.length then t else { t with joins := dropAt t.joins i }
      joinAll c n t
/-- Everything of a context that is saved or held goes (R399): its stores that have been performed reach their home L2s where
they can, and clusters that its blocks leave are as they then are (R128). -/
def discardCtx (s : State) (c : Nat) : State :=
  let n := s.cores.foldl (fun a e => a + e.2.tracker.length) 0
  let s := drainTracks (fun t => t.ctx == c) n s
  let s := (s.warps.filter fun e => e.2.ctx == c).foldl (fun s e =>
    let w := e.1
    let s := if (s.warp w).heldStores then { s with joins := s.joins.filter fun j => j.warp != w } else s
    killWarp s w) s
  let s := landAll (joinAll c s.joins.length s)
  let before := s
  let homes := (s.blocks.filter fun e => e.2.ctx == c && e.2.placed).map fun e => e.2.core
  let clean : Core → Core := fun K => { K with
    passing := K.passing.filter fun (y : Passing) => (s.launch y.launch).ctx != c
    shuttle := K.shuttle.filter fun (x : Child) => x.ctx != c
    tracker := K.tracker.filter fun (t : Track) => t.ctx != c
    board := K.board.filter fun (x : Board) => (s.blk x.blk).ctx != c }
  let s := { s with
    joins := s.joins.filter fun (j : JoinEnd) => j.ctx != c
    blocks := s.blocks.filter fun (e : Nat × Block) => e.2.ctx != c
    launches := s.launches.filter fun (e : Nat × Launch) => e.2.ctx != c
    walks := s.walks.filter fun (k : Walk) => k.ctx != c
    cores := s.cores.map fun (e : Nat × Core) => (e.1, clean e.2) }
  let s := homes.foldl (fun t core => refuse before core t) s
  s.modCtx c fun C => { C with
    queues := [], pendEnq := [], tensors := [], tiles := [], serial := false, fault := none, secondary := none
    dump := none, begun := [], halted := false, haltOwed := none, haltName := none, haltCore := 0, ackBy := none, saveEnd := 4096, saveWaits := false, blockedSince := none, notified := false }

/-- The event of a completed discard and invalidation: the context reads FREE (R137, R399). -/
def execContextDiscardComplete (c : Nat) (s : State) : Host.Outcome State Fault Refusal :=
  if !(s.ctx c).discarding then .next s
  else
    let s := discardCtx s c
    let s := dropTlbs s (.asid (s.ctx c).asid)
    .next ({ s with invals := s.invals.filter fun v => v.kind != InvalKind.discard c }.modCtx c fun C =>
      { C with state := .free, discarding := false, stopping := false, asid := 0, dbgr := false, sysr := false })

/-! ### RESOURCE_MAP (R465) -/

/-- The resident warp of a launch with the lowest block index and WID. -/
def firstWarp (s : State) (l : Nat) : Option Nat :=
  let ws := s.warps.filter fun e => e.2.launch == l && warpRuns s e.1
  let key := fun (W : Warp) => blockIndex s W * 2 ^ 32 + W.wid
  match ws with
  | [] => none
  | e :: t => some (t.foldl (fun a e => if key e.2 < key a.2 then e else a) e).1
/-- The words of the instruction at a PC, as a frame holds them: none of them where they cannot be fetched. -/
def wordsAt (s : State) (W : Warp) (pc : Nat) : Word × Word :=
  if fetchHeld s W (BitVec.ofNat 56 pc) then (0, 0)
  else match fetchCode s W.core W.ctx pc 4 with
  | (.error _, _) => (0, 0)
  | (.ok w, s) =>
    let w0 : Word := BitVec.ofNat 32 w
    if isLx w0 then
      match fetchCode s W.core W.ctx (pc + 4) 4 with
      | (.ok v, _) => (w0, BitVec.ofNat 32 v)
      | (.error _, _) => (w0, 0)
    else (0, w0)

/-- The event of a delivery of RESOURCE_MAP to a launch that is owed it. -/
def execResourceMapDeliver (l : Nat) (s : State) : Host.Outcome State Fault Refusal :=
  let L := s.launch l
  match L.rmOwed, firstWarp s l with
  | v :: owed, some w =>
    if L.lrec.trapVec = 0 then .next s
    else
      let W := s.warp w
      let fs := W.fibres.filter fun f => f.status == .ready
      match fs with
      | [] => .next s
      | f :: t =>
        let pc := t.foldl (fun a g => if g.pc.toNat < a.toNat then g.pc else a) f.pc
        let ks := (fs.filter fun g => g.pc == pc).map (·.slot)
        let (lx, word) := wordsAt s W pc.toNat
        let s := s.modLaunch l fun L => { L with rmOwed := owed }
        let s := trace s W.ctx W.core 7 (nameOf s W pc.toNat) (leBytes 4 v)
        .next (raiseUser s w lx word (raisesOf (s.warp w) 0x0703 pc ks v))
  | _, _ => .next s

/-! ### Deadlock (R55, R484) -/

/-- Whether a fibre is blocked in the sense of R55: it waits so, or runs a future handler that only yields (log 93). -/
def blockedFibre (f : Fibre) : Bool :=
  f.yields || (match f.status with
    | .waiting w => (match w.why with
      | .join _ | .ringToken _ | .pool _ | .barrier _ _ | .teamPhase _ => true
      | _ => false)
    | _ => false)
/-- Whether every fibre of a context is blocked and a spill ring of it is full. -/
def allBlocked (s : State) (c : Nat) : Bool :=
  let ws := s.warps.filter fun e => e.2.ctx == c && e.2.fibres != []
  ws != [] && (ws.all fun e => e.2.fibres.all blockedFibre)
    && s.launches.any fun e => e.2.ctx == c && decide (0 < e.2.lrec.spillSize) && decide (e.2.lrec.spillSize / 128 ≤ e.2.ring.length)
/-- When a warp's present wait began: the earliest of its fibres'. -/
def waitsSince (W : Warp) : Nat :=
  W.fibres.foldl (fun a f => match f.status with | .waiting w => min a w.since | _ => a) (2 ^ 64)
def codeDeadlock : Nat := 0x0405
/-- Ticks of DEADLOCK_SUSPECT. -/
def deadlockTicks : Nat := 50000000

/-- The event of the deadlock watch: it begins when all is blocked, and a context that has been so long enough takes a
context fault that names the warp blocked longest. -/
def execDeadlockSuspect (c : Nat) (s : State) : Host.Outcome State Fault Refusal :=
  if !ctxRuns s c || !allBlocked s c then .next (s.modCtx c fun C => { C with blockedSince := none })
  else
    match (s.ctx c).blockedSince with
    | none => .next (s.modCtx c fun C => { C with blockedSince := some s.tick.toNat })
    | some t =>
      if s.tick.toNat < t + deadlockTicks then .next s
      else
        let key := fun (W : Warp) => (waitsSince W * 2 ^ 32 + blockIndex s W) * 2 ^ 32 + W.wid
        match s.warps.filter fun e => e.2.ctx == c && e.2.fibres != [] with
        | [] => .next s
        | e :: r =>
          let W := (r.foldl (fun a e => if key e.2 < key a.2 then e else a) e).2
          .next (ctxFault s c W.core (some W.launch) codeDeadlock 0 0 (nameOf s W (lowPc W).toNat) none)

end Sys2Proof.Machine
end

