-- ==== Sys2Proof/Machine/Transcendental.lean ====
section
/-! DEFINITION. The transcendental functions of R227, rounded once from a fixed-point approximation of the exact value
with 560 fraction bits (log 16). -/
namespace Sys2Proof.Machine

/-- Fraction bits of the approximations. -/
def fxBits : Nat := 560
/-- One. -/
def fxOne : Nat := 2 ^ fxBits
/-- Product of two fixed-point values. -/
def fxMul (a b : Nat) : Nat := a * b / fxOne
/-- Quotient of two fixed-point values. -/
def fxDiv (a b : Nat) : Nat := a * fxOne / b

/-- An approximation n · 2^e of a positive inexact value, and its sign. -/
structure Approx where
  neg : Bool
  n : Nat
  e : Int
deriving DecidableEq, Repr

/-- Round of an inexact value from its approximation (R70). -/
def Approx.round (f : Fmt) (mode : Mode) (d : Double) (a : Approx) : FOut :=
  fout (roundMag f mode d a.neg ((a.n.log2 : Int) + a.e) (fun s => ((shiftFloor a.n (a.e + s)).1, false)))

/-- A value just below or just above m · 2^e in magnitude. -/
def Approx.near (neg above : Bool) (m : Nat) (e : Int) : Approx :=
  ⟨neg, if above then m * 2 ^ 200 + 1 else m * 2 ^ 200 - 1, e - 200⟩

/-- Σ term / (k · step) from k on, the term divided by q each time: the series of atanh and ln 2. -/
def oddSeries (q : Nat) : Nat → Nat → Nat → Nat
  | 0, _, _ => 0
  | n + 1, k, t => t / k + oddSeries q n (k + 2) (t / q)
/-- The same with alternating signs, as a difference of two sums. -/
def altSeries (q : Nat) : Nat → Nat → Nat → Nat × Nat
  | 0, _, _ => (0, 0)
  | n + 1, k, t => let r := altSeries q n (k + 2) (t / q); (t / k + r.2, r.1)
/-- atan(1 / q) by its series. -/
def atanInv (q : Nat) : Nat := let r := altSeries (q * q) 130 1 (fxOne / q); r.1 - r.2
/-- π / 2 by Machin's formula. -/
def fxHalfPi : Nat := 2 * (4 * atanInv 5 - atanInv 239)
/-- ln 2 = 2 atanh(1/3). -/
def fxLn2 : Nat := 2 * oddSeries 9 190 1 (fxOne / 3)

/-- Terms t, t·x/k, t·x²/(k(k+1)), … summed: the exponential series. -/
def expSeries (x : Nat) : Nat → Nat → Nat → Nat
  | 0, _, _ => 0
  | n + 1, k, t => t + expSeries x n (k + 1) (fxMul t x / k)
/-- e^x for 0 ≤ x < 1. -/
def fxExp (x : Nat) : Nat := expSeries x 120 1 fxOne
/-- Alternating terms of sine or cosine: t, t·x²/(k(k+1)), …. -/
def trigSeries (x2 : Nat) : Nat → Nat → Nat → Nat × Nat
  | 0, _, _ => (0, 0)
  | n + 1, k, t => let r := trigSeries x2 n (k + 2) (fxMul t x2 / (k * (k + 1))); (t + r.2, r.1)
/-- sin x for 0 ≤ x ≤ 2. -/
def fxSin (x : Nat) : Nat := let r := trigSeries (fxMul x x) 75 2 x; r.1 - r.2
/-- cos x for 0 ≤ x ≤ π / 2. -/
def fxCos (x : Nat) : Nat := let r := trigSeries (fxMul x x) 75 1 fxOne; r.1 - r.2
/-- 2 atanh z = 2 Σ z^(2k+1) / (2k+1), for 0 ≤ z ≤ 1/3. -/
def atanhSeries (z2 : Nat) : Nat → Nat → Nat → Nat
  | 0, _, _ => 0
  | n + 1, k, t => t / k + atanhSeries z2 n (k + 2) (fxMul t z2)
/-- ln y for 1 ≤ y ≤ 2. -/
def fxLn (y : Nat) : Nat := let z := fxDiv (y - fxOne) (y + fxOne); 2 * atanhSeries (fxMul z z) 190 1 z
/-- Repeated squaring. -/
def fxSquare : Nat → Nat → Nat
  | 0, x => x
  | n + 1, x => fxSquare n (fxMul x x)

/-- The invalid result or the canonical NaN of a NaN input. -/
def nanOut (f : Fmt) (s : Bool) : FOut := ⟨f.nanBits, if s then flagNV else 0, none⟩
/-- floor(log2) of a finite magnitude m · 2^e. -/
def magExp (m : Nat) (e : Int) : Int := (m.log2 : Int) + e

/-- `fex2` (R227). -/
def fEx2 (f : Fmt) (mode : Mode) (d : Double) (x : Num) : FOut :=
  match x with
  | .nan s => nanOut f s
  | .inf n => if n then fout (encodeNum f mode d (.fin false 0 0)) else fout (encodeNum f mode d (.inf false))
  | .fin neg m e =>
    if m = 0 then fout (encodeNum f mode d (.fin false 1 0))
    else if magExp m e < -60 then (Approx.near false (!neg) 1 0).round f mode d
    else
      -- beyond 2^11 only the sign of the exponent matters: the result overflows or lies far below every format
      let big := decide (11 ≤ magExp m e)
      let v := shiftFloor m (min e 11 + (fxBits : Int))
      let whole : Nat := v.1 / fxOne
      let frac : Nat := v.1 % fxOne
      let n : Int := if big then (if neg then -2048 else 2048)
        else if neg then (if frac = 0 then -(whole : Int) else -(whole : Int) - 1) else whole
      let fr := if big then (if 0 ≤ e then 0 else frac) else if neg && frac != 0 then fxOne - frac else frac
      if fr = 0 then fout (encodeNum f mode d (.fin false 1 n))
      else Approx.round f mode d ⟨false, fxExp (fxMul fr fxLn2), n - (fxBits : Int)⟩

/-- `flg2` (R227). -/
def fLg2 (f : Fmt) (mode : Mode) (d : Double) (x : Num) : FOut :=
  match x with
  | .nan s => nanOut f s
  | .inf n => if n then invalid f else fout (encodeNum f mode d (.inf false))
  | .fin neg m e =>
    if m = 0 then let r := encodeNum f mode d (.inf true); ⟨r.1, r.2 ||| flagDZ, none⟩
    else if neg then invalid f
    else
      let ex := magExp m e
      if m = 2 ^ m.log2 then fout (encodeNum f mode d (.fin (decide (ex < 0)) ex.natAbs 0))
      else
        let y := (shiftFloor m ((fxBits : Int) - (m.log2 : Int))).1
        let l : Int := ex * (fxOne : Int) + (fxDiv (fxLn y) fxLn2 : Int)
        Approx.round f mode d ⟨decide (l < 0), l.natAbs, -(fxBits : Int)⟩

/-- Argument reduction: the quadrant and the remainder below π / 2 of a magnitude (R227). -/
def reduceArg (m : Nat) (e : Int) : Nat × Nat :=
  let v := (shiftFloor m (e + (fxBits : Int))).1
  (v / fxHalfPi % 4, v % fxHalfPi)

/-- `fsin` (R227). -/
def fSin (f : Fmt) (mode : Mode) (d : Double) (x : Num) : FOut :=
  match x with
  | .nan s => nanOut f s
  | .inf _ => invalid f
  | .fin neg m e =>
    if m = 0 then fout (encodeNum f mode d x)
    else if magExp m e < -30 then (Approx.near neg false m e).round f mode d
    else
      let (q, r) := reduceArg m e
      let v := if q % 2 = 0 then fxSin r else fxCos r
      Approx.round f mode d ⟨neg != decide (2 ≤ q), v, -(fxBits : Int)⟩

/-- `fcos` (R227). -/
def fCos (f : Fmt) (mode : Mode) (d : Double) (x : Num) : FOut :=
  match x with
  | .nan s => nanOut f s
  | .inf _ => invalid f
  | .fin _ m e =>
    if m = 0 then fout (encodeNum f mode d (.fin false 1 0))
    else if magExp m e < -30 then (Approx.near false false 1 0).round f mode d
    else
      let (q, r) := reduceArg m e
      let v := if q % 2 = 0 then fxCos r else fxSin r
      Approx.round f mode d ⟨decide (q = 1) || decide (q = 2), v, -(fxBits : Int)⟩

/-- `ftanh` (R227). -/
def fTanh (f : Fmt) (mode : Mode) (d : Double) (x : Num) : FOut :=
  match x with
  | .nan s => nanOut f s
  | .inf n => fout (encodeNum f mode d (.fin n 1 0))
  | .fin neg m e =>
    if m = 0 then fout (encodeNum f mode d x)
    else if magExp m e < -30 then (Approx.near neg false m e).round f mode d
    else if 5 ≤ magExp m e then (Approx.near neg false 1 0).round f mode d
    else
      -- e^(2x) is the seventh square of e^(x/64), and tanh x = (e^(2x) − 1) / (e^(2x) + 1)
      let v := fxSquare 7 (fxExp (shiftFloor m (e - 6 + (fxBits : Int))).1)
      Approx.round f mode d ⟨neg, fxDiv (v - fxOne) (v + fxOne), -(fxBits : Int)⟩

end Sys2Proof.Machine
end

