-- ==== Sys2Proof/Machine/LaneFloat.lean ====
section
/-! DEFINITION. Floating-point, conversion, transcendental and sibling instructions of the lane set (R218 to R235). -/
namespace Sys2Proof.Machine

/-- Write each sibling's result of a type and gather flags; `events` sees all the results. -/
def floatOut (f : Fibre) (ty : FTy) (d : Reg) (os : List FOut) (ev : BitVec 4) : LaneOut :=
  ⟨(f.lanes.zip os).map fun (l, o) => l.setFval ty d.toNat o.bits, orFlags (os.map (·.flags)), ev⟩

/-- One result for each sibling from a function of sibling number and lane. -/
def sibResults (f : Fibre) (g : Nat → Lane → FOut) : List FOut := f.lanes.zipIdx.map fun (l, j) => g j l

/-- d receives a rounded function of a. -/
def float1 (ra : Bool) (ty : FTy) (d a : Reg) (g : Fmt → Mode → Double → Num → FOut) (e : LaneEnv) (f : Fibre) :
    LaneOut :=
  let fm := fmtOf ty
  floatOut f ty d (sibResults f fun j l =>
    g fm (e.mode ra) (e.drawOf f j 0) (decodeNum fm (l.fval ty a.toNat))) 0

/-- d receives a rounded function of a and b. -/
def float2 (ty : FTy) (d a b : Reg) (g : Fmt → Mode → Double → Num → Num → FOut)
    (ev : LaneEnv → List FOut → BitVec 4) (e : LaneEnv) (f : Fibre) : LaneOut :=
  let fm := fmtOf ty
  let os := sibResults f fun j l =>
    g fm (e.mode false) (e.drawOf f j 0) (decodeNum fm (l.fval ty a.toNat)) (decodeNum fm (l.fval ty b.toNat))
  floatOut f ty d os (ev e os)

/-- Operands of a two-source floating instruction. -/
def uses3 (ty : FTy) (d a b : Reg) : List RegUse := [byTy ty d, byTy ty a, byTy ty b]
/-- Operands of a one-source floating instruction. -/
def uses2 (ty : FTy) (d a : Reg) : List RegUse := [byTy ty d, byTy ty a]

def execFadd (x : Lx) (ty : FTy) (d a b : Reg) (s : State) : Host.Outcome State Fault Refusal :=
  lanePure x (uses3 ty d a b) (float2 ty d a b fAdd fun e os => cancEvent e (fmtOf ty) os) s

def execFsub (x : Lx) (ty : FTy) (d a b : Reg) (s : State) : Host.Outcome State Fault Refusal :=
  lanePure x (uses3 ty d a b) (float2 ty d a b (fun f m r p q => fAdd f m r p q.flip)
    fun e os => cancEvent e (fmtOf ty) os) s

def execFmul (x : Lx) (ty : FTy) (d a b : Reg) (s : State) : Host.Outcome State Fault Refusal :=
  lanePure x (uses3 ty d a b) (float2 ty d a b fMul fun _ _ => 0) s

/-- `ffma` (R220). -/
def laneFma (ty : FTy) (d a b c : Reg) (e : LaneEnv) (f : Fibre) : LaneOut :=
  let fm := fmtOf ty
  let dec : Lane → Reg → Num := fun l r => decodeNum fm (l.fval ty r.toNat)
  let os := sibResults f fun j l => fFma fm (e.mode false) (e.drawOf f j 0) (dec l a) (dec l b) (dec l c)
  floatOut f ty d os (cancEvent e fm os)

def execFfmaF32 (x : Lx) (d a b c : Reg) (s : State) : Host.Outcome State Fault Refusal :=
  lanePure x [one d, one a, one b, one c] (laneFma .f32 d a b c) s
def execFfmaF64 (x : Lx) (d a b c : Reg) (s : State) : Host.Outcome State Fault Refusal :=
  lanePure x [two d, two a, two b, two c] (laneFma .f64 d a b c) s

/-- `fmin`, `fmax`, `fminm` and `fmaxm` (R221). -/
def laneMinMax (isMax prop : Bool) (ty : FTy) (d a b : Reg) (f : Fibre) : LaneOut :=
  floatOut f ty d (sibResults f fun _ l => fMinMax (fmtOf ty) isMax prop (l.fval ty a.toNat) (l.fval ty b.toNat)) 0

def execFmin (x : Lx) (ty : FTy) (d a b : Reg) (s : State) : Host.Outcome State Fault Refusal :=
  lanePure x (uses3 ty d a b) (fun _ => laneMinMax false false ty d a b) s
def execFmax (x : Lx) (ty : FTy) (d a b : Reg) (s : State) : Host.Outcome State Fault Refusal :=
  lanePure x (uses3 ty d a b) (fun _ => laneMinMax true false ty d a b) s
def execFminm (x : Lx) (ty : FTy) (d a b : Reg) (s : State) : Host.Outcome State Fault Refusal :=
  lanePure x (uses3 ty d a b) (fun _ => laneMinMax false true ty d a b) s
def execFmaxm (x : Lx) (ty : FTy) (d a b : Reg) (s : State) : Host.Outcome State Fault Refusal :=
  lanePure x (uses3 ty d a b) (fun _ => laneMinMax true true ty d a b) s

def execFabs (x : Lx) (ty : FTy) (d a : Reg) (s : State) : Host.Outcome State Fault Refusal :=
  lanePure x (uses2 ty d a) (fun _ f => quiet f fun _ l =>
    l.setFval ty d.toNat (l.fval ty a.toNat % (fmtOf ty).signBit)) s

def execFneg (x : Lx) (ty : FTy) (d a : Reg) (s : State) : Host.Outcome State Fault Refusal :=
  lanePure x (uses2 ty d a) (fun _ f => quiet f fun _ l =>
    l.setFval ty d.toNat (l.fval ty a.toNat ^^^ (fmtOf ty).signBit)) s

def execFcopysign (x : Lx) (ty : FTy) (d a b : Reg) (s : State) : Host.Outcome State Fault Refusal :=
  lanePure x (uses3 ty d a b) (fun _ f => quiet f fun _ l =>
    let sb := (fmtOf ty).signBit
    l.setFval ty d.toNat (l.fval ty a.toNat % sb + l.fval ty b.toNat / sb * sb)) s

def execFcmp (x : Lx) (c : Cond) (ty : FTy) (pd : Pred) (a b : Reg) (s : State) : Host.Outcome State Fault Refusal :=
  lanePure x [byTy ty a, byTy ty b] (fun _ f =>
    let fm := fmtOf ty
    let rs := f.lanes.map fun l => fCompare c (decodeNum fm (l.fval ty a.toNat)) (decodeNum fm (l.fval ty b.toNat))
    let p := predicates f pd (rs.map (·.1))
    ⟨p.1, orFlags (rs.map (·.2)), p.2⟩) s

def execFclass (x : Lx) (ty : FTy) (d a : Reg) (s : State) : Host.Outcome State Fault Refusal :=
  lanePure x [one d, byTy ty a] (fun _ f => quiet f fun _ l =>
    l.setReg d.toNat (fClass (fmtOf ty) (l.fval ty a.toNat))) s

/-- The divisor values of a fibre. -/
def divisors (ty : FTy) (r : Reg) (f : Fibre) : List Nat := f.vals fun l => l.fval ty r.toNat

def execFdiv (x : Lx) (ty : FTy) (d a b : Reg) (s : State) : Host.Outcome State Fault Refusal :=
  lanePure x (uses3 ty d a b) (fun e f =>
    float2 ty d a b fDiv (fun _ _ => zdivEvent e (fmtOf ty) (divisors ty b f)) e f) s

def execFsqrt (x : Lx) (ty : FTy) (d a : Reg) (s : State) : Host.Outcome State Fault Refusal :=
  lanePure x (uses2 ty d a) (float1 false ty d a fSqrt) s

def execFrcp (x : Lx) (ty : FTy) (d a : Reg) (s : State) : Host.Outcome State Fault Refusal :=
  lanePure x (uses2 ty d a) (fun e f =>
    { float1 false ty d a fRcp e f with num := zdivEvent e (fmtOf ty) (divisors ty a f) }) s

def execFrsq (x : Lx) (ty : FTy) (d a : Reg) (s : State) : Host.Outcome State Fault Refusal :=
  lanePure x (uses2 ty d a) (float1 false ty d a fRsq) s

def execFex2 (x : Lx) (ty : FTy) (d a : Reg) (s : State) : Host.Outcome State Fault Refusal :=
  lanePure x (uses2 ty d a) (float1 false ty d a fEx2) s
def execFlg2 (x : Lx) (ty : FTy) (d a : Reg) (s : State) : Host.Outcome State Fault Refusal :=
  lanePure x (uses2 ty d a) (float1 false ty d a fLg2) s
def execFsin (x : Lx) (ty : FTy) (d a : Reg) (s : State) : Host.Outcome State Fault Refusal :=
  lanePure x (uses2 ty d a) (float1 false ty d a fSin) s
def execFcos (x : Lx) (ty : FTy) (d a : Reg) (s : State) : Host.Outcome State Fault Refusal :=
  lanePure x (uses2 ty d a) (float1 false ty d a fCos) s
def execFtanh (x : Lx) (ty : FTy) (d a : Reg) (s : State) : Host.Outcome State Fault Refusal :=
  lanePure x (uses2 ty d a) (float1 false ty d a fTanh) s

def execFrint (x : Lx) (ra exact : Bool) (ty : FTy) (d a : Reg) (s : State) : Host.Outcome State Fault Refusal :=
  lanePure x (uses2 ty d a) (fun e f => floatOut f ty d (sibResults f fun j l =>
    fRint (fmtOf ty) (e.mode ra) (e.drawOf f j 0) exact (l.fval ty a.toNat)) 0) s

/-- Registers of a conversion format (Table 8-7). -/
def cvtUse (c : CvtFmt) (r : Reg) : RegUse := byW (c == .f64) r
/-- A value of a conversion format: narrow elements lie in the low bits (R230). -/
def Lane.cval (l : Lane) (c : CvtFmt) (r : Nat) : Nat := l.val (c == .f64) r % 2 ^ (fmtOfCvt c).width

def execFcvt (x : Lx) (ra : Bool) (dst src : CvtFmt) (d a : Reg) (s : State) : Host.Outcome State Fault Refusal :=
  lanePure x [cvtUse dst d, cvtUse src a] (fun e f =>
    let os := sibResults f fun j l =>
      let v := decodeNum (fmtOfCvt src) (l.cval src a.toNat)
      let r := encodeNum (fmtOfCvt dst) (e.mode ra) (e.drawOf f j 0) v
      fout (r.1, r.2 ||| snanFlag [v])
    ⟨(f.lanes.zip os).map fun (l, o) => l.setVal (dst == .f64) d.toNat o.bits, orFlags (os.map (·.flags)), 0⟩) s

def execF2i (x : Lx) (ra w sg : Bool) (ty : FTy) (d a : Reg) (s : State) : Host.Outcome State Fault Refusal :=
  lanePure x [byW w d, byTy ty a] (fun e f =>
    let os := sibResults f fun j l =>
      fout (fToInt (e.mode ra) (e.drawOf f j 0) (widthOf w) sg (decodeNum (fmtOf ty) (l.fval ty a.toNat)))
    ⟨(f.lanes.zip os).map fun (l, o) => l.setVal w d.toNat o.bits, orFlags (os.map (·.flags)), 0⟩) s

def execI2f (x : Lx) (w sg : Bool) (ty : FTy) (d a : Reg) (s : State) : Host.Outcome State Fault Refusal :=
  lanePure x [byTy ty d, byW w a] (fun e f => floatOut f ty d (sibResults f fun j l =>
    let v := intOf sg (widthOf w) (l.val w a.toNat)
    fout (encodeNum (fmtOf ty) (e.mode false) (e.drawOf f j 0) (.fin (decide (v < 0)) v.natAbs 0))) 0) s

def execFldexp (x : Lx) (ty : FTy) (d a b : Reg) (s : State) : Host.Outcome State Fault Refusal :=
  lanePure x [byTy ty d, byTy ty a, one b] (fun e f => floatOut f ty d (sibResults f fun j l =>
    fLdexp (fmtOf ty) (e.mode false) (e.drawOf f j 0) (decodeNum (fmtOf ty) (l.fval ty a.toNat))
      (toSigned 32 (l.reg b.toNat))) 0) s

def execFfrexp (x : Lx) (ty : FTy) (d a : Reg) (s : State) : Host.Outcome State Fault Refusal :=
  lanePure x [if ty == .f64 then four d else two d, byTy ty a] (fun _ f =>
    let rs := f.lanes.map fun l => fFrexp (fmtOf ty) (l.fval ty a.toNat)
    ⟨(f.lanes.zip rs).map fun (l, m, e, _) =>
        if ty == .f64 then ((l.setPair d.toNat m).setReg (d.toNat + 2) (wrapInt 32 e)).setReg (d.toNat + 3) 0
        else (l.setFval ty d.toNat m).setReg (d.toNat + 1) (wrapInt 32 e),
      orFlags (rs.map (·.2.2)), 0⟩) s

def execDigits (x : Lx) (ty : FTy) (d a : Reg) (s : State) : Host.Outcome State Fault Refusal :=
  lanePure x [one d, byTy ty a] (fun _ f => quiet f fun _ l =>
    l.setReg d.toNat (digitsOf (some (fmtOf ty)) (f.vals fun l => l.fval ty a.toNat))) s

def execAgree (x : Lx) (ty : FTy) (d a : Reg) (s : State) : Host.Outcome State Fault Refusal :=
  lanePure x [one d, byTy ty a] (fun _ f => quiet f fun _ l =>
    l.setReg d.toNat (agreeOf (fmtOf ty) (f.vals fun l => l.fval ty a.toNat))) s

def execSibget (x : Lx) (w : Bool) (k : BitVec 2) (d a : Reg) (s : State) : Host.Outcome State Fault Refusal :=
  lanePure x [byW w d, byW w a] (fun _ f => quiet f fun _ l =>
    l.setVal w d.toNat ((f.lane k.toNat).val w a.toNat)) s

def execSibput (x : Lx) (w : Bool) (k : BitVec 2) (d a : Reg) (s : State) : Host.Outcome State Fault Refusal :=
  lanePure x [byW w d, byW w a] (fun _ f => quiet f fun j l =>
    if j = k.toNat then l.setVal w d.toNat ((f.lane 0).val w a.toNat) else l) s

def execSibrot (x : Lx) (w : Bool) (r : BitVec 2) (d a : Reg) (s : State) : Host.Outcome State Fault Refusal :=
  lanePure x [byW w d, byW w a] (fun _ f => quiet f fun j l =>
    l.setVal w d.toNat ((f.lane ((j + r.toNat) % 3)).val w a.toNat)) s

/-- Write one combined value to every sibling (R101, R234). -/
def combined (w : Bool) (d : Reg) (f : Fibre) (r : Nat × Flags × BitVec 4) : LaneOut :=
  ⟨mapLanes f fun _ l => l.setVal w d.toNat r.1, r.2.1, r.2.2⟩

def execSibmean (x : Lx) (ty : FTy) (d a : Reg) (s : State) : Host.Outcome State Fault Refusal :=
  lanePure x (uses2 ty d a) (fun _ f =>
    combined (ty == .f64) d f (combine (some (fmtOf ty)) (f.vals fun l => l.fval ty a.toNat))) s

def execSibmaj (x : Lx) (w : Bool) (d a : Reg) (s : State) : Host.Outcome State Fault Refusal :=
  lanePure x [byW w d, byW w a] (fun _ f => combined w d f (combine none (f.vals fun l => l.val w a.toNat))) s

def execRdraw (x : Lx) (d b : Reg) (s : State) : Host.Outcome State Fault Refusal :=
  lanePure x [two d, one b] (fun e f => quiet f fun j l =>
    l.setPair d.toNat (if e.x.sib = 2 then 0 else (e.drawOf f j (l.reg b.toNat)).toNat)) s

end Sys2Proof.Machine
end

