-- ==== Sys2Proof/Machine/LaneInteger.lean ====
section
/-! DEFINITION. Integer, logic, shift, bit-field, comparison, selection, move and predicate instructions of the lane
set (R201 to R217), and `nop` (R283). -/
namespace Sys2Proof.Machine

/-- Write a carry predicate: 0 names none, n names p(n−1) (R201). -/
def Lane.setCarry (l : Lane) (cy : BitVec 3) (c : Bool) : Lane := if cy = 0 then l else l.setPred (cy - 1) c

/-- d receives a function of a. -/
def unary (wd w : Bool) (d a : Reg) (g : Nat → Nat) (f : Fibre) : LaneOut :=
  quiet f fun _ l => l.setVal wd d.toNat (g (l.val w a.toNat))
/-- d receives a function of a and b. -/
def binary (w wb : Bool) (d a b : Reg) (g : Nat → Nat → Nat) (f : Fibre) : LaneOut :=
  quiet f fun _ l => l.setVal w d.toNat (g (l.val w a.toNat) (l.val wb b.toNat))

def execIadd (x : Lx) (cy : BitVec 3) (sat : BitVec 2) (w : Bool) (d a b : Reg) (s : State) :
    Host.Outcome State Fault Refusal :=
  lanePure x [byW w d, byW w a, byW w b] (fun _ f => quiet f fun _ l =>
    let r := addSub false sat (widthOf w) (l.val w a.toNat) (l.val w b.toNat)
    (l.setVal w d.toNat r.1).setCarry cy r.2) s

def execIsub (x : Lx) (cy : BitVec 3) (sat : BitVec 2) (w : Bool) (d a b : Reg) (s : State) :
    Host.Outcome State Fault Refusal :=
  lanePure x [byW w d, byW w a, byW w b] (fun _ f => quiet f fun _ l =>
    let r := addSub true sat (widthOf w) (l.val w a.toNat) (l.val w b.toNat)
    (l.setVal w d.toNat r.1).setCarry cy r.2) s

def execIaddc (x : Lx) (cy : BitVec 3) (w : Bool) (d a b : Reg) (s : State) : Host.Outcome State Fault Refusal :=
  lanePure x [byW w d, byW w a, byW w b] (fun _ f => quiet f fun _ l =>
    let r := addCarry false (widthOf w) (l.val w a.toNat) (l.val w b.toNat) (l.pred (cy - 1))
    (l.setVal w d.toNat r.1).setCarry cy r.2) s

def execIsubb (x : Lx) (cy : BitVec 3) (w : Bool) (d a b : Reg) (s : State) : Host.Outcome State Fault Refusal :=
  lanePure x [byW w d, byW w a, byW w b] (fun _ f => quiet f fun _ l =>
    let r := addCarry true (widthOf w) (l.val w a.toNat) (l.val w b.toNat) (l.pred (cy - 1))
    (l.setVal w d.toNat r.1).setCarry cy r.2) s

def execImul (x : Lx) (w : Bool) (d a b : Reg) (s : State) : Host.Outcome State Fault Refusal :=
  lanePure x [byW w d, byW w a, byW w b] (fun _ => binary w w d a b fun p q => wrap (widthOf w) (p * q)) s

def execImulhi (x : Lx) (sg w : Bool) (d a b : Reg) (s : State) : Host.Outcome State Fault Refusal :=
  lanePure x [byW w d, byW w a, byW w b] (fun _ => binary w w d a b (mulHigh sg (widthOf w))) s

def execImad (x : Lx) (w : Bool) (d a b c : Reg) (s : State) : Host.Outcome State Fault Refusal :=
  lanePure x [byW w d, byW w a, byW w b, byW w c] (fun _ f => quiet f fun _ l =>
    l.setVal w d.toNat (wrap (widthOf w) (l.val w a.toNat * l.val w b.toNat + l.val w c.toNat))) s

def execImadw (x : Lx) (sg : Bool) (d a b c : Reg) (s : State) : Host.Outcome State Fault Refusal :=
  lanePure x [two d, one a, one b, two c] (fun _ f => quiet f fun _ l =>
    l.setPair d.toNat (wrapInt 64 (intOf sg 32 (l.reg a.toNat) * intOf sg 32 (l.reg b.toNat) + (l.pair c.toNat : Int)))) s

def execImin (x : Lx) (sg w : Bool) (d a b : Reg) (s : State) : Host.Outcome State Fault Refusal :=
  lanePure x [byW w d, byW w a, byW w b] (fun _ => binary w w d a b (minMax false sg (widthOf w))) s

def execImax (x : Lx) (sg w : Bool) (d a b : Reg) (s : State) : Host.Outcome State Fault Refusal :=
  lanePure x [byW w d, byW w a, byW w b] (fun _ => binary w w d a b (minMax true sg (widthOf w))) s

def execIabs (x : Lx) (sat w : Bool) (d a : Reg) (s : State) : Host.Outcome State Fault Refusal :=
  lanePure x [byW w d, byW w a] (fun _ => unary w w d a (absNeg false sat (widthOf w))) s

def execIneg (x : Lx) (sat w : Bool) (d a : Reg) (s : State) : Host.Outcome State Fault Refusal :=
  lanePure x [byW w d, byW w a] (fun _ => unary w w d a (absNeg true sat (widthOf w))) s

def execAndB (x : Lx) (w : Bool) (d a b : Reg) (s : State) : Host.Outcome State Fault Refusal :=
  lanePure x [byW w d, byW w a, byW w b] (fun _ => binary w w d a b (logicOp 0 (widthOf w))) s

def execOrB (x : Lx) (w : Bool) (d a b : Reg) (s : State) : Host.Outcome State Fault Refusal :=
  lanePure x [byW w d, byW w a, byW w b] (fun _ => binary w w d a b (logicOp 1 (widthOf w))) s

def execXorB (x : Lx) (w : Bool) (d a b : Reg) (s : State) : Host.Outcome State Fault Refusal :=
  lanePure x [byW w d, byW w a, byW w b] (fun _ => binary w w d a b (logicOp 2 (widthOf w))) s

def execAndn (x : Lx) (w : Bool) (d a b : Reg) (s : State) : Host.Outcome State Fault Refusal :=
  lanePure x [byW w d, byW w a, byW w b] (fun _ => binary w w d a b (logicOp 3 (widthOf w))) s

/-- A shift by the b field itself or by register b (R207). -/
def laneShift (k : Shift) (x : Lx) (imm w : Bool) (d a b : Reg) (s : State) : Host.Outcome State Fault Refusal :=
  lanePure x (if imm then [byW w d, byW w a] else [byW w d, byW w a, one b]) (fun _ f => quiet f fun _ l =>
    l.setVal w d.toNat
      (shiftOp k (widthOf w) (l.val w a.toNat) (if imm then b.toNat else l.reg b.toNat))) s

def execShl (x : Lx) (imm w : Bool) (d a b : Reg) (s : State) : Host.Outcome State Fault Refusal :=
  laneShift .shl x imm w d a b s
def execShr (x : Lx) (imm w : Bool) (d a b : Reg) (s : State) : Host.Outcome State Fault Refusal :=
  laneShift .shr x imm w d a b s
def execSar (x : Lx) (imm w : Bool) (d a b : Reg) (s : State) : Host.Outcome State Fault Refusal :=
  laneShift .sar x imm w d a b s
def execRotl (x : Lx) (imm w : Bool) (d a b : Reg) (s : State) : Host.Outcome State Fault Refusal :=
  laneShift .rotl x imm w d a b s

def execFsh (x : Lx) (lft : Bool) (d a b c : Reg) (s : State) : Host.Outcome State Fault Refusal :=
  lanePure x [one d, one a, one b, one c] (fun _ f => quiet f fun _ l =>
    l.setReg d.toNat (funnel lft (l.reg a.toNat) (l.reg b.toNat) (l.reg c.toNat))) s

def execPopc (x : Lx) (w : Bool) (d a : Reg) (s : State) : Host.Outcome State Fault Refusal :=
  lanePure x [one d, byW w a] (fun _ => unary false w d a (popCount (widthOf w))) s
def execClz (x : Lx) (w : Bool) (d a : Reg) (s : State) : Host.Outcome State Fault Refusal :=
  lanePure x [one d, byW w a] (fun _ => unary false w d a (leadZeros (widthOf w))) s
def execCtz (x : Lx) (w : Bool) (d a : Reg) (s : State) : Host.Outcome State Fault Refusal :=
  lanePure x [one d, byW w a] (fun _ => unary false w d a (trailZeros (widthOf w))) s
def execBrev (x : Lx) (w : Bool) (d a : Reg) (s : State) : Host.Outcome State Fault Refusal :=
  lanePure x [byW w d, byW w a] (fun _ => unary w w d a (bitReverse (widthOf w))) s

def execBfx (x : Lx) (sg w : Bool) (d a b : Reg) (s : State) : Host.Outcome State Fault Refusal :=
  lanePure x [byW w d, byW w a, one b] (fun _ => binary w false d a b (bitExtract sg (widthOf w))) s

def execBfi (x : Lx) (w : Bool) (d a b c : Reg) (s : State) : Host.Outcome State Fault Refusal :=
  lanePure x [byW w d, byW w a, byW w b, one c] (fun _ f => quiet f fun _ l =>
    l.setVal w d.toNat (bitInsert (widthOf w) (l.val w a.toNat) (l.val w b.toNat) (l.reg c.toNat))) s

def execBpick (x : Lx) (ctl : BitVec 20) (d a b : Reg) (s : State) : Host.Outcome State Fault Refusal :=
  lanePure x [one d, one a, one b] (fun _ => binary false false d a b (bytePick ctl.toNat)) s

def execIcmp (x : Lx) (c : Cond) (sg w : Bool) (pd : Pred) (a b : Reg) (s : State) :
    Host.Outcome State Fault Refusal :=
  lanePure x [byW w a, byW w b] (fun _ f =>
    let r := predicates f pd (f.lanes.map fun l => intCompare c sg (widthOf w) (l.val w a.toNat) (l.val w b.toNat))
    ⟨r.1, 0, r.2⟩) s

def execSel (x : Lx) (w neg : Bool) (pn : Pred) (d a b : Reg) (s : State) : Host.Outcome State Fault Refusal :=
  lanePure x [byW w d, byW w a, byW w b] (fun _ f => quiet f fun _ l =>
    l.setVal w d.toNat (if l.pred pn != neg then l.val w a.toNat else l.val w b.toNat)) s

def execMov (x : Lx) (w : Bool) (d a : Reg) (s : State) : Host.Outcome State Fault Refusal :=
  lanePure x [byW w d, byW w a] (fun _ => unary w w d a id) s

/-- `mov` from a uniform register (R214); a pair that does not start at an even register diverts every fibre of the group,
whatever its guard (R182). -/
def execMovUniform (x : Lx) (w : Bool) (d b : Reg) (s : State) : Host.Outcome State Fault Refusal :=
  match s.cur with
  | none => .fault .noIssuer
  | some c =>
    if w && b.toNat % 2 == 1 then
      .next (finish s (.nop x) c ((groupOf (s.warp c.warp) c).map (stopRes (.cause ⟨codeIllegalOperand, 0, .read⟩))))
    else
      let from_ : List (Nat × Nat) := [(b.toNat, if w then 2 else 1)]
      if loadsHold (s.warp c.warp) c.group [] from_ then .next (waitLoads (.nop x) c [] from_ s)
      else lanePure x [byW w d] (fun e f => quiet f fun _ l => l.setVal w d.toNat (e.warp.sval w b.toNat)) s

/-- LANE of a sibling (R25). -/
def laneSlot (three : Bool) (f : Fibre) (j : Nat) : Nat := if three then 3 * f.slot + j else f.slot

def execMovs (x : Lx) (d : Reg) (sr : LaneSr) (s : State) : Host.Outcome State Fault Refusal :=
  lanePure x [byW (sr == .icount) d] (fun e f => quiet f fun j l =>
    match sr with
    | .tid => l.setReg d.toNat f.tid.toNat
    | .sib => l.setReg d.toNat j
    | .lane => l.setReg d.toNat (laneSlot e.three f j)
    | .icount => l.setPair d.toNat f.icount.toNat) s

def execMovi (x : Lx) (h : Bool) (d : Reg) (v : BitVec 27) (s : State) : Host.Outcome State Fault Refusal :=
  lanePure x [one d] (fun _ f => quiet f fun _ l =>
    l.setReg d.toNat (if h then (v.toNat % 65536) * 65536 + l.reg d.toNat % 65536 else (v.signExtend 32).toNat)) s

def execMovpRd (x : Lx) (d : Reg) (s : State) : Host.Outcome State Fault Refusal :=
  lanePure x [one d] (fun _ f => quiet f fun _ l => l.setReg d.toNat l.preds.toNat) s

def execMovpWr (x : Lx) (a : Reg) (s : State) : Host.Outcome State Fault Refusal :=
  lanePure x [one a] (fun _ f => quiet f fun _ l => { l with preds := BitVec.ofNat 7 (l.reg a.toNat) }) s

def execMovpLop (x : Lx) (t : BitVec 4) (pd pa pb : Pred) (s : State) : Host.Outcome State Fault Refusal :=
  lanePure x [] (fun _ f => quiet f fun _ l =>
    l.setPred pd (t.getLsbD ((if l.pred pa then 2 else 0) + (if l.pred pb then 1 else 0)))) s

def execNop (x : Lx) (s : State) : Host.Outcome State Fault Refusal :=
  lanePure x [] (fun _ f => quiet f fun _ l => l) s

end Sys2Proof.Machine
end

