-- ==== Sys2Proof/Machine/LanePacked.lean ====
section
/-! DEFINITION. Packed dot products, packing, scales and structured sparsity (R236 to R245). -/
namespace Sys2Proof.Machine

/-- Element i of width w of a packed operand that starts at a register (R236). -/
def packedElem (l : Lane) (start w i : Nat) : Nat :=
  let n := 32 / w
  l.reg (start + i / n) / 2 ^ (w * (i % n)) % 2 ^ w
/-- n elements of a packed operand. -/
def packedElems (l : Lane) (start w n : Nat) : List Nat := (List.range n).map (packedElem l start w)
/-- n elements decoded. -/
def packedNums (fm : Fmt) (l : Lane) (start n : Nat) : List Num := (packedElems l start fm.width n).map (decodeNum fm)
/-- n elements of width w packed into one value (R64). -/
def packElems (w : Nat) : List Nat → Nat
  | [] => 0
  | e :: t => e % 2 ^ w + 2 ^ w * packElems w t

/-- Write d of each sibling from a result with flags. -/
def dotOut (f : Fibre) (d : Reg) (os : List (Nat × Flags)) : LaneOut :=
  ⟨(f.lanes.zip os).map fun (l, o) => l.setReg d.toNat o.1, orFlags (os.map (·.2)), 0⟩

/-- The FP8 format of a type bit (R238). -/
def fp8Of (t : Bool) : Fmt := if t then e5m2 else e4m3

def execFdp16 (x : Lx) (sc : Option Reg) (ta tb : Bool) (d a b : Reg) (s : State) :
    Host.Outcome State Fault Refusal :=
  lanePure x ([one d, four a, four b] ++ (match sc with | some e => [one e] | none => [])) (fun e f =>
    dotOut f d (f.lanes.zipIdx.map fun (l, j) =>
      let xs := packedNums (fp8Of ta) l a.toNat 16
      let ys := packedNums (fp8Of tb) l b.toNat 16
      let go := fun k => chunkStep (e.mode false) (e.drawOf f j 0) (some 24) k xs ys (l.reg d.toNat)
      match sc with
      | none => go 0
      | some r =>
        let xa := l.reg r.toNat % 256
        let xb := l.reg r.toNat / 256 % 256
        if xa = 255 || xb = 255 then (binary32.nanBits, 0) else go ((xa : Int) + xb - 254))) s

def execFdp8 (x : Lx) (bf : Bool) (d a b : Reg) (s : State) : Host.Outcome State Fault Refusal :=
  lanePure x [one d, four a, four b] (fun e f =>
    let fm := if bf then bfloat16 else binary16
    dotOut f d (f.lanes.zipIdx.map fun (l, j) =>
      chunkStep (e.mode false) (e.drawOf f j 0) (some 40) 0 (packedNums fm l a.toNat 8) (packedNums fm l b.toNat 8)
        (l.reg d.toNat))) s

/-- NX4 block j of a quad: its 8 products and block scales (R240). -/
def nx4Block (l : Lane) (e a b j : Nat) : List Num × List Num × Num × Num :=
  (((packedNums e2m1 l a 32).drop (8 * j)).take 8, ((packedNums e2m1 l b 32).drop (8 * j)).take 8,
    decodeNum e5m2 (l.reg e / 256 ^ j), decodeNum e5m2 (l.reg (e + 1) / 256 ^ j))

/-- `fdpsc` of one sibling (R240). -/
def fdpscLane (mx : Bool) (nb : Nat) (e a b d : Nat) (mode : Mode) (dr : Double) (l : Lane) : Nat × Flags :=
  if mx then
    let xa := l.reg e % 256
    let xb := l.reg (e + 1) % 256
    if xa = 255 || xb = 255 then (binary32.nanBits, 0)
    else chunkStep mode dr none ((xa : Int) + xb - 254) (packedNums e2m1 l a 32) (packedNums e2m1 l b 32) (l.reg d)
  else
    nx4Dot mode dr ((List.range (nb + 1)).map (nx4Block l e a b))
      (decodeNum bfloat16 (l.reg (e + 2) % 65536)) (decodeNum bfloat16 (l.reg (e + 2) / 65536)) (l.reg d)

def execFdpsc (x : Lx) (mx : Bool) (nb : BitVec 2) (e d a b : Reg) (s : State) : Host.Outcome State Fault Refusal :=
  lanePure x [one d, four a, four b, four e] (fun v f =>
    dotOut f d (f.lanes.zipIdx.map fun (l, j) =>
      fdpscLane mx nb.toNat e.toNat a.toNat b.toNat d.toNat (v.mode false) (v.drawOf f j 0) l)) s

/-- Exact integer dot of packed elements (R241). -/
def intDot (w : Nat) (sa sb : Bool) (xs ys : List Nat) : Int :=
  (xs.zip ys).foldl (fun a (p, q) => a + intOf sa w p * intOf sb w q) 0

/-- `idp4` and `idp8` (R241). -/
def laneIdp (w : Nat) (sat sa sb : Bool) (d a b : Reg) (f : Fibre) : LaneOut :=
  quiet f fun _ l =>
    let n := 32 / w
    let t := toSigned 32 (l.reg d.toNat) + intDot w sa sb (packedElems l a.toNat w n) (packedElems l b.toNat w n)
    l.setReg d.toNat (if sat then clampSigned 32 t else wrapInt 32 t)

def execIdp4 (x : Lx) (sat sa sb : Bool) (d a b : Reg) (s : State) : Host.Outcome State Fault Refusal :=
  lanePure x [one d, one a, one b] (fun _ => laneIdp 4 sat sa sb d a b) s
def execIdp8 (x : Lx) (sat sa sb : Bool) (d a b : Reg) (s : State) : Host.Outcome State Fault Refusal :=
  lanePure x [one d, one a, one b] (fun _ => laneIdp 8 sat sa sb d a b) s

/-- Elements of a packed conversion (R242). -/
def cvtCount (c : CvtFmt) : Nat := 32 / (fmtOfCvt c).width
/-- Registers of the FP32 side of a packed conversion: 2, 4 or 8, from an even number or a multiple of 4 (R236). -/
def cvtRegs (c : CvtFmt) (r : Reg) : RegUse :=
  ⟨r.toNat, cvtCount c, if cvtCount c ≤ 2 then cvtCount c else 4⟩

/-- A number times 2^k. -/
def Num.scale (x : Num) (k : Int) : Num := match x with | .fin n m e => .fin n m (e + k) | y => y

def execCvtpk (x : Lx) (ra : Bool) (dst : CvtFmt) (d a : Reg) (sc : Option Reg) (s : State) :
    Host.Outcome State Fault Refusal :=
  lanePure x ([one d, cvtRegs dst a] ++ (match sc with | some b => [one b] | none => [])) (fun e f =>
    dotOut f d (f.lanes.zipIdx.map fun (l, j) =>
      let rs := (List.range (cvtCount dst)).map fun i =>
        let v := decodeNum binary32 (l.reg (a.toNat + i))
        let y : Num := match sc with
          | none => v
          | some b =>
            let k := l.reg b.toNat % 256
            if k = 255 then .nan v.isSnan else v.scale (127 - k)
        let r := encodeNum (fmtOfCvt dst) (e.mode ra) (e.drawOf f j i) y
        (r.1, r.2 ||| snanFlag [v])
      (packElems (fmtOfCvt dst).width (rs.map (·.1)), orFlags (rs.map (·.2))))) s

def execCvtupk (x : Lx) (src : CvtFmt) (d a : Reg) (s : State) : Host.Outcome State Fault Refusal :=
  lanePure x [cvtRegs src d, one a] (fun _ f =>
    let fm := fmtOfCvt src
    let go : Lane → List Num := fun l => packedNums fm l a.toNat (cvtCount src)
    ⟨f.lanes.map fun l => (go l).zipIdx.foldl (fun m (v, i) =>
        m.setReg (d.toNat + i) (encodeNum binary32 modeRN 0 v).1) l,
      orFlags (f.lanes.map fun l => snanFlag (go l)), 0⟩) s

/-- The result of `scdec` and its NV (R244). -/
def scdecResult (c : ScdecCode) (a : Nat) : Nat × Flags :=
  let v := decodeNum binary32 a
  let scale : Int → Nat := fun k =>
    match v with
    | .fin _ m e => if m = 0 then 0x7F else
        let t := (m.log2 : Int) + e - k + 127
        if t < 0 then 0 else if 254 < t then 254 else t.toNat
    | _ => 0xFF
  match c with
  | .e4m3 => (scale 8, snanFlag [v])
  | .e5m2 => (scale 15, snanFlag [v])
  | .e2m1 => (scale 2, snanFlag [v])
  | .dec => ((encodeNum binary32 modeRN 0 (decodeE8 a)).1, 0)
  | .nx4 =>
    match v with
    | .nan _ => (0x7E, snanFlag [v])
    | .inf _ => (0x7B, 0)
    | .fin _ m e => (min 0x7B (roundRatio e5m2 modeRU 0 false m 6 e).1, 0)

def execScdec (x : Lx) (c : ScdecCode) (d a : Reg) (s : State) : Host.Outcome State Fault Refusal :=
  lanePure x [one d, one a] (fun _ f => dotOut f d (f.lanes.map fun l => scdecResult c (l.reg a.toNat))) s

/-- Width and rank of an element of a sparse type: a NaN ranks above every number (R245). -/
def sparseWidth : SparseTy → Nat
  | .e4m3 | .e5m2 | .i8 => 8
  | .f16 | .bf16 => 16
/-- Rank of an element by magnitude; NaNs rank alike, so that the lower index wins among them, which R245 leaves open (log 105). -/
def sparseRank (t : SparseTy) (v : Nat) : Nat :=
  let fl : Fmt → Nat := fun fm => if (decodeNum fm v).isNan then fm.signBit else v % fm.signBit
  match t with
  | .e4m3 => fl e4m3
  | .e5m2 => fl e5m2
  | .f16 => fl binary16
  | .bf16 => fl bfloat16
  | .i8 => (toSigned 8 v).natAbs

/-- The indices of the two elements to keep, rising: index i is kept when at most one element ranks above it, ties
going to the lower index. -/
def sparseKeep (rs : List Nat) : List Nat :=
  (List.range rs.length).filter fun i =>
    decide (((List.range rs.length).filter fun j =>
      decide (rs.getD i 0 < rs.getD j 0) || (rs.getD i 0 == rs.getD j 0 && decide (j < i))).length < 2)

def execSparsify (x : Lx) (ty : SparseTy) (d a : Reg) (s : State) : Host.Outcome State Fault Refusal :=
  lanePure x [two d, byW (sparseWidth ty == 16) a] (fun _ f => quiet f fun _ l =>
    let w := sparseWidth ty
    let es := packedElems l a.toNat w 4
    let ks := sparseKeep (es.map (sparseRank ty))
    let k0 := ks.getD 0 0
    let k1 := ks.getD 1 0
    (l.setReg d.toNat (packElems w [es.getD k0 0, es.getD k1 0])).setReg (d.toNat + 1) (k0 + 4 * k1)) s

end Sys2Proof.Machine
end

