-- ==== Sys2Proof/Machine/Bellows.lean ====
section
/-! DEFINITION. Islands and their order (R14, R20, Table 1-2), and the grants of Bellows (R15, R16, R494). -/
namespace Sys2Proof.Machine

/-! ### Islands (R14, R20) -/

/-- The groups of islands in the order in which power comes up (R20, Table 1-2). -/
def powerGroups : List (List Nat) :=
  let near : List Nat := (List.range 8).flatMap fun d => [3 * d + 1, 3 * d + 2]
  let core : List Nat := (List.range 8).map fun d => 3 * d
  [[27, 31], [25, 26, 29, 30], [24, 28], near, core]
/-- The islands of the cores, and whether an island is one. -/
def coreIslands : List Nat := powerGroups.getD 4 []
def isCoreIsland (i : Nat) : Bool := decide (i < 24) && i % 3 == 0
/-- The islands always on (R14). -/
def aonIslands : List Nat := [27, 31]
/-- The islands of the near stores. -/
def nearIslands : List Nat := powerGroups.getD 3 []
/-- Whether an island has power. -/
def islandOn (s : State) (i : Nat) : Bool := match s.islands[i]? with | some x => x.powered | none => false
/-- The clock of an island in MHz. -/
def islandClock (s : State) (i : Nat) : Nat := match s.islands[i]? with | some x => x.mhz | none => 0
/-- Give some islands power or take it. -/
def setPower (s : State) (is : List Nat) (on : Bool) : State :=
  { s with islands := is.foldl (fun t i => modAt t i fun x => { x with powered := on }) s.islands }
/-- Floor and peak of a CORE clock, and its step, in MHz (R15). -/
def coreFloor : Nat := 800
def corePeak : Nat := 2400
def coreStep : Nat := 25

/-! ### Bellows (R15, R16, R494) -/

/-- What an island draws at a clock: nothing without power (log 14). -/
def drawAt (s : State) (i f : Nat) : Nat := if islandOn s i then Config.islandPower i f else 0
/-- Clocks of a CORE island from its floor to a demand, in steps. -/
def coreClocks (demand : Nat) : List Nat := (List.range ((demand - coreFloor) / coreStep + 1)).map (coreFloor + coreStep * ·)
/-- The highest clock that fits a grant: the floor if none does. -/
def clockWithin (s : State) (i demand grant : Nat) : Nat :=
  (coreClocks demand).foldl (fun a f => if drawAt s i f ≤ grant then max a f else a) coreFloor
/-- What an island asks for: a clock in MHz, within R15 for a CORE island. -/
def demandOf (s : State) (i : Nat) : Nat :=
  let d := s.dev.demand.getD i (islandClock s i)
  if isCoreIsland i then coreFloor + (min corePeak d - coreFloor) / coreStep * coreStep else d
/-- The grants of R16: every demand when the sum fits under the limit, and otherwise floors, full demands of the other
islands, and the remainder among the CORE islands in proportion to their demand above the floor. -/
def grants (s : State) : List Nat :=
  let want := demandOf s
  let is := List.range 32
  let total := is.foldl (fun a i => a + drawAt s i (want i)) 0
  let limit := s.dev.pwrLimit.toNat
  if total ≤ limit then is.map want
  else
    let base := is.foldl (fun a i => a + drawAt s i (if isCoreIsland i then coreFloor else want i)) 0
    let above := fun i => drawAt s i (want i) - drawAt s i coreFloor
    let sum := max 1 (coreIslands.foldl (fun a i => a + above i) 0)
    is.map fun i =>
      if isCoreIsland i then clockWithin s i (want i) (drawAt s i coreFloor + (limit - base) * above i / sum) else want i

/-- A throttled die's grant is lowered, to which step the specification does not say (R494, log 14). -/
def lowered (s : State) (die f : Nat) : Nat × State :=
  if (s.die die).throttled ∧ coreFloor < f then
    let (k, s) := s.choose ((f - coreFloor) / coreStep)
    (coreFloor + coreStep * k, s)
  else (f, s)
/-- The CORE grants of dies after trips and throttling. -/
def settleCores : List Nat → List Nat → State → List Nat × State
  | [], gs, s => (gs, s)
  | d :: t, gs, s =>
    let f := if s.dev.tripGrants = 0 then gs.getD (3 * d) coreFloor else coreFloor
    let (f, s) := lowered s d f
    settleCores t (setAt gs (3 * d) f) s
/-- Set the clocks of islands. -/
def setClocks (s : State) (gs : List Nat) : State :=
  { s with islands := s.islands.zipIdx.map fun e => { e.1 with mhz := gs.getD e.2 e.1.mhz } }
/-- Ticks between grants. -/
def grantTicks : Nat := 1000
/-- A grant (R16): each island takes its clock for the next microsecond. -/
def grantOnce (s : State) : State :=
  let (gs, s) := settleCores (List.range 8) (grants s) s
  let t := setClocks s gs
  { t with dev := { t.dev with tripGrants := t.dev.tripGrants - 1 } }
/-- Whether further grants change nothing: no trip holds the floors, and no die is throttled. -/
def grantsSteady (s : State) : Bool := s.dev.tripGrants == 0 && !s.dies.any fun e => e.2.throttled

end Sys2Proof.Machine
end

