-- ==== Sys2Proof/Machine/Time.lean ====
section
/-! DEFINITION. The passing of time: TICK, the clocks of cores (R13, R15), counts of cycles (R414), means of clocks
(R417), budget periods (R378) and the Hourglass (R418, R419). -/
namespace Sys2Proof.Machine

/-! ### Clocks (R13, R15) -/

/-- The CORE island of a die (Table 1-2). -/
def coreIsland (s : State) (d : Nat) : Island := (s.islands[3 * d]?).getD ⟨false, 800⟩
/-- Cycles of an island between two ticks: 1 GHz of ticks, a clock in MHz. -/
def cyclesBetween (i : Island) (t u : Nat) : Nat := if i.powered then i.mhz * u / 1000 - i.mhz * t / 1000 else 0

/-! ### Counts of cycles (R414, R418) -/

/-- Contexts with resident work on a core, of warps or of a block whose engines go on, and those of them that have a warp
waiting (Table 16-6). -/
def workOn (s : State) (core : Nat) : List Nat :=
  s.blocks.foldl (fun a e =>
    if occupies core e.2 && (e.2.state == .resident || e.2.state == .part) then insertNat a e.2.ctx else a)
    (s.warps.foldl (fun a e => if holdsRoom core e.2 && e.2.fibres != [] then insertNat a e.2.ctx else a) [])
def waitsOn (s : State) (core : Nat) : List Nat :=
  s.warps.foldl (fun a e => if holdsRoom core e.2 && (e.2.fibres.any fun f => match f.status with
    | .waiting x => x.tabled | _ => false) then insertNat a e.2.ctx else a) []
/-- The banks of a core over n cycles: raw events 0x0001 and 0x000B. -/
def bankCycles (s : State) (core n : Nat) (K : Core) : Core :=
  (workOn s core).foldl (fun K c =>
    let C := s.ctx c
    if !C.counts then K
    else
      let codes := if (waitsOn s core).contains c then [1, 0xB] else [1]
      { K with banks := Tab.put K.banks c (holdCycles C codes n (toCycle C (K.bank c) K.clock.toNat)) }) K

/-- A core after n cycles. -/
def coreCycles (s : State) (core n : Nat) : Core :=
  let K := s.core core
  if n = 0 then K else { bankCycles s core n K with clock := K.clock + BitVec.ofNat 64 n }

/-- Whether a core's Carter is at work: a command of one of its blocks has begun, or a piece of a `cpa` is to land (R261,
R418). -/
def carterBusy (s : State) (core : Nat) : Bool :=
  (s.blocks.any fun e => e.2.core == core && e.2.placed && e.2.carter.cmds.any fun c => c.started && c.fault.isNone)
    || (s.warps.any fun e => e.2.core == core && !e.2.cpas.isEmpty) || (s.core core).tracker.any fun t => t.cpa.isSome
/-- Where the cycles of a die's CORE clock stand among the counts: a slot that no unit has (R418). -/
def hgCycles (d : Nat) : Nat := (d * 64 + 63) * 16
/-- Unit counts of cores over n cycles of their dies: cycles busy, waiting, and of a busy Carter, and the dies' own cycles. -/
def hourCycles (s : State) (n : Nat → Nat) : Tab Nat :=
  let add := fun (t : Tab Nat) (k v : Nat) => if v = 0 then t else Tab.write 0 t k (Tab.read 0 t k + v)
  let t := (List.range 8).foldl (fun t d => add t (hgCycles d) (n d)) s.dev.hgCounts
  s.cores.foldl (fun t e =>
    let t := if workOn s e.1 = [] then t else add t (hgKey e.1 0) (n (dieOf e.1))
    let t := if waitsOn s e.1 = [] then t else add t (hgKey e.1 6) (n (dieOf e.1))
    if carterBusy s e.1 then add t (hgKey e.1 11) (n (dieOf e.1)) else t) t

/-- Means of clocks of a launch over some ticks: lowest clock, clock times ticks, and ticks. -/
def clockMeans (s : State) (dt : Nat) (L : Launch) : Launch :=
  { L with clocks := L.clocks.map fun e =>
      let f := (coreIsland s e.1).mhz
      (e.1, (min e.2.1 f, e.2.2.1 + f * dt, e.2.2.2 + dt)) }
/-- Whether a launch's time runs: from its first start to DONE. -/
def Launch.timed (L : Launch) : Bool :=
  L.clocks != [] && (L.state == .dispatching || L.state == .running || L.state == .completing)

/-- Ticks pass, none of them a multiple that something happens at; TICK counts whatever islands have power (R13, log 94). -/
def passTicks (s : State) (dt : Nat) : State :=
  if dt = 0 then s
  else
    let t := s.tick.toNat
    let n : Nat → Nat := fun d => cyclesBetween (coreIsland s d) t (t + dt)
    let core : Nat → Nat × Core := fun c => (c, coreCycles s c (n (dieOf c)))
    let listed := (List.range Config.cores).filter fun c => (Tab.find s.cores c).isSome || n (dieOf c) != 0
    { s with
      tick := s.tick + BitVec.ofNat 64 dt
      cores := listed.map core
      launches := s.launches.map fun e => if e.2.timed then (e.1, clockMeans s dt e.2) else e
      dev := if s.dev.hgOn then { s.dev with hgCounts := hourCycles s n } else s.dev }

/-! ### Physical rings of the host (R419, R496) -/

/-- Whether bytes of physical memory exist that the device may write for the host: its own memory only while IDE is active
(R396). -/
def physOk (s : State) (a n : Nat) : Bool := n == 0 || (reached s a && reached s (a + n - 1))
/-- Write bytes of a physical address for the device. -/
def putPhys (s : State) (a : Nat) (bs : List Byte) : State := writePhys s none none (wholeBytes a bs)

/-! ### The Hourglass (R418, R419) -/

/-- Places of a core's counts that this model does not count: cycles and events of timing alone (log 34). -/
def openPlaces : List Nat := [5, 7, 12, 13, 14]
/-- A free word. -/
def freeCount (s : State) : Nat × State := let (i, s) := s.fresh; ((Config.freeWord i).toNat, s)
/-- The counts of a unit: those of a core that the model counts, and free values otherwise. -/
def unitCounts (s : State) (d slot : Nat) : Nat → Nat → List Byte × State
  | 0, _ => ([], s)
  | n + 1, place =>
    let (v, s) :=
      if d < 8 ∧ slot < 32 ∧ !openPlaces.contains place then (Tab.read 0 s.dev.hgCounts ((d * 64 + slot) * 16 + place), s)
      else freeCount s
    let (bs, s) := unitCounts s d slot n (place + 1)
    (leBytes 4 v ++ bs, s)
/-- Slots in use on a die. -/
def unitSlots (d : Nat) : Nat := if d < 8 then 35 else 30
/-- Number of a unit: CORE, die, channel, or place among its kind. -/
def unitNumber (d slot : Nat) : Nat :=
  if d < 8 then (if slot < 32 then 32 * d + slot else d)
  else if slot < 24 then 24 * (d - 8) + slot
  else if slot < 25 then d - 8
  else if slot < 29 then 4 * (d - 8) + (slot - 25)
  else 0
/-- Class of a unit: core, L2, mesh, near store, far channel, host link, peer port, Loom. -/
def unitClass (d slot : Nat) : Nat :=
  if d < 8 then (if slot < 32 then 0 else slot - 31)
  else if slot < 24 then 4 else if slot < 25 then 5 else if slot < 29 then 6 else 7
/-- Slots of a record from one on. -/
def slotBytes (s : State) (d : Nat) : Nat → Nat → List Byte × State
  | 0, _ => ([], s)
  | n + 1, slot =>
    if unitSlots d ≤ slot then (List.replicate (64 * (n + 1)) 0, s)
    else
      let (cs, s) := unitCounts s d slot 15 0
      let (bs, s) := slotBytes s d n (slot + 1)
      (leBytes 2 (Config.hgKind (unitClass d slot)).toNat ++ leBytes 2 (unitNumber d slot) ++ cs ++ bs, s)
/-- Clocks of a die's islands in MHz. -/
def dieClocks (s : State) (d : Nat) : List Byte :=
  let first := if d < 8 then 3 * d else 24 + 4 * (d - 8)
  (List.range 4).flatMap fun i =>
    leBytes 2 (if d < 8 ∧ i = 3 then 0 else match s.islands[first + i]? with | some x => (if x.powered then x.mhz else 0) | none => 0)
/-- The record of a die. -/
def dieRecord (s : State) (d : Nat) : List Byte × State :=
  let (bs, t) := slotBytes s d 63 0
  (leBytes 2 0x4847 ++ leBytes 2 d ++ leBytes 4 0 ++ leBytes 8 (s.tick.toNat / 2 ^ s.dev.hgK) ++ dieClocks s d
    ++ leBytes 8 (if d < 8 then Tab.read 0 s.dev.hgCounts (hgCycles d) else 0) ++ List.replicate 32 0 ++ bs, t)
/-- The records of dies in order. -/
def groupRecords : Nat → Nat → State → List Byte × State
  | 0, _, s => ([], s)
  | n + 1, d, s =>
    let (a, s) := dieRecord s d
    let (b, s) := groupRecords n (d + 1) s
    (a ++ b, s)

/-- One latch: a group of records at the place of its interval's number, or a group dropped whole. -/
def latchHour (s : State) : State :=
  let D := s.dev
  let groups := D.hgsize.toNat / 40960
  let clear : State → State := fun s => { s with dev := { s.dev with hgCounts := [] } }
  let a := D.hgbase.toNat + 40960 * (s.tick.toNat / 2 ^ D.hgK % max 1 groups)
  if (D.hghead - D.hgtail).toNat < groups ∧ physOk s a 40960 then
    let (bs, s) := groupRecords 10 0 s
    let s := putPhys s a bs
    clear { s with dev := { s.dev with hghead := s.dev.hghead + 1 } }
  else clear { s with dev := { s.dev with hglost := s.dev.hglost + 1 } }

/-! ### Time -/

/-- Ticks of a budget period (R378). -/
def periodTicks : Nat := 10000
/-- A budget period begins: use counts from 0 again. -/
def newPeriod (s : State) : State :=
  { s with ctxs := s.ctxs.map fun e => (e.1, { e.2 with budgetUse := [] }) }
/-- Ticks from one tick to the next multiple. -/
def toMultiple (t n : Nat) : Nat := n - t % n
/-- Pass latches of the Hourglass, then the ticks that remain. -/
def passLatches (period : Nat) : Nat → Nat → State → State
  | 0, dt, s => passTicks s dt
  | n + 1, dt, s =>
    let d := toMultiple s.tick.toNat period
    if dt < d then passTicks s dt else passLatches period n (dt - d) (latchHour (passTicks s d))
/-- Ticks pass, with the latches that fall at their ticks while the Hourglass is on. -/
def passSpan (s : State) (dt : Nat) : State :=
  if s.dev.hgOn then
    let p := 2 ^ s.dev.hgK
    passLatches p (dt / p + 1) dt s
  else passTicks s dt
/-- Ticks pass, with a grant of Bellows at each microsecond (R16); once grants change nothing more they are passed over. -/
def passGrants : Nat → Nat → State → State
  | 0, dt, s => passSpan s dt
  | n + 1, dt, s =>
    let d := toMultiple s.tick.toNat grantTicks
    if dt < d then passSpan s dt
    else
      let t := passSpan s d
      if grantsSteady t then passSpan (grantOnce t) (dt - d) else passGrants n (dt - d) (grantOnce t)
/-- Time passes: grants and latches fall at their ticks, and a budget period that begins meanwhile begins afresh. TICK counts
whatever islands have power (R13, log 94). -/
def passTime (s : State) (dt : Nat) : State :=
  if dt = 0 then s
  else
    let t := s.tick.toNat
    let u := passGrants (dt / grantTicks + 1) dt s
    if (t + dt) / periodTicks = t / periodTicks then u else newPeriod u

/-- The event of a budget period: time passes to its beginning. -/
def execBudgetPeriod (s : State) : Host.Outcome State Fault Refusal :=
  .next (passTime s (toMultiple s.tick.toNat periodTicks))
/-- The event of a latch: time passes to the tick of the next one. -/
def execHourglassLatch (s : State) : Host.Outcome State Fault Refusal :=
  .next (if s.dev.hgOn then passTime s (toMultiple s.tick.toNat (2 ^ s.dev.hgK)) else s)

end Sys2Proof.Machine
end

