-- ==== Sys2Proof/Machine/LaunchRecords.lean ====
section
/-! DEFINITION. Launch records: their fields (R356 to R358), their check (R359), the segment table (R120), counter
configurations (R415), and the per-launch record (R417). -/
namespace Sys2Proof.Machine

/-! ### Fields (Tables 13-1 to 13-3, 2-2, 4-4) -/

/-- An input tag declaration (Table 13-3). -/
def declOf (bs : List Byte) (a : Nat) : TagDecl :=
  let m := fun i => toSigned 16 (field bs (a + i) 2)
  ⟨field bs a 2, BitVec.ofNat 16 (field bs (a + 2) 2), field bs (a + 4) 4, m 8, m 10, m 12, (field bs (a + 14) 2).testBit 0⟩
/-- The role table of a record (Table 2-2). -/
def rolesOf (bs : List Byte) : List Role :=
  (List.range (min 4 (field bs 0x21 1))).map fun i =>
    let b := fun k => field bs (0x30 + 4 * i + k) 1
    ⟨b 0, b 1, b 2, b 3⟩
/-- NUMCTL's defaults: AGREE 4, CANC 12, no trap (Table 4-4). -/
def numctlDefault : Nat := 0x40C
/-- The fields of a launch record; team size 0 is read as 1, and a NUMCTL of 0 takes the defaults (R112). -/
def recordOf (bs : List Byte) : LaunchRec where
  entry := field bs 0 8
  args := field bs 8 8
  gx := field bs 0x10 4
  gy := field bs 0x14 4
  gz := field bs 0x18 4
  warps := field bs 0x1C 2
  single := (field bs 0x1E 2).testBit 0
  ordered := (field bs 0x1E 2).testBit 1
  fused := (field bs 0x1E 2).testBit 2
  idempotent := (field bs 0x1E 2).testBit 3
  numTraps := (field bs 0x1E 2).testBit 4
  tsoStrict := (field bs 0x1E 2).testBit 5
  merge := field bs 0x1E 2 / 256 % 8
  window := field bs 0x20 1
  roles := rolesOf bs
  localKiB := field bs 0x22 2
  team := max 1 (field bs 0x24 1)
  priority := field bs 0x25 1
  stagger := field bs 0x26 2
  seed := BitVec.ofNat 64 (field bs 0x28 8)
  trapVec := field bs 0x40 8
  numctl := BitVec.ofNat 64 (if field bs 0x48 8 = 0 then numctlDefault else field bs 0x48 8) &&& 0xF3F3F
  recAddr := field bs 0x50 8
  spillBase := field bs 0x58 8
  spillSize := field bs 0x60 4
  spawnTimeout := field bs 0x64 4
  tag0 := declOf bs 0x68
  tag1 := declOf bs 0x78
  outTensor := field bs 0x88 2
  outGen := BitVec.ofNat 16 (field bs 0x8A 2)
  outValid := (field bs 0x8C 2).testBit 0
  succ := field bs 0x90 8
  segPtr := field bs 0x98 8
  ctrPtr := field bs 0xA0 8
  fmStream := field bs 0xA8 8
  tileSlots := field bs 0xB0 1
  abacus := field bs 0xB1 1

/-! ### The check (R359) -/

/-- Whether a value is a code address: bits 1:0 and 63:56 zero. -/
def entryOk (v : Nat) : Bool := v % 4 == 0 && v / 2 ^ 56 == 0
/-- Blocks of a grid. -/
def LaunchRec.blocks (r : LaunchRec) : Nat := r.gx * r.gy * r.gz
/-- Register bytes of the windows of one block. -/
def blockBytes (r : LaunchRec) : Nat :=
  if r.roles = [] then r.warps * r.window * 1536 * 8 else r.roles.foldl (fun a x => a + x.warps * x.window * 1536 * 8) 0
/-- Registers a block may hold in bytes (R35). -/
def blockLimit : Nat := 1572864

/-- The limits of the fields, each with the offset of its field (Tables 13-1 to 13-3, R24, R31 to R33, R39). -/
def recordTests (bs : List Byte) (r : LaunchRec) : List (Nat × Bool) :=
  let mode := field bs 0x1E 2
  let rc := field bs 0x21 1
  let role : Nat × Role → Nat × Bool := fun e =>
    (0x30 + 4 * e.1, decide (1 ≤ e.2.warps) && decide (e.2.warps ≤ 16) && decide (1 ≤ e.2.window) && decide (e.2.window ≤ 8)
      && decide (e.2.kind ≤ 3) && decide (e.2.abacus ≤ 8))
  let sums : Bool := rc == 0 || decide (4 < rc)
    || (r.roles.foldl (fun a x => a + x.warps) 0 == r.warps && decide (r.roles.foldl (fun a x => a + x.abacus) 0 ≤ 8))
  [ (0x00, entryOk r.entry)
  , (0x10, decide (1 ≤ r.gx) && decide (1 ≤ r.gy) && decide (1 ≤ r.gz)
      && decide (r.blocks * (fibreCount (!r.single) * r.warps) ≤ 2 ^ 31))
  , (0x1C, decide (1 ≤ r.warps) && decide (r.warps ≤ 16))
  , (0x1E, mode &&& 0xF8C0 == 0 && decide (r.merge ≤ 4))
  , (0x20, decide (1 ≤ r.window) && decide (r.window ≤ 8))
  , (0x21, decide (rc ≤ 4))
  , (0x22, decide (r.localKiB ≤ 1024))
  , (0x24, decide (r.team ≤ 4) && r.blocks % r.team == 0)
  , (0x25, decide (r.priority ≤ 3))
  , (0x30, sums)
  , (if rc = 0 then 0x20 else 0x30, decide (blockBytes r ≤ blockLimit)) ]
  ++ (r.roles.zipIdx.map fun e => role (e.2, e.1)) ++
  [ (0x40, entryOk r.trapVec)
  , (0x50, r.recAddr % 64 == 0)
  , (0x58, r.spillBase % 4096 == 0)
  , (0x60, r.spillSize % 4096 == 0)
  , (0x76, field bs 0x76 2 / 2 == 0)
  , (0x86, field bs 0x86 2 / 2 == 0)
  , (0x88, field bs 0x8C 2 / 2 == 0 && field bs 0x8E 2 == 0)
  , (0xA8, r.fmStream % 8 == 0)
  , (0xB0, decide (r.tileSlots ≤ 12) && (r.fmStream != 0 || r.tileSlots == 0))
  , (0xB1, rc != 0 || decide (r.abacus ≤ 8)) ]

/-- The lowest offset of a test that fails. -/
def firstBad (ts : List (Nat × Bool)) : Option Nat :=
  ts.foldl (fun a t => if t.2 then a else match a with | some x => some (min x t.1) | none => some t.1) none

/-- The segment registers of a launch (R120): the table that the pointer names, or the defaults of a pointer of 0. -/
def segsOf (s : State) (c : Nat) (r : LaunchRec) : Option (List SegReg) × State :=
  if r.segPtr = 0 then
    (some [⟨0, BitVec.ofNat 64 (2 ^ 48 - 1)⟩, ⟨0, 0⟩, ⟨0, 0⟩, ⟨0, 0⟩, ⟨0, 4096⟩, ⟨0, 0⟩, ⟨0, 0⟩, ⟨0, 0⟩], s)
  else
    match structRead s c r.segPtr 128 with
    | (.error _, s) => (none, s)
    | (.ok bs, s) => (some ((List.range 8).map fun i =>
        ⟨BitVec.ofNat 64 (field bs (16 * i) 8), BitVec.ofNat 64 (field bs (16 * i + 8) 8)⟩), s)

/-- The check of a record: the offset of its first failing field, or its segment registers. -/
def checkRecord (s : State) (c : Nat) (bs : List Byte) (r : LaunchRec) : Except Nat (List SegReg) × State :=
  let ts := recordTests bs r
  match segsOf s c r with
  | (none, s) => (.error ((firstBad ((0x98, false) :: ts)).getD 0x98), s)
  | (some g, s) => (match firstBad ts with | some o => .error o | none => .ok g, s)

/-! ### Counter configuration (R414, R415) -/

/-- Raw events that Table 16-6 lists. -/
def rawEvents : List Nat :=
  (List.range 11).map (· + 1) ++ (List.range 5).map (· + 0x10) ++ (List.range 4).map (· + 0x20)
  ++ (List.range 5).map (· + 0x30) ++ (List.range 4).map (· + 0x40) ++ (List.range 6).map (· + 0x50)
/-- Whether a selector's code is assigned. -/
def selectorOk (v : Nat) : Bool := v == 0 || rawEvents.contains v || (decide (0x100 ≤ v) && decide (v ≤ 0x10F))
/-- The fields of a Sieve definition (Table 16-7). -/
def sieveOf (bs : List Byte) (a : Nat) : Sieve :=
  ⟨field bs a 1, field bs (a + 1) 1, field bs (a + 2) 2, field bs (a + 4) 2, field bs (a + 8) 4, field bs (a + 12) 2⟩
/-- Whether a definition holds no reserved code or bit, and its histogram ends by counter 63. -/
def sieveOk (bs : List Byte) (a : Nat) : Bool :=
  let v := sieveOf bs a
  let raw : Nat → Bool := fun k => k == 0 || rawEvents.contains k
  decide (v.op ≤ 4) && field bs (a + 6) 2 == 0 && field bs (a + 14) 2 == 0
    && (v.op == 0 || (raw v.a && raw v.b)) && (v.op != 4 || decide (v.dest ≤ 56))
/-- The banks of a context on every core count from 0 again, from each core's present cycle on (R415). -/
def newBanks (s : State) (c : Nat) : State :=
  (List.range Config.cores).foldl (fun s k =>
    s.modCore k fun K => { K with banks := Tab.put K.banks c (Bank.zero K.clock.toNat) }) s
/-- Load a counter configuration into a context's banks, from where the counts restart at 0; none where it is not
loaded. -/
def loadCounters (s : State) (c a : Nat) : Option State × State :=
  match structRead s c a 384 with
  | (.error _, s) => (none, s)
  | (.ok bs, s) =>
    let sel := (List.range 64).map fun i => field bs (2 * i) 2
    let offs := (List.range 16).map fun i => 0x80 + 16 * i
    if sel.all selectorOk && offs.all (sieveOk bs) then
      (some (newBanks (s.modCtx c fun C => { C with selectors := sel, sieves := offs.map (sieveOf bs) }) c), s)
    else (none, s)

/-- Raw events whose counts are of timing alone, which this model leaves open (log 34). -/
def openEvents : List Nat := [0x7, 0x8, 0xA, 0x10, 0x11, 0x12, 0x13, 0x14, 0x54, 0x55]
/-- Whether a counter's value is open. -/
def openCounter (C : Ctx) (i : Nat) : Bool :=
  let sel := C.selectors.getD i 0
  let openSieve : Sieve → Bool := fun v => v.op != 0 && (openEvents.contains v.a || (v.op == 1 && openEvents.contains v.b))
  if histOwns C.sieves i then
    C.sieves.any fun v => v.op == 4 && decide (v.dest ≤ i) && decide (i < v.dest + 8) && openSieve v
  else openEvents.contains sel || (decide (0x100 ≤ sel) && (match C.sieves[sel - 0x100]? with | some v => openSieve v | none => false))
/-- The events of an open counter since its last latch, whose number is left open, are counted on core 0 (log 34). -/
def countOpen (s : State) (c i : Nat) : State :=
  if openCounter (s.ctx c) i then
    let (k, s) := s.fresh
    s.modCore 0 fun K => { K with banks := Tab.put K.banks c { K.bank c with
      counters := bumpOne (K.bank c).counters i (Config.freeWord k).toNat } }
  else s
/-- A context's counters summed over all cores (R417). -/
def latchCounters (s : State) (c : Nat) : Nat → Nat → List Double × State
  | 0, _ => ([], s)
  | n + 1, i =>
    let C := s.ctx c
    let s := countOpen s c i
    let v : Double := s.cores.foldl (fun a e => a + Tab.read 0 (toCycle C (e.2.bank c) e.2.clock.toNat).counters i) 0
    let (vs, s) := latchCounters s c n (i + 1)
    (v :: vs, s)

/-! ### The per-launch record (R417, Table 16-8) -/

/-- Write parts of a launch's record: a part that faults is not made, and the context takes a context fault with the
address of the first such (log 40). -/
def writeLaunchParts (l : Nat) : Bool → List (Nat × List Byte) → State → State
  | _, [], s => s
  | told, (a, bs) :: t, s =>
    let L := s.launch l
    match structWrite s L.ctx (L.lrec.recAddr + a) bs with
    | (.ok s, _) => writeLaunchParts l told t s
    | (.error e, s) =>
      writeLaunchParts l true t (if told then s
        else ctxFault s L.ctx Config.noCore.toNat (some l) e.1 0x50 (L.lrec.recAddr + a)
          ⟨L.lrec.entry, 0, L.addr, 0xFFFFFFFF, 0xFFFF, 0⟩ none)
/-- Write a launch's record where it has one. -/
def writeLaunch (s : State) (l : Nat) (parts : Launch → List (Nat × List Byte)) : State :=
  let L := s.launch l
  if L.lrec.recAddr = 0 then s else writeLaunchParts l false (parts L) s
/-- STATUS and REASON. -/
def statusPart (L : Launch) : Nat × List Byte := (0, leBytes 4 L.status.toNat ++ leBytes 2 L.reason ++ leBytes 2 0)
/-- Counters as bytes. -/
def counterBytes (vs : List Double) : List Byte := vs.flatMap fun v => leBytes 8 v.toNat
/-- The start part. -/
def startParts (L : Launch) : List (Nat × List Byte) :=
  [(8, leBytes 8 L.tickStart.toNat), (0x100, counterBytes L.startCounts)]
/-- A fault record (offset 0x040). -/
def faultPart (r : Option FaultRec) : List Byte :=
  match r with
  | none => List.replicate 64 0
  | some r => leBytes 2 r.code ++ leBytes 2 ((if r.imprecise then 1 else 0) + (if r.exited then 2 else 0)) ++ leBytes 4 r.slot
      ++ r.name.bytes ++ leBytes 8 r.addr ++ List.replicate 16 0
/-- Lowest and mean clocks of the compute dies. -/
def clockPart (L : Launch) : List Byte :=
  (List.range 8).flatMap fun d =>
    let e := (Tab.find L.clocks d).getD (0, 0, 0)
    leBytes 2 e.1 ++ leBytes 2 (if e.2.2 = 0 then e.1 else e.2.1 / e.2.2)
/-- The parts written at DONE. -/
def doneParts (L : Launch) : List (Nat × List Byte) :=
  [ statusPart L
  , (0x10, leBytes 8 L.tickDone.toNat ++ leBytes 8 0 ++ clockPart L ++ faultPart L.faultRec
      ++ leBytes 4 L.coarse ++ leBytes 4 L.serial ++ leBytes 4 L.hallCount ++ leBytes 4 L.ringHigh ++ List.replicate 112 0)
  , (0x300, counterBytes L.doneCounts) ]

/-! ### Taking a record (R360, R362, R487, R492) -/

def codeLaunchRefused : Nat := 0x0604
/-- A name of no work: a launch's record alone. -/
def launchName (entry addr : Nat) : Name := ⟨entry, 0, addr, 0xFFFFFFFF, 0xFFFF, 0⟩

/-- A record or template is refused (R359, R492). -/
def refuseLaunch (s : State) (l detail : Nat) : State :=
  let L := s.launch l
  let s := s.modLaunch l fun L => { L with status := L.status ||| 2, reason := codeLaunchRefused }
  let s := writeLaunch s l fun L => [statusPart L]
  let s := trace s L.ctx Config.noCore.toNat 0 (launchName L.lrec.entry L.addr) (leBytes 2 (Config.launchStateCode false).toNat)
  setEvent (ctxFault s L.ctx Config.noCore.toNat none codeLaunchRefused detail L.addr (launchName L.lrec.entry L.addr) none) L.ctx 4

/-- A record arrives: the key of its launch, checked and dispatching, a template, or refused (R362, R42). A template's
tasks hold no ticket (R385). -/
def arrive (s : State) (c a : Nat) (bs : List Byte) (template : Bool) : Nat × State :=
  let (l, s) := s.stamp
  let r := recordOf bs
  let put : LaunchRec → List SegReg → LaunchState → State → State := fun r g st s => s.setLaunch l (Launch.fresh c a r g st l)
  match checkRecord s c bs r with
  | (.error o, s) => (l, refuseLaunch (put r [] .refused s) l o)
  | (.ok g, s) =>
    if template then (l, put { r with ordered := false } g .template s)
    else
      let s := put r g .dispatching s
      if r.ctrPtr = 0 then (l, s)
      else
        match loadCounters s c r.ctrPtr with
        | (some t, _) => (l, t)
        | (none, s) => (l, s.modLaunch l fun L => { L with status := L.status ||| 4 })

def codeQueue : Nat := 0x0605

/-- Take up to n records of a context's launch queue. -/
def takeRecords (c : Nat) : Nat → State → State
  | 0, s => s
  | n + 1, s =>
    let C := s.ctx c
    if C.lqread = C.notify || C.state != .running || C.stopping then s
    else
      let slot := C.lqbase.toNat + 256 * (C.lqread.toNat % max 1 C.lqsize.toNat)
      match structRead s c slot 256 with
      | (.error _, s) => ctxFault s c Config.noCore.toNat none codeQueue 1 slot (launchName 0 slot) none
      | (.ok bs, s) => takeRecords c n (arrive (s.modCtx c fun C => { C with lqread := C.lqread + 1 }) c slot bs false).2

/-- The event of the Loom taking records up to the notified index (R360, R400). -/
def execLaunchTake (c : Nat) (s : State) : Host.Outcome State Fault Refusal :=
  let C := s.ctx c
  if !C.notified || C.state != .running || C.stopping || C.fault.isSome then .next s
  else
    let n := (C.notify - C.lqread).toNat
    let s := s.modCtx c fun C => { C with notified := false }
    if C.lqsize.toNat < n then .next (ctxFault s c Config.noCore.toNat none codeQueue 0 C.notify.toNat (launchName 0 0) none)
    else
      let s := takeRecords c n s
      .next (s.modCtx c fun C => { C with notified := C.lqread != C.notify })

end Sys2Proof.Machine
end

