-- ==== Sys2Proof/Machine/Loom.lean ====
section
/-! DEFINITION. What the Loom may start (R363, R364, R366, R369 to R372): blocks that leave PENDING and HELD, templates and
tasks (R41, R42), room on cores and clusters (R365, R366, R374, R381), and restores. -/
namespace Sys2Proof.Machine

/-! ### Input declarations (R358, R370) -/

/-- The tile that a declaration names for a block (R358). -/
def tileOf (d : TagDecl) (B : Block) : Nat :=
  ((d.base + d.mx * B.x.toNat + d.my * B.y.toNat + d.mz * B.z.toNat : Int) % (2 ^ 32 : Int)).toNat
/-- What the declarations of a block come to. -/
inductive DeclState where
  | ready | wait
  | stale (n t i : Nat) (g : BitVec 16)
deriving DecidableEq, Repr
/-- The check of one declaration. -/
def declState (C : Ctx) (n : Nat) (d : TagDecl) (B : Block) : DeclState :=
  if d.valid then
    match tagCheck C d.tensor (tileOf d B) d.gen with
    | .satisfied => .ready
    | .unsatisfied => .wait
    | .stale g => .stale n d.tensor (tileOf d B) g
  else .ready
/-- The check of both declarations: a stale one decides, the first of two. -/
def declsOf (C : Ctx) (L : LaunchRec) (B : Block) : DeclState :=
  match declState C 0 L.tag0 B, declState C 1 L.tag1 B with
  | .stale n t i g, _ => .stale n t i g
  | _, .stale n t i g => .stale n t i g
  | .ready, .ready => .ready
  | _, _ => .wait

def codeStaleTag : Nat := 0x0601
/-- STALE_TAG (R492): the block or task that it prevents is named. -/
def staleTag (s : State) (l lin entry n t i : Nat) (g : BitVec 16) : State :=
  let L := s.launch l
  ctxFault s L.ctx Config.noCore.toNat (some l) codeStaleTag n (t + 65536 * g.toNat + 2 ^ 32 * i)
    ⟨entry, 0, L.addr, lin % 2 ^ 32, 0xFFFF, 0⟩ none

/-- Check a block that has not started (R370, R372): in serial fallback only the end of earlier launches, or its
declarations' being satisfied, lets it go. -/
def checkBlock (s : State) (b : Nat) : State :=
  let B := s.blk b
  let L := s.launch B.launch
  let put : BlockState → State → State := fun x s => s.modBlk b fun B => { B with state := x }
  match declsOf (s.ctx B.ctx) L.lrec B with
  | .ready => put .ready s
  | .wait => put (if inSerial s B.ctx && earlierDone s B.ctx B.arrival then .ready else .held) s
  | .stale n t i g =>
    if inSerial s B.ctx then put (if earlierDone s B.ctx B.arrival then .ready else .held) s
    else staleTag (put .stale s) B.launch B.lin L.lrec.entry n t i g

/-! ### Teams (R39, R366) -/

/-- Blocks of a team, in ascending TEAM number. -/
def teamBlocks (s : State) (l t : Nat) : List Nat :=
  (s.blocks.foldl (fun a e => if e.2.launch == l && e.2.team == t then insertKey e.2.pos e.1 a else a) []).map (·.2)
/-- Whether a block waits to be placed. -/
def unplaced (B : Block) : Bool := B.state == .ready && !B.placed
/-- Whether a block has not started. -/
def unstarted (B : Block) : Bool := B.state == .pending || B.state == .held || B.state == .ready || B.state == .stale
/-- Whether a team is there whole. -/
def wholeTeam (s : State) (B : Block) : Bool := (teamBlocks s B.launch B.team).length == B.teamSize
/-- Whether a block's team is on its way to another cluster: no member of it is given room meanwhile, since a team is always in
one cluster (R147). -/
def teamMoves (s : State) (B : Block) : Bool := (teamBlocks s B.launch B.team).any fun m => (s.blk m).state == .migrating
/-- Whether a READY block may be given room: its whole team is READY or has started, and in an ordered launch so has every
lower block (R315, R366). -/
def mayStart (s : State) (B : Block) : Bool :=
  unplaced B && !B.halted && wholeTeam s B && !teamMoves s B
    && ((teamBlocks s B.launch B.team).all fun m => let M := s.blk m; M.state == .ready || !unstarted M)
    && (!(s.launch B.launch).lrec.ordered || s.blocks.all fun e =>
      e.2.launch != B.launch || e.2.team == B.team || decide (B.lin < e.2.lin) || !(unstarted e.2 && !e.2.placed))

/-! ### Leaving PENDING (R366) -/

/-- HELD blocks of a launch at most (R366). -/
def heldLimit : Nat := 64
def heldBlocks (s : State) (l : Nat) : List Nat :=
  (s.blocks.filter fun e => e.2.launch == l && e.2.state == .held).map (·.1)
/-- Whether a launch has a whole team to start, or, being ordered, one that waits its turn: no further block leaves
PENDING before (log 35). -/
def teamWaits (s : State) (l : Nat) : Bool :=
  s.blocks.any fun e => e.2.launch == l && unstarted e.2 && !e.2.placed && e.2.task.isNone && wholeTeam s e.2
    && (e.2.state == .ready && mayStart s e.2 || (s.launch l).lrec.ordered)
/-- The next block of a launch leaves PENDING. -/
def makeBlock (s : State) (l : Nat) : State :=
  let L := s.launch l
  let lin := L.nextBlk
  let (b, s) := s.stamp
  let pos := lin % L.lrec.team
  let team := match s.blocks.find? fun e => e.2.launch == l && e.2.task.isNone && e.2.lin + pos == lin with
    | some e => e.1
    | none => b
  let w : Nat → Word := BitVec.ofNat 32
  let B := newBlock L l lin (w (lin % L.lrec.gx)) (w (lin / L.lrec.gx % L.lrec.gy)) (w (lin / (L.lrec.gx * L.lrec.gy))) none
    (if pos = 0 then b else team) pos L.lrec.team L.arrival
  checkBlock ((s.setBlk b B).modLaunch l fun L => { L with nextBlk := lin + 1 }) b
/-- Blocks leave PENDING while they may. -/
def leavePending (l : Nat) : Nat → State → State
  | 0, s => s
  | n + 1, s =>
    let L := s.launch l
    if decide (L.nextBlk < L.lrec.blocks) && decide ((heldBlocks s l).length < heldLimit) && !teamWaits s l && ctxRuns s L.ctx
    then leavePending l n (makeBlock s l)
    else s
/-- Check a launch's HELD blocks again, and let further blocks leave PENDING. -/
def dispatchLaunch (s : State) (l : Nat) : State :=
  let L := s.launch l
  if !ctxRuns s L.ctx then s
  else
    let s := (heldBlocks s l).foldl (fun s b => if ctxRuns s L.ctx then checkBlock s b else s) s
    if L.state = .dispatching then leavePending l (heldLimit + 8) s else s

/-! ### Tasks (R41, R42, R44, R492) -/

/-- R42: whether a task record can run under a template. -/
def taskOk (L : LaunchRec) (t : Task) : Bool :=
  t.flags / 2 == 0 && decide (t.priority ≤ 3) && decide (1 ≤ t.warps) && decide (t.warps ≤ 16)
    && (t.mask == 0 || ((L.roles.zipIdx.filter fun e => t.mask.testBit e.2).foldl (fun a e => a + e.1.warps) 0) == t.warps)
/-- The block linear index of a task (R24, R42); of coordinates beyond the template's grid too, whose TIDs take 32 bits of
what results (log 91). -/
def taskLin (L : LaunchRec) (t : Task) : Nat := t.x.toNat + L.gx * (t.y.toNat + L.gy * t.z.toNat)
/-- Whether a TAGGED task names a generation that has gone by. -/
def taskStale (s : State) (c : Nat) (t : Task) : Option (BitVec 16) :=
  if t.flags.testBit 0 && !inSerial s c then
    match tagCheck (s.ctx c) t.tensor t.tile t.gen with | .stale g => some g | _ => none
  else none
/-- Take the template of a queue that holds its first task (R42, R359). -/
def takeTemplate (s : State) (c q : Nat) : State :=
  match queueEntry s c q with
  | (.error e, s) => ctxFault s c Config.noCore.toNat none codeTask e.1 e.2 (launchName 0 0) none
  | (.ok ent, s) =>
    match structRead s c ent.template 256 with
    | (.error e, s) => ctxFault s c Config.noCore.toNat none codeTask e.1 e.2 (launchName 0 ent.template) none
    | (.ok bs, s) =>
      let (l, s) := arrive s c ent.template bs true
      s.modCtx c fun C => { C with queues := Tab.put C.queues q { C.queue q with template := some l } }
/-- Drop the tasks of a queue that are invalid or stale, each with its fault. -/
def sortTasks (s : State) (c l : Nat) (ts : List Task) : State :=
  ts.foldl (fun s t =>
    let L := (s.launch l).lrec
    if !ctxRuns s c then s
    else
      match taskStale s c t with
      | some g => staleTag (dropTask s c t) l (taskLin L t) t.entry 2 t.tensor t.tile g
      | none =>
        if taskReady s c t && !taskOk L t then
          ctxFault (dropTask s c t) c Config.noCore.toNat (some l) codeTask 1 t.slot ⟨t.entry, 0, (s.launch l).addr, taskLin L t % 2 ^ 32, 0xFFFF, 0⟩ none
        else s) s
/-- Whether the Loom has a task of a queue to take: one that may start, or that is stale. -/
def takesTask (s : State) (c q : Nat) : Bool :=
  (nextTask s c q).isSome || ((s.ctx c).queue q).tasks.any fun t => (taskStale s c t).isSome
/-- Look through the queues of a context. -/
def dispatchTasks (s : State) (c : Nat) : State :=
  (s.ctx c).queues.foldl (fun s e =>
    if !ctxRuns s c || !takesTask s c e.1 then s
    else
      let s := if e.2.template.isNone then takeTemplate s c e.1 else s
      match ((s.ctx c).queue e.1).template with
      | some l => if (s.launch l).state = .template then sortTasks s c l e.2.tasks else s
      | none => s) s

/-- Everything that may become READY does. -/
def dispatchAll (s : State) : State :=
  let s := s.launches.foldl (fun s e => dispatchLaunch s e.1) s
  s.ctxs.foldl (fun s e => dispatchTasks s e.1) s

/-! ### Room (R365, R366) -/

/-- The core of a list with the most free register bytes, the first of equals, among those with room for a block. -/
def bestCore (s : State) (B : Block) (windows cores : List Nat) : Option (Nat × List Nat) :=
  (cores.foldl (fun (a : Option (Nat × Nat × List Nat)) c =>
    match blockRoom s B windows c with
    | none => a
    | some qs =>
      let f := coreFree s c
      match a with
      | some (m, _) => if m < f then some (f, c, qs) else a
      | none => some (f, c, qs)) none).map (·.2)
/-- Windows of a block's warps: as made, or as they stand, the pool counting with the first (R35, log 32). -/
def windowsOf (s : State) (b : Nat) : List Nat :=
  let B := s.blk b
  match warpsOf s b with
  | [] => (warpSpecs (s.launch B.launch).lrec B.task).map (·.window)
  | w :: t => ((s.warp w).window + B.pool) :: t.map fun v => (s.warp v).window

/-- Put a new block on a core: its warps hold their room from now on. -/
def placeOn (s : State) (b core : Nat) (qs : List Nat) : State :=
  let L := s.launch (s.blk b).launch
  let t := s.modBlk b fun B => { B with core := core, placed := true }
  let B := t.blk b
  let t := ((warpSpecs L.lrec B.task).zip qs).zipIdx.foldl (fun t e =>
    let (w, t) := t.stamp
    seatWarp (t.setWarp w (newWarp L b B e.1.1 e.2 core e.1.2)) w) t
  refuse s core t
/-- Put a block on the best core of some: a new one, or a saved one. -/
def seatBlock (s : State) (cores : List Nat) (b : Nat) : Option (Nat × State) :=
  (bestCore s (s.blk b) (windowsOf s b) cores).bind fun (c, qs) =>
    (if (s.blk b).state = .saved then restoreBlock s b c qs else some (placeOn s b c qs)).map fun t => (c, t)
/-- Put blocks on distinct cores of some. -/
def seatBlocks : List Nat → List Nat → State → Option State
  | [], _, s => some s
  | b :: t, cores, s =>
    match seatBlock s cores b with
    | none => none
    | some (c, s) => seatBlocks t (cores.filter (· != c)) s
/-- The clusters whose cores all stand in a list, those with the most free register bytes first. -/
def clustersIn (s : State) (cores : List Nat) : List Nat :=
  let free := fun cl => (coresOfCluster cl).foldl (fun a c => a + coreFree s c) 0
  let cls := (List.range Config.clusters).filter fun cl => (coresOfCluster cl).all cores.contains
  (cls.foldl (fun a cl => insertKey (2 ^ 40 - free cl) cl a) []).map (·.2)
/-- Put a whole team on the first cluster where it fits (R366). -/
def seatTeam (s : State) (cores : List Nat) (bs : List Nat) : Option State :=
  (clustersIn s cores).findSome? fun cl => seatBlocks bs (coresOfCluster cl) s

/-- Blocks of a team that stand on cores. -/
def seatedMembers (s : State) (B : Block) : List Nat :=
  (teamBlocks s B.launch B.team).filter fun m => occupies (s.blk m).core (s.blk m)
/-- Cores of a list in a cluster that no member of a team holds. -/
def teamCores (s : State) (B : Block) (cl : Nat) (cores : List Nat) : List Nat :=
  let taken := (seatedMembers s B).map fun m => (s.blk m).core
  cores.filter fun c => clusterOf c == cl && !taken.contains c
/-- Whether a launch's stagger lets a start go on the die of a core (R367). -/
def staggerOver (s : State) (l core : Nat) : Bool :=
  let L := s.launch l
  match Tab.find L.lastStart (dieOf core) with
  | some t => decide (t + L.lrec.stagger ≤ s.clock (32 * dieOf core))
  | none => true
/-- Cores of dies on which a launch's stagger lets a start go. -/
def staggered (s : State) (l : Nat) (cores : List Nat) : List Nat := cores.filter (staggerOver s l)

/-! ### Candidates (R364) -/

/-- What the Loom may start. -/
inductive Cand where
  /-- a saved block, or its whole team on another cluster -/
  | saved (b : Nat)
  /-- a saved warp of a block that is there in part, or a saved spawned warp -/
  | savedWarp (w : Nat)
  /-- children gathered in a core's Shuttle -/
  | spawned (core : Nat) (cs : List Child)
  /-- a READY block with its team -/
  | block (b : Nat)
  | task (c q : Nat) (t : Task)
deriving DecidableEq, Repr

/-- Whether a saved block may be restored: what was held of it can be performed (R476). -/
def mayRestore (s : State) (b : Nat) : Bool :=
  let B := s.blk b
  B.state == .saved && !B.halted && B.faults == [] && ctxRuns s B.ctx && !teamMoves s B && (restoreBlock s b B.core []).isSome
/-- Whether a saved warp has anything to go on with, and what was held of it can be performed. -/
def mayReturn (s : State) (w : Nat) : Bool :=
  let W := s.warp w
  W.residence == .saved && !W.halted && W.faults == [] && ctxRuns s W.ctx
    && (match W.blk with | some b => (s.blk b).state == .part && !(s.blk b).halted && !ownerFaulted s (.blk b) | none => true)
    && (W.fibres == [] || W.queue != [] || W.fibres.any (fibreGoes s w W)) && (restoreWarp s w W.core W.quarter).isSome

/-- Priority of a warp's work. -/
def warpPriority (s : State) (W : Warp) : Nat :=
  match W.blk with | some b => (s.blk b).priority | none => (s.launch W.launch).lrec.priority
/-- Context, priority, class and age of a candidate: restores, then spawned warps, then blocks and tasks by arrival, a
launch's blocks in ascending linear index (R364). -/
def Cand.rank (s : State) : Cand → Nat × Nat × Nat × Nat × Nat
  | .saved b => let B := s.blk b; (B.ctx, B.priority, 0, B.arrival, B.lin)
  | .savedWarp w => let W := s.warp w; (W.ctx, warpPriority s W, 0, (s.launch W.launch).arrival, w)
  | .spawned core cs =>
    let l := match cs with | c :: _ => c.launch | [] => 0
    ((s.launch l).ctx, (s.launch l).lrec.priority, 1, (s.launch l).arrival, core)
  | .block b => let B := s.blk b; (B.ctx, B.priority, 2, B.arrival, B.lin)
  | .task c _ t => (c, t.priority, 2, t.arrival, 0)
/-- The rank as one number, the first served lowest: contexts within their guarantee of dispatch come before the others
(R379). -/
def Cand.order (s : State) (x : Cand) : Nat :=
  let r := x.rank s
  let beyond := if inGuarantee s r.1 .loom 0 then 0 else 1
  (((beyond * 4 + (3 - min 3 r.2.1)) * 4 + r.2.2.1) * 2 ^ 64 + r.2.2.2.1) * 2 ^ 64 + r.2.2.2.2

/-- Whether a context takes part in choices (R364, R379): one that is halted whole does not (R412). -/
def loomOpen (s : State) (c : Nat) : Bool := ctxRuns s c && !(s.ctx c).halted && !atCap s c .loom 0

/-- One READY block for each team that may start, its first. -/
def startable (s : State) : List Nat :=
  (s.blocks.filter fun e => mayStart s e.2 && (match (teamBlocks s e.2.launch e.2.team).find? fun m => unplaced (s.blk m) with
    | some m => m == e.1
    | none => false)).map (·.1)
/-- Children that may issue from a core's Shuttle: full warps, and those that have timed out. -/
def shuttleCands (s : State) (core : Nat) : List Cand :=
  (((s.core core).shuttle.foldl (fun (a : List (Nat × VAddr)) x =>
    if a.contains (x.launch, x.entry) then a else a ++ [(x.launch, x.entry)]) []).filterMap fun k =>
      gathered s core true fun x => x.launch == k.1 && x.entry == k.2).map (.spawned core)
/-- The candidates, in the order in which the Loom serves them. -/
def candidates (s : State) : List Cand :=
  let all : List Cand :=
    (s.blocks.filter fun e => mayRestore s e.1).map (fun e => .saved e.1)
    ++ (s.warps.filter fun e => mayReturn s e.1).map (fun e => .savedWarp e.1)
    ++ s.cores.flatMap (fun e => shuttleCands s e.1)
    ++ (startable s).map .block
    ++ s.ctxs.flatMap fun e => e.2.queues.filterMap fun q =>
        match q.2.template with
        | some l => if (s.launch l).state = .template then (nextTask s e.1 q.1).map (.task e.1 q.1) else none
        | none => none
  ((all.filter fun x => loomOpen s (x.rank s).1).foldl (fun (a : List (Nat × Cand)) x => 
    let k := x.order s
    let (p, q) := a.span fun e => decide (e.1 ≤ k)
    p ++ (k, x) :: q) []).map (·.2)

/-! ### Placement (R365, R366, R374, R381) -/

/-- Cores on whose die the Loom may start something now (R364). -/
def startCores (s : State) (cores : List Nat) : List Nat := cores.filter (loomGap s)
/-- A restore is a start of the Loom on the die where the block or team then stands (R364). -/
def restored (b : Nat) (s : State) : State := loomStart s (s.blk b).core
/-- Give a candidate room among some cores, if they have it. What a restore or a gathered warp starts, it starts at once, at
the Loom's rate; a block that is given room starts later (BLOCK_START). -/
def Cand.place (s : State) (cores : List Nat) : Cand → Option State
  | .saved b =>
    let cores := startCores s cores
    let B := s.blk b
    let home := match seatedMembers s B with | m :: _ => (s.blk m).core | [] => B.core
    match seatBlock s (teamCores s B (clusterOf home) cores) b with
    | some (_, t) => some (restored b t)
    | none =>
      let live := (teamBlocks s B.launch B.team).filter fun m => (s.blk m).state != .retired
      if live.all (mayRestore s) then
        (if live.length = 1 then (seatBlock s cores b).map (·.2) else seatTeam s cores live).map (restored b)
      else none
  | .savedWarp w =>
    let W := s.warp w
    if (startCores s cores).contains W.core then
      (warpRoom s W.window W.core).bind fun q => (restoreWarp s w W.core q).map fun t => loomStart t W.core
    else none
  | .spawned core cs =>
    match cs with
    | [] => none
    | c :: _ =>
      let cores := startCores s cores
      let window := 8 * (s.launch c.launch).lrec.window
      let near := if cores.contains core ∧ (warpRoom s window core).isSome then some core else
        ((cores.filter fun k => dieOf k == dieOf core).foldl (fun (a : Option (Nat × Nat)) k =>
          if (warpRoom s window k).isNone then a
          else match a with
            | some (m, _) => if m < coreFree s k then some (coreFree s k, k) else a
            | none => some (coreFree s k, k)) none).map (·.2)
      near.bind fun k => (issueSpawned s core k cs).map fun t => loomStart t k
  | .block b =>
    let B := s.blk b
    let cores := staggered s B.launch cores
    let ms := (teamBlocks s B.launch B.team).filter fun m => unplaced (s.blk m)
    let done := fun (t : State) => charge t B.ctx .loom 0 1
    match seatedMembers s B with
    | m :: _ => (seatBlock s (teamCores s B (clusterOf (s.blk m).core) cores) b).map fun x => done x.2
    | [] =>
      if B.teamSize = 1 then (seatBlock s cores b).map fun x => done x.2
      else (seatTeam s cores ms).map done
  | .task c q t =>
    match ((s.ctx c).queue q).template with
    | none => none
    | some l =>
      let L := s.launch l
      let (b, u) := s.stamp
      let u := (dropTask u c t).setBlk b (newBlock L l (taskLin L.lrec t) t.x t.y t.z (some t) b 0 1 t.arrival)
      (seatBlock u (staggered u l cores) b).map fun x =>
        match structRead s c t.slot 64 with
        | (.ok _, _) => charge x.2 c .loom 0 1
        | (.error e, u) =>
          ctxFault (dropTask u c t) c Config.noCore.toNat none codeTask e.1 e.2
            ⟨t.entry, 0, L.addr, taskLin L.lrec t % 2 ^ 32, 0xFFFF, 0⟩ none

/-- Cores of the module. -/
def allCores : List Nat := List.range Config.cores

end Sys2Proof.Machine
end

