-- ==== Sys2Proof/Machine/Preempt.lean ====
section
/-! DEFINITION. Pre-emption (R49, R380, R381, R483, R485), the Loom's choice (R364) and the start of blocks (R118, R417). -/
namespace Sys2Proof.Machine

/-! ### Victims (R380) -/

/-- A victim: a warp, or with it its whole block. -/
structure Victim where
  whole : Bool
  warp : Nat
deriving DecidableEq, Repr

/-- Whether every fibre of a warp waits in `jwait`: a fibre that is parked at a reconvergence entry does not, and so holds its
warp there, which R49 leaves open (log 95). -/
def allJoin (W : Warp) : Bool :=
  W.fibres.all fun f => match f.status with
    | .waiting x => (match x.why with | .join _ => true | _ => false)
    | _ => false
/-- Whether every fibre of a warp waits in `jwait`, a pop, a `claim`, a barrier or `tlwait`. -/
def allWait (W : Warp) : Bool :=
  W.fibres.all fun f => match f.status with
    | .waiting x => (match x.why with
      | .join _ | .ringToken _ | .pool _ | .barrier _ _ | .teamPhase _ | .timeline _ _ => true
      | _ => false)
    | _ => false
/-- Whether a candidate may push a warp out: work of lower priority, or for children a warp that waits for its own
(R49). -/
def mayEvict (s : State) (x : Cand) (W : Warp) : Bool :=
  decide (warpPriority s W < (x.rank s).2.1)
    || (match x with | .spawned _ _ => allJoin W | _ => false)
/-- Place of a warp in the order of eviction: waiting ones, the lowest priority, the latest started (R380). -/
def evictOrder (s : State) (W : Warp) : Nat :=
  ((if allWait W then 0 else 1) * 4 + warpPriority s W) * 2 ^ 64 + (2 ^ 64 - 1 - W.started)
/-- The first warp of some cores that a candidate would push out, with its whole block or alone: a block that is there in part
does not go to SAVED so (Table 13-6). -/
def nextVictim (s : State) (x : Cand) (whole : Bool) (not cores : List Nat) : Option Nat :=
  ((s.warps.filter fun e => cores.contains e.2.core && e.2.residence == .resident && e.2.fibres != []
      && !not.contains e.1 && mayEvict s x e.2
      && (match e.2.blk with | some b => (s.blk b).state == .resident || (!whole && (s.blk b).state == .part) | none => true)).foldl
    (fun (a : Option (Nat × Nat)) e =>
      let k := evictOrder s e.2
      match a with
      | some (m, _) => if k < m then some (k, e.1) else a
      | none => some (k, e.1)) none).map (·.2)

/-- Whether some cores lack what only a whole block can give up: a slot, a window, a Foreman context, tiles or Abacus
registers. -/
def lacksBlock (s : State) (x : Cand) (cores : List Nat) : Bool :=
  let lack : Block → Nat → Bool := fun B n =>
    decide ((cores.filter fun c => (blockRoom s { B with state := .ready } [] c).isSome).length < n)
  match x with
  | .block b => lack (s.blk b) (s.blk b).teamSize
  | .saved b => lack (s.blk b) 1
  | .task c q t => (match ((s.ctx c).queue q).template with
    | some l => lack (newBlock (s.launch l) l 0 t.x t.y t.z (some t) 0 0 1 0) 1
    | none => false)
  | _ => false

/-- The room that a victim would free. -/
def without (s : State) (v : Victim) : State :=
  let out : Warp → Warp := fun W => { W with residence := .saved }
  match v.whole, (s.warp v.warp).blk with
  | true, some b =>
    (s.mapWarps fun _ W => if W.blk = some b then out W else W).modBlk b fun B => { B with state := .saved }
  | _, some b => (s.modWarp v.warp out).modBlk b fun B => { B with state := .part }
  | _, none => s.modWarp v.warp out
/-- The victims after which a candidate fits on some cores. -/
def planOn (x : Cand) (not cores : List Nat) : Nat → State → Option (List Victim)
  | 0, _ => none
  | n + 1, s =>
    if (x.place s cores).isSome then some []
    else
      let whole := lacksBlock s x cores
      match nextVictim s x whole not cores with
      | none => none
      | some w =>
        let v : Victim := ⟨whole, w⟩
        (planOn x not cores n (without s v)).map (v :: ·)
/-- Warps of a plan. -/
def planSize (s : State) (vs : List Victim) : Nat :=
  vs.foldl (fun a v => a + match v.whole, (s.warp v.warp).blk with | true, some b => (warpsOf s b).length | _, _ => 1) 0
/-- Where a candidate may push work out: the cores, or for a team the clusters. -/
def regions (s : State) (x : Cand) : List (List Nat) :=
  let clusters := (List.range Config.clusters).map coresOfCluster
  let each := allCores.map fun c => [c]
  match x with
  | .block b => if (s.blk b).teamSize = 1 ∨ seatedMembers s (s.blk b) ≠ [] then each else clusters
  | .savedWarp w => [[(s.warp w).core]]
  | .spawned core _ => ((List.range 32).map (32 * dieOf core + ·)).map fun c => [c]
  | .saved _ | .task _ _ _ => each
/-- The plan of fewest evictions, of the lowest core among equals (R380). -/
def bestPlan (s : State) (x : Cand) (not : List Nat) : Option (List Nat × List Victim) :=
  ((regions s x).foldl (fun (a : Option (Nat × List Nat × List Victim)) cores =>
    match planOn x not cores (s.warps.length + 1) s with
    | some (v :: vs) =>
      let n := planSize s (v :: vs)
      match a with
      | some (m, _) => if n < m then some (n, cores, v :: vs) else a
      | none => some (n, cores, v :: vs)
    | _ => a) none).map (·.2)

/-! ### Eviction (R381, R485) -/

/-- A save that pre-emption attempts and that faults is abandoned; the fault is reported (R520). -/
def abandon (s : State) (c code addr : Nat) : State :=
  let w := (s.ctx c).saveWaits
  (saveFault s c code addr).modCtx c fun C => { C with saveWaits := w }
/-- Save an owner for pre-emption: whether it was. -/
def evictOwner (s : State) (o : Owner) : Bool × State :=
  let s := endOwnerWork s o
  if !ownerQuiet s o then (false, s)
  else
    match saveOwner s o with
    | (.done _ _, s) => (true, s)
    | (.noRoom, s) => (false, s)
    | (.fault code addr, s) => (false, abandon s (ownerCtx s o) code addr)
/-- Save one warp of a block, which is then there in part. -/
def evictWarp (s : State) (w b : Nat) : Bool × State :=
  let s := endWarpWork s w
  if !warpQuiet s w then (false, s)
  else
    let W := s.warp w
    match writeImage s W.ctx (imageOf [warpSection s W W.wid]) with
    | (.done off len, s) =>
      (true, freeSlots ((s.modWarp w (liftWarp (off, len))).modBlk b fun B => { B with state := .part }) [w])
    | (.noRoom, s) => (false, s)
    | (.fault code addr, s) => (false, abandon s W.ctx code addr)
/-- Evict a victim: an uncommitted idempotent block is discarded and will start again (R483). -/
def evict (s : State) (v : Victim) : Bool × State :=
  let W := s.warp v.warp
  match W.blk with
  | none =>
    let (ok, s) := evictOwner s (.warp v.warp)
    (ok, if ok then count s W.ctx W.core 0x33 1 else s)
  | some b =>
    let B := s.blk b
    let n := (warpsOf s b).length
    if v.whole then
      if (s.launch B.launch).lrec.idempotent && !B.committed then (true, refuse s B.core (restartBlock s b))
      else
        let (ok, s) := evictOwner s (.blk b)
        (ok, if ok then count s B.ctx B.core 0x33 n else s)
    else
      let (ok, s) := evictWarp s v.warp b
      (ok, if ok then count s B.ctx B.core 0x33 1 else s)

/-- Push work out until a candidate fits: whether it was placed. A victim that cannot be saved is passed over (R485). -/
def preempt (x : Cand) : Nat → List Nat → State → Bool × State
  | 0, _, s => (false, s)
  | n + 1, not, s =>
    match bestPlan s x not with
    | some (cores, v :: _) =>
      match evict s v with
      | (true, s) =>
        match x.place s cores with
        | some t => (true, t)
        | none => preempt x n not s
      | (false, s) => preempt x n (v.warp :: not) s
    | _ => (false, s)

/-! ### The choice (R364) -/

/-- The first candidate that fits, or for which work is pushed out, is placed. -/
def serve : List Cand → State → State
  | [], s => s
  | x :: t, s =>
    match x.place s allCores with
    | some u => u
    | none =>
      match preempt x (s.warps.length + 1) [] s with
      | (true, u) => u
      | (false, u) => serve t u

/-- The event of a choice. -/
def execLoomChoice (s : State) : Host.Outcome State Fault Refusal :=
  let s := dispatchAll s
  .next (serve (candidates s) s)

/-- The first candidate that has no room, and the victims that would make room for it. -/
def pressed (s : State) : List Cand → Option (List Victim)
  | [] => none
  | x :: t =>
    if (x.place s allCores).isSome then none
    else match bestPlan s x [] with
      | some (_, vs) => some vs
      | none => pressed s t
/-- The event of an eviction: a warp that the Loom would push out is saved. -/
def execWarpEvict (w : Nat) (s : State) : Host.Outcome State Fault Refusal :=
  match pressed s (candidates s) with
  | none => .next s
  | some vs =>
    match vs.find? fun v => v.warp == w with
    | some v => .next (evict s v).2
    | none => .next s

/-! ### The start of a block (R23, R24, R118, R417) -/

/-- Whether every block of a launch has started. -/
def allStarted (s : State) (l : Nat) : Bool :=
  let L := s.launch l
  decide (L.lrec.blocks ≤ L.nextBlk) && s.blocks.all fun e => e.2.launch != l || e.2.task.isSome || !unstarted e.2
/-- A launch's first start: its record's start part (R417). -/
def firstStart (s : State) (l : Nat) : State :=
  let (vs, s) := latchCounters s (s.launch l).ctx 64 0
  let s := s.modLaunch l fun L => { L with
    tickStart := s.tick, startCounts := vs, clocks := (List.range 8).map fun d => (d, (coreIsland s d).mhz, 0, 0) }
  writeLaunch s l startParts

/-- A start is noted: the clock of its die (R367). -/
def noteStart (s : State) (b : Nat) : State :=
  let B := s.blk b
  s.modLaunch B.launch fun L =>
    { L with lastStart := Tab.put L.lastStart (dieOf B.core) (s.clock (32 * dieOf B.core)) }
/-- The members of a block's team that start with it, in ascending TEAM number (R54). -/
def starters (s : State) (B : Block) : List Nat :=
  (teamBlocks s B.launch B.team).filter fun m => (s.blk m).state == .ready
/-- Whether a block that has room may start with those of its team that have not (R54): all of them have room, in an ordered
launch every lower block of another team has started (R366), the stagger is over since the last start of the launch on the die,
but for one of its own team (R367), and the Loom's latest start there is far enough back (R364). -/
def startsNow (s : State) (b : Nat) : Bool :=
  let B := s.blk b
  B.state == .ready && ((starters s B).all fun m => (s.blk m).placed && !(s.blk m).halted)
    && ctxRuns s B.ctx && !(s.ctx B.ctx).halted
    && (!(s.launch B.launch).lrec.ordered || s.blocks.all fun e =>
      e.2.launch != B.launch || e.2.team == B.team || decide (B.lin < e.2.lin) || !unstarted e.2)
    && (staggerOver s B.launch B.core || (teamBlocks s B.launch B.team).any fun m => !unstarted (s.blk m))
    && loomGap s B.core

/-- A block starts: its window takes its SRAM and is clear, its warps stand at the entry, and it is RESIDENT. -/
def startBlock (s : State) (b : Nat) : State :=
  let B := s.blk b
  let L := s.launch B.launch
  let (n, s) := s.stamp
  let clock := s.clock B.core
  let entry := match B.task with | some t => t.entry | none => L.lrec.entry
  let start := fun (s : State) (w : Nat) =>
    { s.modWarp w (startWarp L B entry clock s.free) with free := s.free + fibreCount (!L.lrec.single) }
  let s := (warpsOf s b).foldl start s
  let s := noteStart (s.modBlk b fun B => { B with state := .resident, started := n, win := [] }) b
  let s := reclaim s B.core B.winSize
  let s := if B.task.isNone && L.clocks == [] then firstStart s B.launch else s
  let s := if L.state == .dispatching && allStarted s B.launch then
    s.modLaunch B.launch fun L => { L with state := .running } else s
  let s := acquire s B.core .system
  trace s B.ctx B.core 1 (engineName s b 0 0 entry) (leBytes 2 B.core)
/-- The event of a start: the blocks of a team start together (R54), as one start of the Loom on their die (R364). -/
def execBlockStart (b : Nat) (s : State) : Host.Outcome State Fault Refusal :=
  let B := s.blk b
  if !startsNow s b then .next s else .next ((starters s B).foldl startBlock (loomStart s B.core))

end Sys2Proof.Machine
end

