-- ==== Sys2Proof/Machine/LoomEvents.lean ====
section
/-! DEFINITION. Events of the Loom, the Bakery and issue: migration (R382, R383), issue slots (R376, R377, R280), completion of
launches and tasks (R40, R43, R371, R417), pending enqueues (R493) and the advance of tickets (R384, R387). -/
namespace Sys2Proof.Machine

/-! ### Migration (R147, R382, R383, R485) -/

/-- Forwarding entries of a core (R382). -/
def forwardSize : Nat := 16
/-- A block stands on a new core: its warps have moved, their monitors with them, those that were evicted have landed, the
window takes its SRAM there, and the old core forwards to it. -/
def moveBlock (s : State) (b core : Nat) (qs : List Nat) : State :=
  let old := (s.blk b).core
  let clock := s.clock core
  let ws := warpsOf s b
  let move : Nat → Warp → Warp := fun q W =>
    { (if W.residence = .saved then landWarp core q clock W else { W with core := core, quarter := q }) with
      monitor := W.monitor.map fun m => { m with moved := true } }
  let t := (ws.zip qs).foldl (fun t e => seatWarp (t.modWarp e.1 (move e.2)) e.1) s
  let t := freeSlots (t.modBlk b fun B => { B with core := core, state := .resident }) ws
  let fwd := fun (e : Nat × Core) => (e.1, { e.2 with forwards := e.2.forwards.map fun f => if f.blk = b then { f with toCore := core } else f })
  let t := { t with cores := t.cores.map fwd }
  let t := t.modCore old fun K => { K with forwards := K.forwards ++ [⟨b, core⟩] }
  let t := reclaim (carryBoards (refuse s core (refuse s old t)) b core) core (t.blk b).winSize
  retireIfDone (replay (count t (s.blk b).ctx core 0x34 1) ws) b
/-- A block with its window counted as given up, so that its new core alone must have room. -/
def lifted (s : State) (bs : List Nat) : State :=
  (s.mapBlks fun b B => if bs.contains b then { B with state := .saved } else B).mapWarps fun _ W =>
    match W.blk with | some b => if bs.contains b then { W with residence := .saved } else W | none => W
/-- Distinct cores for blocks among some, each the best that is left. -/
def findCores : List Nat → List Nat → State → Option (List (Nat × Nat × List Nat))
  | [], _, _ => some []
  | b :: t, cores, s =>
    match bestCore (lifted s (b :: t)) (s.blk b) (windowsOf s b) cores with
    | none => none
    | some (c, qs) => (findCores t (cores.filter (· != c)) s).map ((b, c, qs) :: ·)
/-- Where the blocks of a team move: a block that is a team alone to any core with room, a larger team to another cluster
(R147). -/
def newCores (s : State) (B : Block) (bs : List Nat) : Option (List (Nat × Nat × List Nat)) :=
  if B.teamSize = 1 then findCores bs allCores s
  else (clustersIn s (allCores.filter fun c => clusterOf c != clusterOf B.core)).findSome? fun cl =>
    findCores bs (coresOfCluster cl) s

/-- Members of a block's team in a state. -/
def membersIn (s : State) (B : Block) (st : BlockState) : List Nat :=
  (teamBlocks s B.launch B.team).filter fun m => (s.blk m).state == st
/-- Whether a block is to leave its core, which the Survey has withdrawn, or is on its way. -/
def mustMove (s : State) (B : Block) : Bool :=
  B.placed && (B.state == .migrating
    || ((B.state == .resident || B.state == .part || B.state == .ready) && !coreLive s B.core))
/-- A team comes to rest (R148): every member that stands on a core is MIGRATING once none of its work is outstanding, when
each old core has a forwarding entry free (R382); one that was only given room gives it up, and one that a fault or a
halt is to stop is saved by it first, a fault that the drain itself finds among them (R485). -/
def beginMigration (s : State) (B : Block) : State :=
  let bs := membersIn s B .resident ++ membersIn s B .part
  let idle := membersIn s B .ready
  if (bs.any fun m => decide (forwardSize ≤ (s.core (s.blk m).core).forwards.length))
      || bs.any fun m => (s.blk m).halted || ownerFaulted s (.blk m) then s
  else
    let s := bs.foldl endBlockWork s
    if !bs.all (blockQuiet s) || bs.any fun m => ownerFaulted s (.blk m) then s
    else
      let t := s.mapBlks fun m X =>
        if bs.contains m then { X with state := .migrating } else if idle.contains m then { X with placed := false } else X
      refuse s B.core (unseat (bs.foldl (fun t m => freeSlots t (warpsOf t m)) t))
/-- A MIGRATING block that finds no core is as it was, and can be saved. -/
def aground (s : State) (b : Nat) : State :=
  let out := (warpsOf s b).any fun w => (s.warp w).residence == .saved
  s.modBlk b fun B => { B with state := if out then .part else .resident }
/-- A MIGRATING team moves whole (R147): its members that are saved will be restored with the others, in their new cluster. A
team for which there is no room is saved (R485), and one of which something held cannot be performed yet waits (R476). -/
def endMigration (s : State) (B : Block) : State :=
  let bs := membersIn s B .migrating
  match newCores s B bs with
  | none => (stopAll (bs.map .blk) (bs.foldl aground s)).2
  | some ps =>
    let home := match ps with | p :: _ => p.2.1 | [] => B.core
    let t := ps.foldl (fun s p => moveBlock s p.1 p.2.1 p.2.2) s
    if !ps.all fun p => (warpsOf s p.1).all fun w => (Tab.find t.warps w).isNone || replayed t w then s
    else (membersIn t B .saved).foldl (fun t m => t.modBlk m fun X => { X with core := home }) t
/-- The event of a migration (R382): the team of a block whose core is withdrawn comes to rest, and then moves. -/
def execMigration (b : Nat) (s : State) : Host.Outcome State Fault Refusal :=
  let B := s.blk b
  .next (if !mustMove s B then s else if B.state = .migrating then endMigration s B else beginMigration s B)

/-- Whether work that names a block's window is outstanding: accesses of other warps, and copies of its team (R383). -/
def namesWindow (s : State) (b : Nat) : Bool :=
  let B := s.blk b
  let at_ : Place → Bool := fun p => p.sram == some b
  (s.warps.any fun e => (e.2.storeQ.any fun o => at_ o.place) || e.2.cpas.any fun p => at_ p.src || at_ p.dst)
    || (s.cores.any fun e => e.2.tracker.any fun t => (t.op.map fun o => at_ o.place).getD false
        || (t.cpa.map fun p => at_ p.src || at_ p.dst).getD false)
    || onWay s (fun y => at_ y.op.place)
    || (teamBlocks s B.launch B.team).any fun m => !(begunCopies s m).isEmpty
/-- The event of a forwarding entry that nothing needs any more. -/
def execForwardEntryFree (core idx : Nat) (s : State) : Host.Outcome State Fault Refusal :=
  match (s.core core).forwards[idx]? with
  | none => .next s
  | some f =>
    if namesWindow s f.blk then .next s
    else .next (s.modCore core fun K => { K with forwards := dropAt K.forwards idx })

/-! ### Issue slots (R280, R376, R377, R379) -/

/-- Whether a warp has something to issue. -/
def hasWork (s : State) (w : Nat) : Bool := warpRuns s w && (nextGroup s w).isSome
/-- Fibres of a warp at the instruction that its run came to last which stall there (R377). -/
def stalledFibres (W : Warp) : List Fibre :=
  W.fibres.filter fun f => f.pc == W.groupPc && (match f.status with | .waiting x => x.stalls | _ => false)
/-- Whether a stall that broke a warp's run still keeps the warp from being ready (R377): some fibre at the stalled instruction
cannot go, and no other group of the warp can issue (R27, R376). -/
def stallHolds (s : State) (w : Nat) : Bool :=
  let W := s.warp w
  W.stalled && ((stalledFibres W).any fun f => !fibreGoes s w W f)
    && W.fibres.all fun f => f.pc == W.groupPc || !fibreGoes s w W f
/-- Whether a warp is ready (R376): it has something to issue, no `yield` holds it, its context's cap permits, and no stall that
broke its run holds it (R377). -/
def warpReady (s : State) (w : Nat) : Bool :=
  let W := s.warp w
  W.yield.isNone && hasWork s w && !atCap s W.ctx .issue (quarterUnit W.core W.quarter)
    && !stallHolds s w
/-- Each warp's age counts from the CLOCK at which it became ready (R376, log 77). -/
def ageWarps (s : State) : State :=
  s.mapWarps fun w W => { W with age := if warpReady s w then some (W.age.getD (s.clock W.core)) else none }
/-- Warps of a quarter. -/
def quarterWarps (s : State) (core q : Nat) : List Nat :=
  (s.warps.filter fun e => e.2.core == core && e.2.quarter == q && e.2.residence == .resident).map (·.1)
/-- Where a ready warp stands in its quarter: those within a guarantee first (R379), the one that has been ready since the
earliest cycle, and the lowest warp slot among equals (R376). -/
def readyOrder (s : State) (W : Warp) : Nat :=
  ((if inGuarantee s W.ctx .issue (quarterUnit W.core W.quarter) then 0 else 1) * 2 ^ 64 + W.age.getD (s.clock W.core)) * 64 + W.wslot
/-- The ready warp of a quarter that comes first. -/
def oldestReady (s : State) (core q : Nat) : Option Nat :=
  ((quarterWarps s core q).foldl (fun (a : Option (Nat × Nat)) w =>
    if warpReady s w then
      let k := readyOrder s (s.warp w)
      match a with
      | some (m, _) => if k < m then some (k, w) else a
      | none => some (k, w)
    else a) none).map (·.2)

/-- The event of a grant: the quarter's slot goes to its oldest ready warp, and its run comes into focus; a slot that is
held comes into focus again. -/
def execIssueSlotGrant (core quarter : Nat) (s : State) : Host.Outcome State Fault Refusal :=
  match (s.core core).slots.getD quarter none with
  | some w => .next { s with turn := some w }
  | none =>
    match oldestReady s core quarter with
    | none => .next s
    | some w =>
      .next { (s.modCore core fun K => { K with slots := setAt K.slots quarter (some w) }).modWarp w fun W =>
        { W with runLen := 0, stalled := false } with turn := some w }

/-- Cycles for which a stalled instruction holds its slot (R377). -/
def stallLimit : Nat := 4
/-- Ticks that some cycles of a core take. -/
def cycleTicks (s : State) (core n : Nat) : Nat := (1000 * n + 799) / max 800 (coreIsland s (dieOf core)).mhz

/-- The event of a broken run (R377): an instruction that still cannot issue after four cycles gives up its warp's slot, and this
is counted. A warp that waits otherwise, or has nothing to issue, gives its slot up too, uncounted (R173). -/
def execRunBreak (core quarter : Nat) (s : State) : Host.Outcome State Fault Refusal :=
  match (s.core core).slots.getD quarter none with
  | none => .next s
  | some w =>
    let W := s.warp w
    if hasWork s w then .next s
    else match stalledFibres W with
    | [] => .next (endRun s w)
    | fs =>
      let load := fs.any fun f => match f.status with
        | .waiting x => (match x.why with | .regs _ _ _ => true | _ => false)
        | _ => false
      let t := if load then countCycles s W.ctx core 0xA quarter stallLimit else s
      let t := endRun (passTime t (cycleTicks s core stallLimit)) w
      .next ((unitCount (count t W.ctx core 6 1) core 8 1).modWarp w fun W => { W with stalled := true })

/-- Whether a `yield` is over (R280): every other ready warp of the quarter has had a run since, or there is none and its
cycles have passed. -/
def yieldOver (s : State) (w : Nat) : Bool :=
  let W := s.warp w
  match W.yield with
  | none => false
  | some t =>
    let others := (quarterWarps s W.core W.quarter).filter fun v => v != w && warpReady s v
    if others = [] then decide (t ≤ s.clock W.core) else others.all fun v => decide (W.ran < (s.warp v).ran)
/-- The event of a `yield` that is over. -/
def execYieldExpire (w : Nat) (s : State) : Host.Outcome State Fault Refusal :=
  .next (if yieldOver s w then s.modWarp w fun W => { W with yield := none } else s)

/-! ### Successor counters (R43, R492, R493) -/

/-- A TASK fault of the Loom. -/
def taskFault (s : State) (c detail addr : Nat) : State := ctxFault s c Config.noCore.toNat none codeTask detail addr (launchName 0 0) none
/-- Entries of a pending-enqueue list (R493). -/
def pendingSize : Nat := 4096
/-- What became of a pending-task object. -/
inductive Enqueued where
  | done | full | fault (detail addr : Nat)
deriving DecidableEq, Repr
/-- Enqueue the task of an object (R43); it arrived when its counter reached 0, where that was earlier (R361). -/
def enqueueObject (s : State) (c a : Nat) (since : Option Nat) : Enqueued × State :=
  match structRead s c a 128 with
  | (.error e, s) => (.fault e.1 e.2, s)
  | (.ok bs, s) =>
    let q := field bs 8 1
    if 64 ≤ q then (.fault 4 a, s)
    else
      match queueEntry s c q with
      | (.error e, s) => (.fault e.1 e.2, s)
      | (.ok ent, s) =>
        if !ent.enabled then (.fault 4 a, s)
        else if queueFull s c q ent then (.full, s)
        else match pushTask s c q ent (bs.drop 64) since with
          | (.error e, s) => (.fault e.1 e.2, s)
          | (.ok s, _) => (.done, s)
/-- Decrement a counter; one that reaches 0 enqueues its task (R43, R493). -/
def decrementCounter (s : State) (c a : Nat) : State :=
  if a = 0 then s
  else
    match structRead s c a 8 with
    | (.error e, s) => taskFault s c e.1 e.2
    | (.ok bs, s) =>
      let v := leNat bs
      if v = 0 then taskFault s c 2 a
      else
        match structWrite s c a (leBytes 8 (v - 1)) with
        | (.error e, s) => taskFault s c e.1 e.2
        | (.ok s, _) =>
          if v ≠ 1 then s
          else
            match enqueueObject s c a none with
            | (.done, s) => s
            | (.fault d x, s) => taskFault s c d x
            | (.full, s) =>
              if pendingSize ≤ (s.ctx c).pendEnq.length then taskFault s c 5 a
              else
                let (k, s) := s.stamp
                s.modCtx c fun C => { C with pendEnq := C.pendEnq ++ [(a, k)] }

/-- Enqueue the first object of a list that can be. -/
def drainPending (c : Nat) : List (Nat × Nat) → State → State
  | [], s => s
  | a :: t, s =>
    let drop : State → State := fun s => s.modCtx c fun C => { C with pendEnq := C.pendEnq.erase a }
    match enqueueObject s c a.1 (some a.2) with
    | (.done, s) => drop s
    | (.fault d x, s) => taskFault (drop s) c d x
    | (.full, s) => drainPending c t s
/-- The event of a pending enqueue, oldest first (R493). -/
def execPendingEnqueueDrain (c : Nat) (s : State) : Host.Outcome State Fault Refusal :=
  .next (if ctxRuns s c then drainPending c (s.ctx c).pendEnq s else s)

/-! ### Tickets (R384, R387, R391) -/

/-- Put a staged entry behind those of lower program order, then TID. -/
def insertStage (x : Stage) : List Stage → List Stage
  | [] => [x]
  | y :: t => if x.order < y.order ∨ (x.order = y.order ∧ x.tid < y.tid) then x :: y :: t else y :: insertStage x t
/-- Whether operations of a warp that has ended are held after a fault of one (R476). -/
def warpHeld (s : State) (w : Nat) : Bool := s.cores.any fun e => e.2.tracker.any fun t => t.warp == w && t.held
/-- The tracker entry that takes a staged operation of a warp that has ended, for a fault of its block to hold (R475, R476). -/
def stageTrack (s : State) (l : Nat) (x : Stage) : Track :=
  let b := (s.blocks.find? fun e => e.2.launch == l && e.2.task.isNone && e.2.lin == x.ticket).map (·.1)
  ⟨(s.launch l).ctx, l, x.op.pc, b, x.ticket, x.warp, x.name.warp, x.op.slot, some x.op, none, none, true⟩
/-- The core at which a staged operation is performed: that of its warp or its block, or one of the die that holds it. -/
def stageCore (s : State) (l : Nat) (x : Stage) : Nat :=
  if (Tab.find s.warps x.warp).isSome then (s.warp x.warp).core
  else match (stageTrack s l x).blk with | some b => (s.blk b).core | none => 32 * x.die
/-- Apply a staged entry (R387): the flags of its reduction are its warp's. A fault of it is an imprecise fault of the warp, or
of its block when the warp has ended, and holds it and what follows; when the block has retired, what follows of that
warp is discarded (R475, R476). The list is of the warps whose entries are. -/
def applyStage (l : Nat) (a : State × List Nat) (x : Stage) : State × List Nat :=
  let (s, gone) := a
  if gone.contains x.warp then a
  else
    let there := (Tab.find s.warps x.warp).isSome
    let W := s.warp x.warp
    let t := stageTrack s l x
    let core := stageCore s l x
    let hold : State → State := fun s =>
      if there then s.modWarp x.warp fun W => { W with storeQ := W.storeQ ++ [x.op], heldStores := true }
      else s.modCore core fun C => { C with tracker := C.tracker ++ [t] }
    if (there && W.heldStores) || (!there && warpHeld s x.warp) then (hold s, gone)
    else
      match performStore s core x.warp l t.blk (some x.ticket) x.op with
      | (.ok (u, fp, num), _) =>
        let u := chargeBytes (u.modWarp x.warp fun W => W.addFlags fp num) t.ctx x.op.place x.op.size true
        (countNum u t.ctx core (num &&& ~~~x.op.raised), gone)
      | (.error c, u) =>
        let V := if there then W else trackWarp core t
        let r := { impreciseRec u V x.op c (!there) with name := x.name }
        let alive := there || (match t.blk with | some b => (s.blk b).state != .retired | none => false)
        (reportImprecise (if alive then hold u else u) x.warp V r, if alive then gone else x.warp :: gone)
/-- Apply the staged entries of a ticket, in program order (R387). -/
def applyStages (s : State) (l n : Nat) : State :=
  let mine := (s.launch l).stages.filter fun x => x.ticket == n
  let s := s.modLaunch l fun L => { L with stages := L.stages.filter fun x => x.ticket != n }
  ((mine.foldl (fun a x => insertStage x a) []).foldl (applyStage l) (s, [])).1
/-- Whether blocks of some kind have no operation on its way to a home L2, and no copy that has begun. -/
def blocksQuiet (s : State) (which : Nat → Block → Bool) : Bool :=
  !(onWay s fun y => y.blk.any fun b => which b (s.blk b)) && s.blocks.all fun e => !which e.1 e.2 || (begunCopies s e.1).isEmpty
/-- Whether every write of a retired block has been performed (R384): its staged and tracked ones, those on their way, and its
copies. -/
def ticketQuiet (s : State) (l n : Nat) : Bool :=
  let L := s.launch l
  L.retiredTickets.contains n && !(L.stages.any fun x => x.ticket == n)
    && (s.cores.all fun e => e.2.tracker.all fun t => t.launch != l || t.lin != n)
    && blocksQuiet s fun _ B => B.launch == l && B.task.isNone && B.lin == n
/-- Whether a staged operation of a ticket cannot be performed yet (R379, R396). -/
def stageStays (s : State) (l n : Nat) : Bool :=
  (s.launch l).stages.any fun x => x.ticket == n && opStays s (s.launch l).ctx (stageCore s l x) x.op
/-- The event of CUR's advance: the next block becomes the head; what it wrote stands where lower blocks have written since
(R391, R395), and its staged entries are applied. -/
def execBakeryAdvance (l : Nat) (s : State) : Host.Outcome State Fault Refusal :=
  let L := s.launch l
  if !L.lrec.ordered || !ticketQuiet s l L.cur || stageStays s l (L.cur + 1) then .next s
  else
    let s := s.modLaunch l fun L => { L with cur := L.cur + 1, retiredTickets := L.retiredTickets.filter (· != L.cur) }
    .next (applyStages (standAgain s l (L.cur + 1)) l (L.cur + 1))

/-! ### Completion (R40, R43, R371, R417) -/

/-- Whether nothing of a launch is left to end (R40), nor to be performed before its record and tags show it (R158, R371). -/
def launchDrained (s : State) (l : Nat) : Bool :=
  let L := s.launch l
  L.children == 0 && L.ring.isEmpty && L.stages.isEmpty
    && (s.warps.all fun e => e.2.launch != l) && (s.joins.all fun j => j.launch != l)
    && (s.cores.all fun e => (e.2.tracker.all fun t => t.launch != l) && e.2.shuttle.all fun x => x.launch != l)
    && !(onWay s fun y => y.launch == l) && blocksQuiet s fun _ B => B.launch == l
/-- What a spill ring's memory holds once its launch is DONE is undefined (R375): each record it held reads as free values. -/
def clearRing (s : State) (l : Nat) : State :=
  let L := s.launch l
  (List.range (min L.ringHigh (L.lrec.spillSize / 128))).foldl (fun s k =>
    let (i, s) := s.fresh
    let bytes := (List.range 16).flatMap fun j => leBytes 8 ((Config.freeDouble i).toNat / 256 ^ (j % 8))
    match structWrite s L.ctx (L.lrec.spillBase + 128 * k) bytes with
    | (.ok s, _) => s
    | (.error _, s) => s) s

/-- The event of a launch's completion: counters and record, the output tag, the completion counter, in that order. -/
def execLaunchComplete (l : Nat) (s : State) : Host.Outcome State Fault Refusal :=
  let L := s.launch l
  if L.state != .completing || !launchDrained s l || (s.ctx L.ctx).discarding then .next s
  else
    let c := L.ctx
    let (vs, s) := latchCounters s c 64 0
    let lost : Word := if (s.ctx c).trlost = 0 then 0 else 0x20
    let s := s.modLaunch l fun L => { L with
      state := .done, tickDone := s.tick, doneCounts := vs, status := L.status ||| 1 ||| lost, hall := [], teams := [] }
    let s := writeLaunch s l doneParts
    let s := if L.lrec.outValid then tagDone s c l L.lrec.outTensor L.lrec.outGen (launchName L.lrec.entry L.addr) else s
    let s := endSerial (decrementCounter s c L.lrec.succ) c
    let s := clearRing s l
    let s := { s with blocks := s.blocks.filter fun e => e.2.launch != l }
    .next (trace s c Config.noCore.toNat 0 (launchName L.lrec.entry L.addr) (leBytes 2 (Config.launchStateCode true).toNat))

/-- The event of a task's completion: its block has retired and drained, and its counters go down, the first first. -/
def execTaskComplete (b : Nat) (s : State) : Host.Outcome State Fault Refusal :=
  let B := s.blk b
  match B.task with
  | none => .next s
  | some t =>
    if B.state != .retired || !(s.cores.all fun e => e.2.tracker.all fun x => x.blk != some b)
        || !blocksQuiet s (fun q _ => q == b) then .next s
    else
      let s := decrementCounter (decrementCounter s B.ctx t.succ1) B.ctx t.succ2
      .next { s with blocks := Tab.drop s.blocks b }

end Sys2Proof.Machine
end

