-- ==== Sys2Proof/Machine/Survey.lean ====
section
/-! DEFINITION. The machine log (R496), the Survey image and its degradation (R406, R407, R497), and self-tests (R354,
R491). -/
namespace Sys2Proof.Machine

/-! ### The machine log (R496) -/

/-- Unit kinds of Table 22-7. -/
def unitRegs : Nat := 0
def unitSram : Nat := 1
def unitAcc : Nat := 2
def unitArray : Nat := 3
def unitL2 : Nat := 4
def unitNear : Nat := 5
def unitFar : Nat := 6
def unitUcie : Nat := 7
def unitPeer : Nat := 8
def unitIsland : Nat := 9
def unitSecurity : Nat := 10

/-- Die of a unit as a log record gives it: 0 to 7, 8 for IO0 and 9 for IO1 (R12, R14, Table 22-7). -/
def unitDie (kind number : Nat) : Nat :=
  if kind ≤ 2 then number / 32
  else if kind = unitArray then number / 128
  else if kind = unitL2 ∨ kind = unitNear then number
  else if kind = unitFar then 8 + number / 24
  else if kind = unitUcie ∨ kind = unitPeer then 8 + number / 4
  else if kind = unitIsland then (if number < 24 then number / 3 else 8 + (number - 24) / 4)
  else 8
/-- Key of a unit's count of corrected errors. -/
def errorKey (kind number : Nat) : Nat := kind * 65536 + number

/-- What a log record says: its code and class, the unit, an address or index, and by how much the event raises RMVER. -/
structure LogEntry where
  code : Nat
  cls : Nat
  kind : Nat
  number : Nat
  addr : Nat
  raises : Nat
deriving DecidableEq, Repr

/-- A log record (Table 22-7). -/
def logBytes (s : State) (e : LogEntry) : List Byte :=
  leBytes 8 s.tick.toNat ++ leBytes 2 e.code ++ leBytes 1 e.cls ++ leBytes 1 (unitDie e.kind e.number) ++ leBytes 2 e.kind
  ++ leBytes 2 e.number ++ leBytes 8 e.addr ++ leBytes 4 (s.dev.rmver.toNat + e.raises)
  ++ leBytes 4 (min (2 ^ 32 - 1) (Tab.read 0 s.dev.errors (errorKey e.kind e.number)))
/-- Write a record's bytes into the log ring, while it has room and the link carries them (R396, R413, R496). -/
def ringLog (s : State) (bs : List Byte) : Option State :=
  let D := s.dev
  let slots := D.mcsize.toNat / 32
  let a := D.mcbase.toNat + 32 * (D.mchead.toNat % max 1 slots)
  if D.ideActive ∧ (D.mchead - D.mctail).toNat < slots ∧ physOk s a 32 then
    let t := putPhys s a bs
    some { t with dev := { t.dev with mchead := t.dev.mchead + 1 } }
  else none
/-- Records that AON keeps go to the ring, oldest first, while it takes them (R494). -/
def flushKept : List (List Byte) → State → State
  | [], s => { s with dev := { s.dev with kept := [] } }
  | bs :: t, s =>
    match ringLog s bs with
    | some u => flushKept t u
    | none => { s with dev := { s.dev with kept := bs :: t } }
/-- The ring may take kept records again: the link, or the host, has made room. -/
def drainKept (s : State) : State := if s.dev.kept = [] then s else flushKept s.dev.kept s
/-- AON keeps a record. -/
def keepLog (s : State) (e : LogEntry) : State := { s with dev := { s.dev with kept := s.dev.kept ++ [logBytes s e] } }
/-- Write a log record while the ring takes it. Otherwise AON keeps it, when main supply is gone or it stands behind others
that are kept (R494, log 14), and else it is counted as lost. -/
def logRecord (s : State) (e : LogEntry) : State :=
  let s := drainKept s
  if s.dev.kept ≠ [] then keepLog s e
  else
    match ringLog s (logBytes s e) with
    | some t => t
    | none => if s.dev.mainPower then { s with dev := { s.dev with mclost := satInc s.dev.mclost } } else keepLog s e
/-- Write the record of a thermal trip, which AON keeps where the ring does not take it (R494). -/
def logTrip (s : State) (e : LogEntry) : State :=
  let s := drainKept s
  if s.dev.kept ≠ [] then keepLog s e else (ringLog s (logBytes s e)).getD (keepLog s e)

/-! ### The Survey (R406, R497) -/

/-- The Survey image (Table 15-5). -/
def surveyImage (s : State) : List Byte :=
  let v := s.survey
  leBytes 4 s.dev.rmver.toNat ++ leBytes 2 1 ++ leBytes 2 0 ++ leBytes 8 v.tick.toNat ++ leBytes 32 v.liveCores.toNat
  ++ leBytes 128 v.fenced.toNat ++ leBytes 2 v.liveDies.toNat ++ leBytes 1 v.nearStacks.toNat
  ++ leBytes 1 v.peerPorts.toNat ++ leBytes 1 v.ucie.toNat ++ leBytes 3 0 ++ v.ucieLanes.flatMap (leBytes 1)
  ++ v.peerLanes.flatMap (leBytes 1) ++ v.farSpeed.flatMap (leBytes 1) ++ leBytes 8 0

/-- The Survey image stands at SURVEYADDR (R406). -/
def writeSurvey (s : State) : State := putPhys s s.dev.surveyAddr.toNat (surveyImage s)

/-- A mask without one bit. -/
def clearBit {w : Nat} (m : BitVec w) (i : Nat) : BitVec w := m &&& ~~~ (BitVec.ofNat w (2 ^ i))
/-- Withdraw a core. -/
def withdrawCore (s : State) (c : Nat) : State :=
  { s.modCore c fun K => { K with withdrawn := true } with
    survey := { s.survey with liveCores := clearBit s.survey.liveCores c } }
/-- Withdraw cores. -/
def withdrawCores (cs : List Nat) (s : State) : State := cs.foldl withdrawCore s
/-- Take a loss into the Survey (R406): a port or module of no lanes is withdrawn, and a compute die takes its cores and stack
with it. What the loss of an IO die does to the far channels, UCIe modules and peer ports that it carries the specification
does not say: here they stay as they are until losses of their own (log 97). -/
def applyLoss (s : State) (l : UnitLoss) : State :=
  let v := s.survey
  match l with
  | .core c => withdrawCore s c
  | .subArray c q =>
    { s.modCore c fun K => { K with fenced := K.fenced ||| BitVec.ofNat 4 (2 ^ q) } with
      survey := { v with fenced := v.fenced ||| BitVec.ofNat 1024 (2 ^ (4 * c + q)) } }
  | .die d =>
    let t := if d < 8 then withdrawCores ((List.range 32).map (32 * d + ·)) s else s
    let u := t.survey
    { t with survey := { u with
        liveDies := clearBit u.liveDies d
        nearStacks := if d < 8 then clearBit u.nearStacks d else u.nearStacks } }
  | .nearStack d => { s with survey := { v with nearStacks := clearBit v.nearStacks d } }
  | .peerPort p n =>
    { s with survey := { v with
        peerLanes := setAt v.peerLanes p n, peerPorts := if n = 0 then clearBit v.peerPorts p else v.peerPorts } }
  | .ucie m n =>
    { s with survey := { v with ucieLanes := setAt v.ucieLanes m n, ucie := if n = 0 then clearBit v.ucie m else v.ucie } }
  | .farChannel ch code => { s with survey := { v with farSpeed := setAt v.farSpeed ch code } }

/-- Ticks in which a version must be acknowledged (R407). -/
def ackTicks : Nat := 10000000
/-- A context learns of a new version: RMEVENT, and while it runs a new deadline (R407, R497). -/
def noteVersion (now : Nat) (C : Ctx) : Ctx :=
  { C.setEvent (C.event ||| 8) with
    ackBy := if C.state = .running then some (now + ackTicks) else C.ackBy }
def codeResourceMap : Nat := 0x0703
/-- Kind and number of the unit that a loss is of, for the log: a core by its register file, a die by its first island (log 96). -/
def lossUnit : UnitLoss → Nat × Nat
  | .core c => (unitRegs, c)
  | .subArray c q => (unitArray, 4 * c + q)
  | .die d => (unitIsland, if d < 8 then 3 * d else 24 + 4 * (d - 8))
  | .nearStack d => (unitNear, d)
  | .peerPort p _ => (unitPeer, p)
  | .ucie m _ => (unitUcie, m)
  | .farChannel ch _ => (unitFar, ch)
/-- The machine log takes a record of code 0x0703 for each of the degradations found together (R456, R496, log 96). -/
def logLosses (s : State) (ls : List UnitLoss) : State :=
  ls.zipIdx.foldl (fun s e =>
    let u := lossUnit e.1
    logRecord s ⟨codeResourceMap, 2, u.1, u.2, (Config.logIndex u.1).toNat, e.2 + 1⟩) s
/-- Losses found together, in ascending unit kind (R497). -/
def insertLoss (l : UnitLoss) : List UnitLoss → List UnitLoss
  | [] => [l]
  | x :: t => if (lossUnit l).1 ≤ (lossUnit x).1 then l :: x :: t else x :: insertLoss l t
def byUnit (ls : List UnitLoss) : List UnitLoss := ls.foldr insertLoss []
/-- A degradation (R497): it is logged, the losses found together raise RMVER by one each, the image is written, every context
is told, and each running launch with a trap vector is owed RESOURCE_MAP with the final version. -/
def degrade (s : State) (ls : List UnitLoss) : State :=
  if ls = [] then s
  else
    let s := (byUnit ls).foldl applyLoss (logLosses s (byUnit ls))
    let s := writeSurvey { s with
      dev := { s.dev with rmver := s.dev.rmver + BitVec.ofNat 32 ls.length }
      survey := { s.survey with tick := s.tick } }
    let told := fun (c : Nat) => (c, noteVersion s.tick.toNat (s.ctx c))
    let owed := fun (e : Nat × Launch) => (e.1, { e.2 with
      rmOwed := if e.2.isOpen && e.2.lrec.trapVec != 0 then e.2.rmOwed ++ [s.dev.rmver.toNat] else e.2.rmOwed })
    { s with ctxs := (List.range Config.contexts).map told, launches := s.launches.map owed }

/-- The event of degradations found in one microsecond (R497). -/
def execSurveyDegradation (ls : List UnitLoss) (s : State) : Host.Outcome State Fault Refusal := .next (degrade s ls)

/-- The event of a failing lane or link module (R396, R497): the Survey records the width that is left. -/
def execLinkLaneFail (l : UnitLoss) (s : State) : Host.Outcome State Fault Refusal :=
  match l with
  | .ucie _ _ | .peerPort _ _ => .next (degrade s [l])
  | .core _ | .subArray _ _ | .die _ | .nearStack _ | .farChannel _ _ => .next s

/-! ### Self-tests (R354, R491) -/

def codeSelfTest : Nat := 0x0702
/-- The blocks with suspect commands on a sub-array, each with its lowest. -/
def suspectsOf (K : Core) (q : Nat) : List (Nat × Suspect) :=
  (K.suspects.filter fun e => e.1 / 2 ^ 40 == q).map fun e => (e.1 % 2 ^ 40, e.2)
/-- Report a suspect command: to its block, or to its launch when the block has retired (R491); a block that is gone has its
launch from the record of its command. -/
def reportSuspect (s : State) (e : Nat × Suspect) : State :=
  let x := e.2
  let r := plainRec codeSelfTest ⟨x.pc.toNat, x.n, (s.launch x.launch).addr, x.lin % 2 ^ 32, 0xFFFF, 2⟩ 0 0 .read
  match Tab.find s.blocks e.1 with
  | some B => if B.state = .retired then launchFault s x.launch r else addFault s (.blk e.1) r
  | none => launchFault s x.launch r

/-- The event of a self-test, when one is due: a sub-array that fails is fenced, logged and withdrawn, and a second one takes the
core with it. -/
def execSelfTest (core : Nat) (passed : Bool) (s : State) : Host.Outcome State Fault Refusal :=
  if !testDue s core then .next s
  else
    let K := s.core core
    let q := testTurn K
    let s := runTest s core
    if passed then .next s
    else
      let second := s.survey.fenced.extractLsb' (4 * core) 4 != 0 && s.survey.liveCores.getLsbD core
      let ls : List UnitLoss := if second then [.subArray core q, .core core] else [.subArray core q]
      let s := logRecord s ⟨codeSelfTest, 2, unitArray, 4 * core + q, (Config.logIndex unitArray).toNat, ls.length⟩
      .next ((suspectsOf K q).foldl reportSuspect (degrade s ls))

end Sys2Proof.Machine
end

