-- ==== Sys2Proof/Machine/Power.lean ====
section
/-! DEFINITION. Islands, the order of power and Bellows (R14 to R20), power and thermal events (R494). -/
namespace Sys2Proof.Machine

/-! ### Power (R14, R20) -/

/-- What a core keeps without power: which of its sub-arrays are fenced, whether it is withdrawn, and its corrected errors. Its
CLOCK stands at 0 when it has power again, of which the specification does not speak (R13, R406, log 14). -/
def coldCore (K : Core) : Core :=
  { Core.reset with fenced := K.fenced, withdrawn := K.withdrawn, corrected := K.corrected }
/-- Junction temperatures in °C at which a die is throttled, and at which main supply goes (R19, Table 1-5). -/
def throttlePoint : Nat := 100
def tripPoint : Nat := 115
/-- All work and every cached copy go when the cores lose power; every context then reads FREE, its registers as they are, and
dies that are throttled stay so (R494). What CLOCK holds when the cores have power again, R13 does not say: it counts from 0
(log 14). -/
def endWork (s : State) : State :=
  let freed := fun (e : Nat × Ctx) => (e.1, { e.2 with
    state := .free, stopping := false, discarding := false, notified := false, queues := [], pendEnq := [], tensors := []
    tiles := [], serial := false, fault := none, secondary := none, begun := [], dump := none, halted := false, haltOwed := none
    haltName := none, ackBy := none, saveEnd := 4096, saveWaits := false, blockedSince := none })
  { s with
    turn := none, cur := none, fcur := none, launches := [], blocks := [], warps := [], joins := []
    cores := s.cores.map fun e => (e.1, coldCore e.2)
    dies := s.dies.map fun e => (e.1, { e.2 with tlb := [], started := none })
    invals := [], walks := [], hostLines := [], ctxs := s.ctxs.map freed }

/-- The event of power coming up: the next group of islands in order (R20); CORE waits for verified firmware. The device
identity is derived when the AON islands come up (R405, R499), and the Survey image stands in near memory once that has power
(R406, log 98). While a junction stands at its trip point, main supply stays away from all but AON (R19, log 14). -/
def execPowerUp (s : State) : Host.Outcome State Fault Refusal :=
  let up : List Nat → Bool := fun g => g.all (islandOn s)
  match powerGroups.find? fun g => !up g with
  | none => .next s
  | some g =>
    if g = aonIslands then
      let (i, s) := s.fresh
      let bad := !Config.pufGood i
      let t := setPower s g true
      .next { t with dev := { t.dev with pufFailed := bad, fwstat := if bad then 3 else t.dev.fwstat } }
    else if tripPoint ≤ s.dev.temp ∨ (g = coreIslands ∧ s.dev.fwstat ≠ 1) then .next s
    else
      let t := setPower s g true
      let t := { t with dev := { t.dev with mainPower := true } }
      .next (if g = nearIslands then writeSurvey t else t)

/-- The event of power going down: the last group that has it, in the reverse order (R20). Work ends with the cores, the
link with LINK, and with AON all that the controller holds (log 14). -/
def execPowerDown (s : State) : Host.Outcome State Fault Refusal :=
  match powerGroups.reverse.find? fun g => g.any (islandOn s) with
  | none => .next s
  | some g =>
    let t := setPower s g false
    if g = coreIslands then .next { endWork t with dev := { t.dev with fwstat := 0 } }
    else if g = aonIslands then
      .next { State.reset with
        agenda := s.agenda, free := s.free, next := s.next, mem := s.mem, lineKeys := s.lineKeys, poison := s.poison
        survey := s.survey, cores := s.cores.map fun e => (e.1, { coldCore e.2 with corrected := [] }) }
    else
      let link : Bool := t.dev.ideActive && islandOn t 26 && islandOn t 30
      .next { t with dev := { t.dev with ideActive := link, mainPower := islandOn t 25 } }

/-! ### Bellows (R16) -/

/-- The event of a demand: each island that is named asks for a clock, and time passes to the next microsecond, where Bellows
grants (R16). -/
def execBellowsGrant (demand : List Nat) (s : State) : Host.Outcome State Fault Refusal :=
  let want := (List.range 32).map fun i => demand.getD i (s.dev.demand.getD i coreFloor)
  .next (passTime { s with dev := { s.dev with demand := want } } (toMultiple s.tick.toNat grantTicks))

/-! ### Trips and throttling (R494) -/

def releasePoint : Nat := 97
def codePower : Nat := 0x0705
/-- A junction at 115 °C (R19, R494): it is logged, main supply goes from all islands but AON, and every context ends. -/
def thermalTrip (s : State) : State :=
  let s := logTrip s ⟨codePower, 2, unitIsland, (Config.logUnit false).toNat, (Config.logIndex unitIsland).toNat, 0⟩
  let t := setPower (endWork s) ((List.range 32).filter fun i => !aonIslands.contains i) false
  { t with dev := { t.dev with
    mainPower := false, ideActive := false, fwstat := if t.dev.pufFailed then 3 else 0, temp := max tripPoint t.dev.temp } }
/-- The event of a junction at 115 °C. -/
def execThermalTrip (s : State) : Host.Outcome State Fault Refusal := .next (thermalTrip s)
/-- The event of a junction at 100 °C or above: the die is throttled, and it is logged; one at 115 °C or above trips (R19). -/
def execJunctionThrottle (die temp : Nat) (s : State) : Host.Outcome State Fault Refusal :=
  if 8 ≤ die ∨ temp < throttlePoint then .next s
  else
    let t := s.modDie die fun D => { D with throttled := true }
    let t := { t with dev := { t.dev with temp := max (min 255 temp) t.dev.temp } }
    let t := logRecord t ⟨(Config.powerCode false).toNat, 2, unitIsland, 3 * die, (Config.logIndex unitIsland).toNat, 0⟩
    .next (if tripPoint ≤ temp then thermalTrip t else t)
/-- The event of a junction that has been throttled, or has tripped, and falls below 97 °C: its grants are no longer lowered. The
hottest junction is then one of another throttled die, or below 97 °C (log 14). -/
def execThrottleRelease (die : Nat) (s : State) : Host.Outcome State Fault Refusal :=
  if !(s.die die).throttled ∧ s.dev.temp < throttlePoint then .next s
  else
    let t := s.modDie die fun D => { D with throttled := false }
    let (i, t) := t.fresh
    let v := (Config.freeWord i).toNat
    let hot := if t.dies.any (fun e => e.2.throttled) then releasePoint + v % (tripPoint - releasePoint) else v % releasePoint
    .next { t with dev := { t.dev with temp := hot } }

/-- Grants for which a current trip holds the floors. -/
def tripSpan : Nat := 8
/-- The event of a current trip: every CORE island goes to its floor at once, within the microsecond, as R494 has it, and not at
the next grant, where R15 has clocks change (log 14). -/
def execCurrentTrip (s : State) : Host.Outcome State Fault Refusal :=
  let t := setClocks s ((List.range 32).map fun i => if isCoreIsland i then coreFloor else islandClock s i)
  let t := { t with dev := { t.dev with tripGrants := tripSpan, trips := min 255 (t.dev.trips + 1) } }
  .next (logRecord t ⟨(Config.powerCode true).toNat, 2, unitIsland, (Config.logUnit false).toNat,
    (Config.logIndex unitIsland).toNat, 0⟩)

end Sys2Proof.Machine
end

