-- ==== Sys2Proof/Machine/MachineEvents.lean ====
section
/-! DEFINITION. Soft errors (R495), security cases (R499), and what the host and peers do to the module from outside: CXL.mem
accesses (R142), inbound peer accesses (R403), snoops (R141) and the establishment of IDE (R396). -/
namespace Sys2Proof.Machine

/-! ### Soft errors (R495) -/

/-- The home die of a line's address (R126). -/
def homeDie (a : Nat) : Nat := if nearBase ≤ a ∧ a < nearEnd then (a - nearBase) / nearPerDie else a / 65536 % 8
/-- The unit that stores an address: near store or far channel (R125). -/
def memUnit (a : Nat) : Nat × Nat :=
  if nearBase ≤ a ∧ a < nearEnd then (unitNear, homeDie a) else if isFar a then (unitFar, a / 256 % 48) else (unitL2, homeDie a)

/-- Corrections in which a core is withdrawn, and the ticks within which they count. -/
def correctedLimit : Nat := 256
def correctedSpan : Nat := 2 ^ 30
/-- A correction is logged: it counts for its unit and, in a core, against the core. -/
def noteCorrected (s : State) (kind number addr : Nat) (core : Option Nat) : State :=
  let key := errorKey kind number
  let s := { s with dev := { s.dev with errors := Tab.put s.dev.errors key (Tab.read 0 s.dev.errors key + 1) } }
  let now := s.tick.toNat
  let s := match core with
    | some c => s.modCore c fun K => { K with corrected := now :: K.corrected.filter fun t => decide (now < t + correctedSpan) }
    | none => s
  let gone : List UnitLoss := match core with
    | some c => if correctedLimit ≤ (s.core c).corrected.length ∧ !(s.core c).withdrawn then [.core c] else []
    | none => []
  degrade (logRecord s ⟨0, 0, kind, number, addr, gone.length⟩) gone
/-- The event of a corrected error. -/
def execCorrectedError (u : ErrUnit) (s : State) : Host.Outcome State Fault Refusal :=
  .next (noteCorrected s u.kind u.number u.addr u.core)

/-- Log an uncorrectable error of a unit. -/
def noteUncorrected (s : State) (kind number addr : Nat) : State := logRecord s ⟨codeSoftError, 1, kind, number, addr, 0⟩
/-- An uncorrectable error while a context's dump is being written ends the dump (R504). -/
def spoilDump (s : State) (c : Nat) : State :=
  s.modCtx c fun C => if C.dump.isSome then C.spoil codeSoftError else C
/-- Whether an owner is there to be killed. -/
def ownerLives (s : State) (o : Owner) : Bool :=
  match o with
  | .blk b => (s.blk b).placed && (s.blk b).state != .retired
  | .warp w => (Tab.find s.warps w).isSome
/-- Kill the block or spawned warp whose state an error destroys (R483, R485, R495). -/
def killByError (s : State) (o : Owner) : State :=
  if ownerLives s o then
    killOwner (spoilDump s (ownerCtx s o)) o (plainRec codeSoftError (ownerName s o) 0 0 .read)
  else s
/-- Poison the line of an address, and log it. -/
def poisonLine (s : State) (line kind number : Nat) : State :=
  noteUncorrected { s with poison := insertNat s.poison line } kind number (64 * line)
/-- Physical address of an image in a save area, 0 where it is not mapped. -/
def imageAddr (s : State) (o : Owner) : Nat :=
  let off := match (match o with | .blk b => (s.blk b).image | .warp w => (s.warp w).image) with
    | some x => x.1
    | none => 0
  let c := ownerCtx s o
  match walkCtx s c ((s.ctx c).savearea.toNat + off) with
  | .ok (l, e) => let p := leafPlace l e (((s.ctx c).savearea.toNat + off) % 2 ^ 56) false; p.base + p.off
  | .error _ => 0
/-- Retries of a far-memory link. -/
def linkRetries : Nat := 8

/-- The event of an uncorrectable error, by the storage it is in (Table 22-6). -/
def execUncorrectableError (p : ErrPlace) (s : State) : Host.Outcome State Fault Refusal :=
  match p with
  | .registers w =>
    let W := s.warp w
    .next (killByError (noteUncorrected s unitRegs W.core (Config.logIndex unitRegs).toNat) (ownerOf w W))
  | .window b => .next (killByError (noteUncorrected s unitSram (s.blk b).core (Config.logIndex unitSram).toNat) (.blk b))
  | .accumulator b => .next (killByError (noteUncorrected s unitAcc (s.blk b).core (Config.logIndex unitAcc).toNat) (.blk b))
  | .saved o =>
    let a := imageAddr s o
    .next (killByError (noteUncorrected s (memUnit a).1 (memUnit a).2 a) o)
  | .l1 core line =>
    let t := s.modCore core fun K => { K with l1 := K.l1.filter fun e => l1Line e.1 != line }
    .next (noteCorrected t unitSram core (64 * line) (some core))
  | .cleanLine line => .next (noteCorrected s unitL2 (homeDie (64 * line)) (64 * line) none)
  | .dirtyLine line => .next (poisonLine s line unitL2 (homeDie (64 * line)))
  | .nearPinned line => .next (poisonLine s line unitNear (homeDie (64 * line)))
  | .farLine line => .next (poisonLine s line unitFar (64 * line / 256 % 48))
  | .farLink line retries =>
    if retries ≤ linkRetries then .next (noteCorrected s unitFar (64 * line / 256 % 48) (64 * line) none)
    else .next (poisonLine s line unitFar (64 * line / 256 % 48))

/-! ### Security cases (R396, R499) -/

def codeSecurity : Nat := 0x0706
/-- The log record of a security case. -/
def securityLog (kind number raises : Nat) : LogEntry :=
  ⟨codeSecurity, 2, kind, number, (Config.logIndex kind).toNat, raises⟩
/-- A context that is not FREE goes to STOPPED with the code. -/
def stopFor (code : Nat) (C : Ctx) : Ctx :=
  if C.state = .free then C
  else { C.setEvent (eventWith C.event code 0) with stopping := C.stopping || C.state != .stopped }
/-- The event of a failed integrity check of the host link: it is logged, every context goes to STOPPED, and the link carries
nothing more. -/
def execIdeIntegrityFail (s : State) : Host.Outcome State Fault Refusal :=
  if !s.dev.ideActive then .next s
  else
    let s := logRecord s (securityLog unitSecurity (Config.logUnit true).toNat 0)
    let stop := fun (e : Nat × Ctx) => (e.1, stopFor codeSecurity e.2)
    .next { s with ctxs := s.ctxs.map stop, dev := { s.dev with ideActive := false } }
/-- The event of IDE becoming active on a link that has power (R396): log records that were kept go to their ring (R494). -/
def execIdeEstablished (s : State) : Host.Outcome State Fault Refusal :=
  .next (if islandOn s 26 && islandOn s 30 then drainKept { s with dev := { s.dev with ideActive := true } } else s)
/-- The event of a peer flit that fails its check: it is dropped, its port withdrawn, and it is logged. -/
def execPeerFlitAuthFail (port : Nat) (s : State) : Host.Outcome State Fault Refusal :=
  if !s.survey.peerPorts.getLsbD port then .next s
  else .next (degrade (logRecord s (securityLog unitPeer port 1)) [.peerPort port 0])

/-! ### Accesses from outside -/

/-- Bytes of an access. -/
def busSize : BusAccess → Nat
  | .read n => n
  | .write bs => bs.length
  | .atomic _ ty _ _ _ => atomSize ty
  | .compare ty _ _ => atomSize ty
/-- What an access makes of an element that holds a value: nothing for a read or a comparison that fails (R258 to R260). -/
def busNew (acc : BusAccess) (old : Nat) : Option Nat :=
  match acc with
  | .read _ => none
  | .write bs => some (leNat bs)
  | .atomic op ty v rnd draw => some (atomResult op ty old (v.toNat % 2 ^ (8 * atomSize ty)) rnd draw).1
  | .compare ty o v => if old = o.toNat % 2 ^ (8 * atomSize ty) then some (v.toNat % 2 ^ (8 * atomSize ty)) else none
/-- What an outside agent reads: the model's output (log 5). -/
def answer (s : State) (v : Nat) : State := { s with hostOut := BitVec.ofNat 64 v, hostPoison := false }
/-- An access finds no data: poison, which its issuer receives as such, or a key that is not there. What a read returns is open
(R139, R495, logs 2, 102). -/
def noData (s : State) (poison : Bool) (acc : BusAccess) : State :=
  match acc with
  | .write _ => s
  | .read _ | .atomic _ _ _ _ _ | .compare _ _ _ =>
    let (i, t) := s.fresh
    { t with hostOut := Config.freeDouble i, hostPoison := poison }
/-- Whether bytes lie on a poisoned line. -/
def onPoison (s : State) (a n : Nat) : Bool := s.poison.any fun l => overlaps (64 * l) 64 a n

/-- Perform an access of raw physical bytes under a key, coherent with the home L2 (R142, R160). -/
def busAccess (s : State) (key : Option (BitVec 512)) (a : Nat) (acc : BusAccess) : State :=
  match acc with
  | .write bs => writePhys s none key (wholeBytes a bs)
  | .read _ | .atomic _ _ _ _ _ | .compare _ _ _ =>
    let n := busSize acc
    if onPoison s a n then noData s true acc
    else
      let old := leNat (readPhys s key a n)
      answer (match busNew acc old with
        | some v => writePhys s none key (wholeBytes a (leBytes n v))
        | none => s) old

/-- An access of the host to its own memory, which takes a line that it writes from its home L2 (R141, log 5). -/
def ownAccess (off : Nat) (acc : BusAccess) (s : State) : State :=
  let a := hostBase + off
  let lines := match acc with
    | .read _ => s.hostLines
    | .write _ | .atomic _ _ _ _ _ | .compare _ _ _ =>
      s.hostLines.filter fun e => !overlaps (64 * e.1) 64 a (busSize acc)
  if isHost a && isHost (a + busSize acc - 1) then { busAccess s none a acc with hostLines := lines } else s
/-- An access of the host to device memory through a window, which names the key of far memory (R142, R396, R397). -/
def windowAccess (i off : Nat) (acc : BusAccess) (s : State) : State :=
  match s.dev.memwin[i]? with
  | none => s
  | some x =>
    let a := x.base.toNat + off
    let n := busSize acc
    if !s.dev.ideActive || decide (x.size.toNat < off + n) || !physOk s a n then s
    else if isFar a then
      match Tab.find s.keys x.key.toNat with
      | some k => busAccess s (some k) a acc
      | none => noData s false acc
    else busAccess s none a acc

/-- The context under whose address space a port's inbound accesses are translated (R403). -/
def inboundCtx (s : State) (port : Nat) : Option Nat :=
  match s.dev.inboundAsid[port]? with
  | none => none
  | some a => (s.ctxs.find? fun e => e.2.asid == a && e.2.state != .free).map (·.1)
/-- Access kind of an access from outside. -/
def busKind : BusAccess → AccKind
  | .read _ => .read
  | .write _ => .write
  | .atomic _ _ _ _ _ | .compare _ _ _ => .rmw
/-- Perform an inbound access on one element at its place (R108, R160). -/
def inboundAt (s : State) (p : Place) (acc : BusAccess) : State :=
  let n := busSize acc
  let elem : Elem := elemFrom (readPhys s (p.keyOf s)) p n
  let put : List MByte → State := fun ws => writePhys s none (p.keyOf s) ws
  let update : Option Fmt → Nat → State := fun fmt v =>
    if poisoned s p n then noData s true acc
    else
      let (ws, old, _, _) := rmwElem false p n fmt elem [v] fun _ x _ => (busNew acc x, 0)
      answer (put ws) (old.headD 0)
  match acc with
  | .read _ => if poisoned s p n then noData s true acc else answer (holdHost s 1 (p.data n 0)) (elem.copies.headD 0)
  | .write bs => put (storeWrites p n none [leNat bs]).1
  | .atomic _ ty v _ _ => update (atomFmt ty) (v.toNat % 2 ^ (8 * atomSize ty))
  | .compare _ _ v => update none v.toNat
/-- The event of an inbound peer access (R403): it is translated under the port's inbound ASID on die 0's view of the
tables, and one that is refused answers its issuer with PEER_REFUSED. -/
def execPeerInboundAccess (port addr : Nat) (acc : BusAccess) (s : State) : Host.Outcome State Fault Refusal :=
  let n := busSize acc
  if !s.survey.peerPorts.getLsbD port || !([1, 2, 4, 8, 16].contains n) || addr % n != 0 then .next s
  else
    let refused : State → State := fun s => answer s codePeer
    match inboundCtx s port with
    | none => .next (refused s)
    | some c =>
      match translate s (.die 0) c addr with
      | (.error _, s) => .next (refused s)
      | (.ok (l, e), s) =>
        match leafCheck .glob addr n (busKind acc) false e with
        | some _ => .next (refused s)
        | none =>
          let p := leafPlace l e (addr % 2 ^ 56) false
          if p.keyMissing s then .next (refused s) else if linkDown s p then .next s else .next (inboundAt s p acc)

/-- The event of a snoop (R141): data asked of a line leaves it shared, and an invalidation takes it from its home L2. -/
def execHostSnoop (addr : Nat) (k : Snoop) (s : State) : Host.Outcome State Fault Refusal :=
  let line := addr / 64
  if !s.dev.ideActive || (Tab.find s.hostLines line).isNone then .next s
  else
    match k with
    | .data => .next { s with hostLines := Tab.put s.hostLines line 1 }
    | .invalidate => .next { s with hostLines := Tab.drop s.hostLines line }

end Sys2Proof.Machine
end

