-- ==== Sys2Proof/Machine/Registers.lean ====
section
/-! DEFINITION. The device register window (R397, R398) and what its registers do: contexts (R399, R400), keys (R402),
firmware and attestation (R404, R405), acknowledgement (R407), the debug registers (R410, R412, R500, R501), the Hourglass
(R419), the save area (R472, R520), power (R17) and the machine log (R496). -/
namespace Sys2Proof.Machine

/-! ### The map of the window (Tables 15-1, 15-2, 16-2, 21-3, 22-2, R419, R494, R496, R501) -/

/-- A register of the window. -/
inductive WinReg where
  | devid | rmver | pwrlim | nearpart | surveyaddr
  | fwaddr | fwlen | fwgo | fwstat
  | keyslot | keyop | keydata (i : Nat)
  | attnonce (i : Nat) | attaddr | attgo | attstat
  | winBase (i : Nat) | winSize (i : Nat) | winKey (i : Nat)
  | mcbase | mcsize | mchead | mctail | mclost | pwrstat
  | hgctl | hgbase | hgsize | hghead | hgtail | hglost
  | ctxctl (c : Nat) | root (c : Nat) | lqbase (c : Nat) | lqsize (c : Nat) | lqread (c : Nat) | notify (c : Nat)
  | tqtable (c : Nat) | savearea (c : Nat) | savesize (c : Nat) | budget (c i : Nat) | rmack (c : Nat) | tagclr (c : Nat)
  | event (c : Nat) | bfhead (c : Nat) | bftail (c : Nat) | bfreply (c : Nat) | evinfo (c : Nat) | evaddr (c : Nat)
  | dumpaddr (c : Nat)
  | dbgctl (c : Nat) | dbgstat (c : Nat) | trbase (c : Nat) | trsize (c : Nat) | trhead (c : Nat) | trtail (c : Nat)
  | trmask (c : Nat) | trlost (c : Nat) | bpaddr (c i : Nat) | bpctl (c i : Nat) | dbgicaddr (c : Nat) | dbgiclen (c : Nat)
deriving DecidableEq, Repr

/-- Registers of the debug area of a context page (Table 16-2, R501). -/
def debugReg (c o : Nat) : Option WinReg :=
  if 0x140 ≤ o ∧ o < 0x1C0 then
    if o % 16 = 0 then some (.bpaddr c ((o - 0x140) / 16)) else if o % 16 = 8 then some (.bpctl c ((o - 0x140) / 16)) else none
  else if o = 0x100 then some (.dbgctl c) else if o = 0x108 then some (.dbgstat c) else if o = 0x110 then some (.trbase c)
  else if o = 0x118 then some (.trsize c) else if o = 0x120 then some (.trhead c) else if o = 0x124 then some (.trtail c)
  else if o = 0x128 then some (.trmask c) else if o = 0x12C then some (.trlost c) else if o = 0x1C0 then some (.dbgicaddr c)
  else if o = 0x1C8 then some (.dbgiclen c) else none
/-- Registers of a context page (Tables 15-2, 21-3, 22-2). -/
def pageReg (c o : Nat) : Option WinReg :=
  if 0x100 ≤ o then debugReg c o
  else if 0x40 ≤ o ∧ o < 0x78 ∧ o % 8 = 0 then some (.budget c ((o - 0x40) / 8))
  else if o = 0 then some (.ctxctl c) else if o = 8 then some (.root c) else if o = 0x10 then some (.lqbase c)
  else if o = 0x18 then some (.lqsize c) else if o = 0x20 then some (.lqread c) else if o = 0x24 then some (.notify c)
  else if o = 0x28 then some (.tqtable c) else if o = 0x30 then some (.savearea c) else if o = 0x38 then some (.savesize c)
  else if o = 0x80 then some (.rmack c) else if o = 0x88 then some (.tagclr c) else if o = 0x90 then some (.event c)
  else if o = 0x98 then some (.bfhead c) else if o = 0x9C then some (.bftail c) else if o = 0xA0 then some (.bfreply c)
  else if o = 0xA8 then some (.evinfo c) else if o = 0xB0 then some (.evaddr c) else if o = 0xB8 then some (.dumpaddr c)
  else none
/-- Registers of the device part (Table 15-1); registers listed together follow one another by 8 bytes (log 37). -/
def deviceReg (o : Nat) : Option WinReg :=
  if 0x210 ≤ o ∧ o < 0x250 ∧ o % 8 = 0 then some (.keydata ((o - 0x210) / 8))
  else if 0x300 ≤ o ∧ o < 0x320 ∧ o % 8 = 0 then some (.attnonce ((o - 0x300) / 8))
  else if 0x400 ≤ o ∧ o < 0x580 ∧ o % 8 = 0 then
    let k := (o - 0x400) / 8
    some (if k % 3 = 0 then .winBase (k / 3) else if k % 3 = 1 then .winSize (k / 3) else .winKey (k / 3))
  else if o = 0 then some .devid else if o = 8 then some .rmver else if o = 0x10 then some .pwrlim
  else if o = 0x18 then some .nearpart else if o = 0x20 then some .surveyaddr else if o = 0x100 then some .fwaddr
  else if o = 0x108 then some .fwlen else if o = 0x110 then some .fwgo else if o = 0x118 then some .fwstat
  else if o = 0x200 then some .keyslot else if o = 0x208 then some .keyop else if o = 0x320 then some .attaddr
  else if o = 0x328 then some .attgo else if o = 0x330 then some .attstat else if o = 0x600 then some .mcbase
  else if o = 0x608 then some .mcsize else if o = 0x610 then some .mchead else if o = 0x614 then some .mctail
  else if o = 0x618 then some .mclost else if o = 0x620 then some .pwrstat else if o = 0x800 then some .hgctl
  else if o = 0x808 then some .hgbase else if o = 0x810 then some .hgsize else if o = 0x818 then some .hghead
  else if o = 0x820 then some .hgtail else if o = 0x828 then some .hglost else none
/-- Bytes of the window, and where its context pages begin (R397). -/
def windowSpan : Nat := 0x200000
def pagesBase : Nat := 0x10000
/-- The register that begins at an offset. -/
def regAt (off : Nat) : Option WinReg :=
  if off < pagesBase then deviceReg off
  else
    let c := (off - pagesBase) / 0x1000
    if c < Config.contexts then pageReg c (off % 0x1000) else none
/-- The registers that are 4 bytes wide (R397). -/
def WinReg.narrow : WinReg → Bool
  | .lqread _ | .notify _ | .bfhead _ | .bftail _ | .trhead _ | .trtail _ | .trmask _ | .trlost _ | .mchead | .mctail => true
  | _ => false
/-- The firmware registers, which alone are open before IDE is active (R396). -/
def WinReg.firmware : WinReg → Bool
  | .fwaddr | .fwlen | .fwgo | .fwstat => true
  | _ => false
/-- The context whose DBGR a register needs (R410). -/
def WinReg.debugOf : WinReg → Option Nat
  | .dbgctl c | .dbgstat c | .trbase c | .trsize c | .trhead c | .trtail c | .trmask c | .trlost c | .bpaddr c _ | .bpctl c _
  | .dbgicaddr c | .dbgiclen c => some c
  | _ => none
/-- Whether the window accepts a register (R396, R410): the debug registers need the debug right. -/
def regOpen (s : State) (r : WinReg) : Bool :=
  (s.dev.ideActive || (r.firmware && islandOn s 27))
    && (match r.debugOf with | some c => (s.ctx c).dbgr | none => true)

/-! ### What registers hold (R6, R397) -/

/-- Code of a context's state (Table 15-3). -/
def stateCode : CtxState → Nat | .free => 0 | .stopped => 1 | .running => 2 | .suspended => 3
/-- CTXCTL as it reads (Table 15-3). -/
def ctxctlValue (C : Ctx) : Nat :=
  C.asid * 256 + (if C.dbgr then 8 else 0) + (if C.sysr then 4 else 0) + stateCode C.state
/-- What a register holds. -/
def regValue (s : State) (r : WinReg) : Nat :=
  let D := s.dev
  match r with
  | .devid => 0x474C4433
  | .rmver => D.rmver.toNat
  | .pwrlim => D.pwrLimit.toNat + (if D.pwrLock then 65536 else 0)
  | .nearpart => D.nearpartNext.getD D.nearpart
  | .surveyaddr => D.surveyAddr.toNat
  | .fwaddr => D.fwaddr.toNat
  | .fwlen => D.fwlen.toNat
  | .fwgo => D.fwgo.toNat
  | .fwstat => D.fwstat.toNat
  | .keyslot => D.keyslot.toNat
  | .keyop => match D.keyPending with
    | some (_, some _) => 1
    | some (_, none) => 2
    | none => 0
  | .keydata _ => 0
  | .attnonce i => (D.attnonce.getD i 0).toNat
  | .attaddr => D.attaddr.toNat
  | .attgo => D.attgo.toNat
  | .attstat => D.attstat.toNat
  | .winBase i => (D.memwin.getD i ⟨0, 0, 0⟩).base.toNat
  | .winSize i => (D.memwin.getD i ⟨0, 0, 0⟩).size.toNat
  | .winKey i => (D.memwin.getD i ⟨0, 0, 0⟩).key.toNat
  | .mcbase => D.mcbase.toNat
  | .mcsize => D.mcsize.toNat
  | .mchead => D.mchead.toNat
  | .mctail => D.mctail.toNat
  | .mclost => D.mclost.toNat
  | .pwrstat => D.temp % 256 + D.trips % 256 * 256
  | .hgctl => (if D.hgOn then 1 else 0) + D.hgK * 256
  | .hgbase => D.hgbase.toNat
  | .hgsize => D.hgsize.toNat
  | .hghead => D.hghead.toNat
  | .hgtail => D.hgtail.toNat
  | .hglost => D.hglost.toNat
  | .ctxctl c => ctxctlValue (s.ctx c)
  | .root c => (s.ctx c).root.toNat
  | .lqbase c => (s.ctx c).lqbase.toNat
  | .lqsize c => (s.ctx c).lqsize.toNat
  | .lqread c => (s.ctx c).lqread.toNat
  | .notify c => (s.ctx c).notify.toNat
  | .tqtable c => (s.ctx c).tqtable.toNat
  | .savearea c => (s.ctx c).savearea.toNat
  | .savesize c => (s.ctx c).savesize.toNat
  | .budget c i => ((s.ctx c).budgets.getD i 0).toNat
  | .rmack c => (s.ctx c).rmack.toNat
  | .tagclr _ => 0
  | .event c => (s.ctx c).event.toNat
  | .bfhead c => (s.ctx c).bfhead.toNat
  | .bftail c => (s.ctx c).bftail.toNat
  | .bfreply c => (s.ctx c).bfreply.toNat
  | .evinfo c => (s.ctx c).evinfo.toNat
  | .evaddr c => (s.ctx c).evaddr.toNat
  | .dumpaddr c => (s.ctx c).dumpaddr.toNat
  | .dbgctl c => (s.ctx c).dbgctl.toNat
  | .dbgstat c => (s.ctx c).dbgstat.toNat
  | .trbase c => (s.ctx c).trbase.toNat
  | .trsize c => (s.ctx c).trsize.toNat
  | .trhead c => (s.ctx c).trhead.toNat
  | .trtail c => (s.ctx c).trtail.toNat
  | .trmask c => (s.ctx c).trmask.toNat
  | .trlost c => (s.ctx c).trlost.toNat
  | .bpaddr c i => ((s.ctx c).comparators.getD i ⟨0, 0⟩).addr.toNat
  | .bpctl c i => ((s.ctx c).comparators.getD i ⟨0, 0⟩).ctl.toNat
  | .dbgicaddr c => (s.ctx c).dbgicaddr.toNat
  | .dbgiclen c => (s.ctx c).dbgiclen.toNat
/-- What a read of a register returns: 0 where the window does not accept it. -/
def regRead (s : State) (r : WinReg) : Nat := if regOpen s r then regValue s r else 0

/-! ### Device registers -/

/-- Change the device part. -/
def State.modDev (s : State) (f : Device → Device) : State := { s with dev := f s.dev }

/-- A write of PWRLIM (R17). -/
def writePwrlim (s : State) (v : Nat) : State :=
  if s.dev.pwrLock then s
  else s.modDev fun D => { D with
    pwrLimit := BitVec.ofNat 16 (max 1500 (min 4400 (v % 65536))), pwrLock := v.testBit 16 }

/-- Whether a context runs. -/
def anyRunning (s : State) : Bool := s.ctxs.any fun e => e.2.state == .running
/-- The pinned part that was last written takes effect while no context runs (R127, log 38). -/
def applyNearpart (s : State) : State :=
  match s.dev.nearpartNext with
  | none => s
  | some n => if anyRunning s then s else s.modDev fun D => { D with nearpart := n, nearpartNext := none }
/-- A write of NEARPART: at most 32 (R127). -/
def writeNearpart (s : State) (v : Nat) : State :=
  applyNearpart (s.modDev fun D => { D with nearpartNext := some (min v 32) })

/-- A write of FWGO: 1 begins a verification unless one runs (R404). -/
def writeFwgo (s : State) (v : Nat) : State :=
  if s.dev.fwBusy then s else s.modDev fun D => { D with fwgo := BitVec.ofNat 64 v, fwBusy := v == 1 }
/-- A write of ATTGO: a request unless one is pending (R405). -/
def writeAttgo (s : State) (v : Nat) : State :=
  if s.dev.attBusy then s else s.modDev fun D => { D with attgo := BitVec.ofNat 64 v, attBusy := true }
/-- A write of KEYOP: 1 LOAD, 2 CLEAR (R402, R499). -/
def writeKeyop (s : State) (v : Nat) : State :=
  let D := s.dev
  if D.keyPending.isSome ∨ Config.keySlots ≤ D.keyslot.toNat then s
  else if v = 1 then
    let key : BitVec 512 := BitVec.ofNat 512 (D.keydata.zipIdx.foldl (fun a e => a + e.1.toNat * 2 ^ (64 * e.2)) 0)
    s.modDev fun D => { D with keyPending := some (D.keyslot.toNat, some key) }
  else if v = 2 then s.modDev fun D => { D with keyPending := some (D.keyslot.toNat, none) }
  else s
/-- A write of HGCTL (R419): k only while OFF, and in its range (log 38). -/
def writeHgctl (s : State) (v : Nat) : State :=
  let k := v / 256 % 32
  s.modDev fun D => { D with
    hgOn := v.testBit 0
    hgK := if D.hgOn ∨ k < 10 ∨ 24 < k then D.hgK else k
    hgCounts := if D.hgOn then D.hgCounts else [] }
/-- Change a CXL.mem window. -/
def modWin (s : State) (i : Nat) (f : MemWin → MemWin) : State := s.modDev fun D => { D with memwin := modAt D.memwin i f }

/-! ### Contexts (R398 to R400, R407) -/

/-- A write of NOTIFY (R400); it restarts the deadlock watch (R484). -/
def writeNotify (s : State) (c v : Nat) : State :=
  s.modCtx c fun C => { C with notify := BitVec.ofNat 32 v, notified := true, blockedSince := none }
/-- A write of RMACK (R407). -/
def writeRmack (s : State) (c v : Nat) : State :=
  let w := BitVec.ofNat 32 v
  s.modCtx c fun C => { C with
    rmack := BitVec.ofNat 64 (v % 2 ^ 32), ackVersion := w, ackBy := if w = s.dev.rmver then none else C.ackBy }
/-- A write of TAGCLR frees a tensor record and its entries (R368, R398). -/
def writeTagclr (s : State) (c v : Nat) : State :=
  let t := v % 65536
  s.modCtx c fun C => { C with
    tensors := C.tensors.filter fun e => e.1 != t, tiles := C.tiles.filter fun e => e.1 / 2 ^ 32 != t }
/-- A write of SAVEAREA or SAVESIZE (R472): only while nothing is saved, but SAVESIZE may always be raised. Each retries the
saves that wait (R520). -/
def writeSave (s : State) (c : Nat) (size : Bool) (v : Nat) : State :=
  let may := !anySaved s c || (size && decide ((s.ctx c).savesize.toNat ≤ v))
  s.modCtx c fun C =>
    let D := if !may then C else if size then { C with savesize := BitVec.ofNat 64 v } else { C with savearea := BitVec.ofNat 64 v }
    { D with saveWaits := false }

/-- Whether another context that is not FREE holds an ASID (R399). -/
def asidTaken (s : State) (c asid : Nat) : Bool := s.ctxs.any fun e => e.1 != c && e.2.state != .free && e.2.asid == asid
/-- The rights and ASID of a write of CTXCTL (Table 15-3). -/
def setRights (C : Ctx) (v : Nat) : Ctx := { C with asid := v / 256 % 256, dbgr := v.testBit 3, sysr := v.testBit 2 }
/-- Owners of a context whose work is halted. -/
def haltedOwners (s : State) (c : Nat) : List Owner := (ownersOf s c).filter (ownerHalted s)
/-- Comparators that are off. -/
def noComparators : List Comparator := List.replicate 8 ⟨0, 0xFFFFFFFF00000000⟩
def codeDebugRevoked : Nat := 0x0802
/-- The debug right is cleared (R500): with work halted, its edits stand, the halt is dropped, the comparators are cleared,
the work is unmarked, and DBGREVOKED is set, with its code, in EVENT and in the records of open launches (R455, R456). -/
def revokeDebug (s : State) (c : Nat) : State :=
  if haltedOwners s c = [] then unhalt s c false
  else
    let s := unhalt s c true
    let s := s.modCtx c fun C => { C.setEvent (eventWith C.event codeDebugRevoked 0x20) with comparators := noComparators }
    let mark := fun (e : Nat × Launch) =>
      if e.2.ctx = c ∧ e.2.isOpen then (e.1, { e.2 with
        status := e.2.status ||| 8, reason := if e.2.reason = 0 then codeDebugRevoked else e.2.reason }) else e
    { s with launches := s.launches.map mark }
/-- A write of ASID and rights to a context that is FREE or STOPPED (R398, R500). -/
def writeRights (s : State) (c v : Nat) : State :=
  let s := if (s.ctx c).dbgr && !v.testBit 3 then revokeDebug s c else s
  s.modCtx c fun C => setRights C v

/-- A write of CTXCTL (R399): STATE 0, 1 or 2. A write that no transition allows changes nothing (log 39). -/
def writeCtxctl (s : State) (c v : Nat) : State :=
  let C := s.ctx c
  let st := v % 4
  if C.discarding ∨ st = 3 then s
  else
    match C.state with
    | .free => if st = 1 then s.modCtx c fun C => { setRights C v with state := .stopped } else s
    | .stopped =>
      if st = 0 then s.modCtx c fun C => { C with discarding := true }
      else if st = 1 then writeRights s c v
      else if asidTaken s c (v / 256 % 256) then s
      else (applyNearpart (writeRights s c v)).modCtx c fun C => { C with state := .running }
    | .running => if st = 1 then s.modCtx c fun C => { C with stopping := true } else s
    | .suspended =>
      if st = 1 then s.modCtx c fun C => { C with stopping := true }
      else if st = 2 ∧ C.ackVersion = s.dev.rmver ∧ !C.stopping ∧ !asidTaken s c C.asid then
        (applyNearpart s).modCtx c fun C => { C with state := .running }
      else s

/-! ### Debug registers (R410 to R412, R501) -/

/-- A write of DBGCTL: ARM and TRACE are stored, HALT halts all work unless some is halted already, and RESUME resumes it. -/
def writeDbgctl (s : State) (c v : Nat) : State :=
  let s := s.modCtx c fun C => { C with dbgctl := (C.dbgctl &&& 1) ||| BitVec.ofNat 64 (v / 4 % 4 * 4) }
  let s := if v.testBit 0 && (haltedOwners s c).isEmpty && !(s.ctx c).halted then
      oweHalt ((haltContext s c).modCtx c fun C => { C with dbgctl := C.dbgctl ||| 1 }) c haltIndex 0 none
    else s
  if v.testBit 1 then unhalt s c true else s
/-- A write of DBGICLEN: an invalidation over the range on every core of the device (R501). -/
def writeDbgiclen (s : State) (c v : Nat) : State :=
  let (id, s) := s.stamp
  let lo := (s.ctx c).dbgicaddr.toNat % 2 ^ 56
  { s.modCtx c fun C => { C with dbgiclen := BitVec.ofNat 64 v } with
    invals := s.invals ++ [⟨id, .code allCores c lo v, some c⟩] }
/-- Change a comparator. -/
def modComparator (s : State) (c i : Nat) (f : Comparator → Comparator) : State :=
  s.modCtx c fun C => { C with comparators := modAt C.comparators i f }
/-- A write of BFREPLY (R473, Table 21-3); each counts as progress (R484). -/
def writeBfreply (s : State) (c v : Nat) : State :=
  let s := replied (s.modCtx c fun C => { C with bfreply := BitVec.ofNat 64 (v % 2 ^ 34) }) c
  let n := v % 2 ^ 32
  match v / 2 ^ 32 % 4 with
  | 0 => retryRecord s c n
  | 1 => killRecord s c n
  | 2 => restartRecord s c n
  | _ => s
/-- A write of BFTAIL: waiting records are written (R472). -/
def writeBftail (s : State) (c v : Nat) : State :=
  (ownersOf s c).foldl reportOwner (s.modCtx c fun C => { C with bftail := BitVec.ofNat 32 v })

/-! ### Writes of the window (R397) -/

/-- Write a whole register; read-only ones keep what they hold, and reserved fields read as 0, those of the reserved record
types in TRMASK among them (R6, Table 16-5). A write of the machine log's registers may make room for records kept
(R494). -/
def writeReg (s : State) (r : WinReg) (v : Nat) : State :=
  let d : Double := BitVec.ofNat 64 v
  let w : Word := BitVec.ofNat 32 v
  match r with
  | .devid | .rmver | .surveyaddr | .fwstat | .attstat | .mchead | .mclost | .pwrstat | .hghead | .hglost | .lqread _
  | .event _ | .bfhead _ | .evinfo _ | .evaddr _ | .dumpaddr _ | .dbgstat _ | .trhead _ | .trlost _ => s
  | .pwrlim => writePwrlim s v
  | .nearpart => writeNearpart s v
  | .fwaddr => s.modDev fun D => { D with fwaddr := d }
  | .fwlen => s.modDev fun D => { D with fwlen := d }
  | .fwgo => writeFwgo s v
  | .keyslot => s.modDev fun D => { D with keyslot := d }
  | .keyop => writeKeyop s v
  | .keydata i => s.modDev fun D => { D with keydata := setAt D.keydata i d }
  | .attnonce i => s.modDev fun D => { D with attnonce := setAt D.attnonce i d }
  | .attaddr => s.modDev fun D => { D with attaddr := d }
  | .attgo => writeAttgo s v
  | .winBase i => modWin s i fun x => { x with base := d }
  | .winSize i => modWin s i fun x => { x with size := d }
  | .winKey i => modWin s i fun x => { x with key := d }
  | .mcbase => drainKept (s.modDev fun D => { D with mcbase := d })
  | .mcsize => drainKept (s.modDev fun D => { D with mcsize := d })
  | .mctail => drainKept (s.modDev fun D => { D with mctail := w })
  | .hgctl => writeHgctl s v
  | .hgbase => s.modDev fun D => { D with hgbase := if D.hgOn then D.hgbase else d }
  | .hgsize => s.modDev fun D => { D with hgsize := if D.hgOn then D.hgsize else d }
  | .hgtail => s.modDev fun D => { D with hgtail := d }
  | .ctxctl c => writeCtxctl s c v
  | .root c => s.modCtx c fun C => { C with root := if C.state = .free ∨ C.state = .stopped then d else C.root }
  | .lqbase c => s.modCtx c fun C => { C with lqbase := d }
  | .lqsize c => s.modCtx c fun C => { C with lqsize := d }
  | .notify c => writeNotify s c v
  | .tqtable c => s.modCtx c fun C => { C with tqtable := d }
  | .savearea c => writeSave s c false v
  | .savesize c => writeSave s c true v
  | .budget c i => s.modCtx c fun C => { C with budgets := setAt C.budgets i (BitVec.ofNat 64 (v % 2 ^ 32)) }
  | .rmack c => writeRmack s c v
  | .tagclr c => writeTagclr s c v
  | .bftail c => writeBftail s c v
  | .bfreply c => writeBfreply s c v
  | .dbgctl c => writeDbgctl s c v
  | .trbase c => s.modCtx c fun C => { C with trbase := d }
  | .trsize c => s.modCtx c fun C => { C with trsize := d }
  | .trtail c => s.modCtx c fun C => { C with trtail := w }
  | .trmask c => s.modCtx c fun C => { C with trmask := BitVec.ofNat 32 (v % 256) }
  | .bpaddr c i => modComparator s c i fun x => { x with addr := d }
  | .bpctl c i => modComparator s c i fun x => { x with ctl := BitVec.ofNat 64 (v / 2 ^ 32 % 2 ^ 32 * 2 ^ 32 + v % 8) }
  | .dbgicaddr c => s.modCtx c fun C => { C with dbgicaddr := d }
  | .dbgiclen c => writeDbgiclen s c v
/-- Write a register that the window accepts. -/
def putReg (s : State) (r : WinReg) (v : Nat) : State := if regOpen s r then writeReg s r v else s
/-- What the stored half of a register is, for a write of the other half; KEYDATA cannot be read, and is kept all the same. -/
def regStored (s : State) (r : WinReg) : Nat :=
  match r with
  | .keydata i => (s.dev.keydata.getD i 0).toNat
  | _ => regValue s r
/-- A 4-byte write at an aligned offset: a 4-byte register, or half of an 8-byte one. -/
def write4 (s : State) (off v : Nat) : State :=
  let v := v % 2 ^ 32
  match regAt off with
  | some r => putReg s r (if r.narrow then v else regStored s r / 2 ^ 32 * 2 ^ 32 + v)
  | none =>
    match (if off % 8 = 4 then regAt (off - 4) else none) with
    | some r => if r.narrow then s else putReg s r (v * 2 ^ 32 + regStored s r % 2 ^ 32)
    | none => s
/-- A write of the window (R397): aligned accesses of 4 or 8 bytes; any other is ignored. -/
def windowWrite (s : State) (off size v : Nat) : State :=
  if windowSpan ≤ off ∨ off % max 1 size ≠ 0 then s
  else if size = 4 then write4 s off v
  else if size = 8 then
    match regAt off with
    | some r => if r.narrow then write4 (write4 s off v) (off + 4) (v / 2 ^ 32) else putReg s r (v % 2 ^ 64)
    | none => s
  else s

/-! ### Reads of the window (R397) -/

/-- The bits of a register that a read reaches are cleared where reading clears it (R413, R419, R486, R494, R496); of a read of
half of such a register that is its half (log 99). -/
def clearRead (s : State) (r : WinReg) (bits : Double) : State :=
  match r with
  | .event c => s.modCtx c fun C => { C with event := C.event &&& ~~~bits }
  | .trlost c => s.modCtx c fun C => { C with trlost := C.trlost &&& ~~~(bits.setWidth 32) }
  | .hglost => s.modDev fun D => { D with hglost := D.hglost &&& ~~~bits }
  | .mclost => s.modDev fun D => { D with mclost := D.mclost &&& ~~~(bits.setWidth 32) }
  | .pwrstat => s.modDev fun D => { D with trips := (BitVec.ofNat 8 D.trips &&& ~~~((bits >>> 8).setWidth 8)).toNat }
  | _ => s
/-- Read some bits of a register: 0 where the window does not accept it. -/
def readReg (s : State) (r : WinReg) (bits : Double) : Nat × State :=
  if regOpen s r then (regValue s r, clearRead s r bits) else (0, s)
/-- A 4-byte read at an aligned offset: a 4-byte register, or half of an 8-byte one. -/
def read4 (s : State) (off : Nat) : Nat × State :=
  match regAt off with
  | some r => let (v, t) := readReg s r 0xFFFFFFFF; (v % 2 ^ 32, t)
  | none =>
    match (if off % 8 = 4 then regAt (off - 4) else none) with
    | some r => if r.narrow then (0, s) else let (v, t) := readReg s r 0xFFFFFFFF00000000; (v / 2 ^ 32 % 2 ^ 32, t)
    | none => (0, s)
/-- A read of the window (R397): aligned accesses of 4 or 8 bytes; any other reads as 0. -/
def registerRead (s : State) (off size : Nat) : Nat × State :=
  if windowSpan ≤ off ∨ off % max 1 size ≠ 0 then (0, s)
  else if size = 4 then read4 s off
  else if size = 8 then
    match regAt off with
    | some r =>
      if r.narrow then
        let (lo, s) := read4 s off
        let (hi, s) := read4 s (off + 4)
        (lo + 2 ^ 32 * hi, s)
      else readReg s r (BitVec.allOnes 64)
    | none => (0, s)
  else (0, s)

/-! ### The register events -/

/-- The event of a write that a register of its own takes. -/
def regEvent (s : State) (r : WinReg) (v : Nat) : Host.Outcome State Fault Refusal := .next (putReg s r v)
/-- A value of CTXCTL with another STATE. -/
def withState (v : Double) (st : Nat) : Nat := v.toNat / 4 * 4 + st

def execPwrlimWrite (v : Double) (s : State) : Host.Outcome State Fault Refusal := regEvent s .pwrlim v.toNat
def execNearpartWrite (v : Double) (s : State) : Host.Outcome State Fault Refusal := regEvent s .nearpart v.toNat
def execFwgoWrite (v : Double) (s : State) : Host.Outcome State Fault Refusal := regEvent s .fwgo v.toNat
def execAttgoWrite (v : Double) (s : State) : Host.Outcome State Fault Refusal := regEvent s .attgo v.toNat
def execKeyopLoad (s : State) : Host.Outcome State Fault Refusal := regEvent s .keyop 1
def execKeyopClear (s : State) : Host.Outcome State Fault Refusal := regEvent s .keyop 2
def execNotifyWrite (c : Nat) (v : Word) (s : State) : Host.Outcome State Fault Refusal := regEvent s (.notify c) v.toNat
def execCtxStateStop (c : Nat) (v : Double) (s : State) : Host.Outcome State Fault Refusal :=
  regEvent s (.ctxctl c) (withState v 1)
def execCtxStateRun (c : Nat) (v : Double) (s : State) : Host.Outcome State Fault Refusal :=
  regEvent s (.ctxctl c) (withState v 2)
def execCtxStateFree (c : Nat) (v : Double) (s : State) : Host.Outcome State Fault Refusal :=
  regEvent s (.ctxctl c) (withState v 0)
def execTagclrWrite (c : Nat) (v : Double) (s : State) : Host.Outcome State Fault Refusal := regEvent s (.tagclr c) v.toNat
def execRmackWrite (c : Nat) (v : Double) (s : State) : Host.Outcome State Fault Refusal := regEvent s (.rmack c) v.toNat
def execSaveAreaWrite (c : Nat) (size : Bool) (v : Double) (s : State) : Host.Outcome State Fault Refusal :=
  regEvent s (if size then .savesize c else .savearea c) v.toNat
def execDbgctlHalt (c : Nat) (v : Double) (s : State) : Host.Outcome State Fault Refusal :=
  regEvent s (.dbgctl c) (v.toNat ||| 1)
def execDbgctlResume (c : Nat) (v : Double) (s : State) : Host.Outcome State Fault Refusal :=
  regEvent s (.dbgctl c) (v.toNat ||| 2)
def execDbgiclenWrite (c : Nat) (v : Double) (s : State) : Host.Outcome State Fault Refusal := regEvent s (.dbgiclen c) v.toNat
def execRegisterWrite (off size : Nat) (v : Double) (s : State) : Host.Outcome State Fault Refusal :=
  .next (windowWrite s off size v.toNat)
/-- A write of CTXCTL that clears DBGR, STATE as the context stands (R500). -/
def execDebugRightClear (c : Nat) (v : Double) (s : State) : Host.Outcome State Fault Refusal :=
  regEvent s (.ctxctl c) (v.toNat / 16 * 16 + v.toNat % 8 / 4 * 4 + 1)

/-- Read a whole register: the host takes what it reads. -/
def hostRead (s : State) (r : WinReg) : State :=
  let (v, t) := readReg s r (BitVec.allOnes 64)
  answer t v
/-- A read of EVENT returns it and clears it (R486). -/
def execEventRead (c : Nat) (s : State) : Host.Outcome State Fault Refusal := .next (hostRead s (.event c))
def execTrlostRead (c : Nat) (s : State) : Host.Outcome State Fault Refusal := .next (hostRead s (.trlost c))
def execHglostRead (s : State) : Host.Outcome State Fault Refusal := .next (hostRead s .hglost)
def execMclostRead (s : State) : Host.Outcome State Fault Refusal := .next (hostRead s .mclost)
/-- A read of PWRSTAT clears its count of trips (R494). -/
def execPwrstatRead (s : State) : Host.Outcome State Fault Refusal := .next (hostRead s .pwrstat)

/-! ### Accesses of the host (R142, R397, R403) -/

/-- An access to the register window: one that neither reads nor writes reads as 0 and is ignored. -/
def registerAccess (off : Nat) (acc : BusAccess) (s : State) : State :=
  match acc with
  | .read n => let (v, t) := registerRead s off n; answer t v
  | .write bs => windowWrite s off bs.length (leNat bs)
  | .atomic _ _ _ _ _ | .compare _ _ _ => answer s 0
/-- The event of a host access: through a window onto device memory, to its own memory, or to the register window; and the
host's choice of the ASID for a port's inbound accesses, for which the specification names no register (R403, log 92). -/
def execHostMemAccess (target : HostTarget) (off : Nat) (acc : BusAccess) (s : State) : Host.Outcome State Fault Refusal :=
  match target with
  | .window i => .next (windowAccess i off acc s)
  | .own => .next (ownAccess off acc s)
  | .registers => .next (registerAccess off acc s)
  | .inbound port =>
    match acc with
    | .write bs => .next (s.modDev fun D => { D with inboundAsid := setAt D.inboundAsid port (leNat bs % 256) })
    | .read _ | .atomic _ _ _ _ _ | .compare _ _ _ => .next s

/-! ### The security controller (R402, R404, R405, R499) -/

/-- The event of a verification that ends (R404): the image is measured, and FWSTAT says whether its signature is good; CORE
then has power if the islands before it do (R20). -/
def execFirmwareVerifyDone (s : State) : Host.Outcome State Fault Refusal :=
  let D := s.dev
  if !D.fwBusy then .next s
  else
    let image := readPhys s none D.fwaddr.toNat D.fwlen.toNat
    let good := Config.firmwareSignatureGood image && !D.pufFailed
    let t := s.modDev fun D => { D with
      fwBusy := false, measurement := shake256 image 64, fwstat := if D.pufFailed then 3 else if good then 1 else 2 }
    let ready := (powerGroups.take 4).all fun g => g.all (islandOn s)
    .next (if good && ready then setPower t coreIslands true else t)

/-- Bytes of a list, cut or filled with zeros to a length. -/
def fitBytes (n : Nat) (bs : List Byte) : List Byte := (bs ++ List.replicate n 0).take n
/-- The part of an attestation report that its signature covers (Table 15-4). -/
def reportBody (D : Device) : List Byte :=
  leBytes 4 0x41545354 ++ leBytes 4 1 ++ D.attnonce.flatMap (fun x => leBytes 8 x.toNat) ++ fitBytes 64 D.measurement
  ++ leBytes 4 D.rmver.toNat ++ leBytes 4 0 ++ fitBytes 64 Config.deviceIdentity
/-- Bytes of a signature. -/
def signatureBytes : Nat := 29792
/-- The event of a report that is written (R405), or of a request that a failed PUF turns away (R499). -/
def execAttestReportDone (s : State) : Host.Outcome State Fault Refusal :=
  let D := s.dev
  if !D.attBusy then .next s
  else if D.pufFailed then .next (s.modDev fun D => { D with attBusy := false, attstat := 2 })
  else
    let body := reportBody D
    let report := body ++ fitBytes signatureBytes (Config.attestSignature body)
    let t := if physOk s D.attaddr.toNat report.length then putPhys s D.attaddr.toNat report else s
    .next (t.modDev fun D => { D with attBusy := false, attstat := 1 })

/-- The event of a key operation that completes (R402): accesses that began earlier are performed first, and those that begin
later use the new contents. -/
def execKeyOpComplete (s : State) : Host.Outcome State Fault Refusal :=
  match s.dev.keyPending with
  | none => .next s
  | some (slot, key) =>
    let s := landAll s
    let keys := match key with | some k => Tab.put s.keys slot k | none => Tab.drop s.keys slot
    .next { s with keys := keys, dev := { s.dev with keyPending := none } }

end Sys2Proof.Machine
end

