-- ==== Sys2Proof/Machine/Dispatch.lean ====
section
/-! DEFINITION. What each instruction or event does: one arm per constructor of `Instr`. -/
namespace Sys2Proof.Machine

def exec (i : Instr) (s : State) : Host.Outcome State Fault Refusal :=
  match i with
  | .lxWord neg pred rnd sib imm => Sys2Proof.Machine.execLxWord neg pred rnd sib imm s
  | .iadd x cy sat w d a b => Sys2Proof.Machine.execIadd x cy sat w d a b s
  | .isub x cy sat w d a b => Sys2Proof.Machine.execIsub x cy sat w d a b s
  | .iaddc x cy w d a b => Sys2Proof.Machine.execIaddc x cy w d a b s
  | .isubb x cy w d a b => Sys2Proof.Machine.execIsubb x cy w d a b s
  | .imul x w d a b => Sys2Proof.Machine.execImul x w d a b s
  | .imulhi x s0 w d a b => Sys2Proof.Machine.execImulhi x s0 w d a b s
  | .imad x w d a b c => Sys2Proof.Machine.execImad x w d a b c s
  | .imadw x s0 d a b c => Sys2Proof.Machine.execImadw x s0 d a b c s
  | .imin x s0 w d a b => Sys2Proof.Machine.execImin x s0 w d a b s
  | .imax x s0 w d a b => Sys2Proof.Machine.execImax x s0 w d a b s
  | .iabs x sat w d a => Sys2Proof.Machine.execIabs x sat w d a s
  | .ineg x sat w d a => Sys2Proof.Machine.execIneg x sat w d a s
  | .andB x w d a b => Sys2Proof.Machine.execAndB x w d a b s
  | .orB x w d a b => Sys2Proof.Machine.execOrB x w d a b s
  | .xorB x w d a b => Sys2Proof.Machine.execXorB x w d a b s
  | .andn x w d a b => Sys2Proof.Machine.execAndn x w d a b s
  | .shl x imm w d a b => Sys2Proof.Machine.execShl x imm w d a b s
  | .shr x imm w d a b => Sys2Proof.Machine.execShr x imm w d a b s
  | .sar x imm w d a b => Sys2Proof.Machine.execSar x imm w d a b s
  | .rotl x imm w d a b => Sys2Proof.Machine.execRotl x imm w d a b s
  | .fsh x l d a b c => Sys2Proof.Machine.execFsh x l d a b c s
  | .popc x w d a => Sys2Proof.Machine.execPopc x w d a s
  | .clz x w d a => Sys2Proof.Machine.execClz x w d a s
  | .ctz x w d a => Sys2Proof.Machine.execCtz x w d a s
  | .brev x w d a => Sys2Proof.Machine.execBrev x w d a s
  | .bfx x s0 w d a b => Sys2Proof.Machine.execBfx x s0 w d a b s
  | .bfi x w d a b c => Sys2Proof.Machine.execBfi x w d a b c s
  | .bpick x ctl d a b => Sys2Proof.Machine.execBpick x ctl d a b s
  | .icmp x c s0 w pd a b => Sys2Proof.Machine.execIcmp x c s0 w pd a b s
  | .sel x w neg pn d a b => Sys2Proof.Machine.execSel x w neg pn d a b s
  | .mov x w d a => Sys2Proof.Machine.execMov x w d a s
  | .movUniform x w d b => Sys2Proof.Machine.execMovUniform x w d b s
  | .movs x d sr => Sys2Proof.Machine.execMovs x d sr s
  | .movi x h d v => Sys2Proof.Machine.execMovi x h d v s
  | .movpRd x d => Sys2Proof.Machine.execMovpRd x d s
  | .movpWr x a => Sys2Proof.Machine.execMovpWr x a s
  | .movpLop x t pd pa pb => Sys2Proof.Machine.execMovpLop x t pd pa pb s
  | .fadd x ty d a b => Sys2Proof.Machine.execFadd x ty d a b s
  | .fsub x ty d a b => Sys2Proof.Machine.execFsub x ty d a b s
  | .fmul x ty d a b => Sys2Proof.Machine.execFmul x ty d a b s
  | .ffmaF32 x d a b c => Sys2Proof.Machine.execFfmaF32 x d a b c s
  | .ffmaF64 x d a b c => Sys2Proof.Machine.execFfmaF64 x d a b c s
  | .fmin x ty d a b => Sys2Proof.Machine.execFmin x ty d a b s
  | .fmax x ty d a b => Sys2Proof.Machine.execFmax x ty d a b s
  | .fminm x ty d a b => Sys2Proof.Machine.execFminm x ty d a b s
  | .fmaxm x ty d a b => Sys2Proof.Machine.execFmaxm x ty d a b s
  | .fabs x ty d a => Sys2Proof.Machine.execFabs x ty d a s
  | .fneg x ty d a => Sys2Proof.Machine.execFneg x ty d a s
  | .fcopysign x ty d a b => Sys2Proof.Machine.execFcopysign x ty d a b s
  | .fcmp x c ty pd a b => Sys2Proof.Machine.execFcmp x c ty pd a b s
  | .fclass x ty d a => Sys2Proof.Machine.execFclass x ty d a s
  | .fdiv x ty d a b => Sys2Proof.Machine.execFdiv x ty d a b s
  | .fsqrt x ty d a => Sys2Proof.Machine.execFsqrt x ty d a s
  | .frcp x ty d a => Sys2Proof.Machine.execFrcp x ty d a s
  | .frsq x ty d a => Sys2Proof.Machine.execFrsq x ty d a s
  | .fex2 x ty d a => Sys2Proof.Machine.execFex2 x ty d a s
  | .flg2 x ty d a => Sys2Proof.Machine.execFlg2 x ty d a s
  | .fsin x ty d a => Sys2Proof.Machine.execFsin x ty d a s
  | .fcos x ty d a => Sys2Proof.Machine.execFcos x ty d a s
  | .ftanh x ty d a => Sys2Proof.Machine.execFtanh x ty d a s
  | .frint x ra exact ty d a => Sys2Proof.Machine.execFrint x ra exact ty d a s
  | .fcvt x ra dst src d a => Sys2Proof.Machine.execFcvt x ra dst src d a s
  | .f2i x ra w s0 ty d a => Sys2Proof.Machine.execF2i x ra w s0 ty d a s
  | .i2f x w s0 ty d a => Sys2Proof.Machine.execI2f x w s0 ty d a s
  | .fldexp x ty d a b => Sys2Proof.Machine.execFldexp x ty d a b s
  | .ffrexp x ty d a => Sys2Proof.Machine.execFfrexp x ty d a s
  | .digits x ty d a => Sys2Proof.Machine.execDigits x ty d a s
  | .agree x ty d a => Sys2Proof.Machine.execAgree x ty d a s
  | .sibget x w k d a => Sys2Proof.Machine.execSibget x w k d a s
  | .sibput x w k d a => Sys2Proof.Machine.execSibput x w k d a s
  | .sibrot x w r d a => Sys2Proof.Machine.execSibrot x w r d a s
  | .sibmean x ty d a => Sys2Proof.Machine.execSibmean x ty d a s
  | .sibmaj x w d a => Sys2Proof.Machine.execSibmaj x w d a s
  | .rdraw x d b => Sys2Proof.Machine.execRdraw x d b s
  | .fdp16 x sc ta tb d a b => Sys2Proof.Machine.execFdp16 x sc ta tb d a b s
  | .fdp8 x bf d a b => Sys2Proof.Machine.execFdp8 x bf d a b s
  | .fdpsc x mx nb e d a b => Sys2Proof.Machine.execFdpsc x mx nb e d a b s
  | .idp4 x sat sa sb d a b => Sys2Proof.Machine.execIdp4 x sat sa sb d a b s
  | .idp8 x sat sa sb d a b => Sys2Proof.Machine.execIdp8 x sat sa sb d a b s
  | .cvtpk x ra dst d a sc => Sys2Proof.Machine.execCvtpk x ra dst d a sc s
  | .cvtupk x src d a => Sys2Proof.Machine.execCvtupk x src d a s
  | .scdec x c d a => Sys2Proof.Machine.execScdec x c d a s
  | .sparsify x ty d a => Sys2Proof.Machine.execSparsify x ty d a s
  | .xclr x k => Sys2Proof.Machine.execXclr x k s
  | .xadd x k a => Sys2Proof.Machine.execXadd x k a s
  | .xfma x k a b => Sys2Proof.Machine.execXfma x k a b s
  | .xget x k d => Sys2Proof.Machine.execXget x k d s
  | .xmerge x k seg a => Sys2Proof.Machine.execXmerge x k seg a s
  | .xsave x k seg a => Sys2Proof.Machine.execXsave x k seg a s
  | .xload x k seg a => Sys2Proof.Machine.execXload x k seg a s
  | .xstat x k d => Sys2Proof.Machine.execXstat x k d s
  | .pollSome x mm pd pa => Sys2Proof.Machine.execPollSome x mm pd pa s
  | .pollEvery x mm pd pa => Sys2Proof.Machine.execPollEvery x mm pd pa s
  | .pollSame x mm pd pa => Sys2Proof.Machine.execPollSame x mm pd pa s
  | .pollCount x mm d pa => Sys2Proof.Machine.execPollCount x mm d pa s
  | .pollMask x mm d pa => Sys2Proof.Machine.execPollMask x mm d pa s
  | .leadFirst x mm pd => Sys2Proof.Machine.execLeadFirst x mm pd s
  | .leadLast x mm pd => Sys2Proof.Machine.execLeadLast x mm pd s
  | .wmask x mm d => Sys2Proof.Machine.execWmask x mm d s
  | .xlane x mm seg mode w d a b => Sys2Proof.Machine.execXlane x mm seg mode w d a b s
  | .wred x mm ty op d a => Sys2Proof.Machine.execWred x mm ty op d a s
  | .wscan x mm excl ty op d a => Sys2Proof.Machine.execWscan x mm excl ty op d a s
  | .warpMatch x mm w d a => Sys2Proof.Machine.execWarpMatch x mm w d a s
  | .ld x ty seg off t a => Sys2Proof.Machine.execLd x ty seg off t a s
  | .st x ty seg off t a => Sys2Proof.Machine.execSt x ty seg off t a s
  | .lda x ty sc seg off t a => Sys2Proof.Machine.execLda x ty sc seg off t a s
  | .stl x ty sc seg off t a => Sys2Proof.Machine.execStl x ty sc seg off t a s
  | .atom x op ty o sc seg d a b => Sys2Proof.Machine.execAtom x op ty o sc seg d a b s
  | .atomc x w o sc seg d a b c => Sys2Proof.Machine.execAtomc x w o sc seg d a b c s
  | .red x op ty o sc seg a b => Sys2Proof.Machine.execRed x op ty o sc seg a b s
  | .cpa x sc seg dclus bar d a => Sys2Proof.Machine.execCpa x sc seg dclus bar d a s
  | .pref x sc seg lv a => Sys2Proof.Machine.execPref x sc seg lv a s
  | .ldf x sc seg d a => Sys2Proof.Machine.execLdf x sc seg d a s
  | .stf x sc seg a b => Sys2Proof.Machine.execStf x sc seg a b s
  | .mwatch x sc seg a => Sys2Proof.Machine.execMwatch x sc seg a s
  | .mwait x sc seg d b => Sys2Proof.Machine.execMwait x sc seg d b s
  | .tcopy x sc seg d a => Sys2Proof.Machine.execTcopy x sc seg d a s
  | .fence x o sc => Sys2Proof.Machine.execFence x o sc s
  | .bra x neg pred off => Sys2Proof.Machine.execBra x neg pred off s
  | .call x neg pred off => Sys2Proof.Machine.execCall x neg pred off s
  | .brx x off a => Sys2Proof.Machine.execBrx x off a s
  | .callx x off a => Sys2Proof.Machine.execCallx x off a s
  | .ret x a => Sys2Proof.Machine.execRet x a s
  | .exit x => Sys2Proof.Machine.execExit x s
  | .tail x => Sys2Proof.Machine.execTail x s
  | .rcvset x off => Sys2Proof.Machine.execRcvset x off s
  | .rcvwait x => Sys2Proof.Machine.execRcvwait x s
  | .spawn x n s0 pd a b => Sys2Proof.Machine.execSpawn x n s0 pd a b s
  | .jwait x d a => Sys2Proof.Machine.execJwait x d a s
  | .yield x => Sys2Proof.Machine.execYield x s
  | .trap x n => Sys2Proof.Machine.execTrap x n s
  | .brkpt x => Sys2Proof.Machine.execBrkpt x s
  | .nop x => Sys2Proof.Machine.execNop x s
  | .sadd e w d a b => Sys2Proof.Machine.execSadd e w d a b s
  | .ssub e w d a b => Sys2Proof.Machine.execSsub e w d a b s
  | .smul e w d a b => Sys2Proof.Machine.execSmul e w d a b s
  | .smulhi e s0 w d a b => Sys2Proof.Machine.execSmulhi e s0 w d a b s
  | .sand e w d a b => Sys2Proof.Machine.execSand e w d a b s
  | .sor e w d a b => Sys2Proof.Machine.execSor e w d a b s
  | .sxor e w d a b => Sys2Proof.Machine.execSxor e w d a b s
  | .sshl e imm w d a b => Sys2Proof.Machine.execSshl e imm w d a b s
  | .sshr e imm w d a b => Sys2Proof.Machine.execSshr e imm w d a b s
  | .ssar e imm w d a b => Sys2Proof.Machine.execSsar e imm w d a b s
  | .smin e s0 w d a b => Sys2Proof.Machine.execSmin e s0 w d a b s
  | .smax e s0 w d a b => Sys2Proof.Machine.execSmax e s0 w d a b s
  | .smov e w d a => Sys2Proof.Machine.execSmov e w d a s
  | .simm e d v => Sys2Proof.Machine.execSimm e d v s
  | .simmh e d v => Sys2Proof.Machine.execSimmh e d v s
  | .scmp e c s0 w cd a b => Sys2Proof.Machine.execScmp e c s0 w cd a b s
  | .ssel e w neg cn d a b => Sys2Proof.Machine.execSsel e w neg cn d a b s
  | .sld e sz seg off t a => Sys2Proof.Machine.execSld e sz seg off t a s
  | .sst e sz seg off t a => Sys2Proof.Machine.execSst e sz seg off t a s
  | .satom e op ar ty d a b => Sys2Proof.Machine.execSatom e op ar ty d a b s
  | .rdlane e f w d a b => Sys2Proof.Machine.execRdlane e f w d a b s
  | .jmp e off => Sys2Proof.Machine.execJmp e off s
  | .jc e neg c off => Sys2Proof.Machine.execJc e neg c off s
  | .jx e a => Sys2Proof.Machine.execJx e a s
  | .binit e fm bn a => Sys2Proof.Machine.execBinit e fm bn a s
  | .barrive e bn tx => Sys2Proof.Machine.execBarrive e bn tx s
  | .bwait e bn a => Sys2Proof.Machine.execBwait e bn a s
  | .btest e cd bn a => Sys2Proof.Machine.execBtest e cd bn a s
  | .bexpect e bn a => Sys2Proof.Machine.execBexpect e bn a s
  | .cbar e => Sys2Proof.Machine.execCbar e s
  | .wait e n0 n1 n2 n3 => Sys2Proof.Machine.execWait e n0 n1 n2 n3 s
  | .claim e n => Sys2Proof.Machine.execClaim e n s
  | .give e n => Sys2Proof.Machine.execGive e n s
  | .qtryPop e cd d q => Sys2Proof.Machine.execQtryPop e cd d q s
  | .qtryPush e cd q a => Sys2Proof.Machine.execQtryPush e cd q a s
  | .tlrd e g d => Sys2Proof.Machine.execTlrd e g d s
  | .tlwait e g a => Sys2Proof.Machine.execTlwait e g a s
  | .tagpub e a b => Sys2Proof.Machine.execTagpub e a b s
  | .tagrd e d a b => Sys2Proof.Machine.execTagrd e d a b s
  | .tqpush e cd a b => Sys2Proof.Machine.execTqpush e cd a b s
  | .tqtake e cd a b => Sys2Proof.Machine.execTqtake e cd a b s
  | .ordwait e => Sys2Proof.Machine.execOrdwait e s
  | .rdsr e d sr => Sys2Proof.Machine.execRdsr e d sr s
  | .wrsr e sr d => Sys2Proof.Machine.execWrsr e sr d s
  | .segld e k a => Sys2Proof.Machine.execSegld e k a s
  | .icinv e sc a b => Sys2Proof.Machine.execIcinv e sc a b s
  | .tlbinvPage e a => Sys2Proof.Machine.execTlbinvPage e a s
  | .tlbinvAsid e => Sys2Proof.Machine.execTlbinvAsid e s
  | .rmack e cd a => Sys2Proof.Machine.execRmack e cd a s
  | .snop e => Sys2Proof.Machine.execSnop e s
  | .strap e n => Sys2Proof.Machine.execStrap e n s
  | .resume e => Sys2Proof.Machine.execResume e s
  | .mlay l off => Sys2Proof.Machine.execMlay l off s
  | .madd l dim inc => Sys2Proof.Machine.execMadd l dim inc s
  | .mclr s0 three int => Sys2Proof.Machine.execMclr s0 three int s
  | .mma s0 pm a b => Sys2Proof.Machine.execMma s0 pm a b s
  | .mmas s0 pm a b md => Sys2Proof.Machine.execMmas s0 pm a b md s
  | .mmax s0 pm a b sa sb => Sys2Proof.Machine.execMmax s0 pm a b sa sb s
  | .mrd s0 pl d => Sys2Proof.Machine.execMrd s0 pl d s
  | .mcol s0 d => Sys2Proof.Machine.execMcol s0 d s
  | .mbarr bn => Sys2Proof.Machine.execMbarr bn s
  | .mbwait bn => Sys2Proof.Machine.execMbwait bn s
  | .mloop count => Sys2Proof.Machine.execMloop count s
  | .mloopL off => Sys2Proof.Machine.execMloopL off s
  | .mendl => Sys2Proof.Machine.execMendl s
  | .mjmp off => Sys2Proof.Machine.execMjmp off s
  | .mstamp clu addr => Sys2Proof.Machine.execMstamp clu addr s
  | .mconfRnd code => Sys2Proof.Machine.execMconfRnd code s
  | .mconfTs off => Sys2Proof.Machine.execMconfTs off s
  | .mconfWph bn ph => Sys2Proof.Machine.execMconfWph bn ph s
  | .mend => Sys2Proof.Machine.execMend s
  | .unallocatedEncoding lx w => Sys2Proof.Machine.execUnallocatedEncoding lx w s
  | .foremanWordUnallocated w => Sys2Proof.Machine.execForemanWordUnallocated w s
  | .foremanFetch b => Sys2Proof.Machine.execForemanFetch b s
  | .foremanCommandComplete b n => Sys2Proof.Machine.execForemanCommandComplete b n s
  | .copyCommandStart b n => Sys2Proof.Machine.execCopyCommandStart b n s
  | .copyPieceLand src => Sys2Proof.Machine.execCopyPieceLand src s
  | .copyCommandComplete b n => Sys2Proof.Machine.execCopyCommandComplete b n s
  | .loadDataReturn w idx => Sys2Proof.Machine.execLoadDataReturn w idx s
  | .storeDrain src => Sys2Proof.Machine.execStoreDrain src s
  | .pageWalkComplete idx => Sys2Proof.Machine.execPageWalkComplete idx s
  | .tlbInvalidateComplete idx => Sys2Proof.Machine.execTlbInvalidateComplete idx s
  | .icinvComplete idx => Sys2Proof.Machine.execIcinvComplete idx s
  | .mwaitLimitExpire w => Sys2Proof.Machine.execMwaitLimitExpire w s
  | .warpEnd w => Sys2Proof.Machine.execWarpEnd w s
  | .joinEndUpdate idx => Sys2Proof.Machine.execJoinEndUpdate idx s
  | .spawnTimeout core launch => Sys2Proof.Machine.execSpawnTimeout core launch s
  | .spillReturn core launch => Sys2Proof.Machine.execSpillReturn core launch s
  | .fragmentDeliver w => Sys2Proof.Machine.execFragmentDeliver w s
  | .resourceMapDeliver l => Sys2Proof.Machine.execResourceMapDeliver l s
  | .blockFaultSave o => Sys2Proof.Machine.execBlockFaultSave o s
  | .coreDump ctx => Sys2Proof.Machine.execCoreDump ctx s
  | .workHalt ctx => Sys2Proof.Machine.execWorkHalt ctx s
  | .launchTake ctx => Sys2Proof.Machine.execLaunchTake ctx s
  | .loomChoice => Sys2Proof.Machine.execLoomChoice s
  | .blockStart b => Sys2Proof.Machine.execBlockStart b s
  | .migration b => Sys2Proof.Machine.execMigration b s
  | .forwardEntryFree core idx => Sys2Proof.Machine.execForwardEntryFree core idx s
  | .issueSlotGrant core quarter => Sys2Proof.Machine.execIssueSlotGrant core quarter s
  | .runBreak core quarter => Sys2Proof.Machine.execRunBreak core quarter s
  | .yieldExpire w => Sys2Proof.Machine.execYieldExpire w s
  | .launchComplete l => Sys2Proof.Machine.execLaunchComplete l s
  | .taskComplete b => Sys2Proof.Machine.execTaskComplete b s
  | .pendingEnqueueDrain ctx => Sys2Proof.Machine.execPendingEnqueueDrain ctx s
  | .bakeryAdvance l => Sys2Proof.Machine.execBakeryAdvance l s
  | .deadlockSuspect ctx => Sys2Proof.Machine.execDeadlockSuspect ctx s
  | .contextDiscardComplete ctx => Sys2Proof.Machine.execContextDiscardComplete ctx s
  | .contextStopComplete ctx => Sys2Proof.Machine.execContextStopComplete ctx s
  | .resourceMapTimeout ctx => Sys2Proof.Machine.execResourceMapTimeout ctx s
  | .selfTest core passed => Sys2Proof.Machine.execSelfTest core passed s
  | .warpEvict w => Sys2Proof.Machine.execWarpEvict w s
  | .budgetPeriod => Sys2Proof.Machine.execBudgetPeriod s
  | .surveyDegradation losses => Sys2Proof.Machine.execSurveyDegradation losses s
  | .hourglassLatch => Sys2Proof.Machine.execHourglassLatch s
  | .bellowsGrant demand => Sys2Proof.Machine.execBellowsGrant demand s
  | .powerUp => Sys2Proof.Machine.execPowerUp s
  | .powerDown => Sys2Proof.Machine.execPowerDown s
  | .junctionThrottle die temp => Sys2Proof.Machine.execJunctionThrottle die temp s
  | .currentTrip => Sys2Proof.Machine.execCurrentTrip s
  | .thermalTrip => Sys2Proof.Machine.execThermalTrip s
  | .correctedError u => Sys2Proof.Machine.execCorrectedError u s
  | .uncorrectableError p => Sys2Proof.Machine.execUncorrectableError p s
  | .linkLaneFail l => Sys2Proof.Machine.execLinkLaneFail l s
  | .ideIntegrityFail => Sys2Proof.Machine.execIdeIntegrityFail s
  | .peerFlitAuthFail port => Sys2Proof.Machine.execPeerFlitAuthFail port s
  | .peerInboundAccess port addr acc => Sys2Proof.Machine.execPeerInboundAccess port addr acc s
  | .hostMemAccess target off acc => Sys2Proof.Machine.execHostMemAccess target off acc s
  | .pwrlimWrite v => Sys2Proof.Machine.execPwrlimWrite v s
  | .nearpartWrite v => Sys2Proof.Machine.execNearpartWrite v s
  | .fwgoWrite v => Sys2Proof.Machine.execFwgoWrite v s
  | .firmwareVerifyDone => Sys2Proof.Machine.execFirmwareVerifyDone s
  | .attgoWrite v => Sys2Proof.Machine.execAttgoWrite v s
  | .attestReportDone => Sys2Proof.Machine.execAttestReportDone s
  | .keyopLoad => Sys2Proof.Machine.execKeyopLoad s
  | .keyopClear => Sys2Proof.Machine.execKeyopClear s
  | .keyOpComplete => Sys2Proof.Machine.execKeyOpComplete s
  | .notifyWrite ctx v => Sys2Proof.Machine.execNotifyWrite ctx v s
  | .ctxStateStop ctx v => Sys2Proof.Machine.execCtxStateStop ctx v s
  | .ctxStateRun ctx v => Sys2Proof.Machine.execCtxStateRun ctx v s
  | .ctxStateFree ctx v => Sys2Proof.Machine.execCtxStateFree ctx v s
  | .tagclrWrite ctx v => Sys2Proof.Machine.execTagclrWrite ctx v s
  | .rmackWrite ctx v => Sys2Proof.Machine.execRmackWrite ctx v s
  | .eventRead ctx => Sys2Proof.Machine.execEventRead ctx s
  | .trlostRead ctx => Sys2Proof.Machine.execTrlostRead ctx s
  | .hglostRead => Sys2Proof.Machine.execHglostRead s
  | .mclostRead => Sys2Proof.Machine.execMclostRead s
  | .pwrstatRead => Sys2Proof.Machine.execPwrstatRead s
  | .bftailWrite ctx v => Sys2Proof.Machine.execBftailWrite ctx v s
  | .bfreplyRetry ctx r0 => Sys2Proof.Machine.execBfreplyRetry ctx r0 s
  | .bfreplyKill ctx r0 => Sys2Proof.Machine.execBfreplyKill ctx r0 s
  | .bfreplyRestart ctx r0 => Sys2Proof.Machine.execBfreplyRestart ctx r0 s
  | .saveAreaWrite ctx size v => Sys2Proof.Machine.execSaveAreaWrite ctx size v s
  | .dbgctlHalt ctx v => Sys2Proof.Machine.execDbgctlHalt ctx v s
  | .dbgctlResume ctx v => Sys2Proof.Machine.execDbgctlResume ctx v s
  | .dbgiclenWrite ctx v => Sys2Proof.Machine.execDbgiclenWrite ctx v s
  | .registerWrite off size v => Sys2Proof.Machine.execRegisterWrite off size v s
  | .debugRightClear ctx v => Sys2Proof.Machine.execDebugRightClear ctx v s
  | .ideEstablished => Sys2Proof.Machine.execIdeEstablished s
  | .throttleRelease die => Sys2Proof.Machine.execThrottleRelease die s
  | .hostSnoop addr k => Sys2Proof.Machine.execHostSnoop addr k s

end Sys2Proof.Machine
end

