-- ==== Sys2Proof/Machine/Schedule.lean ====
section
/-! DEFINITION. What the next step does (log 1, log 3): an instruction of the warp or Foreman context in focus, the next entry
of the schedule, or one of the events that are due. -/
namespace Sys2Proof.Machine

/-! ### Events that are due -/

/-- A list with an event if a condition holds. -/
def dueIf (b : Bool) (i : Instr) : List Instr := if b then [i] else []

/-- Whether an owner has faults to save or to report. -/
def faultDue (s : State) (o : Owner) : Bool :=
  let fs := faultsOf s o
  (fs.any fun r => r.code == codeSoftError)
    || (ownerFaulted s o && !ownerSaved s o && !(s.ctx (ownerCtx s o)).saveWaits)
    || ((fs.any fun r => r.num.isNone) && (!ownerFaulted s o || ownerSaved s o)
        && decide (((s.ctx (ownerCtx s o)).bfhead - (s.ctx (ownerCtx s o)).bftail).toNat < faultRing))
/-- Whether the limit of an `mwait` of a warp has passed. -/
def monitorDue (s : State) (W : Warp) : Bool :=
  (match W.monitor with | some m => !m.expired | none => false) && W.fibres.any fun f => match f.status with
    | .waiting x => (match x.why with | .monitor k => decide (k ≤ s.clock W.core) | _ => false)
    | _ => false
/-- Events of a warp. -/
def warpDue (s : State) (w : Nat) (W : Warp) : List Instr :=
  let slot := (s.core W.core).slots.getD W.quarter none
  let here := W.residence == .resident
  dueIf (warpRuns s w && (deliverable W).isSome) (.fragmentDeliver w)
  ++ dueIf (!W.storeQ.isEmpty && !W.heldStores) (.storeDrain (.warp w))
  ++ dueIf (!W.loads.isEmpty) (.loadDataReturn w 0)
  ++ dueIf (!W.cpas.isEmpty) (.copyPieceLand (.cpa w 0))
  ++ dueIf (W.residence == .draining && W.fibres == [] && W.faults == []) (.warpEnd w)
  ++ dueIf (monitorDue s W) (.mwaitLimitExpire w)
  ++ dueIf (yieldOver s w) (.yieldExpire w)
  ++ dueIf (W.blk.isNone && faultDue s (.warp w)) (.blockFaultSave (.warp w))
  ++ dueIf (here && slot.isNone && warpReady s w) (.issueSlotGrant W.core W.quarter)
  ++ dueIf (slot == some w && hasWork s w) (.issueSlotGrant W.core W.quarter)
  ++ dueIf (slot == some w && !hasWork s w) (.runBreak W.core W.quarter)

/-- Events of a block's Carter context. -/
def carterDue (s : State) (b : Nat) (B : Block) : List Instr :=
  B.carter.cmds.flatMap fun c =>
    if c.fault.isSome then []
    else if !c.started then dueIf (engineRuns s b || B.state == .retired) (.copyCommandStart b c.n)
    else if c.pieces.isEmpty then [.copyCommandComplete b c.n]
    else [.copyPieceLand (.carter b c.n 0)]
/-- Events of a block's Foreman context. -/
def foremanDue (s : State) (b : Nat) (B : Block) : List Instr :=
  match B.fm with
  | none => []
  | some F => dueIf (!F.ended && !F.stopped && engineRuns s b) (.foremanFetch b)
      ++ F.cmds.map fun c => .foremanCommandComplete b c.n
/-- Events of a block. -/
def blockDue (s : State) (b : Nat) (B : Block) : List Instr :=
  dueIf (startsNow s b) (.blockStart b)
  ++ dueIf (faultDue s (.blk b)) (.blockFaultSave (.blk b))
  ++ dueIf (B.task.isSome && B.state == .retired) (.taskComplete b)
  ++ dueIf (mustMove s B) (.migration b)
  ++ carterDue s b B ++ foremanDue s b B

/-- Events of a core's retirement tracker, stores on their way (R150), Shuttle, forwarding entries and array (R354). -/
def coreDue (s : State) (c : Nat) (K : Core) : List Instr :=
  (K.tracker.zipIdx.flatMap fun e =>
    dueIf (e.1.op.isSome && !e.1.held && firstOp K.tracker e.1.warp == some e.2) (.storeDrain (.tracker c e.2))
    ++ dueIf (e.1.cpa.isSome && !e.1.held) (.copyPieceLand (.cpa e.1.warp 0)))
  ++ (K.shuttle.flatMap fun x =>
    dueIf (decide (x.since + spawnLimit (s.launch x.launch).lrec ≤ K.clock.toNat)) (.spawnTimeout c x.launch))
  ++ (K.passing.zipIdx.map fun e => .storeDrain (.tracker c (K.tracker.length + e.2)))
  ++ (K.forwards.zipIdx.map fun e => .forwardEntryFree c e.2)
  ++ dueIf (testDue s c) (.selfTest c true)

/-- Events of a context. -/
def ctxDue (s : State) (c : Nat) (C : Ctx) : List Instr :=
  let blocked := ctxRuns s c && allBlocked s c
  dueIf (C.notified && C.state == .running && !C.stopping && C.fault.isNone) (.launchTake c)
  ++ dueIf (C.fault.isSome && !C.saveWaits && !C.discarding) (.coreDump c)
  ++ dueIf (C.haltOwed.isSome && !C.saveWaits) (.workHalt c)
  ++ dueIf (C.stopping && C.fault.isNone && !C.saveWaits) (.contextStopComplete c)
  ++ dueIf (C.state == .suspended && !C.stopping && C.fault.isNone && !C.saveWaits
      && (ownersOf s c).any fun o => !ownerSaved s o) (.contextStopComplete c)
  ++ dueIf C.discarding (.contextDiscardComplete c)
  ++ dueIf (C.state == .running && !C.stopping && (match C.ackBy with
      | some t => C.ackVersion != s.dev.rmver && decide (t < s.tick.toNat)
      | none => false)) (.resourceMapTimeout c)
  ++ dueIf (!C.pendEnq.isEmpty && ctxRuns s c) (.pendingEnqueueDrain c)
  ++ dueIf (match C.blockedSince with
      | none => blocked
      | some t => !blocked || decide (t + deadlockTicks ≤ s.tick.toNat)) (.deadlockSuspect c)

/-- Events of a launch. -/
def launchDue (s : State) (l : Nat) (L : Launch) : List Instr :=
  dueIf (L.state == .completing && launchDrained s l) (.launchComplete l)
  ++ dueIf (L.lrec.ordered && ticketQuiet s l L.cur && !stageStays s l (L.cur + 1)) (.bakeryAdvance l)
  ++ dueIf (!L.rmOwed.isEmpty && L.lrec.trapVec != 0 && (firstWarp s l).isSome) (.resourceMapDeliver l)
  ++ match L.ring with
    | x :: _ => dueIf (decide ((s.core x.core).shuttle.length < shuttleSize)) (.spillReturn x.core l)
    | [] => []

/-- Events of invalidations. -/
def invalDue (i : Nat) (v : Inval) : Instr :=
  match v.kind with
  | .page _ _ | .asid _ => .tlbInvalidateComplete i
  | .code _ _ _ _ => .icinvComplete i
  | .discard c => .contextDiscardComplete c
/-- Whether the Loom has anything to look at (R364). -/
def loomDue (s : State) : Bool :=
  (s.launches.any fun e => e.2.state == .dispatching)
    || (s.blocks.any fun e => (unplaced e.2) || e.2.state == .held || e.2.state == .saved)
    || (s.warps.any fun e => e.2.residence == .saved)
    || (s.ctxs.any fun e => e.2.queues.any fun q => !q.2.tasks.isEmpty)
    || s.cores.any fun e => !e.2.shuttle.isEmpty

/-- The events that are due. -/
def dueEvents (s : State) : List Instr :=
  s.ctxs.flatMap (fun e => ctxDue s e.1 e.2)
  ++ s.launches.flatMap (fun e => launchDue s e.1 e.2)
  ++ s.warps.flatMap (fun e => warpDue s e.1 e.2)
  ++ s.blocks.flatMap (fun e => blockDue s e.1 e.2)
  ++ s.cores.flatMap (fun e => coreDue s e.1 e.2)
  ++ (List.range s.joins.length).map .joinEndUpdate
  ++ s.invals.zipIdx.map (fun e => invalDue e.2 e.1)
  ++ (List.range s.walks.length).map .pageWalkComplete
  ++ dueIf (loomDue s) .loomChoice
/-- The event that comes next: each in its turn as time passes. -/
def pickEvent (s : State) : Option Instr :=
  let due := dueEvents s
  due[s.tick.toNat % max 1 due.length]?

/-! ### The plan of a step -/

/-- What a step does: it executes an instruction of a warp, it executes an event or a Foreman word, or it only changes the
focus. -/
inductive Plan where
  | issue (i : Instr) (s : State)
  | event (i : Instr) (s : State)
  | over (s : State)

/-- A warp's turn as a plan. -/
def Turn.plan : Turn → Plan
  | .run i s => .issue i s
  | .over s => .over s
/-- A step that no entry of the schedule comes before: the warp in focus, or an event a tick later. -/
def ordinary (s : State) : Plan :=
  match s.turn with
  | some w => (takeTurn s w).plan
  | none =>
    let t := passTime (ageWarps s) 1
    match pickEvent t with
    | some i => .event i t
    | none => .over t
/-- The next step: the second word of a pair, a latched Foreman word, the schedule's head once as many ordinary steps as it
asks for have passed, or an ordinary step. -/
def plan (s : State) : Plan :=
  match s.cur with
  | some c =>
    match c.lx with
    | some lx => (takeSecond s c lx).plan
    | none => .over { s with cur := none }
  | none =>
    match s.fcur with
    | some (_, i) => .event i s
    | none =>
      match s.agenda with
      | [] => ordinary s
      | e :: rest =>
        match e.after with
        | 0 => .event e.ev (passTime (ageWarps { s with agenda := rest }) e.dt)
        | n + 1 => ordinary { s with agenda := { e with after := n } :: rest }

/-- What follows the execution of an instruction of a warp: an LX word waits for its second word, and any other ends. -/
def afterIssue (before : State) (i : Instr) (t : State) : State :=
  match i with
  | .lxWord _ _ _ _ _ => t
  | _ => match before.cur with
    | some c => endIssue before i c t
    | none => t

/-! ### A word where the next step fetches it (log 15) -/

/-- Where the pieces of a staged program lie: its page tables, and the word at the page's start. -/
def stageTables : Nat := 0x10000
/-- The leaf of the one page: 64 MiB of far memory from 0 with every right, key slot 0. -/
def stageLeaf : Nat := 0x41F
/-- A page-table entry's bytes. -/
def pteBytes (v : Nat) : List Byte := leBytes 8 v
/-- The segment registers of the staged warp: its page, and a window of 8 KiB. -/
def stageSegs : List SegReg := setAt (List.replicate 8 ⟨0, 0x4000000⟩) 1 ⟨0, 0x2000⟩
/-- The launch of the staged program. -/
def stageLaunch : Launch :=
  { Launch.fresh 0 0 LaunchRec.zero stageSegs .running 0 with
    lrec := { LaunchRec.zero with window := 8, localKiB := 8 }, nextBlk := 1 }
/-- The staged block, on core 0. -/
def stageBlock (l b : Nat) : Block :=
  { newBlock stageLaunch l 0 0 0 0 none b 0 1 0 with state := .resident, placed := true, nwarp := 1 }
/-- The staged warp: one fibre at address 0. -/
def stageWarp (l b : Nat) : Warp :=
  { Warp.absent with
    launch := l, blk := some b, window := 64, residence := .resident, segs := stageSegs
    fibres := [newFibre true 0 0 0 0], numctl := BitVec.ofNat 64 numctlDefault }
/-- A module that runs one program whose first word is given: power, firmware, IDE, a key, a context with a page, a launch,
its block and warp, and the focus on it. -/
def stageWord (s : State) (w : Nat) : State :=
  let l := s.next
  let b := s.next + 1
  let v := s.next + 2
  let key : BitVec 512 := (Tab.find s.keys 0).getD 0
  let put : State → Nat → List Byte → State := fun s a bs => writePhys s none (some key) (wholeBytes a bs)
  let s := { s with
    agenda := [], cur := none, fcur := none, next := s.next + 3, keys := Tab.put s.keys 0 key
    islands := s.islands.map fun x => { x with powered := true }
    dev := { s.dev with ideActive := true, mainPower := true, fwstat := 1 } }
  let s := put s stageTables (pteBytes (2 * stageTables + 1))
  let s := put s (2 * stageTables) (pteBytes (3 * stageTables + 1))
  let s := put s (3 * stageTables) (pteBytes stageLeaf)
  let s := put s 0 (leBytes 8 w)
  let s := s.setCtx 0 { Ctx.reset with state := .running, root := BitVec.ofNat 64 stageTables }
  let s := ((s.setLaunch l stageLaunch).setBlk b (stageBlock l b)).setWarp v (stageWarp l b)
  { s.modCore 0 fun K => { K with slots := setAt K.slots 0 (some v), icache := [] } with turn := some v }

end Sys2Proof.Machine
end

