-- ==== Sys2Proof/Machine/Step.lean ====
section
/-! DEFINITION. One step of the module, and a word placed where the next step fetches it. -/
namespace Sys2Proof.Machine

/-- One step: what `plan` says, an instruction of a warp with the account of it afterwards. -/
def step (s : State) : Host.Outcome State Fault Refusal :=
  match plan s with
  | .issue i t =>
    match exec i t with
    | .next u => .next (afterIssue t i u)
    | .fault f => .fault f
    | .refused r => .refused r
  | .event i t => exec i t
  | .over t => .next t

/-- A word, and the 32 bits behind it, where the next step fetches them (log 15). -/
def State.withFetchWord (s : State) (_nbits w : Nat) : State := stageWord s w

end Sys2Proof.Machine
end

