-- ==== Sys2Proof/WellFormed.lean ====
section
/-! DEFINITION. Which instructions the encodings can hold: the limits that the entries and R188 set on fields. Events
are well-formed always; their meanings say when they can happen. -/
namespace Sys2Proof

/-- Whether the entry lists a rounding event (Tables 8-1, 9-1 and 10-2), so that RND and SIBC may stand before it. -/
def Instr.rounds : Instr → Bool
  | .fadd .. | .fsub .. | .fmul .. | .ffmaF32 .. | .ffmaF64 .. | .fdiv .. | .fsqrt .. | .frcp .. | .frsq ..
  | .fex2 .. | .flg2 .. | .fsin .. | .fcos .. | .ftanh .. | .frint .. | .fcvt .. | .f2i .. | .i2f .. | .fldexp ..
  | .rdraw .. | .fdp16 .. | .fdp8 .. | .fdpsc .. | .cvtpk .. | .xget .. => true
  | .atom _ op ty .. | .red _ op ty .. =>
    op == .add && (ty == .f32 || ty == .f64 || ty == .f16 || ty == .bf16)
  | .wred _ _ ty op .. => op == .add && (ty == .f32 || ty == .f64 || ty == .f16 || ty == .bf16)
  | .wscan _ _ _ ty op .. => op == .add && (ty == .f32 || ty == .f64 || ty == .f16 || ty == .bf16)
  | _ => false

/-- The LX word of a lane instruction. -/
def Instr.lx? : Instr → Option Lx
  | .iadd x .. | .isub x .. | .iaddc x .. | .isubb x .. | .imul x .. | .imulhi x .. | .imad x .. | .imadw x ..
  | .imin x .. | .imax x .. | .iabs x .. | .ineg x .. | .andB x .. | .orB x .. | .xorB x .. | .andn x .. | .shl x ..
  | .shr x .. | .sar x .. | .rotl x .. | .fsh x .. | .popc x .. | .clz x .. | .ctz x .. | .brev x .. | .bfx x ..
  | .bfi x .. | .bpick x .. | .icmp x .. | .sel x .. | .mov x .. | .movUniform x .. | .movs x .. | .movi x ..
  | .movpRd x .. | .movpWr x .. | .movpLop x .. | .fadd x .. | .fsub x .. | .fmul x .. | .ffmaF32 x .. | .ffmaF64 x ..
  | .fmin x .. | .fmax x .. | .fminm x .. | .fmaxm x .. | .fabs x .. | .fneg x .. | .fcopysign x .. | .fcmp x ..
  | .fclass x .. | .fdiv x .. | .fsqrt x .. | .frcp x .. | .frsq x .. | .fex2 x .. | .flg2 x .. | .fsin x ..
  | .fcos x .. | .ftanh x .. | .frint x .. | .fcvt x .. | .f2i x .. | .i2f x .. | .fldexp x .. | .ffrexp x ..
  | .digits x .. | .agree x .. | .sibget x .. | .sibput x .. | .sibrot x .. | .sibmean x .. | .sibmaj x ..
  | .rdraw x .. | .fdp16 x .. | .fdp8 x .. | .fdpsc x .. | .idp4 x .. | .idp8 x .. | .cvtpk x .. | .cvtupk x ..
  | .scdec x .. | .sparsify x .. | .xclr x .. | .xadd x .. | .xfma x .. | .xget x .. | .xmerge x .. | .xsave x ..
  | .xload x .. | .xstat x .. | .pollSome x .. | .pollEvery x .. | .pollSame x .. | .pollCount x .. | .pollMask x ..
  | .leadFirst x .. | .leadLast x .. | .wmask x .. | .xlane x .. | .wred x .. | .wscan x .. | .warpMatch x ..
  | .ld x .. | .st x .. | .lda x .. | .stl x .. | .atom x .. | .atomc x .. | .red x .. | .cpa x .. | .pref x ..
  | .ldf x .. | .stf x .. | .mwatch x .. | .mwait x .. | .tcopy x .. | .fence x .. | .bra x .. | .call x ..
  | .brx x .. | .callx x .. | .ret x .. | .exit x .. | .tail x .. | .rcvset x .. | .rcvwait x .. | .spawn x ..
  | .jwait x .. | .yield x .. | .trap x .. | .brkpt x .. | .nop x => some x
  | _ => none

/-- Whether the instruction is an LB word, whose guard stands in its own fields (R175, R188 item 7). -/
def Instr.isLb : Instr → Bool
  | .bra .. | .call .. => true
  | _ => false

/-- R188 items 4, 5, 7 and 8; without an LX word its fields have their defaults (Table 7-3). -/
def Lx.wf (x : Lx) (rounds lb : Bool) : Bool :=
  if x.present then
    x.rnd != 7 && x.sib != 3 && !(x.sib == 2 && x.rnd != 0) && !(x.neg && x.pred == 7)
      && (rounds || (x.rnd == 0 && x.sib == 0)) && (!lb || x.pred == 7)
  else x == { Lx.none with eor := x.eor }

/-- Whether a value is the sign extension of its low n bits, as a field without an LX word holds it (R176). -/
def fits {w : Nat} (n : Nat) (v : BitVec w) : Bool := v == (v.setWidth n).signExtend w

/-- Conditions of integer comparisons end at code 5 (Table 8-4). -/
def Cond.isInteger (c : Cond) : Bool := !(c == .un || c == .ord)

/-- Table 10-4: which operations a type has. -/
def AtomTy.allows (ty : AtomTy) (op : AtomOp) : Bool :=
  match op with
  | .and_ | .or_ | .xor_ => ty == .u32 || ty == .i32 || ty == .u64 || ty == .i64
  | .inc => ty == .u32 || ty == .u64
  | .add | .min | .max | .exch => true

/-- The entry's limits on its own fields. -/
def Instr.fieldsOk : Instr → Bool
  | .lxWord neg pred rnd sib _ => rnd != 7 && sib != 3 && !(sib == 2 && rnd != 0) && !(neg && pred == 7)
  | .iadd _ _ sat .. | .isub _ _ sat .. => sat != 3
  | .iaddc _ cy .. | .isubb _ cy .. => cy != 0
  | .imad x w .. | .imadw x w .. | .fsh x w .. | .bfi x w .. => x.present || !w
  | .bpick x ctl .. => x.present || decide (ctl.toNat < 64)
  | .icmp _ c .. => c.isInteger
  | .movUniform _ _ _ b => decide (b.toNat < 60)
  | .movi x h _ v => (x.present || fits 12 v) && (!h || decide (v.toNat < 65536))
  | .fex2 _ ty .. | .flg2 _ ty .. | .fsin _ ty .. | .fcos _ ty .. | .ftanh _ ty .. => ty != .f64
  | .fcvt x ra .. => x.present || !ra
  | .f2i x ra w .. => x.present || (!ra && !w)
  | .i2f x w .. => x.present || !w
  | .sibget _ _ k .. | .sibput _ _ k .. | .sibrot _ _ k .. => k != 3
  | .fdp16 x sc .. => x.present || sc == none
  | .fdpsc x mx nb e .. => (x.present || e == 0) && (!mx || nb == 3)
  | .cvtpk x ra dst _ _ sc => dst != .f32 && dst != .f64 && (x.present || (!ra && sc == none))
  | .cvtupk _ src .. => src != .f32 && src != .f64
  | .pollSome x mm .. | .pollEvery x mm .. | .pollSame x mm .. | .pollCount x mm .. | .pollMask x mm ..
  | .leadFirst x mm .. | .leadLast x mm .. | .wmask x mm .. | .warpMatch x mm .. => x.present || mm == none
  | .xlane x mm seg mode _ _ _ b =>
    (x.present || (mm == none && seg == 0)) && decide (seg.toNat ≤ 8) && (mode != .rev || b == 0)
  | .wred x mm ty op .. =>
    (x.present || (mm == none && ty == .u32)) && ty.allows op && op != .exch && op != .inc
  | .wscan x mm ex ty op .. =>
    (x.present || (mm == none && ty == .u32 && !ex)) && ty.allows op && op != .exch && op != .inc
  | .ld x ty _ off .. => x.present || (decide (off.toNat < 64) && ty != .i8 && ty != .i16 && ty != .bf16)
  | .st x ty _ off .. =>
    ty != .i8 && ty != .i16 && (x.present || (decide (off.toNat < 64) && ty != .bf16))
  | .lda x ty sc _ off .. =>
    x.present || (decide (off.toNat < 64) && ty != .i8 && ty != .i16 && ty != .bf16 && sc == .device)
  | .stl x ty sc _ off .. =>
    ty != .i8 && ty != .i16 && (x.present || (decide (off.toNat < 64) && ty != .bf16 && sc == .device))
  | .atom x op ty o sc seg .. => ty.allows op && (x.present || (o == .rlx && sc == .device && seg == .glob))
  | .atomc x w o sc seg .. => x.present || (!w && o == .rlx && sc == .device && seg == .glob)
  | .red x op ty o sc seg .. =>
    ty.allows op && op != .exch && (o == .rlx || o == .rel)
      && (x.present || (o == .rlx && sc == .device && seg == .glob))
  | .cpa x sc seg dc .. => x.present || (sc == .device && seg == .glob && !dc)
  | .pref x sc seg .. | .ldf x sc seg .. | .stf x sc seg .. | .mwatch x sc seg .. | .mwait x sc seg ..
  | .tcopy x sc seg .. => x.present || (sc == .device && seg == .glob)
  | .bra x neg pred off | .call x neg pred off => (x.present || fits 20 off) && !(neg && pred == 7)
  | .brx x off .. | .callx x off .. => x.present || fits 12 off
  | .rcvset x off => x.present || fits 18 off
  | .spawn x n s .. => decide (n.toNat ≤ 8) && (x.present || (n == 0 && s == 0))
  | .scmp _ c .. => c.isInteger
  | .sld _ _ seg .. | .sst _ _ seg .. => seg != .priv
  | .satom _ op _ ty .. => op != .inc || ty == 0 || ty == 2
  | .jc _ neg c .. => !(neg && c == 7)
  | .claim _ n | .give _ n => n != 0
  | .wrsr _ sr _ => sr == .numctl || sr == .numflags || sr == .fpflags || sr == .lsconf
  | .icinv _ sc .. => sc == .core || sc == .cluster || sc == .die || sc == .device
  | .strap _ n => n != 0x3FFFF
  | .mconfRnd c => c != 0 && c != 7
  | _ => true

/-- A well-formed instruction: its fields and the LX word before it keep the limits of R188 and of its entry. -/
def Instr.wf (i : Instr) : Bool :=
  i.fieldsOk && (match i.lx? with | some x => x.wf i.rounds i.isLb | none => true)

end Sys2Proof
end

