-- ==== Sys2Proof/Laws/Encodings.lean ====
section
/-! SUPPORT. What the decoder reads from the words the encoder writes: fields of packed words, codes of enumerated
fields, and the words of each instruction set as a whole. -/
namespace Sys2Proof.Laws.Encoding
set_option linter.unusedSimpArgs false
-- One theorem after another: theorems elaborated side by side take a thread and its stack each, past the memory a check allows.
set_option Elab.async false

/-- The decoder reads an instruction back from its own words; an event has none. -/
def readBack (i : Instr) : Code → Prop
  | .lane lx w => decode lx w = .ok i
  | .foreman w => decodeForeman w = .ok i
  | .event => True
theorem bit_getLsbD (b : Bool) : (bit b).getLsbD 0 = b := by cases b <;> rfl
theorem bit_extract (b : Bool) : (bit b).extractLsb' 0 1 = bit b := by cases b <;> rfl

theorem extract_low {m n : Nat} (a : BitVec m) (b : BitVec n) (s k : Nat) (h : s + k ≤ n) :
    (BitVec.append a b).extractLsb' s k = b.extractLsb' s k := by
  show (a ++ b).extractLsb' s k = _
  apply BitVec.eq_of_getLsbD_eq
  intro i hi
  simp only [BitVec.getLsbD_extractLsb', BitVec.getLsbD_append, hi, decide_true, Bool.true_and]
  rw [if_pos (by omega)]
theorem extract_high {m n : Nat} (a : BitVec m) (b : BitVec n) (s k : Nat) (h : n ≤ s) :
    (BitVec.append a b).extractLsb' s k = a.extractLsb' (s - n) k := by
  show (a ++ b).extractLsb' s k = _
  apply BitVec.eq_of_getLsbD_eq
  intro i hi
  simp only [BitVec.getLsbD_extractLsb', BitVec.getLsbD_append, hi, decide_true, Bool.true_and]
  rw [if_neg (by omega)]; congr 1; omega
theorem bit_low {m n : Nat} (a : BitVec m) (b : BitVec n) (s : Nat) (h : s < n) :
    (BitVec.append a b).getLsbD s = b.getLsbD s := by
  show (a ++ b).getLsbD s = _
  rw [BitVec.getLsbD_append, if_pos h]
theorem bit_high {m n : Nat} (a : BitVec m) (b : BitVec n) (s : Nat) (h : n ≤ s) :
    (BitVec.append a b).getLsbD s = a.getLsbD (s - n) := by
  show (a ++ b).getLsbD s = _
  rw [BitVec.getLsbD_append, if_neg (by omega)]
theorem extract_all {n : Nat} (a : BitVec n) : a.extractLsb' 0 n = a := by simp
theorem extract_join {n : Nat} (a : BitVec n) (s k t j : Nat) (h : s = t + j) :
    BitVec.append (a.extractLsb' s k) (a.extractLsb' t j) = a.extractLsb' t (k + j) := by
  show a.extractLsb' s k ++ a.extractLsb' t j = _
  subst h
  apply BitVec.eq_of_getLsbD_eq
  intro i hi
  simp only [BitVec.getLsbD_extractLsb', BitVec.getLsbD_append, hi, decide_true, Bool.true_and]
  split
  · simp [*]
  · rw [show t + j + (i - j) = t + i by omega]; simp <;> omega
theorem extract_extract {n : Nat} (a : BitVec n) (s k t j : Nat) (h : t + j ≤ k) :
    (a.extractLsb' s k).extractLsb' t j = a.extractLsb' (s + t) j := by
  apply BitVec.eq_of_getLsbD_eq
  intro i hi
  simp only [BitVec.getLsbD_extractLsb', hi, decide_true, Bool.true_and]
  rw [show s + (t + i) = s + t + i by omega]; simp <;> omega

/-- Fields put into a word are read back from it. -/
theorem unpack_pack (f : Fields) : unpack (pack f) = f := by
  obtain ⟨s, e, op, d, a, b, fn⟩ := f
  simp (decide := true) only [unpack, pack, HAppend.hAppend, bit_low, bit_high, extract_low, extract_high, bit_getLsbD,
    extract_all, Nat.reduceSub]

/-- Groups put into a Foreman word are read back from it. -/
theorem unpackFm_packFm (f : FmFields) : unpackFm (packFm f) = f := by
  obtain ⟨op, s, pm, a, b, c, d, low⟩ := f
  simp (decide := true) only [unpackFm, packFm, HAppend.hAppend, extract_low, extract_high, extract_all, Nat.reduceSub]

/-- The LX fields of a packed LX word. -/
theorem lxOf_pack (n : Bool) (p : Pred) (r : BitVec 3) (s : BitVec 2) (i : BitVec 15) :
    lxOf (unpack (packLx n p r s i)) = { present := true, neg := n, pred := p, rnd := r, sib := s, eor := false } := by
  simp (decide := true) only [lxOf, packLx, unpack_pack, HAppend.hAppend, bit_high, extract_low, extract_high,
    bit_getLsbD, extract_all, extract_join, extract_extract, Nat.reduceSub, Nat.reduceAdd]
theorem immOf_pack (n : Bool) (p : Pred) (r : BitVec 3) (s : BitVec 2) (i : BitVec 15) :
    immOf (unpack (packLx n p r s i)) = i := by
  simp (decide := true) only [immOf, packLx, unpack_pack, HAppend.hAppend, extract_low, extract_join, extract_extract,
    extract_all, Nat.reduceAdd]
theorem isLx_pack (n : Bool) (p : Pred) (r : BitVec 3) (s : BitVec 2) (i : BitVec 15) : isLx (packLx n p r s i) = true := by
  simp [isLx, packLx, unpack_pack]
theorem set_pack (n : Bool) (p : Pred) (r : BitVec 3) (s : BitVec 2) (i : BitVec 15) :
    (unpack (packLx n p r s i)).eor = false := by simp [packLx, unpack_pack]

/-- What the decoder reads from a lane instruction's words: its fields, with those of its LX word where one is present. -/
theorem lane_words (i : Instr) (x : Lx) (r lb : Bool) (imm : BitVec 15) (op d a b fn : BitVec 6) (hx : x.wf r lb = true)
    (ho : op ≠ 0x3F)
    (h : parseLane x (if x.present then some imm else none) ⟨false, x.eor, op, d, a, b, fn⟩ = .ok i) :
    readBack i (enc x imm op d a b fn) := by
  obtain ⟨p, n, pr, rn, sb, e⟩ := x
  cases p
  · simp [Lx.wf, Lx.none] at hx
    obtain ⟨rfl, rfl, rfl, rfl⟩ := hx
    simp [readBack, enc, decode, unpack_pack]
    have ho : ¬ op = 63#6 := ho
    rw [if_neg ho]
    exact h
  · simp [Lx.wf] at hx
    simp [readBack, enc, decode, unpack_pack, lxOf_pack, immOf_pack, isLx_pack, lxFieldsOk, set_pack, need]
    simp at h
    simp [hx]
    have ho : ¬ op = 63#6 := ho
    rw [if_neg ho]
    exact h


theorem of_lane (i : Instr) (c : Code) (e : encodeLane i = some c) (h : readBack i c) : readBack i (encode i) := by
  rw [show encode i = c by simp [encode, e]]; exact h
theorem of_memory (i : Instr) (c : Code) (e : encodeLane i = none) (f : encodeMemory i = some c) (h : readBack i c) :
    readBack i (encode i) := by
  rw [show encode i = c by simp [encode, e, f]]; exact h
theorem of_uniform (i : Instr) (c : Code) (e : encodeLane i = none) (f : encodeMemory i = none) (g : encodeUniform i = some c)
    (h : readBack i c) : readBack i (encode i) := by
  rw [show encode i = c by simp [encode, e, f, g]]; exact h
theorem of_foreman (i : Instr) (c : Code) (e : encodeLane i = none) (f : encodeMemory i = none) (g : encodeUniform i = none)
    (k : encodeForeman i = some c) (h : readBack i c) : readBack i (encode i) := by
  rw [show encode i = c by simp [encode, e, f, g, k]]; exact h
theorem of_event (i : Instr) (e : encode i = .event) : readBack i (encode i) := by rw [e]; trivial


/-- IMM15 as the decoder sees it, where a word without an LX word has 0 in its place. -/
theorem imm_get (p : Bool) (v w : BitVec 15) (h : p = true ∨ v = w) : (if p then some v else none).getD w = v := by
  cases p
  · rcases h with h | h
    · cases h
    · exact h.symm
  · rfl
/-- Behind an instruction with no rounding event, an LX word asks for none. -/
theorem quiet {x : Lx} {lb : Bool} (h : x.wf false lb = true) : x.rnd = 0 ∧ x.sib = 0 := by
  obtain ⟨p, n, pr, rn, sb, e⟩ := x
  cases p
  · simp [Lx.wf, Lx.none] at h
    obtain ⟨rfl, rfl, rfl, rfl⟩ := h
    exact ⟨rfl, rfl⟩
  · simp [Lx.wf] at h
    exact h.1.2

/-! ### Enumerated codes -/

theorem FTy_code (t : FTy) : FTy.ofCode t.code = t := by cases t <;> rfl
theorem CvtFmt_code (t : CvtFmt) : CvtFmt.ofCode t.code = some t := by cases t <;> rfl
theorem Cond_code (t : Cond) : Cond.ofCode t.code = t := by cases t <;> rfl
theorem Scope_code (t : Scope) : Scope.ofCode t.code = some t := by cases t <;> rfl
theorem MemOrd_code (t : MemOrd) : MemOrd.ofCode t.code = some t := by cases t <;> rfl
theorem Seg_code (t : Seg) : Seg.ofCode t.code = t := by cases t <;> rfl
theorem USize_code (t : USize) : USize.ofCode t.code = some t := by cases t <;> rfl
theorem AtomOp_code (t : AtomOp) : AtomOp.ofCode t.code = t := by cases t <;> rfl
theorem AtomTy_code (t : AtomTy) : AtomTy.ofCode t.code = t := by cases t <;> rfl
theorem LaneSr_code (t : LaneSr) : LaneSr.ofCode t.code = some t := by cases t <;> rfl
theorem USr_code (t : USr) : USr.ofCode t.code = some t := by cases t <;> rfl
theorem SparseTy_code (t : SparseTy) : SparseTy.ofCode t.code = some t := by cases t <;> rfl
theorem ScdecCode_code (t : ScdecCode) : ScdecCode.ofCode t.code = some t := by cases t <;> rfl
theorem XlaneMode_code (t : XlaneMode) : XlaneMode.ofCode t.code = t := by cases t <;> rfl
theorem Engine_code (t : Engine) : Engine.ofCode t.code = t := by cases t <;> rfl
theorem PrefLevel_code (t : PrefLevel) : PrefLevel.ofCode t.code = some t := by cases t <;> rfl
theorem PlaneMode_code (t : PlaneMode) : PlaneMode.ofCode t.code = some t := by cases t <;> rfl
theorem MTy_load (t : MTy) : MTy.ofCode true t.alt t.code = some t := by cases t <;> rfl
theorem MTy_store (t : MTy) (h : (t != .i8) = true) (g : (t != .i16) = true) : MTy.ofCode false t.alt t.code = some t := by
  cases t <;> first | rfl | exact absurd h (by decide) | exact absurd g (by decide)

/-- The decoder reads a uniform instruction's word by its fields. -/
theorem uniform_words (i : Instr) (e : Bool) (op d a b fn : BitVec 6)
    (h : parseUniform ⟨true, e, op, d, a, b, fn⟩ = .ok i) : readBack i (encU e op d a b fn) := by
  simp only [readBack, encU, decode, unpack_pack, if_true]; exact h

/-- What well-formedness says of a lane instruction. -/
theorem wf_lane {i : Instr} {x : Lx} {r lb : Bool} (hx : i.lx? = some x) (hr : i.rounds = r) (hl : i.isLb = lb)
    (h : i.wf = true) : i.fieldsOk = true ∧ x.wf r lb = true := by
  rw [Instr.wf, hx, hr, hl, Bool.and_eq_true] at h; exact h
/-- What well-formedness says of an instruction's own fields. -/
theorem wf_fields {i : Instr} (h : i.wf = true) : i.fieldsOk = true := by
  rw [Instr.wf, Bool.and_eq_true] at h; exact h.1
theorem integer_eq (c : Cond) : c.integer = c.isInteger := by cases c <;> rfl
theorem allowed_eq (op : AtomOp) (ty : AtomTy) : atomAllowed op ty = ty.allows op := by cases op <;> cases ty <;> rfl
/-- The member mask is read back from its IMM15 (R268). -/
theorem parseMm_mm {imm : Option (BitVec 15)} {hi : BitVec 4} {mm : Option Reg} (h : imm.getD 0 = mmImm hi mm)
    (k : Option Reg → Except Reject Instr) : parseMm imm k = k mm := by
  cases mm <;> simp (decide := true) only [parseMm, h, mmImm, need, HAppend.hAppend, bit_low, bit_high, extract_low,
    extract_high, bit_getLsbD, extract_all, Nat.reduceSub, Option.isSome_none, Option.isSome_some, Option.getD_none,
    Option.getD_some, reduceIte, Bool.false_eq_true]
theorem mmImm_hi (hi : BitVec 4) (mm : Option Reg) : (mmImm hi mm).extractLsb' 7 4 = hi := by
  simp (decide := true) only [mmImm, HAppend.hAppend, extract_low, extract_high, extract_all, Nat.reduceSub]
/-- Scope, ordering and segment are read back from their IMM15 (Table 10-1). -/
theorem parseMem_imm {imm : Option (BitVec 15)} {w : Bool} {sc : Scope} {o : MemOrd} {seg : Seg} {wOk ordOk : Bool}
    (h : imm.getD memImmDefault = memImm w sc o seg) (hw : (wOk || !w) = true) (ho : (ordOk || o == .rlx) = true)
    (k : Bool → Scope → MemOrd → Seg → Except Reject Instr) : parseMem imm wOk ordOk k = k w sc o seg := by
  have ho' : (ordOk || o.code == 0) = true := by rw [← ho]; cases o <;> rfl
  simp (decide := true) only [parseMem, h, memImm, need, withCode, HAppend.hAppend, bit_low, bit_high, extract_low,
    extract_high, bit_getLsbD, extract_all, Nat.reduceSub, hw, ho', Scope_code, MemOrd_code, Seg_code, reduceIte,
    Bool.and_self, BitVec.reduceExtractLsb', Bool.true_and, BEq.rfl]
theorem some_getD {w : Nat} (o : Option (BitVec w)) (v : BitVec w) :
    (if o.isSome = true then some (o.getD v) else none) = o := by cases o <;> rfl
theorem some_or_zero {w : Nat} (o : Option (BitVec w)) : (o.isSome || o.getD 0 == 0) = true := by cases o <;> simp
/-- Bits above a small value are zero. -/
theorem extract_small {w : Nat} (v : BitVec w) (n k : Nat) (h : v.toNat < 2 ^ n) : v.extractLsb' n k = 0 := by
  apply BitVec.eq_of_toNat_eq
  rw [BitVec.extractLsb'_toNat, Nat.shiftRight_eq_div_pow, Nat.div_eq_of_lt h]; simp
theorem float_eq (op : AtomOp) (ty : AtomTy) :
    (ty.float && op == .add) = (op == .add && (ty == .f32 || ty == .f64 || ty == .f16 || ty == .bf16)) := by
  cases op <;> cases ty <;> rfl
/-- What an LX word may ask for behind an instruction that may round. -/
theorem rounds_ok {x : Lx} {r lb : Bool} (h : x.wf r lb = true) : (r || (x.rnd == 0 && x.sib == 0)) = true := by
  cases r
  · simp [quiet h]
  · rfl
theorem mmImm_ty (a : BitVec 1) (b : BitVec 3) (mm : Option Reg) :
    (mmImm (BitVec.append a b) mm).extractLsb' 7 3 = b := by
  simp (decide := true) only [mmImm, HAppend.hAppend, extract_low, extract_high, extract_all, Nat.reduceSub]
theorem mmImm_top (a : BitVec 1) (b : BitVec 3) (mm : Option Reg) :
    (mmImm (BitVec.append a b) mm).getLsbD 10 = a.getLsbD 0 := by
  simp (decide := true) only [mmImm, HAppend.hAppend, bit_low, bit_high, Nat.reduceSub]
theorem both_eq {w : Nat} (a : Bool) (b c : BitVec w) : (!(a && b != c)) = (!a || b == c) := by
  simp [bne]
theorem setWidth_eq {w : Nat} (v : BitVec w) (n : Nat) : v.setWidth n = v.extractLsb' 0 n := by
  apply BitVec.eq_of_getLsbD_eq; intro i hi; simp [hi]
/-- A value that its low bits give with their sign is read back from them (R176). -/
theorem fits_eq {w n : Nat} {v : BitVec w} (h : fits n v = true) : (v.extractLsb' 0 n).signExtend w = v := by
  rw [← setWidth_eq]; exact (eq_of_beq h).symm
theorem half_ok {h : Bool} {v : BitVec 27} (g : (!h || decide (v.toNat < 65536)) = true) :
    (!(h && v.extractLsb' 16 11 != 0)) = true := by
  cases h
  · rfl
  · rw [extract_small v 16 11 (by simpa using g)]; rfl
/-- No guard stands before an LB word (R188 item 7). -/
theorem lb_guard {x : Lx} {r : Bool} (h : x.wf r true = true) : (x.pred == 7 && !x.neg) = true := by
  obtain ⟨p, n, pr, rn, sb, e⟩ := x
  cases p
  · simp [Lx.wf, Lx.none] at h
    obtain ⟨rfl, rfl, rfl, rfl⟩ := h
    rfl
  · simp [Lx.wf] at h
    obtain ⟨⟨⟨-, g⟩, -⟩, rfl⟩ := h
    simpa using g
/-- Element type, segment and offset are read back from an LM word (R177, R178). -/
theorem parseLm_abs {x : Lx} {imm : Option (BitVec 15)} {ty : MTy} {off : BitVec 20} {load : Bool}
    (hq : x.rnd = 0 ∧ x.sib = 0)
    (h : imm.getD 0 = bit ty.alt ++ off.extractLsb' 6 4 ++ off.extractLsb' 10 10)
    (ht : MTy.ofCode load ty.alt ty.code = some ty) (s e : Bool) (op d a : BitVec 6) (seg : Seg)
    (k : MTy → Scope → Seg → BitVec 20 → Except Reject Instr) :
    parseLm x imm ⟨s, e, op, d, a, BitVec.append seg.code ty.code, off.extractLsb' 0 6⟩ load false k
      = k ty .device seg off := by
  simp (decide := true) only [parseLm, h, ht, hq, need, withCode, hi3, lo3, HAppend.hAppend, bit_low, bit_high,
    extract_low, extract_high, extract_join, extract_extract, bit_getLsbD, extract_all, Nat.reduceSub, Nat.reduceAdd,
    Seg_code, reduceIte, Bool.and_self, BEq.rfl, Bool.false_eq_true]
/-- The same of an LM word with a scope. -/
theorem parseLm_rel {x : Lx} {imm : Option (BitVec 15)} {ty : MTy} {sc : Scope} {off : BitVec 16} {load : Bool}
    (hq : x.rnd = 0 ∧ x.sib = 0)
    (h : imm = some (bit ty.alt ++ sc.code ++ off.extractLsb' 6 10) ∨
      (imm = none ∧ sc = .device ∧ off.extractLsb' 6 10 = 0 ∧ ty.alt = false))
    (ht : MTy.ofCode load ty.alt ty.code = some ty) (s e : Bool) (op d a : BitVec 6) (seg : Seg)
    (k : MTy → Scope → Seg → BitVec 20 → Except Reject Instr) :
    parseLm x imm ⟨s, e, op, d, a, BitVec.append seg.code ty.code, off.extractLsb' 0 6⟩ load true k
      = k ty sc seg (off.setWidth 20) := by
  rcases h with rfl | ⟨rfl, rfl, h0, h1⟩
  · simp (decide := true) only [parseLm, ht, hq, need, withCode, hi3, lo3, HAppend.hAppend, bit_low, bit_high,
      extract_low, extract_high, extract_join, extract_extract, bit_getLsbD, extract_all, Nat.reduceSub, Nat.reduceAdd,
      Seg_code, Scope_code, reduceIte, Bool.and_self, BEq.rfl, Option.getD_some, Option.isSome_some]
  · have h2 : BitVec.append (BitVec.extractLsb' 0 10 (0 : BitVec 15)) (off.extractLsb' 0 6) = off := by
      rw [show BitVec.extractLsb' 0 10 (0 : BitVec 15) = 0 from by decide, ← h0]
      exact (extract_join off 6 10 0 6 rfl).trans (extract_all off)
    rw [h1] at ht
    simp (decide := true) only [parseLm, ht, hq, h2, need, withCode, hi3, lo3, HAppend.hAppend,
      extract_low, extract_high, extract_all, Nat.reduceSub, BitVec.reduceGetLsb,
      Seg_code, reduceIte, Bool.and_self, BEq.rfl, Option.getD_none, Option.isSome_none, Bool.false_eq_true]
theorem width_back (off : BitVec 16) : (off.setWidth 20).setWidth 16 = off := by
  apply BitVec.eq_of_getLsbD_eq; intro i hi; simp <;> omega
theorem rel_ok {o : MemOrd} (h : (o == .rlx || o == .rel) = true) : redOrd o = true := h
theorem bar_or_zero (o : Option (BitVec 4)) : (o.isSome || BitVec.append 0#2 (o.getD 0) == 0) = true := by
  cases o <;> simp <;> rfl
theorem imm16 (v : BitVec 16) :
    BitVec.setWidth 16 (BitVec.append (BitVec.append (BitVec.append 0#2 (v.extractLsb' 12 4)) (v.extractLsb' 6 6))
      (v.extractLsb' 0 6)) = v := by
  show BitVec.setWidth 16 (0#2 ++ v.extractLsb' 12 4 ++ v.extractLsb' 6 6 ++ v.extractLsb' 0 6) = v
  apply BitVec.eq_of_getLsbD_eq
  intro i hi
  simp only [BitVec.getLsbD_setWidth, BitVec.getLsbD_append, BitVec.getLsbD_extractLsb', hi, decide_true, Bool.true_and]
  by_cases h : i < 6
  · simp [h]
  · by_cases g : i - 6 < 6
    · simp only [h, g, if_false, if_true, decide_true, Bool.true_and]; congr 1; omega
    · have k : i - 6 - 6 < 4 := by omega
      simp only [h, g, k, if_false, if_true, decide_true, Bool.true_and]; congr 1; omega
theorem satom_allowed {op : AtomOp} {ty : BitVec 2} (h : (op != .inc || ty == 0 || ty == 2) = true) :
    atomAllowed op (AtomTy.ofCode (BitVec.append 0#1 ty)) = true := by
  revert h; cases op <;> revert ty <;> decide
/-- A special register's code is read back from the 18 bits that hold it (R179). -/
theorem sr_high (s : USr) : BitVec.extractLsb' 4 8 (BitVec.append (0 : BitVec 6) (BitVec.append 0#2 (s.code.extractLsb' 6 4))) = 0 := by
  cases s <;> decide
theorem sr_low (s : USr) :
    BitVec.extractLsb' 0 10 (BitVec.append (BitVec.append (0 : BitVec 6) (BitVec.append 0#2 (s.code.extractLsb' 6 4)))
      (s.code.extractLsb' 0 6)) = s.code := by
  cases s <;> decide
theorem op_pack (n : Bool) (p : Pred) (r : BitVec 3) (s : BitVec 2) (i : BitVec 15) :
    (unpack (packLx n p r s i)).op = 0x3F := by rw [packLx, unpack_pack]
theorem eor_pack (n : Bool) (p : Pred) (r : BitVec 3) (s : BitVec 2) (i : BitVec 15) :
    (unpack (packLx n p r s i)).eor = false := by rw [packLx, unpack_pack]
theorem writable_ok {s : USr} (h : (s == .numctl || s == .numflags || s == .fpflags || s == .lsconf) = true) :
    s.writable = true := by
  revert h; cases s <;> decide
theorem frame_pack (n : Bool) (p : Pred) (r : BitVec 3) (s : BitVec 2) (i : BitVec 15) :
    (unpack (packLx n p r s i)).set = false := by rw [packLx, unpack_pack]
theorem icinv_scope (s : Scope) :
    (decide (3 ≤ s.code.toNat) && decide (s.code.toNat ≤ 6)) = (s == .core || s == .cluster || s == .die || s == .device) := by
  cases s <;> decide
theorem stamp_kind : ((2 : BitVec 4) == 4) = false := by decide
/-- An IMM15 of zero reads as zero with and without an LX word. -/
theorem imm_zero (p : Bool) : (if p then some (0 : BitVec 15) else none).getD 0 = 0 := by cases p <;> rfl

end Sys2Proof.Laws.Encoding
end

