-- ==== Sys2Proof/Laws/PerInstr.lean ====
section
/-! SUPPORT. What each instruction's own words decode to, one lemma for each constructor. -/
namespace Sys2Proof.Laws.Encoding
set_option linter.unusedSimpArgs false
-- One theorem after another: theorems elaborated side by side take a thread and its stack each, past the memory a check allows.
set_option Elab.async false

/-- A well-formed instruction is read back from its own words (R172 to R191, R337). -/
def Statement (i : Instr) : Prop := i.wf = true → readBack i (encode i)

theorem lxWord (neg : Bool) (pred : Pred) (rnd : BitVec 3) (sib : BitVec 2) (imm : BitVec 15) :
    Statement (.lxWord neg pred rnd sib imm) := by
  intro hwf
  have hf : (rnd != 7 && sib != 3 && !(sib == 2 && rnd != 0) && !(neg && pred == 7)) = true := wf_fields hwf
  simp only [Bool.and_eq_true] at hf
  refine of_lane _ _ rfl ?_
  simp (decide := true) only [readBack, decode, set_pack, op_pack, eor_pack, frame_pack, lxOf_pack, immOf_pack, lxFieldsOk, need, hf,
    reduceIte, Bool.and_self, Bool.not_false, Bool.false_eq_true]
theorem iadd (x : Lx) (cy : BitVec 3) (sat : BitVec 2) (w : Bool) (d a b : Reg) :
    Statement (.iadd x cy sat w d a b) := by
  intro hwf
  obtain ⟨hf, hx⟩ := wf_lane rfl rfl rfl hwf
  have hf : (sat != 3) = true := hf
  refine of_lane _ _ rfl (lane_words _ x _ _ _ _ _ _ _ _ hx (by decide) ?_)
  have hi := imm_zero x.present
  have hq := quiet hx
  simp (decide := true) only [parseLane, parseInteger, lane, need, hi3, lo3, fnOf, ofPred, ofBar, hi, hq, hf, HAppend.hAppend, bit_low, bit_high, extract_low, extract_high, bit_getLsbD, extract_all, extract_join, extract_extract, Nat.reduceSub, Nat.reduceAdd,
    BitVec.reduceExtractLsb', BitVec.reduceGetLsb, BitVec.reduceToNat, Nat.reduceLT, reduceIte, Bool.and_self, BEq.rfl, Bool.or_true, Bool.true_or, Bool.not_false, Bool.and_true]
theorem isub (x : Lx) (cy : BitVec 3) (sat : BitVec 2) (w : Bool) (d a b : Reg) :
    Statement (.isub x cy sat w d a b) := by
  intro hwf
  obtain ⟨hf, hx⟩ := wf_lane rfl rfl rfl hwf
  have hf : (sat != 3) = true := hf
  refine of_lane _ _ rfl (lane_words _ x _ _ _ _ _ _ _ _ hx (by decide) ?_)
  have hi := imm_zero x.present
  have hq := quiet hx
  simp (decide := true) only [parseLane, parseInteger, lane, need, hi3, lo3, fnOf, ofPred, ofBar, hi, hq, hf, HAppend.hAppend, bit_low, bit_high, extract_low, extract_high, bit_getLsbD, extract_all, extract_join, extract_extract, Nat.reduceSub, Nat.reduceAdd,
    BitVec.reduceExtractLsb', BitVec.reduceGetLsb, BitVec.reduceToNat, Nat.reduceLT, reduceIte, Bool.and_self, BEq.rfl, Bool.or_true, Bool.true_or, Bool.not_false, Bool.and_true]
theorem iaddc (x : Lx) (cy : BitVec 3) (w : Bool) (d a b : Reg) :
    Statement (.iaddc x cy w d a b) := by
  intro hwf
  obtain ⟨hf, hx⟩ := wf_lane rfl rfl rfl hwf
  have hf : (cy != 0) = true := hf
  refine of_lane _ _ rfl (lane_words _ x _ _ _ _ _ _ _ _ hx (by decide) ?_)
  have hi := imm_zero x.present
  have hq := quiet hx
  simp (decide := true) only [parseLane, parseInteger, lane, need, hi3, lo3, fnOf, ofPred, ofBar, hi, hq, hf, HAppend.hAppend, bit_low, bit_high, extract_low, extract_high, bit_getLsbD, extract_all, extract_join, extract_extract, Nat.reduceSub, Nat.reduceAdd,
    BitVec.reduceExtractLsb', BitVec.reduceGetLsb, BitVec.reduceToNat, Nat.reduceLT, reduceIte, Bool.and_self, BEq.rfl, Bool.or_true, Bool.true_or, Bool.not_false, Bool.and_true]
theorem isubb (x : Lx) (cy : BitVec 3) (w : Bool) (d a b : Reg) :
    Statement (.isubb x cy w d a b) := by
  intro hwf
  obtain ⟨hf, hx⟩ := wf_lane rfl rfl rfl hwf
  have hf : (cy != 0) = true := hf
  refine of_lane _ _ rfl (lane_words _ x _ _ _ _ _ _ _ _ hx (by decide) ?_)
  have hi := imm_zero x.present
  have hq := quiet hx
  simp (decide := true) only [parseLane, parseInteger, lane, need, hi3, lo3, fnOf, ofPred, ofBar, hi, hq, hf, HAppend.hAppend, bit_low, bit_high, extract_low, extract_high, bit_getLsbD, extract_all, extract_join, extract_extract, Nat.reduceSub, Nat.reduceAdd,
    BitVec.reduceExtractLsb', BitVec.reduceGetLsb, BitVec.reduceToNat, Nat.reduceLT, reduceIte, Bool.and_self, BEq.rfl, Bool.or_true, Bool.true_or, Bool.not_false, Bool.and_true]
theorem imul (x : Lx) (w : Bool) (d a b : Reg) :
    Statement (.imul x w d a b) := by
  intro hwf
  obtain ⟨hf, hx⟩ := wf_lane rfl rfl rfl hwf
  refine of_lane _ _ rfl (lane_words _ x _ _ _ _ _ _ _ _ hx (by decide) ?_)
  have hi := imm_zero x.present
  have hq := quiet hx
  simp (decide := true) only [parseLane, parseInteger, lane, need, hi3, lo3, fnOf, ofPred, ofBar, hi, hq, HAppend.hAppend, bit_low, bit_high, extract_low, extract_high, bit_getLsbD, extract_all, extract_join, extract_extract, Nat.reduceSub, Nat.reduceAdd,
    BitVec.reduceExtractLsb', BitVec.reduceGetLsb, BitVec.reduceToNat, Nat.reduceLT, reduceIte, Bool.and_self, BEq.rfl, Bool.or_true, Bool.true_or, Bool.not_false, Bool.and_true]
theorem imulhi (x : Lx) (s w : Bool) (d a b : Reg) :
    Statement (.imulhi x s w d a b) := by
  intro hwf
  obtain ⟨hf, hx⟩ := wf_lane rfl rfl rfl hwf
  refine of_lane _ _ rfl (lane_words _ x _ _ _ _ _ _ _ _ hx (by decide) ?_)
  have hi := imm_zero x.present
  have hq := quiet hx
  simp (decide := true) only [parseLane, parseInteger, lane, need, hi3, lo3, fnOf, ofPred, ofBar, hi, hq, HAppend.hAppend, bit_low, bit_high, extract_low, extract_high, bit_getLsbD, extract_all, extract_join, extract_extract, Nat.reduceSub, Nat.reduceAdd,
    BitVec.reduceExtractLsb', BitVec.reduceGetLsb, BitVec.reduceToNat, Nat.reduceLT, reduceIte, Bool.and_self, BEq.rfl, Bool.or_true, Bool.true_or, Bool.not_false, Bool.and_true]
theorem imad (x : Lx) (w : Bool) (d a b c : Reg) :
    Statement (.imad x w d a b c) := by
  intro hwf
  obtain ⟨hf, hx⟩ := wf_lane rfl rfl rfl hwf
  have hf : (x.present || !w) = true := hf
  refine of_lane _ _ rfl (lane_words _ x _ _ _ _ _ _ _ _ hx (by decide) ?_)
  have hi : (if x.present then some (imm2 false w) else none).getD 0 = (imm2 false w) :=
    imm_get _ _ _ (by cases hp : x.present <;> simp [hp] at hf ⊢ <;> simp [hf, imm2, mmImm, bit] <;> rfl)
  generalize (if x.present then some (imm2 false w) else none) = im at hi ⊢
  have hq := quiet hx
  simp (decide := true) only [parseLane, parseInteger, lane, need, hi3, lo3, fnOf, ofPred, ofBar, imm2, hi, hq, hf, HAppend.hAppend, bit_low, bit_high, extract_low, extract_high, bit_getLsbD, extract_all, extract_join, extract_extract, Nat.reduceSub, Nat.reduceAdd,
    BitVec.reduceExtractLsb', BitVec.reduceGetLsb, BitVec.reduceToNat, Nat.reduceLT, reduceIte, Bool.and_self, BEq.rfl, Bool.or_true, Bool.true_or, Bool.not_false, Bool.and_true]
theorem imadw (x : Lx) (s : Bool) (d a b c : Reg) :
    Statement (.imadw x s d a b c) := by
  intro hwf
  obtain ⟨hf, hx⟩ := wf_lane rfl rfl rfl hwf
  have hf : (x.present || !s) = true := hf
  refine of_lane _ _ rfl (lane_words _ x _ _ _ _ _ _ _ _ hx (by decide) ?_)
  have hi : (if x.present then some (imm2 false s) else none).getD 0 = (imm2 false s) :=
    imm_get _ _ _ (by cases hp : x.present <;> simp [hp] at hf ⊢ <;> simp [hf, imm2, mmImm, bit] <;> rfl)
  generalize (if x.present then some (imm2 false s) else none) = im at hi ⊢
  have hq := quiet hx
  simp (decide := true) only [parseLane, parseInteger, lane, need, hi3, lo3, fnOf, ofPred, ofBar, imm2, hi, hq, hf, HAppend.hAppend, bit_low, bit_high, extract_low, extract_high, bit_getLsbD, extract_all, extract_join, extract_extract, Nat.reduceSub, Nat.reduceAdd,
    BitVec.reduceExtractLsb', BitVec.reduceGetLsb, BitVec.reduceToNat, Nat.reduceLT, reduceIte, Bool.and_self, BEq.rfl, Bool.or_true, Bool.true_or, Bool.not_false, Bool.and_true]
theorem imin (x : Lx) (s w : Bool) (d a b : Reg) :
    Statement (.imin x s w d a b) := by
  intro hwf
  obtain ⟨hf, hx⟩ := wf_lane rfl rfl rfl hwf
  refine of_lane _ _ rfl (lane_words _ x _ _ _ _ _ _ _ _ hx (by decide) ?_)
  have hi := imm_zero x.present
  have hq := quiet hx
  simp (decide := true) only [parseLane, parseInteger, lane, need, hi3, lo3, fnOf, ofPred, ofBar, hi, hq, HAppend.hAppend, bit_low, bit_high, extract_low, extract_high, bit_getLsbD, extract_all, extract_join, extract_extract, Nat.reduceSub, Nat.reduceAdd,
    BitVec.reduceExtractLsb', BitVec.reduceGetLsb, BitVec.reduceToNat, Nat.reduceLT, reduceIte, Bool.and_self, BEq.rfl, Bool.or_true, Bool.true_or, Bool.not_false, Bool.and_true]
theorem imax (x : Lx) (s w : Bool) (d a b : Reg) :
    Statement (.imax x s w d a b) := by
  intro hwf
  obtain ⟨hf, hx⟩ := wf_lane rfl rfl rfl hwf
  refine of_lane _ _ rfl (lane_words _ x _ _ _ _ _ _ _ _ hx (by decide) ?_)
  have hi := imm_zero x.present
  have hq := quiet hx
  simp (decide := true) only [parseLane, parseInteger, lane, need, hi3, lo3, fnOf, ofPred, ofBar, hi, hq, HAppend.hAppend, bit_low, bit_high, extract_low, extract_high, bit_getLsbD, extract_all, extract_join, extract_extract, Nat.reduceSub, Nat.reduceAdd,
    BitVec.reduceExtractLsb', BitVec.reduceGetLsb, BitVec.reduceToNat, Nat.reduceLT, reduceIte, Bool.and_self, BEq.rfl, Bool.or_true, Bool.true_or, Bool.not_false, Bool.and_true]
theorem iabs (x : Lx) (sat w : Bool) (d a : Reg) :
    Statement (.iabs x sat w d a) := by
  intro hwf
  obtain ⟨hf, hx⟩ := wf_lane rfl rfl rfl hwf
  refine of_lane _ _ rfl (lane_words _ x _ _ _ _ _ _ _ _ hx (by decide) ?_)
  have hi := imm_zero x.present
  have hq := quiet hx
  simp (decide := true) only [parseLane, parseInteger, lane, need, hi3, lo3, fnOf, ofPred, ofBar, hi, hq, HAppend.hAppend, bit_low, bit_high, extract_low, extract_high, bit_getLsbD, extract_all, extract_join, extract_extract, Nat.reduceSub, Nat.reduceAdd,
    BitVec.reduceExtractLsb', BitVec.reduceGetLsb, BitVec.reduceToNat, Nat.reduceLT, reduceIte, Bool.and_self, BEq.rfl, Bool.or_true, Bool.true_or, Bool.not_false, Bool.and_true]
theorem ineg (x : Lx) (sat w : Bool) (d a : Reg) :
    Statement (.ineg x sat w d a) := by
  intro hwf
  obtain ⟨hf, hx⟩ := wf_lane rfl rfl rfl hwf
  refine of_lane _ _ rfl (lane_words _ x _ _ _ _ _ _ _ _ hx (by decide) ?_)
  have hi := imm_zero x.present
  have hq := quiet hx
  simp (decide := true) only [parseLane, parseInteger, lane, need, hi3, lo3, fnOf, ofPred, ofBar, hi, hq, HAppend.hAppend, bit_low, bit_high, extract_low, extract_high, bit_getLsbD, extract_all, extract_join, extract_extract, Nat.reduceSub, Nat.reduceAdd,
    BitVec.reduceExtractLsb', BitVec.reduceGetLsb, BitVec.reduceToNat, Nat.reduceLT, reduceIte, Bool.and_self, BEq.rfl, Bool.or_true, Bool.true_or, Bool.not_false, Bool.and_true]
theorem andB (x : Lx) (w : Bool) (d a b : Reg) :
    Statement (.andB x w d a b) := by
  intro hwf
  obtain ⟨hf, hx⟩ := wf_lane rfl rfl rfl hwf
  refine of_lane _ _ rfl (lane_words _ x _ _ _ _ _ _ _ _ hx (by decide) ?_)
  have hi := imm_zero x.present
  have hq := quiet hx
  simp (decide := true) only [parseLane, parseInteger, lane, need, hi3, lo3, fnOf, ofPred, ofBar, hi, hq, HAppend.hAppend, bit_low, bit_high, extract_low, extract_high, bit_getLsbD, extract_all, extract_join, extract_extract, Nat.reduceSub, Nat.reduceAdd,
    BitVec.reduceExtractLsb', BitVec.reduceGetLsb, BitVec.reduceToNat, Nat.reduceLT, reduceIte, Bool.and_self, BEq.rfl, Bool.or_true, Bool.true_or, Bool.not_false, Bool.and_true]
theorem orB (x : Lx) (w : Bool) (d a b : Reg) :
    Statement (.orB x w d a b) := by
  intro hwf
  obtain ⟨hf, hx⟩ := wf_lane rfl rfl rfl hwf
  refine of_lane _ _ rfl (lane_words _ x _ _ _ _ _ _ _ _ hx (by decide) ?_)
  have hi := imm_zero x.present
  have hq := quiet hx
  simp (decide := true) only [parseLane, parseInteger, lane, need, hi3, lo3, fnOf, ofPred, ofBar, hi, hq, HAppend.hAppend, bit_low, bit_high, extract_low, extract_high, bit_getLsbD, extract_all, extract_join, extract_extract, Nat.reduceSub, Nat.reduceAdd,
    BitVec.reduceExtractLsb', BitVec.reduceGetLsb, BitVec.reduceToNat, Nat.reduceLT, reduceIte, Bool.and_self, BEq.rfl, Bool.or_true, Bool.true_or, Bool.not_false, Bool.and_true]
theorem xorB (x : Lx) (w : Bool) (d a b : Reg) :
    Statement (.xorB x w d a b) := by
  intro hwf
  obtain ⟨hf, hx⟩ := wf_lane rfl rfl rfl hwf
  refine of_lane _ _ rfl (lane_words _ x _ _ _ _ _ _ _ _ hx (by decide) ?_)
  have hi := imm_zero x.present
  have hq := quiet hx
  simp (decide := true) only [parseLane, parseInteger, lane, need, hi3, lo3, fnOf, ofPred, ofBar, hi, hq, HAppend.hAppend, bit_low, bit_high, extract_low, extract_high, bit_getLsbD, extract_all, extract_join, extract_extract, Nat.reduceSub, Nat.reduceAdd,
    BitVec.reduceExtractLsb', BitVec.reduceGetLsb, BitVec.reduceToNat, Nat.reduceLT, reduceIte, Bool.and_self, BEq.rfl, Bool.or_true, Bool.true_or, Bool.not_false, Bool.and_true]
theorem andn (x : Lx) (w : Bool) (d a b : Reg) :
    Statement (.andn x w d a b) := by
  intro hwf
  obtain ⟨hf, hx⟩ := wf_lane rfl rfl rfl hwf
  refine of_lane _ _ rfl (lane_words _ x _ _ _ _ _ _ _ _ hx (by decide) ?_)
  have hi := imm_zero x.present
  have hq := quiet hx
  simp (decide := true) only [parseLane, parseInteger, lane, need, hi3, lo3, fnOf, ofPred, ofBar, hi, hq, HAppend.hAppend, bit_low, bit_high, extract_low, extract_high, bit_getLsbD, extract_all, extract_join, extract_extract, Nat.reduceSub, Nat.reduceAdd,
    BitVec.reduceExtractLsb', BitVec.reduceGetLsb, BitVec.reduceToNat, Nat.reduceLT, reduceIte, Bool.and_self, BEq.rfl, Bool.or_true, Bool.true_or, Bool.not_false, Bool.and_true]
theorem shl (x : Lx) (imm w : Bool) (d a b : Reg) :
    Statement (.shl x imm w d a b) := by
  intro hwf
  obtain ⟨hf, hx⟩ := wf_lane rfl rfl rfl hwf
  refine of_lane _ _ rfl (lane_words _ x _ _ _ _ _ _ _ _ hx (by decide) ?_)
  have hi := imm_zero x.present
  have hq := quiet hx
  simp (decide := true) only [parseLane, parseInteger, lane, need, hi3, lo3, fnOf, ofPred, ofBar, hi, hq, HAppend.hAppend, bit_low, bit_high, extract_low, extract_high, bit_getLsbD, extract_all, extract_join, extract_extract, Nat.reduceSub, Nat.reduceAdd,
    BitVec.reduceExtractLsb', BitVec.reduceGetLsb, BitVec.reduceToNat, Nat.reduceLT, reduceIte, Bool.and_self, BEq.rfl, Bool.or_true, Bool.true_or, Bool.not_false, Bool.and_true]
theorem shr (x : Lx) (imm w : Bool) (d a b : Reg) :
    Statement (.shr x imm w d a b) := by
  intro hwf
  obtain ⟨hf, hx⟩ := wf_lane rfl rfl rfl hwf
  refine of_lane _ _ rfl (lane_words _ x _ _ _ _ _ _ _ _ hx (by decide) ?_)
  have hi := imm_zero x.present
  have hq := quiet hx
  simp (decide := true) only [parseLane, parseInteger, lane, need, hi3, lo3, fnOf, ofPred, ofBar, hi, hq, HAppend.hAppend, bit_low, bit_high, extract_low, extract_high, bit_getLsbD, extract_all, extract_join, extract_extract, Nat.reduceSub, Nat.reduceAdd,
    BitVec.reduceExtractLsb', BitVec.reduceGetLsb, BitVec.reduceToNat, Nat.reduceLT, reduceIte, Bool.and_self, BEq.rfl, Bool.or_true, Bool.true_or, Bool.not_false, Bool.and_true]
theorem sar (x : Lx) (imm w : Bool) (d a b : Reg) :
    Statement (.sar x imm w d a b) := by
  intro hwf
  obtain ⟨hf, hx⟩ := wf_lane rfl rfl rfl hwf
  refine of_lane _ _ rfl (lane_words _ x _ _ _ _ _ _ _ _ hx (by decide) ?_)
  have hi := imm_zero x.present
  have hq := quiet hx
  simp (decide := true) only [parseLane, parseInteger, lane, need, hi3, lo3, fnOf, ofPred, ofBar, hi, hq, HAppend.hAppend, bit_low, bit_high, extract_low, extract_high, bit_getLsbD, extract_all, extract_join, extract_extract, Nat.reduceSub, Nat.reduceAdd,
    BitVec.reduceExtractLsb', BitVec.reduceGetLsb, BitVec.reduceToNat, Nat.reduceLT, reduceIte, Bool.and_self, BEq.rfl, Bool.or_true, Bool.true_or, Bool.not_false, Bool.and_true]
theorem rotl (x : Lx) (imm w : Bool) (d a b : Reg) :
    Statement (.rotl x imm w d a b) := by
  intro hwf
  obtain ⟨hf, hx⟩ := wf_lane rfl rfl rfl hwf
  refine of_lane _ _ rfl (lane_words _ x _ _ _ _ _ _ _ _ hx (by decide) ?_)
  have hi := imm_zero x.present
  have hq := quiet hx
  simp (decide := true) only [parseLane, parseInteger, lane, need, hi3, lo3, fnOf, ofPred, ofBar, hi, hq, HAppend.hAppend, bit_low, bit_high, extract_low, extract_high, bit_getLsbD, extract_all, extract_join, extract_extract, Nat.reduceSub, Nat.reduceAdd,
    BitVec.reduceExtractLsb', BitVec.reduceGetLsb, BitVec.reduceToNat, Nat.reduceLT, reduceIte, Bool.and_self, BEq.rfl, Bool.or_true, Bool.true_or, Bool.not_false, Bool.and_true]
theorem fsh (x : Lx) (l : Bool) (d a b c : Reg) :
    Statement (.fsh x l d a b c) := by
  intro hwf
  obtain ⟨hf, hx⟩ := wf_lane rfl rfl rfl hwf
  have hf : (x.present || !l) = true := hf
  refine of_lane _ _ rfl (lane_words _ x _ _ _ _ _ _ _ _ hx (by decide) ?_)
  have hi : (if x.present then some (imm2 false l) else none).getD 0 = (imm2 false l) :=
    imm_get _ _ _ (by cases hp : x.present <;> simp [hp] at hf ⊢ <;> simp [hf, imm2, mmImm, bit] <;> rfl)
  generalize (if x.present then some (imm2 false l) else none) = im at hi ⊢
  have hq := quiet hx
  simp (decide := true) only [parseLane, parseInteger, lane, need, hi3, lo3, fnOf, ofPred, ofBar, imm2, hi, hq, hf, HAppend.hAppend, bit_low, bit_high, extract_low, extract_high, bit_getLsbD, extract_all, extract_join, extract_extract, Nat.reduceSub, Nat.reduceAdd,
    BitVec.reduceExtractLsb', BitVec.reduceGetLsb, BitVec.reduceToNat, Nat.reduceLT, reduceIte, Bool.and_self, BEq.rfl, Bool.or_true, Bool.true_or, Bool.not_false, Bool.and_true]
theorem popc (x : Lx) (w : Bool) (d a : Reg) :
    Statement (.popc x w d a) := by
  intro hwf
  obtain ⟨hf, hx⟩ := wf_lane rfl rfl rfl hwf
  refine of_lane _ _ rfl (lane_words _ x _ _ _ _ _ _ _ _ hx (by decide) ?_)
  have hi := imm_zero x.present
  have hq := quiet hx
  simp (decide := true) only [parseLane, parseInteger, lane, need, hi3, lo3, fnOf, ofPred, ofBar, hi, hq, HAppend.hAppend, bit_low, bit_high, extract_low, extract_high, bit_getLsbD, extract_all, extract_join, extract_extract, Nat.reduceSub, Nat.reduceAdd,
    BitVec.reduceExtractLsb', BitVec.reduceGetLsb, BitVec.reduceToNat, Nat.reduceLT, reduceIte, Bool.and_self, BEq.rfl, Bool.or_true, Bool.true_or, Bool.not_false, Bool.and_true]
theorem clz (x : Lx) (w : Bool) (d a : Reg) :
    Statement (.clz x w d a) := by
  intro hwf
  obtain ⟨hf, hx⟩ := wf_lane rfl rfl rfl hwf
  refine of_lane _ _ rfl (lane_words _ x _ _ _ _ _ _ _ _ hx (by decide) ?_)
  have hi := imm_zero x.present
  have hq := quiet hx
  simp (decide := true) only [parseLane, parseInteger, lane, need, hi3, lo3, fnOf, ofPred, ofBar, hi, hq, HAppend.hAppend, bit_low, bit_high, extract_low, extract_high, bit_getLsbD, extract_all, extract_join, extract_extract, Nat.reduceSub, Nat.reduceAdd,
    BitVec.reduceExtractLsb', BitVec.reduceGetLsb, BitVec.reduceToNat, Nat.reduceLT, reduceIte, Bool.and_self, BEq.rfl, Bool.or_true, Bool.true_or, Bool.not_false, Bool.and_true]
theorem ctz (x : Lx) (w : Bool) (d a : Reg) :
    Statement (.ctz x w d a) := by
  intro hwf
  obtain ⟨hf, hx⟩ := wf_lane rfl rfl rfl hwf
  refine of_lane _ _ rfl (lane_words _ x _ _ _ _ _ _ _ _ hx (by decide) ?_)
  have hi := imm_zero x.present
  have hq := quiet hx
  simp (decide := true) only [parseLane, parseInteger, lane, need, hi3, lo3, fnOf, ofPred, ofBar, hi, hq, HAppend.hAppend, bit_low, bit_high, extract_low, extract_high, bit_getLsbD, extract_all, extract_join, extract_extract, Nat.reduceSub, Nat.reduceAdd,
    BitVec.reduceExtractLsb', BitVec.reduceGetLsb, BitVec.reduceToNat, Nat.reduceLT, reduceIte, Bool.and_self, BEq.rfl, Bool.or_true, Bool.true_or, Bool.not_false, Bool.and_true]
theorem brev (x : Lx) (w : Bool) (d a : Reg) :
    Statement (.brev x w d a) := by
  intro hwf
  obtain ⟨hf, hx⟩ := wf_lane rfl rfl rfl hwf
  refine of_lane _ _ rfl (lane_words _ x _ _ _ _ _ _ _ _ hx (by decide) ?_)
  have hi := imm_zero x.present
  have hq := quiet hx
  simp (decide := true) only [parseLane, parseInteger, lane, need, hi3, lo3, fnOf, ofPred, ofBar, hi, hq, HAppend.hAppend, bit_low, bit_high, extract_low, extract_high, bit_getLsbD, extract_all, extract_join, extract_extract, Nat.reduceSub, Nat.reduceAdd,
    BitVec.reduceExtractLsb', BitVec.reduceGetLsb, BitVec.reduceToNat, Nat.reduceLT, reduceIte, Bool.and_self, BEq.rfl, Bool.or_true, Bool.true_or, Bool.not_false, Bool.and_true]
theorem bfx (x : Lx) (s w : Bool) (d a b : Reg) :
    Statement (.bfx x s w d a b) := by
  intro hwf
  obtain ⟨hf, hx⟩ := wf_lane rfl rfl rfl hwf
  refine of_lane _ _ rfl (lane_words _ x _ _ _ _ _ _ _ _ hx (by decide) ?_)
  have hi := imm_zero x.present
  have hq := quiet hx
  simp (decide := true) only [parseLane, parseInteger, lane, need, hi3, lo3, fnOf, ofPred, ofBar, hi, hq, HAppend.hAppend, bit_low, bit_high, extract_low, extract_high, bit_getLsbD, extract_all, extract_join, extract_extract, Nat.reduceSub, Nat.reduceAdd,
    BitVec.reduceExtractLsb', BitVec.reduceGetLsb, BitVec.reduceToNat, Nat.reduceLT, reduceIte, Bool.and_self, BEq.rfl, Bool.or_true, Bool.true_or, Bool.not_false, Bool.and_true]
theorem bfi (x : Lx) (w : Bool) (d a b c : Reg) :
    Statement (.bfi x w d a b c) := by
  intro hwf
  obtain ⟨hf, hx⟩ := wf_lane rfl rfl rfl hwf
  have hf : (x.present || !w) = true := hf
  refine of_lane _ _ rfl (lane_words _ x _ _ _ _ _ _ _ _ hx (by decide) ?_)
  have hi : (if x.present then some (imm2 false w) else none).getD 0 = (imm2 false w) :=
    imm_get _ _ _ (by cases hp : x.present <;> simp [hp] at hf ⊢ <;> simp [hf, imm2, mmImm, bit] <;> rfl)
  generalize (if x.present then some (imm2 false w) else none) = im at hi ⊢
  have hq := quiet hx
  simp (decide := true) only [parseLane, parseInteger, lane, need, hi3, lo3, fnOf, ofPred, ofBar, imm2, hi, hq, hf, HAppend.hAppend, bit_low, bit_high, extract_low, extract_high, bit_getLsbD, extract_all, extract_join, extract_extract, Nat.reduceSub, Nat.reduceAdd,
    BitVec.reduceExtractLsb', BitVec.reduceGetLsb, BitVec.reduceToNat, Nat.reduceLT, reduceIte, Bool.and_self, BEq.rfl, Bool.or_true, Bool.true_or, Bool.not_false, Bool.and_true]
theorem bpick (x : Lx) (ctl : BitVec 20) (d a b : Reg) :
    Statement (.bpick x ctl d a b) := by
  intro hwf
  obtain ⟨hf, hx⟩ := wf_lane rfl rfl rfl hwf
  have hf : (x.present || decide (ctl.toNat < 64)) = true := hf
  refine of_lane _ _ rfl (lane_words _ x _ _ _ _ _ _ _ _ hx (by decide) ?_)
  have hi : (if x.present then some (0#1 ++ ctl.extractLsb' 6 14) else none).getD 0 = 0#1 ++ ctl.extractLsb' 6 14 :=
    imm_get _ _ _ (by
      cases hp : x.present
      · rw [hp, Bool.false_or, decide_eq_true_eq] at hf; rw [extract_small ctl 6 14 hf]; exact .inr rfl
      · exact .inl rfl)
  generalize (if x.present then some (0#1 ++ ctl.extractLsb' 6 14) else none) = im at hi ⊢
  have hq := quiet hx
  simp (decide := true) only [parseLane, parseInteger, lane, need, hi3, lo3, fnOf, ofPred, ofBar, hi, hq, HAppend.hAppend, bit_low, bit_high, extract_low, extract_high, bit_getLsbD, extract_all, extract_join, extract_extract, Nat.reduceSub, Nat.reduceAdd,
    BitVec.reduceExtractLsb', BitVec.reduceGetLsb, BitVec.reduceToNat, Nat.reduceLT, reduceIte, Bool.and_self, BEq.rfl, Bool.or_true, Bool.true_or, Bool.not_false, Bool.and_true]
theorem icmp (x : Lx) (c : Cond) (s w : Bool) (pd : Pred) (a b : Reg) :
    Statement (.icmp x c s w pd a b) := by
  intro hwf
  obtain ⟨hf, hx⟩ := wf_lane rfl rfl rfl hwf
  have hf : (c.isInteger) = true := hf
  refine of_lane _ _ rfl (lane_words _ x _ _ _ _ _ _ _ _ hx (by decide) ?_)
  have hi := imm_zero x.present
  have hq := quiet hx
  simp (decide := true) only [parseLane, parseInteger, lane, need, hi3, lo3, fnOf, ofPred, ofBar, Cond_code, integer_eq, hi, hq, hf, HAppend.hAppend, bit_low, bit_high, extract_low, extract_high, bit_getLsbD, extract_all, extract_join, extract_extract, Nat.reduceSub, Nat.reduceAdd,
    BitVec.reduceExtractLsb', BitVec.reduceGetLsb, BitVec.reduceToNat, Nat.reduceLT, reduceIte, Bool.and_self, BEq.rfl, Bool.or_true, Bool.true_or, Bool.not_false, Bool.and_true]
theorem sel (x : Lx) (w neg : Bool) (pn : Pred) (d a b : Reg) :
    Statement (.sel x w neg pn d a b) := by
  intro hwf
  obtain ⟨hf, hx⟩ := wf_lane rfl rfl rfl hwf
  refine of_lane _ _ rfl (lane_words _ x _ _ _ _ _ _ _ _ hx (by decide) ?_)
  have hi := imm_zero x.present
  have hq := quiet hx
  simp (decide := true) only [parseLane, parseInteger, lane, need, hi3, lo3, fnOf, ofPred, ofBar, hi, hq, HAppend.hAppend, bit_low, bit_high, extract_low, extract_high, bit_getLsbD, extract_all, extract_join, extract_extract, Nat.reduceSub, Nat.reduceAdd,
    BitVec.reduceExtractLsb', BitVec.reduceGetLsb, BitVec.reduceToNat, Nat.reduceLT, reduceIte, Bool.and_self, BEq.rfl, Bool.or_true, Bool.true_or, Bool.not_false, Bool.and_true]
theorem mov (x : Lx) (w : Bool) (d a : Reg) :
    Statement (.mov x w d a) := by
  intro hwf
  obtain ⟨hf, hx⟩ := wf_lane rfl rfl rfl hwf
  refine of_lane _ _ rfl (lane_words _ x _ _ _ _ _ _ _ _ hx (by decide) ?_)
  have hi := imm_zero x.present
  have hq := quiet hx
  simp (decide := true) only [parseLane, parseInteger, lane, need, hi3, lo3, fnOf, ofPred, ofBar, hi, hq, HAppend.hAppend, bit_low, bit_high, extract_low, extract_high, bit_getLsbD, extract_all, extract_join, extract_extract, Nat.reduceSub, Nat.reduceAdd,
    BitVec.reduceExtractLsb', BitVec.reduceGetLsb, BitVec.reduceToNat, Nat.reduceLT, reduceIte, Bool.and_self, BEq.rfl, Bool.or_true, Bool.true_or, Bool.not_false, Bool.and_true]
theorem movUniform (x : Lx) (w : Bool) (d b : Reg) :
    Statement (.movUniform x w d b) := by
  intro hwf
  obtain ⟨hf, hx⟩ := wf_lane rfl rfl rfl hwf
  have hf : (decide (b.toNat < 60)) = true := hf
  refine of_lane _ _ rfl (lane_words _ x _ _ _ _ _ _ _ _ hx (by decide) ?_)
  have hi := imm_zero x.present
  have hq := quiet hx
  simp (decide := true) only [parseLane, parseInteger, lane, need, hi3, lo3, fnOf, ofPred, ofBar, hi, hq, hf, HAppend.hAppend, bit_low, bit_high, extract_low, extract_high, bit_getLsbD, extract_all, extract_join, extract_extract, Nat.reduceSub, Nat.reduceAdd,
    BitVec.reduceExtractLsb', BitVec.reduceGetLsb, BitVec.reduceToNat, Nat.reduceLT, reduceIte, Bool.and_self, BEq.rfl, Bool.or_true, Bool.true_or, Bool.not_false, Bool.and_true]
theorem movs (x : Lx) (d : Reg) (sr : LaneSr) :
    Statement (.movs x d sr) := by
  intro hwf
  obtain ⟨hf, hx⟩ := wf_lane rfl rfl rfl hwf
  refine of_lane _ _ rfl (lane_words _ x _ _ _ _ _ _ _ _ hx (by decide) ?_)
  have hi := imm_zero x.present
  have hq := quiet hx
  simp (decide := true) only [parseLane, parseInteger, lane, need, hi3, lo3, fnOf, ofPred, ofBar, LaneSr_code, withCode, hi, hq, HAppend.hAppend, bit_low, bit_high, extract_low, extract_high, bit_getLsbD, extract_all, extract_join, extract_extract, Nat.reduceSub, Nat.reduceAdd,
    BitVec.reduceExtractLsb', BitVec.reduceGetLsb, BitVec.reduceToNat, Nat.reduceLT, reduceIte, Bool.and_self, BEq.rfl, Bool.or_true, Bool.true_or, Bool.not_false, Bool.and_true]
theorem movi (x : Lx) (h : Bool) (d : Reg) (v : BitVec 27) :
    Statement (.movi x h d v) := by
  intro hwf
  obtain ⟨hf, hx⟩ := wf_lane rfl rfl rfl hwf
  have hf : ((x.present || fits 12 v) && (!h || decide (v.toNat < 65536))) = true := hf
  simp only [Bool.and_eq_true] at hf
  refine of_lane _ _ rfl (lane_words _ x _ _ _ _ _ _ _ _ hx (by decide) ?_)
  have hq := quiet hx
  have hs : x.present = false → (v.extractLsb' 0 12).signExtend 27 = v := fun hp =>
    fits_eq (by simpa [hp] using hf.1)
  cases hp : x.present
  · simp (decide := true) only [parseLane, parseInteger, lane, need, hi3, lo3, half_ok hf.2, hq, hf, HAppend.hAppend, bit_low, bit_high, extract_low, extract_high, bit_getLsbD, extract_all, extract_join, extract_extract, Nat.reduceSub, Nat.reduceAdd,
      BitVec.reduceExtractLsb', BitVec.reduceGetLsb, BitVec.reduceToNat, Nat.reduceLT, reduceIte, Bool.and_self, BEq.rfl, Bool.or_true, Bool.true_or, Bool.not_false, Bool.and_true, Bool.false_eq_true, hp, hs hp]
  · simp (decide := true) only [parseLane, parseInteger, lane, need, hi3, lo3, half_ok hf.2, hq, hf, HAppend.hAppend, bit_low, bit_high, extract_low, extract_high, bit_getLsbD, extract_all, extract_join, extract_extract, Nat.reduceSub, Nat.reduceAdd,
      BitVec.reduceExtractLsb', BitVec.reduceGetLsb, BitVec.reduceToNat, Nat.reduceLT, reduceIte, Bool.and_self, BEq.rfl, Bool.or_true, Bool.true_or, Bool.not_false, Bool.and_true, Bool.false_eq_true, hp]
theorem movpRd (x : Lx) (d : Reg) :
    Statement (.movpRd x d) := by
  intro hwf
  obtain ⟨hf, hx⟩ := wf_lane rfl rfl rfl hwf
  refine of_lane _ _ rfl (lane_words _ x _ _ _ _ _ _ _ _ hx (by decide) ?_)
  have hi := imm_zero x.present
  have hq := quiet hx
  simp (decide := true) only [parseLane, parseInteger, lane, need, hi3, lo3, fnOf, ofPred, ofBar, hi, hq, HAppend.hAppend, bit_low, bit_high, extract_low, extract_high, bit_getLsbD, extract_all, extract_join, extract_extract, Nat.reduceSub, Nat.reduceAdd,
    BitVec.reduceExtractLsb', BitVec.reduceGetLsb, BitVec.reduceToNat, Nat.reduceLT, reduceIte, Bool.and_self, BEq.rfl, Bool.or_true, Bool.true_or, Bool.not_false, Bool.and_true]
theorem movpWr (x : Lx) (a : Reg) :
    Statement (.movpWr x a) := by
  intro hwf
  obtain ⟨hf, hx⟩ := wf_lane rfl rfl rfl hwf
  refine of_lane _ _ rfl (lane_words _ x _ _ _ _ _ _ _ _ hx (by decide) ?_)
  have hi := imm_zero x.present
  have hq := quiet hx
  simp (decide := true) only [parseLane, parseInteger, lane, need, hi3, lo3, fnOf, ofPred, ofBar, hi, hq, HAppend.hAppend, bit_low, bit_high, extract_low, extract_high, bit_getLsbD, extract_all, extract_join, extract_extract, Nat.reduceSub, Nat.reduceAdd,
    BitVec.reduceExtractLsb', BitVec.reduceGetLsb, BitVec.reduceToNat, Nat.reduceLT, reduceIte, Bool.and_self, BEq.rfl, Bool.or_true, Bool.true_or, Bool.not_false, Bool.and_true]
theorem movpLop (x : Lx) (t : BitVec 4) (pd pa pb : Pred) :
    Statement (.movpLop x t pd pa pb) := by
  intro hwf
  obtain ⟨hf, hx⟩ := wf_lane rfl rfl rfl hwf
  refine of_lane _ _ rfl (lane_words _ x _ _ _ _ _ _ _ _ hx (by decide) ?_)
  have hi := imm_zero x.present
  have hq := quiet hx
  simp (decide := true) only [parseLane, parseInteger, lane, need, hi3, lo3, fnOf, ofPred, ofBar, hi, hq, HAppend.hAppend, bit_low, bit_high, extract_low, extract_high, bit_getLsbD, extract_all, extract_join, extract_extract, Nat.reduceSub, Nat.reduceAdd,
    BitVec.reduceExtractLsb', BitVec.reduceGetLsb, BitVec.reduceToNat, Nat.reduceLT, reduceIte, Bool.and_self, BEq.rfl, Bool.or_true, Bool.true_or, Bool.not_false, Bool.and_true]
theorem fadd (x : Lx) (ty : FTy) (d a b : Reg) :
    Statement (.fadd x ty d a b) := by
  intro hwf
  obtain ⟨hf, hx⟩ := wf_lane rfl rfl rfl hwf
  refine of_lane _ _ rfl (lane_words _ x _ _ _ _ _ _ _ _ hx (by decide) ?_)
  have hi := imm_zero x.present
  simp (decide := true) only [parseLane, parseInteger, lane, need, hi3, lo3, fnOf, ofPred, ofBar, FTy_code, hi, HAppend.hAppend, bit_low, bit_high, extract_low, extract_high, bit_getLsbD, extract_all, extract_join, extract_extract, Nat.reduceSub, Nat.reduceAdd,
    BitVec.reduceExtractLsb', BitVec.reduceGetLsb, BitVec.reduceToNat, Nat.reduceLT, reduceIte, Bool.and_self, BEq.rfl, Bool.or_true, Bool.true_or, Bool.not_false, Bool.and_true]
theorem fsub (x : Lx) (ty : FTy) (d a b : Reg) :
    Statement (.fsub x ty d a b) := by
  intro hwf
  obtain ⟨hf, hx⟩ := wf_lane rfl rfl rfl hwf
  refine of_lane _ _ rfl (lane_words _ x _ _ _ _ _ _ _ _ hx (by decide) ?_)
  have hi := imm_zero x.present
  simp (decide := true) only [parseLane, parseInteger, lane, need, hi3, lo3, fnOf, ofPred, ofBar, FTy_code, hi, HAppend.hAppend, bit_low, bit_high, extract_low, extract_high, bit_getLsbD, extract_all, extract_join, extract_extract, Nat.reduceSub, Nat.reduceAdd,
    BitVec.reduceExtractLsb', BitVec.reduceGetLsb, BitVec.reduceToNat, Nat.reduceLT, reduceIte, Bool.and_self, BEq.rfl, Bool.or_true, Bool.true_or, Bool.not_false, Bool.and_true]
theorem fmul (x : Lx) (ty : FTy) (d a b : Reg) :
    Statement (.fmul x ty d a b) := by
  intro hwf
  obtain ⟨hf, hx⟩ := wf_lane rfl rfl rfl hwf
  refine of_lane _ _ rfl (lane_words _ x _ _ _ _ _ _ _ _ hx (by decide) ?_)
  have hi := imm_zero x.present
  simp (decide := true) only [parseLane, parseInteger, lane, need, hi3, lo3, fnOf, ofPred, ofBar, FTy_code, hi, HAppend.hAppend, bit_low, bit_high, extract_low, extract_high, bit_getLsbD, extract_all, extract_join, extract_extract, Nat.reduceSub, Nat.reduceAdd,
    BitVec.reduceExtractLsb', BitVec.reduceGetLsb, BitVec.reduceToNat, Nat.reduceLT, reduceIte, Bool.and_self, BEq.rfl, Bool.or_true, Bool.true_or, Bool.not_false, Bool.and_true]
theorem ffmaF32 (x : Lx) (d a b c : Reg) :
    Statement (.ffmaF32 x d a b c) := by
  intro hwf
  obtain ⟨hf, hx⟩ := wf_lane rfl rfl rfl hwf
  refine of_lane _ _ rfl (lane_words _ x _ _ _ _ _ _ _ _ hx (by decide) ?_)
  have hi := imm_zero x.present
  simp (decide := true) only [parseLane, parseFloat, lane, need, hi3, lo3, fnOf, ofPred, ofBar, hi, HAppend.hAppend, bit_low, bit_high, extract_low, extract_high, bit_getLsbD, extract_all, extract_join, extract_extract, Nat.reduceSub, Nat.reduceAdd,
    BitVec.reduceExtractLsb', BitVec.reduceGetLsb, BitVec.reduceToNat, Nat.reduceLT, reduceIte, Bool.and_self, BEq.rfl, Bool.or_true, Bool.true_or, Bool.not_false, Bool.and_true]
theorem ffmaF64 (x : Lx) (d a b c : Reg) :
    Statement (.ffmaF64 x d a b c) := by
  intro hwf
  obtain ⟨hf, hx⟩ := wf_lane rfl rfl rfl hwf
  refine of_lane _ _ rfl (lane_words _ x _ _ _ _ _ _ _ _ hx (by decide) ?_)
  have hi := imm_zero x.present
  simp (decide := true) only [parseLane, parseFloat, lane, need, hi3, lo3, fnOf, ofPred, ofBar, hi, HAppend.hAppend, bit_low, bit_high, extract_low, extract_high, bit_getLsbD, extract_all, extract_join, extract_extract, Nat.reduceSub, Nat.reduceAdd,
    BitVec.reduceExtractLsb', BitVec.reduceGetLsb, BitVec.reduceToNat, Nat.reduceLT, reduceIte, Bool.and_self, BEq.rfl, Bool.or_true, Bool.true_or, Bool.not_false, Bool.and_true]
theorem fmin (x : Lx) (ty : FTy) (d a b : Reg) :
    Statement (.fmin x ty d a b) := by
  intro hwf
  obtain ⟨hf, hx⟩ := wf_lane rfl rfl rfl hwf
  refine of_lane _ _ rfl (lane_words _ x _ _ _ _ _ _ _ _ hx (by decide) ?_)
  have hi := imm_zero x.present
  have hq := quiet hx
  simp (decide := true) only [parseLane, parseFloat, lane, need, hi3, lo3, fnOf, ofPred, ofBar, FTy_code, hi, hq, HAppend.hAppend, bit_low, bit_high, extract_low, extract_high, bit_getLsbD, extract_all, extract_join, extract_extract, Nat.reduceSub, Nat.reduceAdd,
    BitVec.reduceExtractLsb', BitVec.reduceGetLsb, BitVec.reduceToNat, Nat.reduceLT, reduceIte, Bool.and_self, BEq.rfl, Bool.or_true, Bool.true_or, Bool.not_false, Bool.and_true]
theorem fmax (x : Lx) (ty : FTy) (d a b : Reg) :
    Statement (.fmax x ty d a b) := by
  intro hwf
  obtain ⟨hf, hx⟩ := wf_lane rfl rfl rfl hwf
  refine of_lane _ _ rfl (lane_words _ x _ _ _ _ _ _ _ _ hx (by decide) ?_)
  have hi := imm_zero x.present
  have hq := quiet hx
  simp (decide := true) only [parseLane, parseFloat, lane, need, hi3, lo3, fnOf, ofPred, ofBar, FTy_code, hi, hq, HAppend.hAppend, bit_low, bit_high, extract_low, extract_high, bit_getLsbD, extract_all, extract_join, extract_extract, Nat.reduceSub, Nat.reduceAdd,
    BitVec.reduceExtractLsb', BitVec.reduceGetLsb, BitVec.reduceToNat, Nat.reduceLT, reduceIte, Bool.and_self, BEq.rfl, Bool.or_true, Bool.true_or, Bool.not_false, Bool.and_true]
theorem fminm (x : Lx) (ty : FTy) (d a b : Reg) :
    Statement (.fminm x ty d a b) := by
  intro hwf
  obtain ⟨hf, hx⟩ := wf_lane rfl rfl rfl hwf
  refine of_lane _ _ rfl (lane_words _ x _ _ _ _ _ _ _ _ hx (by decide) ?_)
  have hi := imm_zero x.present
  have hq := quiet hx
  simp (decide := true) only [parseLane, parseFloat, lane, need, hi3, lo3, fnOf, ofPred, ofBar, FTy_code, hi, hq, HAppend.hAppend, bit_low, bit_high, extract_low, extract_high, bit_getLsbD, extract_all, extract_join, extract_extract, Nat.reduceSub, Nat.reduceAdd,
    BitVec.reduceExtractLsb', BitVec.reduceGetLsb, BitVec.reduceToNat, Nat.reduceLT, reduceIte, Bool.and_self, BEq.rfl, Bool.or_true, Bool.true_or, Bool.not_false, Bool.and_true]
theorem fmaxm (x : Lx) (ty : FTy) (d a b : Reg) :
    Statement (.fmaxm x ty d a b) := by
  intro hwf
  obtain ⟨hf, hx⟩ := wf_lane rfl rfl rfl hwf
  refine of_lane _ _ rfl (lane_words _ x _ _ _ _ _ _ _ _ hx (by decide) ?_)
  have hi := imm_zero x.present
  have hq := quiet hx
  simp (decide := true) only [parseLane, parseFloat, lane, need, hi3, lo3, fnOf, ofPred, ofBar, FTy_code, hi, hq, HAppend.hAppend, bit_low, bit_high, extract_low, extract_high, bit_getLsbD, extract_all, extract_join, extract_extract, Nat.reduceSub, Nat.reduceAdd,
    BitVec.reduceExtractLsb', BitVec.reduceGetLsb, BitVec.reduceToNat, Nat.reduceLT, reduceIte, Bool.and_self, BEq.rfl, Bool.or_true, Bool.true_or, Bool.not_false, Bool.and_true]
theorem fabs (x : Lx) (ty : FTy) (d a : Reg) :
    Statement (.fabs x ty d a) := by
  intro hwf
  obtain ⟨hf, hx⟩ := wf_lane rfl rfl rfl hwf
  refine of_lane _ _ rfl (lane_words _ x _ _ _ _ _ _ _ _ hx (by decide) ?_)
  have hi := imm_zero x.present
  have hq := quiet hx
  simp (decide := true) only [parseLane, parseFloat, lane, need, hi3, lo3, fnOf, ofPred, ofBar, FTy_code, hi, hq, HAppend.hAppend, bit_low, bit_high, extract_low, extract_high, bit_getLsbD, extract_all, extract_join, extract_extract, Nat.reduceSub, Nat.reduceAdd,
    BitVec.reduceExtractLsb', BitVec.reduceGetLsb, BitVec.reduceToNat, Nat.reduceLT, reduceIte, Bool.and_self, BEq.rfl, Bool.or_true, Bool.true_or, Bool.not_false, Bool.and_true]
theorem fneg (x : Lx) (ty : FTy) (d a : Reg) :
    Statement (.fneg x ty d a) := by
  intro hwf
  obtain ⟨hf, hx⟩ := wf_lane rfl rfl rfl hwf
  refine of_lane _ _ rfl (lane_words _ x _ _ _ _ _ _ _ _ hx (by decide) ?_)
  have hi := imm_zero x.present
  have hq := quiet hx
  simp (decide := true) only [parseLane, parseFloat, lane, need, hi3, lo3, fnOf, ofPred, ofBar, FTy_code, hi, hq, HAppend.hAppend, bit_low, bit_high, extract_low, extract_high, bit_getLsbD, extract_all, extract_join, extract_extract, Nat.reduceSub, Nat.reduceAdd,
    BitVec.reduceExtractLsb', BitVec.reduceGetLsb, BitVec.reduceToNat, Nat.reduceLT, reduceIte, Bool.and_self, BEq.rfl, Bool.or_true, Bool.true_or, Bool.not_false, Bool.and_true]
theorem fcopysign (x : Lx) (ty : FTy) (d a b : Reg) :
    Statement (.fcopysign x ty d a b) := by
  intro hwf
  obtain ⟨hf, hx⟩ := wf_lane rfl rfl rfl hwf
  refine of_lane _ _ rfl (lane_words _ x _ _ _ _ _ _ _ _ hx (by decide) ?_)
  have hi := imm_zero x.present
  have hq := quiet hx
  simp (decide := true) only [parseLane, parseFloat, lane, need, hi3, lo3, fnOf, ofPred, ofBar, FTy_code, hi, hq, HAppend.hAppend, bit_low, bit_high, extract_low, extract_high, bit_getLsbD, extract_all, extract_join, extract_extract, Nat.reduceSub, Nat.reduceAdd,
    BitVec.reduceExtractLsb', BitVec.reduceGetLsb, BitVec.reduceToNat, Nat.reduceLT, reduceIte, Bool.and_self, BEq.rfl, Bool.or_true, Bool.true_or, Bool.not_false, Bool.and_true]
theorem fcmp (x : Lx) (c : Cond) (ty : FTy) (pd : Pred) (a b : Reg) :
    Statement (.fcmp x c ty pd a b) := by
  intro hwf
  obtain ⟨hf, hx⟩ := wf_lane rfl rfl rfl hwf
  refine of_lane _ _ rfl (lane_words _ x _ _ _ _ _ _ _ _ hx (by decide) ?_)
  have hi := imm_zero x.present
  have hq := quiet hx
  simp (decide := true) only [parseLane, parseFloat, lane, need, hi3, lo3, fnOf, ofPred, ofBar, Cond_code, FTy_code, hi, hq, HAppend.hAppend, bit_low, bit_high, extract_low, extract_high, bit_getLsbD, extract_all, extract_join, extract_extract, Nat.reduceSub, Nat.reduceAdd,
    BitVec.reduceExtractLsb', BitVec.reduceGetLsb, BitVec.reduceToNat, Nat.reduceLT, reduceIte, Bool.and_self, BEq.rfl, Bool.or_true, Bool.true_or, Bool.not_false, Bool.and_true]
theorem fclass (x : Lx) (ty : FTy) (d a : Reg) :
    Statement (.fclass x ty d a) := by
  intro hwf
  obtain ⟨hf, hx⟩ := wf_lane rfl rfl rfl hwf
  refine of_lane _ _ rfl (lane_words _ x _ _ _ _ _ _ _ _ hx (by decide) ?_)
  have hi := imm_zero x.present
  have hq := quiet hx
  simp (decide := true) only [parseLane, parseFloat, lane, need, hi3, lo3, fnOf, ofPred, ofBar, FTy_code, hi, hq, HAppend.hAppend, bit_low, bit_high, extract_low, extract_high, bit_getLsbD, extract_all, extract_join, extract_extract, Nat.reduceSub, Nat.reduceAdd,
    BitVec.reduceExtractLsb', BitVec.reduceGetLsb, BitVec.reduceToNat, Nat.reduceLT, reduceIte, Bool.and_self, BEq.rfl, Bool.or_true, Bool.true_or, Bool.not_false, Bool.and_true]
theorem fdiv (x : Lx) (ty : FTy) (d a b : Reg) :
    Statement (.fdiv x ty d a b) := by
  intro hwf
  obtain ⟨hf, hx⟩ := wf_lane rfl rfl rfl hwf
  refine of_lane _ _ rfl (lane_words _ x _ _ _ _ _ _ _ _ hx (by decide) ?_)
  have hi := imm_zero x.present
  simp (decide := true) only [parseLane, parseFloat, lane, need, hi3, lo3, fnOf, ofPred, ofBar, FTy_code, hi, HAppend.hAppend, bit_low, bit_high, extract_low, extract_high, bit_getLsbD, extract_all, extract_join, extract_extract, Nat.reduceSub, Nat.reduceAdd,
    BitVec.reduceExtractLsb', BitVec.reduceGetLsb, BitVec.reduceToNat, Nat.reduceLT, reduceIte, Bool.and_self, BEq.rfl, Bool.or_true, Bool.true_or, Bool.not_false, Bool.and_true]
theorem fsqrt (x : Lx) (ty : FTy) (d a : Reg) :
    Statement (.fsqrt x ty d a) := by
  intro hwf
  obtain ⟨hf, hx⟩ := wf_lane rfl rfl rfl hwf
  refine of_lane _ _ rfl (lane_words _ x _ _ _ _ _ _ _ _ hx (by decide) ?_)
  have hi := imm_zero x.present
  simp (decide := true) only [parseLane, parseFloat, lane, need, hi3, lo3, fnOf, ofPred, ofBar, FTy_code, hi, HAppend.hAppend, bit_low, bit_high, extract_low, extract_high, bit_getLsbD, extract_all, extract_join, extract_extract, Nat.reduceSub, Nat.reduceAdd,
    BitVec.reduceExtractLsb', BitVec.reduceGetLsb, BitVec.reduceToNat, Nat.reduceLT, reduceIte, Bool.and_self, BEq.rfl, Bool.or_true, Bool.true_or, Bool.not_false, Bool.and_true]
theorem frcp (x : Lx) (ty : FTy) (d a : Reg) :
    Statement (.frcp x ty d a) := by
  intro hwf
  obtain ⟨hf, hx⟩ := wf_lane rfl rfl rfl hwf
  refine of_lane _ _ rfl (lane_words _ x _ _ _ _ _ _ _ _ hx (by decide) ?_)
  have hi := imm_zero x.present
  simp (decide := true) only [parseLane, parseFloat, lane, need, hi3, lo3, fnOf, ofPred, ofBar, FTy_code, hi, HAppend.hAppend, bit_low, bit_high, extract_low, extract_high, bit_getLsbD, extract_all, extract_join, extract_extract, Nat.reduceSub, Nat.reduceAdd,
    BitVec.reduceExtractLsb', BitVec.reduceGetLsb, BitVec.reduceToNat, Nat.reduceLT, reduceIte, Bool.and_self, BEq.rfl, Bool.or_true, Bool.true_or, Bool.not_false, Bool.and_true]
theorem frsq (x : Lx) (ty : FTy) (d a : Reg) :
    Statement (.frsq x ty d a) := by
  intro hwf
  obtain ⟨hf, hx⟩ := wf_lane rfl rfl rfl hwf
  refine of_lane _ _ rfl (lane_words _ x _ _ _ _ _ _ _ _ hx (by decide) ?_)
  have hi := imm_zero x.present
  simp (decide := true) only [parseLane, parseFloat, lane, need, hi3, lo3, fnOf, ofPred, ofBar, FTy_code, hi, HAppend.hAppend, bit_low, bit_high, extract_low, extract_high, bit_getLsbD, extract_all, extract_join, extract_extract, Nat.reduceSub, Nat.reduceAdd,
    BitVec.reduceExtractLsb', BitVec.reduceGetLsb, BitVec.reduceToNat, Nat.reduceLT, reduceIte, Bool.and_self, BEq.rfl, Bool.or_true, Bool.true_or, Bool.not_false, Bool.and_true]
theorem fex2 (x : Lx) (ty : FTy) (d a : Reg) :
    Statement (.fex2 x ty d a) := by
  intro hwf
  obtain ⟨hf, hx⟩ := wf_lane rfl rfl rfl hwf
  have hf : (ty != .f64) = true := hf
  refine of_lane _ _ rfl (lane_words _ x _ _ _ _ _ _ _ _ hx (by decide) ?_)
  have hi := imm_zero x.present
  simp (decide := true) only [parseLane, parseFloat, lane, need, hi3, lo3, fnOf, ofPred, ofBar, FTy_code, hi, hf, HAppend.hAppend, bit_low, bit_high, extract_low, extract_high, bit_getLsbD, extract_all, extract_join, extract_extract, Nat.reduceSub, Nat.reduceAdd,
    BitVec.reduceExtractLsb', BitVec.reduceGetLsb, BitVec.reduceToNat, Nat.reduceLT, reduceIte, Bool.and_self, BEq.rfl, Bool.or_true, Bool.true_or, Bool.not_false, Bool.and_true]
theorem flg2 (x : Lx) (ty : FTy) (d a : Reg) :
    Statement (.flg2 x ty d a) := by
  intro hwf
  obtain ⟨hf, hx⟩ := wf_lane rfl rfl rfl hwf
  have hf : (ty != .f64) = true := hf
  refine of_lane _ _ rfl (lane_words _ x _ _ _ _ _ _ _ _ hx (by decide) ?_)
  have hi := imm_zero x.present
  simp (decide := true) only [parseLane, parseFloat, lane, need, hi3, lo3, fnOf, ofPred, ofBar, FTy_code, hi, hf, HAppend.hAppend, bit_low, bit_high, extract_low, extract_high, bit_getLsbD, extract_all, extract_join, extract_extract, Nat.reduceSub, Nat.reduceAdd,
    BitVec.reduceExtractLsb', BitVec.reduceGetLsb, BitVec.reduceToNat, Nat.reduceLT, reduceIte, Bool.and_self, BEq.rfl, Bool.or_true, Bool.true_or, Bool.not_false, Bool.and_true]
theorem fsin (x : Lx) (ty : FTy) (d a : Reg) :
    Statement (.fsin x ty d a) := by
  intro hwf
  obtain ⟨hf, hx⟩ := wf_lane rfl rfl rfl hwf
  have hf : (ty != .f64) = true := hf
  refine of_lane _ _ rfl (lane_words _ x _ _ _ _ _ _ _ _ hx (by decide) ?_)
  have hi := imm_zero x.present
  simp (decide := true) only [parseLane, parseFloat, lane, need, hi3, lo3, fnOf, ofPred, ofBar, FTy_code, hi, hf, HAppend.hAppend, bit_low, bit_high, extract_low, extract_high, bit_getLsbD, extract_all, extract_join, extract_extract, Nat.reduceSub, Nat.reduceAdd,
    BitVec.reduceExtractLsb', BitVec.reduceGetLsb, BitVec.reduceToNat, Nat.reduceLT, reduceIte, Bool.and_self, BEq.rfl, Bool.or_true, Bool.true_or, Bool.not_false, Bool.and_true]
theorem fcos (x : Lx) (ty : FTy) (d a : Reg) :
    Statement (.fcos x ty d a) := by
  intro hwf
  obtain ⟨hf, hx⟩ := wf_lane rfl rfl rfl hwf
  have hf : (ty != .f64) = true := hf
  refine of_lane _ _ rfl (lane_words _ x _ _ _ _ _ _ _ _ hx (by decide) ?_)
  have hi := imm_zero x.present
  simp (decide := true) only [parseLane, parseFloat, lane, need, hi3, lo3, fnOf, ofPred, ofBar, FTy_code, hi, hf, HAppend.hAppend, bit_low, bit_high, extract_low, extract_high, bit_getLsbD, extract_all, extract_join, extract_extract, Nat.reduceSub, Nat.reduceAdd,
    BitVec.reduceExtractLsb', BitVec.reduceGetLsb, BitVec.reduceToNat, Nat.reduceLT, reduceIte, Bool.and_self, BEq.rfl, Bool.or_true, Bool.true_or, Bool.not_false, Bool.and_true]
theorem ftanh (x : Lx) (ty : FTy) (d a : Reg) :
    Statement (.ftanh x ty d a) := by
  intro hwf
  obtain ⟨hf, hx⟩ := wf_lane rfl rfl rfl hwf
  have hf : (ty != .f64) = true := hf
  refine of_lane _ _ rfl (lane_words _ x _ _ _ _ _ _ _ _ hx (by decide) ?_)
  have hi := imm_zero x.present
  simp (decide := true) only [parseLane, parseFloat, lane, need, hi3, lo3, fnOf, ofPred, ofBar, FTy_code, hi, hf, HAppend.hAppend, bit_low, bit_high, extract_low, extract_high, bit_getLsbD, extract_all, extract_join, extract_extract, Nat.reduceSub, Nat.reduceAdd,
    BitVec.reduceExtractLsb', BitVec.reduceGetLsb, BitVec.reduceToNat, Nat.reduceLT, reduceIte, Bool.and_self, BEq.rfl, Bool.or_true, Bool.true_or, Bool.not_false, Bool.and_true]
theorem frint (x : Lx) (ra exact : Bool) (ty : FTy) (d a : Reg) :
    Statement (.frint x ra exact ty d a) := by
  intro hwf
  obtain ⟨hf, hx⟩ := wf_lane rfl rfl rfl hwf
  refine of_lane _ _ rfl (lane_words _ x _ _ _ _ _ _ _ _ hx (by decide) ?_)
  have hi := imm_zero x.present
  simp (decide := true) only [parseLane, parseFloat, lane, need, hi3, lo3, fnOf, ofPred, ofBar, FTy_code, hi, HAppend.hAppend, bit_low, bit_high, extract_low, extract_high, bit_getLsbD, extract_all, extract_join, extract_extract, Nat.reduceSub, Nat.reduceAdd,
    BitVec.reduceExtractLsb', BitVec.reduceGetLsb, BitVec.reduceToNat, Nat.reduceLT, reduceIte, Bool.and_self, BEq.rfl, Bool.or_true, Bool.true_or, Bool.not_false, Bool.and_true]
theorem fcvt (x : Lx) (ra : Bool) (dst src : CvtFmt) (d a : Reg) :
    Statement (.fcvt x ra dst src d a) := by
  intro hwf
  obtain ⟨hf, hx⟩ := wf_lane rfl rfl rfl hwf
  have hf : (x.present || !ra) = true := hf
  refine of_lane _ _ rfl (lane_words _ x _ _ _ _ _ _ _ _ hx (by decide) ?_)
  have hi : (if x.present then some (imm2 false ra) else none).getD 0 = (imm2 false ra) :=
    imm_get _ _ _ (by cases hp : x.present <;> simp [hp] at hf ⊢ <;> simp [hf, imm2, mmImm, bit] <;> rfl)
  generalize (if x.present then some (imm2 false ra) else none) = im at hi ⊢
  simp (decide := true) only [parseLane, parseFloat, lane, need, hi3, lo3, fnOf, ofPred, ofBar, CvtFmt_code, withCode, imm2, hi, hf, HAppend.hAppend, bit_low, bit_high, extract_low, extract_high, bit_getLsbD, extract_all, extract_join, extract_extract, Nat.reduceSub, Nat.reduceAdd,
    BitVec.reduceExtractLsb', BitVec.reduceGetLsb, BitVec.reduceToNat, Nat.reduceLT, reduceIte, Bool.and_self, BEq.rfl, Bool.or_true, Bool.true_or, Bool.not_false, Bool.and_true]
theorem f2i (x : Lx) (ra w s : Bool) (ty : FTy) (d a : Reg) :
    Statement (.f2i x ra w s ty d a) := by
  intro hwf
  obtain ⟨hf, hx⟩ := wf_lane rfl rfl rfl hwf
  have hf : (x.present || (!ra && !w)) = true := hf
  refine of_lane _ _ rfl (lane_words _ x _ _ _ _ _ _ _ _ hx (by decide) ?_)
  have hi : (if x.present then some (imm2 ra w) else none).getD 0 = (imm2 ra w) :=
    imm_get _ _ _ (by cases hp : x.present <;> simp [hp] at hf ⊢ <;> simp [hf, imm2, mmImm, bit] <;> rfl)
  generalize (if x.present then some (imm2 ra w) else none) = im at hi ⊢
  simp (decide := true) only [parseLane, parseFloat, lane, need, hi3, lo3, fnOf, ofPred, ofBar, FTy_code, imm2, hi, hf, HAppend.hAppend, bit_low, bit_high, extract_low, extract_high, bit_getLsbD, extract_all, extract_join, extract_extract, Nat.reduceSub, Nat.reduceAdd,
    BitVec.reduceExtractLsb', BitVec.reduceGetLsb, BitVec.reduceToNat, Nat.reduceLT, reduceIte, Bool.and_self, BEq.rfl, Bool.or_true, Bool.true_or, Bool.not_false, Bool.and_true]
theorem i2f (x : Lx) (w s : Bool) (ty : FTy) (d a : Reg) :
    Statement (.i2f x w s ty d a) := by
  intro hwf
  obtain ⟨hf, hx⟩ := wf_lane rfl rfl rfl hwf
  have hf : (x.present || !w) = true := hf
  refine of_lane _ _ rfl (lane_words _ x _ _ _ _ _ _ _ _ hx (by decide) ?_)
  have hi : (if x.present then some (imm2 false w) else none).getD 0 = (imm2 false w) :=
    imm_get _ _ _ (by cases hp : x.present <;> simp [hp] at hf ⊢ <;> simp [hf, imm2, mmImm, bit] <;> rfl)
  generalize (if x.present then some (imm2 false w) else none) = im at hi ⊢
  simp (decide := true) only [parseLane, parseFloat, lane, need, hi3, lo3, fnOf, ofPred, ofBar, FTy_code, imm2, hi, hf, HAppend.hAppend, bit_low, bit_high, extract_low, extract_high, bit_getLsbD, extract_all, extract_join, extract_extract, Nat.reduceSub, Nat.reduceAdd,
    BitVec.reduceExtractLsb', BitVec.reduceGetLsb, BitVec.reduceToNat, Nat.reduceLT, reduceIte, Bool.and_self, BEq.rfl, Bool.or_true, Bool.true_or, Bool.not_false, Bool.and_true]
theorem fldexp (x : Lx) (ty : FTy) (d a b : Reg) :
    Statement (.fldexp x ty d a b) := by
  intro hwf
  obtain ⟨hf, hx⟩ := wf_lane rfl rfl rfl hwf
  refine of_lane _ _ rfl (lane_words _ x _ _ _ _ _ _ _ _ hx (by decide) ?_)
  have hi := imm_zero x.present
  simp (decide := true) only [parseLane, parseFloat, lane, need, hi3, lo3, fnOf, ofPred, ofBar, FTy_code, hi, HAppend.hAppend, bit_low, bit_high, extract_low, extract_high, bit_getLsbD, extract_all, extract_join, extract_extract, Nat.reduceSub, Nat.reduceAdd,
    BitVec.reduceExtractLsb', BitVec.reduceGetLsb, BitVec.reduceToNat, Nat.reduceLT, reduceIte, Bool.and_self, BEq.rfl, Bool.or_true, Bool.true_or, Bool.not_false, Bool.and_true]
theorem ffrexp (x : Lx) (ty : FTy) (d a : Reg) :
    Statement (.ffrexp x ty d a) := by
  intro hwf
  obtain ⟨hf, hx⟩ := wf_lane rfl rfl rfl hwf
  refine of_lane _ _ rfl (lane_words _ x _ _ _ _ _ _ _ _ hx (by decide) ?_)
  have hi := imm_zero x.present
  have hq := quiet hx
  simp (decide := true) only [parseLane, parseFloat, lane, need, hi3, lo3, fnOf, ofPred, ofBar, FTy_code, hi, hq, HAppend.hAppend, bit_low, bit_high, extract_low, extract_high, bit_getLsbD, extract_all, extract_join, extract_extract, Nat.reduceSub, Nat.reduceAdd,
    BitVec.reduceExtractLsb', BitVec.reduceGetLsb, BitVec.reduceToNat, Nat.reduceLT, reduceIte, Bool.and_self, BEq.rfl, Bool.or_true, Bool.true_or, Bool.not_false, Bool.and_true]
theorem digits (x : Lx) (ty : FTy) (d a : Reg) :
    Statement (.digits x ty d a) := by
  intro hwf
  obtain ⟨hf, hx⟩ := wf_lane rfl rfl rfl hwf
  refine of_lane _ _ rfl (lane_words _ x _ _ _ _ _ _ _ _ hx (by decide) ?_)
  have hi := imm_zero x.present
  have hq := quiet hx
  simp (decide := true) only [parseLane, parseFloat, lane, need, hi3, lo3, fnOf, ofPred, ofBar, FTy_code, hi, hq, HAppend.hAppend, bit_low, bit_high, extract_low, extract_high, bit_getLsbD, extract_all, extract_join, extract_extract, Nat.reduceSub, Nat.reduceAdd,
    BitVec.reduceExtractLsb', BitVec.reduceGetLsb, BitVec.reduceToNat, Nat.reduceLT, reduceIte, Bool.and_self, BEq.rfl, Bool.or_true, Bool.true_or, Bool.not_false, Bool.and_true]
theorem agree (x : Lx) (ty : FTy) (d a : Reg) :
    Statement (.agree x ty d a) := by
  intro hwf
  obtain ⟨hf, hx⟩ := wf_lane rfl rfl rfl hwf
  refine of_lane _ _ rfl (lane_words _ x _ _ _ _ _ _ _ _ hx (by decide) ?_)
  have hi := imm_zero x.present
  have hq := quiet hx
  simp (decide := true) only [parseLane, parseFloat, lane, need, hi3, lo3, fnOf, ofPred, ofBar, FTy_code, hi, hq, HAppend.hAppend, bit_low, bit_high, extract_low, extract_high, bit_getLsbD, extract_all, extract_join, extract_extract, Nat.reduceSub, Nat.reduceAdd,
    BitVec.reduceExtractLsb', BitVec.reduceGetLsb, BitVec.reduceToNat, Nat.reduceLT, reduceIte, Bool.and_self, BEq.rfl, Bool.or_true, Bool.true_or, Bool.not_false, Bool.and_true]
theorem sibget (x : Lx) (w : Bool) (k : BitVec 2) (d a : Reg) :
    Statement (.sibget x w k d a) := by
  intro hwf
  obtain ⟨hf, hx⟩ := wf_lane rfl rfl rfl hwf
  have hf : (k != 3) = true := hf
  refine of_lane _ _ rfl (lane_words _ x _ _ _ _ _ _ _ _ hx (by decide) ?_)
  have hi := imm_zero x.present
  have hq := quiet hx
  simp (decide := true) only [parseLane, parseFloat, lane, need, hi3, lo3, fnOf, ofPred, ofBar, hi, hq, hf, HAppend.hAppend, bit_low, bit_high, extract_low, extract_high, bit_getLsbD, extract_all, extract_join, extract_extract, Nat.reduceSub, Nat.reduceAdd,
    BitVec.reduceExtractLsb', BitVec.reduceGetLsb, BitVec.reduceToNat, Nat.reduceLT, reduceIte, Bool.and_self, BEq.rfl, Bool.or_true, Bool.true_or, Bool.not_false, Bool.and_true]
theorem sibput (x : Lx) (w : Bool) (k : BitVec 2) (d a : Reg) :
    Statement (.sibput x w k d a) := by
  intro hwf
  obtain ⟨hf, hx⟩ := wf_lane rfl rfl rfl hwf
  have hf : (k != 3) = true := hf
  refine of_lane _ _ rfl (lane_words _ x _ _ _ _ _ _ _ _ hx (by decide) ?_)
  have hi := imm_zero x.present
  have hq := quiet hx
  simp (decide := true) only [parseLane, parseFloat, lane, need, hi3, lo3, fnOf, ofPred, ofBar, hi, hq, hf, HAppend.hAppend, bit_low, bit_high, extract_low, extract_high, bit_getLsbD, extract_all, extract_join, extract_extract, Nat.reduceSub, Nat.reduceAdd,
    BitVec.reduceExtractLsb', BitVec.reduceGetLsb, BitVec.reduceToNat, Nat.reduceLT, reduceIte, Bool.and_self, BEq.rfl, Bool.or_true, Bool.true_or, Bool.not_false, Bool.and_true]
theorem sibrot (x : Lx) (w : Bool) (r : BitVec 2) (d a : Reg) :
    Statement (.sibrot x w r d a) := by
  intro hwf
  obtain ⟨hf, hx⟩ := wf_lane rfl rfl rfl hwf
  have hf : (r != 3) = true := hf
  refine of_lane _ _ rfl (lane_words _ x _ _ _ _ _ _ _ _ hx (by decide) ?_)
  have hi := imm_zero x.present
  have hq := quiet hx
  simp (decide := true) only [parseLane, parseFloat, lane, need, hi3, lo3, fnOf, ofPred, ofBar, hi, hq, hf, HAppend.hAppend, bit_low, bit_high, extract_low, extract_high, bit_getLsbD, extract_all, extract_join, extract_extract, Nat.reduceSub, Nat.reduceAdd,
    BitVec.reduceExtractLsb', BitVec.reduceGetLsb, BitVec.reduceToNat, Nat.reduceLT, reduceIte, Bool.and_self, BEq.rfl, Bool.or_true, Bool.true_or, Bool.not_false, Bool.and_true]
theorem sibmean (x : Lx) (ty : FTy) (d a : Reg) :
    Statement (.sibmean x ty d a) := by
  intro hwf
  obtain ⟨hf, hx⟩ := wf_lane rfl rfl rfl hwf
  refine of_lane _ _ rfl (lane_words _ x _ _ _ _ _ _ _ _ hx (by decide) ?_)
  have hi := imm_zero x.present
  have hq := quiet hx
  simp (decide := true) only [parseLane, parseFloat, lane, need, hi3, lo3, fnOf, ofPred, ofBar, FTy_code, hi, hq, HAppend.hAppend, bit_low, bit_high, extract_low, extract_high, bit_getLsbD, extract_all, extract_join, extract_extract, Nat.reduceSub, Nat.reduceAdd,
    BitVec.reduceExtractLsb', BitVec.reduceGetLsb, BitVec.reduceToNat, Nat.reduceLT, reduceIte, Bool.and_self, BEq.rfl, Bool.or_true, Bool.true_or, Bool.not_false, Bool.and_true]
theorem sibmaj (x : Lx) (w : Bool) (d a : Reg) :
    Statement (.sibmaj x w d a) := by
  intro hwf
  obtain ⟨hf, hx⟩ := wf_lane rfl rfl rfl hwf
  refine of_lane _ _ rfl (lane_words _ x _ _ _ _ _ _ _ _ hx (by decide) ?_)
  have hi := imm_zero x.present
  have hq := quiet hx
  simp (decide := true) only [parseLane, parseFloat, lane, need, hi3, lo3, fnOf, ofPred, ofBar, hi, hq, HAppend.hAppend, bit_low, bit_high, extract_low, extract_high, bit_getLsbD, extract_all, extract_join, extract_extract, Nat.reduceSub, Nat.reduceAdd,
    BitVec.reduceExtractLsb', BitVec.reduceGetLsb, BitVec.reduceToNat, Nat.reduceLT, reduceIte, Bool.and_self, BEq.rfl, Bool.or_true, Bool.true_or, Bool.not_false, Bool.and_true]
theorem rdraw (x : Lx) (d b : Reg) :
    Statement (.rdraw x d b) := by
  intro hwf
  obtain ⟨hf, hx⟩ := wf_lane rfl rfl rfl hwf
  refine of_lane _ _ rfl (lane_words _ x _ _ _ _ _ _ _ _ hx (by decide) ?_)
  have hi := imm_zero x.present
  simp (decide := true) only [parseLane, parseFloat, lane, need, hi3, lo3, fnOf, ofPred, ofBar, hi, HAppend.hAppend, bit_low, bit_high, extract_low, extract_high, bit_getLsbD, extract_all, extract_join, extract_extract, Nat.reduceSub, Nat.reduceAdd,
    BitVec.reduceExtractLsb', BitVec.reduceGetLsb, BitVec.reduceToNat, Nat.reduceLT, reduceIte, Bool.and_self, BEq.rfl, Bool.or_true, Bool.true_or, Bool.not_false, Bool.and_true]
theorem fdp16 (x : Lx) (sc : Option Reg) (ta tb : Bool) (d a b : Reg) :
    Statement (.fdp16 x sc ta tb d a b) := by
  intro hwf
  obtain ⟨hf, hx⟩ := wf_lane rfl rfl rfl hwf
  have hf : (x.present || sc == none) = true := hf
  refine of_lane _ _ rfl (lane_words _ x _ _ _ _ _ _ _ _ hx (by decide) ?_)
  have hi : (if x.present then some (0#8 ++ sc.getD 0 ++ bit sc.isSome) else none).getD 0 = (0#8 ++ sc.getD 0 ++ bit sc.isSome) :=
    imm_get _ _ _ (by cases hp : x.present <;> simp [hp] at hf ⊢ <;> simp [hf, imm2, mmImm, bit] <;> rfl)
  generalize (if x.present then some (0#8 ++ sc.getD 0 ++ bit sc.isSome) else none) = im at hi ⊢
  simp (decide := true) only [parseLane, parsePacked, lane, need, hi3, lo3, fnOf, ofPred, ofBar, some_getD, some_or_zero, hi, hf, HAppend.hAppend, bit_low, bit_high, extract_low, extract_high, bit_getLsbD, extract_all, extract_join, extract_extract, Nat.reduceSub, Nat.reduceAdd,
    BitVec.reduceExtractLsb', BitVec.reduceGetLsb, BitVec.reduceToNat, Nat.reduceLT, reduceIte, Bool.and_self, BEq.rfl, Bool.or_true, Bool.true_or, Bool.not_false, Bool.and_true]
theorem fdp8 (x : Lx) (bf : Bool) (d a b : Reg) :
    Statement (.fdp8 x bf d a b) := by
  intro hwf
  obtain ⟨hf, hx⟩ := wf_lane rfl rfl rfl hwf
  refine of_lane _ _ rfl (lane_words _ x _ _ _ _ _ _ _ _ hx (by decide) ?_)
  have hi := imm_zero x.present
  simp (decide := true) only [parseLane, parsePacked, lane, need, hi3, lo3, fnOf, ofPred, ofBar, hi, HAppend.hAppend, bit_low, bit_high, extract_low, extract_high, bit_getLsbD, extract_all, extract_join, extract_extract, Nat.reduceSub, Nat.reduceAdd,
    BitVec.reduceExtractLsb', BitVec.reduceGetLsb, BitVec.reduceToNat, Nat.reduceLT, reduceIte, Bool.and_self, BEq.rfl, Bool.or_true, Bool.true_or, Bool.not_false, Bool.and_true]
theorem fdpsc (x : Lx) (mx : Bool) (nb : BitVec 2) (e d a b : Reg) :
    Statement (.fdpsc x mx nb e d a b) := by
  intro hwf
  obtain ⟨hf, hx⟩ := wf_lane rfl rfl rfl hwf
  have hf : ((x.present || e == 0) && (!mx || nb == 3)) = true := hf
  simp only [Bool.and_eq_true] at hf
  refine of_lane _ _ rfl (lane_words _ x _ _ _ _ _ _ _ _ hx (by decide) ?_)
  have hi : (if x.present then some (0#9 ++ e) else none).getD 0 = (0#9 ++ e) :=
    imm_get _ _ _ (by cases hp : x.present <;> simp [hp] at hf ⊢ <;> simp [hf, imm2, mmImm, bit] <;> rfl)
  generalize (if x.present then some (0#9 ++ e) else none) = im at hi ⊢
  simp (decide := true) only [parseLane, parsePacked, lane, need, hi3, lo3, fnOf, ofPred, ofBar, both_eq, hi, hf, HAppend.hAppend, bit_low, bit_high, extract_low, extract_high, bit_getLsbD, extract_all, extract_join, extract_extract, Nat.reduceSub, Nat.reduceAdd,
    BitVec.reduceExtractLsb', BitVec.reduceGetLsb, BitVec.reduceToNat, Nat.reduceLT, reduceIte, Bool.and_self, BEq.rfl, Bool.or_true, Bool.true_or, Bool.not_false, Bool.and_true]
theorem idp4 (x : Lx) (sat sa sb : Bool) (d a b : Reg) :
    Statement (.idp4 x sat sa sb d a b) := by
  intro hwf
  obtain ⟨hf, hx⟩ := wf_lane rfl rfl rfl hwf
  refine of_lane _ _ rfl (lane_words _ x _ _ _ _ _ _ _ _ hx (by decide) ?_)
  have hi := imm_zero x.present
  have hq := quiet hx
  simp (decide := true) only [parseLane, parsePacked, lane, need, hi3, lo3, fnOf, ofPred, ofBar, hi, hq, HAppend.hAppend, bit_low, bit_high, extract_low, extract_high, bit_getLsbD, extract_all, extract_join, extract_extract, Nat.reduceSub, Nat.reduceAdd,
    BitVec.reduceExtractLsb', BitVec.reduceGetLsb, BitVec.reduceToNat, Nat.reduceLT, reduceIte, Bool.and_self, BEq.rfl, Bool.or_true, Bool.true_or, Bool.not_false, Bool.and_true]
theorem idp8 (x : Lx) (sat sa sb : Bool) (d a b : Reg) :
    Statement (.idp8 x sat sa sb d a b) := by
  intro hwf
  obtain ⟨hf, hx⟩ := wf_lane rfl rfl rfl hwf
  refine of_lane _ _ rfl (lane_words _ x _ _ _ _ _ _ _ _ hx (by decide) ?_)
  have hi := imm_zero x.present
  have hq := quiet hx
  simp (decide := true) only [parseLane, parsePacked, lane, need, hi3, lo3, fnOf, ofPred, ofBar, hi, hq, HAppend.hAppend, bit_low, bit_high, extract_low, extract_high, bit_getLsbD, extract_all, extract_join, extract_extract, Nat.reduceSub, Nat.reduceAdd,
    BitVec.reduceExtractLsb', BitVec.reduceGetLsb, BitVec.reduceToNat, Nat.reduceLT, reduceIte, Bool.and_self, BEq.rfl, Bool.or_true, Bool.true_or, Bool.not_false, Bool.and_true]
theorem cvtpk (x : Lx) (ra : Bool) (dst : CvtFmt) (d a : Reg) (sc : Option Reg) :
    Statement (.cvtpk x ra dst d a sc) := by
  intro hwf
  obtain ⟨hf, hx⟩ := wf_lane rfl rfl rfl hwf
  have hf : (dst != .f32 && dst != .f64 && (x.present || (!ra && sc == none))) = true := hf
  simp only [Bool.and_eq_true] at hf
  refine of_lane _ _ rfl (lane_words _ x _ _ _ _ _ _ _ _ hx (by decide) ?_)
  have hi : (if x.present then some (imm2 ra sc.isSome) else none).getD 0 = (imm2 ra sc.isSome) :=
    imm_get _ _ _ (by cases hp : x.present <;> simp [hp] at hf ⊢ <;> simp [hf, imm2, mmImm, bit] <;> rfl)
  generalize (if x.present then some (imm2 ra sc.isSome) else none) = im at hi ⊢
  simp (decide := true) only [parseLane, parsePacked, lane, need, hi3, lo3, fnOf, ofPred, ofBar, CvtFmt_code, withCode, imm2, some_getD, some_or_zero, hi, hf, HAppend.hAppend, bit_low, bit_high, extract_low, extract_high, bit_getLsbD, extract_all, extract_join, extract_extract, Nat.reduceSub, Nat.reduceAdd,
    BitVec.reduceExtractLsb', BitVec.reduceGetLsb, BitVec.reduceToNat, Nat.reduceLT, reduceIte, Bool.and_self, BEq.rfl, Bool.or_true, Bool.true_or, Bool.not_false, Bool.and_true]
theorem cvtupk (x : Lx) (src : CvtFmt) (d a : Reg) :
    Statement (.cvtupk x src d a) := by
  intro hwf
  obtain ⟨hf, hx⟩ := wf_lane rfl rfl rfl hwf
  have hf : (src != .f32 && src != .f64) = true := hf
  refine of_lane _ _ rfl (lane_words _ x _ _ _ _ _ _ _ _ hx (by decide) ?_)
  have hi := imm_zero x.present
  have hq := quiet hx
  simp (decide := true) only [parseLane, parsePacked, lane, need, hi3, lo3, fnOf, ofPred, ofBar, CvtFmt_code, withCode, hi, hq, hf, HAppend.hAppend, bit_low, bit_high, extract_low, extract_high, bit_getLsbD, extract_all, extract_join, extract_extract, Nat.reduceSub, Nat.reduceAdd,
    BitVec.reduceExtractLsb', BitVec.reduceGetLsb, BitVec.reduceToNat, Nat.reduceLT, reduceIte, Bool.and_self, BEq.rfl, Bool.or_true, Bool.true_or, Bool.not_false, Bool.and_true]
theorem scdec (x : Lx) (c : ScdecCode) (d a : Reg) :
    Statement (.scdec x c d a) := by
  intro hwf
  obtain ⟨hf, hx⟩ := wf_lane rfl rfl rfl hwf
  refine of_lane _ _ rfl (lane_words _ x _ _ _ _ _ _ _ _ hx (by decide) ?_)
  have hi := imm_zero x.present
  have hq := quiet hx
  simp (decide := true) only [parseLane, parsePacked, lane, need, hi3, lo3, fnOf, ofPred, ofBar, ScdecCode_code, withCode, hi, hq, HAppend.hAppend, bit_low, bit_high, extract_low, extract_high, bit_getLsbD, extract_all, extract_join, extract_extract, Nat.reduceSub, Nat.reduceAdd,
    BitVec.reduceExtractLsb', BitVec.reduceGetLsb, BitVec.reduceToNat, Nat.reduceLT, reduceIte, Bool.and_self, BEq.rfl, Bool.or_true, Bool.true_or, Bool.not_false, Bool.and_true]
theorem sparsify (x : Lx) (ty : SparseTy) (d a : Reg) :
    Statement (.sparsify x ty d a) := by
  intro hwf
  obtain ⟨hf, hx⟩ := wf_lane rfl rfl rfl hwf
  refine of_lane _ _ rfl (lane_words _ x _ _ _ _ _ _ _ _ hx (by decide) ?_)
  have hi := imm_zero x.present
  have hq := quiet hx
  simp (decide := true) only [parseLane, parsePacked, lane, need, hi3, lo3, fnOf, ofPred, ofBar, SparseTy_code, withCode, hi, hq, HAppend.hAppend, bit_low, bit_high, extract_low, extract_high, bit_getLsbD, extract_all, extract_join, extract_extract, Nat.reduceSub, Nat.reduceAdd,
    BitVec.reduceExtractLsb', BitVec.reduceGetLsb, BitVec.reduceToNat, Nat.reduceLT, reduceIte, Bool.and_self, BEq.rfl, Bool.or_true, Bool.true_or, Bool.not_false, Bool.and_true]
theorem xclr (x : Lx) (k : BitVec 3) :
    Statement (.xclr x k) := by
  intro hwf
  obtain ⟨hf, hx⟩ := wf_lane rfl rfl rfl hwf
  refine of_lane _ _ rfl (lane_words _ x _ _ _ _ _ _ _ _ hx (by decide) ?_)
  have hi := imm_zero x.present
  have hq := quiet hx
  simp (decide := true) only [parseLane, parsePacked, lane, need, hi3, lo3, fnOf, ofPred, ofBar, hi, hq, HAppend.hAppend, bit_low, bit_high, extract_low, extract_high, bit_getLsbD, extract_all, extract_join, extract_extract, Nat.reduceSub, Nat.reduceAdd,
    BitVec.reduceExtractLsb', BitVec.reduceGetLsb, BitVec.reduceToNat, Nat.reduceLT, reduceIte, Bool.and_self, BEq.rfl, Bool.or_true, Bool.true_or, Bool.not_false, Bool.and_true]
theorem xadd (x : Lx) (k : BitVec 3) (a : Reg) :
    Statement (.xadd x k a) := by
  intro hwf
  obtain ⟨hf, hx⟩ := wf_lane rfl rfl rfl hwf
  refine of_lane _ _ rfl (lane_words _ x _ _ _ _ _ _ _ _ hx (by decide) ?_)
  have hi := imm_zero x.present
  have hq := quiet hx
  simp (decide := true) only [parseLane, parsePacked, lane, need, hi3, lo3, fnOf, ofPred, ofBar, hi, hq, HAppend.hAppend, bit_low, bit_high, extract_low, extract_high, bit_getLsbD, extract_all, extract_join, extract_extract, Nat.reduceSub, Nat.reduceAdd,
    BitVec.reduceExtractLsb', BitVec.reduceGetLsb, BitVec.reduceToNat, Nat.reduceLT, reduceIte, Bool.and_self, BEq.rfl, Bool.or_true, Bool.true_or, Bool.not_false, Bool.and_true]
theorem xfma (x : Lx) (k : BitVec 3) (a b : Reg) :
    Statement (.xfma x k a b) := by
  intro hwf
  obtain ⟨hf, hx⟩ := wf_lane rfl rfl rfl hwf
  refine of_lane _ _ rfl (lane_words _ x _ _ _ _ _ _ _ _ hx (by decide) ?_)
  have hi := imm_zero x.present
  have hq := quiet hx
  simp (decide := true) only [parseLane, parsePacked, lane, need, hi3, lo3, fnOf, ofPred, ofBar, hi, hq, HAppend.hAppend, bit_low, bit_high, extract_low, extract_high, bit_getLsbD, extract_all, extract_join, extract_extract, Nat.reduceSub, Nat.reduceAdd,
    BitVec.reduceExtractLsb', BitVec.reduceGetLsb, BitVec.reduceToNat, Nat.reduceLT, reduceIte, Bool.and_self, BEq.rfl, Bool.or_true, Bool.true_or, Bool.not_false, Bool.and_true]
theorem xget (x : Lx) (k : BitVec 3) (d : Reg) :
    Statement (.xget x k d) := by
  intro hwf
  obtain ⟨hf, hx⟩ := wf_lane rfl rfl rfl hwf
  refine of_lane _ _ rfl (lane_words _ x _ _ _ _ _ _ _ _ hx (by decide) ?_)
  have hi := imm_zero x.present
  simp (decide := true) only [parseLane, parsePacked, lane, need, hi3, lo3, fnOf, ofPred, ofBar, hi, HAppend.hAppend, bit_low, bit_high, extract_low, extract_high, bit_getLsbD, extract_all, extract_join, extract_extract, Nat.reduceSub, Nat.reduceAdd,
    BitVec.reduceExtractLsb', BitVec.reduceGetLsb, BitVec.reduceToNat, Nat.reduceLT, reduceIte, Bool.and_self, BEq.rfl, Bool.or_true, Bool.true_or, Bool.not_false, Bool.and_true]
theorem xmerge (x : Lx) (k : BitVec 3) (seg : Seg) (a : Reg) :
    Statement (.xmerge x k seg a) := by
  intro hwf
  obtain ⟨hf, hx⟩ := wf_lane rfl rfl rfl hwf
  refine of_lane _ _ rfl (lane_words _ x _ _ _ _ _ _ _ _ hx (by decide) ?_)
  have hi := imm_zero x.present
  have hq := quiet hx
  simp (decide := true) only [parseLane, parsePacked, lane, need, hi3, lo3, fnOf, ofPred, ofBar, Seg_code, hi, hq, HAppend.hAppend, bit_low, bit_high, extract_low, extract_high, bit_getLsbD, extract_all, extract_join, extract_extract, Nat.reduceSub, Nat.reduceAdd,
    BitVec.reduceExtractLsb', BitVec.reduceGetLsb, BitVec.reduceToNat, Nat.reduceLT, reduceIte, Bool.and_self, BEq.rfl, Bool.or_true, Bool.true_or, Bool.not_false, Bool.and_true]
theorem xsave (x : Lx) (k : BitVec 3) (seg : Seg) (a : Reg) :
    Statement (.xsave x k seg a) := by
  intro hwf
  obtain ⟨hf, hx⟩ := wf_lane rfl rfl rfl hwf
  refine of_lane _ _ rfl (lane_words _ x _ _ _ _ _ _ _ _ hx (by decide) ?_)
  have hi := imm_zero x.present
  have hq := quiet hx
  simp (decide := true) only [parseLane, parsePacked, lane, need, hi3, lo3, fnOf, ofPred, ofBar, Seg_code, hi, hq, HAppend.hAppend, bit_low, bit_high, extract_low, extract_high, bit_getLsbD, extract_all, extract_join, extract_extract, Nat.reduceSub, Nat.reduceAdd,
    BitVec.reduceExtractLsb', BitVec.reduceGetLsb, BitVec.reduceToNat, Nat.reduceLT, reduceIte, Bool.and_self, BEq.rfl, Bool.or_true, Bool.true_or, Bool.not_false, Bool.and_true]
theorem xload (x : Lx) (k : BitVec 3) (seg : Seg) (a : Reg) :
    Statement (.xload x k seg a) := by
  intro hwf
  obtain ⟨hf, hx⟩ := wf_lane rfl rfl rfl hwf
  refine of_lane _ _ rfl (lane_words _ x _ _ _ _ _ _ _ _ hx (by decide) ?_)
  have hi := imm_zero x.present
  have hq := quiet hx
  simp (decide := true) only [parseLane, parsePacked, lane, need, hi3, lo3, fnOf, ofPred, ofBar, Seg_code, hi, hq, HAppend.hAppend, bit_low, bit_high, extract_low, extract_high, bit_getLsbD, extract_all, extract_join, extract_extract, Nat.reduceSub, Nat.reduceAdd,
    BitVec.reduceExtractLsb', BitVec.reduceGetLsb, BitVec.reduceToNat, Nat.reduceLT, reduceIte, Bool.and_self, BEq.rfl, Bool.or_true, Bool.true_or, Bool.not_false, Bool.and_true]
theorem xstat (x : Lx) (k : BitVec 3) (d : Reg) :
    Statement (.xstat x k d) := by
  intro hwf
  obtain ⟨hf, hx⟩ := wf_lane rfl rfl rfl hwf
  refine of_lane _ _ rfl (lane_words _ x _ _ _ _ _ _ _ _ hx (by decide) ?_)
  have hi := imm_zero x.present
  have hq := quiet hx
  simp (decide := true) only [parseLane, parsePacked, lane, need, hi3, lo3, fnOf, ofPred, ofBar, hi, hq, HAppend.hAppend, bit_low, bit_high, extract_low, extract_high, bit_getLsbD, extract_all, extract_join, extract_extract, Nat.reduceSub, Nat.reduceAdd,
    BitVec.reduceExtractLsb', BitVec.reduceGetLsb, BitVec.reduceToNat, Nat.reduceLT, reduceIte, Bool.and_self, BEq.rfl, Bool.or_true, Bool.true_or, Bool.not_false, Bool.and_true]
theorem pollSome (x : Lx) (mm : Option Reg) (pd pa : Pred) :
    Statement (.pollSome x mm pd pa) := by
  intro hwf
  obtain ⟨hf, hx⟩ := wf_lane rfl rfl rfl hwf
  have hf : (x.present || mm == none) = true := hf
  refine of_lane _ _ rfl (lane_words _ x _ _ _ _ _ _ _ _ hx (by decide) ?_)
  have hi : (if x.present then some (mmImm 0 mm) else none).getD 0 = (mmImm 0 mm) :=
    imm_get _ _ _ (by cases hp : x.present <;> simp [hp] at hf ⊢ <;> simp [hf, imm2, mmImm, bit] <;> rfl)
  generalize (if x.present then some (mmImm 0 mm) else none) = im at hi ⊢
  have hq := quiet hx
  simp (decide := true) only [parseLane, parseWarpWide, lane, need, hi3, lo3, fnOf, ofPred, ofBar, parseMm_mm hi, mmImm_hi, hi, hq, hf, HAppend.hAppend, bit_low, bit_high, extract_low, extract_high, bit_getLsbD, extract_all, extract_join, extract_extract, Nat.reduceSub, Nat.reduceAdd,
    BitVec.reduceExtractLsb', BitVec.reduceGetLsb, BitVec.reduceToNat, Nat.reduceLT, reduceIte, Bool.and_self, BEq.rfl, Bool.or_true, Bool.true_or, Bool.not_false, Bool.and_true]
theorem pollEvery (x : Lx) (mm : Option Reg) (pd pa : Pred) :
    Statement (.pollEvery x mm pd pa) := by
  intro hwf
  obtain ⟨hf, hx⟩ := wf_lane rfl rfl rfl hwf
  have hf : (x.present || mm == none) = true := hf
  refine of_lane _ _ rfl (lane_words _ x _ _ _ _ _ _ _ _ hx (by decide) ?_)
  have hi : (if x.present then some (mmImm 0 mm) else none).getD 0 = (mmImm 0 mm) :=
    imm_get _ _ _ (by cases hp : x.present <;> simp [hp] at hf ⊢ <;> simp [hf, imm2, mmImm, bit] <;> rfl)
  generalize (if x.present then some (mmImm 0 mm) else none) = im at hi ⊢
  have hq := quiet hx
  simp (decide := true) only [parseLane, parseWarpWide, lane, need, hi3, lo3, fnOf, ofPred, ofBar, parseMm_mm hi, mmImm_hi, hi, hq, hf, HAppend.hAppend, bit_low, bit_high, extract_low, extract_high, bit_getLsbD, extract_all, extract_join, extract_extract, Nat.reduceSub, Nat.reduceAdd,
    BitVec.reduceExtractLsb', BitVec.reduceGetLsb, BitVec.reduceToNat, Nat.reduceLT, reduceIte, Bool.and_self, BEq.rfl, Bool.or_true, Bool.true_or, Bool.not_false, Bool.and_true]
theorem pollSame (x : Lx) (mm : Option Reg) (pd pa : Pred) :
    Statement (.pollSame x mm pd pa) := by
  intro hwf
  obtain ⟨hf, hx⟩ := wf_lane rfl rfl rfl hwf
  have hf : (x.present || mm == none) = true := hf
  refine of_lane _ _ rfl (lane_words _ x _ _ _ _ _ _ _ _ hx (by decide) ?_)
  have hi : (if x.present then some (mmImm 0 mm) else none).getD 0 = (mmImm 0 mm) :=
    imm_get _ _ _ (by cases hp : x.present <;> simp [hp] at hf ⊢ <;> simp [hf, imm2, mmImm, bit] <;> rfl)
  generalize (if x.present then some (mmImm 0 mm) else none) = im at hi ⊢
  have hq := quiet hx
  simp (decide := true) only [parseLane, parseWarpWide, lane, need, hi3, lo3, fnOf, ofPred, ofBar, parseMm_mm hi, mmImm_hi, hi, hq, hf, HAppend.hAppend, bit_low, bit_high, extract_low, extract_high, bit_getLsbD, extract_all, extract_join, extract_extract, Nat.reduceSub, Nat.reduceAdd,
    BitVec.reduceExtractLsb', BitVec.reduceGetLsb, BitVec.reduceToNat, Nat.reduceLT, reduceIte, Bool.and_self, BEq.rfl, Bool.or_true, Bool.true_or, Bool.not_false, Bool.and_true]
theorem pollCount (x : Lx) (mm : Option Reg) (d : Reg) (pa : Pred) :
    Statement (.pollCount x mm d pa) := by
  intro hwf
  obtain ⟨hf, hx⟩ := wf_lane rfl rfl rfl hwf
  have hf : (x.present || mm == none) = true := hf
  refine of_lane _ _ rfl (lane_words _ x _ _ _ _ _ _ _ _ hx (by decide) ?_)
  have hi : (if x.present then some (mmImm 0 mm) else none).getD 0 = (mmImm 0 mm) :=
    imm_get _ _ _ (by cases hp : x.present <;> simp [hp] at hf ⊢ <;> simp [hf, imm2, mmImm, bit] <;> rfl)
  generalize (if x.present then some (mmImm 0 mm) else none) = im at hi ⊢
  have hq := quiet hx
  simp (decide := true) only [parseLane, parseWarpWide, lane, need, hi3, lo3, fnOf, ofPred, ofBar, parseMm_mm hi, mmImm_hi, hi, hq, hf, HAppend.hAppend, bit_low, bit_high, extract_low, extract_high, bit_getLsbD, extract_all, extract_join, extract_extract, Nat.reduceSub, Nat.reduceAdd,
    BitVec.reduceExtractLsb', BitVec.reduceGetLsb, BitVec.reduceToNat, Nat.reduceLT, reduceIte, Bool.and_self, BEq.rfl, Bool.or_true, Bool.true_or, Bool.not_false, Bool.and_true]
theorem pollMask (x : Lx) (mm : Option Reg) (d : Reg) (pa : Pred) :
    Statement (.pollMask x mm d pa) := by
  intro hwf
  obtain ⟨hf, hx⟩ := wf_lane rfl rfl rfl hwf
  have hf : (x.present || mm == none) = true := hf
  refine of_lane _ _ rfl (lane_words _ x _ _ _ _ _ _ _ _ hx (by decide) ?_)
  have hi : (if x.present then some (mmImm 0 mm) else none).getD 0 = (mmImm 0 mm) :=
    imm_get _ _ _ (by cases hp : x.present <;> simp [hp] at hf ⊢ <;> simp [hf, imm2, mmImm, bit] <;> rfl)
  generalize (if x.present then some (mmImm 0 mm) else none) = im at hi ⊢
  have hq := quiet hx
  simp (decide := true) only [parseLane, parseWarpWide, lane, need, hi3, lo3, fnOf, ofPred, ofBar, parseMm_mm hi, mmImm_hi, hi, hq, hf, HAppend.hAppend, bit_low, bit_high, extract_low, extract_high, bit_getLsbD, extract_all, extract_join, extract_extract, Nat.reduceSub, Nat.reduceAdd,
    BitVec.reduceExtractLsb', BitVec.reduceGetLsb, BitVec.reduceToNat, Nat.reduceLT, reduceIte, Bool.and_self, BEq.rfl, Bool.or_true, Bool.true_or, Bool.not_false, Bool.and_true]
theorem leadFirst (x : Lx) (mm : Option Reg) (pd : Pred) :
    Statement (.leadFirst x mm pd) := by
  intro hwf
  obtain ⟨hf, hx⟩ := wf_lane rfl rfl rfl hwf
  have hf : (x.present || mm == none) = true := hf
  refine of_lane _ _ rfl (lane_words _ x _ _ _ _ _ _ _ _ hx (by decide) ?_)
  have hi : (if x.present then some (mmImm 0 mm) else none).getD 0 = (mmImm 0 mm) :=
    imm_get _ _ _ (by cases hp : x.present <;> simp [hp] at hf ⊢ <;> simp [hf, imm2, mmImm, bit] <;> rfl)
  generalize (if x.present then some (mmImm 0 mm) else none) = im at hi ⊢
  have hq := quiet hx
  simp (decide := true) only [parseLane, parseWarpWide, lane, need, hi3, lo3, fnOf, ofPred, ofBar, parseMm_mm hi, mmImm_hi, hi, hq, hf, HAppend.hAppend, bit_low, bit_high, extract_low, extract_high, bit_getLsbD, extract_all, extract_join, extract_extract, Nat.reduceSub, Nat.reduceAdd,
    BitVec.reduceExtractLsb', BitVec.reduceGetLsb, BitVec.reduceToNat, Nat.reduceLT, reduceIte, Bool.and_self, BEq.rfl, Bool.or_true, Bool.true_or, Bool.not_false, Bool.and_true]
theorem leadLast (x : Lx) (mm : Option Reg) (pd : Pred) :
    Statement (.leadLast x mm pd) := by
  intro hwf
  obtain ⟨hf, hx⟩ := wf_lane rfl rfl rfl hwf
  have hf : (x.present || mm == none) = true := hf
  refine of_lane _ _ rfl (lane_words _ x _ _ _ _ _ _ _ _ hx (by decide) ?_)
  have hi : (if x.present then some (mmImm 0 mm) else none).getD 0 = (mmImm 0 mm) :=
    imm_get _ _ _ (by cases hp : x.present <;> simp [hp] at hf ⊢ <;> simp [hf, imm2, mmImm, bit] <;> rfl)
  generalize (if x.present then some (mmImm 0 mm) else none) = im at hi ⊢
  have hq := quiet hx
  simp (decide := true) only [parseLane, parseWarpWide, lane, need, hi3, lo3, fnOf, ofPred, ofBar, parseMm_mm hi, mmImm_hi, hi, hq, hf, HAppend.hAppend, bit_low, bit_high, extract_low, extract_high, bit_getLsbD, extract_all, extract_join, extract_extract, Nat.reduceSub, Nat.reduceAdd,
    BitVec.reduceExtractLsb', BitVec.reduceGetLsb, BitVec.reduceToNat, Nat.reduceLT, reduceIte, Bool.and_self, BEq.rfl, Bool.or_true, Bool.true_or, Bool.not_false, Bool.and_true]
theorem wmask (x : Lx) (mm : Option Reg) (d : Reg) :
    Statement (.wmask x mm d) := by
  intro hwf
  obtain ⟨hf, hx⟩ := wf_lane rfl rfl rfl hwf
  have hf : (x.present || mm == none) = true := hf
  refine of_lane _ _ rfl (lane_words _ x _ _ _ _ _ _ _ _ hx (by decide) ?_)
  have hi : (if x.present then some (mmImm 0 mm) else none).getD 0 = (mmImm 0 mm) :=
    imm_get _ _ _ (by cases hp : x.present <;> simp [hp] at hf ⊢ <;> simp [hf, imm2, mmImm, bit] <;> rfl)
  generalize (if x.present then some (mmImm 0 mm) else none) = im at hi ⊢
  have hq := quiet hx
  simp (decide := true) only [parseLane, parseWarpWide, lane, need, hi3, lo3, fnOf, ofPred, ofBar, parseMm_mm hi, mmImm_hi, hi, hq, hf, HAppend.hAppend, bit_low, bit_high, extract_low, extract_high, bit_getLsbD, extract_all, extract_join, extract_extract, Nat.reduceSub, Nat.reduceAdd,
    BitVec.reduceExtractLsb', BitVec.reduceGetLsb, BitVec.reduceToNat, Nat.reduceLT, reduceIte, Bool.and_self, BEq.rfl, Bool.or_true, Bool.true_or, Bool.not_false, Bool.and_true]
theorem xlane (x : Lx) (mm : Option Reg) (seg : BitVec 4) (mode : XlaneMode) (w : Bool) (d a b : Reg) :
    Statement (.xlane x mm seg mode w d a b) := by
  intro hwf
  obtain ⟨hf, hx⟩ := wf_lane rfl rfl rfl hwf
  have hf : ((x.present || (mm == none && seg == 0)) && decide (seg.toNat ≤ 8) && (mode != .rev || b == 0)) = true := hf
  simp only [Bool.and_eq_true] at hf
  refine of_lane _ _ rfl (lane_words _ x _ _ _ _ _ _ _ _ hx (by decide) ?_)
  have hi : (if x.present then some (mmImm seg mm) else none).getD 0 = (mmImm seg mm) :=
    imm_get _ _ _ (by cases hp : x.present <;> simp [hp] at hf ⊢ <;> simp [hf, imm2, mmImm, bit] <;> rfl)
  generalize (if x.present then some (mmImm seg mm) else none) = im at hi ⊢
  have hq := quiet hx
  simp (decide := true) only [parseLane, parseWarpWide, lane, need, hi3, lo3, fnOf, ofPred, ofBar, XlaneMode_code, parseMm_mm hi, mmImm_hi, hi, hq, hf, HAppend.hAppend, bit_low, bit_high, extract_low, extract_high, bit_getLsbD, extract_all, extract_join, extract_extract, Nat.reduceSub, Nat.reduceAdd,
    BitVec.reduceExtractLsb', BitVec.reduceGetLsb, BitVec.reduceToNat, Nat.reduceLT, reduceIte, Bool.and_self, BEq.rfl, Bool.or_true, Bool.true_or, Bool.not_false, Bool.and_true]
theorem wred (x : Lx) (mm : Option Reg) (ty : AtomTy) (op : AtomOp) (d a : Reg) :
    Statement (.wred x mm ty op d a) := by
  intro hwf
  obtain ⟨hf, hx⟩ := wf_lane (r := (op == .add && (ty == .f32 || ty == .f64 || ty == .f16 || ty == .bf16))) (lb := false) rfl rfl rfl hwf
  have hf : ((x.present || (mm == none && ty == .u32)) && ty.allows op && op != .exch && op != .inc) = true := hf
  simp only [Bool.and_eq_true] at hf
  refine of_lane _ _ rfl (lane_words _ x _ _ _ _ _ _ _ _ hx (by decide) ?_)
  have hi : (if x.present then some (mmImm (0#1 ++ ty.code) mm) else none).getD 0 = (mmImm (0#1 ++ ty.code) mm) :=
    imm_get _ _ _ (by cases hp : x.present <;> simp [hp] at hf ⊢ <;> simp [hf, imm2, mmImm, bit] <;> rfl)
  generalize (if x.present then some (mmImm (0#1 ++ ty.code) mm) else none) = im at hi ⊢
  have hq := rounds_ok hx
  simp (decide := true) only [parseLane, parseWarpWide, lane, need, hi3, lo3, fnOf, ofPred, ofBar, AtomTy_code, AtomOp_code, parseMm_mm hi, mmImm_hi, float_eq, wredAllowed, allowed_eq, Bool.and_true, mmImm_ty, mmImm_top, hi, hq, hf, HAppend.hAppend, bit_low, bit_high, extract_low, extract_high, bit_getLsbD, extract_all, extract_join, extract_extract, Nat.reduceSub, Nat.reduceAdd,
    BitVec.reduceExtractLsb', BitVec.reduceGetLsb, BitVec.reduceToNat, Nat.reduceLT, reduceIte, Bool.and_self, BEq.rfl, Bool.or_true, Bool.true_or, Bool.not_false, Bool.and_true]
theorem wscan (x : Lx) (mm : Option Reg) (excl : Bool) (ty : AtomTy) (op : AtomOp) (d a : Reg) :
    Statement (.wscan x mm excl ty op d a) := by
  intro hwf
  obtain ⟨hf, hx⟩ := wf_lane (r := (op == .add && (ty == .f32 || ty == .f64 || ty == .f16 || ty == .bf16))) (lb := false) rfl rfl rfl hwf
  have hf : ((x.present || (mm == none && ty == .u32 && !excl)) && ty.allows op && op != .exch && op != .inc) = true := hf
  simp only [Bool.and_eq_true] at hf
  refine of_lane _ _ rfl (lane_words _ x _ _ _ _ _ _ _ _ hx (by decide) ?_)
  have hi : (if x.present then some (mmImm (bit excl ++ ty.code) mm) else none).getD 0 = (mmImm (bit excl ++ ty.code) mm) :=
    imm_get _ _ _ (by cases hp : x.present <;> simp [hp] at hf ⊢ <;> simp [hf, imm2, mmImm, bit] <;> rfl)
  generalize (if x.present then some (mmImm (bit excl ++ ty.code) mm) else none) = im at hi ⊢
  have hq := rounds_ok hx
  simp (decide := true) only [parseLane, parseWarpWide, lane, need, hi3, lo3, fnOf, ofPred, ofBar, AtomTy_code, AtomOp_code, parseMm_mm hi, mmImm_hi, float_eq, wredAllowed, allowed_eq, Bool.and_true, mmImm_ty, mmImm_top, hi, hq, hf, HAppend.hAppend, bit_low, bit_high, extract_low, extract_high, bit_getLsbD, extract_all, extract_join, extract_extract, Nat.reduceSub, Nat.reduceAdd,
    BitVec.reduceExtractLsb', BitVec.reduceGetLsb, BitVec.reduceToNat, Nat.reduceLT, reduceIte, Bool.and_self, BEq.rfl, Bool.or_true, Bool.true_or, Bool.not_false, Bool.and_true]
theorem warpMatch (x : Lx) (mm : Option Reg) (w : Bool) (d a : Reg) :
    Statement (.warpMatch x mm w d a) := by
  intro hwf
  obtain ⟨hf, hx⟩ := wf_lane rfl rfl rfl hwf
  have hf : (x.present || mm == none) = true := hf
  refine of_lane _ _ rfl (lane_words _ x _ _ _ _ _ _ _ _ hx (by decide) ?_)
  have hi : (if x.present then some (mmImm 0 mm) else none).getD 0 = (mmImm 0 mm) :=
    imm_get _ _ _ (by cases hp : x.present <;> simp [hp] at hf ⊢ <;> simp [hf, imm2, mmImm, bit] <;> rfl)
  generalize (if x.present then some (mmImm 0 mm) else none) = im at hi ⊢
  have hq := quiet hx
  simp (decide := true) only [parseLane, parseWarpWide, lane, need, hi3, lo3, fnOf, ofPred, ofBar, parseMm_mm hi, mmImm_hi, hi, hq, hf, HAppend.hAppend, bit_low, bit_high, extract_low, extract_high, bit_getLsbD, extract_all, extract_join, extract_extract, Nat.reduceSub, Nat.reduceAdd,
    BitVec.reduceExtractLsb', BitVec.reduceGetLsb, BitVec.reduceToNat, Nat.reduceLT, reduceIte, Bool.and_self, BEq.rfl, Bool.or_true, Bool.true_or, Bool.not_false, Bool.and_true]
theorem ld (x : Lx) (ty : MTy) (seg : Seg) (off : BitVec 20) (t a : Reg) :
    Statement (.ld x ty seg off t a) := by
  intro hwf
  obtain ⟨hf, hx⟩ := wf_lane rfl rfl rfl hwf
  have hf : (x.present || (decide (off.toNat < 64) && ty != .i8 && ty != .i16 && ty != .bf16)) = true := hf
  refine of_memory _ _ rfl rfl (lane_words _ x _ _ _ _ _ _ _ _ hx (by decide) ?_)
  have hi : (if x.present then some (bit ty.alt ++ off.extractLsb' 6 4 ++ off.extractLsb' 10 10) else none).getD 0
      = bit ty.alt ++ off.extractLsb' 6 4 ++ off.extractLsb' 10 10 := imm_get _ _ _ (by
    cases hp : x.present
    · simp only [hp, Bool.false_or, Bool.and_eq_true, decide_eq_true_eq] at hf
      have hs : off.toNat < 2 ^ 6 := by first | exact hf.1.1.1 | exact hf.2.1
      have hl : off.toNat < 2 ^ 10 := by omega
      rw [extract_small off 6 4 hs, extract_small off 10 10 hl]; cases ty <;> first | exact .inr rfl | (revert hf; simp)
    · exact .inl rfl)
  generalize (if x.present then some (bit ty.alt ++ off.extractLsb' 6 4 ++ off.extractLsb' 10 10) else none) = im at hi ⊢
  have hq := quiet hx
  simp (decide := true) only [parseLane, parseMemory, lane, need, hi3, lo3, fnOf, ofPred, ofBar, Seg_code, parseLm_abs hq hi (MTy_load ty), hi, hq, hf, HAppend.hAppend, bit_low, bit_high, extract_low, extract_high, bit_getLsbD, extract_all, extract_join, extract_extract, Nat.reduceSub, Nat.reduceAdd,
    BitVec.reduceExtractLsb', BitVec.reduceGetLsb, BitVec.reduceToNat, Nat.reduceLT, reduceIte, Bool.and_self, BEq.rfl, Bool.or_true, Bool.true_or, Bool.not_false, Bool.and_true]
theorem st (x : Lx) (ty : MTy) (seg : Seg) (off : BitVec 20) (t a : Reg) :
    Statement (.st x ty seg off t a) := by
  intro hwf
  obtain ⟨hf, hx⟩ := wf_lane rfl rfl rfl hwf
  have hf : (ty != .i8 && ty != .i16 && (x.present || (decide (off.toNat < 64) && ty != .bf16))) = true := hf
  simp only [Bool.and_eq_true] at hf
  refine of_memory _ _ rfl rfl (lane_words _ x _ _ _ _ _ _ _ _ hx (by decide) ?_)
  have hi : (if x.present then some (bit ty.alt ++ off.extractLsb' 6 4 ++ off.extractLsb' 10 10) else none).getD 0
      = bit ty.alt ++ off.extractLsb' 6 4 ++ off.extractLsb' 10 10 := imm_get _ _ _ (by
    cases hp : x.present
    · simp only [hp, Bool.false_or, Bool.and_eq_true, decide_eq_true_eq] at hf
      have hs : off.toNat < 2 ^ 6 := by first | exact hf.1.1.1 | exact hf.2.1
      have hl : off.toNat < 2 ^ 10 := by omega
      rw [extract_small off 6 4 hs, extract_small off 10 10 hl]; cases ty <;> first | exact .inr rfl | (revert hf; simp)
    · exact .inl rfl)
  generalize (if x.present then some (bit ty.alt ++ off.extractLsb' 6 4 ++ off.extractLsb' 10 10) else none) = im at hi ⊢
  have hq := quiet hx
  simp (decide := true) only [parseLane, parseMemory, lane, need, hi3, lo3, fnOf, ofPred, ofBar, Seg_code, parseLm_abs hq hi (MTy_store ty hf.1.1 hf.1.2), hi, hq, hf, HAppend.hAppend, bit_low, bit_high, extract_low, extract_high, bit_getLsbD, extract_all, extract_join, extract_extract, Nat.reduceSub, Nat.reduceAdd,
    BitVec.reduceExtractLsb', BitVec.reduceGetLsb, BitVec.reduceToNat, Nat.reduceLT, reduceIte, Bool.and_self, BEq.rfl, Bool.or_true, Bool.true_or, Bool.not_false, Bool.and_true]
theorem lda (x : Lx) (ty : MTy) (sc : Scope) (seg : Seg) (off : BitVec 16) (t a : Reg) :
    Statement (.lda x ty sc seg off t a) := by
  intro hwf
  obtain ⟨hf, hx⟩ := wf_lane rfl rfl rfl hwf
  have hf : (x.present || (decide (off.toNat < 64) && ty != .i8 && ty != .i16 && ty != .bf16 && sc == .device)) = true := hf
  refine of_memory _ _ rfl rfl (lane_words _ x _ _ _ _ _ _ _ _ hx (by decide) ?_)
  have hi : (if x.present then some (bit ty.alt ++ sc.code ++ off.extractLsb' 6 10) else none)
        = some (bit ty.alt ++ sc.code ++ off.extractLsb' 6 10) ∨
      ((if x.present then some (bit ty.alt ++ sc.code ++ off.extractLsb' 6 10) else none) = none ∧ sc = .device ∧
        off.extractLsb' 6 10 = 0 ∧ ty.alt = false) := by
    cases hp : x.present
    · simp only [hp, Bool.false_or, Bool.and_eq_true, decide_eq_true_eq, beq_iff_eq] at hf
      exact .inr ⟨rfl, hf.2, extract_small off 6 10 hf.1.1.1.1, by cases ty <;> first | rfl | (revert hf; simp)⟩
    · exact .inl rfl
  generalize (if x.present then some (bit ty.alt ++ sc.code ++ off.extractLsb' 6 10) else none) = im at hi ⊢
  have hq := quiet hx
  simp (decide := true) only [parseLane, parseMemory, lane, need, hi3, lo3, fnOf, ofPred, ofBar, Scope_code, withCode, Seg_code, parseLm_rel hq hi (MTy_load ty), width_back, hq, hf, HAppend.hAppend, bit_low, bit_high, extract_low, extract_high, bit_getLsbD, extract_all, extract_join, extract_extract, Nat.reduceSub, Nat.reduceAdd,
    BitVec.reduceExtractLsb', BitVec.reduceGetLsb, BitVec.reduceToNat, Nat.reduceLT, reduceIte, Bool.and_self, BEq.rfl, Bool.or_true, Bool.true_or, Bool.not_false, Bool.and_true]
theorem stl (x : Lx) (ty : MTy) (sc : Scope) (seg : Seg) (off : BitVec 16) (t a : Reg) :
    Statement (.stl x ty sc seg off t a) := by
  intro hwf
  obtain ⟨hf, hx⟩ := wf_lane rfl rfl rfl hwf
  have hf : (ty != .i8 && ty != .i16 && (x.present || (decide (off.toNat < 64) && ty != .bf16 && sc == .device))) = true := hf
  simp only [Bool.and_eq_true] at hf
  refine of_memory _ _ rfl rfl (lane_words _ x _ _ _ _ _ _ _ _ hx (by decide) ?_)
  have hi : (if x.present then some (bit ty.alt ++ sc.code ++ off.extractLsb' 6 10) else none)
        = some (bit ty.alt ++ sc.code ++ off.extractLsb' 6 10) ∨
      ((if x.present then some (bit ty.alt ++ sc.code ++ off.extractLsb' 6 10) else none) = none ∧ sc = .device ∧
        off.extractLsb' 6 10 = 0 ∧ ty.alt = false) := by
    cases hp : x.present
    · simp only [hp, Bool.false_or, Bool.and_eq_true, decide_eq_true_eq, beq_iff_eq] at hf
      exact .inr ⟨rfl, hf.2.2, extract_small off 6 10 hf.2.1.1, by cases ty <;> first | rfl | (revert hf; simp)⟩
    · exact .inl rfl
  generalize (if x.present then some (bit ty.alt ++ sc.code ++ off.extractLsb' 6 10) else none) = im at hi ⊢
  have hq := quiet hx
  simp (decide := true) only [parseLane, parseMemory, lane, need, hi3, lo3, fnOf, ofPred, ofBar, Scope_code, withCode, Seg_code, parseLm_rel hq hi (MTy_store ty hf.1.1 hf.1.2), width_back, hq, hf, HAppend.hAppend, bit_low, bit_high, extract_low, extract_high, bit_getLsbD, extract_all, extract_join, extract_extract, Nat.reduceSub, Nat.reduceAdd,
    BitVec.reduceExtractLsb', BitVec.reduceGetLsb, BitVec.reduceToNat, Nat.reduceLT, reduceIte, Bool.and_self, BEq.rfl, Bool.or_true, Bool.true_or, Bool.not_false, Bool.and_true]
theorem atom (x : Lx) (op : AtomOp) (ty : AtomTy) (o : MemOrd) (sc : Scope) (seg : Seg) (d a b : Reg) :
    Statement (.atom x op ty o sc seg d a b) := by
  intro hwf
  obtain ⟨hf, hx⟩ := wf_lane (r := (op == .add && (ty == .f32 || ty == .f64 || ty == .f16 || ty == .bf16))) (lb := false) rfl rfl rfl hwf
  have hf : (ty.allows op && (x.present || (o == .rlx && sc == .device && seg == .glob))) = true := hf
  simp only [Bool.and_eq_true] at hf
  refine of_memory _ _ rfl rfl (lane_words _ x _ _ _ _ _ _ _ _ hx (by decide) ?_)
  have hi : (if x.present then some (memImm false sc o seg) else none).getD memImmDefault = (memImm false sc o seg) :=
    imm_get _ _ _ (by cases hp : x.present <;> simp [hp] at hf ⊢ <;> simp [hf, imm2, mmImm, bit] <;> rfl)
  generalize (if x.present then some (memImm false sc o seg) else none) = im at hi ⊢
  have hq := rounds_ok hx
  simp (decide := true) only [parseLane, parseMemory, lane, need, hi3, lo3, fnOf, ofPred, ofBar, AtomOp_code, AtomTy_code, MemOrd_code, withCode, Scope_code, Seg_code, parseMem_imm (wOk := false) (ordOk := true) hi rfl rfl, float_eq, allowed_eq, hi, hq, hf, HAppend.hAppend, bit_low, bit_high, extract_low, extract_high, bit_getLsbD, extract_all, extract_join, extract_extract, Nat.reduceSub, Nat.reduceAdd,
    BitVec.reduceExtractLsb', BitVec.reduceGetLsb, BitVec.reduceToNat, Nat.reduceLT, reduceIte, Bool.and_self, BEq.rfl, Bool.or_true, Bool.true_or, Bool.not_false, Bool.and_true]
theorem atomc (x : Lx) (w : Bool) (o : MemOrd) (sc : Scope) (seg : Seg) (d a b c : Reg) :
    Statement (.atomc x w o sc seg d a b c) := by
  intro hwf
  obtain ⟨hf, hx⟩ := wf_lane rfl rfl rfl hwf
  have hf : (x.present || (!w && o == .rlx && sc == .device && seg == .glob)) = true := hf
  refine of_memory _ _ rfl rfl (lane_words _ x _ _ _ _ _ _ _ _ hx (by decide) ?_)
  have hi : (if x.present then some (memImm w sc o seg) else none).getD memImmDefault = (memImm w sc o seg) :=
    imm_get _ _ _ (by cases hp : x.present <;> simp [hp] at hf ⊢ <;> simp [hf, imm2, mmImm, bit] <;> rfl)
  generalize (if x.present then some (memImm w sc o seg) else none) = im at hi ⊢
  have hq := quiet hx
  simp (decide := true) only [parseLane, parseMemory, lane, need, hi3, lo3, fnOf, ofPred, ofBar, MemOrd_code, withCode, Scope_code, Seg_code, parseMem_imm (wOk := true) (ordOk := true) hi rfl rfl, hi, hq, hf, HAppend.hAppend, bit_low, bit_high, extract_low, extract_high, bit_getLsbD, extract_all, extract_join, extract_extract, Nat.reduceSub, Nat.reduceAdd,
    BitVec.reduceExtractLsb', BitVec.reduceGetLsb, BitVec.reduceToNat, Nat.reduceLT, reduceIte, Bool.and_self, BEq.rfl, Bool.or_true, Bool.true_or, Bool.not_false, Bool.and_true]
theorem red (x : Lx) (op : AtomOp) (ty : AtomTy) (o : MemOrd) (sc : Scope) (seg : Seg) (a b : Reg) :
    Statement (.red x op ty o sc seg a b) := by
  intro hwf
  obtain ⟨hf, hx⟩ := wf_lane (r := (op == .add && (ty == .f32 || ty == .f64 || ty == .f16 || ty == .bf16))) (lb := false) rfl rfl rfl hwf
  have hf : (ty.allows op && op != .exch && (o == .rlx || o == .rel) && (x.present || (o == .rlx && sc == .device && seg == .glob))) = true := hf
  simp only [Bool.and_eq_true] at hf
  refine of_memory _ _ rfl rfl (lane_words _ x _ _ _ _ _ _ _ _ hx (by decide) ?_)
  have hi : (if x.present then some (memImm false sc o seg) else none).getD memImmDefault = (memImm false sc o seg) :=
    imm_get _ _ _ (by cases hp : x.present <;> simp [hp] at hf ⊢ <;> simp [hf, imm2, mmImm, bit] <;> rfl)
  generalize (if x.present then some (memImm false sc o seg) else none) = im at hi ⊢
  have hq := rounds_ok hx
  simp (decide := true) only [parseLane, parseMemory, lane, need, hi3, lo3, fnOf, ofPred, ofBar, AtomOp_code, AtomTy_code, MemOrd_code, withCode, Scope_code, Seg_code, parseMem_imm (wOk := false) (ordOk := true) hi rfl rfl, float_eq, allowed_eq, redOrd, hi, hq, hf, HAppend.hAppend, bit_low, bit_high, extract_low, extract_high, bit_getLsbD, extract_all, extract_join, extract_extract, Nat.reduceSub, Nat.reduceAdd,
    BitVec.reduceExtractLsb', BitVec.reduceGetLsb, BitVec.reduceToNat, Nat.reduceLT, reduceIte, Bool.and_self, BEq.rfl, Bool.or_true, Bool.true_or, Bool.not_false, Bool.and_true]
theorem cpa (x : Lx) (sc : Scope) (seg : Seg) (dclus : Bool) (bar : Option (BitVec 4)) (d a : Reg) :
    Statement (.cpa x sc seg dclus bar d a) := by
  intro hwf
  obtain ⟨hf, hx⟩ := wf_lane rfl rfl rfl hwf
  have hf : (x.present || (sc == .device && seg == .glob && !dclus)) = true := hf
  refine of_memory _ _ rfl rfl (lane_words _ x _ _ _ _ _ _ _ _ hx (by decide) ?_)
  have hi : (if x.present then some (0#5 ++ sc.code ++ 0#2 ++ bit dclus ++ seg.code) else none).getD memImmDefault = (0#5 ++ sc.code ++ 0#2 ++ bit dclus ++ seg.code) :=
    imm_get _ _ _ (by cases hp : x.present <;> simp [hp] at hf ⊢ <;> simp [hf, imm2, mmImm, bit] <;> rfl)
  generalize (if x.present then some (0#5 ++ sc.code ++ 0#2 ++ bit dclus ++ seg.code) else none) = im at hi ⊢
  have hq := quiet hx
  simp (decide := true) only [parseLane, parseMemory, lane, need, hi3, lo3, fnOf, ofPred, ofBar, Scope_code, withCode, Seg_code, some_getD, some_or_zero, bar_or_zero, hi, hq, hf, HAppend.hAppend, bit_low, bit_high, extract_low, extract_high, bit_getLsbD, extract_all, extract_join, extract_extract, Nat.reduceSub, Nat.reduceAdd,
    BitVec.reduceExtractLsb', BitVec.reduceGetLsb, BitVec.reduceToNat, Nat.reduceLT, reduceIte, Bool.and_self, BEq.rfl, Bool.or_true, Bool.true_or, Bool.not_false, Bool.and_true]
theorem pref (x : Lx) (sc : Scope) (seg : Seg) (lv : PrefLevel) (a : Reg) :
    Statement (.pref x sc seg lv a) := by
  intro hwf
  obtain ⟨hf, hx⟩ := wf_lane rfl rfl rfl hwf
  have hf : (x.present || (sc == .device && seg == .glob)) = true := hf
  refine of_memory _ _ rfl rfl (lane_words _ x _ _ _ _ _ _ _ _ hx (by decide) ?_)
  have hi : (if x.present then some (memImm false sc .rlx seg) else none).getD memImmDefault = (memImm false sc .rlx seg) :=
    imm_get _ _ _ (by cases hp : x.present <;> simp [hp] at hf ⊢ <;> simp [hf, imm2, mmImm, bit] <;> rfl)
  generalize (if x.present then some (memImm false sc .rlx seg) else none) = im at hi ⊢
  have hq := quiet hx
  simp (decide := true) only [parseLane, parseMemory, lane, need, hi3, lo3, fnOf, ofPred, ofBar, Scope_code, withCode, Seg_code, PrefLevel_code, parseMem_imm (wOk := false) (ordOk := false) hi rfl rfl, hi, hq, hf, HAppend.hAppend, bit_low, bit_high, extract_low, extract_high, bit_getLsbD, extract_all, extract_join, extract_extract, Nat.reduceSub, Nat.reduceAdd,
    BitVec.reduceExtractLsb', BitVec.reduceGetLsb, BitVec.reduceToNat, Nat.reduceLT, reduceIte, Bool.and_self, BEq.rfl, Bool.or_true, Bool.true_or, Bool.not_false, Bool.and_true]
theorem ldf (x : Lx) (sc : Scope) (seg : Seg) (d a : Reg) :
    Statement (.ldf x sc seg d a) := by
  intro hwf
  obtain ⟨hf, hx⟩ := wf_lane rfl rfl rfl hwf
  have hf : (x.present || (sc == .device && seg == .glob)) = true := hf
  refine of_memory _ _ rfl rfl (lane_words _ x _ _ _ _ _ _ _ _ hx (by decide) ?_)
  have hi : (if x.present then some (memImm false sc .rlx seg) else none).getD memImmDefault = (memImm false sc .rlx seg) :=
    imm_get _ _ _ (by cases hp : x.present <;> simp [hp] at hf ⊢ <;> simp [hf, imm2, mmImm, bit] <;> rfl)
  generalize (if x.present then some (memImm false sc .rlx seg) else none) = im at hi ⊢
  have hq := quiet hx
  simp (decide := true) only [parseLane, parseMemory, lane, need, hi3, lo3, fnOf, ofPred, ofBar, Scope_code, withCode, Seg_code, parseMem_imm (wOk := false) (ordOk := false) hi rfl rfl, hi, hq, hf, HAppend.hAppend, bit_low, bit_high, extract_low, extract_high, bit_getLsbD, extract_all, extract_join, extract_extract, Nat.reduceSub, Nat.reduceAdd,
    BitVec.reduceExtractLsb', BitVec.reduceGetLsb, BitVec.reduceToNat, Nat.reduceLT, reduceIte, Bool.and_self, BEq.rfl, Bool.or_true, Bool.true_or, Bool.not_false, Bool.and_true]
theorem stf (x : Lx) (sc : Scope) (seg : Seg) (a b : Reg) :
    Statement (.stf x sc seg a b) := by
  intro hwf
  obtain ⟨hf, hx⟩ := wf_lane rfl rfl rfl hwf
  have hf : (x.present || (sc == .device && seg == .glob)) = true := hf
  refine of_memory _ _ rfl rfl (lane_words _ x _ _ _ _ _ _ _ _ hx (by decide) ?_)
  have hi : (if x.present then some (memImm false sc .rlx seg) else none).getD memImmDefault = (memImm false sc .rlx seg) :=
    imm_get _ _ _ (by cases hp : x.present <;> simp [hp] at hf ⊢ <;> simp [hf, imm2, mmImm, bit] <;> rfl)
  generalize (if x.present then some (memImm false sc .rlx seg) else none) = im at hi ⊢
  have hq := quiet hx
  simp (decide := true) only [parseLane, parseMemory, lane, need, hi3, lo3, fnOf, ofPred, ofBar, Scope_code, withCode, Seg_code, parseMem_imm (wOk := false) (ordOk := false) hi rfl rfl, hi, hq, hf, HAppend.hAppend, bit_low, bit_high, extract_low, extract_high, bit_getLsbD, extract_all, extract_join, extract_extract, Nat.reduceSub, Nat.reduceAdd,
    BitVec.reduceExtractLsb', BitVec.reduceGetLsb, BitVec.reduceToNat, Nat.reduceLT, reduceIte, Bool.and_self, BEq.rfl, Bool.or_true, Bool.true_or, Bool.not_false, Bool.and_true]
theorem mwatch (x : Lx) (sc : Scope) (seg : Seg) (a : Reg) :
    Statement (.mwatch x sc seg a) := by
  intro hwf
  obtain ⟨hf, hx⟩ := wf_lane rfl rfl rfl hwf
  have hf : (x.present || (sc == .device && seg == .glob)) = true := hf
  refine of_memory _ _ rfl rfl (lane_words _ x _ _ _ _ _ _ _ _ hx (by decide) ?_)
  have hi : (if x.present then some (memImm false sc .rlx seg) else none).getD memImmDefault = (memImm false sc .rlx seg) :=
    imm_get _ _ _ (by cases hp : x.present <;> simp [hp] at hf ⊢ <;> simp [hf, imm2, mmImm, bit] <;> rfl)
  generalize (if x.present then some (memImm false sc .rlx seg) else none) = im at hi ⊢
  have hq := quiet hx
  simp (decide := true) only [parseLane, parseMemory, lane, need, hi3, lo3, fnOf, ofPred, ofBar, Scope_code, withCode, Seg_code, parseMem_imm (wOk := false) (ordOk := false) hi rfl rfl, hi, hq, hf, HAppend.hAppend, bit_low, bit_high, extract_low, extract_high, bit_getLsbD, extract_all, extract_join, extract_extract, Nat.reduceSub, Nat.reduceAdd,
    BitVec.reduceExtractLsb', BitVec.reduceGetLsb, BitVec.reduceToNat, Nat.reduceLT, reduceIte, Bool.and_self, BEq.rfl, Bool.or_true, Bool.true_or, Bool.not_false, Bool.and_true]
theorem mwait (x : Lx) (sc : Scope) (seg : Seg) (d b : Reg) :
    Statement (.mwait x sc seg d b) := by
  intro hwf
  obtain ⟨hf, hx⟩ := wf_lane rfl rfl rfl hwf
  have hf : (x.present || (sc == .device && seg == .glob)) = true := hf
  refine of_memory _ _ rfl rfl (lane_words _ x _ _ _ _ _ _ _ _ hx (by decide) ?_)
  have hi : (if x.present then some (memImm false sc .rlx seg) else none).getD memImmDefault = (memImm false sc .rlx seg) :=
    imm_get _ _ _ (by cases hp : x.present <;> simp [hp] at hf ⊢ <;> simp [hf, imm2, mmImm, bit] <;> rfl)
  generalize (if x.present then some (memImm false sc .rlx seg) else none) = im at hi ⊢
  have hq := quiet hx
  simp (decide := true) only [parseLane, parseMemory, lane, need, hi3, lo3, fnOf, ofPred, ofBar, Scope_code, withCode, Seg_code, parseMem_imm (wOk := false) (ordOk := false) hi rfl rfl, hi, hq, hf, HAppend.hAppend, bit_low, bit_high, extract_low, extract_high, bit_getLsbD, extract_all, extract_join, extract_extract, Nat.reduceSub, Nat.reduceAdd,
    BitVec.reduceExtractLsb', BitVec.reduceGetLsb, BitVec.reduceToNat, Nat.reduceLT, reduceIte, Bool.and_self, BEq.rfl, Bool.or_true, Bool.true_or, Bool.not_false, Bool.and_true]
theorem tcopy (x : Lx) (sc : Scope) (seg : Seg) (d a : Reg) :
    Statement (.tcopy x sc seg d a) := by
  intro hwf
  obtain ⟨hf, hx⟩ := wf_lane rfl rfl rfl hwf
  have hf : (x.present || (sc == .device && seg == .glob)) = true := hf
  refine of_memory _ _ rfl rfl (lane_words _ x _ _ _ _ _ _ _ _ hx (by decide) ?_)
  have hi : (if x.present then some (memImm false sc .rlx seg) else none).getD memImmDefault = (memImm false sc .rlx seg) :=
    imm_get _ _ _ (by cases hp : x.present <;> simp [hp] at hf ⊢ <;> simp [hf, imm2, mmImm, bit] <;> rfl)
  generalize (if x.present then some (memImm false sc .rlx seg) else none) = im at hi ⊢
  have hq := quiet hx
  simp (decide := true) only [parseLane, parseMemory, lane, need, hi3, lo3, fnOf, ofPred, ofBar, Scope_code, withCode, Seg_code, parseMem_imm (wOk := false) (ordOk := false) hi rfl rfl, hi, hq, hf, HAppend.hAppend, bit_low, bit_high, extract_low, extract_high, bit_getLsbD, extract_all, extract_join, extract_extract, Nat.reduceSub, Nat.reduceAdd,
    BitVec.reduceExtractLsb', BitVec.reduceGetLsb, BitVec.reduceToNat, Nat.reduceLT, reduceIte, Bool.and_self, BEq.rfl, Bool.or_true, Bool.true_or, Bool.not_false, Bool.and_true]
theorem fence (x : Lx) (o : MemOrd) (sc : Scope) :
    Statement (.fence x o sc) := by
  intro hwf
  obtain ⟨hf, hx⟩ := wf_lane rfl rfl rfl hwf
  refine of_memory _ _ rfl rfl (lane_words _ x _ _ _ _ _ _ _ _ hx (by decide) ?_)
  have hi := imm_zero x.present
  have hq := quiet hx
  simp (decide := true) only [parseLane, parseMemory, lane, need, hi3, lo3, fnOf, ofPred, ofBar, MemOrd_code, withCode, Scope_code, hi, hq, HAppend.hAppend, bit_low, bit_high, extract_low, extract_high, bit_getLsbD, extract_all, extract_join, extract_extract, Nat.reduceSub, Nat.reduceAdd,
    BitVec.reduceExtractLsb', BitVec.reduceGetLsb, BitVec.reduceToNat, Nat.reduceLT, reduceIte, Bool.and_self, BEq.rfl, Bool.or_true, Bool.true_or, Bool.not_false, Bool.and_true]
theorem bra (x : Lx) (neg : Bool) (pred : Pred) (off : BitVec 35) :
    Statement (.bra x neg pred off) := by
  intro hwf
  obtain ⟨hf, hx⟩ := wf_lane rfl rfl rfl hwf
  have hf : ((x.present || fits 20 off) && !(neg && pred == 7)) = true := hf
  simp only [Bool.and_eq_true] at hf
  refine of_memory _ _ rfl rfl (lane_words _ x _ _ _ _ _ _ _ _ hx (by decide) ?_)
  have hq := quiet hx
  have hs : x.present = false → (off.extractLsb' 0 20).signExtend 35 = off := fun hp =>
    fits_eq (by simpa [hp] using hf.1)
  cases hp : x.present
  · simp (decide := true) only [parseLane, parseControl, lane, need, hi3, lo3, lb_guard hx, hq, hf, HAppend.hAppend, bit_low, bit_high, extract_low, extract_high, bit_getLsbD, extract_all, extract_join, extract_extract, Nat.reduceSub, Nat.reduceAdd,
      BitVec.reduceExtractLsb', BitVec.reduceGetLsb, BitVec.reduceToNat, Nat.reduceLT, reduceIte, Bool.and_self, BEq.rfl, Bool.or_true, Bool.true_or, Bool.not_false, Bool.and_true, Bool.false_eq_true, hp, hs hp]
  · simp (decide := true) only [parseLane, parseControl, lane, need, hi3, lo3, lb_guard hx, hq, hf, HAppend.hAppend, bit_low, bit_high, extract_low, extract_high, bit_getLsbD, extract_all, extract_join, extract_extract, Nat.reduceSub, Nat.reduceAdd,
      BitVec.reduceExtractLsb', BitVec.reduceGetLsb, BitVec.reduceToNat, Nat.reduceLT, reduceIte, Bool.and_self, BEq.rfl, Bool.or_true, Bool.true_or, Bool.not_false, Bool.and_true, Bool.false_eq_true, hp]
theorem call (x : Lx) (neg : Bool) (pred : Pred) (off : BitVec 35) :
    Statement (.call x neg pred off) := by
  intro hwf
  obtain ⟨hf, hx⟩ := wf_lane rfl rfl rfl hwf
  have hf : ((x.present || fits 20 off) && !(neg && pred == 7)) = true := hf
  simp only [Bool.and_eq_true] at hf
  refine of_memory _ _ rfl rfl (lane_words _ x _ _ _ _ _ _ _ _ hx (by decide) ?_)
  have hq := quiet hx
  have hs : x.present = false → (off.extractLsb' 0 20).signExtend 35 = off := fun hp =>
    fits_eq (by simpa [hp] using hf.1)
  cases hp : x.present
  · simp (decide := true) only [parseLane, parseControl, lane, need, hi3, lo3, lb_guard hx, hq, hf, HAppend.hAppend, bit_low, bit_high, extract_low, extract_high, bit_getLsbD, extract_all, extract_join, extract_extract, Nat.reduceSub, Nat.reduceAdd,
      BitVec.reduceExtractLsb', BitVec.reduceGetLsb, BitVec.reduceToNat, Nat.reduceLT, reduceIte, Bool.and_self, BEq.rfl, Bool.or_true, Bool.true_or, Bool.not_false, Bool.and_true, Bool.false_eq_true, hp, hs hp]
  · simp (decide := true) only [parseLane, parseControl, lane, need, hi3, lo3, lb_guard hx, hq, hf, HAppend.hAppend, bit_low, bit_high, extract_low, extract_high, bit_getLsbD, extract_all, extract_join, extract_extract, Nat.reduceSub, Nat.reduceAdd,
      BitVec.reduceExtractLsb', BitVec.reduceGetLsb, BitVec.reduceToNat, Nat.reduceLT, reduceIte, Bool.and_self, BEq.rfl, Bool.or_true, Bool.true_or, Bool.not_false, Bool.and_true, Bool.false_eq_true, hp]
theorem brx (x : Lx) (off : BitVec 27) (a : Reg) :
    Statement (.brx x off a) := by
  intro hwf
  obtain ⟨hf, hx⟩ := wf_lane rfl rfl rfl hwf
  have hf : (x.present || fits 12 off) = true := hf
  refine of_memory _ _ rfl rfl (lane_words _ x _ _ _ _ _ _ _ _ hx (by decide) ?_)
  have hq := quiet hx
  have hs : x.present = false → (off.extractLsb' 0 12).signExtend 27 = off := fun hp =>
    fits_eq (by simpa [hp] using hf)
  cases hp : x.present
  · simp (decide := true) only [parseLane, parseControl, lane, need, hi3, lo3, hq, hf, HAppend.hAppend, bit_low, bit_high, extract_low, extract_high, bit_getLsbD, extract_all, extract_join, extract_extract, Nat.reduceSub, Nat.reduceAdd,
      BitVec.reduceExtractLsb', BitVec.reduceGetLsb, BitVec.reduceToNat, Nat.reduceLT, reduceIte, Bool.and_self, BEq.rfl, Bool.or_true, Bool.true_or, Bool.not_false, Bool.and_true, Bool.false_eq_true, hp, hs hp]
  · simp (decide := true) only [parseLane, parseControl, lane, need, hi3, lo3, hq, hf, HAppend.hAppend, bit_low, bit_high, extract_low, extract_high, bit_getLsbD, extract_all, extract_join, extract_extract, Nat.reduceSub, Nat.reduceAdd,
      BitVec.reduceExtractLsb', BitVec.reduceGetLsb, BitVec.reduceToNat, Nat.reduceLT, reduceIte, Bool.and_self, BEq.rfl, Bool.or_true, Bool.true_or, Bool.not_false, Bool.and_true, Bool.false_eq_true, hp]
theorem callx (x : Lx) (off : BitVec 27) (a : Reg) :
    Statement (.callx x off a) := by
  intro hwf
  obtain ⟨hf, hx⟩ := wf_lane rfl rfl rfl hwf
  have hf : (x.present || fits 12 off) = true := hf
  refine of_memory _ _ rfl rfl (lane_words _ x _ _ _ _ _ _ _ _ hx (by decide) ?_)
  have hq := quiet hx
  have hs : x.present = false → (off.extractLsb' 0 12).signExtend 27 = off := fun hp =>
    fits_eq (by simpa [hp] using hf)
  cases hp : x.present
  · simp (decide := true) only [parseLane, parseControl, lane, need, hi3, lo3, hq, hf, HAppend.hAppend, bit_low, bit_high, extract_low, extract_high, bit_getLsbD, extract_all, extract_join, extract_extract, Nat.reduceSub, Nat.reduceAdd,
      BitVec.reduceExtractLsb', BitVec.reduceGetLsb, BitVec.reduceToNat, Nat.reduceLT, reduceIte, Bool.and_self, BEq.rfl, Bool.or_true, Bool.true_or, Bool.not_false, Bool.and_true, Bool.false_eq_true, hp, hs hp]
  · simp (decide := true) only [parseLane, parseControl, lane, need, hi3, lo3, hq, hf, HAppend.hAppend, bit_low, bit_high, extract_low, extract_high, bit_getLsbD, extract_all, extract_join, extract_extract, Nat.reduceSub, Nat.reduceAdd,
      BitVec.reduceExtractLsb', BitVec.reduceGetLsb, BitVec.reduceToNat, Nat.reduceLT, reduceIte, Bool.and_self, BEq.rfl, Bool.or_true, Bool.true_or, Bool.not_false, Bool.and_true, Bool.false_eq_true, hp]
theorem ret (x : Lx) (a : Reg) :
    Statement (.ret x a) := by
  intro hwf
  obtain ⟨hf, hx⟩ := wf_lane rfl rfl rfl hwf
  refine of_memory _ _ rfl rfl (lane_words _ x _ _ _ _ _ _ _ _ hx (by decide) ?_)
  have hi := imm_zero x.present
  have hq := quiet hx
  simp (decide := true) only [parseLane, parseControl, lane, need, hi3, lo3, fnOf, ofPred, ofBar, hi, hq, HAppend.hAppend, bit_low, bit_high, extract_low, extract_high, bit_getLsbD, extract_all, extract_join, extract_extract, Nat.reduceSub, Nat.reduceAdd,
    BitVec.reduceExtractLsb', BitVec.reduceGetLsb, BitVec.reduceToNat, Nat.reduceLT, reduceIte, Bool.and_self, BEq.rfl, Bool.or_true, Bool.true_or, Bool.not_false, Bool.and_true]
theorem exit (x : Lx) :
    Statement (.exit x) := by
  intro hwf
  obtain ⟨hf, hx⟩ := wf_lane rfl rfl rfl hwf
  refine of_memory _ _ rfl rfl (lane_words _ x _ _ _ _ _ _ _ _ hx (by decide) ?_)
  have hi := imm_zero x.present
  have hq := quiet hx
  simp (decide := true) only [parseLane, parseControl, lane, need, hi3, lo3, fnOf, ofPred, ofBar, hi, hq, HAppend.hAppend, bit_low, bit_high, extract_low, extract_high, bit_getLsbD, extract_all, extract_join, extract_extract, Nat.reduceSub, Nat.reduceAdd,
    BitVec.reduceExtractLsb', BitVec.reduceGetLsb, BitVec.reduceToNat, Nat.reduceLT, reduceIte, Bool.and_self, BEq.rfl, Bool.or_true, Bool.true_or, Bool.not_false, Bool.and_true]
theorem tail (x : Lx) :
    Statement (.tail x) := by
  intro hwf
  obtain ⟨hf, hx⟩ := wf_lane rfl rfl rfl hwf
  refine of_memory _ _ rfl rfl (lane_words _ x _ _ _ _ _ _ _ _ hx (by decide) ?_)
  have hi := imm_zero x.present
  have hq := quiet hx
  simp (decide := true) only [parseLane, parseControl, lane, need, hi3, lo3, fnOf, ofPred, ofBar, hi, hq, HAppend.hAppend, bit_low, bit_high, extract_low, extract_high, bit_getLsbD, extract_all, extract_join, extract_extract, Nat.reduceSub, Nat.reduceAdd,
    BitVec.reduceExtractLsb', BitVec.reduceGetLsb, BitVec.reduceToNat, Nat.reduceLT, reduceIte, Bool.and_self, BEq.rfl, Bool.or_true, Bool.true_or, Bool.not_false, Bool.and_true]
theorem rcvset (x : Lx) (off : BitVec 33) :
    Statement (.rcvset x off) := by
  intro hwf
  obtain ⟨hf, hx⟩ := wf_lane rfl rfl rfl hwf
  have hf : (x.present || fits 18 off) = true := hf
  refine of_memory _ _ rfl rfl (lane_words _ x _ _ _ _ _ _ _ _ hx (by decide) ?_)
  have hq := quiet hx
  have hs : x.present = false → (off.extractLsb' 0 18).signExtend 33 = off := fun hp =>
    fits_eq (by simpa [hp] using hf)
  cases hp : x.present
  · simp (decide := true) only [parseLane, parseControl, lane, need, hi3, lo3, hq, hf, HAppend.hAppend, bit_low, bit_high, extract_low, extract_high, bit_getLsbD, extract_all, extract_join, extract_extract, Nat.reduceSub, Nat.reduceAdd,
      BitVec.reduceExtractLsb', BitVec.reduceGetLsb, BitVec.reduceToNat, Nat.reduceLT, reduceIte, Bool.and_self, BEq.rfl, Bool.or_true, Bool.true_or, Bool.not_false, Bool.and_true, Bool.false_eq_true, hp, hs hp]
  · simp (decide := true) only [parseLane, parseControl, lane, need, hi3, lo3, hq, hf, HAppend.hAppend, bit_low, bit_high, extract_low, extract_high, bit_getLsbD, extract_all, extract_join, extract_extract, Nat.reduceSub, Nat.reduceAdd,
      BitVec.reduceExtractLsb', BitVec.reduceGetLsb, BitVec.reduceToNat, Nat.reduceLT, reduceIte, Bool.and_self, BEq.rfl, Bool.or_true, Bool.true_or, Bool.not_false, Bool.and_true, Bool.false_eq_true, hp]
theorem rcvwait (x : Lx) :
    Statement (.rcvwait x) := by
  intro hwf
  obtain ⟨hf, hx⟩ := wf_lane rfl rfl rfl hwf
  refine of_memory _ _ rfl rfl (lane_words _ x _ _ _ _ _ _ _ _ hx (by decide) ?_)
  have hi := imm_zero x.present
  have hq := quiet hx
  simp (decide := true) only [parseLane, parseControl, lane, need, hi3, lo3, fnOf, ofPred, ofBar, hi, hq, HAppend.hAppend, bit_low, bit_high, extract_low, extract_high, bit_getLsbD, extract_all, extract_join, extract_extract, Nat.reduceSub, Nat.reduceAdd,
    BitVec.reduceExtractLsb', BitVec.reduceGetLsb, BitVec.reduceToNat, Nat.reduceLT, reduceIte, Bool.and_self, BEq.rfl, Bool.or_true, Bool.true_or, Bool.not_false, Bool.and_true]
theorem spawn (x : Lx) (n : BitVec 4) (s : Reg) (pd : Pred) (a b : Reg) :
    Statement (.spawn x n s pd a b) := by
  intro hwf
  obtain ⟨hf, hx⟩ := wf_lane rfl rfl rfl hwf
  have hf : (decide (n.toNat ≤ 8) && (x.present || (n == 0 && s == 0))) = true := hf
  simp only [Bool.and_eq_true] at hf
  refine of_memory _ _ rfl rfl (lane_words _ x _ _ _ _ _ _ _ _ hx (by decide) ?_)
  have hi : (if x.present then some (0#5 ++ n ++ s) else none).getD 0 = (0#5 ++ n ++ s) :=
    imm_get _ _ _ (by cases hp : x.present <;> simp [hp] at hf ⊢ <;> simp [hf, imm2, mmImm, bit] <;> rfl)
  generalize (if x.present then some (0#5 ++ n ++ s) else none) = im at hi ⊢
  have hq := quiet hx
  simp (decide := true) only [parseLane, parseControl, lane, need, hi3, lo3, fnOf, ofPred, ofBar, hi, hq, hf, HAppend.hAppend, bit_low, bit_high, extract_low, extract_high, bit_getLsbD, extract_all, extract_join, extract_extract, Nat.reduceSub, Nat.reduceAdd,
    BitVec.reduceExtractLsb', BitVec.reduceGetLsb, BitVec.reduceToNat, Nat.reduceLT, reduceIte, Bool.and_self, BEq.rfl, Bool.or_true, Bool.true_or, Bool.not_false, Bool.and_true]
theorem jwait (x : Lx) (d a : Reg) :
    Statement (.jwait x d a) := by
  intro hwf
  obtain ⟨hf, hx⟩ := wf_lane rfl rfl rfl hwf
  refine of_memory _ _ rfl rfl (lane_words _ x _ _ _ _ _ _ _ _ hx (by decide) ?_)
  have hi := imm_zero x.present
  have hq := quiet hx
  simp (decide := true) only [parseLane, parseControl, lane, need, hi3, lo3, fnOf, ofPred, ofBar, hi, hq, HAppend.hAppend, bit_low, bit_high, extract_low, extract_high, bit_getLsbD, extract_all, extract_join, extract_extract, Nat.reduceSub, Nat.reduceAdd,
    BitVec.reduceExtractLsb', BitVec.reduceGetLsb, BitVec.reduceToNat, Nat.reduceLT, reduceIte, Bool.and_self, BEq.rfl, Bool.or_true, Bool.true_or, Bool.not_false, Bool.and_true]
theorem yield (x : Lx) :
    Statement (.yield x) := by
  intro hwf
  obtain ⟨hf, hx⟩ := wf_lane rfl rfl rfl hwf
  refine of_memory _ _ rfl rfl (lane_words _ x _ _ _ _ _ _ _ _ hx (by decide) ?_)
  have hi := imm_zero x.present
  have hq := quiet hx
  simp (decide := true) only [parseLane, parseControl, lane, need, hi3, lo3, fnOf, ofPred, ofBar, hi, hq, HAppend.hAppend, bit_low, bit_high, extract_low, extract_high, bit_getLsbD, extract_all, extract_join, extract_extract, Nat.reduceSub, Nat.reduceAdd,
    BitVec.reduceExtractLsb', BitVec.reduceGetLsb, BitVec.reduceToNat, Nat.reduceLT, reduceIte, Bool.and_self, BEq.rfl, Bool.or_true, Bool.true_or, Bool.not_false, Bool.and_true]
theorem trap (x : Lx) (n : BitVec 12) :
    Statement (.trap x n) := by
  intro hwf
  obtain ⟨hf, hx⟩ := wf_lane rfl rfl rfl hwf
  refine of_memory _ _ rfl rfl (lane_words _ x _ _ _ _ _ _ _ _ hx (by decide) ?_)
  have hi := imm_zero x.present
  have hq := quiet hx
  simp (decide := true) only [parseLane, parseControl, lane, need, hi3, lo3, fnOf, ofPred, ofBar, hi, hq, HAppend.hAppend, bit_low, bit_high, extract_low, extract_high, bit_getLsbD, extract_all, extract_join, extract_extract, Nat.reduceSub, Nat.reduceAdd,
    BitVec.reduceExtractLsb', BitVec.reduceGetLsb, BitVec.reduceToNat, Nat.reduceLT, reduceIte, Bool.and_self, BEq.rfl, Bool.or_true, Bool.true_or, Bool.not_false, Bool.and_true]
theorem brkpt (x : Lx) :
    Statement (.brkpt x) := by
  intro hwf
  obtain ⟨hf, hx⟩ := wf_lane rfl rfl rfl hwf
  refine of_memory _ _ rfl rfl (lane_words _ x _ _ _ _ _ _ _ _ hx (by decide) ?_)
  have hi := imm_zero x.present
  have hq := quiet hx
  simp (decide := true) only [parseLane, parseControl, lane, need, hi3, lo3, fnOf, ofPred, ofBar, hi, hq, HAppend.hAppend, bit_low, bit_high, extract_low, extract_high, bit_getLsbD, extract_all, extract_join, extract_extract, Nat.reduceSub, Nat.reduceAdd,
    BitVec.reduceExtractLsb', BitVec.reduceGetLsb, BitVec.reduceToNat, Nat.reduceLT, reduceIte, Bool.and_self, BEq.rfl, Bool.or_true, Bool.true_or, Bool.not_false, Bool.and_true]
theorem nop (x : Lx) :
    Statement (.nop x) := by
  intro hwf
  obtain ⟨hf, hx⟩ := wf_lane rfl rfl rfl hwf
  refine of_memory _ _ rfl rfl (lane_words _ x _ _ _ _ _ _ _ _ hx (by decide) ?_)
  have hi := imm_zero x.present
  have hq := quiet hx
  simp (decide := true) only [parseLane, parseControl, lane, need, hi3, lo3, fnOf, ofPred, ofBar, hi, hq, HAppend.hAppend, bit_low, bit_high, extract_low, extract_high, bit_getLsbD, extract_all, extract_join, extract_extract, Nat.reduceSub, Nat.reduceAdd,
    BitVec.reduceExtractLsb', BitVec.reduceGetLsb, BitVec.reduceToNat, Nat.reduceLT, reduceIte, Bool.and_self, BEq.rfl, Bool.or_true, Bool.true_or, Bool.not_false, Bool.and_true]
theorem sadd (e w : Bool) (d a b : Reg) :
    Statement (.sadd e w d a b) := by
  intro hwf
  refine of_uniform _ _ rfl rfl rfl (uniform_words _ _ _ _ _ _ _ ?_)
  simp (decide := true) only [parseUniform, uni, need, hi3, lo3, fnOf, ofPred, ofBar, HAppend.hAppend, bit_low, bit_high, extract_low, extract_high, bit_getLsbD, extract_all, extract_join, extract_extract, Nat.reduceSub, Nat.reduceAdd,
    BitVec.reduceExtractLsb', BitVec.reduceGetLsb, BitVec.reduceToNat, Nat.reduceLT, reduceIte, Bool.and_self, BEq.rfl, Bool.or_true, Bool.true_or, Bool.not_false, Bool.and_true]
theorem ssub (e w : Bool) (d a b : Reg) :
    Statement (.ssub e w d a b) := by
  intro hwf
  refine of_uniform _ _ rfl rfl rfl (uniform_words _ _ _ _ _ _ _ ?_)
  simp (decide := true) only [parseUniform, uni, need, hi3, lo3, fnOf, ofPred, ofBar, HAppend.hAppend, bit_low, bit_high, extract_low, extract_high, bit_getLsbD, extract_all, extract_join, extract_extract, Nat.reduceSub, Nat.reduceAdd,
    BitVec.reduceExtractLsb', BitVec.reduceGetLsb, BitVec.reduceToNat, Nat.reduceLT, reduceIte, Bool.and_self, BEq.rfl, Bool.or_true, Bool.true_or, Bool.not_false, Bool.and_true]
theorem smul (e w : Bool) (d a b : Reg) :
    Statement (.smul e w d a b) := by
  intro hwf
  refine of_uniform _ _ rfl rfl rfl (uniform_words _ _ _ _ _ _ _ ?_)
  simp (decide := true) only [parseUniform, uni, need, hi3, lo3, fnOf, ofPred, ofBar, HAppend.hAppend, bit_low, bit_high, extract_low, extract_high, bit_getLsbD, extract_all, extract_join, extract_extract, Nat.reduceSub, Nat.reduceAdd,
    BitVec.reduceExtractLsb', BitVec.reduceGetLsb, BitVec.reduceToNat, Nat.reduceLT, reduceIte, Bool.and_self, BEq.rfl, Bool.or_true, Bool.true_or, Bool.not_false, Bool.and_true]
theorem smulhi (e s w : Bool) (d a b : Reg) :
    Statement (.smulhi e s w d a b) := by
  intro hwf
  refine of_uniform _ _ rfl rfl rfl (uniform_words _ _ _ _ _ _ _ ?_)
  simp (decide := true) only [parseUniform, uni, need, hi3, lo3, fnOf, ofPred, ofBar, HAppend.hAppend, bit_low, bit_high, extract_low, extract_high, bit_getLsbD, extract_all, extract_join, extract_extract, Nat.reduceSub, Nat.reduceAdd,
    BitVec.reduceExtractLsb', BitVec.reduceGetLsb, BitVec.reduceToNat, Nat.reduceLT, reduceIte, Bool.and_self, BEq.rfl, Bool.or_true, Bool.true_or, Bool.not_false, Bool.and_true]
theorem sand (e w : Bool) (d a b : Reg) :
    Statement (.sand e w d a b) := by
  intro hwf
  refine of_uniform _ _ rfl rfl rfl (uniform_words _ _ _ _ _ _ _ ?_)
  simp (decide := true) only [parseUniform, uni, need, hi3, lo3, fnOf, ofPred, ofBar, HAppend.hAppend, bit_low, bit_high, extract_low, extract_high, bit_getLsbD, extract_all, extract_join, extract_extract, Nat.reduceSub, Nat.reduceAdd,
    BitVec.reduceExtractLsb', BitVec.reduceGetLsb, BitVec.reduceToNat, Nat.reduceLT, reduceIte, Bool.and_self, BEq.rfl, Bool.or_true, Bool.true_or, Bool.not_false, Bool.and_true]
theorem sor (e w : Bool) (d a b : Reg) :
    Statement (.sor e w d a b) := by
  intro hwf
  refine of_uniform _ _ rfl rfl rfl (uniform_words _ _ _ _ _ _ _ ?_)
  simp (decide := true) only [parseUniform, uni, need, hi3, lo3, fnOf, ofPred, ofBar, HAppend.hAppend, bit_low, bit_high, extract_low, extract_high, bit_getLsbD, extract_all, extract_join, extract_extract, Nat.reduceSub, Nat.reduceAdd,
    BitVec.reduceExtractLsb', BitVec.reduceGetLsb, BitVec.reduceToNat, Nat.reduceLT, reduceIte, Bool.and_self, BEq.rfl, Bool.or_true, Bool.true_or, Bool.not_false, Bool.and_true]
theorem sxor (e w : Bool) (d a b : Reg) :
    Statement (.sxor e w d a b) := by
  intro hwf
  refine of_uniform _ _ rfl rfl rfl (uniform_words _ _ _ _ _ _ _ ?_)
  simp (decide := true) only [parseUniform, uni, need, hi3, lo3, fnOf, ofPred, ofBar, HAppend.hAppend, bit_low, bit_high, extract_low, extract_high, bit_getLsbD, extract_all, extract_join, extract_extract, Nat.reduceSub, Nat.reduceAdd,
    BitVec.reduceExtractLsb', BitVec.reduceGetLsb, BitVec.reduceToNat, Nat.reduceLT, reduceIte, Bool.and_self, BEq.rfl, Bool.or_true, Bool.true_or, Bool.not_false, Bool.and_true]
theorem sshl (e imm w : Bool) (d a b : Reg) :
    Statement (.sshl e imm w d a b) := by
  intro hwf
  refine of_uniform _ _ rfl rfl rfl (uniform_words _ _ _ _ _ _ _ ?_)
  simp (decide := true) only [parseUniform, uni, need, hi3, lo3, fnOf, ofPred, ofBar, HAppend.hAppend, bit_low, bit_high, extract_low, extract_high, bit_getLsbD, extract_all, extract_join, extract_extract, Nat.reduceSub, Nat.reduceAdd,
    BitVec.reduceExtractLsb', BitVec.reduceGetLsb, BitVec.reduceToNat, Nat.reduceLT, reduceIte, Bool.and_self, BEq.rfl, Bool.or_true, Bool.true_or, Bool.not_false, Bool.and_true]
theorem sshr (e imm w : Bool) (d a b : Reg) :
    Statement (.sshr e imm w d a b) := by
  intro hwf
  refine of_uniform _ _ rfl rfl rfl (uniform_words _ _ _ _ _ _ _ ?_)
  simp (decide := true) only [parseUniform, uni, need, hi3, lo3, fnOf, ofPred, ofBar, HAppend.hAppend, bit_low, bit_high, extract_low, extract_high, bit_getLsbD, extract_all, extract_join, extract_extract, Nat.reduceSub, Nat.reduceAdd,
    BitVec.reduceExtractLsb', BitVec.reduceGetLsb, BitVec.reduceToNat, Nat.reduceLT, reduceIte, Bool.and_self, BEq.rfl, Bool.or_true, Bool.true_or, Bool.not_false, Bool.and_true]
theorem ssar (e imm w : Bool) (d a b : Reg) :
    Statement (.ssar e imm w d a b) := by
  intro hwf
  refine of_uniform _ _ rfl rfl rfl (uniform_words _ _ _ _ _ _ _ ?_)
  simp (decide := true) only [parseUniform, uni, need, hi3, lo3, fnOf, ofPred, ofBar, HAppend.hAppend, bit_low, bit_high, extract_low, extract_high, bit_getLsbD, extract_all, extract_join, extract_extract, Nat.reduceSub, Nat.reduceAdd,
    BitVec.reduceExtractLsb', BitVec.reduceGetLsb, BitVec.reduceToNat, Nat.reduceLT, reduceIte, Bool.and_self, BEq.rfl, Bool.or_true, Bool.true_or, Bool.not_false, Bool.and_true]
theorem smin (e s w : Bool) (d a b : Reg) :
    Statement (.smin e s w d a b) := by
  intro hwf
  refine of_uniform _ _ rfl rfl rfl (uniform_words _ _ _ _ _ _ _ ?_)
  simp (decide := true) only [parseUniform, uni, need, hi3, lo3, fnOf, ofPred, ofBar, HAppend.hAppend, bit_low, bit_high, extract_low, extract_high, bit_getLsbD, extract_all, extract_join, extract_extract, Nat.reduceSub, Nat.reduceAdd,
    BitVec.reduceExtractLsb', BitVec.reduceGetLsb, BitVec.reduceToNat, Nat.reduceLT, reduceIte, Bool.and_self, BEq.rfl, Bool.or_true, Bool.true_or, Bool.not_false, Bool.and_true]
theorem smax (e s w : Bool) (d a b : Reg) :
    Statement (.smax e s w d a b) := by
  intro hwf
  refine of_uniform _ _ rfl rfl rfl (uniform_words _ _ _ _ _ _ _ ?_)
  simp (decide := true) only [parseUniform, uni, need, hi3, lo3, fnOf, ofPred, ofBar, HAppend.hAppend, bit_low, bit_high, extract_low, extract_high, bit_getLsbD, extract_all, extract_join, extract_extract, Nat.reduceSub, Nat.reduceAdd,
    BitVec.reduceExtractLsb', BitVec.reduceGetLsb, BitVec.reduceToNat, Nat.reduceLT, reduceIte, Bool.and_self, BEq.rfl, Bool.or_true, Bool.true_or, Bool.not_false, Bool.and_true]
theorem smov (e w : Bool) (d a : Reg) :
    Statement (.smov e w d a) := by
  intro hwf
  refine of_uniform _ _ rfl rfl rfl (uniform_words _ _ _ _ _ _ _ ?_)
  simp (decide := true) only [parseUniform, uni, need, hi3, lo3, fnOf, ofPred, ofBar, HAppend.hAppend, bit_low, bit_high, extract_low, extract_high, bit_getLsbD, extract_all, extract_join, extract_extract, Nat.reduceSub, Nat.reduceAdd,
    BitVec.reduceExtractLsb', BitVec.reduceGetLsb, BitVec.reduceToNat, Nat.reduceLT, reduceIte, Bool.and_self, BEq.rfl, Bool.or_true, Bool.true_or, Bool.not_false, Bool.and_true]
theorem simm (e : Bool) (d : Reg) (v : BitVec 18) :
    Statement (.simm e d v) := by
  intro hwf
  refine of_uniform _ _ rfl rfl rfl (uniform_words _ _ _ _ _ _ _ ?_)
  simp (decide := true) only [parseUniform, uni, need, hi3, lo3, fnOf, ofPred, ofBar, HAppend.hAppend, bit_low, bit_high, extract_low, extract_high, bit_getLsbD, extract_all, extract_join, extract_extract, Nat.reduceSub, Nat.reduceAdd,
    BitVec.reduceExtractLsb', BitVec.reduceGetLsb, BitVec.reduceToNat, Nat.reduceLT, reduceIte, Bool.and_self, BEq.rfl, Bool.or_true, Bool.true_or, Bool.not_false, Bool.and_true]
theorem simmh (e : Bool) (d : Reg) (v : BitVec 16) :
    Statement (.simmh e d v) := by
  intro hwf
  refine of_uniform _ _ rfl rfl rfl (uniform_words _ _ _ _ _ _ _ ?_)
  simp (decide := true) only [parseUniform, uni, need, hi3, lo3, fnOf, ofPred, ofBar, imm16, HAppend.hAppend, bit_low, bit_high, extract_low, extract_high, bit_getLsbD, extract_all, extract_join, extract_extract, Nat.reduceSub, Nat.reduceAdd,
    BitVec.reduceExtractLsb', BitVec.reduceGetLsb, BitVec.reduceToNat, Nat.reduceLT, reduceIte, Bool.and_self, BEq.rfl, Bool.or_true, Bool.true_or, Bool.not_false, Bool.and_true]
theorem scmp (e : Bool) (c : Cond) (s w : Bool) (cd : Pred) (a b : Reg) :
    Statement (.scmp e c s w cd a b) := by
  intro hwf
  have hf : (c.isInteger) = true := wf_fields hwf
  refine of_uniform _ _ rfl rfl rfl (uniform_words _ _ _ _ _ _ _ ?_)
  simp (decide := true) only [parseUniform, uni, need, hi3, lo3, fnOf, ofPred, ofBar, Cond_code, integer_eq, hf, HAppend.hAppend, bit_low, bit_high, extract_low, extract_high, bit_getLsbD, extract_all, extract_join, extract_extract, Nat.reduceSub, Nat.reduceAdd,
    BitVec.reduceExtractLsb', BitVec.reduceGetLsb, BitVec.reduceToNat, Nat.reduceLT, reduceIte, Bool.and_self, BEq.rfl, Bool.or_true, Bool.true_or, Bool.not_false, Bool.and_true]
theorem ssel (e w neg : Bool) (cn : Pred) (d a b : Reg) :
    Statement (.ssel e w neg cn d a b) := by
  intro hwf
  refine of_uniform _ _ rfl rfl rfl (uniform_words _ _ _ _ _ _ _ ?_)
  simp (decide := true) only [parseUniform, uni, need, hi3, lo3, fnOf, ofPred, ofBar, HAppend.hAppend, bit_low, bit_high, extract_low, extract_high, bit_getLsbD, extract_all, extract_join, extract_extract, Nat.reduceSub, Nat.reduceAdd,
    BitVec.reduceExtractLsb', BitVec.reduceGetLsb, BitVec.reduceToNat, Nat.reduceLT, reduceIte, Bool.and_self, BEq.rfl, Bool.or_true, Bool.true_or, Bool.not_false, Bool.and_true]
theorem sld (e : Bool) (sz : USize) (seg : Seg) (off : BitVec 6) (t a : Reg) :
    Statement (.sld e sz seg off t a) := by
  intro hwf
  have hf : (seg != .priv) = true := wf_fields hwf
  refine of_uniform _ _ rfl rfl rfl (uniform_words _ _ _ _ _ _ _ ?_)
  simp (decide := true) only [parseUniform, uni, need, hi3, lo3, fnOf, ofPred, ofBar, USize_code, withCode, Seg_code, hf, HAppend.hAppend, bit_low, bit_high, extract_low, extract_high, bit_getLsbD, extract_all, extract_join, extract_extract, Nat.reduceSub, Nat.reduceAdd,
    BitVec.reduceExtractLsb', BitVec.reduceGetLsb, BitVec.reduceToNat, Nat.reduceLT, reduceIte, Bool.and_self, BEq.rfl, Bool.or_true, Bool.true_or, Bool.not_false, Bool.and_true]
theorem sst (e : Bool) (sz : USize) (seg : Seg) (off : BitVec 6) (t a : Reg) :
    Statement (.sst e sz seg off t a) := by
  intro hwf
  have hf : (seg != .priv) = true := wf_fields hwf
  refine of_uniform _ _ rfl rfl rfl (uniform_words _ _ _ _ _ _ _ ?_)
  simp (decide := true) only [parseUniform, uni, need, hi3, lo3, fnOf, ofPred, ofBar, USize_code, withCode, Seg_code, hf, HAppend.hAppend, bit_low, bit_high, extract_low, extract_high, bit_getLsbD, extract_all, extract_join, extract_extract, Nat.reduceSub, Nat.reduceAdd,
    BitVec.reduceExtractLsb', BitVec.reduceGetLsb, BitVec.reduceToNat, Nat.reduceLT, reduceIte, Bool.and_self, BEq.rfl, Bool.or_true, Bool.true_or, Bool.not_false, Bool.and_true]
theorem satom (e : Bool) (op : AtomOp) (ar : Bool) (ty : BitVec 2) (d a b : Reg) :
    Statement (.satom e op ar ty d a b) := by
  intro hwf
  have hf : (op != .inc || ty == 0 || ty == 2) = true := wf_fields hwf
  refine of_uniform _ _ rfl rfl rfl (uniform_words _ _ _ _ _ _ _ ?_)
  simp (decide := true) only [parseUniform, uni, need, hi3, lo3, fnOf, ofPred, ofBar, AtomOp_code, satom_allowed hf, HAppend.hAppend, bit_low, bit_high, extract_low, extract_high, bit_getLsbD, extract_all, extract_join, extract_extract, Nat.reduceSub, Nat.reduceAdd,
    BitVec.reduceExtractLsb', BitVec.reduceGetLsb, BitVec.reduceToNat, Nat.reduceLT, reduceIte, Bool.and_self, BEq.rfl, Bool.or_true, Bool.true_or, Bool.not_false, Bool.and_true]
theorem rdlane (e f w : Bool) (d a b : Reg) :
    Statement (.rdlane e f w d a b) := by
  intro hwf
  refine of_uniform _ _ rfl rfl rfl (uniform_words _ _ _ _ _ _ _ ?_)
  simp (decide := true) only [parseUniform, uni, need, hi3, lo3, fnOf, ofPred, ofBar, HAppend.hAppend, bit_low, bit_high, extract_low, extract_high, bit_getLsbD, extract_all, extract_join, extract_extract, Nat.reduceSub, Nat.reduceAdd,
    BitVec.reduceExtractLsb', BitVec.reduceGetLsb, BitVec.reduceToNat, Nat.reduceLT, reduceIte, Bool.and_self, BEq.rfl, Bool.or_true, Bool.true_or, Bool.not_false, Bool.and_true]
theorem jmp (e : Bool) (off : BitVec 24) :
    Statement (.jmp e off) := by
  intro hwf
  refine of_uniform _ _ rfl rfl rfl (uniform_words _ _ _ _ _ _ _ ?_)
  simp (decide := true) only [parseUniform, uni, need, hi3, lo3, fnOf, ofPred, ofBar, HAppend.hAppend, bit_low, bit_high, extract_low, extract_high, bit_getLsbD, extract_all, extract_join, extract_extract, Nat.reduceSub, Nat.reduceAdd,
    BitVec.reduceExtractLsb', BitVec.reduceGetLsb, BitVec.reduceToNat, Nat.reduceLT, reduceIte, Bool.and_self, BEq.rfl, Bool.or_true, Bool.true_or, Bool.not_false, Bool.and_true]
theorem jc (e neg : Bool) (c : Pred) (off : BitVec 20) :
    Statement (.jc e neg c off) := by
  intro hwf
  have hf : (!(neg && c == 7)) = true := wf_fields hwf
  refine of_uniform _ _ rfl rfl rfl (uniform_words _ _ _ _ _ _ _ ?_)
  simp (decide := true) only [parseUniform, uni, need, hi3, lo3, fnOf, ofPred, ofBar, hf, HAppend.hAppend, bit_low, bit_high, extract_low, extract_high, bit_getLsbD, extract_all, extract_join, extract_extract, Nat.reduceSub, Nat.reduceAdd,
    BitVec.reduceExtractLsb', BitVec.reduceGetLsb, BitVec.reduceToNat, Nat.reduceLT, reduceIte, Bool.and_self, BEq.rfl, Bool.or_true, Bool.true_or, Bool.not_false, Bool.and_true]
theorem jx (e : Bool) (a : Reg) :
    Statement (.jx e a) := by
  intro hwf
  refine of_uniform _ _ rfl rfl rfl (uniform_words _ _ _ _ _ _ _ ?_)
  simp (decide := true) only [parseUniform, uni, need, hi3, lo3, fnOf, ofPred, ofBar, HAppend.hAppend, bit_low, bit_high, extract_low, extract_high, bit_getLsbD, extract_all, extract_join, extract_extract, Nat.reduceSub, Nat.reduceAdd,
    BitVec.reduceExtractLsb', BitVec.reduceGetLsb, BitVec.reduceToNat, Nat.reduceLT, reduceIte, Bool.and_self, BEq.rfl, Bool.or_true, Bool.true_or, Bool.not_false, Bool.and_true]
theorem binit (e fm : Bool) (bn : BitVec 4) (a : Reg) :
    Statement (.binit e fm bn a) := by
  intro hwf
  refine of_uniform _ _ rfl rfl rfl (uniform_words _ _ _ _ _ _ _ ?_)
  simp (decide := true) only [parseUniform, uni, need, hi3, lo3, fnOf, ofPred, ofBar, HAppend.hAppend, bit_low, bit_high, extract_low, extract_high, bit_getLsbD, extract_all, extract_join, extract_extract, Nat.reduceSub, Nat.reduceAdd,
    BitVec.reduceExtractLsb', BitVec.reduceGetLsb, BitVec.reduceToNat, Nat.reduceLT, reduceIte, Bool.and_self, BEq.rfl, Bool.or_true, Bool.true_or, Bool.not_false, Bool.and_true]
theorem barrive (e : Bool) (bn : BitVec 4) (tx : Option Reg) :
    Statement (.barrive e bn tx) := by
  intro hwf
  refine of_uniform _ _ rfl rfl rfl (uniform_words _ _ _ _ _ _ _ ?_)
  simp (decide := true) only [parseUniform, uni, need, hi3, lo3, fnOf, ofPred, ofBar, some_getD, some_or_zero, HAppend.hAppend, bit_low, bit_high, extract_low, extract_high, bit_getLsbD, extract_all, extract_join, extract_extract, Nat.reduceSub, Nat.reduceAdd,
    BitVec.reduceExtractLsb', BitVec.reduceGetLsb, BitVec.reduceToNat, Nat.reduceLT, reduceIte, Bool.and_self, BEq.rfl, Bool.or_true, Bool.true_or, Bool.not_false, Bool.and_true]
theorem bwait (e : Bool) (bn : BitVec 4) (a : Reg) :
    Statement (.bwait e bn a) := by
  intro hwf
  refine of_uniform _ _ rfl rfl rfl (uniform_words _ _ _ _ _ _ _ ?_)
  simp (decide := true) only [parseUniform, uni, need, hi3, lo3, fnOf, ofPred, ofBar, HAppend.hAppend, bit_low, bit_high, extract_low, extract_high, bit_getLsbD, extract_all, extract_join, extract_extract, Nat.reduceSub, Nat.reduceAdd,
    BitVec.reduceExtractLsb', BitVec.reduceGetLsb, BitVec.reduceToNat, Nat.reduceLT, reduceIte, Bool.and_self, BEq.rfl, Bool.or_true, Bool.true_or, Bool.not_false, Bool.and_true]
theorem btest (e : Bool) (cd : Pred) (bn : BitVec 4) (a : Reg) :
    Statement (.btest e cd bn a) := by
  intro hwf
  refine of_uniform _ _ rfl rfl rfl (uniform_words _ _ _ _ _ _ _ ?_)
  simp (decide := true) only [parseUniform, uni, need, hi3, lo3, fnOf, ofPred, ofBar, HAppend.hAppend, bit_low, bit_high, extract_low, extract_high, bit_getLsbD, extract_all, extract_join, extract_extract, Nat.reduceSub, Nat.reduceAdd,
    BitVec.reduceExtractLsb', BitVec.reduceGetLsb, BitVec.reduceToNat, Nat.reduceLT, reduceIte, Bool.and_self, BEq.rfl, Bool.or_true, Bool.true_or, Bool.not_false, Bool.and_true]
theorem bexpect (e : Bool) (bn : BitVec 4) (a : Reg) :
    Statement (.bexpect e bn a) := by
  intro hwf
  refine of_uniform _ _ rfl rfl rfl (uniform_words _ _ _ _ _ _ _ ?_)
  simp (decide := true) only [parseUniform, uni, need, hi3, lo3, fnOf, ofPred, ofBar, HAppend.hAppend, bit_low, bit_high, extract_low, extract_high, bit_getLsbD, extract_all, extract_join, extract_extract, Nat.reduceSub, Nat.reduceAdd,
    BitVec.reduceExtractLsb', BitVec.reduceGetLsb, BitVec.reduceToNat, Nat.reduceLT, reduceIte, Bool.and_self, BEq.rfl, Bool.or_true, Bool.true_or, Bool.not_false, Bool.and_true]
theorem cbar (e : Bool) :
    Statement (.cbar e) := by
  intro hwf
  refine of_uniform _ _ rfl rfl rfl (uniform_words _ _ _ _ _ _ _ ?_)
  simp (decide := true) only [parseUniform, uni, need, hi3, lo3, fnOf, ofPred, ofBar, HAppend.hAppend, bit_low, bit_high, extract_low, extract_high, bit_getLsbD, extract_all, extract_join, extract_extract, Nat.reduceSub, Nat.reduceAdd,
    BitVec.reduceExtractLsb', BitVec.reduceGetLsb, BitVec.reduceToNat, Nat.reduceLT, reduceIte, Bool.and_self, BEq.rfl, Bool.or_true, Bool.true_or, Bool.not_false, Bool.and_true]
theorem wait (e : Bool) (n0 n1 n2 n3 : BitVec 6) :
    Statement (.wait e n0 n1 n2 n3) := by
  intro hwf
  refine of_uniform _ _ rfl rfl rfl (uniform_words _ _ _ _ _ _ _ ?_)
  simp (decide := true) only [parseUniform, uni, need, hi3, lo3, fnOf, ofPred, ofBar, HAppend.hAppend, bit_low, bit_high, extract_low, extract_high, bit_getLsbD, extract_all, extract_join, extract_extract, Nat.reduceSub, Nat.reduceAdd,
    BitVec.reduceExtractLsb', BitVec.reduceGetLsb, BitVec.reduceToNat, Nat.reduceLT, reduceIte, Bool.and_self, BEq.rfl, Bool.or_true, Bool.true_or, Bool.not_false, Bool.and_true]
theorem claim (e : Bool) (n : BitVec 3) :
    Statement (.claim e n) := by
  intro hwf
  have hf : (n != 0) = true := wf_fields hwf
  refine of_uniform _ _ rfl rfl rfl (uniform_words _ _ _ _ _ _ _ ?_)
  simp (decide := true) only [parseUniform, uni, need, hi3, lo3, fnOf, ofPred, ofBar, hf, HAppend.hAppend, bit_low, bit_high, extract_low, extract_high, bit_getLsbD, extract_all, extract_join, extract_extract, Nat.reduceSub, Nat.reduceAdd,
    BitVec.reduceExtractLsb', BitVec.reduceGetLsb, BitVec.reduceToNat, Nat.reduceLT, reduceIte, Bool.and_self, BEq.rfl, Bool.or_true, Bool.true_or, Bool.not_false, Bool.and_true]
theorem give (e : Bool) (n : BitVec 3) :
    Statement (.give e n) := by
  intro hwf
  have hf : (n != 0) = true := wf_fields hwf
  refine of_uniform _ _ rfl rfl rfl (uniform_words _ _ _ _ _ _ _ ?_)
  simp (decide := true) only [parseUniform, uni, need, hi3, lo3, fnOf, ofPred, ofBar, hf, HAppend.hAppend, bit_low, bit_high, extract_low, extract_high, bit_getLsbD, extract_all, extract_join, extract_extract, Nat.reduceSub, Nat.reduceAdd,
    BitVec.reduceExtractLsb', BitVec.reduceGetLsb, BitVec.reduceToNat, Nat.reduceLT, reduceIte, Bool.and_self, BEq.rfl, Bool.or_true, Bool.true_or, Bool.not_false, Bool.and_true]
theorem qtryPop (e : Bool) (cd : Pred) (d : Reg) (q : BitVec 2) :
    Statement (.qtryPop e cd d q) := by
  intro hwf
  refine of_uniform _ _ rfl rfl rfl (uniform_words _ _ _ _ _ _ _ ?_)
  simp (decide := true) only [parseUniform, uni, need, hi3, lo3, fnOf, ofPred, ofBar, HAppend.hAppend, bit_low, bit_high, extract_low, extract_high, bit_getLsbD, extract_all, extract_join, extract_extract, Nat.reduceSub, Nat.reduceAdd,
    BitVec.reduceExtractLsb', BitVec.reduceGetLsb, BitVec.reduceToNat, Nat.reduceLT, reduceIte, Bool.and_self, BEq.rfl, Bool.or_true, Bool.true_or, Bool.not_false, Bool.and_true]
theorem qtryPush (e : Bool) (cd : Pred) (q : BitVec 2) (a : Reg) :
    Statement (.qtryPush e cd q a) := by
  intro hwf
  refine of_uniform _ _ rfl rfl rfl (uniform_words _ _ _ _ _ _ _ ?_)
  simp (decide := true) only [parseUniform, uni, need, hi3, lo3, fnOf, ofPred, ofBar, HAppend.hAppend, bit_low, bit_high, extract_low, extract_high, bit_getLsbD, extract_all, extract_join, extract_extract, Nat.reduceSub, Nat.reduceAdd,
    BitVec.reduceExtractLsb', BitVec.reduceGetLsb, BitVec.reduceToNat, Nat.reduceLT, reduceIte, Bool.and_self, BEq.rfl, Bool.or_true, Bool.true_or, Bool.not_false, Bool.and_true]
theorem tlrd (e : Bool) (g : Engine) (d : Reg) :
    Statement (.tlrd e g d) := by
  intro hwf
  refine of_uniform _ _ rfl rfl rfl (uniform_words _ _ _ _ _ _ _ ?_)
  simp (decide := true) only [parseUniform, uni, need, hi3, lo3, fnOf, ofPred, ofBar, Engine_code, HAppend.hAppend, bit_low, bit_high, extract_low, extract_high, bit_getLsbD, extract_all, extract_join, extract_extract, Nat.reduceSub, Nat.reduceAdd,
    BitVec.reduceExtractLsb', BitVec.reduceGetLsb, BitVec.reduceToNat, Nat.reduceLT, reduceIte, Bool.and_self, BEq.rfl, Bool.or_true, Bool.true_or, Bool.not_false, Bool.and_true]
theorem tlwait (e : Bool) (g : Engine) (a : Reg) :
    Statement (.tlwait e g a) := by
  intro hwf
  refine of_uniform _ _ rfl rfl rfl (uniform_words _ _ _ _ _ _ _ ?_)
  simp (decide := true) only [parseUniform, uni, need, hi3, lo3, fnOf, ofPred, ofBar, Engine_code, HAppend.hAppend, bit_low, bit_high, extract_low, extract_high, bit_getLsbD, extract_all, extract_join, extract_extract, Nat.reduceSub, Nat.reduceAdd,
    BitVec.reduceExtractLsb', BitVec.reduceGetLsb, BitVec.reduceToNat, Nat.reduceLT, reduceIte, Bool.and_self, BEq.rfl, Bool.or_true, Bool.true_or, Bool.not_false, Bool.and_true]
theorem tagpub (e : Bool) (a b : Reg) :
    Statement (.tagpub e a b) := by
  intro hwf
  refine of_uniform _ _ rfl rfl rfl (uniform_words _ _ _ _ _ _ _ ?_)
  simp (decide := true) only [parseUniform, uni, need, hi3, lo3, fnOf, ofPred, ofBar, HAppend.hAppend, bit_low, bit_high, extract_low, extract_high, bit_getLsbD, extract_all, extract_join, extract_extract, Nat.reduceSub, Nat.reduceAdd,
    BitVec.reduceExtractLsb', BitVec.reduceGetLsb, BitVec.reduceToNat, Nat.reduceLT, reduceIte, Bool.and_self, BEq.rfl, Bool.or_true, Bool.true_or, Bool.not_false, Bool.and_true]
theorem tagrd (e : Bool) (d a b : Reg) :
    Statement (.tagrd e d a b) := by
  intro hwf
  refine of_uniform _ _ rfl rfl rfl (uniform_words _ _ _ _ _ _ _ ?_)
  simp (decide := true) only [parseUniform, uni, need, hi3, lo3, fnOf, ofPred, ofBar, HAppend.hAppend, bit_low, bit_high, extract_low, extract_high, bit_getLsbD, extract_all, extract_join, extract_extract, Nat.reduceSub, Nat.reduceAdd,
    BitVec.reduceExtractLsb', BitVec.reduceGetLsb, BitVec.reduceToNat, Nat.reduceLT, reduceIte, Bool.and_self, BEq.rfl, Bool.or_true, Bool.true_or, Bool.not_false, Bool.and_true]
theorem tqpush (e : Bool) (cd : Pred) (a b : Reg) :
    Statement (.tqpush e cd a b) := by
  intro hwf
  refine of_uniform _ _ rfl rfl rfl (uniform_words _ _ _ _ _ _ _ ?_)
  simp (decide := true) only [parseUniform, uni, need, hi3, lo3, fnOf, ofPred, ofBar, HAppend.hAppend, bit_low, bit_high, extract_low, extract_high, bit_getLsbD, extract_all, extract_join, extract_extract, Nat.reduceSub, Nat.reduceAdd,
    BitVec.reduceExtractLsb', BitVec.reduceGetLsb, BitVec.reduceToNat, Nat.reduceLT, reduceIte, Bool.and_self, BEq.rfl, Bool.or_true, Bool.true_or, Bool.not_false, Bool.and_true]
theorem tqtake (e : Bool) (cd : Pred) (a b : Reg) :
    Statement (.tqtake e cd a b) := by
  intro hwf
  refine of_uniform _ _ rfl rfl rfl (uniform_words _ _ _ _ _ _ _ ?_)
  simp (decide := true) only [parseUniform, uni, need, hi3, lo3, fnOf, ofPred, ofBar, HAppend.hAppend, bit_low, bit_high, extract_low, extract_high, bit_getLsbD, extract_all, extract_join, extract_extract, Nat.reduceSub, Nat.reduceAdd,
    BitVec.reduceExtractLsb', BitVec.reduceGetLsb, BitVec.reduceToNat, Nat.reduceLT, reduceIte, Bool.and_self, BEq.rfl, Bool.or_true, Bool.true_or, Bool.not_false, Bool.and_true]
theorem ordwait (e : Bool) :
    Statement (.ordwait e) := by
  intro hwf
  refine of_uniform _ _ rfl rfl rfl (uniform_words _ _ _ _ _ _ _ ?_)
  simp (decide := true) only [parseUniform, uni, need, hi3, lo3, fnOf, ofPred, ofBar, HAppend.hAppend, bit_low, bit_high, extract_low, extract_high, bit_getLsbD, extract_all, extract_join, extract_extract, Nat.reduceSub, Nat.reduceAdd,
    BitVec.reduceExtractLsb', BitVec.reduceGetLsb, BitVec.reduceToNat, Nat.reduceLT, reduceIte, Bool.and_self, BEq.rfl, Bool.or_true, Bool.true_or, Bool.not_false, Bool.and_true]
theorem rdsr (e : Bool) (d : Reg) (sr : USr) :
    Statement (.rdsr e d sr) := by
  intro hwf
  refine of_uniform _ _ rfl rfl rfl (uniform_words _ _ _ _ _ _ _ ?_)
  simp (decide := true) only [parseUniform, uni, need, hi3, lo3, fnOf, ofPred, ofBar, USr_code, withCode, sr_high, sr_low, HAppend.hAppend, bit_low, bit_high, extract_low, extract_high, bit_getLsbD, extract_all, extract_join, extract_extract, Nat.reduceSub, Nat.reduceAdd,
    BitVec.reduceExtractLsb', BitVec.reduceGetLsb, BitVec.reduceToNat, Nat.reduceLT, reduceIte, Bool.and_self, BEq.rfl, Bool.or_true, Bool.true_or, Bool.not_false, Bool.and_true]
theorem wrsr (e : Bool) (sr : USr) (d : Reg) :
    Statement (.wrsr e sr d) := by
  intro hwf
  have hf : (sr == .numctl || sr == .numflags || sr == .fpflags || sr == .lsconf) = true := wf_fields hwf
  refine of_uniform _ _ rfl rfl rfl (uniform_words _ _ _ _ _ _ _ ?_)
  simp (decide := true) only [parseUniform, uni, need, hi3, lo3, fnOf, ofPred, ofBar, USr_code, withCode, sr_high, sr_low, writable_ok hf, HAppend.hAppend, bit_low, bit_high, extract_low, extract_high, bit_getLsbD, extract_all, extract_join, extract_extract, Nat.reduceSub, Nat.reduceAdd,
    BitVec.reduceExtractLsb', BitVec.reduceGetLsb, BitVec.reduceToNat, Nat.reduceLT, reduceIte, Bool.and_self, BEq.rfl, Bool.or_true, Bool.true_or, Bool.not_false, Bool.and_true]
theorem segld (e : Bool) (k : BitVec 3) (a : Reg) :
    Statement (.segld e k a) := by
  intro hwf
  refine of_uniform _ _ rfl rfl rfl (uniform_words _ _ _ _ _ _ _ ?_)
  simp (decide := true) only [parseUniform, uni, need, hi3, lo3, fnOf, ofPred, ofBar, HAppend.hAppend, bit_low, bit_high, extract_low, extract_high, bit_getLsbD, extract_all, extract_join, extract_extract, Nat.reduceSub, Nat.reduceAdd,
    BitVec.reduceExtractLsb', BitVec.reduceGetLsb, BitVec.reduceToNat, Nat.reduceLT, reduceIte, Bool.and_self, BEq.rfl, Bool.or_true, Bool.true_or, Bool.not_false, Bool.and_true]
theorem icinv (e : Bool) (sc : Scope) (a b : Reg) :
    Statement (.icinv e sc a b) := by
  intro hwf
  have hf : (sc == .core || sc == .cluster || sc == .die || sc == .device) = true := wf_fields hwf
  refine of_uniform _ _ rfl rfl rfl (uniform_words _ _ _ _ _ _ _ ?_)
  simp (decide := true) only [parseUniform, uni, need, hi3, lo3, fnOf, ofPred, ofBar, Scope_code, withCode, icinv_scope, hf, HAppend.hAppend, bit_low, bit_high, extract_low, extract_high, bit_getLsbD, extract_all, extract_join, extract_extract, Nat.reduceSub, Nat.reduceAdd,
    BitVec.reduceExtractLsb', BitVec.reduceGetLsb, BitVec.reduceToNat, Nat.reduceLT, reduceIte, Bool.and_self, BEq.rfl, Bool.or_true, Bool.true_or, Bool.not_false, Bool.and_true]
theorem tlbinvPage (e : Bool) (a : Reg) :
    Statement (.tlbinvPage e a) := by
  intro hwf
  refine of_uniform _ _ rfl rfl rfl (uniform_words _ _ _ _ _ _ _ ?_)
  simp (decide := true) only [parseUniform, uni, need, hi3, lo3, fnOf, ofPred, ofBar, HAppend.hAppend, bit_low, bit_high, extract_low, extract_high, bit_getLsbD, extract_all, extract_join, extract_extract, Nat.reduceSub, Nat.reduceAdd,
    BitVec.reduceExtractLsb', BitVec.reduceGetLsb, BitVec.reduceToNat, Nat.reduceLT, reduceIte, Bool.and_self, BEq.rfl, Bool.or_true, Bool.true_or, Bool.not_false, Bool.and_true]
theorem tlbinvAsid (e : Bool) :
    Statement (.tlbinvAsid e) := by
  intro hwf
  refine of_uniform _ _ rfl rfl rfl (uniform_words _ _ _ _ _ _ _ ?_)
  simp (decide := true) only [parseUniform, uni, need, hi3, lo3, fnOf, ofPred, ofBar, HAppend.hAppend, bit_low, bit_high, extract_low, extract_high, bit_getLsbD, extract_all, extract_join, extract_extract, Nat.reduceSub, Nat.reduceAdd,
    BitVec.reduceExtractLsb', BitVec.reduceGetLsb, BitVec.reduceToNat, Nat.reduceLT, reduceIte, Bool.and_self, BEq.rfl, Bool.or_true, Bool.true_or, Bool.not_false, Bool.and_true]
theorem rmack (e : Bool) (cd : Pred) (a : Reg) :
    Statement (.rmack e cd a) := by
  intro hwf
  refine of_uniform _ _ rfl rfl rfl (uniform_words _ _ _ _ _ _ _ ?_)
  simp (decide := true) only [parseUniform, uni, need, hi3, lo3, fnOf, ofPred, ofBar, HAppend.hAppend, bit_low, bit_high, extract_low, extract_high, bit_getLsbD, extract_all, extract_join, extract_extract, Nat.reduceSub, Nat.reduceAdd,
    BitVec.reduceExtractLsb', BitVec.reduceGetLsb, BitVec.reduceToNat, Nat.reduceLT, reduceIte, Bool.and_self, BEq.rfl, Bool.or_true, Bool.true_or, Bool.not_false, Bool.and_true]
theorem snop (e : Bool) :
    Statement (.snop e) := by
  intro hwf
  refine of_uniform _ _ rfl rfl rfl (uniform_words _ _ _ _ _ _ _ ?_)
  simp (decide := true) only [parseUniform, uni, need, hi3, lo3, fnOf, ofPred, ofBar, HAppend.hAppend, bit_low, bit_high, extract_low, extract_high, bit_getLsbD, extract_all, extract_join, extract_extract, Nat.reduceSub, Nat.reduceAdd,
    BitVec.reduceExtractLsb', BitVec.reduceGetLsb, BitVec.reduceToNat, Nat.reduceLT, reduceIte, Bool.and_self, BEq.rfl, Bool.or_true, Bool.true_or, Bool.not_false, Bool.and_true]
theorem strap (e : Bool) (n : BitVec 18) :
    Statement (.strap e n) := by
  intro hwf
  have hf : (n != 0x3FFFF) = true := wf_fields hwf
  refine of_uniform _ _ rfl rfl rfl (uniform_words _ _ _ _ _ _ _ ?_)
  have hn : (n = 0x3FFFF) = False := eq_false (by simpa using hf)
  simp (decide := true) only [parseUniform, uni, need, hi3, lo3, fnOf, ofPred, ofBar, hn, hf, HAppend.hAppend, bit_low, bit_high, extract_low, extract_high, bit_getLsbD, extract_all, extract_join, extract_extract, Nat.reduceSub, Nat.reduceAdd,
    BitVec.reduceExtractLsb', BitVec.reduceGetLsb, BitVec.reduceToNat, Nat.reduceLT, reduceIte, Bool.and_self, BEq.rfl, Bool.or_true, Bool.true_or, Bool.not_false, Bool.and_true]
theorem resume (e : Bool) :
    Statement (.resume e) := by
  intro hwf
  refine of_uniform _ _ rfl rfl rfl (uniform_words _ _ _ _ _ _ _ ?_)
  simp (decide := true) only [parseUniform, uni, need, hi3, lo3, fnOf, ofPred, ofBar, HAppend.hAppend, bit_low, bit_high, extract_low, extract_high, bit_getLsbD, extract_all, extract_join, extract_extract, Nat.reduceSub, Nat.reduceAdd,
    BitVec.reduceExtractLsb', BitVec.reduceGetLsb, BitVec.reduceToNat, Nat.reduceLT, reduceIte, Bool.and_self, BEq.rfl, Bool.or_true, Bool.true_or, Bool.not_false, Bool.and_true]
theorem mlay (l : BitVec 3) (off : BitVec 20) :
    Statement (.mlay l off) := by
  intro hwf
  refine of_foreman _ _ rfl rfl rfl rfl ?_
  simp (decide := true) only [readBack, decodeForeman, unpackFm_packFm, uni, need, HAppend.hAppend, bit_low, bit_high, extract_low, extract_high, bit_getLsbD, extract_all, extract_join, extract_extract, Nat.reduceSub, Nat.reduceAdd,
    BitVec.reduceExtractLsb', BitVec.reduceGetLsb, BitVec.reduceToNat, Nat.reduceLT, reduceIte, Bool.and_self, BEq.rfl, Bool.or_true, Bool.true_or, Bool.not_false, Bool.and_true]
theorem madd (l : BitVec 3) (dim : BitVec 2) (inc : Word) :
    Statement (.madd l dim inc) := by
  intro hwf
  refine of_foreman _ _ rfl rfl rfl rfl ?_
  simp (decide := true) only [readBack, decodeForeman, unpackFm_packFm, uni, need, HAppend.hAppend, bit_low, bit_high, extract_low, extract_high, bit_getLsbD, extract_all, extract_join, extract_extract, Nat.reduceSub, Nat.reduceAdd,
    BitVec.reduceExtractLsb', BitVec.reduceGetLsb, BitVec.reduceToNat, Nat.reduceLT, reduceIte, Bool.and_self, BEq.rfl, Bool.or_true, Bool.true_or, Bool.not_false, Bool.and_true]
theorem mclr (s : BitVec 4) (three int : Bool) :
    Statement (.mclr s three int) := by
  intro hwf
  refine of_foreman _ _ rfl rfl rfl rfl ?_
  simp (decide := true) only [readBack, decodeForeman, unpackFm_packFm, uni, need, HAppend.hAppend, bit_low, bit_high, extract_low, extract_high, bit_getLsbD, extract_all, extract_join, extract_extract, Nat.reduceSub, Nat.reduceAdd,
    BitVec.reduceExtractLsb', BitVec.reduceGetLsb, BitVec.reduceToNat, Nat.reduceLT, reduceIte, Bool.and_self, BEq.rfl, Bool.or_true, Bool.true_or, Bool.not_false, Bool.and_true]
theorem mma (s : BitVec 4) (pm : PlaneMode) (a b : BitVec 3) :
    Statement (.mma s pm a b) := by
  intro hwf
  refine of_foreman _ _ rfl rfl rfl rfl ?_
  simp (decide := true) only [readBack, decodeForeman, unpackFm_packFm, uni, need, PlaneMode_code, withCode, HAppend.hAppend, bit_low, bit_high, extract_low, extract_high, bit_getLsbD, extract_all, extract_join, extract_extract, Nat.reduceSub, Nat.reduceAdd,
    BitVec.reduceExtractLsb', BitVec.reduceGetLsb, BitVec.reduceToNat, Nat.reduceLT, reduceIte, Bool.and_self, BEq.rfl, Bool.or_true, Bool.true_or, Bool.not_false, Bool.and_true]
theorem mmas (s : BitVec 4) (pm : PlaneMode) (a b md : BitVec 3) :
    Statement (.mmas s pm a b md) := by
  intro hwf
  refine of_foreman _ _ rfl rfl rfl rfl ?_
  simp (decide := true) only [readBack, decodeForeman, unpackFm_packFm, uni, need, PlaneMode_code, withCode, HAppend.hAppend, bit_low, bit_high, extract_low, extract_high, bit_getLsbD, extract_all, extract_join, extract_extract, Nat.reduceSub, Nat.reduceAdd,
    BitVec.reduceExtractLsb', BitVec.reduceGetLsb, BitVec.reduceToNat, Nat.reduceLT, reduceIte, Bool.and_self, BEq.rfl, Bool.or_true, Bool.true_or, Bool.not_false, Bool.and_true]
theorem mmax (s : BitVec 4) (pm : PlaneMode) (a b sa sb : BitVec 3) :
    Statement (.mmax s pm a b sa sb) := by
  intro hwf
  refine of_foreman _ _ rfl rfl rfl rfl ?_
  simp (decide := true) only [readBack, decodeForeman, unpackFm_packFm, uni, need, PlaneMode_code, withCode, HAppend.hAppend, bit_low, bit_high, extract_low, extract_high, bit_getLsbD, extract_all, extract_join, extract_extract, Nat.reduceSub, Nat.reduceAdd,
    BitVec.reduceExtractLsb', BitVec.reduceGetLsb, BitVec.reduceToNat, Nat.reduceLT, reduceIte, Bool.and_self, BEq.rfl, Bool.or_true, Bool.true_or, Bool.not_false, Bool.and_true]
theorem mrd (s : BitVec 4) (pl : BitVec 2) (d : BitVec 3) :
    Statement (.mrd s pl d) := by
  intro hwf
  refine of_foreman _ _ rfl rfl rfl rfl ?_
  simp (decide := true) only [readBack, decodeForeman, unpackFm_packFm, uni, need, HAppend.hAppend, bit_low, bit_high, extract_low, extract_high, bit_getLsbD, extract_all, extract_join, extract_extract, Nat.reduceSub, Nat.reduceAdd,
    BitVec.reduceExtractLsb', BitVec.reduceGetLsb, BitVec.reduceToNat, Nat.reduceLT, reduceIte, Bool.and_self, BEq.rfl, Bool.or_true, Bool.true_or, Bool.not_false, Bool.and_true]
theorem mcol (s : BitVec 4) (d : BitVec 3) :
    Statement (.mcol s d) := by
  intro hwf
  refine of_foreman _ _ rfl rfl rfl rfl ?_
  simp (decide := true) only [readBack, decodeForeman, unpackFm_packFm, uni, need, HAppend.hAppend, bit_low, bit_high, extract_low, extract_high, bit_getLsbD, extract_all, extract_join, extract_extract, Nat.reduceSub, Nat.reduceAdd,
    BitVec.reduceExtractLsb', BitVec.reduceGetLsb, BitVec.reduceToNat, Nat.reduceLT, reduceIte, Bool.and_self, BEq.rfl, Bool.or_true, Bool.true_or, Bool.not_false, Bool.and_true]
theorem mbarr (bn : BitVec 4) :
    Statement (.mbarr bn) := by
  intro hwf
  refine of_foreman _ _ rfl rfl rfl rfl ?_
  simp (decide := true) only [readBack, decodeForeman, unpackFm_packFm, uni, need, HAppend.hAppend, bit_low, bit_high, extract_low, extract_high, bit_getLsbD, extract_all, extract_join, extract_extract, Nat.reduceSub, Nat.reduceAdd,
    BitVec.reduceExtractLsb', BitVec.reduceGetLsb, BitVec.reduceToNat, Nat.reduceLT, reduceIte, Bool.and_self, BEq.rfl, Bool.or_true, Bool.true_or, Bool.not_false, Bool.and_true]
theorem mbwait (bn : BitVec 4) :
    Statement (.mbwait bn) := by
  intro hwf
  refine of_foreman _ _ rfl rfl rfl rfl ?_
  simp (decide := true) only [readBack, decodeForeman, unpackFm_packFm, uni, need, HAppend.hAppend, bit_low, bit_high, extract_low, extract_high, bit_getLsbD, extract_all, extract_join, extract_extract, Nat.reduceSub, Nat.reduceAdd,
    BitVec.reduceExtractLsb', BitVec.reduceGetLsb, BitVec.reduceToNat, Nat.reduceLT, reduceIte, Bool.and_self, BEq.rfl, Bool.or_true, Bool.true_or, Bool.not_false, Bool.and_true]
theorem mloop (count : BitVec 24) :
    Statement (.mloop count) := by
  intro hwf
  refine of_foreman _ _ rfl rfl rfl rfl ?_
  simp (decide := true) only [readBack, decodeForeman, unpackFm_packFm, uni, need, HAppend.hAppend, bit_low, bit_high, extract_low, extract_high, bit_getLsbD, extract_all, extract_join, extract_extract, Nat.reduceSub, Nat.reduceAdd,
    BitVec.reduceExtractLsb', BitVec.reduceGetLsb, BitVec.reduceToNat, Nat.reduceLT, reduceIte, Bool.and_self, BEq.rfl, Bool.or_true, Bool.true_or, Bool.not_false, Bool.and_true]
theorem mloopL (off : BitVec 24) :
    Statement (.mloopL off) := by
  intro hwf
  refine of_foreman _ _ rfl rfl rfl rfl ?_
  simp (decide := true) only [readBack, decodeForeman, unpackFm_packFm, uni, need, HAppend.hAppend, bit_low, bit_high, extract_low, extract_high, bit_getLsbD, extract_all, extract_join, extract_extract, Nat.reduceSub, Nat.reduceAdd,
    BitVec.reduceExtractLsb', BitVec.reduceGetLsb, BitVec.reduceToNat, Nat.reduceLT, reduceIte, Bool.and_self, BEq.rfl, Bool.or_true, Bool.true_or, Bool.not_false, Bool.and_true]
theorem mendl :
    Statement (.mendl) := by
  intro hwf
  refine of_foreman _ _ rfl rfl rfl rfl ?_
  simp (decide := true) only [readBack, decodeForeman, unpackFm_packFm, uni, need, HAppend.hAppend, bit_low, bit_high, extract_low, extract_high, bit_getLsbD, extract_all, extract_join, extract_extract, Nat.reduceSub, Nat.reduceAdd,
    BitVec.reduceExtractLsb', BitVec.reduceGetLsb, BitVec.reduceToNat, Nat.reduceLT, reduceIte, Bool.and_self, BEq.rfl, Bool.or_true, Bool.true_or, Bool.not_false, Bool.and_true]
theorem mjmp (off : Word) :
    Statement (.mjmp off) := by
  intro hwf
  refine of_foreman _ _ rfl rfl rfl rfl ?_
  simp (decide := true) only [readBack, decodeForeman, unpackFm_packFm, uni, need, HAppend.hAppend, bit_low, bit_high, extract_low, extract_high, bit_getLsbD, extract_all, extract_join, extract_extract, Nat.reduceSub, Nat.reduceAdd,
    BitVec.reduceExtractLsb', BitVec.reduceGetLsb, BitVec.reduceToNat, Nat.reduceLT, reduceIte, Bool.and_self, BEq.rfl, Bool.or_true, Bool.true_or, Bool.not_false, Bool.and_true]
theorem mstamp (clu : Bool) (addr : BitVec 22) :
    Statement (.mstamp clu addr) := by
  intro hwf
  refine of_foreman _ _ rfl rfl rfl rfl ?_
  cases clu
  all_goals
    simp (decide := true) only [readBack, decodeForeman, unpackFm_packFm, uni, need, stamp_kind, Bool.false_eq_true, HAppend.hAppend, bit_low, bit_high, extract_low, extract_high, bit_getLsbD, extract_all, extract_join, extract_extract, Nat.reduceSub, Nat.reduceAdd,
    BitVec.reduceExtractLsb', BitVec.reduceGetLsb, BitVec.reduceToNat, Nat.reduceLT, reduceIte, Bool.and_self, BEq.rfl, Bool.or_true, Bool.true_or, Bool.not_false, Bool.and_true]
theorem mconfRnd (code : BitVec 3) :
    Statement (.mconfRnd code) := by
  intro hwf
  have hf : (code != 0 && code != 7) = true := wf_fields hwf
  refine of_foreman _ _ rfl rfl rfl rfl ?_
  simp (decide := true) only [readBack, decodeForeman, unpackFm_packFm, uni, need, hf, HAppend.hAppend, bit_low, bit_high, extract_low, extract_high, bit_getLsbD, extract_all, extract_join, extract_extract, Nat.reduceSub, Nat.reduceAdd,
    BitVec.reduceExtractLsb', BitVec.reduceGetLsb, BitVec.reduceToNat, Nat.reduceLT, reduceIte, Bool.and_self, BEq.rfl, Bool.or_true, Bool.true_or, Bool.not_false, Bool.and_true]
theorem mconfTs (off : BitVec 20) :
    Statement (.mconfTs off) := by
  intro hwf
  refine of_foreman _ _ rfl rfl rfl rfl ?_
  simp (decide := true) only [readBack, decodeForeman, unpackFm_packFm, uni, need, HAppend.hAppend, bit_low, bit_high, extract_low, extract_high, bit_getLsbD, extract_all, extract_join, extract_extract, Nat.reduceSub, Nat.reduceAdd,
    BitVec.reduceExtractLsb', BitVec.reduceGetLsb, BitVec.reduceToNat, Nat.reduceLT, reduceIte, Bool.and_self, BEq.rfl, Bool.or_true, Bool.true_or, Bool.not_false, Bool.and_true]
theorem mconfWph (bn : BitVec 4) (ph : BitVec 16) :
    Statement (.mconfWph bn ph) := by
  intro hwf
  refine of_foreman _ _ rfl rfl rfl rfl ?_
  simp (decide := true) only [readBack, decodeForeman, unpackFm_packFm, uni, need, HAppend.hAppend, bit_low, bit_high, extract_low, extract_high, bit_getLsbD, extract_all, extract_join, extract_extract, Nat.reduceSub, Nat.reduceAdd,
    BitVec.reduceExtractLsb', BitVec.reduceGetLsb, BitVec.reduceToNat, Nat.reduceLT, reduceIte, Bool.and_self, BEq.rfl, Bool.or_true, Bool.true_or, Bool.not_false, Bool.and_true]
theorem mend :
    Statement (.mend) := by
  intro hwf
  refine of_foreman _ _ rfl rfl rfl rfl ?_
  simp (decide := true) only [readBack, decodeForeman, unpackFm_packFm, uni, need, HAppend.hAppend, bit_low, bit_high, extract_low, extract_high, bit_getLsbD, extract_all, extract_join, extract_extract, Nat.reduceSub, Nat.reduceAdd,
    BitVec.reduceExtractLsb', BitVec.reduceGetLsb, BitVec.reduceToNat, Nat.reduceLT, reduceIte, Bool.and_self, BEq.rfl, Bool.or_true, Bool.true_or, Bool.not_false, Bool.and_true]
theorem unallocatedEncoding (lx : Option Word) (w : Word) :
    Statement (.unallocatedEncoding lx w) := by
  intro _; exact of_event _ rfl
theorem foremanWordUnallocated (w : Double) :
    Statement (.foremanWordUnallocated w) := by
  intro _; exact of_event _ rfl
theorem foremanFetch (b : Nat) :
    Statement (.foremanFetch b) := by
  intro _; exact of_event _ rfl
theorem foremanCommandComplete (b n : Nat) :
    Statement (.foremanCommandComplete b n) := by
  intro _; exact of_event _ rfl
theorem copyCommandStart (b n : Nat) :
    Statement (.copyCommandStart b n) := by
  intro _; exact of_event _ rfl
theorem copyPieceLand (src : PieceSrc) :
    Statement (.copyPieceLand src) := by
  intro _; exact of_event _ rfl
theorem copyCommandComplete (b n : Nat) :
    Statement (.copyCommandComplete b n) := by
  intro _; exact of_event _ rfl
theorem loadDataReturn (w idx : Nat) :
    Statement (.loadDataReturn w idx) := by
  intro _; exact of_event _ rfl
theorem storeDrain (src : DrainSrc) :
    Statement (.storeDrain src) := by
  intro _; exact of_event _ rfl
theorem pageWalkComplete (idx : Nat) :
    Statement (.pageWalkComplete idx) := by
  intro _; exact of_event _ rfl
theorem tlbInvalidateComplete (idx : Nat) :
    Statement (.tlbInvalidateComplete idx) := by
  intro _; exact of_event _ rfl
theorem icinvComplete (idx : Nat) :
    Statement (.icinvComplete idx) := by
  intro _; exact of_event _ rfl
theorem mwaitLimitExpire (w : Nat) :
    Statement (.mwaitLimitExpire w) := by
  intro _; exact of_event _ rfl
theorem warpEnd (w : Nat) :
    Statement (.warpEnd w) := by
  intro _; exact of_event _ rfl
theorem joinEndUpdate (idx : Nat) :
    Statement (.joinEndUpdate idx) := by
  intro _; exact of_event _ rfl
theorem spawnTimeout (core launch : Nat) :
    Statement (.spawnTimeout core launch) := by
  intro _; exact of_event _ rfl
theorem spillReturn (core launch : Nat) :
    Statement (.spillReturn core launch) := by
  intro _; exact of_event _ rfl
theorem fragmentDeliver (w : Nat) :
    Statement (.fragmentDeliver w) := by
  intro _; exact of_event _ rfl
theorem resourceMapDeliver (l : Nat) :
    Statement (.resourceMapDeliver l) := by
  intro _; exact of_event _ rfl
theorem blockFaultSave (o : Owner) :
    Statement (.blockFaultSave o) := by
  intro _; exact of_event _ rfl
theorem coreDump (ctx : Nat) :
    Statement (.coreDump ctx) := by
  intro _; exact of_event _ rfl
theorem workHalt (ctx : Nat) :
    Statement (.workHalt ctx) := by
  intro _; exact of_event _ rfl
theorem launchTake (ctx : Nat) :
    Statement (.launchTake ctx) := by
  intro _; exact of_event _ rfl
theorem loomChoice :
    Statement (.loomChoice) := by
  intro _; exact of_event _ rfl
theorem blockStart (b : Nat) :
    Statement (.blockStart b) := by
  intro _; exact of_event _ rfl
theorem warpEvict (w : Nat) :
    Statement (.warpEvict w) := by
  intro _; exact of_event _ rfl
theorem migration (b : Nat) :
    Statement (.migration b) := by
  intro _; exact of_event _ rfl
theorem forwardEntryFree (core idx : Nat) :
    Statement (.forwardEntryFree core idx) := by
  intro _; exact of_event _ rfl
theorem issueSlotGrant (core quarter : Nat) :
    Statement (.issueSlotGrant core quarter) := by
  intro _; exact of_event _ rfl
theorem runBreak (core quarter : Nat) :
    Statement (.runBreak core quarter) := by
  intro _; exact of_event _ rfl
theorem yieldExpire (w : Nat) :
    Statement (.yieldExpire w) := by
  intro _; exact of_event _ rfl
theorem launchComplete (l : Nat) :
    Statement (.launchComplete l) := by
  intro _; exact of_event _ rfl
theorem taskComplete (b : Nat) :
    Statement (.taskComplete b) := by
  intro _; exact of_event _ rfl
theorem pendingEnqueueDrain (ctx : Nat) :
    Statement (.pendingEnqueueDrain ctx) := by
  intro _; exact of_event _ rfl
theorem bakeryAdvance (l : Nat) :
    Statement (.bakeryAdvance l) := by
  intro _; exact of_event _ rfl
theorem deadlockSuspect (ctx : Nat) :
    Statement (.deadlockSuspect ctx) := by
  intro _; exact of_event _ rfl
theorem contextDiscardComplete (ctx : Nat) :
    Statement (.contextDiscardComplete ctx) := by
  intro _; exact of_event _ rfl
theorem contextStopComplete (ctx : Nat) :
    Statement (.contextStopComplete ctx) := by
  intro _; exact of_event _ rfl
theorem resourceMapTimeout (ctx : Nat) :
    Statement (.resourceMapTimeout ctx) := by
  intro _; exact of_event _ rfl
theorem budgetPeriod :
    Statement (.budgetPeriod) := by
  intro _; exact of_event _ rfl
theorem selfTest (core : Nat) (passed : Bool) :
    Statement (.selfTest core passed) := by
  intro _; exact of_event _ rfl
theorem surveyDegradation (losses : List UnitLoss) :
    Statement (.surveyDegradation losses) := by
  intro _; exact of_event _ rfl
theorem hourglassLatch :
    Statement (.hourglassLatch) := by
  intro _; exact of_event _ rfl
theorem bellowsGrant (demand : List Nat) :
    Statement (.bellowsGrant demand) := by
  intro _; exact of_event _ rfl
theorem powerUp :
    Statement (.powerUp) := by
  intro _; exact of_event _ rfl
theorem powerDown :
    Statement (.powerDown) := by
  intro _; exact of_event _ rfl
theorem junctionThrottle (die temp : Nat) :
    Statement (.junctionThrottle die temp) := by
  intro _; exact of_event _ rfl
theorem currentTrip :
    Statement (.currentTrip) := by
  intro _; exact of_event _ rfl
theorem thermalTrip :
    Statement (.thermalTrip) := by
  intro _; exact of_event _ rfl
theorem correctedError (u : ErrUnit) :
    Statement (.correctedError u) := by
  intro _; exact of_event _ rfl
theorem uncorrectableError (p : ErrPlace) :
    Statement (.uncorrectableError p) := by
  intro _; exact of_event _ rfl
theorem linkLaneFail (l : UnitLoss) :
    Statement (.linkLaneFail l) := by
  intro _; exact of_event _ rfl
theorem ideIntegrityFail :
    Statement (.ideIntegrityFail) := by
  intro _; exact of_event _ rfl
theorem peerFlitAuthFail (port : Nat) :
    Statement (.peerFlitAuthFail port) := by
  intro _; exact of_event _ rfl
theorem peerInboundAccess (port : Nat) (addr : Nat) (acc : BusAccess) :
    Statement (.peerInboundAccess port addr acc) := by
  intro _; exact of_event _ rfl
theorem hostMemAccess (target : HostTarget) (off : Nat) (acc : BusAccess) :
    Statement (.hostMemAccess target off acc) := by
  intro _; exact of_event _ rfl
theorem pwrlimWrite (v : Double) :
    Statement (.pwrlimWrite v) := by
  intro _; exact of_event _ rfl
theorem nearpartWrite (v : Double) :
    Statement (.nearpartWrite v) := by
  intro _; exact of_event _ rfl
theorem fwgoWrite (v : Double) :
    Statement (.fwgoWrite v) := by
  intro _; exact of_event _ rfl
theorem firmwareVerifyDone :
    Statement (.firmwareVerifyDone) := by
  intro _; exact of_event _ rfl
theorem attgoWrite (v : Double) :
    Statement (.attgoWrite v) := by
  intro _; exact of_event _ rfl
theorem attestReportDone :
    Statement (.attestReportDone) := by
  intro _; exact of_event _ rfl
theorem keyopLoad :
    Statement (.keyopLoad) := by
  intro _; exact of_event _ rfl
theorem keyopClear :
    Statement (.keyopClear) := by
  intro _; exact of_event _ rfl
theorem keyOpComplete :
    Statement (.keyOpComplete) := by
  intro _; exact of_event _ rfl
theorem notifyWrite (ctx : Nat) (v : Word) :
    Statement (.notifyWrite ctx v) := by
  intro _; exact of_event _ rfl
theorem ctxStateStop (ctx : Nat) (v : Double) :
    Statement (.ctxStateStop ctx v) := by
  intro _; exact of_event _ rfl
theorem ctxStateRun (ctx : Nat) (v : Double) :
    Statement (.ctxStateRun ctx v) := by
  intro _; exact of_event _ rfl
theorem ctxStateFree (ctx : Nat) (v : Double) :
    Statement (.ctxStateFree ctx v) := by
  intro _; exact of_event _ rfl
theorem tagclrWrite (ctx : Nat) (v : Double) :
    Statement (.tagclrWrite ctx v) := by
  intro _; exact of_event _ rfl
theorem rmackWrite (ctx : Nat) (v : Double) :
    Statement (.rmackWrite ctx v) := by
  intro _; exact of_event _ rfl
theorem eventRead (ctx : Nat) :
    Statement (.eventRead ctx) := by
  intro _; exact of_event _ rfl
theorem trlostRead (ctx : Nat) :
    Statement (.trlostRead ctx) := by
  intro _; exact of_event _ rfl
theorem hglostRead :
    Statement (.hglostRead) := by
  intro _; exact of_event _ rfl
theorem mclostRead :
    Statement (.mclostRead) := by
  intro _; exact of_event _ rfl
theorem pwrstatRead :
    Statement (.pwrstatRead) := by
  intro _; exact of_event _ rfl
theorem bftailWrite (ctx : Nat) (v : Word) :
    Statement (.bftailWrite ctx v) := by
  intro _; exact of_event _ rfl
theorem bfreplyRetry (ctx : Nat) (rec : Word) :
    Statement (.bfreplyRetry ctx rec) := by
  intro _; exact of_event _ rfl
theorem bfreplyKill (ctx : Nat) (rec : Word) :
    Statement (.bfreplyKill ctx rec) := by
  intro _; exact of_event _ rfl
theorem bfreplyRestart (ctx : Nat) (rec : Word) :
    Statement (.bfreplyRestart ctx rec) := by
  intro _; exact of_event _ rfl
theorem saveAreaWrite (ctx : Nat) (size : Bool) (v : Double) :
    Statement (.saveAreaWrite ctx size v) := by
  intro _; exact of_event _ rfl
theorem dbgctlHalt (ctx : Nat) (v : Double) :
    Statement (.dbgctlHalt ctx v) := by
  intro _; exact of_event _ rfl
theorem dbgctlResume (ctx : Nat) (v : Double) :
    Statement (.dbgctlResume ctx v) := by
  intro _; exact of_event _ rfl
theorem dbgiclenWrite (ctx : Nat) (v : Double) :
    Statement (.dbgiclenWrite ctx v) := by
  intro _; exact of_event _ rfl
theorem registerWrite (off : Nat) (size : Nat) (v : Double) :
    Statement (.registerWrite off size v) := by
  intro _; exact of_event _ rfl
theorem debugRightClear (ctx : Nat) (v : Double) :
    Statement (.debugRightClear ctx v) := by
  intro _; exact of_event _ rfl
theorem ideEstablished :
    Statement (.ideEstablished) := by
  intro _; exact of_event _ rfl
theorem throttleRelease (die : Nat) :
    Statement (.throttleRelease die) := by
  intro _; exact of_event _ rfl
theorem hostSnoop (addr : Nat) (k : Snoop) :
    Statement (.hostSnoop addr k) := by
  intro _; exact of_event _ rfl
end Sys2Proof.Laws.Encoding
end

