-- ==== Sys2Proof/Safety.lean ====
section
/-! DEFINITION. What a safe step is, and the words in which the statements say what an instruction does and what it
leaves alone. -/
namespace Sys2Proof.Machine

/-- The next step answers a next state. -/
def State.goesOn (s : State) : Prop := ∃ t, step s = .next t

/-- No numeric event of the warp's launch is taken as a trap (R112). -/
def NoNumTraps (s : State) (c : Issue) : Prop := (s.launch (s.warp c.warp).launch).lrec.numTraps = false

/-- A fibre that waited and has now executed is ready. -/
def endWait : Status → Status
  | .waiting _ => .ready
  | x => x

/-- The instruction of the group of `c` is over: from s, its fibres have become what `after` says, flags and numeric events
are added to the warp's, and nothing else differs but the counters of cores and the model's own numbering. Every register of
every other warp, every uniform register, predicate, segment register, trap frame and barrier, every block, launch, context
and device register, and every byte of memory is as it was in s. -/
structure Ends (s : State) (c : Issue) (after : Fibre → Fibre) (fp : Flags) (num : BitVec 4) (t : State) : Prop where
  /-- only warps, counters and the numbering differ -/
  rest : t = { s with next := s.next + 1, warps := t.warps, cores := t.cores }
  /-- of the cores, only counters -/
  counters : ∀ n, t.core n = { s.core n with banks := (t.core n).banks }
  /-- every byte of memory reads as before -/
  memory : ∀ a, Tab.read (0 : Byte) t.mem a = Tab.read (0 : Byte) s.mem a
  /-- every other warp is as before -/
  others : ∀ v, v ≠ c.warp → Tab.find t.warps v = Tab.find s.warps v
  /-- of the warp itself, only its fibres and flags differ -/
  warp : t.warp c.warp = { s.warp c.warp with
    fibres := (t.warp c.warp).fibres
    fpflags := (s.warp c.warp).fpflags ||| fp.setWidth 32
    numflags := (s.warp c.warp).numflags ||| num.setWidth 64 }
  /-- a fibre of the group is what `after` makes of it, and every other fibre is as before -/
  fibre : ∀ k, (t.warp c.warp).fibre? k =
    ((s.warp c.warp).fibre? k).map fun f => if c.group.contains k then after f else f

/-! ### Lane instructions -/

/-- A fibre after a lane instruction that takes no trap: it stands at the next instruction; if its guard holds, it has new
lanes and has executed one more instruction (R22, R175). -/
def laneAfter (e : LaneEnv) (out : LaneEnv → Fibre → LaneOut) (f : Fibre) : Fibre :=
  if (guardOf e.x f).1 then
    { f with pc := e.next, icount := f.icount + 1, lanes := (out e f).lanes, status := endWait f.status }
  else { f with pc := e.next, status := endWait f.status }
/-- The IEEE flags that the executing fibres of a group raise. -/
def laneFlags (s : State) (c : Issue) (x : Lx) (out : LaneEnv → Fibre → LaneOut) : Flags :=
  (groupOf (s.warp c.warp) c).foldl
    (fun a f => a ||| (if (guardOf x f).1 then (out (laneEnv s c x) f).fp else 0)) 0
/-- The numeric events that a group raises: those of its results, and UCMP where siblings disagree on the guard (R97). -/
def laneEvents (s : State) (c : Issue) (x : Lx) (out : LaneEnv → Fibre → LaneOut) : BitVec 4 :=
  (groupOf (s.warp c.warp) c).foldl
    (fun a f => a ||| (if (guardOf x f).1 then (out (laneEnv s c x) f).num ||| guardEvent (guardOf x f).2
      else guardEvent (guardOf x f).2)) 0

/-- A group may use lane registers now: they lie in the window, aligned (R116, R182), and no load in flight is still to write one
of them (R255). -/
structure Usable (s : State) (c : Issue) (us : List RegUse) : Prop where
  inWindow : usesOk (s.warp c.warp).window us = true
  written : loadsHold (s.warp c.warp) c.group (spans us) [] = false

/-- An instruction touches lane registers and predicates alone: whatever group executes it, with its operands `us` usable and
no numeric trap enabled, it completes for every fibre at once with the result `out` (R197, R199). -/
def LaneDoes (i : Instr) (x : Lx) (us : List RegUse) (out : LaneEnv → Fibre → LaneOut) : Prop :=
  ∀ (s : State) (c : Issue), s.cur = some c → NoNumTraps s c → Usable s c us →
    ∃ t, exec i s = .next t
      ∧ Ends s c (laneAfter (laneEnv s c x) out) (laneFlags s c x out) (laneEvents s c x out) t

/-- Every lane of the fibre changed by its sibling number, with no flag and no event. -/
def eachLane (f : Fibre) (g : Nat → Lane → Lane) : LaneOut := ⟨f.lanes.zipIdx.map fun e => g e.2 e.1, 0, 0⟩

/-- One fibre alone issues the instruction in execution, and its guard holds. -/
structure Alone (s : State) (c : Issue) (x : Lx) (f : Fibre) : Prop where
  cur : s.cur = some c
  group : c.group = [f.slot]
  fibre : groupOf (s.warp c.warp) c = [f]
  active : (guardOf x f).1 = true
/-- The event of a fibre's own guard: UCMP where its siblings disagree (R97). -/
def guardNum (x : Lx) (f : Fibre) : BitVec 4 := guardEvent (guardOf x f).2
/-- A fibre after a lane instruction it has executed, with given lanes, at an address. -/
def fibreAt (f : Fibre) (pc : VAddr) (lanes : List Lane) : Fibre :=
  { f with pc := pc, icount := f.icount + 1, lanes := lanes, status := endWait f.status }

/-- One fibre alone completes an instruction that has reached shared state: u is the state with that done, and the fibre
stands at `pc` with `lanes`, with flags and events, its guard's among them. -/
def AloneEnds (i : Instr) (s u : State) (c : Issue) (x : Lx) (f : Fibre) (pc : VAddr) (lanes : List Lane) (fp : Flags)
    (num : BitVec 4) : Prop :=
  ∃ t, exec i s = .next t ∧ Ends u c (fun _ => fibreAt f pc lanes) fp (num ||| guardNum x f) t

/-! ### Warp-wide instructions -/

/-- The operand of an optional mask group (R268). -/
def maskUse (s : State) (c : Issue) (mm : Option Reg) : List RegUse :=
  match mm with
  | some m => [groupUse (s.three (s.warp c.warp)) m]
  | none => []
/-- The group executes a warp-wide instruction with the members `mem`: every fibre's guard holds; with no mask group the
members are the group, and with one every fibre holds the same mask, is in it, and all the fibres it names are here (R268). -/
structure Members (s : State) (c : Issue) (x : Lx) (mm : Option Reg) (mem : List Fibre) : Prop where
  cur : s.cur = some c
  active : ∀ f ∈ groupOf (s.warp c.warp) c, (guardOf x f).1 = true
  members : match mm with
    | none => mem = groupOf (s.warp c.warp) c
    | some m => ∃ k, (∀ f ∈ groupOf (s.warp c.warp) c,
          ownMask (s.three (s.warp c.warp)) m f = some k ∧ k.testBit f.slot = true)
        ∧ mem = (s.warp c.warp).fibres.filter (fun f => k.testBit f.slot) ∧ ∀ f ∈ mem, c.group.contains f.slot = true
/-- A warp-wide instruction completes for its group: each fibre's result is made from the members (R268). -/
def WideDoes (i : Instr) (x : Lx) (mm : Option Reg) (us : List RegUse) (out : LaneEnv → List Fibre → Fibre → LaneOut) :
    Prop :=
  ∀ (s : State) (c : Issue) (mem : List Fibre), Members s c x mm mem → NoNumTraps s c →
    Usable s c (us ++ maskUse s c mm) →
    ∃ t, exec i s = .next t
      ∧ Ends s c (laneAfter (laneEnv s c x) fun e => out e mem) (laneFlags s c x fun e => out e mem)
          (laneEvents s c x fun e => out e mem) t

/-! ### Uniform instructions -/

/-- A uniform instruction may issue: its operands are allowed, no load in flight is still to write one of them, and no handler
runs that is not its own group's (R255, R286, R287, R459). -/
structure Uniform (s : State) (c : Issue) (us : List UniUse) : Prop where
  cur : s.cur = some c
  free : handlerFree (s.warp c.warp) (groupOf (s.warp c.warp) c) = true
  uses : us.all (UniUse.ok (s.warp c.warp)) = true
  written : loadsHold (s.warp c.warp) c.group [] (uniSpans us) = false
/-- A uniform instruction is over: from s, every fibre of its group stands at an address, and nothing else differs. -/
def UniformEnds (s : State) (c : Issue) (pc : VAddr) (t : State) : Prop :=
  Ends s c (fun f => { f with pc := pc, status := endWait f.status }) 0 0 t

/-! ### Foreman words -/

/-- A Foreman word is in execution for a block's context. -/
structure AtForeman (s : State) (c : FmIssue) (F : Foreman) : Prop where
  cur : ∃ i, s.fcur = some (c, i)
  context : (s.blk c.blk).fm = some F

end Sys2Proof.Machine
end

