-- ==== Sys2Proof/Certificates/Slice0/Obligations.lean ====
section
/-! DEFINITION. The statements for the provers, with the words that only they use. -/
open Sys2Proof Sys2Proof.Machine

namespace Sys2Proof.Claims

/-! ### Integers of w bits -/

/-- A value of w bits read as two's complement. -/
def signed (w v : Nat) : Int := if v < 2 ^ (w - 1) then (v : Int) else (v : Int) - (2 ^ w : Nat)
/-- A value of w bits read as signed or unsigned. -/
def read (sg : Bool) (w v : Nat) : Int := if sg then signed w v else (v : Int)
/-- An integer modulo 2^w. -/
def modulo (w : Nat) (v : Int) : Nat := (v % (2 ^ w : Nat)).toNat
/-- The nearest integer that w bits hold as two's complement, as a value of w bits. -/
def saturate (w : Nat) (v : Int) : Nat :=
  modulo w (max (-(2 ^ (w - 1) : Nat)) (min ((2 ^ (w - 1) : Nat) - 1) v))
/-- Bits of an operand: 64 with the W bit, else 32 (R198). -/
def bits (w : Bool) : Nat := if w then 64 else 32

/-- d of each lane receives a function of a. -/
def from1 (wd wa : Bool) (d a : Reg) (g : Nat → Nat) : LaneEnv → Fibre → LaneOut :=
  fun _ f => eachLane f fun _ l => l.setVal wd d.toNat (g (l.val wa a.toNat))
/-- d of each lane receives a function of a and b. -/
def from2 (wd wa wb : Bool) (d a b : Reg) (g : Nat → Nat → Nat) : LaneEnv → Fibre → LaneOut :=
  fun _ f => eachLane f fun _ l => l.setVal wd d.toNat (g (l.val wa a.toNat) (l.val wb b.toNat))
/-- d of each lane receives a function of a, b and c. -/
def from3 (w wc : Bool) (d a b c : Reg) (g : Nat → Nat → Nat → Nat) : LaneEnv → Fibre → LaneOut :=
  fun _ f => eachLane f fun _ l =>
    l.setVal w d.toNat (g (l.val w a.toNat) (l.val w b.toNat) (l.val wc c.toNat))
/-- d of each lane receives a function of a and b, and the predicate that CY names, when it names one, a second one. -/
def withCarry (w : Bool) (cy : BitVec 3) (d a b : Reg) (g : Nat → Nat → Bool → Nat) (h : Nat → Nat → Bool → Bool) :
    LaneEnv → Fibre → LaneOut :=
  fun _ f => eachLane f fun _ l =>
    let x := l.val w a.toNat
    let y := l.val w b.toNat
    let k := l.pred (cy - 1)
    let l := l.setVal w d.toNat (g x y k)
    if cy = 0 then l else l.setPred (cy - 1) (h x y k)

/-- A left shift: bits beyond w are lost. -/
def shiftLeft (w p n : Nat) : Nat := if n < w then p * 2 ^ n % 2 ^ w else 0
/-- A right shift that brings in zeros. -/
def shiftRight (w p n : Nat) : Nat := if n < w then p / 2 ^ n else 0
/-- A right shift that brings in copies of the sign. -/
def shiftSigned (w p n : Nat) : Nat :=
  if n < w then modulo w (signed w p / (2 ^ n : Nat)) else if signed w p < 0 then 2 ^ w - 1 else 0
/-- A rotation to the left by n modulo w. -/
def rotateLeft (w p n : Nat) : Nat := (p * 2 ^ (n % w) % 2 ^ w) ||| (p / 2 ^ (w - n % w))
/-- The integer conditions of Table 8-4. -/
def compareInt (c : Cond) (p q : Int) : Bool :=
  match c with
  | .eq => p == q
  | .ne => p != q
  | .lt => decide (p < q)
  | .le => decide (p ≤ q)
  | .gt => decide (q < p)
  | .ge => decide (q ≤ p)
  | .un | .ord => false
/-- A comparison writes each sibling's own result; UCMP where they are not all equal (R98). -/
def compareOut (f : Fibre) (pd : Pred) (g : Lane → Bool) : LaneOut :=
  ⟨f.lanes.map fun l => l.setPred pd (g l), 0, if allEqual (f.lanes.map g) then 0 else evUCMP⟩

/-- A floating operand of a lane. -/
def num (ty : FTy) (l : Lane) (r : Reg) : Machine.Num := decodeNum (fmtOf ty) (l.fval ty r.toNat)
/-- d of each sibling receives its own floating result; the flags of all are raised, and the events that the results give. -/
def floats (f : Fibre) (ty : FTy) (d : Reg) (g : Nat → Lane → FOut) (ev : List FOut → BitVec 4) : LaneOut :=
  let os := f.lanes.zipIdx.map fun e => g e.2 e.1
  ⟨f.lanes.zipIdx.map fun e => e.1.setFval ty d.toNat (g e.2 e.1).bits, orFlags (os.map (·.flags)), ev os⟩

/-- 1 for true. -/
def one01 (b : Bool) : Nat := if b then 1 else 0

/-- Element i, of w bits, of a packed operand that starts at r (R236). -/
def element (l : Lane) (r : Reg) (w i : Nat) : Nat := l.reg (r.toNat + w * i / 32) / 2 ^ (w * i % 32) % 2 ^ w
/-- n elements of a packed operand. -/
def elements (l : Lane) (r : Reg) (w n : Nat) : List Nat := (List.range n).map (element l r w)
/-- n elements of a packed operand as numbers of a format. -/
def nums (fm : Fmt) (l : Lane) (r : Reg) (n : Nat) : List Machine.Num := (elements l r fm.width n).map (decodeNum fm)
/-- d of each sibling receives a result, and the flags of all are raised. -/
def dots (f : Fibre) (d : Reg) (g : Nat → Lane → Nat × Flags) : LaneOut :=
  let os := f.lanes.zipIdx.map fun e => g e.2 e.1
  ⟨f.lanes.zipIdx.map fun e => e.1.setReg d.toNat (g e.2 e.1).1, orFlags (os.map (·.2)), 0⟩
/-- The exact integer dot product of signed or unsigned elements, added to d (R241). -/
def intDots (w : Nat) (sat sa sb : Bool) (d a b : Reg) (l : Lane) : Nat :=
  let terms := (List.range (32 / w)).map fun i => read sa w (element l a w i) * read sb w (element l b w i)
  let v := terms.foldl (· + ·) (signed 32 (l.reg d.toNat))
  if sat then saturate 32 v else modulo 32 v
/-- Whether a fibre's predicate is true in the majority of its siblings. -/
def votes (p : Pred) (f : Fibre) : Bool :=
  match f.lanes with
  | [l] => l.pred p
  | [l, m, n] => decide (2 ≤ [l, m, n].countP (·.pred p))
  | _ => false
/-- An Abacus instruction completes for its group: the register is updated once by all that execute, and each reads it as it
stood (R247, log 21). -/
def AbacusDoes (i : Instr) (x : Lx) (k : BitVec 3) (us : List RegUse) (upd : Abacus → List Fibre → Abacus)
    (out : Abacus → LaneEnv → Fibre → LaneOut) : Prop :=
  ∀ (s : State) (c : Issue) (b n : Nat), s.cur = some c → NoNumTraps s c → abacusKey (s.warp c.warp) k = some (b, n) →
    Usable s c us →
    let A := abacusAt s b n
    let acting := (groupOf (s.warp c.warp) c).filter fun f => (guardOf x f).1
    let u := if acting = [] then s else setAbacus s b n (upd A acting)
    ∃ t, exec i s = .next t
      ∧ Ends u c (laneAfter (laneEnv s c x) (out A)) (laneFlags s c x (out A)) (laneEvents s c x (out A)) t
/-- The state after an instruction holds one more fragment of the warp for each handler that its fibres run in: with its code,
the address they stand at, those of them that run in that handler, its id and the fault address; they wait in it, and their
registers are as before (R458). -/
structure Diverted (s t : State) (w : Nat) (code : Nat) (pc : VAddr) (ks : List Nat) (addr : Nat) : Prop where
  queue : ∀ k ∈ ks, ∃ q ∈ (t.warp w).queue, q.code = code ∧ q.pc = pc ∧ q.addr = addr ∧ q.parent = (s.warp w).fragOf k
    ∧ q.mask = ks.filter (fun j => (s.warp w).fragOf j == (s.warp w).fragOf k)
    ∧ ((t.warp w).fibre? k).map (fun f => (f.pc, f.status)) = some (pc, .fragment q.id)
  lanes : ∀ k, ((t.warp w).fibre? k).map (·.lanes) = ((s.warp w).fibre? k).map (·.lanes)
  memory : t.mem = s.mem
/-- A uniform instruction completes for its group: u is the state with its effect, and the group stands at `pc`. -/
def Goes (i : Instr) (s u : State) (c : Issue) (pc : VAddr) : Prop := ∃ t, exec i s = .next t ∧ UniformEnds u c pc t
/-- Since when the group has waited, and the block whose rings its ports are. -/
def portBlk (s : State) (c : Issue) : Nat := (s.warp c.warp).blk.getD 0
/-- A scalar instruction: its sources are read in order, and its destination receives a function of them and of the warp. -/
def Scalar (i : Instr) (w : Bool) (d : Reg) (srcs : List Reg) (g : Warp → List Nat → Nat) : Prop :=
  ∀ (s : State) (c : Issue) (vs : List Nat) (s1 s2 : State), Uniform s c (portUse w d :: srcs.map (portUse w)) →
    readSources s c (portBlk s c) (waitingSince s c) w srcs = (.ok vs, s1) →
    writeDest s1 c (portBlk s c) (waitingSince s c) w d (g (s.warp c.warp) vs) = .ok s2 → NoNumTraps s2 c →
    Goes i s s2 c (nextPc c)
/-- A scalar instruction of two sources. -/
def Scalar2 (i : Instr) (w : Bool) (d a b : Reg) (g : Nat → Nat → Nat) : Prop :=
  Scalar i w d [a, b] fun _ vs => g (vs.getD 0 0) (vs.getD 1 0)
/-- A scalar shift by a register's value or by the b field. -/
def ScalarShift (i : Bool → Bool → Reg → Reg → Reg → Instr) (g : Nat → Nat → Nat → Nat) : Prop :=
  (∀ w d a b, Scalar (i true w d a b) w d [a] fun _ vs => g (bits w) (vs.getD 0 0) b.toNat)
  ∧ ∀ w d a b (s : State) (c : Issue) p n s1 s2 s3, Uniform s c [portUse w d, portUse w a, portUse false b] →
      readSource s c (portBlk s c) (waitingSince s c) w a = (.ok p, s1) →
      readSource s1 c (portBlk s c) (waitingSince s c) false b = (.ok n, s2) →
      writeDest s2 c (portBlk s c) (waitingSince s c) w d (g (bits w) p n) = .ok s3 → NoNumTraps s3 c →
      Goes (i false w d a b) s s3 c (nextPc c)
/-- The token at a ring's read pointer. -/
def token (r : Ring) : Nat := (Tab.read (0 : Word) r.tokens (r.rd.toNat % 16)).toNat
/-- What an uninterrupted group waits for before it executes again, of those that a wait may hold (R319, R320). -/
def waitsFor (s : State) (c : Issue) (why : WaitFor) : Prop :=
  groupOf (s.warp c.warp) c ≠ [] ∧ ∀ f ∈ groupOf (s.warp c.warp) c, ∃ i lx w n, f.status = .waiting ⟨why, i, lx, w, n⟩
/-- Every fibre of the group waits for something, its registers and address as before, and nothing else has changed from u. -/
def Waits (i : Instr) (s u : State) (c : Issue) (why : WaitFor) : Prop :=
  ∃ t, exec i s = .next t ∧ (∀ k, c.group.contains k = true → ∀ f, (u.warp c.warp).fibre? k = some f →
      ∃ n, (t.warp c.warp).fibre? k = some { f with status := .waiting ⟨why, i, c.lx, c.word, n⟩ })
    ∧ (∀ k, c.group.contains k = false → (t.warp c.warp).fibre? k = (u.warp c.warp).fibre? k)
    ∧ t = { u with next := u.next + 1, warps := t.warps, cores := t.cores }
    ∧ ∀ v, v ≠ c.warp → Tab.find t.warps v = Tab.find u.warps v
/-- A Foreman word completes: u is the state with its effect, the context stands at `pc` and has counted a word (R327). -/
def FmGoes (i : Instr) (s u : State) (c : FmIssue) (pc : VAddr) : Prop :=
  exec i s = .next (modFm u c.blk fun F => { F with fpc := pc, fcount := F.fcount + 1 })
/-- A Foreman word is refused (R355, R489). -/
def FmRefused (i : Instr) (s : State) (c : FmIssue) : Prop :=
  exec i s = .next (refuseWord { s with fcur := none } c.blk 0x0503 c.pc.toNat .read)
/-- A command is in flight with what it copied of the context (R340). -/
def issued (s : State) (c : FmIssue) (op : Instr) : State :=
  modFm s c.blk fun F =>
    { F with issued := F.issued + 1, cmds := F.cmds ++ [⟨F.issued + 1, op, c.pc, F.fcount, F.rnd, F.ts, F.slots⟩] }
/-- A context may issue a command (R352, R411). -/
def mayIssue (s : State) (c : FmIssue) (F : Foreman) : Prop :=
  F.cmds.length < 8 ∧ sequenceHolds s c.blk 3 F.issued F.timeline = false
/-- A mask of fibre slots. -/
def slotMask (fs : List Fibre) : Nat := fs.foldl (fun a f => a ||| 2 ^ f.slot) 0

/-- The fibres of a warp stand in ascending order of their slots. -/
def InLine (W : Warp) : Prop := (W.fibres.map (·.slot)).Pairwise (· < ·)
/-- A lane instruction with an operand that its window does not allow diverts the fibres that execute, with ILLEGAL_OPERAND at
its own address (R199). -/
def BadOperand (i : Instr) (x : Lx) (us : List RegUse) : Prop :=
  ∀ (s : State) (c : Issue), s.cur = some c → NoNumTraps s c → InLine (s.warp c.warp) →
    (s.launch (s.warp c.warp).launch).lrec.trapVec ≠ 0 → usesOk (s.warp c.warp).window us = false →
    loadsHold (s.warp c.warp) c.group (spans us) [] = false →
    (∃ f ∈ groupOf (s.warp c.warp) c, (guardOf x f).1 = true) →
    ∃ t, exec i s = .next t ∧ Diverted s t c.warp 0x0202 c.pc
      (((groupOf (s.warp c.warp) c).filter fun f => (guardOf x f).1).map (·.slot)) 0
/-- No store that a core sees is on its way to its home L2. -/
def noPassing (s : State) (core : Nat) : Prop := ∀ k ∈ passCores s core, (s.core k).passing = []
/-- A tile element as a destination type holds it, with the flags of the conversion (R346). -/
def readOut (int : Bool) (typ : Nat) (mode : Mode) (d : Double) (v : Nat) : Nat × Flags :=
  if int then (if typ = 9 then saturate 8 (signed 32 v) else v, 0)
  else if typ = 0 then (v, 0)
  else match typFmt typ with
    | some f => ((encodeNum f mode d (decodeNum binary32 v)).1,
        (encodeNum f mode d (decodeNum binary32 v)).2 ||| snanFlag [decodeNum binary32 v])
    | none => (0, 0)
/-- An element of the slot that holds a plane of a tile, as `mrd` reads it out: drawn for its plane (R336, R346). -/
def planeOut (s : State) (b : Nat) (k : FmCmd) (o : Operand) (plane slot : Nat) (e : Nat × Nat) : Nat × Flags :=
  readOut ((tileAt s b slot).int == some true) o.lay.typ k.rnd
    (matrixDraw (s.launch (s.blk b).launch).lrec.seed (s.blk b).lin plane k.fcount e.1 e.2 0) ((tileAt s b slot).cell e.1 e.2)
/-- Whether an instruction is an event: it has no words, and is none that stands for words without a meaning. -/
def isEvent (i : Instr) : Bool :=
  match i with
  | .unallocatedEncoding _ _ | .foremanWordUnallocated _ => false
  | i => encode i == .event

/-- Whether an instruction is a word of the Foreman. -/
def isForeman (i : Instr) : Bool :=
  match i with
  | .foremanWordUnallocated _ => true
  | i => (encodeForeman i).isSome

end Sys2Proof.Claims

open Sys2Proof.Claims

/-! ## Lane integer instructions -/

/-- R201 to R203: sums and differences modulo 2^w, or held at the ends of the signed or unsigned range; the carry of a
sum and the borrow of a difference, on the unsigned operands, go to the predicate that CY names. -/
def Obligations.IntegerSums : Prop :=
  (∀ x cy sat w d a b, LaneDoes (.iadd x cy sat w d a b) x [byW w d, byW w a, byW w b]
    (withCarry w cy d a b
      (fun p q _ => if sat = 1 then saturate (bits w) (signed (bits w) p + signed (bits w) q)
        else if sat = 2 then min (p + q) (2 ^ bits w - 1) else (p + q) % 2 ^ bits w)
      (fun p q _ => decide (2 ^ bits w ≤ p + q))))
  ∧ (∀ x cy sat w d a b, LaneDoes (.isub x cy sat w d a b) x [byW w d, byW w a, byW w b]
    (withCarry w cy d a b
      (fun p q _ => if sat = 1 then saturate (bits w) (signed (bits w) p - signed (bits w) q)
        else if sat = 2 then min (p - q) (2 ^ bits w - 1) else modulo (bits w) ((p : Int) - q))
      (fun p q _ => decide (p < q))))
  ∧ (∀ x cy w d a b, LaneDoes (.iaddc x cy w d a b) x [byW w d, byW w a, byW w b]
    (withCarry w cy d a b (fun p q k => (p + q + one01 k) % 2 ^ bits w)
      (fun p q k => decide (2 ^ bits w ≤ p + q + one01 k))))
  ∧ (∀ x cy w d a b, LaneDoes (.isubb x cy w d a b) x [byW w d, byW w a, byW w b]
    (withCarry w cy d a b (fun p q k => modulo (bits w) ((p : Int) - q - one01 k))
      (fun p q k => decide (p < q + one01 k))))

/-- R204: the low bits of a product, its high bits, and products with a sum. -/
def Obligations.IntegerProducts : Prop :=
  (∀ x w d a b, LaneDoes (.imul x w d a b) x [byW w d, byW w a, byW w b]
    (from2 w w w d a b fun p q => p * q % 2 ^ bits w))
  ∧ (∀ x sg w d a b, LaneDoes (.imulhi x sg w d a b) x [byW w d, byW w a, byW w b]
    (from2 w w w d a b fun p q =>
      modulo (bits w) (read sg (bits w) p * read sg (bits w) q / (2 ^ bits w : Nat))))
  ∧ (∀ x w d a b c, LaneDoes (.imad x w d a b c) x [byW w d, byW w a, byW w b, byW w c]
    (from3 w w d a b c fun p q r => (p * q + r) % 2 ^ bits w))
  ∧ (∀ x sg d a b c, LaneDoes (.imadw x sg d a b c) x [two d, one a, one b, two c]
    (fun _ f => eachLane f fun _ l => l.setPair d.toNat
      (modulo 64 (read sg 32 (l.reg a.toNat) * read sg 32 (l.reg b.toNat) + (l.pair c.toNat : Int)))))

/-- R205: the smaller and the larger operand, the absolute value and the negation, the last two modulo 2^w or held in the
signed range. -/
def Obligations.IntegerSelections : Prop :=
  (∀ x sg w d a b, LaneDoes (.imin x sg w d a b) x [byW w d, byW w a, byW w b]
    (from2 w w w d a b fun p q => if read sg (bits w) p < read sg (bits w) q then p else q))
  ∧ (∀ x sg w d a b, LaneDoes (.imax x sg w d a b) x [byW w d, byW w a, byW w b]
    (from2 w w w d a b fun p q => if read sg (bits w) p < read sg (bits w) q then q else p))
  ∧ (∀ x sat w d a, LaneDoes (.iabs x sat w d a) x [byW w d, byW w a]
    (from1 w w d a fun p =>
      let v : Int := (signed (bits w) p).natAbs
      if sat then saturate (bits w) v else modulo (bits w) v))
  ∧ (∀ x sat w d a, LaneDoes (.ineg x sat w d a) x [byW w d, byW w a]
    (from1 w w d a fun p =>
      if sat then saturate (bits w) (-signed (bits w) p) else modulo (bits w) (-signed (bits w) p)))

/-- R206 to R208: bitwise operations, shifts by a register's whole value or by the b field (a count of w or more leaves
nothing, or copies of the sign), rotation and the funnel shift. -/
def Obligations.LogicAndShifts : Prop :=
  (∀ x w d a b, LaneDoes (.andB x w d a b) x [byW w d, byW w a, byW w b] (from2 w w w d a b fun p q => p &&& q))
  ∧ (∀ x w d a b, LaneDoes (.orB x w d a b) x [byW w d, byW w a, byW w b] (from2 w w w d a b fun p q => p ||| q))
  ∧ (∀ x w d a b, LaneDoes (.xorB x w d a b) x [byW w d, byW w a, byW w b] (from2 w w w d a b fun p q => p ^^^ q))
  ∧ (∀ x w d a b, LaneDoes (.andn x w d a b) x [byW w d, byW w a, byW w b]
    (from2 w w w d a b fun p q => p &&& ((2 ^ bits w - 1) ^^^ q)))
  ∧ (∀ (i : Lx → Bool → Bool → Reg → Reg → Reg → Instr) (g : Nat → Nat → Nat → Nat),
      (i, g) ∈ [(Instr.shl, shiftLeft), (Instr.shr, shiftRight), (Instr.sar, shiftSigned), (Instr.rotl, rotateLeft)] →
      ∀ x w d a b,
        LaneDoes (i x false w d a b) x [byW w d, byW w a, one b] (from2 w w false d a b (g (bits w)))
        ∧ LaneDoes (i x true w d a b) x [byW w d, byW w a] (from1 w w d a fun p => g (bits w) p b.toNat))
  ∧ (∀ x d a b c, LaneDoes (.fsh x true d a b c) x [one d, one a, one b, one c]
    (from3 false false d a b c fun p q n => (p * 2 ^ 32 + q) * 2 ^ (n % 32) / 2 ^ 32 % 2 ^ 32))
  ∧ (∀ x d a b c, LaneDoes (.fsh x false d a b c) x [one d, one a, one b, one c]
    (from3 false false d a b c fun p q n => (p * 2 ^ 32 + q) / 2 ^ (n % 32) % 2 ^ 32))

/-- R209 to R211: counts of one bits and of zeros at either end, bits in reverse, fields taken out and put in, and the
choice of bytes. What the counts and the reversal are is said bit by bit in `BitResults`. -/
def Obligations.BitInstructions : Prop :=
  (∀ x w d a, LaneDoes (.popc x w d a) x [one d, byW w a]
    (from1 false w d a fun p => (List.range (bits w)).countP p.testBit))
  ∧ (∀ x w d a, LaneDoes (.clz x w d a) x [one d, byW w a] (from1 false w d a (leadZeros (bits w))))
  ∧ (∀ x w d a, LaneDoes (.ctz x w d a) x [one d, byW w a] (from1 false w d a (trailZeros (bits w))))
  ∧ (∀ x w d a, LaneDoes (.brev x w d a) x [byW w d, byW w a] (from1 w w d a (bitReverse (bits w))))
  ∧ (∀ x sg w d a b, LaneDoes (.bfx x sg w d a b) x [byW w d, byW w a, one b]
    (from2 w w false d a b (bitExtract sg (bits w))))
  ∧ (∀ x w d a b c, LaneDoes (.bfi x w d a b c) x [byW w d, byW w a, byW w b, one c]
    (from3 w false d a b c (bitInsert (bits w))))
  ∧ (∀ x ctl d a b, LaneDoes (.bpick x ctl d a b) x [one d, one a, one b]
    (from2 false false false d a b (bytePick ctl.toNat)))

/-- R209, R210: the reversal puts bit w − 1 − i at bit i; a value has as many zeros above its highest one bit as `clz` says
and as many below its lowest as `ctz` says, w of them for 0; an unsigned field holds the bits of a from its position up to
its length or the operand's end, and a field put in changes these bits alone. -/
def Obligations.BitResults : Prop :=
  ∀ w p, (w = 32 ∨ w = 64) → p < 2 ^ w →
    (∀ i, i < w → (bitReverse w p).testBit i = p.testBit (w - 1 - i))
    ∧ bitReverse w p < 2 ^ w
    ∧ (p = 0 → leadZeros w p = w ∧ trailZeros w p = w)
    ∧ (p ≠ 0 → p.testBit (w - 1 - leadZeros w p) = true ∧ ∀ i, w - 1 - leadZeros w p < i → p.testBit i = false)
    ∧ (p ≠ 0 → p.testBit (trailZeros w p) = true ∧ ∀ i, i < trailZeros w p → p.testBit i = false)
    ∧ (∀ b i, (bitExtract false w p b).testBit i
        = (decide (i < b / 256 % 256) && decide (b % 256 + i < w) && p.testBit (b % 256 + i)))
    ∧ (∀ q c i, i < w → (bitInsert w p q c).testBit i
        = if c % 256 ≤ i ∧ i - c % 256 < c / 256 % 256 then q.testBit (i - c % 256) else p.testBit i)

/-- R212 to R217, R283: comparison into a predicate, UCMP being raised where siblings differ (R98); selection, moves from
lane and uniform registers, special registers and immediates, predicates as a word; and no operation. -/
def Obligations.ComparisonsAndMoves : Prop :=
  (∀ x c sg w pd a b, LaneDoes (.icmp x c sg w pd a b) x [byW w a, byW w b]
    (fun _ f => compareOut f pd fun l => compareInt c (read sg (bits w) (l.val w a.toNat)) (read sg (bits w) (l.val w b.toNat))))
  ∧ (∀ x w neg pn d a b, LaneDoes (.sel x w neg pn d a b) x [byW w d, byW w a, byW w b]
    (fun _ f => eachLane f fun _ l =>
      l.setVal w d.toNat (if l.pred pn = neg then l.val w b.toNat else l.val w a.toNat)))
  ∧ (∀ x w d a, LaneDoes (.mov x w d a) x [byW w d, byW w a] (from1 w w d a fun p => p))
  ∧ (∀ x w d b (s : State) (c : Issue), s.cur = some c → NoNumTraps s c → Usable s c [byW w d] →
      (w = true → b.toNat % 2 = 0) → loadsHold (s.warp c.warp) c.group [] [(b.toNat, if w then 2 else 1)] = false →
      let out := fun (e : LaneEnv) f => eachLane f fun _ l => l.setVal w d.toNat (e.warp.sval w b.toNat)
      ∃ t, exec (.movUniform x w d b) s = .next t
        ∧ Ends s c (laneAfter (laneEnv s c x) out) (laneFlags s c x out) (laneEvents s c x out) t)
  ∧ (∀ x d (b : Reg) (s : State) (c : Issue), s.cur = some c → NoNumTraps s c → InLine (s.warp c.warp) →
      (s.launch (s.warp c.warp).launch).lrec.trapVec ≠ 0 → b.toNat % 2 = 1 → groupOf (s.warp c.warp) c ≠ [] →
      ∃ t, exec (.movUniform x true d b) s = .next t
        ∧ Diverted s t c.warp 0x0202 c.pc ((groupOf (s.warp c.warp) c).map (·.slot)) 0)
  ∧ (∀ x d, LaneDoes (.movs x d .tid) x [one d] (fun _ f => eachLane f fun _ l => l.setReg d.toNat f.tid.toNat))
  ∧ (∀ x d, LaneDoes (.movs x d .sib) x [one d] (fun _ f => eachLane f fun j l => l.setReg d.toNat j))
  ∧ (∀ x d, LaneDoes (.movs x d .lane) x [one d]
    (fun e f => eachLane f fun j l => l.setReg d.toNat (if e.three then 3 * f.slot + j else f.slot)))
  ∧ (∀ x d, LaneDoes (.movs x d .icount) x [two d] (fun _ f => eachLane f fun _ l => l.setPair d.toNat f.icount.toNat))
  ∧ (∀ x d v, LaneDoes (.movi x false d v) x [one d]
    (fun _ f => eachLane f fun _ l => l.setReg d.toNat (v.signExtend 32).toNat))
  ∧ (∀ x d v, LaneDoes (.movi x true d v) x [one d]
    (fun _ f => eachLane f fun _ l => l.setReg d.toNat (v.toNat % 65536 * 65536 + l.reg d.toNat % 65536)))
  ∧ (∀ x d, LaneDoes (.movpRd x d) x [one d] (fun _ f => eachLane f fun _ l => l.setReg d.toNat l.preds.toNat))
  ∧ (∀ x a, LaneDoes (.movpWr x a) x [one a]
    (fun _ f => eachLane f fun _ l => { l with preds := BitVec.ofNat 7 (l.reg a.toNat) }))
  ∧ (∀ x t pd pa pb, LaneDoes (.movpLop x t pd pa pb) x []
    (fun _ f => eachLane f fun _ l => l.setPred pd (t.getLsbD (2 * one01 (l.pred pa) + one01 (l.pred pb)))))
  ∧ (∀ x, LaneDoes (.nop x) x [] (fun _ f => eachLane f fun _ l => l))

/-! ## Lane floating-point instructions -/

/-- R218 to R220, R225, R226: sums, differences, products, fused products, quotients, roots and reciprocals, each rounded once
by the attribute in force with the draw of its sibling, with their flags; CANC on sums and ZDIV on divisors (R111). -/
def Obligations.FloatArithmetic : Prop :=
  (∀ x ty d a b, LaneDoes (.fadd x ty d a b) x [byTy ty d, byTy ty a, byTy ty b]
    (fun e f => floats f ty d (fun j l => fAdd (fmtOf ty) (e.mode false) (e.drawOf f j 0) (num ty l a) (num ty l b))
      (cancEvent e (fmtOf ty))))
  ∧ (∀ x ty d a b, LaneDoes (.fsub x ty d a b) x [byTy ty d, byTy ty a, byTy ty b]
    (fun e f => floats f ty d
      (fun j l => fAdd (fmtOf ty) (e.mode false) (e.drawOf f j 0) (num ty l a) (num ty l b).flip)
      (cancEvent e (fmtOf ty))))
  ∧ (∀ x ty d a b, LaneDoes (.fmul x ty d a b) x [byTy ty d, byTy ty a, byTy ty b]
    (fun e f => floats f ty d (fun j l => fMul (fmtOf ty) (e.mode false) (e.drawOf f j 0) (num ty l a) (num ty l b))
      fun _ => 0))
  ∧ (∀ x d a b c, LaneDoes (.ffmaF32 x d a b c) x [one d, one a, one b, one c]
    (fun e f => floats f .f32 d
      (fun j l => fFma binary32 (e.mode false) (e.drawOf f j 0) (num .f32 l a) (num .f32 l b) (num .f32 l c))
      (cancEvent e binary32)))
  ∧ (∀ x d a b c, LaneDoes (.ffmaF64 x d a b c) x [two d, two a, two b, two c]
    (fun e f => floats f .f64 d
      (fun j l => fFma binary64 (e.mode false) (e.drawOf f j 0) (num .f64 l a) (num .f64 l b) (num .f64 l c))
      (cancEvent e binary64)))
  ∧ (∀ x ty d a b, LaneDoes (.fdiv x ty d a b) x [byTy ty d, byTy ty a, byTy ty b]
    (fun e f => floats f ty d (fun j l => fDiv (fmtOf ty) (e.mode false) (e.drawOf f j 0) (num ty l a) (num ty l b))
      fun _ => zdivEvent e (fmtOf ty) (f.vals fun l => l.fval ty b.toNat)))
  ∧ (∀ x ty d a, LaneDoes (.fsqrt x ty d a) x [byTy ty d, byTy ty a]
    (fun e f => floats f ty d (fun j l => fSqrt (fmtOf ty) (e.mode false) (e.drawOf f j 0) (num ty l a)) fun _ => 0))
  ∧ (∀ x ty d a, LaneDoes (.frcp x ty d a) x [byTy ty d, byTy ty a]
    (fun e f => floats f ty d (fun j l => fRcp (fmtOf ty) (e.mode false) (e.drawOf f j 0) (num ty l a))
      fun _ => zdivEvent e (fmtOf ty) (f.vals fun l => l.fval ty a.toNat)))
  ∧ (∀ x ty d a, LaneDoes (.frsq x ty d a) x [byTy ty d, byTy ty a]
    (fun e f => floats f ty d (fun j l => fRsq (fmtOf ty) (e.mode false) (e.drawOf f j 0) (num ty l a)) fun _ => 0))

/-- R221 to R224: minima and maxima, sign operations, comparison and classification: no rounding. -/
def Obligations.FloatSelections : Prop :=
  (∀ x ty d a b, LaneDoes (.fmin x ty d a b) x [byTy ty d, byTy ty a, byTy ty b]
    (fun _ f => floats f ty d (fun _ l => fMinMax (fmtOf ty) false false (l.fval ty a.toNat) (l.fval ty b.toNat)) fun _ => 0))
  ∧ (∀ x ty d a b, LaneDoes (.fmax x ty d a b) x [byTy ty d, byTy ty a, byTy ty b]
    (fun _ f => floats f ty d (fun _ l => fMinMax (fmtOf ty) true false (l.fval ty a.toNat) (l.fval ty b.toNat)) fun _ => 0))
  ∧ (∀ x ty d a b, LaneDoes (.fminm x ty d a b) x [byTy ty d, byTy ty a, byTy ty b]
    (fun _ f => floats f ty d (fun _ l => fMinMax (fmtOf ty) false true (l.fval ty a.toNat) (l.fval ty b.toNat)) fun _ => 0))
  ∧ (∀ x ty d a b, LaneDoes (.fmaxm x ty d a b) x [byTy ty d, byTy ty a, byTy ty b]
    (fun _ f => floats f ty d (fun _ l => fMinMax (fmtOf ty) true true (l.fval ty a.toNat) (l.fval ty b.toNat)) fun _ => 0))
  ∧ (∀ x ty d a, LaneDoes (.fabs x ty d a) x [byTy ty d, byTy ty a]
    (fun _ f => eachLane f fun _ l => l.setFval ty d.toNat (l.fval ty a.toNat % (fmtOf ty).signBit)))
  ∧ (∀ x ty d a, LaneDoes (.fneg x ty d a) x [byTy ty d, byTy ty a]
    (fun _ f => eachLane f fun _ l => l.setFval ty d.toNat (l.fval ty a.toNat ^^^ (fmtOf ty).signBit)))
  ∧ (∀ x ty d a b, LaneDoes (.fcopysign x ty d a b) x [byTy ty d, byTy ty a, byTy ty b]
    (fun _ f => eachLane f fun _ l => l.setFval ty d.toNat (l.fval ty a.toNat % (fmtOf ty).signBit
      + l.fval ty b.toNat / (fmtOf ty).signBit * (fmtOf ty).signBit)))
  ∧ (∀ x c ty pd a b, LaneDoes (.fcmp x c ty pd a b) x [byTy ty a, byTy ty b]
    (fun _ f => { compareOut f pd fun l => (fCompare c (num ty l a) (num ty l b)).1 with
      fp := orFlags (f.lanes.map fun l => (fCompare c (num ty l a) (num ty l b)).2) }))
  ∧ (∀ x ty d a, LaneDoes (.fclass x ty d a) x [one d, byTy ty a]
    (fun _ f => eachLane f fun _ l => l.setReg d.toNat (fClass (fmtOf ty) (l.fval ty a.toNat))))

/-- R227: the five transcendental functions, in the three types that have them. -/
def Obligations.Transcendentals : Prop :=
  ∀ (i : Lx → FTy → Reg → Reg → Instr) (g : Fmt → Mode → Double → Machine.Num → FOut),
    (i, g) ∈ [(Instr.fex2, fEx2), (Instr.flg2, fLg2), (Instr.fsin, fSin), (Instr.fcos, fCos), (Instr.ftanh, fTanh)] →
    ∀ x ty d a, LaneDoes (i x ty d a) x [byTy ty d, byTy ty a]
      (fun e f => floats f ty d (fun j l => g (fmtOf ty) (e.mode false) (e.drawOf f j 0) (num ty l a)) fun _ => 0)

/-- R228 to R232: rounding to an integral value, conversions between formats and to and from integers, and scaling. -/
def Obligations.Conversions : Prop :=
  (∀ x ra exact ty d a, LaneDoes (.frint x ra exact ty d a) x [byTy ty d, byTy ty a]
    (fun e f => floats f ty d (fun j l => fRint (fmtOf ty) (e.mode ra) (e.drawOf f j 0) exact (l.fval ty a.toNat)) fun _ => 0))
  ∧ (∀ x ra dst src d a, LaneDoes (.fcvt x ra dst src d a) x [cvtUse dst d, cvtUse src a]
    (fun e f =>
      let r : Nat → Lane → Nat × Flags := fun j l =>
        encodeNum (fmtOfCvt dst) (e.mode ra) (e.drawOf f j 0) (decodeNum (fmtOfCvt src) (l.cval src a.toNat))
      ⟨f.lanes.zipIdx.map fun e => e.1.setVal (dst == .f64) d.toNat (r e.2 e.1).1,
        orFlags (f.lanes.zipIdx.map fun e =>
          (r e.2 e.1).2 ||| snanFlag [decodeNum (fmtOfCvt src) (e.1.cval src a.toNat)]), 0⟩))
  ∧ (∀ x ra w sg ty d a, LaneDoes (.f2i x ra w sg ty d a) x [byW w d, byTy ty a]
    (fun e f =>
      let r : Nat → Lane → Nat × Flags := fun j l => fToInt (e.mode ra) (e.drawOf f j 0) (bits w) sg (num ty l a)
      ⟨f.lanes.zipIdx.map fun e => e.1.setVal w d.toNat (r e.2 e.1).1, orFlags (f.lanes.zipIdx.map fun e => (r e.2 e.1).2), 0⟩))
  ∧ (∀ x w sg ty d a, LaneDoes (.i2f x w sg ty d a) x [byTy ty d, byW w a]
    (fun e f => floats f ty d (fun j l =>
      let v := read sg (bits w) (l.val w a.toNat)
      fout (encodeNum (fmtOf ty) (e.mode false) (e.drawOf f j 0) (.fin (decide (v < 0)) v.natAbs 0))) fun _ => 0))
  ∧ (∀ x ty d a b, LaneDoes (.fldexp x ty d a b) x [byTy ty d, byTy ty a, one b]
    (fun e f => floats f ty d (fun j l =>
      fLdexp (fmtOf ty) (e.mode false) (e.drawOf f j 0) (num ty l a) (signed 32 (l.reg b.toNat))) fun _ => 0))
  ∧ (∀ x ty d a, LaneDoes (.ffrexp x ty d a) x [if ty = .f64 then four d else two d, byTy ty a]
    (fun _ f =>
      let r : Lane → Nat × Int × Flags := fun l => fFrexp (fmtOf ty) (l.fval ty a.toNat)
      ⟨f.lanes.map fun l =>
          if ty = .f64 then ((l.setPair d.toNat (r l).1).setReg (d.toNat + 2) (modulo 32 (r l).2.1)).setReg (d.toNat + 3) 0
          else (l.setFval ty d.toNat (r l).1).setReg (d.toNat + 1) (modulo 32 (r l).2.1),
        orFlags (f.lanes.map fun l => (r l).2.2), 0⟩))

/-- R233 to R235: digits and agreement of a triple, the moves between siblings, their mean and majority, and draws. -/
def Obligations.SiblingInstructions : Prop :=
  (∀ x ty d a, LaneDoes (.digits x ty d a) x [one d, byTy ty a]
    (fun _ f => eachLane f fun _ l => l.setReg d.toNat (digitsOf (some (fmtOf ty)) (f.vals fun l => l.fval ty a.toNat))))
  ∧ (∀ x ty d a, LaneDoes (.agree x ty d a) x [one d, byTy ty a]
    (fun _ f => eachLane f fun _ l => l.setReg d.toNat (agreeOf (fmtOf ty) (f.vals fun l => l.fval ty a.toNat))))
  ∧ (∀ x w k d a, LaneDoes (.sibget x w k d a) x [byW w d, byW w a]
    (fun _ f => eachLane f fun _ l => l.setVal w d.toNat ((f.lane k.toNat).val w a.toNat)))
  ∧ (∀ x w k d a, LaneDoes (.sibput x w k d a) x [byW w d, byW w a]
    (fun _ f => eachLane f fun j l => if j = k.toNat then l.setVal w d.toNat ((f.lane 0).val w a.toNat) else l))
  ∧ (∀ x w r d a, LaneDoes (.sibrot x w r d a) x [byW w d, byW w a]
    (fun _ f => eachLane f fun j l => l.setVal w d.toNat ((f.lane ((j + r.toNat) % 3)).val w a.toNat)))
  ∧ (∀ x ty d a, LaneDoes (.sibmean x ty d a) x [byTy ty d, byTy ty a]
    (fun _ f =>
      let r := combine (some (fmtOf ty)) (f.vals fun l => l.fval ty a.toNat)
      ⟨f.lanes.map fun l => l.setVal (ty == .f64) d.toNat r.1, r.2.1, r.2.2⟩))
  ∧ (∀ x w d a, LaneDoes (.sibmaj x w d a) x [byW w d, byW w a]
    (fun _ f =>
      let r := combine none (f.vals fun l => l.val w a.toNat)
      ⟨f.lanes.map fun l => l.setVal w d.toNat r.1, r.2.1, r.2.2⟩))
  ∧ (∀ x d b, LaneDoes (.rdraw x d b) x [two d, one b]
    (fun e f => eachLane f fun j l =>
      l.setPair d.toNat (if e.x.sib = 2 then 0 else (e.drawOf f j (l.reg b.toNat)).toNat)))

/-! ## Packed instructions -/

/-- R238 to R241: sums of products of packed elements added to d: FP8 pairs with an optional scale whose byte 0xFF gives a
NaN, halves, scaled E2M1 in the MX and NX4 forms, and integers modulo 2^32 or saturated. -/
def Obligations.PackedDots : Prop :=
  (∀ x ta tb d a b, LaneDoes (.fdp16 x none ta tb d a b) x [one d, four a, four b]
    (fun e f => dots f d fun j l => chunkStep (e.mode false) (e.drawOf f j 0) (some 24) 0
      (nums (if ta then e5m2 else e4m3) l a 16) (nums (if tb then e5m2 else e4m3) l b 16) (l.reg d.toNat)))
  ∧ (∀ x r ta tb d a b, LaneDoes (.fdp16 x (some r) ta tb d a b) x [one d, four a, four b, one r]
    (fun e f => dots f d fun j l =>
      let p := l.reg r.toNat % 256
      let q := l.reg r.toNat / 256 % 256
      if p = 255 ∨ q = 255 then (binary32.nanBits, 0)
      else chunkStep (e.mode false) (e.drawOf f j 0) (some 24) ((p : Int) + q - 254)
        (nums (if ta then e5m2 else e4m3) l a 16) (nums (if tb then e5m2 else e4m3) l b 16) (l.reg d.toNat)))
  ∧ (∀ x bf d a b, LaneDoes (.fdp8 x bf d a b) x [one d, four a, four b]
    (fun e f => dots f d fun j l => chunkStep (e.mode false) (e.drawOf f j 0) (some 40) 0
      (nums (if bf then bfloat16 else binary16) l a 8) (nums (if bf then bfloat16 else binary16) l b 8) (l.reg d.toNat)))
  ∧ (∀ x nb r d a b, LaneDoes (.fdpsc x true nb r d a b) x [one d, four a, four b, four r]
    (fun e f => dots f d fun j l =>
      let p := l.reg r.toNat % 256
      let q := l.reg (r.toNat + 1) % 256
      if p = 255 ∨ q = 255 then (binary32.nanBits, 0)
      else chunkStep (e.mode false) (e.drawOf f j 0) none ((p : Int) + q - 254) (nums e2m1 l a 32) (nums e2m1 l b 32)
        (l.reg d.toNat)))
  ∧ (∀ x nb r d a b, LaneDoes (.fdpsc x false nb r d a b) x [one d, four a, four b, four r]
    (fun e f => dots f d fun j l => nx4Dot (e.mode false) (e.drawOf f j 0)
      ((List.range (nb.toNat + 1)).map fun k =>
        (((nums e2m1 l a 32).drop (8 * k)).take 8, ((nums e2m1 l b 32).drop (8 * k)).take 8,
          decodeNum e5m2 (l.reg r.toNat / 256 ^ k), decodeNum e5m2 (l.reg (r.toNat + 1) / 256 ^ k)))
      (decodeNum bfloat16 (l.reg (r.toNat + 2) % 65536)) (decodeNum bfloat16 (l.reg (r.toNat + 2) / 65536))
      (l.reg d.toNat)))
  ∧ (∀ x sat sa sb d a b, LaneDoes (.idp4 x sat sa sb d a b) x [one d, one a, one b]
    (fun _ f => eachLane f fun _ l => l.setReg d.toNat (intDots 4 sat sa sb d a b l)))
  ∧ (∀ x sat sa sb d a b, LaneDoes (.idp8 x sat sa sb d a b) x [one d, one a, one b]
    (fun _ f => eachLane f fun _ l => l.setReg d.toNat (intDots 8 sat sa sb d a b l)))

/-- R242 to R245: packing and unpacking of small formats, the scale codes, and structured sparsity: the two elements of
largest magnitude, ties going to the lower index, with the word of their indices. -/
def Obligations.PackedConversions : Prop :=
  (∀ x ra dst d a, LaneDoes (.cvtpk x ra dst d a none) x [one d, cvtRegs dst a]
    (fun e f => dots f d fun j l =>
      let rs := (List.range (cvtCount dst)).map fun i =>
        let v := decodeNum binary32 (l.reg (a.toNat + i))
        let r := encodeNum (fmtOfCvt dst) (e.mode ra) (e.drawOf f j i) v
        (r.1, r.2 ||| snanFlag [v])
      (packElems (fmtOfCvt dst).width (rs.map (·.1)), orFlags (rs.map (·.2)))))
  ∧ (∀ x ra dst d a b, LaneDoes (.cvtpk x ra dst d a (some b)) x [one d, cvtRegs dst a, one b]
    (fun e f => dots f d fun j l =>
      let k := l.reg b.toNat % 256
      let rs := (List.range (cvtCount dst)).map fun i =>
        let v := decodeNum binary32 (l.reg (a.toNat + i))
        let r := encodeNum (fmtOfCvt dst) (e.mode ra) (e.drawOf f j i)
          (if k = 255 then .nan v.isSnan else v.scale (127 - k))
        (r.1, r.2 ||| snanFlag [v])
      (packElems (fmtOfCvt dst).width (rs.map (·.1)), orFlags (rs.map (·.2)))))
  ∧ (∀ x src d a, LaneDoes (.cvtupk x src d a) x [cvtRegs src d, one a]
    (fun _ f =>
      ⟨f.lanes.map fun l => (nums (fmtOfCvt src) l a (cvtCount src)).zipIdx.foldl
          (fun m e => m.setReg (d.toNat + e.2) (encodeNum binary32 modeRN 0 e.1).1) l,
        orFlags (f.lanes.map fun l => snanFlag (nums (fmtOfCvt src) l a (cvtCount src))), 0⟩))
  ∧ (∀ x c d a, LaneDoes (.scdec x c d a) x [one d, one a]
    (fun _ f => dots f d fun _ l => scdecResult c (l.reg a.toNat)))
  ∧ (∀ x ty d a, LaneDoes (.sparsify x ty d a) x [two d, byW (ty = .f16 ∨ ty = .bf16) a]
    (fun _ f => eachLane f fun _ l =>
      let w := if ty = .f16 ∨ ty = .bf16 then 16 else 8
      let es := elements l a w 4
      let rank : Nat → Nat := fun i => sparseRank ty (es.getD i 0)
      let before : Nat → Nat → Bool := fun i j => decide (rank j < rank i ∨ (rank i = rank j ∧ i < j))
      let kept := (List.range 4).filter fun i => decide ((List.range 4).countP (fun j => before j i) < 2)
      (l.setReg d.toNat (es.getD (kept.getD 0 0) 0 % 2 ^ w + 2 ^ w * (es.getD (kept.getD 1 0) 0 % 2 ^ w))).setReg
        (d.toNat + 1) (kept.getD 0 0 + 4 * kept.getD 1 0)))

/-! ## Warp-wide instructions -/

/-- R268, R269: what the members vote by the majority of their siblings, how many and which of them vote so, the first and
the last member, and the mask of the members. -/
def Obligations.WarpPolls : Prop :=
  let poll : Pred → (List Fibre → Lane → Lane) → LaneEnv → List Fibre → Fibre → LaneOut := fun pa put _ mem f =>
    ⟨f.lanes.map (put mem), 0, guardEvent (majorityBool (f.lanes.map (·.pred pa))).2⟩
  (∀ x mm pd pa, WideDoes (.pollSome x mm pd pa) x mm [] (poll pa fun mem l => l.setPred pd (mem.any (votes pa))))
  ∧ (∀ x mm pd pa, WideDoes (.pollEvery x mm pd pa) x mm [] (poll pa fun mem l => l.setPred pd (mem.all (votes pa))))
  ∧ (∀ x mm pd pa, WideDoes (.pollSame x mm pd pa) x mm []
    (poll pa fun mem l => l.setPred pd (mem.all (votes pa) || !mem.any (votes pa))))
  ∧ (∀ x mm d pa, WideDoes (.pollCount x mm d pa) x mm [one d]
    (poll pa fun mem l => l.setReg d.toNat (mem.countP (votes pa))))
  ∧ (∀ x mm d pa s c mem, Members s c x mm mem → NoNumTraps s c →
      Usable s c (groupUse (s.three (s.warp c.warp)) d :: maskUse s c mm) →
      ∃ t, exec (.pollMask x mm d pa) s = .next t
        ∧ let out := fun e => poll pa (fun mem l =>
            l.setMany d.toNat (groupRegs (s.three (s.warp c.warp))) (slotMask (mem.filter (votes pa)))) e mem
          Ends s c (laneAfter (laneEnv s c x) out) (laneFlags s c x out) (laneEvents s c x out) t)
  ∧ (∀ x mm pd, WideDoes (.leadFirst x mm pd) x mm []
    (fun _ mem f => eachLane f fun _ l => l.setPred pd (mem.head?.map (·.slot) == some f.slot)))
  ∧ (∀ x mm pd, WideDoes (.leadLast x mm pd) x mm []
    (fun _ mem f => eachLane f fun _ l => l.setPred pd (mem.getLast?.map (·.slot) == some f.slot)))
  ∧ (∀ x mm d s c mem, Members s c x mm mem → NoNumTraps s c →
      Usable s c (groupUse (s.three (s.warp c.warp)) d :: maskUse s c mm) →
      ∃ t, exec (.wmask x mm d) s = .next t
        ∧ let out := fun (_ : LaneEnv) f => eachLane f fun _ l =>
            l.setMany d.toNat (groupRegs (s.three (s.warp c.warp))) (slotMask mem)
          Ends s c (laneAfter (laneEnv s c x) out) (laneFlags s c x out) (laneEvents s c x out) t)

/-- R270 to R272: a fibre reads the lane of the member that `xlane` names, or its own; reductions and scans of the members in
rising slot order; and the members that hold the same value. -/
def Obligations.WarpExchanges : Prop :=
  (∀ x mm seg w d a b, WideDoes (.xlane x mm seg .rev w d a b) x mm [byW w d, byW w a]
    (fun e mem f => eachLane f fun j l =>
      let size := if seg = 0 then fibreCount e.three else 2 ^ seg.toNat
      let k := f.slot / size * size + (size - 1 - f.slot % size)
      let g := if k < fibreCount e.three then (mem.find? fun g => g.slot == k).getD f else f
      l.setVal w d.toNat ((g.lane j).val w a.toNat)))
  ∧ (∀ x mm seg mode w d a b s c mem (v : Fibre → Nat), mode ≠ .rev → Members s c x mm mem → NoNumTraps s c →
      Usable s c ([byW w d, byW w a, one b] ++ maskUse s c mm) →
      (∀ f ∈ groupOf (s.warp c.warp) c, oneValue f (·.reg b.toNat) .read = .ok (v f)) →
      ∃ t, exec (.xlane x mm seg mode w d a b) s = .next t
        ∧ let out := fun (e : LaneEnv) f => eachLane f fun j l =>
            let n := fibreCount e.three
            let size := if seg = 0 then n else 2 ^ seg.toNat
            let g := ((xlaneSource mode size n f.slot (v f)).bind fun k => mem.find? fun g => g.slot == k).getD f
            l.setVal w d.toNat ((g.lane j).val w a.toNat)
          Ends s c (laneAfter (laneEnv s c x) out) (laneFlags s c x out) (laneEvents s c x out) t)
  ∧ (∀ x mm ty op d a, WideDoes (.wred x mm ty op d a) x mm [atomUse ty d, atomUse ty a]
    (fun e mem f =>
      let r : Nat → Nat × Flags := fun j =>
        wideCombine op ty (e.mode false) (e.drawOf f j 0) (mem.map fun g => atomData ty a (g.lane j))
      ⟨f.lanes.zipIdx.map fun y => y.1.setVal (atomSize ty == 8) d.toNat (r y.2).1,
        orFlags (f.lanes.zipIdx.map fun y => (r y.2).2), 0⟩))
  ∧ (∀ x mm excl ty op d a, WideDoes (.wscan x mm excl ty op d a) x mm [atomUse ty d, atomUse ty a]
    (fun e mem f =>
      let upTo := mem.filter fun g => if excl then decide (g.slot < f.slot) else decide (g.slot ≤ f.slot)
      let r : Nat → Nat × Flags := fun j =>
        wideCombine op ty (e.mode false) (e.drawOf f j 0) (upTo.map fun g => atomData ty a (g.lane j))
      ⟨f.lanes.zipIdx.map fun y => y.1.setVal (atomSize ty == 8) d.toNat (r y.2).1,
        orFlags (f.lanes.zipIdx.map fun y => (r y.2).2), 0⟩))
  ∧ (∀ x mm w d a s c mem, Members s c x mm mem → NoNumTraps s c →
      Usable s c ([groupUse (s.three (s.warp c.warp)) d, byW w a] ++ maskUse s c mm) →
      ∃ t, exec (.warpMatch x mm w d a) s = .next t
        ∧ let value : Fibre → Nat × Flags × BitVec 4 := fun g => combine none (g.vals (·.val w a.toNat))
          let out := fun (_ : LaneEnv) (f : Fibre) => (⟨f.lanes.map fun l =>
              l.setMany d.toNat (groupRegs (s.three (s.warp c.warp))) (slotMask (mem.filter fun g => (value g).1 == (value f).1)),
            0, (value f).2.2⟩ : LaneOut)
          Ends s c (laneAfter (laneEnv s c x) out) (laneFlags s c x out) (laneEvents s c x out) t)

/-! ## Memory -/

/-- R155, R253 to R256, R265: one fibre loads an element. What it read waits in the warp's loads, as the words of each
sibling's registers, sign-extended for the signed types; a load that acquires beyond its core, by itself or after a fence, is
served by no copy of its core and gives those up; `ldf` reads a full future at once. That the value is taken when the load issues,
and that only the instructions which name its registers wait for it, is the model's choice (log 9). Stated of one fibre by itself. -/
def Obligations.Loads : Prop :=
  (∀ x ty seg off t a s c f v p el s1 s2, Alone s c x f →
      Usable s c [ty.use t, addrUse seg a] → addrValue seg a f .read = .ok v →
      locate s (s.warp c.warp) f.tid.toNat seg v (off.toNat * ty.size) ty.size .read false = (.ok p, s1) →
      loadElem s1 c.warp (f.relaxed s1 (s.warp c.warp).core) p ty.size p.va = (.ok el, s2) →
      ∀ u, u = acquireAt (addLoad s2 c.warp (some f.slot) (regWrites t.toNat ty.regs
          ((siblingValues (s.three (s.warp c.warp)) p ty.fmt el).map ty.extend))) (s.warp c.warp).core f.fenced →
      NoNumTraps u c → AloneEnds (.ld x ty seg off t a) s u c x f (nextPc c) f.lanes 0 0)
  ∧ (∀ x ty sc seg off t a s c f v p el s1 s2, Alone s c x f →
      Usable s c [ty.use t, addrUse seg a] → addrValue seg a f .read = .ok v →
      locate s (s.warp c.warp) f.tid.toNat seg v (off.toNat * ty.size) ty.size .read false = (.ok p, s1) →
      loadElem s1 c.warp (f.relaxed s1 (s.warp c.warp).core && !atHome s1 (s.warp c.warp).core sc) p ty.size p.va
        = (.ok el, s2) →
      ∀ u, u = acquireAt (acquire (addLoad s2 c.warp (some f.slot) (regWrites t.toNat ty.regs
          ((siblingValues (s.three (s.warp c.warp)) p ty.fmt el).map ty.extend))) (s.warp c.warp).core sc)
          (s.warp c.warp).core f.fenced →
      NoNumTraps u c → AloneEnds (.lda x ty sc seg off t a) s u c x f (nextPc c) f.lanes 0 0)
  ∧ (∀ x sc seg d a s c f v p el s1 s2, Alone s c x f →
      Usable s c [two d, addrUse seg a] → addrValue seg a f .read = .ok v →
      locate s (s.warp c.warp) f.tid.toNat seg v 0 8 .read true = (.ok p, s1) →
      loadElem s1 c.warp false p 8 p.va = (.ok el, s2) → 2 ^ 63 ≤ el.copies.headD 0 →
      ∀ u, u = acquire s2 (s.warp c.warp).core sc → NoNumTraps u c →
      AloneEnds (.ldf x sc seg d a) s u c x f (nextPc c)
        (f.lanes.map fun l => l.setPair d.toNat (el.copies.headD 0 - 2 ^ 63)) 0 0)
  ∧ ∀ (w idx : Nat) (s : State) (p : PendingLoad), (s.warp w).loads[idx]? = some p →
      exec (.loadDataReturn w idx) s
        = .next (s.modWarp w fun W => { applyLoad W p with loads := W.loads.eraseIdx idx })

/-- R177, R257: the words a load brings: its element's value, sign-extended for `i8` and `i16`, as the 32-bit words of the
data registers from the lowest; three copies where the place holds one value, and the three of a TRIPLE element. That a load of a
single-lane warp takes copy 0 of any layout is the model's choice (log 90). -/
def Obligations.LoadedWords : Prop :=
  (∀ (ty : MTy) v, ty.extend v = match ty with
    | .i8 => modulo 32 (signed 8 v) | .i16 => modulo 32 (signed 16 v) | _ => v)
  ∧ (∀ (r n : Nat) (vs : List Nat) (j i : Nat) (w : Word), (j, r + i, w) ∈ regWrites r n vs ↔
      ∃ v, vs[j]? = some v ∧ i < n ∧ w = BitVec.ofNat 32 (v / 2 ^ (32 * i)))
  ∧ (∀ (p : Place) fmt d v, p.sib = .plain → siblingValues true p fmt ⟨[v], d⟩ = [v, v, v])
  ∧ (∀ (p : Place) fmt d v1 v2 v3, p.sib = .triple → siblingValues true p fmt ⟨[v1, v2, v3], d⟩ = [v1, v2, v3])
  ∧ (∀ (p : Place) fmt d v t, siblingValues false p fmt ⟨v :: t, d⟩ = [v])

/-- R101, R105, R106, R149, R255, R259, R265: one fibre stores an element or issues a reduction, which takes its place among the
warp's operations; the oldest operation of a warp's store queue is performed, a store of translated memory that nothing orders
being on its way to its home L2 from then (R150); and one that is on its way reaches it. -/
def Obligations.Stores : Prop :=
  (∀ x (ty : MTy) seg off t a s c f v p s1 s2, Alone s c x f →
      Usable s c [ty.use t, addrUse seg a] → addrValue seg a f .write = .ok v →
      locate s (s.warp c.warp) f.tid.toNat seg v (off.toNat * ty.size) ty.size .write false = (.ok p, s1) →
      ∀ w : List MByte × Flags × BitVec 4, w = storeWrites p ty.size ty.fmt (f.lanes.map (ty.data t)) →
      issueStore s1 c.warp ⟨p, ty.size, w.1, none, .device, false, c.pc, f.slot, w.2.1, w.2.2,
        trapEvents s1 (s.warp c.warp) w.2.2⟩ p.va s1.next f.tid.toNat
        = .ok s2 → NoNumTraps s2 c →
      AloneEnds (.st x ty seg off t a) s s2 c x f (nextPc c) f.lanes 0 (trapEvents s2 (s.warp c.warp) w.2.2))
  ∧ (∀ x (ty : MTy) sc seg off t a s c f v p s1 s2, Alone s c x f →
      Usable s c [ty.use t, addrUse seg a] → addrValue seg a f .write = .ok v →
      locate s (s.warp c.warp) f.tid.toNat seg v (off.toNat * ty.size) ty.size .write false = (.ok p, s1) →
      ∀ w : List MByte × Flags × BitVec 4, w = storeWrites p ty.size ty.fmt (f.lanes.map (ty.data t)) →
      issueStore s1 c.warp ⟨p, ty.size, w.1, none, sc, true, c.pc, f.slot, w.2.1, w.2.2,
        trapEvents s1 (s.warp c.warp) w.2.2⟩ p.va s1.next f.tid.toNat
        = .ok s2 → NoNumTraps s2 c →
      AloneEnds (.stl x ty sc seg off t a) s s2 c x f (nextPc c) f.lanes 0 (trapEvents s2 (s.warp c.warp) w.2.2))
  ∧ (∀ x op ty o sc seg a b s c f v p s1 s2, Alone s c x f →
      Usable s c [addrUse seg a, atomUse ty b] → addrValue seg a f .rmw = .ok v →
      locate s (s.warp c.warp) f.tid.toNat seg v 0 (atomSize ty) .rmw false = (.ok p, s1) →
      ∀ ev, ev = (if p.sib = .triple then 0 else (combine (atomFmt ty) (f.lanes.map (atomData ty b))).2.2) →
      issueStore s1 c.warp ⟨p, atomSize ty, [], some ⟨op, ty, f.lanes.map fun l => BitVec.ofNat 64 (atomData ty b l),
        ⟨(laneEnv s c x).mode false, x.sib, f.tid, f.icount⟩⟩, sc, o == .rel, c.pc, f.slot, 0, 0,
        trapEvents s1 (s.warp c.warp) ev⟩ p.va s1.next f.tid.toNat
        = .ok s2 → ∀ u, u = commitBlock s2 (s.warp c.warp) → NoNumTraps u c →
      AloneEnds (.red x op ty o sc seg a b) s u c x f (nextPc c) f.lanes 0 (trapEvents s2 (s.warp c.warp) ev))
  ∧ (∀ x sc seg a b s c f v p s1 s2, Alone s c x f →
      Usable s c [addrUse seg a, two b] → addrValue seg a f .write = .ok v →
      locate s (s.warp c.warp) f.tid.toNat seg v 0 8 .write true = (.ok p, s1) →
      ∀ r : Nat × Flags × BitVec 4, r = combine none (f.lanes.map (·.pair b.toNat)) →
      issueStore s1 c.warp ⟨p, 8, wholeBytes (p.base + p.off) (leBytes 8 (r.1 % 2 ^ 63 + 2 ^ 63)), none, sc, true, c.pc,
        f.slot, 0, r.2.2, trapEvents s1 (s.warp c.warp) r.2.2⟩ p.va s1.next f.tid.toNat = .ok s2 →
      ∀ u, u = commitBlock s2 (s.warp c.warp) → NoNumTraps u c →
      AloneEnds (.stf x sc seg a b) s u c x f (nextPc c) f.lanes 0 (trapEvents s2 (s.warp c.warp) r.2.2))
  ∧ (∀ w W o rest s s1 u, Tab.find s.warps w = some W → W.heldStores = false → W.storeQ = o :: rest → o.rmw = none →
      o.place.tracked = false → opStays s W.ctx W.core o = false →
      linkCheck s o.place o.size .write = (none, s1) →
      u = (if mayPass s1 W.core W.launch o then sendStore s1 W.core ⟨o, o.place.keyOf s1, w, W.launch, W.blk⟩
        else writePlace (landBefore s1 W.core o) W.core o.place o.writes) →
      exec (.storeDrain (.warp w)) s
        = .next (countNum ((chargeBytes u W.ctx o.place o.size true).modWarp w fun V =>
            { V.addFlags o.fp o.num with storeQ := rest }) W.ctx W.core (o.num &&& ~~~o.raised)))
  ∧ ∀ core (y : Passing) s, (s.core core).tracker = [] → (s.core core).passing = [y] → y.stuck s = false →
      exec (.storeDrain (.tracker core 0)) s
        = .next (writePhys (s.modCore core fun C => { C with passing := [] }) (some core) y.key y.op.writes)

/-- R4, R101, R105, R149: a store of one value writes its bytes from the lowest address; a TRIPLE element is written as three
copies and its digit count; an untracked store waits at the end of its warp's queue, and a byte of a window or of memory that
a write does not name reads as before. -/
def Obligations.StoredBytes : Prop :=
  (∀ (p : Place) n fmt v, p.sib = .plain →
      storeWrites p n fmt [v] = (wholeBytes (p.base + p.off) (leBytes n v), 0, 0))
  ∧ (∀ (p : Place) n v, p.sib = .plain →
      storeWrites p n none [v, v, v] = (wholeBytes (p.base + p.off) (leBytes n v), 0, 0))
  ∧ (∀ (p : Place) n v1 v2 v3, p.sib = .triple →
      storeWrites p n none [v1, v2, v3] = (wholeBytes (p.base + 4 * p.off)
        (leBytes n v1 ++ leBytes n v2 ++ leBytes n v3 ++ leBytes n 0), 0, 0))
  ∧ (∀ n v i, i < n → (leBytes n v)[i]? = some (BitVec.ofNat 8 (v / 256 ^ i)))
  ∧ (∀ s w W o ea order tid, Tab.find s.warps w = some W → o.place.tracked = false → boardHit s o.place o.size true = false →
      locked s W o = false →
      ∃ u, issueStore s w o ea order tid = .ok u ∧ u.warp w = { W with storeQ := W.storeQ ++ [o] } ∧ u.mem = s.mem)
  ∧ (∀ (m : Tab Byte) bs a b, (∀ y ∈ wholeBytes a bs, y.addr ≠ b) →
      Tab.rising none m = true → Tab.read (0 : Byte) ((wholeBytes a bs).foldl writeMasked m) b = Tab.read (0 : Byte) m b)
  ∧ (∀ (m : Tab Byte) bs a i, Tab.rising none m = true → i < bs.length →
      some (Tab.read (0 : Byte) ((wholeBytes a bs).foldl writeMasked m) (a + i)) = bs[i]?)

/-- R108, R258, R260 (Table 10-4): a returning atomic of one fibre performs at once; what it returns waits in the warp's loads, and an
acquiring one gives up older copies; and what the integer operations make: sums modulo 2^w, the smaller and the larger as signed or
unsigned, bitwise results, exchange, and the increment that returns to 0 once it has reached the operand. -/
def Obligations.Atomics : Prop :=
  ((∀ x op ty o sc seg d a b s c f v p s1 olds fp ev s2, Alone s c x f →
      Usable s c [atomUse ty d, addrUse seg a, atomUse ty b] → addrValue seg a f .rmw = .ok v →
      locate s (s.warp c.warp) f.tid.toNat seg v 0 (atomSize ty) .rmw false = (.ok p, s1) →
      performAtomic s1 c.warp p (atomSize ty) p.va (atomFmt ty) (f.lanes.map (atomData ty b))
        (fun j old y =>
          let e := laneEnv s c x
          let r := atomResult op ty old y (e.mode false) (laneDraw e.seed f.tid (if x.sib = 1 then 0 else j) f.icount 0)
          (some r.1, r.2)) = (.ok (olds, fp, ev), s2) →
      ∀ u, u = addLoad s2 c.warp (some f.slot) (regWrites d.toNat (if atomSize ty = 8 then 2 else 1) olds) →
      ∀ u', u' = acquireAt (if o = .acq ∨ o = .ar ∨ o = .sc then acquire u (s.warp c.warp).core sc else u)
        (s.warp c.warp).core f.fenced → NoNumTraps u' c →
      AloneEnds (.atom x op ty o sc seg d a b) s u' c x f (nextPc c) f.lanes fp ev)
  ∧ (∀ x w o sc seg d a b k s c f v p s1 olds fp ev s2, Alone s c x f → ∀ n, n = (if w then 8 else 4) →
      Usable s c [byW w d, addrUse seg a, byW w b, byW w k] → addrValue seg a f .rmw = .ok v →
      locate s (s.warp c.warp) f.tid.toNat seg v 0 n .rmw false = (.ok p, s1) →
      ∀ y : List Nat × BitVec 4, y = atomcVals n (·.val w b.toNat) (·.val w k.toNat) p f →
      performAtomic s1 c.warp p n p.va none y.1
        (fun _ old z => (if old = z % 2 ^ (8 * n) then some (z / 2 ^ (8 * n)) else none, 0)) = (.ok (olds, fp, ev), s2) →
      ∀ u, u = addLoad s2 c.warp (some f.slot) (regWrites d.toNat (if n = 8 then 2 else 1) olds) →
      ∀ u', u' = acquireAt (if o = .acq ∨ o = .ar ∨ o = .sc then acquire u (s.warp c.warp).core sc else u)
        (s.warp c.warp).core f.fenced → NoNumTraps u' c →
      AloneEnds (.atomc x w o sc seg d a b k) s u' c x f (nextPc c) f.lanes fp (ev ||| y.2)))
  ∧ (∀ ty old b mode d, atomFmt ty = none → old < 2 ^ (8 * atomSize ty) → b < 2 ^ (8 * atomSize ty) →
    let w := 8 * atomSize ty
    let r := fun op => atomResult op ty old b mode d
    let sg := decide (ty = .i32 ∨ ty = .i64)
    r .add = ((old + b) % 2 ^ w, 0)
    ∧ read sg w (r .min).1 = min (read sg w old) (read sg w b)
    ∧ read sg w (r .max).1 = max (read sg w old) (read sg w b)
    ∧ r .and_ = (old &&& b, 0) ∧ r .or_ = (old ||| b, 0) ∧ r .xor_ = (old ^^^ b, 0) ∧ r .exch = (b, 0)
    ∧ r .inc = (if old < b then old + 1 else 0, 0))

/-- R261 to R264, R266, R267: a piece copy and a bulk copy that are recorded and queued with the earlier stores performed, a
hint that changes nothing but walks, a monitor armed, awaited or absent, and fences: a fence that releases beyond its core has
the earlier stores performed, and one that acquires holds for the fibre's later reads (R155). -/
def Obligations.CopiesAndMonitors : Prop :=
  (∀ x sc seg dclus bar d a s c f s1 s2, Alone s c x f →
      Usable s c [one d, addrUse seg a] → mayCopy s (s.warp c.warp) = true →
      flushed s c.warp = (true, s1) →
      (∀ w, f.status = .waiting w → ∀ n, w.why ≠ .recorded n) →
      cpaFibre s1 (laneEnv s c x) c s1.next seg dclus bar d a f = (.ok (), s2) → NoNumTraps s2 c →
      AloneEnds (.cpa x sc seg dclus bar d a) s s2 c x f (nextPc c) f.lanes 0 0)
  ∧ (∀ x sc seg d a s c f v ea ps s1 s2 bs s3 s4, Alone s c x f →
      Usable s c [two d, addrUse seg a] → mayCopy s (s.warp c.warp) = true →
      addrValue seg a f .read = .ok v →
      locatePieces s (s.warp c.warp) f.tid.toNat seg v 64 16 .read = (.ok (ea, ps), s1) →
      flushed s1 c.warp = (true, s2) → loadShared s2 c.warp [f] ea ps = (.ok bs, s3) →
      ∀ b, b = (s.warp c.warp).blk.getD 0 →
      recordRanges s3 (fitBoards (recordBoards s3 (s.warp c.warp) b bs (.carter b ((s3.blk b).carter.issued + 1) 0))) = some s4 →
      ∀ u, u = commitBlock (queueCopy s4 b bs ea c.pc c.warp f.slot).2 (s.warp c.warp) → NoNumTraps u c →
      AloneEnds (.tcopy x sc seg d a) s u c x f (nextPc c)
        (f.lanes.map fun l => l.setPair d.toNat ((s4.blk b).carter.issued + 1)) 0 0)
  ∧ (∀ x sc seg lv a s c f, Alone s c x f → NoNumTraps s c → Usable s c [addrUse seg a] →
      ∃ ws, AloneEnds (.pref x sc seg lv a) s { s with walks := ws } c x f (nextPc c) f.lanes 0 0)
  ∧ (∀ x sc seg a s c f v p s1 s2, Alone s c x f → Usable s c [addrUse seg a] →
      addrValue seg a f .read = .ok v → locate s (s.warp c.warp) f.tid.toNat seg v 0 8 .read false = (.ok p, s1) →
      linkCheck s1 p 8 .read = (none, s2) →
      ∀ u, u = s2.modWarp c.warp (fun W => { W with monitor := some ⟨p.sram, p.data 8 0, false, false, false⟩ }) →
      NoNumTraps u c → AloneEnds (.mwatch x sc seg a) s u c x f (nextPc c) f.lanes 0 0)
  ∧ (∀ x sc seg d b s c f v, Alone s c x f → NoNumTraps s c → Usable s c [one d, one b] →
      oneValue f (·.reg b.toNat) .read = .ok v → ∀ k,
      (match (s.warp c.warp).monitor with
        | none => k = 3
        | some m => (m.woken = true ∧ k = 0) ∨ (m.woken = false ∧ m.moved = true ∧ k = 1)
          ∨ (m.woken = false ∧ m.moved = false ∧ m.expired = true ∧ k = 2)) →
      AloneEnds (.mwait x sc seg d b) s (s.modWarp c.warp fun W => { W with monitor := none }) c x f (nextPc c)
        (f.lanes.map fun l => l.setReg d.toNat k) 0 0)
  ∧ (∀ x o sc s c f s1, Alone s c x f →
      (if o = .sc ∨ ((o = .rel ∨ o = .ar) ∧ atHome s (s.warp c.warp).core sc = true) then releaseAt s c.warp sc else .ok s)
        = .ok s1 →
      ∀ acq, acq = decide (o = .acq ∨ o = .ar ∨ o = .sc) →
      ∀ u, u = (if acq then acquire s1 (s.warp c.warp).core sc else s1) → NoNumTraps u c →
      AloneEnds (.fence x o sc) s u c x { f with fenced := if acq then max f.fenced (scopeCode sc) else f.fenced }
        (nextPc c) f.lanes 0 0)

/-! ## Abacus registers -/

/-- R87, R247, R248: clearing, exact sums of doubles and of products, the rounded value, and the status word. -/
def Obligations.AbacusRegisters : Prop :=
  (∀ x k, AbacusDoes (.xclr x k) x k [] (fun A _ => ⟨0, false, false, false, false, A.div⟩) fun _ _ f => ⟨f.lanes, 0, 0⟩)
  ∧ (∀ x k a, AbacusDoes (.xadd x k a) x k [two a]
    (fun A fs => A.add (fs.flatMap fun f => f.lanes.map fun l => (num .f64 l a, false)))
    fun _ _ f => ⟨f.lanes, snanFlag (f.lanes.map fun l => num .f64 l a), 0⟩)
  ∧ (∀ x k a b, AbacusDoes (.xfma x k a b) x k [two a, two b]
    (fun A fs => A.add (fs.flatMap fun f => f.lanes.map fun l => mulNum (num .f64 l a) (num .f64 l b)))
    fun _ _ f =>
      let ps := f.lanes.map fun l => mulNum (num .f64 l a) (num .f64 l b)
      ⟨f.lanes, snanFlag (ps.map (·.1)) ||| (if ps.any (·.2) then flagNV else 0), 0⟩)
  ∧ (∀ x k d, AbacusDoes (.xget x k d) x k [two d] (fun A _ => A) fun A e f =>
      floats f .f64 d (fun j _ => A.get (e.mode false) (e.drawOf f j 0)) fun _ => 0)
  ∧ (∀ x k d, AbacusDoes (.xstat x k d) x k [one d] (fun A _ => A) fun A _ f =>
      eachLane f fun _ l => l.setReg d.toNat A.status)

/-- R250: a register is saved as its 544-byte image, loaded from a well-formed image of its divisor, or takes an image's sum. -/
def Obligations.AbacusImages : Prop :=
  (∀ x k seg a s c f b n v ea ps s1 s2, Alone s c x f → Usable s c [addrUse seg a] →
      abacusKey (s.warp c.warp) k = some (b, n) → addrValue seg a f .write = .ok v →
      locatePieces s (s.warp c.warp) f.tid.toNat seg v 544 16 .write = (.ok (ea, ps), s1) →
      storePieces s1 c.warp c f.slot f.tid.toNat ea ps (abacusAt s1 b n).image = .ok s2 →
      ∀ u, u = commitBlock s2 (s.warp c.warp) → NoNumTraps u c →
      AloneEnds (.xsave x k seg a) s u c x f (nextPc c) f.lanes 0 0)
  ∧ (∀ x k seg a s c f b n v ea ps s1 bs s2 I, Alone s c x f → Usable s c [addrUse seg a] →
      abacusKey (s.warp c.warp) k = some (b, n) → addrValue seg a f .read = .ok v →
      locatePieces s (s.warp c.warp) f.tid.toNat seg v 544 16 .read = (.ok (ea, ps), s1) →
      loadShared s1 c.warp [f] ea ps = (.ok bs, s2) → Abacus.ofImage (abacusAt s2 b n).div bs = some I → NoNumTraps s2 c →
      AloneEnds (.xload x k seg a) s (setAbacus s2 b n I) c x f (nextPc c) f.lanes 0 0
      ∧ AloneEnds (.xmerge x k seg a) s (setAbacus s2 b n ((abacusAt s2 b n).merge I)) c x f (nextPc c) f.lanes 0 0)
  ∧ (∀ A : Abacus, (A.div = 1 ∨ A.div = 3) → A.image.length = 544 ∧ Abacus.ofImage A.div A.image = some A)

/-! ## Control -/

/-- R273 to R275: a fibre goes to the target when the majority of its siblings' predicates, or its inverse, holds, else on; a
call writes the next address to the pair v6:v7; a table's entries are word offsets from it, sign-extended (the model's reading, log
24); and `ret` goes to a code address. -/
def Obligations.Branches : Prop :=
  (∀ x neg pred off s c f, Alone s c x f → NoNumTraps s c →
      let m := majorityBool (f.lanes.map (·.pred pred))
      AloneEnds (.bra x neg pred off) s s c x f
        (if m.1 ≠ neg then c.pc + BitVec.ofInt 56 (4 * off.toInt) else nextPc c) f.lanes 0 (guardEvent m.2)
      ∧ (Usable s c [two 6] → AloneEnds (.call x neg pred off) s s c x f
        (if m.1 ≠ neg then c.pc + BitVec.ofInt 56 (4 * off.toInt) else nextPc c)
        (if m.1 ≠ neg then f.lanes.map fun l => l.setPair 6 (nextPc c).toNat else f.lanes) 0 (guardEvent m.2)))
  ∧ (∀ x (off : BitVec 27) a s c f k n v s1 s2, Alone s c x f → Usable s c [one a] →
      oneValue f (·.reg a.toNat) .read = .ok k → ∀ table : VAddr, table = c.pc + BitVec.ofInt 56 (4 * off.toInt) →
      codeHeld s (s.warp c.warp).core (s.warp c.warp).ctx table.toNat 4 = false →
      codeHeld s (s.warp c.warp).core (s.warp c.warp).ctx (table + BitVec.ofNat 56 (4 + 4 * k)).toNat 4 = false →
      fetchCode s (s.warp c.warp).core (s.warp c.warp).ctx table.toNat 4 = (.ok n, s1) → k < n →
      fetchCode s1 (s.warp c.warp).core (s.warp c.warp).ctx (table + BitVec.ofNat 56 (4 + 4 * k)).toNat 4 = (.ok v, s2) →
      NoNumTraps s2 c →
      AloneEnds (.brx x off a) s s2 c x f (table + BitVec.ofInt 56 (4 * (BitVec.ofNat 32 v).toInt)) f.lanes 0 0
      ∧ (Usable s c [one a, two 6] → AloneEnds (.callx x off a) s s2 c x f
        (table + BitVec.ofInt 56 (4 * (BitVec.ofNat 32 v).toInt)) (f.lanes.map fun l => l.setPair 6 (nextPc c).toNat) 0 0))
  ∧ (∀ x a s c f v, Alone s c x f → NoNumTraps s c → Usable s c [two a] →
      oneValue f (·.pair a.toNat) .read = .ok v → v % 4 = 0 → v < 2 ^ 56 →
      AloneEnds (.ret x a) s s c x f (BitVec.ofNat 56 v) f.lanes 0 0)

/-- R47, R52, R276, R277: a fibre that ends leaves its warp, whose other fibres keep their registers and addresses; a spawned
one's join update is owed; the last one's warp drains. A reconvergence entry is set on top of the stack; a fibre at its
address parks until every fibre of the mask that lives has come, and then all go on. -/
def Obligations.EndsAndReconvergence : Prop :=
  (∀ x (tail : Bool) s c f, Alone s c x f → (s.warp c.warp).fibre? f.slot = some f → (s.warp c.warp).owed = [] →
      ∃ t, exec (if tail then .tail x else .exit x) s = .next t
        ∧ (t.warp c.warp).fibre? f.slot = none ∧ (t.warp c.warp).tailed = tail
        ∧ (∀ k, k ≠ f.slot → ((t.warp c.warp).fibre? k).map (fun g => (g.pc, g.lanes))
            = ((s.warp c.warp).fibre? k).map fun g => (g.pc, g.lanes))
        ∧ ((∀ g ∈ (s.warp c.warp).fibres, g.slot = f.slot) → (s.warp c.warp).residence = .resident →
            (t.warp c.warp).residence = .draining)
        ∧ (∃ n, t.joins = s.joins ++ if (s.warp c.warp).blk.isSome then [] else
            [⟨c.warp, (s.warp c.warp).ctx, (s.warp c.warp).launch, (s.warp c.warp).core, f.join, false, n, f.slot⟩])
        ∧ t.mem = s.mem ∧ ∀ v, v ≠ c.warp → Tab.find t.warps v = Tab.find s.warps v)
  ∧ (∀ x (off : BitVec 33) s c f, Alone s c x f → NoNumTraps s c →
      AloneEnds (.rcvset x off) s (({ s with next := s.next + 1 } : State).modWarp c.warp fun W =>
        { W with stack := (⟨s.next, c.pc + BitVec.ofInt 56 (4 * off.toInt), [f.slot]⟩ :: W.stack).take 16 })
        c x f (nextPc c) f.lanes 0 0)
  ∧ (∀ x s c f, Alone s c x f → NoNumTraps s c → (s.warp c.warp).stack = [] →
      AloneEnds (.rcvwait x) s s c x f (nextPc c) f.lanes 0 0)
  ∧ (∀ x s c f id mask, Alone s c x f → NoNumTraps s c → (s.warp c.warp).fibre? f.slot = some f → (s.warp c.warp).owed = [] →
      (s.warp c.warp).stack = [⟨id, c.pc, mask⟩] → f.slot ∈ mask →
      ∃ t, exec (.rcvwait x) s = .next t
        ∧ ((∃ k ∈ mask, k ≠ f.slot ∧ ∃ g ∈ (s.warp c.warp).fibres, g.slot = k ∧ g.status ≠ .entry id) →
            (t.warp c.warp).stack = [⟨id, c.pc, mask⟩]
            ∧ (t.warp c.warp).fibre? f.slot = some { f with pc := nextPc c, status := .entry id })
        ∧ ((∀ g ∈ (s.warp c.warp).fibres, g.slot ∈ mask → g.slot ≠ f.slot → g.status = .entry id) →
            (t.warp c.warp).stack = []
            ∧ (t.warp c.warp).fibre? f.slot = some { f with pc := nextPc c, status := .ready, icount := f.icount + 1 }
            ∧ ∀ k ∈ mask, k ≠ f.slot → (t.warp c.warp).fibre? k
                = ((s.warp c.warp).fibre? k).map fun g => { g with status := .ready, icount := g.icount + 1 }))

/-- R45 to R48, R278 to R280: a child that finds room is counted and its record waits with the Shuttle; one that finds none gives
a false predicate; `jwait` reads the faults of a join word that is done, and 0 where there is none; `yield` steps back. -/
def Obligations.Spawning : Prop :=
  (∀ x n r pd a b s c f entry s1, Alone s c x f →
      Usable s c [two a, two b, ⟨r.toNat, n.toNat, 1⟩] →
      (s.launch (s.warp c.warp).launch).lrec.ordered = false → oneValue f (·.pair a.toNat) .read = .ok entry →
      entry % 4 = 0 → entry < 2 ^ 56 → oneValue f (·.pair b.toNat) .rmw = .ok 0 → releaseAt s c.warp .device = .ok s1 →
      ∀ W, W = s.warp c.warp → ∀ ch : Child, ch = ⟨W.ctx, W.launch, BitVec.ofNat 56 entry,
          f.lanes.map (fun l => (List.range n.toNat).map fun j => BitVec.ofNat 32 (l.reg (r.toNat + j))),
          childTid f.tid f.icount, 0, s1.clock W.core, W.core⟩ →
      (∀ s2, placeChild s1 ch = some s2 →
        ∀ u, u = commitBlock (count (s2.modLaunch W.launch fun L => { L with children := L.children + 1 }) W.ctx W.core 0x30 1) W →
        NoNumTraps u c →
        ∃ t, exec (.spawn x n r pd a b) s = .next (issueFull fullWarps W.core t)
          ∧ Ends u c (fun _ => fibreAt f (nextPc c) (f.lanes.map fun l => l.setPred pd true)) 0 (guardNum x f) t)
      ∧ (placeChild s1 ch = none →
        ∀ u, u = commitBlock (count s1 W.ctx W.core 0x32 1) W → NoNumTraps u c →
        ∃ t, exec (.spawn x n r pd a b) s = .next (issueFull fullWarps W.core t)
          ∧ Ends u c (fun _ => fibreAt f (nextPc c) (f.lanes.map fun l => l.setPred pd false)) 0 (guardNum x f) t))
  ∧ (∀ x d a s c f, Alone s c x f → Usable s c [one d, two a] →
      oneValue f (·.pair a.toNat) .read = .ok 0 →
      ∀ u, u = acquire s (s.warp c.warp).core .device → NoNumTraps u c →
      AloneEnds (.jwait x d a) s u c x f (nextPc c) (f.lanes.map fun l => l.setReg d.toNat 0) 0 0)
  ∧ (∀ x d a s c f v p s1 el s2, Alone s c x f → Usable s c [one d, two a] →
      oneValue f (·.pair a.toNat) .read = .ok v → v ≠ 0 →
      locate s (s.warp c.warp) 0 .glob v 0 8 .read true = (.ok p, s1) → loadElem s1 c.warp false p 8 p.va = (.ok el, s2) →
      el.copies.headD 0 % 2 ^ 32 = 0 → el.copies.headD 0 < 2 ^ 48 →
      ∀ u, u = acquire s2 (s.warp c.warp).core .device → NoNumTraps u c →
      AloneEnds (.jwait x d a) s u c x f (nextPc c)
        (f.lanes.map fun l => l.setReg d.toNat (el.copies.headD 0 / 2 ^ 32)) 0 0)
  ∧ (∀ x s c f, Alone s c x f → NoNumTraps s c →
      AloneEnds (.yield x) s (s.modWarp c.warp fun W => { W with yield := some (s.clock W.core + 64) }) c x f (nextPc c)
        f.lanes 0 0)

/-! ## Traps -/

/-- R281, R282, R322, R458: `trap`, `strap` and an unarmed `brkpt` end in a fragment of their code, at the next instruction or, for
`brkpt`, at its own; an armed `brkpt` halts the team, or the spawned warp. -/
def Obligations.TrapsRaised : Prop :=
  (∀ x (n : BitVec 12) s c, s.cur = some c → NoNumTraps s c → (s.launch (s.warp c.warp).launch).lrec.trapVec ≠ 0 →
      InLine (s.warp c.warp) → (∃ f ∈ groupOf (s.warp c.warp) c, (guardOf x f).1 = true) →
      ∃ t, exec (.trap x n) s = .next t ∧ Diverted s t c.warp 0x0210 (nextPc c)
        (((groupOf (s.warp c.warp) c).filter fun f => (guardOf x f).1).map (·.slot)) n.toNat)
  ∧ (∀ e (n : BitVec 18) s c, s.cur = some c → NoNumTraps s c → (s.launch (s.warp c.warp).launch).lrec.trapVec ≠ 0 →
      InLine (s.warp c.warp) → groupOf (s.warp c.warp) c ≠ [] →
      handlerFree (s.warp c.warp) (groupOf (s.warp c.warp) c) = true →
      ∃ t, exec (.strap e n) s = .next t
        ∧ Diverted s t c.warp 0x0211 (nextPc c) ((groupOf (s.warp c.warp) c).map (·.slot)) n.toNat)
  ∧ (∀ x s c f, Alone s c x f → NoNumTraps s c → (s.launch (s.warp c.warp).launch).lrec.trapVec ≠ 0 →
      armed (s.ctx (s.warp c.warp).ctx) = false →
      ∃ t, exec (.brkpt x) s = .next t ∧ Diverted s t c.warp 0x0801 c.pc [f.slot] 0)
  ∧ (∀ x s c f, Alone s c x f → armed (s.ctx (s.warp c.warp).ctx) = true →
      (∀ b, (s.warp c.warp).blk = some b → (s.blk b).state ≠ .ready) →
      ∃ t, exec (.brkpt x) s = .next t
        ∧ (t.ctx (s.warp c.warp).ctx).haltOwed = some ((s.ctx (s.warp c.warp).ctx).haltOwed.getD 255)
        ∧ (t.warp c.warp).exempt = some c.pc ∧ (t.warp c.warp).fibres = (s.warp c.warp).fibres ∧ t.mem = s.mem
        ∧ ((s.warp c.warp).blk = none → (t.warp c.warp).halted = true)
        ∧ ∀ b, (s.warp c.warp).blk = some b → ∀ m X, Tab.find s.blocks m = some X → X.launch = (s.blk b).launch →
            X.team = (s.blk b).team → X.state ≠ .retired → (t.blk m).halted = true)

/-- R460: a delivered fragment's frame is written in its slot of the trap area, its fibres stand at the trap vector as the running
handler, s58:s59 holds the frame's offset, and the fragment leaves the queue: memory holds the frame, and what the trace record of
the delivery writes besides (R413). Stated where no store of the warp is still to come: the model performs those in the same step
(log 10). -/
def Obligations.TrapEntry : Prop :=
  ∀ w s q s1 s2, warpRuns s w = true → (s.warp w).storeQ = [] → noPassing s (s.warp w).core →
    ∀ W, W = (s.warp w).settle →
    deliverable W = some q → ∀ d, d = W.handlers.length → (d + 1) * frameBytes W.window ≤ (W.seg .trap).size →
    (W.seg .trap).baseAddr + frameOffset W d + frameBytes W.window ≤ 2 ^ 56 →
    structWrite s W.ctx ((W.seg .trap).baseAddr + frameOffset W d) (frameOf s W q d) = (.ok s1, s2) →
    ∃ u t, exec (.fragmentDeliver w) s = .next t
      ∧ u.mem = s1.mem
      ∧ t = trace u W.ctx W.core 3 (fragmentName s W q) (faultData q.code q.id.toNat q.addr)
      ∧ (t.warp w).queue = W.queue.filter (fun x => x.id != q.id)
      ∧ (t.warp w).handlers = ⟨q.id, d, q.mask⟩ :: W.handlers
      ∧ (t.warp w).sregs = (W.setSval true 58 (W.area * (W.seg .trap).size + d * frameBytes W.window)).sregs
      ∧ (∀ k, (t.warp w).fibre? k = (W.fibre? k).map fun f =>
          if q.mask.contains k then
            { f with pc := BitVec.ofNat 56 (s1.launch W.launch).lrec.trapVec, status := .ready, frag := q.id }
          else f)
      ∧ frameBytes W.window = 1536 * W.window + 4032

/-- R464: RESUME in a handler takes the group back: each fibre's registers, predicates, ICOUNT and the address come from the frame,
the uniform registers s0 to s59 and predicates c0 to c6 from the words of its save area at 0xD80 and 0xE80 beyond the lanes' (Table
20-5), and the handler is over; outside a handler the word is `strap` with its number.
It completes for every group that is the whole of the running handler, with no store to come, a frame in its warp's own trap area
whose pages may be read and whose lines are not poisoned, and an address of code in the frame: no other fibre, warp or byte of
memory has then changed. -/
def Obligations.Resuming : Prop :=
  (∀ e s c h rest bs s1, s.cur = some c → (s.warp c.warp).handlers = h :: rest →
      (∀ f ∈ groupOf (s.warp c.warp) c, f.frag = h.id) →
      handlerLive (s.warp c.warp) h = (groupOf (s.warp c.warp) c).map (·.slot) →
      (s.warp c.warp).storeQ = [] → noPassing s (s.warp c.warp).core →
      frameRead s c.warp ((s.warp c.warp).sval true 58) (frameBytes (s.warp c.warp).window) = (.ok bs, s1) →
      field bs 8 8 % 4 = 0 → field bs 8 8 < 2 ^ 56 → ∀ save, save = 0x80 + 1536 * (s.warp c.warp).window →
      ∃ t, exec (.resume e) s = .next t ∧ (t.warp c.warp).handlers = rest
        ∧ (Tab.rising none (s.warp c.warp).settle.sregs = true → ∀ r, r < 60 →
            (t.warp c.warp).sreg r = field bs (save + 0xD80 + 4 * r) 4)
        ∧ (t.warp c.warp).cpreds = BitVec.ofNat 7 (field bs (save + 0xE80) 1)
        ∧ t.mem = s.mem
        ∧ ∀ k, ((groupOf (s.warp c.warp) c).map (·.slot)).contains k = true →
            (t.warp c.warp).fibre? k = ((s.warp c.warp).settle.fibre? k).map
              (fibreFrom (s1.three (s.warp c.warp).settle) bs (s.warp c.warp).window (BitVec.ofNat 56 (field bs 8 8))
                (match rest with | p :: _ => p.id | [] => 0)))
  ∧ (∀ e s c, s.cur = some c → (s.warp c.warp).handlers = [] → exec (.resume e) s = exec (.strap e 0x3FFFF) s)
  ∧ (∀ e s c h rest, s.cur = some c → (s.warp c.warp).handlers = h :: rest →
      (∀ f ∈ groupOf (s.warp c.warp) c, f.frag = h.id) →
      handlerLive (s.warp c.warp) h = (groupOf (s.warp c.warp) c).map (·.slot) →
      (s.warp c.warp).storeQ = [] → noPassing s (s.warp c.warp).core →
      ∀ off n limit ea, off = (s.warp c.warp).sval true 58 → n = frameBytes (s.warp c.warp).window →
        limit = ((s.warp c.warp).seg .trap).size → ea = ((s.warp c.warp).seg .trap).baseAddr + off →
        (s.warp c.warp).area * limit ≤ off → off + n ≤ ((s.warp c.warp).area + 1) * limit → ea + n ≤ 2 ^ 56 →
      ∀ ps s1, structCheck s (s.warp c.warp).ctx .read (piecesOf ea n) = (.ok ps, s1) →
        (∀ y ∈ ps, poisoned s1 y.1 y.2 = false) →
      ∀ pc, pc = field (ps.flatMap fun y => freshBytes s1 y.1 (y.1.base + y.1.off) y.2) 8 8 → pc % 4 = 0 → pc < 2 ^ 56 →
      ∃ t, exec (.resume e) s = .next t ∧ (t.warp c.warp).handlers = rest
        ∧ (∀ k, ((groupOf (s.warp c.warp) c).map (·.slot)).contains k = true →
            ((t.warp c.warp).fibre? k).map (fun f => (f.pc, f.status))
              = ((s.warp c.warp).fibre? k).map fun _ => (BitVec.ofNat 56 pc, .ready))
        ∧ (∀ k, ((groupOf (s.warp c.warp) c).map (·.slot)).contains k = false →
            (t.warp c.warp).fibre? k = (s.warp c.warp).settle.fibre? k)
        ∧ (∀ v, v ≠ c.warp → t.warp v = s.warp v) ∧ t.mem = s.mem)

/-! ## Uniform instructions -/

/-- R289, R290, R292: scalar sums, differences, products, logic, shifts, minima and maxima, moves, constants and selection, with the
operands that registers 60 to 63 may be as queue ports. -/
def Obligations.UniformArithmetic : Prop :=
  (∀ e w d a b, Scalar2 (.sadd e w d a b) w d a b fun p q => (p + q) % 2 ^ bits w)
  ∧ (∀ e w d a b, Scalar2 (.ssub e w d a b) w d a b fun p q => modulo (bits w) ((p : Int) - q))
  ∧ (∀ e w d a b, Scalar2 (.smul e w d a b) w d a b fun p q => p * q % 2 ^ bits w)
  ∧ (∀ e sg w d a b, Scalar2 (.smulhi e sg w d a b) w d a b fun p q =>
      modulo (bits w) (read sg (bits w) p * read sg (bits w) q / (2 ^ bits w : Nat)))
  ∧ (∀ e w d a b, Scalar2 (.sand e w d a b) w d a b fun p q => p &&& q)
  ∧ (∀ e w d a b, Scalar2 (.sor e w d a b) w d a b fun p q => p ||| q)
  ∧ (∀ e w d a b, Scalar2 (.sxor e w d a b) w d a b fun p q => p ^^^ q)
  ∧ (∀ e, ScalarShift (.sshl e) shiftLeft ∧ ScalarShift (.sshr e) shiftRight)
  ∧ (∀ e sg w d a b, Scalar2 (.smin e sg w d a b) w d a b fun p q =>
      if read sg (bits w) p < read sg (bits w) q then p else q)
  ∧ (∀ e sg w d a b, Scalar2 (.smax e sg w d a b) w d a b fun p q =>
      if read sg (bits w) p < read sg (bits w) q then q else p)
  ∧ (∀ e w d a, Scalar (.smov e w d a) w d [a] fun _ vs => vs.getD 0 0)
  ∧ (∀ e d (v : BitVec 18), Scalar (.simm e d v) false d [] fun _ _ => modulo 32 v.toInt)
  ∧ (∀ e d (v : BitVec 16) s c, Uniform s c [plainUse false d] → NoNumTraps s c →
      Goes (.simmh e d v) s (s.setWarp c.warp ((s.warp c.warp).setSreg d.toNat
        (v.toNat * 65536 + (s.warp c.warp).sreg d.toNat % 65536))) c (nextPc c))
  ∧ (∀ e w neg cn d a b, Scalar (.ssel e w neg cn d a b) w d [a, b] fun W vs =>
      if W.cpred cn = neg then vs.getD 1 0 else vs.getD 0 0)

/-- R207, R289, R291, R295, R296, R321: the signed scalar shift, comparison into a uniform predicate, and reading a lane by its fibre's
combined value, with the flags and events of the combination; a group jumps by a word offset, on a uniform predicate or its inverse, or to a
code address in a pair; `snop` goes on. -/
def Obligations.UniformReadsAndBranches : Prop :=
  ((∀ e w d a b (s : State) (c : Issue) p s1 s2, Uniform s c [portUse w d, portUse w a] → p < 2 ^ bits w →
      readSources s c (portBlk s c) (waitingSince s c) w [a] = (.ok [p], s1) →
      writeDest s1 c (portBlk s c) (waitingSince s c) w d (shiftSigned (bits w) p b.toNat) = .ok s2 → NoNumTraps s2 c →
      Goes (.ssar e true w d a b) s s2 c (nextPc c))
  ∧ (∀ e w d a b (s : State) (c : Issue) p n s1 s2 s3, Uniform s c [portUse w d, portUse w a, portUse false b] →
      p < 2 ^ bits w → readSource s c (portBlk s c) (waitingSince s c) w a = (.ok p, s1) →
      readSource s1 c (portBlk s c) (waitingSince s c) false b = (.ok n, s2) →
      writeDest s2 c (portBlk s c) (waitingSince s c) w d (shiftSigned (bits w) p n) = .ok s3 → NoNumTraps s3 c →
      Goes (.ssar e false w d a b) s s3 c (nextPc c))
  ∧ (∀ e cn sg w cd a b (s : State) (c : Issue) p q s1, Uniform s c [portUse w a, portUse w b] →
      readSources s c (portBlk s c) (waitingSince s c) w [a, b] = (.ok [p, q], s1) →
      ∀ u, u = s1.modWarp c.warp (fun W => W.setCpred cd (compareInt cn (read sg (bits w) p) (read sg (bits w) q))) →
      NoNumTraps u c → Goes (.scmp e cn sg w cd a b) s u c (nextPc c))
  ∧ (∀ e fl w d a b (s : State) (c : Issue) s1, Uniform s c [portUse w d, plainUse false b] →
      Usable s { c with group := [(s.warp c.warp).sreg b.toNat] } [byW w a] →
      ∀ r : Nat × Flags × BitVec 4, r = (match (s.warp c.warp).fibre? ((s.warp c.warp).sreg b.toNat) with
        | none => (0, 0, 0)
        | some f => combine (if fl then some (if w then binary64 else binary32) else none) (f.vals (·.val w a.toNat))) →
      writeDest s c (portBlk s c) (waitingSince s c) w d r.1 = .ok s1 → NoNumTraps s1 c → groupOf (s1.warp c.warp) c ≠ [] →
      ∃ t, exec (.rdlane e fl w d a b) s = .next t
        ∧ Ends s1 c (fun f => { f with pc := nextPc c, status := endWait f.status }) r.2.1 r.2.2 t))
  ∧ ((∀ e (off : BitVec 24) s c, Uniform s c [] → NoNumTraps s c →
      Goes (.jmp e off) s s c (c.pc + BitVec.ofInt 56 (4 * off.toInt)))
  ∧ (∀ e neg cn (off : BitVec 20) s c, Uniform s c [] → NoNumTraps s c →
      Goes (.jc e neg cn off) s s c
        (if (s.warp c.warp).cpred cn = neg then nextPc c else c.pc + BitVec.ofInt 56 (4 * off.toInt)))
  ∧ (∀ e a s c, Uniform s c [plainUse true a] → NoNumTraps s c → (s.warp c.warp).sval true a.toNat % 4 = 0 →
      (s.warp c.warp).sval true a.toNat < 2 ^ 56 →
      Goes (.jx e a) s s c (BitVec.ofNat 56 ((s.warp c.warp).sval true a.toNat)))
  ∧ (∀ e s c, Uniform s c [] → NoNumTraps s c → Goes (.snop e) s s c (nextPc c)))

/-- R37, R38, R286: a source below 60, or a pair, is a uniform register; one of 60 to 63 is a stage ring of the block, whose oldest
token is taken when no group has waited longer. A destination is written or pushed alike, a push after the warp's stores. -/
def Obligations.UniformOperands : Prop :=
  (∀ s c b since w (r : Reg), w = true ∨ r.toNat < 60 →
      readSource s c b since w r = (.ok ((s.warp c.warp).sval w r.toNat), s))
  ∧ (∀ s c b since (r : Reg), 60 ≤ r.toNat → (ringAt s b (r.toNat - 60)).count ≠ 0 →
      olderWaits s b since (· == .ringToken (r.toNat - 60)) = false →
      readSource s c b since false r = (.ok (token (ringAt s b (r.toNat - 60))),
        s.modBlk b fun B => { B with rings := modAt B.rings (r.toNat - 60) fun R => { R with rd := R.rd + 1 } }))
  ∧ (∀ s c b since (r : Reg), 60 ≤ r.toNat → (ringAt s b (r.toNat - 60)).count = 0 →
      readSource s c b since false r = (.error (r.toNat - 60), s))
  ∧ (∀ s c b since w (d : Reg) v, w = true ∨ d.toNat < 60 →
      writeDest s c b since w d v = .ok (s.modWarp c.warp fun W => W.setSval w d.toNat v))
  ∧ (∀ s c b since (d : Reg) v s1, 60 ≤ d.toNat → (ringAt s b (d.toNat - 60)).count < 16 →
      olderWaits s b since (· == .ringRoom (d.toNat - 60)) = false → flushed s c.warp = (true, s1) →
      writeDest s c b since false d v = .ok (modRing s1 b (d.toNat - 60) (·.push v)))
  ∧ (∀ s c b since (d : Reg) v, 60 ≤ d.toNat → 16 ≤ (ringAt s b (d.toNat - 60)).count →
      writeDest s c b since false d v = .error (.ringRoom (d.toNat - 60)))
  ∧ (∀ (r : Ring) v, r.count < 16 → Tab.rising none r.tokens = true →
      (r.push v).count = r.count + 1 ∧ (r.count = 0 → token (r.push v) = v % 2 ^ 32)
      ∧ (r.count ≠ 0 → token (r.push v) = token r))

/-- R293, R294: a uniform load waits with the warp's loads, a uniform store takes its place among its operations, and a uniform
atomic performs at once and writes the old value. That a uniform load takes its value when it issues is the model's choice (log 9),
and that an atomic performs in one step with the stores before it another (log 10). -/
def Obligations.UniformMemory : Prop :=
  (∀ e sz seg off t a s c p el s1 s2, Uniform s c [⟨t.toNat, usizeRegs sz, false⟩, uniAddrUse seg a] →
      locate s (s.warp c.warp) 0 seg (uniAddr (s.warp c.warp) seg a) (off.toNat * usize sz) (usize sz) .read false
        = (.ok p, s1) →
      ∀ fs, fs = standing (s.warp c.warp) →
      loadElem s1 c.warp (fs.all (·.relaxed s1 (s.warp c.warp).core)) p (usize sz) p.va = (.ok el, s2) →
      ∀ u, u = acquireAt (addLoad s2 c.warp none (regWrites t.toNat (usizeRegs sz) [el.copies.headD 0]))
        (s.warp c.warp).core (widestFence fs) → NoNumTraps u c → Goes (.sld e sz seg off t a) s u c (nextPc c))
  ∧ (∀ e sz seg off t a s c p s1 s2, Uniform s c [⟨t.toNat, usizeRegs sz, false⟩, uniAddrUse seg a] →
      locate s (s.warp c.warp) 0 seg (uniAddr (s.warp c.warp) seg a) (off.toNat * usize sz) (usize sz) .write false
        = (.ok p, s1) →
      ∀ v, v = (List.range (usizeRegs sz)).foldl (fun v i => v + 2 ^ (32 * i) * (s.warp c.warp).sreg (t.toNat + i)) 0 →
      issueStore s1 c.warp ⟨p, usize sz, uniWrites p (usize sz) (v % 2 ^ (8 * usize sz)), none, .device, false, c.pc,
        c.group.headD 0, 0, 0, 0⟩ p.va s1.next 0 = .ok s2 → NoNumTraps s2 c → Goes (.sst e sz seg off t a) s s2 c (nextPc c))
  ∧ (∀ e op ar (ty : BitVec 2) d a b s c p olds fp ev s1 s2, ∀ t, t = satomTy ty →
      Uniform s c [plainUse (atomSize t == 8) d, plainUse true a, plainUse (atomSize t == 8) b] →
      locate s (s.warp c.warp) 0 .glob ((s.warp c.warp).sval true a.toNat) 0 (atomSize t) .rmw true = (.ok p, s1) →
      performAtomic s1 c.warp p (atomSize t) p.va none [(s.warp c.warp).sval (atomSize t == 8) b.toNat]
        (fun _ old v => (some (atomResult op t old v modeRN 0).1, (atomResult op t old v modeRN 0).2))
        = (.ok (olds, fp, ev), s2) →
      ∀ u, u = s2.modWarp c.warp (fun W => W.setSval (atomSize t == 8) d.toNat (olds.headD 0)) →
      ∀ u', u' = acquireAt (if ar then acquire u (s.warp c.warp).core .device else u) (s.warp c.warp).core
        (widestFence (standing (s.warp c.warp))) → NoNumTraps u' c →
      Goes (.satom e op ar ty d a b) s u' c (nextPc c))

/-- R297 to R304: setting a barrier that nothing is in, arriving with bytes once earlier stores are performed, adding bytes, waiting
for and testing a phase, and the team barrier, whose last arrival opens it for all and which acquires at cluster scope (R158); an arrival adds its bytes before it is counted, and the
last one, with no byte outstanding, ends the phase; arriving at a barrier that was not set, or once too often, and bytes below 0 with every
arrival made, are the cases 1 to 3. -/
def Obligations.Barriers : Prop :=
  ((∀ e fm bn a s c b, Uniform s c [plainUse false a] → (s.warp c.warp).blk = some b →
      ∀ n, n = (s.warp c.warp).sreg a.toNat % 256 → n ≠ 0 → (barAt s b bn.toNat).arr = 0 → (barAt s b bn.toNat).bytes = 0 →
      ∀ u, u = setBar s b bn.toNat { barAt s b bn.toNat with count := BitVec.ofNat 8 n, fm := fm } → NoNumTraps u c →
      Goes (.binit e fm bn a) s u c (nextPc c))
  ∧ (∀ e bn tx s c b v s1, Uniform s c (match tx with | some a => [plainUse false a] | none => []) →
      (s.warp c.warp).blk = some b → computeOnly s (s.warp c.warp) (barAt s b bn.toNat) = false →
      (barAt s b bn.toNat).arrive (match tx with | some a => signedBytes ((s.warp c.warp).sreg a.toNat) | none => 0) = .ok v →
      flushed s c.warp = (true, s1) → NoNumTraps (setBar s1 b bn.toNat v) c →
      Goes (.barrive e bn tx) s (setBar s1 b bn.toNat v) c (nextPc c))
  ∧ (∀ e bn a s c b v, Uniform s c [plainUse false a] → (s.warp c.warp).blk = some b →
      (barAt s b bn.toNat).expect (signedBytes ((s.warp c.warp).sreg a.toNat)) = .ok v →
      NoNumTraps (setBar s b bn.toNat v) c → Goes (.bexpect e bn a) s (setBar s b bn.toNat v) c (nextPc c))
  ∧ (∀ e bn a s c b, Uniform s c [plainUse false a] → NoNumTraps s c → (s.warp c.warp).blk = some b →
      computeOnly s (s.warp c.warp) (barAt s b bn.toNat) = false → (barAt s b bn.toNat).count ≠ 0 →
      (barAt s b bn.toNat).owed = none →
      ((barAt s b bn.toNat).phase.toNat + 65536 - (s.warp c.warp).sreg a.toNat % 65536) % 65536 < 32768 →
      Goes (.bwait e bn a) s s c (nextPc c))
  ∧ (∀ e cd bn a s c b, Uniform s c [plainUse false a] → (s.warp c.warp).blk = some b →
      computeOnly s (s.warp c.warp) (barAt s b bn.toNat) = false → (barAt s b bn.toNat).count ≠ 0 →
      ∀ u, u = s.modWarp c.warp (fun W => W.setCpred cd
        (decide (((barAt s b bn.toNat).phase.toNat + 65536 - (s.warp c.warp).sreg a.toNat % 65536) % 65536 < 32768))) →
      NoNumTraps u c → Goes (.btest e cd bn a) s u c (nextPc c))
  ∧ (∀ e s c b s1, Uniform s c [] → (s.warp c.warp).blk = some b →
      (∀ f ∈ groupOf (s.warp c.warp) c, ∀ w, f.status = .waiting w → ∀ k, w.why ≠ .teamPhase k) →
      releaseAt s c.warp .cluster = .ok s1 → ∀ T, T = teamBar s (s.blk b).launch (s.blk b).team →
      teamAll s1 (s.blk b).launch (s.blk b).team (insertNat T.arrived c.warp) = true →
      ∀ u, u = acquire (s1.modLaunch (s.blk b).launch fun L => { L with
        teams := Tab.put L.teams (s.blk b).team ⟨T.phase + 1, []⟩ }) (s.warp c.warp).core .cluster → NoNumTraps u c →
      Goes (.cbar e) s u c (nextPc c))
  ∧ (∀ e s c b k, Uniform s c [] → NoNumTraps s c → (s.warp c.warp).blk = some b → waitsFor s c (.teamPhase k) →
      (teamBar s (s.blk b).launch (s.blk b).team).phase ≠ k →
      Goes (.cbar e) s (acquire s (s.warp c.warp).core .cluster) c (nextPc c)))
  ∧ (∀ (v : Barrier) (tx : Double),
    (v.count = 0 → v.arrive tx = .error 1)
    ∧ (v.count ≠ 0 → v.arr = v.count → v.arrive tx = .error 2)
    ∧ (v.count ≠ 0 → v.arr ≠ v.count → v.arr + 1 = v.count → v.bytes + tx = 0 →
        v.arrive tx = .ok { v with phase := v.phase + 1, arr := 0, bytes := 0 })
    ∧ (v.count ≠ 0 → v.arr ≠ v.count → v.arr + 1 = v.count → (v.bytes + tx).toInt < 0 → v.arrive tx = .error 3)
    ∧ (v.count ≠ 0 → v.arr ≠ v.count → v.arr + 1 ≠ v.count →
        v.arrive tx = .ok { v with arr := v.arr + 1, bytes := v.bytes + tx })
    ∧ (v.count ≠ 0 → v.arr = v.count → v.bytes + tx = 0 →
        v.expect tx = .ok { v with phase := v.phase + 1, arr := 0, bytes := 0 })
    ∧ (v.count ≠ 0 → v.arr = v.count → (v.bytes + tx).toInt < 0 → v.expect tx = .error 3)
    ∧ (v.arr ≠ v.count ∨ v.count = 0 → v.expect tx = .ok { v with bytes := v.bytes + tx }))

/-- R35 to R38, R305 to R309, R315: `wait` by counts of what is in flight, registers claimed from and given to the block's pool, tries
of stage rings, timelines read and awaited, and the head of an ordered launch. The model's choices: `wait` counts entries of the
warp's queue and stores on their way (log 56), the acquire of a timeline is at the widest scope of the commands counted (log 57),
and a load's value is there from its issue, so a `give` waits for its delivery only (log 9). -/
def Obligations.UniformQueues : Prop :=
  (∀ e n0 n1 n2 n3 s c, Uniform s c [] → NoNumTraps s c → (s.warp c.warp).loads.length ≤ n0.toNat →
      storesOut s c.warp ≤ n1.toNat → (s.warp c.warp).cpas.length + (s.warp c.warp).copies.length ≤ n2.toNat →
      tilesOut s (s.warp c.warp).blk ≤ n3.toNat → Goes (.wait e n0 n1 n2 n3) s s c (nextPc c))
  ∧ (∀ e (n : BitVec 3) s c b, Uniform s c [] → (s.warp c.warp).blk = some b → inHandler (s.warp c.warp) c = false →
      (s.warp c.warp).window + 8 * n.toNat ≤ 64 → 8 * n.toNat ≤ (s.blk b).pool →
      olderWaits s b (waitingSince s c) (fun why => match why with | .pool _ => true | _ => false) = false →
      ∀ u, u = (s.modBlk b fun B => { B with pool := B.pool - 8 * n.toNat }).modWarp c.warp (fun W =>
        { W with window := W.window + 8 * n.toNat }) → NoNumTraps u c → Goes (.claim e n) s u c (nextPc c))
  ∧ (∀ e (n : BitVec 3) s c b, Uniform s c [] → (s.warp c.warp).blk = some b → inHandler (s.warp c.warp) c = false →
      8 * n.toNat + 8 ≤ (s.warp c.warp).window →
      loadsHold (s.warp c.warp) ((s.warp c.warp).fibres.map (·.slot)) [((s.warp c.warp).window - 8 * n.toNat, 8 * n.toNat)] []
        = false →
      ∀ less : Fibre → Fibre, (less = fun f =>
        { f with lanes := f.lanes.map (Lane.shrink ((s.warp c.warp).window - 8 * n.toNat)) }) →
      ∀ u, u = (s.modBlk b fun B => { B with pool := B.pool + 8 * n.toNat }).modWarp c.warp (fun W =>
        { W with window := W.window - 8 * n.toNat, fibres := W.fibres.map less, ended := W.ended.map less }) → NoNumTraps u c → Goes (.give e n) s u c (nextPc c))
  ∧ (∀ e cd d (q : BitVec 2) s c b, Uniform s c [plainUse false d] → (s.warp c.warp).blk = some b →
      ∀ ready, ready = ((ringAt s b q.toNat).count ≠ 0 ∧ olderWaits s b s.next (· == .ringToken q.toNat) = false) →
      (ready → ∀ u, u = (s.modBlk b fun B => { B with rings := modAt B.rings q.toNat fun R => { R with rd := R.rd + 1 } }).modWarp
          c.warp (fun W => (W.setSreg d.toNat (token (ringAt s b q.toNat))).setCpred cd true) → NoNumTraps u c →
        Goes (.qtryPop e cd d q) s u c (nextPc c))
      ∧ (¬ready → ∀ u, u = s.modWarp c.warp (fun W => W.setCpred cd false) → NoNumTraps u c →
        Goes (.qtryPop e cd d q) s u c (nextPc c)))
  ∧ (∀ e cd (q : BitVec 2) a s c b s1, Uniform s c [plainUse false a] → (s.warp c.warp).blk = some b →
      (ringAt s b q.toNat).count < 16 → olderWaits s b s.next (· == .ringRoom q.toNat) = false →
      flushed s c.warp = (true, s1) →
      ∀ u, u = (modRing s1 b q.toNat (·.push ((s.warp c.warp).sreg a.toNat))).modWarp c.warp (fun W => W.setCpred cd true) →
      NoNumTraps u c → Goes (.qtryPush e cd q a) s u c (nextPc c))
  ∧ (∀ e cd (q : BitVec 2) a s c b, Uniform s c [plainUse false a] → (s.warp c.warp).blk = some b →
      16 ≤ (ringAt s b q.toNat).count → ∀ u, u = s.modWarp c.warp (fun W => W.setCpred cd false) → NoNumTraps u c →
      Goes (.qtryPush e cd q a) s u c (nextPc c))
  ∧ (∀ e g d s c b, Uniform s c [plainUse true d] → (s.warp c.warp).blk = some b →
      ∀ u, u = acquireAt (s.modWarp c.warp fun W => W.setSval true d.toNat (timelineOf s g b)) (s.warp c.warp).core
        (timelineScope s g b) → NoNumTraps u c → Goes (.tlrd e g d) s u c (nextPc c))
  ∧ (∀ e g a s c b, Uniform s c [plainUse true a] → NoNumTraps s c → (s.warp c.warp).blk = some b →
      (s.warp c.warp).sval true a.toNat ≤ timelineOf s g b →
      Goes (.tlwait e g a) s (acquireAt s (s.warp c.warp).core (timelineScope s g b)) c (nextPc c))
  ∧ (∀ e s c, Uniform s c [] → NoNumTraps s c →
      ((s.warp c.warp).blk = none ∨ (s.launch (s.warp c.warp).launch).lrec.ordered = false) →
      Goes (.ordwait e) s s c (nextPc c))
  ∧ (∀ e s c b, Uniform s c [] → (s.warp c.warp).blk = some b → (s.launch (s.warp c.warp).launch).lrec.ordered = true →
      isHead s b = true → NoNumTraps (acquire s (s.warp c.warp).core .device) c →
      Goes (.ordwait e) s (acquire s (s.warp c.warp).core .device) c (nextPc c))

/-- R310 to R314: a tile's generation is published once earlier stores are performed, and read with its tensor's coarse bit; a task
is pushed to a queue that has room, or not; the oldest task of the highest priority is taken, or there is none; each commits an
idempotent block, whether it had room or a task or not (R483). The model's readings: a publication makes the
record of a tensor that has none (log 54), and a taken task's bytes are the record that the context's list holds, its slot being read
for its faults (log 78). -/
def Obligations.TagsAndTasks : Prop :=
  (∀ e a b s c s1 s2, Uniform s c [plainUse false a, plainUse false b] → releaseAt s c.warp .device = .ok s1 →
      ∀ W, W = s.warp c.warp → ∀ tile tensor gen, tile = W.sreg a.toNat → tensor = W.sreg b.toNat % 65536 →
      gen = W.sreg b.toNat / 65536 → ∀ n, n = nameOf s1 W c.pc.toNat →
      tagPublish s1 W.ctx W.launch W.core tensor tile (BitVec.ofNat 16 gen) n = .ok s2 →
      ∀ u, u = commitBlock (trace s2 W.ctx W.core 5 n (leBytes 2 tensor ++ leBytes 2 gen ++ leBytes 4 tile)) W →
      NoNumTraps u c → Goes (.tagpub e a b) s u c (nextPc c))
  ∧ (∀ e d a b s c, Uniform s c [plainUse false d, plainUse false a, plainUse false b] →
      ∀ W, W = s.warp c.warp → ∀ tensor, tensor = W.sreg b.toNat % 65536 →
      ∀ coarse : Bool, coarse = ((Tab.find (s.ctx W.ctx).tensors tensor).map (·.coarse)).getD false →
      (∀ g, Tab.find (s.ctx W.ctx).tiles (tileKey tensor (W.sreg a.toNat)) = some g →
        ∀ u, u = acquire (s.modWarp c.warp fun W => W.setSreg d.toNat (one01 coarse * 2 ^ 17 + 2 ^ 16 + g.toNat)) W.core .device →
        NoNumTraps u c → Goes (.tagrd e d a b) s u c (nextPc c))
      ∧ (Tab.find (s.ctx W.ctx).tiles (tileKey tensor (W.sreg a.toNat)) = none →
        ∀ u, u = s.modWarp c.warp (fun W => W.setSreg d.toNat (one01 coarse * 2 ^ 17)) → NoNumTraps u c →
        Goes (.tagrd e d a b) s u c (nextPc c)))
  ∧ (∀ e cd a b s c q ent s1 ea ps s2 s3 bs s4, Uniform s c [plainUse true a, plainUse false b] →
      ∀ W, W = s.warp c.warp → q = W.sreg b.toNat % 64 → enabledQueue s c W q = (.ok ent, s1) →
      locatePieces s1 W 0 .glob (W.sval true a.toNat) 64 64 .read = (.ok (ea, ps), s2) → releaseAt s2 c.warp .device = .ok s3 →
      loadShared s3 c.warp (standing W) ea ps = (.ok bs, s4) →
      (queueFull s4 W.ctx q ent = true →
        ∀ u, u = commitBlock (count (s4.modWarp c.warp fun W => W.setCpred cd false) W.ctx W.core 0x32 1) W → NoNumTraps u c →
        Goes (.tqpush e cd a b) s u c (nextPc c))
      ∧ (∀ s5 s6, queueFull s4 W.ctx q ent = false → pushTask s4 W.ctx q ent bs none = (.ok s5, s6) →
        ∀ u, u = commitBlock (s5.modWarp c.warp fun W => W.setCpred cd true) W → NoNumTraps u c →
        Goes (.tqpush e cd a b) s u c (nextPc c)))
  ∧ (∀ e cd a b s c q ent s1 ea ps s2, Uniform s c [plainUse true a, plainUse false b] →
      ∀ W, W = s.warp c.warp → q = W.sreg b.toNat % 64 → enabledQueue s c W q = (.ok ent, s1) →
      locatePieces s1 W 0 .glob (W.sval true a.toNat) 64 64 .write = (.ok (ea, ps), s2) →
      (ps.any (·.tracked) = true → isHead s2 (W.blk.getD 0) = true) →
      (nextTask s2 W.ctx q = none →
        ∀ u, u = commitBlock (s2.modWarp c.warp fun W => W.setCpred cd false) W → NoNumTraps u c →
        Goes (.tqtake e cd a b) s u c (nextPc c))
      ∧ (∀ k raw s3 s4, nextTask s2 W.ctx q = some k → structRead s2 W.ctx k.slot 64 = (.ok raw, s3) → storePieces s3 c.warp c (c.group.headD 0) 0 ea ps k.raw = .ok s4 →
        ∀ u, u = commitBlock ((acquire (dropTask s4 W.ctx k) W.core .device).modWarp c.warp fun W => W.setCpred cd true) W →
        NoNumTraps u c → Goes (.tqtake e cd a b) s u c (nextPc c)))

/-- R183, R316, R318, R323: what each special register reads, which of them are written and how, the acknowledgement of a version, and
a segment register loaded by a privileged handler. -/
def Obligations.SystemRegisters : Prop :=
  (∀ e d sr s c s1, Uniform s c [plainUse (srWide sr) d] → flagsReady s c.warp sr = .ok s1 →
      ∀ u, u = s1.modWarp c.warp (fun W => W.setSval (srWide sr) d.toNat (srRead s1 (s1.warp c.warp) sr)) → NoNumTraps u c →
      Goes (.rdsr e d sr) s u c (nextPc c))
  ∧ (∀ s W b, W.blk = some b →
      srRead s W .bidX = (s.blk b).x.toNat ∧ srRead s W .bidY = (s.blk b).y.toNat ∧ srRead s W .bidZ = (s.blk b).z.toNat
      ∧ srRead s W .nwarp = (s.blk b).nwarp ∧ srRead s W .team = (s.blk b).pos ∧ srRead s W .lsconf = (s.blk b).lsconf.toNat
      ∧ srRead s W .tlcopy = (s.blk b).carter.timeline)
  ∧ (∀ s W, W.blk = none → srRead s W .bidX = 0xFFFFFFFF ∧ srRead s W .bidY = 0xFFFFFFFF ∧ srRead s W .bidZ = 0xFFFFFFFF)
  ∧ (∀ s W, srRead s W .nblk
        = (s.launch W.launch).lrec.gx * (s.launch W.launch).lrec.gy * (s.launch W.launch).lrec.gz
      ∧ srRead s W .wid = W.wid ∧ srRead s W .role = W.kind ∧ srRead s W .core = W.core ∧ srRead s W .cluster = W.core / 4
      ∧ srRead s W .die = W.core / 32 ∧ srRead s W .seed = (s.launch W.launch).lrec.seed.toNat
      ∧ srRead s W .clock = (s.core W.core).clock.toNat ∧ srRead s W .tick = s.tick.toNat
      ∧ srRead s W .launch = (s.launch W.launch).addr ∧ srRead s W .rmver = s.dev.rmver.toNat
      ∧ srRead s W .numctl = W.numctl.toNat ∧ srRead s W .numflags = W.numflags.toNat ∧ srRead s W .fpflags = W.fpflags.toNat)
  ∧ (∀ e sr d s c s1, Uniform s c [plainUse (srWide sr) d] → flagsReady s c.warp sr = .ok s1 →
      ∀ v, v = (s.warp c.warp).sval (srWide sr) d.toNat →
      ∀ u, u = (match sr with
        | .numctl => s1.modWarp c.warp fun W => { W with numctl := BitVec.ofNat 64 v &&& 0xF3F3F }
        | .numflags => s1.modWarp c.warp fun W => { W with numflags := BitVec.ofNat 64 (v % 16) }
        | .fpflags => s1.modWarp c.warp fun W => { W with fpflags := BitVec.ofNat 32 (v % 32) }
        | .lsconf => (match (s1.warp c.warp).blk with
          | some b => s1.modBlk b fun B => { B with lsconf := BitVec.ofNat 32 v }
          | none => s1)
        | _ => s1) → NoNumTraps u c → Goes (.wrsr e sr d) s u c (nextPc c))
  ∧ (∀ e cd a s c v, Uniform s c [plainUse false a] → v = BitVec.ofNat 32 ((s.warp c.warp).sreg a.toNat) →
      (v = s.dev.rmver → ∀ u, u = (s.modCtx (s.warp c.warp).ctx fun C => { C with ackVersion := v, ackBy := none }).modWarp
          c.warp (fun W => W.setCpred cd true) → NoNumTraps u c → Goes (.rmack e cd a) s u c (nextPc c))
      ∧ (2 ^ 31 ≤ (v - s.dev.rmver).toNat → ∀ u, u = s.modWarp c.warp (fun W => W.setCpred cd false) → NoNumTraps u c →
        Goes (.rmack e cd a) s u c (nextPc c)))
  ∧ (∀ e (k : BitVec 3) a s c h rest ea ps s1 bs s2, Uniform s c [plainUse true a] → (s.warp c.warp).handlers = h :: rest →
      (s.ctx (s.warp c.warp).ctx).sysr = true → k ≠ 1 → k ≠ 2 →
      locatePieces s (s.warp c.warp) 0 .glob ((s.warp c.warp).sval true a.toNat) 16 16 .read = (.ok (ea, ps), s1) →
      loadShared s1 c.warp (standing (s.warp c.warp)) ea ps = (.ok bs, s2) → field bs 0 8 < 2 ^ 56 → field bs 8 8 < 2 ^ 48 →
      ∀ u, u = s2.modWarp c.warp (fun W => { W with
        segs := setAt W.segs k.toNat ⟨BitVec.ofNat 64 (field bs 0 8), BitVec.ofNat 64 (field bs 8 8)⟩ }) → NoNumTraps u c →
      Goes (.segld e k a) s u c (nextPc c))

/-- R137, R317, R319, R320: an invalidation begins with its group waiting for it, and the group goes on once it is complete; a page's
or an address space's needs a privileged handler. Its completion has the stores on their way performed, waits for what else was
translated by the entries it covers, and drops them. -/
def Obligations.Invalidations : Prop :=
  (∀ e a s c id, Uniform s c [plainUse true a] → NoNumTraps s c → privileged s c (s.warp c.warp) = true →
      waitsFor s c (.inval id) → (∀ v ∈ s.invals, v.id ≠ id) → Goes (.tlbinvPage e a) s s c (nextPc c))
  ∧ (∀ e s c id, Uniform s c [] → NoNumTraps s c → privileged s c (s.warp c.warp) = true →
      waitsFor s c (.inval id) → (∀ v ∈ s.invals, v.id ≠ id) → Goes (.tlbinvAsid e) s s c (nextPc c))
  ∧ (∀ e sc a b s c id, Uniform s c [plainUse true a, plainUse false b] → NoNumTraps s c →
      waitsFor s c (.inval id) → (∀ v ∈ s.invals, v.id ≠ id) → Goes (.icinv e sc a b) s s c (nextPc c))
  ∧ (∀ s c, s.cur = some c → handlerFree (s.warp c.warp) (groupOf (s.warp c.warp) c) = true →
      (∀ f ∈ groupOf (s.warp c.warp) c, f.status = .ready) →
      (∀ e a, [plainUse true a].all (UniUse.ok (s.warp c.warp)) = true → privileged s c (s.warp c.warp) = true →
        Waits (.tlbinvPage e a) s { s with next := s.next + 1, invals := s.invals ++
          [⟨s.next, .page (s.ctx (s.warp c.warp).ctx).asid ((s.warp c.warp).sval true a.toNat % 2 ^ 56), none⟩] } c
          (.inval s.next))
      ∧ (∀ e, privileged s c (s.warp c.warp) = true →
        Waits (.tlbinvAsid e) s { s with next := s.next + 1, invals := s.invals ++
          [⟨s.next, .asid (s.ctx (s.warp c.warp).ctx).asid, none⟩] } c (.inval s.next)))
  ∧ (∀ idx s id a va d, s.invals[idx]? = some ⟨id, .page a va, d⟩ → ∀ u, u = landAll s →
      ((openOps u).any (fun x => covered u (.page a va) x.1 x.2.place) || (openCpas u).any fun x => covered u (.page a va) x.1 x.2) = false →
      exec (.tlbInvalidateComplete idx) s = .next { u with
        invals := u.invals.eraseIdx idx
        dies := u.dies.map fun e => (e.1, { e.2 with
          tlb := e.2.tlb.filter fun t => !((t.global || t.asid == a) && t.page == va / 2 ^ t.bits) }) })
  ∧ (∀ idx s id a d, s.invals[idx]? = some ⟨id, .asid a, d⟩ → ∀ u, u = landAll s →
      ((openOps u).any (fun x => covered u (.asid a) x.1 x.2.place) || (openCpas u).any fun x => covered u (.asid a) x.1 x.2) = false →
      exec (.tlbInvalidateComplete idx) s = .next { u with
        invals := u.invals.eraseIdx idx
        dies := u.dies.map fun e => (e.1, { e.2 with tlb := e.2.tlb.filter fun t => !(t.asid == a && !t.global) }) })
  ∧ (∀ idx s id cores ctx lo len, s.invals[idx]? = some ⟨id, .code cores ctx lo len, none⟩ →
      exec (.icinvComplete idx) s = .next { s with
        invals := s.invals.eraseIdx idx
        cores := s.cores.map fun e => if cores.contains e.1 then
          (e.1, { e.2 with icache := e.2.icache.filter fun x => !coversLine ctx lo len x.1 }) else e })
  ∧ (∀ idx s k l e, s.walks[idx]? = some k → walkCtx s k.ctx k.va = .ok (l, e) →
      exec (.pageWalkComplete idx) s
        = .next (k.cores.foldl (fun t core => cacheLeaf t (.core core) k.ctx k.va l e) { s with walks := s.walks.eraseIdx idx }))

/-! ## Foreman words and engine commands -/

/-- R338, R339, R341, R355: a layout record is read into its slot with origins of 0, an origin is moved, and the rounding, the tensor
scales and a barrier's phase are set; a misaligned offset, an empty slot and the codes 0 and 7 are refused. -/
def Obligations.ForemanConfiguration : Prop :=
  ∀ s c F, AtForeman s c F → ∀ s0 : State, s0 = { s with fcur := none } →
    (∀ (l : BitVec 3) (off : BitVec 20) bs, off.toNat % 64 = 0 → windowRead s0 c.blk F off.toNat 64 = .ok bs →
      (Layout.parse true bs).isSome = true →
      FmGoes (.mlay l off) s (modFm s0 c.blk fun F => { F with
        slots := setAt F.slots l.toNat (some ⟨bs, [0, 0, 0, 0]⟩) }) c (c.pc + 8))
    ∧ (∀ (l : BitVec 3) (off : BitVec 20), off.toNat % 64 ≠ 0 → FmRefused (.mlay l off) s c)
    ∧ (∀ (l : BitVec 3) dim inc x, F.slots[l.toNat]? = some (some x) →
      FmGoes (.madd l dim inc) s (modFm s0 c.blk fun F => { F with
        slots := setAt F.slots l.toNat (some { x with origins := modAt x.origins dim.toNat fun o => o + inc }) }) c (c.pc + 8))
    ∧ (∀ (l : BitVec 3) dim inc, F.slots[l.toNat]? = some none → FmRefused (.madd l dim inc) s c)
    ∧ (∀ code : BitVec 3, code ≠ 0 → code ≠ 7 →
      FmGoes (.mconfRnd code) s (modFm s0 c.blk fun F => { F with rnd := code }) c (c.pc + 8))
    ∧ FmRefused (.mconfRnd 0) s c ∧ FmRefused (.mconfRnd 7) s c
    ∧ (∀ (off : BitVec 20) bs, off.toNat % 4 = 0 → windowRead s0 c.blk F off.toNat 4 = .ok bs →
      FmGoes (.mconfTs off) s (modFm s0 c.blk fun F => { F with ts := BitVec.ofNat 32 (leNat bs) }) c (c.pc + 8))
    ∧ (∀ bn ph, FmGoes (.mconfWph bn ph) s (modFm s0 c.blk fun F => { F with wph := setAt F.wph bn.toNat ph }) c (c.pc + 8))

/-- R334, R335, R340, R342 to R348: tile words that keep their rules are in flight as commands with what they copied of the context:
clearing, multiplying in the three forms, reading a plane or a triple out, reading a column out, and stamping. -/
def Obligations.ForemanTiles : Prop :=
  ∀ s c F, AtForeman s c F → ∀ s0 : State, s0 = { s with fcur := none } → mayIssue s0 c F →
    (∀ k three int, slotsOk s0 c.blk k.toNat three = true →
      FmGoes (.mclr k three int) s (issued s0 c (.mclr k three int)) c (c.pc + 8))
    ∧ (∀ k three int, slotsOk s0 c.blk k.toNat three = false → FmRefused (.mclr k three int) s c)
    ∧ (∀ (op : Instr) (k : BitVec 4) pm a b md sc m t,
      (op = .mma k pm a b ∧ md = none ∧ sc = none
        ∨ (∃ x, op = .mmas k pm a b x ∧ md = some x ∧ sc = none)
        ∨ ∃ x y, op = .mmax k pm a b x y ∧ md = none ∧ sc = some (x, y)) →
      matArgs s0 c.blk .word F.slots pm a b md sc = .ok m → slotsOk s0 c.blk k.toNat m.three = true →
      m.planesOk (!(s0.launch (s0.blk c.blk).launch).lrec.single) = true →
      (∀ o ∈ m.operands, o.1.bounded s0 o.2 = true ∧ ∀ r ∈ o.1.spans o.2, rangeHeld s0 r false = false) →
      withTiles s0 c.blk F (tileSlots k.toNat m.three) m.plan.int = some t →
      FmGoes op s (issued t c op) c (c.pc + 8))
    ∧ (∀ (k : BitVec 4) (pl : BitVec 2) d o int, ∀ ks, ks = cmdTiles (.mrd k pl d) → (pl = 3 → k.toNat % 3 = 0) →
      operandOf s0 c.blk .word (laySlot F.slots d) = .ok o → (∀ q ∈ ks, slotsOk s0 c.blk q false = true) →
      o.lay.bitplane = false → o.bounded s0 128 = true → (∀ r ∈ o.spans 128, rangeHeld s0 r true = false) →
      ∀ t, t = ensureTiles s0 c.blk F ks → ks ≠ [] → (∀ q ∈ ks, slotType t c.blk F q = some int) →
      mrdType int o.lay.typ = true → o.lay.sib = (if pl = 3 then .triple else .plain) →
      FmGoes (.mrd k pl d) s (issued t c (.mrd k pl d)) c (c.pc + 8))
    ∧ (∀ (k : BitVec 4) d o, ∀ ks, ks = cmdTiles (.mcol k d) → k.toNat % 3 = 0 →
      operandOf s0 c.blk .word (laySlot F.slots d) = .ok o → (∀ q ∈ ks, slotsOk s0 c.blk q false = true) →
      o.lay.bitplane = false → o.bounded s0 128 = true → (∀ r ∈ o.spans 128, rangeHeld s0 r true = false) →
      ∀ t, t = ensureTiles s0 c.blk F ks → ks ≠ [] → (∀ q ∈ ks, slotType t c.blk F q = some false) →
      (o.lay.typ = 0 ∨ o.lay.typ = 2 ∨ o.lay.typ = 3) →
      FmGoes (.mcol k d) s (issued t c (.mcol k d)) c (c.pc + 8))
    ∧ (∀ clu (addr : BitVec 22) ea, addr.toNat % 8 = 0 → clusterAddr s0 c.blk addr.toNat 8 .write = .ok ea →
      (∀ r ∈ stampRange s0 c.blk addr, rangeHeld s0 r true = false) →
      FmGoes (.mstamp clu addr) s (issued s0 c (.mstamp clu addr)) c (c.pc + 8))

/-- R327, R328, R337, R349, R350, R355: arriving at and waiting for a Foreman barrier, loops, jumps, the end of the stream, a word that
is no instruction, and the fetch of the word at FPC. -/
def Obligations.ForemanControl : Prop :=
  (∀ s c F, AtForeman s c F → ∀ s0 : State, s0 = { s with fcur := none } →
    (∀ bn v, F.cmds = [] → (barAt s0 c.blk bn.toNat).count ≠ 0 → (barAt s0 c.blk bn.toNat).fm = true →
      (barAt s0 c.blk bn.toNat).arrive 0 = .ok v → FmGoes (.mbarr bn) s (setBar s0 c.blk bn.toNat v) c (c.pc + 8))
    ∧ (∀ bn, (barAt s0 c.blk bn.toNat).count ≠ 0 → (barAt s0 c.blk bn.toNat).fm = true → ∀ e, e = F.wph.getD bn.toNat 0 →
      ((barAt s0 c.blk bn.toNat).phase.toNat + 65536 - e.toNat) % 65536 < 32768 →
      FmGoes (.mbwait bn) s (modFm s0 c.blk fun F => { F with wph := setAt F.wph bn.toNat (e + 1) }) c (c.pc + 8))
    ∧ (∀ bn, (barAt s0 c.blk bn.toNat).count ≠ 0 → (barAt s0 c.blk bn.toNat).fm = true →
      32768 ≤ ((barAt s0 c.blk bn.toNat).phase.toNat + 65536 - (F.wph.getD bn.toNat 0).toNat) % 65536 →
      exec (.mbwait bn) s = .next s0)
    ∧ (∀ n : BitVec 24, n ≠ 0 → F.loops.length < 4 →
      FmGoes (.mloop n) s (modFm s0 c.blk fun F => { F with loops := (c.pc + 8, n.toNat) :: F.loops }) c (c.pc + 8))
    ∧ (∀ (off : BitVec 24) bs, off.toNat % 4 = 0 → windowRead s0 c.blk F off.toNat 4 = .ok bs → leNat bs ≠ 0 →
      leNat bs < 2 ^ 24 → F.loops.length < 4 →
      FmGoes (.mloopL off) s (modFm s0 c.blk fun F => { F with loops := (c.pc + 8, leNat bs) :: F.loops }) c (c.pc + 8))
    ∧ (∀ start n rest, F.loops = (start, n) :: rest → 2 ≤ n →
      FmGoes .mendl s (modFm s0 c.blk fun F => { F with loops := (start, n - 1) :: rest }) c start)
    ∧ (∀ start n rest, F.loops = (start, n) :: rest → n ≤ 1 →
      FmGoes .mendl s (modFm s0 c.blk fun F => { F with loops := rest }) c (c.pc + 8))
    ∧ (F.loops = [] → FmRefused .mendl s c)
    ∧ (4 ≤ F.loops.length → ∀ n : BitVec 24, n ≠ 0 → FmRefused (.mloop n) s c)
    ∧ (∀ off, FmGoes (.mjmp off) s s0 c (c.pc + BitVec.ofInt 56 (8 * off.toInt)))
    ∧ exec .mend s = .next (retireIfDone (modFm (modFm s0 c.blk fun F => { F with ended := true }) c.blk fun F =>
        { F with fpc := c.pc + 8, fcount := F.fcount + 1 }) c.blk)
    ∧ (∀ w, FmRefused (.foremanWordUnallocated w) s c))
  ∧ (∀ b s F v s1, (s.blk b).fm = some F → F.ended = false → F.stopped = false → s.fcur = none → engineRuns s b = true →
      wordHeld s b F.fpc = false →
      matching (s.ctx (s.blk b).ctx) 1 (s.blk b).lin F.fpc.toNat = none → fetchWord s b F.fpc = (.ok v, s1) →
      exec (.foremanFetch b) s = .next { s1 with fcur := some (⟨b, F.fpc, BitVec.ofNat 64 v⟩,
        match decodeForeman (BitVec.ofNat 64 v) with | .ok i => i | .error _ => .foremanWordUnallocated (BitVec.ofNat 64 v)) })

/-- R165, R342 to R348, R351 to R353: a command completes when no earlier one must come first and, on the array, its context has the
turn; its effect is made, its flags go to every warp of the block, and the timeline is the greatest number below which all have
completed. The effects: `mclr` gives each slot its type and zeros; `mma`, `mmas` and `mmax` sum their rows in increasing depth into
every element within the extents (of the rest the slot keeps what it held, log 28); `mrd` writes a plane, or three copies, converted;
`mcol` writes Mean3 or three copies with their digit count (log 103 fixes which flags Mean3 raises); `mstamp` writes its number. -/
def Obligations.ForemanCompletion : Prop :=
  ((∀ b n s F k, (s.blk b).fm = some F → F.cmds.find? (fun c => c.n == n) = some k →
      (∀ x ∈ F.cmds, x.n < n → cmdAfter s b x k = false) →
      (onArray k.op = true → testDue s (s.blk b).core = false ∧ arrayTurn s (s.blk b).core = some b) →
      exec (.foremanCommandComplete b n) s = .next (completeCmd s b F k))
    ∧ (∀ b n s F k, (s.blk b).fm = some F → F.cmds.find? (fun c => c.n == n) = some k →
      ((∃ x ∈ F.cmds, x.n < n ∧ cmdAfter s b x k = true)
        ∨ onArray k.op = true ∧ (testDue s (s.blk b).core = true ∨ arrayTurn s (s.blk b).core ≠ some b)) →
      exec (.foremanCommandComplete b n) s = .next s)
    ∧ (∀ b s F k t fl, (s.blk b).fm = some F → F.ended = false → performCmd s b k = .ok (t, fl) →
      (∃ G, ((completeCmd s b F k).blk b).fm = some G ∧ G.cmds = F.cmds.filter (fun x => x.n != k.n)
        ∧ G.timeline = timelineTop F.issued (G.cmds.map (·.n)) ∧ G.issued = F.issued ∧ G.fpc = F.fpc)
      ∧ ∀ e ∈ (completeCmd s b F k).warps, e.2.blk = some b →
        ∃ d ∈ s.warps, d.1 = e.1 ∧ d.2.blk = some b ∧ e.2.fpflags = d.2.fpflags ||| fl.setWidth 32)
    ∧ (∀ top ns, timelineTop top ns ≤ top ∧ (∀ n ∈ ns, n ≠ 0 → timelineTop top ns < n)
      ∧ ∀ m, m ≤ top → (∀ n ∈ ns, m < n) → m ≤ timelineTop top ns))
  ∧ ((∀ b s (k : FmCmd) q three int, k.op = .mclr q three int → ∀ B, Tab.find s.blocks b = some B →
        (∀ r ∈ tileSlots q.toNat three, r < B.tiles.length) →
        ∃ t, performCmd s b k = .ok (t, 0) ∧ (∀ r ∈ tileSlots q.toNat three,
            (tileAt t b r).int = some int ∧ ∀ i j, (tileAt t b r).cell i j = 0)
          ∧ ∀ r, r ∉ tileSlots q.toNat three → tileAt t b r = tileAt s b r)
    ∧ (∀ b s (k : FmCmd) clu a m off, k.op = .mstamp clu a → clusterAddr s b a.toNat 8 .write = .ok (.win m off) →
        ((s.blk m).winSib = .plain → performCmd s b k = .ok (writeWin s m (wholeBytes off (leBytes 8 k.n)), 0))
        ∧ ((s.blk m).winSib = .triple → performCmd s b k = .ok (writeWin s m (wholeBytes (4 * off)
            (leBytes 8 k.n ++ leBytes 8 k.n ++ leBytes 8 k.n ++ leBytes 8 0)), 0))))
  ∧ ((∀ (o : Operand) i j, (i, j) ∈ o.targets ↔ i < 128 ∧ j < 128
        ∧ o.lay.inside (o.origin 0 + j) (o.origin 1 + i) (o.origin 2) (o.origin 3) = true)
    ∧ (∀ b s (k : FmCmd) (q : BitVec 4) (pl : BitVec 2) d o, k.op = .mrd q pl d → pl ≠ 3 →
        operandOf s b .effect (laySlot k.slots d) = .ok o →
        ∀ v : Nat × Nat → Nat × Flags, v = planeOut s b k o pl.toNat (q.toNat + pl.toNat) →
        performCmd s b k = .ok (writeWin s o.blk (o.targets.flatMap fun e =>
          plainElem o.lay (o.spotOf s e.1 e.2).1 (o.spotOf s e.1 e.2).2 (v e).1), orFlags (o.targets.map fun e => (v e).2)))
    ∧ (∀ b s (k : FmCmd) (q : BitVec 4) d o, k.op = .mrd q 3 d → operandOf s b .effect (laySlot k.slots d) = .ok o →
        ∀ v : Nat → Nat × Nat → Nat × Flags, (v = fun p => planeOut s b k o p (q.toNat + p)) →
        performCmd s b k = .ok (writeWin s o.blk (o.targets.flatMap fun e =>
          tripleWrites (o.spotOf s e.1 e.2).1 o.lay.size (digitsOf (typFmt o.lay.typ) [(v 0 e).1, (v 1 e).1, (v 2 e).1])
            [(v 0 e).1, (v 1 e).1, (v 2 e).1]),
          orFlags (o.targets.map fun e => (v 0 e).2 ||| (v 1 e).2 ||| (v 2 e).2)))
    ∧ (∀ b s (k : FmCmd) (q : BitVec 4) d o f, k.op = .mcol q d → operandOf s b .effect (laySlot k.slots d) = .ok o →
        typFmt o.lay.typ = some f →
        ∀ x : Nat → Nat × Nat → Machine.Num, (x = fun p e => decodeNum binary32 ((tileAt s b (q.toNat + p)).cell e.1 e.2)) →
        ∀ y : Nat × Nat → Nat × Flags, (y = fun e => mean3 f (x 0 e) (x 1 e) (x 2 e)) →
        ∀ dg : Nat × Nat → Nat, (dg = fun e => digits3 (x 0 e) (x 1 e) (x 2 e) f.p) →
        ∀ c : Nat → Nat × Nat → Nat × Flags, (c = fun p e => encodeNum f modeRN 0 (x p e)) →
        (o.lay.sib = .plain → performCmd s b k = .ok (writeWin s o.blk (o.targets.flatMap fun e =>
          plainElem o.lay (o.spotOf s e.1 e.2).1 (o.spotOf s e.1 e.2).2 (y e).1), orFlags (o.targets.map fun e => (y e).2)))
        ∧ (o.lay.sib = .mean → performCmd s b k = .ok (writeWin s o.blk (o.targets.flatMap fun e =>
          meanWrites (o.spotOf s e.1 e.2).1 o.lay.size (dg e) (y e).1), orFlags (o.targets.map fun e => (y e).2)))
        ∧ (o.lay.sib = .triple → performCmd s b k = .ok (writeWin s o.blk (o.targets.flatMap fun e =>
          tripleWrites (o.spotOf s e.1 e.2).1 o.lay.size (dg e) [(c 0 e).1, (c 1 e).1, (c 2 e).1]),
          orFlags (o.targets.map fun e => snanFlag [x 0 e, x 1 e, x 2 e] ||| (c 0 e).2 ||| (c 1 e).2 ||| (c 2 e).2)))))
  ∧ ((∀ b s (k : FmCmd) (q : BitVec 4) m B n, ((∃ pm x y, k.op = .mma q pm x y) ∨ (∃ pm x y z, k.op = .mmas q pm x y z)
          ∨ ∃ pm x y u v, k.op = .mmax q pm x y u v) → cmdArgs s b .effect k = .ok m → Tab.find s.blocks b = some B →
        n = (if m.three then 3 else 1) → q.toNat + n ≤ B.tiles.length →
        ∀ sum : Nat → Nat → Nat → Nat × Flags, (sum = fun p i j => m.plan.run k.rnd
          (matrixDraw (s.launch B.launch).lrec.seed B.lin p k.fcount i j) (m.aAt s p i) (m.bAt s p j) (scaleAt s m.plan m.sa i)
          (scaleAt s m.plan m.sb j) k.ts ((tileAt s b (q.toNat + p)).cell i j)) →
        ∃ t fl, performCmd s b k = .ok (t, fl)
          ∧ (∀ p, p < n → (tileAt t b (q.toNat + p)).int = (tileAt s b (q.toNat + p)).int
            ∧ ∀ i j, i < 128 → j < 128 → (tileAt t b (q.toNat + p)).cell i j
              = if m.a.rowIn i = true ∧ m.b.rowIn j = true then (sum p i j).1 % 2 ^ 32
                else (tileAt s b (q.toNat + p)).cell i j)
          ∧ (∀ g, fl.getLsbD g = true ↔ ∃ p i j, p < n ∧ i < 128 ∧ j < 128 ∧ m.a.rowIn i = true ∧ m.b.rowIn j = true
              ∧ (sum p i j).2.getLsbD g = true)
          ∧ (∀ r, (r < q.toNat ∨ q.toNat + n ≤ r) → tileAt t b r = tileAt s b r) ∧ t.mem = s.mem)
    ∧ (∀ (p : MatPlan) x y wa wb mode dr a b sa sb ts acc, p.kind = .ints x y wa wb → p.chunks = 1 →
        p.run mode dr a b sa sb ts acc = (modulo 32 (((List.range p.depth).map fun k =>
          read x wa (a k) * read y wb (b k)).foldl (· + ·) (acc : Int)), 0))
    ∧ (∀ (p : MatPlan) fa fb w mode dr a b sa sb ts acc, p.kind = .chunks fa fb w → ∀ n, n = p.depth / p.chunks →
        p.run mode dr a b sa sb ts acc = (List.range p.chunks).foldl (fun r ch =>
          let v := chunkStep mode (dr ch) w 0 ((List.range n).map fun j => decodeNum fa (a (n * ch + j)))
            ((List.range n).map fun j => decodeNum fb (b (n * ch + j))) r.1
          (v.1, r.2 ||| v.2)) (acc, 0))
    ∧ (∀ (p : MatPlan) fa fb w per mode dr a b sa sb ts acc ch, p.kind = .scaled fa fb w per → ∀ n, n = p.depth / p.chunks →
        p.chunk mode dr a b sa sb ts acc ch = if sa (ch / per) = 255 ∨ sb (ch / per) = 255 then (0x7FC00000, 0)
          else chunkStep mode (dr ch) w ((sa (ch / per) : Int) + sb (ch / per) - 254)
            ((List.range n).map fun j => decodeNum fa (a (n * ch + j))) ((List.range n).map fun j => decodeNum fb (b (n * ch + j)))
            acc)
    ∧ (∀ (a m : Nat → Nat) g i, i < 4 → sparseAt a m (4 * g + i)
        = if m (2 * g + 1) = i then a (2 * g + 1) else if m (2 * g) = i then a (2 * g) else 0))

/-- R163 to R167, R261 to R263, R488: commands begin in order (R409); one whose record keeps the rules, and whose source no earlier
command is still to write, begins with its pieces in flight, one whose record does not is an engine fault; a piece lands with its bytes
at its destination, when its context may move bytes (R379); a command with no piece left completes, after its stamp. -/
def Obligations.CopyEngine : Prop :=
  (∀ b n s k, (s.blk b).carter.cmds.find? (fun c => c.n == n) = some k → k.started = false →
      (engineRuns s b || (s.blk b).state == .retired) = true → (∀ x ∈ (s.blk b).carter.cmds, x.fault = none) →
      (∀ x ∈ (s.blk b).carter.cmds, x.n < n → x.started = true) →
      sequenceHolds s b 2 (n - 1) (s.blk b).carter.timeline = false →
      ∀ r, r = CopyRec.ofBytes k.record →
      (r.ok (s.blk b).teamSize = true → r.layout = false → sourceAfter s b k none = false →
        exec (.copyCommandStart b n) s = .next (modCopy s b k.n fun c =>
        { c with started := true, lays := none, pieces := piecesFor (r.len / 16) r.members }))
      ∧ (r.ok (s.blk b).teamSize = false →
        exec (.copyCommandStart b n) s = .next (copyFail s b k 0x0501 k.recAddr .read)))
  ∧ (∀ b n idx s k p dst size ws s1 s2, (s.blk b).carter.cmds.find? (fun c => c.n == n) = some k → k.started = true →
      k.fault = none → atCap s (s.blk b).ctx .carter (s.blk b).core = false → carterRival s b = false →
      k.pieces[idx]? = some p → copyPiece s b k p = (.ok (dst, size, ws), s1) →
      copyWrite s1 b k dst size ws = .ok s2 →
      exec (.copyPieceLand (.carter b n idx)) s = .next (landPiece s2 b k idx dst ws))
  ∧ (∀ w idx s W p s1 bs s2, Tab.find s.warps w = some W → W.heldStores = false → W.cpas[idx]? = some p → p.bar = none →
      linkCheck s p.src 16 .read = (none, s1) → linkDown s1 p.src = false → budgetHeld s1 W.ctx p.src false = false →
      stagedBytes s1 p.dstBlk p.src 16 = .ok (bs, s2) →
      exec (.copyPieceLand (.cpa w idx)) s
        = .next (dropCpa (writePlace (chargeBytes s2 W.ctx p.src 16 false) W.core p.dst
            (wholeBytes (p.dst.data 16 0) bs)) w idx p))
  ∧ (∀ b n s k, (s.blk b).carter.cmds.find? (fun c => c.n == n) = some k → k.started = true → k.fault = none →
      k.pieces = [] → ∀ r, r = CopyRec.ofBytes k.record →
      (r.stamp = false → exec (.copyCommandComplete b n) s = .next (finishCopy s b k))
      ∧ (∀ u v, r.stamp = true → copyStamp s b k r = (.ok u, v) →
        exec (.copyCommandComplete b n) s = .next (finishCopy u b k)))

/-! ## Words that are no instruction -/

/-- R175, R188, R189, R199: an LX word waits for the word after it; an unallocated encoding diverts its whole group at its own
address with ILLEGAL_INSTRUCTION; and an operand outside the window, or misaligned, diverts the fibres that execute with
ILLEGAL_OPERAND, stated of a sum, a floating sum and a move. -/
def Obligations.IllegalEncodings : Prop :=
  (∀ neg pred rnd sib imm s c, s.cur = some c →
      exec (.lxWord neg pred rnd sib imm) s
        = .next { s with cur := some { c with lx := some (packLx neg pred rnd sib imm) } })
  ∧ (∀ lx w s c, s.cur = some c → groupOf (s.warp c.warp) c ≠ [] → InLine (s.warp c.warp) →
      (s.launch (s.warp c.warp).launch).lrec.trapVec ≠ 0 →
      ∃ t, exec (.unallocatedEncoding lx w) s = .next t
        ∧ Diverted s t c.warp 0x0201 c.pc ((groupOf (s.warp c.warp) c).map (·.slot)) 0)
  ∧ (∀ x cy sat w d a b, BadOperand (.iadd x cy sat w d a b) x [byW w d, byW w a, byW w b])
  ∧ (∀ x ty d a b, BadOperand (.fadd x ty d a b) x [byTy ty d, byTy ty a, byTy ty b])
  ∧ ∀ x w d a, BadOperand (.mov x w d a) x [byW w d, byW w a]

/-! ## The register window -/

/-- R17, R127, R402, R404, R405, R499: PWRLIM is held within 1,500 to 4,400 and locks; NEARPART is at most 32 and takes effect while no
context runs; a firmware verification, an attestation and a key operation begin unless one is under way, and what each leaves
when it ends. The signatures are the model's free values (log 13), and that a verification reads its image when it ends is the model's
reading (log 46). -/
def Obligations.DeviceRegisters : Prop :=
  (∀ s v, s.dev.ideActive = true →
    (s.dev.pwrLock = true → exec (.pwrlimWrite v) s = .next s)
    ∧ (s.dev.pwrLock = false → exec (.pwrlimWrite v) s = .next (s.modDev fun D => { D with
        pwrLimit := BitVec.ofNat 16 (max 1500 (min 4400 (v.toNat % 65536))), pwrLock := v.getLsbD 16 }))
    ∧ ((∃ e ∈ s.ctxs, e.2.state = .running) → exec (.nearpartWrite v) s
        = .next (s.modDev fun D => { D with nearpartNext := some (min v.toNat 32) }))
    ∧ ((∀ e ∈ s.ctxs, e.2.state ≠ .running) → exec (.nearpartWrite v) s
        = .next (s.modDev fun D => { D with nearpart := min v.toNat 32, nearpartNext := none }))
    ∧ (s.dev.attBusy = false → exec (.attgoWrite v) s = .next (s.modDev fun D => { D with attgo := v, attBusy := true }))
    ∧ (s.dev.attBusy = true → exec (.attgoWrite v) s = .next s)
    ∧ (∀ d0 d1 d2 d3 d4 d5 d6 d7, s.dev.keyPending = none → s.dev.keyslot.toNat < 512 →
        s.dev.keydata = [d0, d1, d2, d3, d4, d5, d6, d7] →
        exec .keyopLoad s = .next (s.modDev fun D => { D with
          keyPending := some (s.dev.keyslot.toNat, some (d7 ++ d6 ++ d5 ++ d4 ++ d3 ++ d2 ++ d1 ++ d0)) }))
    ∧ (s.dev.keyPending = none → s.dev.keyslot.toNat < 512 → exec .keyopClear s
        = .next (s.modDev fun D => { D with keyPending := some (s.dev.keyslot.toNat, none) }))
    ∧ (s.dev.keyPending.isSome = true ∨ 512 ≤ s.dev.keyslot.toNat →
        exec .keyopLoad s = .next s ∧ exec .keyopClear s = .next s))
  ∧ (∀ s (v : Double), s.dev.ideActive = true ∨ islandOn s 27 = true →
    (s.dev.fwBusy = false → exec (.fwgoWrite v) s = .next (s.modDev fun D => { D with fwgo := v, fwBusy := v == 1 }))
    ∧ (s.dev.fwBusy = true → exec (.fwgoWrite v) s = .next s))
  ∧ (∀ s, s.dev.fwBusy = true → ∀ image, image = readPhys s none s.dev.fwaddr.toNat s.dev.fwlen.toNat →
    ∃ t, exec .firmwareVerifyDone s = .next t
      ∧ t.dev = { s.dev with
          fwBusy := false, measurement := shake256 image 64
          fwstat := if s.dev.pufFailed then 3 else if Config.firmwareSignatureGood image then 1 else 2 }
      ∧ t.mem = s.mem
      ∧ (Config.firmwareSignatureGood image = false → t.islands = s.islands))
  ∧ (∀ s, s.dev.attBusy = true →
    (s.dev.pufFailed = true → exec .attestReportDone s = .next (s.modDev fun D => { D with attBusy := false, attstat := 2 }))
    ∧ (s.dev.pufFailed = false →
        ∀ report, report = reportBody s.dev ++ fitBytes 29792 (Config.attestSignature (reportBody s.dev)) →
        physOk s s.dev.attaddr.toNat report.length = true →
        exec .attestReportDone s
          = .next ((putPhys s s.dev.attaddr.toNat report).modDev fun D => { D with attBusy := false, attstat := 1 })))
  ∧ ∀ s slot, (∀ key, s.dev.keyPending = some (slot, some key) → ∃ t, exec .keyOpComplete s = .next t
        ∧ Tab.find t.keys slot = some key ∧ (∀ k, k ≠ slot → Tab.find t.keys k = Tab.find s.keys k) ∧ t.dev.keyPending = none)
      ∧ (s.dev.keyPending = some (slot, none) → Tab.rising none s.keys = true → ∃ t, exec .keyOpComplete s = .next t
        ∧ Tab.find t.keys slot = none ∧ (∀ k, k ≠ slot → Tab.find t.keys k = Tab.find s.keys k) ∧ t.dev.keyPending = none)

/-- R397 to R400, R407, R410, R412, R472, R500, R501: what the host's writes to a context page do: states that follow one another, a
notification, a tensor record that is freed, an acknowledgement, the save area, a halt and its end, an invalidation for the debugger,
and a debug right that is cleared; the window takes aligned accesses of 4 and 8 bytes. -/
def Obligations.ContextRegisters : Prop :=
  (∀ s c (v : Double), s.dev.ideActive = true →
    (∀ w, exec (.notifyWrite c w) s
      = .next (s.modCtx c fun C => { C with notify := w, notified := true, blockedSince := none }))
    ∧ ((s.ctx c).discarding = false → (s.ctx c).state = .free → exec (.ctxStateStop c v) s
      = .next (s.modCtx c fun C => { C with
          asid := v.toNat / 256 % 256, dbgr := v.getLsbD 3, sysr := v.getLsbD 2, state := .stopped }))
    ∧ ((s.ctx c).discarding = false → ((s.ctx c).state = .running ∨ (s.ctx c).state = .suspended) →
      exec (.ctxStateStop c v) s = .next (s.modCtx c fun C => { C with stopping := true }))
    ∧ ((s.ctx c).discarding = false → (s.ctx c).state = .stopped →
      (∀ e ∈ s.ctxs, e.1 ≠ c → e.2.state ≠ .free → e.2.asid ≠ v.toNat / 256 % 256) →
      ((s.ctx c).dbgr = false ∨ v.getLsbD 3 = true) → s.dev.nearpartNext = none →
      exec (.ctxStateRun c v) s = .next (s.modCtx c fun C => { C with
          asid := v.toNat / 256 % 256, dbgr := v.getLsbD 3, sysr := v.getLsbD 2, state := .running }))
    ∧ ((s.ctx c).state = .stopped → (∃ e ∈ s.ctxs, e.1 ≠ c ∧ e.2.state ≠ .free ∧ e.2.asid = v.toNat / 256 % 256) →
      exec (.ctxStateRun c v) s = .next s)
    ∧ ((s.ctx c).discarding = false → (s.ctx c).state = .suspended → (s.ctx c).stopping = false →
      (s.ctx c).ackVersion = s.dev.rmver → s.dev.nearpartNext = none →
      (∀ e ∈ s.ctxs, e.1 ≠ c → e.2.state ≠ .free → e.2.asid ≠ (s.ctx c).asid) →
      exec (.ctxStateRun c v) s = .next (s.modCtx c fun C => { C with state := .running }))
    ∧ ((s.ctx c).discarding = false → (s.ctx c).state = .stopped →
      exec (.ctxStateFree c v) s = .next (s.modCtx c fun C => { C with discarding := true }))
    ∧ ((s.ctx c).state = .running → exec (.ctxStateFree c v) s = .next s)
    ∧ exec (.tagclrWrite c v) s = .next (s.modCtx c fun C => { C with
        tensors := C.tensors.filter fun e => e.1 != v.toNat % 65536
        tiles := C.tiles.filter fun e => e.1 / 2 ^ 32 != v.toNat % 65536 })
    ∧ exec (.rmackWrite c v) s = .next (s.modCtx c fun C => { C with
        rmack := (v.setWidth 32).setWidth 64, ackVersion := v.setWidth 32
        ackBy := if v.setWidth 32 = s.dev.rmver then none else C.ackBy })
    ∧ (anySaved s c = false →
      exec (.saveAreaWrite c false v) s = .next (s.modCtx c fun C => { C with savearea := v, saveWaits := false })
      ∧ exec (.saveAreaWrite c true v) s = .next (s.modCtx c fun C => { C with savesize := v, saveWaits := false }))
    ∧ (anySaved s c = true →
      exec (.saveAreaWrite c false v) s = .next (s.modCtx c fun C => { C with saveWaits := false })
      ∧ exec (.saveAreaWrite c true v) s = .next (s.modCtx c fun C => { C with
          savesize := if C.savesize.toNat ≤ v.toNat then v else C.savesize, saveWaits := false })))
  ∧ (∀ s c (v : Double), s.dev.ideActive = true → (s.ctx c).dbgr = true →
    ((s.ctx c).state = .stopped → (s.ctx c).discarding = false →
      ∃ t, exec (.debugRightClear c v) s = .next t ∧ (t.ctx c).dbgr = false ∧ (t.ctx c).state = .stopped
        ∧ (haltedOwners s c ≠ [] → (t.ctx c).event.getLsbD 5 = true ∧ (t.ctx c).comparators = noComparators
          ∧ ∀ b B, Tab.find t.blocks b = some B → B.ctx = c → B.halted = false))
    ∧ (haltedOwners s c = [] → (s.ctx c).halted = false → v.getLsbD 1 = false → ∃ t, exec (.dbgctlHalt c v) s = .next t
      ∧ (t.ctx c).haltOwed = some ((s.ctx c).haltOwed.getD 255) ∧ (t.ctx c).dbgctl.getLsbD 0 = true ∧ (t.ctx c).halted = true
      ∧ (∀ b B, Tab.find s.blocks b = some B → B.ctx = c → B.placed = true → B.state ≠ .retired →
          (t.blk b).halted = true)
      ∧ ∀ w W, Tab.find s.warps w = some W → W.ctx = c → W.blk = none → (t.warp w).halted = true)
    ∧ (v.getLsbD 0 = false → ∃ t, exec (.dbgctlResume c v) s = .next t
      ∧ (t.ctx c).haltOwed = none ∧ (t.ctx c).dbgstat = 0 ∧ (t.ctx c).halted = false
      ∧ ∀ b B, Tab.find t.blocks b = some B → B.ctx = c → B.halted = false)
    ∧ exec (.dbgiclenWrite c v) s = .next { (s.modCtx c fun C => { C with dbgiclen := v }) with
        next := s.next + 1
        invals := s.invals ++ [⟨s.next, .code allCores c ((s.ctx c).dbgicaddr.toNat % 2 ^ 56) v.toNat, some c⟩] })
  ∧ (∀ s off size (v : Double), (0x200000 ≤ off ∨ (size ≠ 4 ∧ size ≠ 8) ∨ off % size ≠ 0) →
    exec (.registerWrite off size v) s = .next s)
  ∧ (∀ s (v : Double), s.dev.ideActive = true →
    exec (.registerWrite 0x100 8 v) s = .next (s.modDev fun D => { D with fwaddr := v })
    ∧ exec (.registerWrite 0x100 4 v) s
      = .next (s.modDev fun D => { D with fwaddr := D.fwaddr.extractLsb' 32 32 ++ v.setWidth 32 })
    ∧ exec (.registerWrite 8 8 v) s = .next s
    ∧ ∀ c, c < 256 → ((s.ctx c).state = .free ∨ (s.ctx c).state = .stopped) →
      exec (.registerWrite (0x10000 + 0x1000 * c + 8) 8 v) s = .next (s.modCtx c fun C => { C with root := v }))

/-- R397, R410, R413, R419, R486, R494, R496: a read of EVENT, TRLOST, HGLOST, MCLOST or PWRSTAT gives what the register holds and clears it, of
PWRSTAT the count of trips; a read that the window does not accept gives 0 and clears nothing; a read of the window by its offset gives a
register, half of one, or a pair of 4-byte registers, and any other gives 0. Where the value stands, `hostOut`, is the model's (log 5). -/
def Obligations.ReadsThatClear : Prop :=
  (∀ s, s.dev.ideActive = true →
    (∀ c, exec (.eventRead c) s
      = .next (({ s with hostOut := (s.ctx c).event, hostPoison := false } : State).modCtx c fun C => { C with event := 0 }))
    ∧ (∀ c, (s.ctx c).dbgr = true → exec (.trlostRead c) s
      = .next (({ s with hostOut := (s.ctx c).trlost.setWidth 64, hostPoison := false } : State).modCtx c fun C => { C with trlost := 0 }))
    ∧ (∀ c, (s.ctx c).dbgr = false → exec (.trlostRead c) s = .next { s with hostOut := 0, hostPoison := false })
    ∧ exec .hglostRead s
      = .next (({ s with hostOut := s.dev.hglost, hostPoison := false } : State).modDev fun D => { D with hglost := 0 })
    ∧ exec .mclostRead s
      = .next (({ s with hostOut := s.dev.mclost.setWidth 64, hostPoison := false } : State).modDev fun D => { D with mclost := 0 })
    ∧ exec .pwrstatRead s
      = .next (({ s with hostOut := BitVec.ofNat 64 (s.dev.temp % 256 + s.dev.trips % 256 * 256), hostPoison := false } : State).modDev
          fun D => { D with trips := 0 }))
  ∧ (∀ s, s.dev.ideActive = false → ∀ c i, i ∈ [.eventRead c, .trlostRead c, .hglostRead, .mclostRead, .pwrstatRead] →
      exec i s = .next { s with hostOut := 0, hostPoison := false })
  ∧ (∀ s off n, (0x200000 ≤ off ∨ (n ≠ 4 ∧ n ≠ 8) ∨ off % n ≠ 0) →
      exec (.hostMemAccess .registers off (.read n)) s = .next { s with hostOut := 0, hostPoison := false })
  ∧ ∀ s, s.dev.ideActive = true →
    exec (.hostMemAccess .registers 0x108 (.read 8)) s = .next { s with hostOut := s.dev.fwlen, hostPoison := false }
    ∧ exec (.hostMemAccess .registers 0x10C (.read 4)) s
      = .next { s with hostOut := BitVec.ofNat 64 (s.dev.fwlen.toNat / 2 ^ 32), hostPoison := false }
    ∧ (∀ c, c < 256 → (s.ctx c).dbgr = true →
        exec (.hostMemAccess .registers (0x10000 + 0x1000 * c + 0x128) (.read 8)) s
          = .next (({ s with hostOut := (s.ctx c).trlost ++ (s.ctx c).trmask, hostPoison := false } : State).modCtx c fun C => { C with trlost := 0 }))
    ∧ ∀ v : Double, exec (.hostMemAccess .registers 0x100 (.write (leBytes 8 v.toNat))) s
        = .next (s.modDev fun D => { D with fwaddr := v })

/-! ## Block faults, stops and dumps -/

/-- R471 to R473, R483, R490, R495: a soft error kills; a fault's work is saved and its record written at BFHEAD, which moves, with
EVENT's bit 0; BFTAIL is stored; RETRY of an owner's only record clears its faults and readies its fibres, KILL ends it, and RESTART makes
an uncommitted idempotent block anew; a spawned warp is dropped by either, and RESTART of one gives its context IDEMPOTENCE_LOST. That
the save ends an owner's stores and commands in its own step is the model's reading (log 63). -/
def Obligations.BlockFaults : Prop :=
  (∀ s o r, (faultsOf s o).find? (fun r => r.code == codeSoftError) = some r →
      exec (.blockFaultSave o) s = .next (kill s o { r with alive := false }))
  ∧ (∀ s o, (∀ r ∈ faultsOf s o, r.code ≠ codeSoftError) → faultsOf s o ≠ [] → ownerFaulted s o = true →
      (s.ctx (ownerCtx s o)).saveWaits = false → exec (.blockFaultSave o) s = .next (reportOwner (stopOwner s o).2 o))
  ∧ (∀ s o r a u v, faultsOf s o = [r] → r.code ≠ codeSoftError → r.alive = true → r.num = none → ownerSaved s o = true →
      ∀ c, c = ownerCtx s o → (s.ctx c).saveWaits = false →
      ((s.ctx c).bfhead - (s.ctx c).bftail).toNat < 64 →
      a = (s.ctx c).savearea.toNat + 64 * ((s.ctx c).bfhead.toNat % 64) → structWrite s c a r.bytes = (.ok u, v) →
      (u.ctx c).dbgr = false →
      exec (.blockFaultSave o) s
        = .next (setFaults (setEvent (u.modCtx c fun C => { C with bfhead := C.bfhead + 1 }) c 1) o
            [{ r with num := some (s.ctx c).bfhead.toNat }]))
  ∧ (∀ s c v, s.dev.ideActive = true → (∀ o ∈ ownersOf s c, ∀ r ∈ faultsOf s o, r.num.isSome = true) →
      exec (.bftailWrite c v) s = .next (s.modCtx c fun C => { C with bftail := v }))
  ∧ (∀ s c (n : Word), s.dev.ideActive = true → recordOwner s c n.toNat = none →
      exec (.bfreplyRetry c n) s
        = .next (s.modCtx c fun C => { C with bfreply := n.setWidth 64, blockedSince := none })
      ∧ exec (.bfreplyKill c n) s
        = .next (s.modCtx c fun C => { C with bfreply := n.setWidth 64 + 2 ^ 32, blockedSince := none })
      ∧ exec (.bfreplyRestart c n) s
        = .next (s.modCtx c fun C => { C with bfreply := n.setWidth 64 + 2 ^ 33, blockedSince := none }))
  ∧ (∀ s c (n : Word) w r, s.dev.ideActive = true → recordOwner s c n.toNat = some (.warp w) → (s.warp w).faults = [r] →
      r.num = some n.toNat → ∃ t, exec (.bfreplyRetry c n) s = .next t
        ∧ (t.warp w).faults = [] ∧ ∀ k, (t.warp w).fibre? k = ((s.warp w).fibre? k).map fun f =>
            if f.status = .faulted then { f with status := .ready } else f)
  ∧ (∀ s c (n : Word) b r, s.dev.ideActive = true → recordOwner s c n.toNat = some (.blk b) → (s.blk b).faults = [r] →
      r.num = some n.toNat → ∃ t, exec (.bfreplyRetry c n) s = .next t
        ∧ (t.blk b).faults = [] ∧ (∀ F, (t.blk b).fm = some F → F.stopped = false)
        ∧ ∀ w W, Tab.find s.warps w = some W → W.blk = some b →
            ∀ k, (t.warp w).fibre? k = (W.fibre? k).map fun f => if f.status = .faulted then { f with status := .ready } else f)
  ∧ (∀ s c (n : Word) b r, s.dev.ideActive = true → recordOwner s c n.toNat = some (.blk b) →
      (faultsOf s (.blk b)).find? (fun r => r.num == some n.toNat) = some r →
      ∃ t, exec (.bfreplyKill c n) s = .next t ∧ (t.blk b).state = .retired ∧ (t.blk b).killed = true)
  ∧ (∀ s c (n : Word) w r, s.dev.ideActive = true → recordOwner s c n.toNat = some (.warp w) →
      (s.warp w).faults.find? (fun r => r.num == some n.toNat) = some r →
      (∃ t, exec (.bfreplyKill c n) s = .next t ∧ ∀ e ∈ t.warps, e.1 ≠ w)
      ∧ ∃ t v, exec (.bfreplyRestart c n) s = .next t ∧ (∀ e ∈ t.warps, e.1 ≠ w)
        ∧ (t.ctx c).fault.isSome = true ∧ (t.ctx c).event = eventWith v 0x0607 2)
  ∧ ∀ s c (n : Word) b, s.dev.ideActive = true → recordOwner s c n.toNat = some (.blk b) →
      (s.launch (s.blk b).launch).lrec.idempotent = true → (s.blk b).committed = false →
      ∃ t, exec (.bfreplyRestart c n) s = .next t
        ∧ t.blk b = freshBlock (s.launch (s.blk b).launch) (s.blk b) ∧ ∀ e ∈ t.warps, e.2.blk ≠ some b

/-- R399, R407, R412, R456, R465, R484, R485, R502: halted work is saved, DBGSTAT counts it and HALT reads 0; a context whose fault is reported, or
that is told to stop, reads STOPPED once all of its work is saved; one that is discarded reads FREE with nothing left; a missed deadline
suspends; RESOURCE_MAP enters a launch's first warp; and a context blocked for 50,000,000 ticks takes DEADLOCK_SUSPECT. A dump is
begun once its work is saved, goes on by a section, ends where the next one does not fit or a second fault came, and takes its
table and header last; that each of these is an event of its own is the model's choice (log 64), as are the registers a discard
leaves 0 (log 39) and that a stop saves its work in its own step (log 63). -/
def Obligations.StopsAndDumps : Prop :=
  (∀ s c i t, (s.ctx c).haltOwed = some i → (s.ctx c).saveWaits = false →
      stopAll ((ownersOf s c).filter (ownerHalted s)) (deliverHalted s c) = (true, t) →
      ∃ u, exec (.workHalt c) s = .next u ∧ (u.ctx c).haltOwed = none ∧ (u.ctx c).dbgctl.getLsbD 0 = false
        ∧ (u.ctx c).dbgstat = BitVec.ofNat 32 ((ownersOf s c).filter (ownerHalted s)).length)
  ∧ (∀ s c code detail addr n t, (s.ctx c).fault = some (code, detail, addr, n) → (s.ctx c).saveWaits = false →
      (s.ctx c).discarding = false → (s.ctx c).dump = none → stopAll (ownersOf s c) s = (true, t) →
      ∀ xs, xs = dumpSections t c (ownersOf t c) → exec (.coreDump c) s = .next (t.modCtx c fun C => { C with
        dump := some ⟨roundUp (C.savearea.toNat + C.saveEnd) 4096, 0x80 + 32 * xs.length,
          if 65536 ≤ C.secondary.getD 0 then [] else xs, [], 0x80, decide (65536 ≤ C.secondary.getD 0)⟩ }))
  ∧ (∀ s c code detail addr n D, (s.ctx c).fault = some (code, detail, addr, n) → (s.ctx c).saveWaits = false →
      (s.ctx c).discarding = false → (s.ctx c).dump = some D →
      D.head = roundUp ((s.ctx c).savearea.toNat + (s.ctx c).saveEnd) 4096 →
      ∀ limit, limit = (s.ctx c).savearea.toNat + (s.ctx c).savesize.toNat → D.head + 0x80 ≤ limit →
      (∀ x rest off, D.todo = x :: rest → off = (if D.done = [] then roundUp D.table 4096 else roundUp D.upto 64) →
        (∀ u v, D.head + off + x.bytes.length ≤ limit → structWrite s c (D.head + off) x.bytes = (.ok u, v) →
          exec (.coreDump c) s = .next (u.modCtx c fun C => { C with dump := some { D with
            todo := rest, done := D.done ++ [(off, x)], upto := off + x.bytes.length } }))
        ∧ (limit < D.head + off + x.bytes.length → exec (.coreDump c) s
          = .next (s.modCtx c fun C => { C with dump := some { D with todo := [], truncated := true } })))
      ∧ ∀ u v, D.todo = [] → writeParts c [(D.head + 0x80, D.done.flatMap sectionEntry),
          (D.head, dumpHeader (s.ctx c) c code detail addr n D)] s = (.ok u, v) →
        exec (.coreDump c) s = .next (setEvent (u.modCtx c fun C => { C with
          dumpaddr := BitVec.ofNat 64 D.head, fault := none, secondary := none, dump := none, begun := []
          stopping := false, state := .stopped }) c 0x40))
  ∧ (∀ s c t, (s.ctx c).stopping = true → (s.ctx c).fault = none → (s.ctx c).saveWaits = false →
      stopAll (ownersOf s c) s = (true, t) →
      exec (.contextStopComplete c) s = .next (t.modCtx c fun C => { C with state := .stopped, stopping := false }))
  ∧ (∀ s c, (s.ctx c).discarding = true → ∃ t, exec (.contextDiscardComplete c) s = .next t
      ∧ (t.ctx c).state = .free ∧ (t.ctx c).discarding = false ∧ (t.ctx c).asid = 0 ∧ (t.ctx c).dbgr = false
      ∧ (t.ctx c).sysr = false ∧ (t.ctx c).queues = [] ∧ (t.ctx c).tensors = [] ∧ (t.ctx c).tiles = []
      ∧ (∀ e ∈ t.blocks, e.2.ctx ≠ c) ∧ (∀ e ∈ t.launches, e.2.ctx ≠ c) ∧ ∀ j ∈ t.joins, j.ctx ≠ c)
  ∧ (∀ s c d, (s.ctx c).ackBy = some d → (s.ctx c).state = .running → (s.ctx c).stopping = false →
      (s.ctx c).ackVersion ≠ s.dev.rmver → d < s.tick.toNat →
      ∀ u, u = s.setCtx c { (s.ctx c).setEvent (eventWith (s.ctx c).event 0x0704 0x10) with
        state := .suspended, ackBy := none } →
      exec (.resourceMapTimeout c) s = .next (stopAll (ownersOf u c) u).2)
  ∧ (∀ s l w pc v owed, (s.launch l).rmOwed = v :: owed → (s.launch l).lrec.trapVec ≠ 0 → firstWarp s l = some w →
      (s.warp w).launch = l → (s.ctx (s.warp w).ctx).dbgr = false →
      (∃ f ∈ (s.warp w).fibres, f.status = .ready ∧ f.pc = pc) →
      (∀ f ∈ (s.warp w).fibres, f.status = .ready → pc.toNat ≤ f.pc.toNat) →
      ∃ t, exec (.resourceMapDeliver l) s = .next t ∧ (t.launch l).rmOwed = owed
        ∧ Diverted s t w 0x0703 pc
            (((s.warp w).fibres.filter fun f => f.status == .ready && f.pc == pc).map (·.slot)) v)
  ∧ (∀ s c, (ctxRuns s c = false ∨ allBlocked s c = false) →
      exec (.deadlockSuspect c) s = .next (s.modCtx c fun C => { C with blockedSince := none }))
  ∧ (∀ s c, ctxRuns s c = true → allBlocked s c = true → (s.ctx c).blockedSince = none →
      exec (.deadlockSuspect c) s = .next (s.modCtx c fun C => { C with blockedSince := some s.tick.toNat }))
  ∧ (∀ s c t, ctxRuns s c = true → allBlocked s c = true → (s.ctx c).blockedSince = some t →
      t + 50000000 ≤ s.tick.toNat → (∀ e ∈ s.warps, blockIndex s e.2 < 2 ^ 32 ∧ e.2.wid < 2 ^ 32) →
      ∃ e ∈ s.warps, e.2.ctx = c ∧ e.2.fibres ≠ []
        ∧ (∀ d ∈ s.warps, d.2.ctx = c → d.2.fibres ≠ [] → waitsSince e.2 ≤ waitsSince d.2)
        ∧ exec (.deadlockSuspect c) s
          = .next (ctxFault s c e.2.core (some e.2.launch) 0x0405 0 0 (nameOf s e.2 (lowPc e.2).toNat) none))

/-! ## The Loom and issue -/

/-- R40, R118, R359, R360, R364, R376, R377, R280, R382, R383, R487: the Loom takes a notified record, which dispatches or is refused; it
serves its candidates in order; a started block is resident with a clear window and its warps stand at the entry; a quarter's slot goes to
its oldest ready warp, whose run is broken when it cannot issue; a `yield` ends; and a block on a withdrawn core moves. Candidates start in
the order of R364, at most one team or block of a compute die in eight cycles (R54). The model's choices: the events and their order
(log 1), a run break's four cycles passed in one step (logs 3, 77), when a block leaves PENDING (log 35), and
the lowest free slots for its warps (log 86). -/
def Obligations.LoomAndIssue : Prop :=
  (∀ s c bs s1 a, (s.ctx c).notified = true → (s.ctx c).state = .running → (s.ctx c).stopping = false →
      (s.ctx c).fault = none → (s.ctx c).notify = (s.ctx c).lqread + 1 → (s.ctx c).lqsize ≠ 0 →
      a = (s.ctx c).lqbase.toNat + 256 * ((s.ctx c).lqread.toNat % (s.ctx c).lqsize.toNat) →
      structRead (s.modCtx c fun C => { C with notified := false }) c a 256 = (.ok bs, s1) →
      ∀ u, u = s1.modCtx c (fun C => { C with lqread := C.lqread + 1 }) →
      (∀ g s2, checkRecord { u with next := u.next + 1 } c bs (recordOf bs) = (.ok g, s2) → (recordOf bs).ctrPtr = 0 →
        exec (.launchTake c) s = .next ((s2.setLaunch u.next
          (Launch.fresh c a (recordOf bs) g .dispatching u.next)).modCtx c fun C => { C with notified := C.lqread != C.notify }))
      ∧ (∀ o s2, checkRecord { u with next := u.next + 1 } c bs (recordOf bs) = (.error o, s2) →
        exec (.launchTake c) s = .next ((refuseLaunch (s2.setLaunch u.next
          (Launch.fresh c a (recordOf bs) [] .refused u.next)) u.next o).modCtx c fun C =>
            { C with notified := C.lqread != C.notify })))
  ∧ (∀ s c, (s.ctx c).notified = true → (s.ctx c).state = .running → (s.ctx c).stopping = false → (s.ctx c).fault = none →
      (s.ctx c).lqsize.toNat < ((s.ctx c).notify - (s.ctx c).lqread).toNat → exec (.launchTake c) s
        = .next (ctxFault (s.modCtx c fun C => { C with notified := false }) c Config.noCore.toNat none 0x0605 0
            (s.ctx c).notify.toNat (launchName 0 0) none))
  ∧ (∀ s t, t = dispatchAll s →
      (candidates t = [] → exec .loomChoice s = .next t)
      ∧ (∀ x xs u, candidates t = x :: xs → x.place t allCores = some u → exec .loomChoice s = .next u)
      ∧ ∀ x xs u, candidates t = x :: xs → x.place t allCores = none → preempt x (t.warps.length + 1) [] t = (true, u) →
        exec .loomChoice s = .next u)
  ∧ (∀ s b, (s.blk b).state = .ready → ctxRuns s (s.blk b).ctx = true → (s.ctx (s.blk b).ctx).halted = false →
      ∀ ms, ms = (teamBlocks s (s.blk b).launch (s.blk b).team).filter (fun m => (s.blk m).state == .ready) →
      (∀ m ∈ ms, (s.blk m).placed = true ∧ (s.blk m).halted = false) → loomGap s (s.blk b).core = true →
      ∀ L, L = s.launch (s.blk b).launch →
      (L.lrec.ordered = true → ∀ e ∈ s.blocks, e.2.launch = (s.blk b).launch → e.2.team ≠ (s.blk b).team →
        e.2.lin ≤ (s.blk b).lin → unstarted e.2 = false) →
      (staggerOver s (s.blk b).launch (s.blk b).core = true
        ∨ ∃ m ∈ teamBlocks s (s.blk b).launch (s.blk b).team, unstarted (s.blk m) = false) →
      ∃ t, exec (.blockStart b) s = .next t
        ∧ (∀ m ∈ ms, (t.blk m).state = .resident ∧ (t.blk m).win = [])
        ∧ (t.blk b).state = .resident ∧ (t.blk b).win = []
        ∧ ∀ w W, Tab.find s.warps w = some W → W.blk = some b → ∃ base : Nat → BitVec 11, (t.warp w).fibres
            = (List.range (fibreCount (!L.lrec.single))).map fun k => newFibre (!L.lrec.single)
                (BitVec.ofNat 56 (match (s.blk b).task with | some x => x.entry | none => L.lrec.entry)) k
                (((s.blk b).lin * (s.blk b).nwarp + W.wid) * fibreCount (!L.lrec.single) + k) (base k))
  ∧ (∀ s b e, (s.launch (s.blk b).launch).lrec.ordered = true → e ∈ s.blocks → e.2.launch = (s.blk b).launch →
      e.2.team ≠ (s.blk b).team → e.2.lin < (s.blk b).lin → unstarted e.2 = true → exec (.blockStart b) s = .next s)
  ∧ (∀ s b, loomGap s (s.blk b).core = false → exec (.blockStart b) s = .next s)
  ∧ (∀ s w, (pressed s (candidates s) = none → exec (.warpEvict w) s = .next s)
      ∧ ∀ vs v, pressed s (candidates s) = some vs → vs.find? (fun v => v.warp == w) = some v →
        exec (.warpEvict w) s = .next (evict s v).2)
  ∧ (∀ s core q w, (s.core core).slots.getD q none = some w →
      exec (.issueSlotGrant core q) s = .next { s with turn := some w })
  ∧ (∀ s core q, (s.core core).slots.getD q none = none →
      (oldestReady s core q = none → exec (.issueSlotGrant core q) s = .next s)
      ∧ ∀ w, oldestReady s core q = some w → exec (.issueSlotGrant core q) s
        = .next { (s.modCore core fun K => { K with slots := setAt K.slots q (some w) }).modWarp w fun W =>
            { W with runLen := 0, stalled := false } with turn := some w })
  ∧ (∀ s core q w, (s.core core).slots.getD q none = some w →
      (hasWork s w = true → exec (.runBreak core q) s = .next s)
      ∧ (hasWork s w = false → stalledFibres (s.warp w) ≠ [] → ∃ t, exec (.runBreak core q) s = .next t ∧ t.turn ≠ some w
          ∧ (t.warp w).stalled = true ∧ t.tick = s.tick + BitVec.ofNat 64 (cycleTicks s core 4)
          ∧ ∀ k, some w ∉ (t.core k).slots)
      ∧ (hasWork s w = false → stalledFibres (s.warp w) = [] → ∃ t, exec (.runBreak core q) s = .next t ∧ t.turn ≠ some w ∧ t.tick = s.tick
          ∧ ∀ k, some w ∉ (t.core k).slots))
  ∧ (∀ s core q w, Tab.rising none s.warps = true → oldestReady s core q = some w → ∀ W, W = s.warp w → W.core = core ∧ W.quarter = q
      ∧ ∀ v V, (v, V) ∈ s.warps → V.core = core → V.quarter = q → V.residence = .resident → s.warp v = V →
        warpReady s v = true → V.wslot < 64 → W.wslot < 64 → V.age.getD (s.clock core) < 2 ^ 64 →
        W.age.getD (s.clock core) < 2 ^ 64 → inGuarantee s V.ctx .issue (quarterUnit core q) = inGuarantee s W.ctx .issue (quarterUnit core q) →
        W.age.getD (s.clock core) < V.age.getD (s.clock core)
          ∨ (W.age.getD (s.clock core) = V.age.getD (s.clock core) ∧ W.wslot ≤ V.wslot))
  ∧ (∀ s w, (yieldOver s w = true → exec (.yieldExpire w) s = .next (s.modWarp w fun W => { W with yield := none }))
      ∧ (yieldOver s w = false → exec (.yieldExpire w) s = .next s))
  ∧ (∀ s core idx f, (s.core core).forwards[idx]? = some f →
      (namesWindow s f.blk = true → exec (.forwardEntryFree core idx) s = .next s)
      ∧ (namesWindow s f.blk = false → exec (.forwardEntryFree core idx) s
        = .next (s.modCore core fun K => { K with forwards := K.forwards.eraseIdx idx })))
  ∧ (∀ s b, (s.blk b).placed = false ∨ coreLive s (s.blk b).core = true → (s.blk b).state ≠ .migrating →
      exec (.migration b) s = .next s)
  ∧ (∀ s b bs u, (s.blk b).placed = true → (s.blk b).state = .resident ∨ (s.blk b).state = .part →
      coreLive s (s.blk b).core = false → bs = membersIn s (s.blk b) .resident ++ membersIn s (s.blk b) .part →
      (∀ m ∈ bs, (s.core (s.blk m).core).forwards.length < 16 ∧ (s.blk m).halted = false ∧ ownerFaulted s (.blk m) = false) →
      u = bs.foldl endBlockWork s → (∀ m ∈ bs, blockQuiet u m = true ∧ ownerFaulted u (.blk m) = false) →
      ∃ t, exec (.migration b) s = .next t ∧ t.mem = u.mem ∧ ∀ m ∈ bs, (t.blk m).state = .migrating
        ∧ ∀ w W, Tab.find t.warps w = some W → W.blk = some m → warpRuns t w = false)
  ∧ ∀ s b bs, (s.blk b).placed = true → (s.blk b).state = .migrating → bs = membersIn s (s.blk b) .migrating →
      (∀ p ps u, newCores s (s.blk b) bs = some (p :: ps) → u = (p :: ps).foldl (fun t p => moveBlock t p.1 p.2.1 p.2.2) s →
        (∀ q ∈ p :: ps, ∀ w ∈ warpsOf s q.1, (Tab.find u.warps w).isNone = true ∨ replayed u w = true) →
        exec (.migration b) s
          = .next ((membersIn u (s.blk b) .saved).foldl (fun t m => t.modBlk m fun X => { X with core := p.2.1 }) u))
      ∧ (newCores s (s.blk b) bs = none → exec (.migration b) s = .next (stopAll (bs.map .blk) (bs.foldl aground s)).2)

/-- R40, R43, R47, R48, R52, R53, R266, R371, R375, R384, R387, R417, R493: a drained launch is DONE with its record, tag and successor counter
in that order; a counter goes down, and one that is 0 already is a TASK fault; the next ticket becomes the head; a pending task is
enqueued; a join word loses one child and counts a fault; a warp whose fibres have ended is gone; gathered children issue; a spilled one
returns; and an `mwait` expires. The model's choices: STATUS bit 0x20 from the trace records lost (log 72), a join update that has the
warp's stores performed in its step (log 67), and the state codes of a trace record (log 25). -/
def Obligations.CompletionsAndSpawnEvents : Prop :=
  (∀ s l vs s1, (s.launch l).state = .completing → launchDrained s l = true → ∀ c, c = (s.launch l).ctx →
      (s.ctx c).discarding = false →
      latchCounters s c 64 0 = (vs, s1) → ∀ lost : Word, lost = (if (s1.ctx c).trlost = 0 then 0 else 0x20) →
      ∀ u1, u1 = writeLaunch (s1.modLaunch l fun L => { L with
        state := .done, tickDone := s1.tick, doneCounts := vs, status := L.status ||| 1 ||| lost, hall := [], teams := [] })
        l doneParts →
      ∀ u2, u2 = (if (s.launch l).lrec.outValid then tagDone u1 c l (s.launch l).lrec.outTensor (s.launch l).lrec.outGen
        (launchName (s.launch l).lrec.entry (s.launch l).addr) else u1) →
      ∀ u3, u3 = clearRing (endSerial (decrementCounter u2 c (s.launch l).lrec.succ) c) l →
      exec (.launchComplete l) s = .next (trace { u3 with blocks := u3.blocks.filter fun e => e.2.launch != l } c
        Config.noCore.toNat 0 (launchName (s.launch l).lrec.entry (s.launch l).addr)
        (leBytes 2 (Config.launchStateCode true).toNat)))
  ∧ (∀ s l, ((s.launch l).state ≠ .completing ∨ launchDrained s l = false ∨ (s.ctx (s.launch l).ctx).discarding = true) → exec (.launchComplete l) s = .next s)
  ∧ (∀ s b t u, (s.blk b).task = some t → (s.blk b).state = .retired →
      (∀ e ∈ s.cores, ∀ x ∈ e.2.tracker, x.blk ≠ some b) → blocksQuiet s (fun q _ => q == b) = true →
      u = decrementCounter (decrementCounter s (s.blk b).ctx t.succ1) (s.blk b).ctx t.succ2 →
      exec (.taskComplete b) s = .next { u with blocks := Tab.drop u.blocks b })
  ∧ (∀ s c a bs s1, a ≠ 0 → structRead s c a 8 = (.ok bs, s1) →
      (leNat bs = 0 → decrementCounter s c a = taskFault s1 c 2 a)
      ∧ ∀ u v, 2 ≤ leNat bs → structWrite s1 c a (leBytes 8 (leNat bs - 1)) = (.ok u, v) → decrementCounter s c a = u)
  ∧ (∀ s l, (s.launch l).lrec.ordered = true → ticketQuiet s l (s.launch l).cur = true →
      stageStays s l ((s.launch l).cur + 1) = false →
      exec (.bakeryAdvance l) s = .next (applyStages (standAgain (s.modLaunch l fun L => { L with
        cur := L.cur + 1, retiredTickets := L.retiredTickets.filter (· != L.cur) }) l ((s.launch l).cur + 1)) l
          ((s.launch l).cur + 1)))
  ∧ (∀ s c a rest s1, ctxRuns s c = true → (s.ctx c).pendEnq = a :: rest → enqueueObject s c a.1 (some a.2) = (.done, s1) →
      exec (.pendingEnqueueDrain c) s = .next (s1.modCtx c fun C => { C with pendEnq := C.pendEnq.erase a }))
  ∧ (∀ s c, (ctxRuns s c = false ∨ (s.ctx c).pendEnq = []) → exec (.pendingEnqueueDrain c) s = .next s)
  ∧ (∀ s idx j u, s.joins[idx]? = some j → u = (if (Tab.find s.warps j.warp).isSome then drainAll s j.warp else landHome s j.core) →
      joinWaits u j = false →
      (j.addr = 0 → exec (.joinEndUpdate idx) s = .next (childDone u idx j.launch))
      ∧ ∀ p t t2 t3 v, j.addr ≠ 0 → locate u (joinWarp u j) 0 .glob j.addr.toNat 0 8 .rmw true = (.ok p, t) →
        linkCheck t p 8 .rmw = (none, t2) → linkDown t2 p = false → budgetHeld t2 j.ctx p true = false →
        poisoned t2 p 8 = false → t3 = landLines t2 (joinWarp u j).core (placeLines p 8) →
        v = leNat (freshBytes t3 p (p.data 8 0) 8) → v % 2 ^ 32 ≠ 0 → v < 2 ^ 48 →
        exec (.joinEndUpdate idx) s = .next (childDone (chargeBytes (writePlace t3 (joinWarp u j).core p
          (wholeBytes (p.data 8 0) (leBytes 8 (if j.faulted ∧ v / 2 ^ 32 < 65535 then v - 1 + 2 ^ 32 else v - 1))))
          j.ctx p 8 true) idx j.launch))
  ∧ (∀ s w W u, Tab.find s.warps w = some W → W.residence = .draining → W.fibres = [] → W.faults = [] →
      u = landHome s W.core →
      ((tracksOf u w = [] ∧ (∀ j ∈ u.joins, j.warp ≠ w) ∧ onWay u (·.warp == w) = false) ∨ (W.tailed = true
        ∧ (u.core W.core).tracker.length + (tracksOf u w).length ≤ 256)) →
      ∃ t, exec (.warpEnd w) s = .next t ∧ (∀ e ∈ t.warps, e.1 ≠ w))
  ∧ (∀ s core l, (gathered s core true (fun c => c.launch == l) = none → exec (.spawnTimeout core l) s = .next s)
      ∧ ∀ cs, gathered s core true (fun c => c.launch == l) = some cs →
        (∀ t, issueSpawned s core core cs = some t → exec (.spawnTimeout core l) s = .next t)
        ∧ (issueSpawned s core core cs = none → exec (.spawnTimeout core l) s = .next s))
  ∧ (∀ s core l c rest, (s.core core).shuttle.length < shuttleSize →
      takeSpilled (dieOf core) (s.launch l).ring = some (c, rest) →
      ∀ u, u = (s.modLaunch l fun L => { L with ring := rest }).modCore core (fun K =>
        { K with shuttle := K.shuttle ++ [{ c with core := core }] }) →
      exec (.spillReturn core l) s
        = .next (issueFull fullWarps core (u.modCtx c.ctx fun C => { C with blockedSince := none })))
  ∧ ∀ s w f x k, f ∈ (s.warp w).fibres → f.status = .waiting x → x.why = .monitor k → k ≤ s.clock (s.warp w).core →
      exec (.mwaitLimitExpire w) s = .next (s.modWarp w fun W => { W with
        monitor := W.monitor.map fun m => { m with expired := true } })

/-! ## Errors, links and accesses from outside -/

/-- R141, R142, R396, R403, R495 to R497, R499: a corrected error is counted and logged, and 256 of a core within its span withdraw it; an
uncorrectable one in registers, a window or accumulators kills its block, and one in a line that nothing else holds poisons it; a failed
integrity check stops every context and the link; a failed flit withdraws its port, a failed lane narrows its link; host and peer
accesses read and write memory, and a snoop shares or takes a line. The model's choices: what a host read gives is in `hostOut` (log 5),
EVENT.CODE 0x0706 without a bit of its own (log 41), the home L2
as a cached line's unit (log 44), and whose tables an inbound access uses (log 92). -/
def Obligations.ErrorsLinksAndBus : Prop :=
  (∀ s (u : ErrUnit), u.core = none → exec (.correctedError u) s = .next (logRecord (s.modDev fun D => { D with
        errors := Tab.put D.errors (errorKey u.kind u.number) (Tab.read 0 D.errors (errorKey u.kind u.number) + 1) })
        ⟨0, 0, u.kind, u.number, u.addr, 0⟩))
  ∧ (∀ s (u : ErrUnit) c, u.core = some c →
      ∀ n, n = ((s.core c).corrected.filter fun t => decide (s.tick.toNat < t + 2 ^ 30)).length →
      ∃ t, exec (.correctedError u) s = .next t
        ∧ Tab.read 0 t.dev.errors (errorKey u.kind u.number) = Tab.read 0 s.dev.errors (errorKey u.kind u.number) + 1
        ∧ (n < 255 → t.dev.rmver = s.dev.rmver)
        ∧ (255 ≤ n → (s.core c).withdrawn = false → t.dev.rmver = s.dev.rmver + 1 ∧ (t.core c).withdrawn = true
            ∧ t.survey.liveCores.getLsbD c = false))
  ∧ (∀ s b p, (p = .window b ∨ p = .accumulator b ∨ ∃ w, p = .registers w ∧ (s.warp w).blk = some b) →
      (s.blk b).placed = true → (s.blk b).state ≠ .retired →
      ∃ t, exec (.uncorrectableError p) s = .next t ∧ (t.blk b).state = .retired ∧ (t.blk b).killed = true)
  ∧ (∀ s line p kind number, (p = .dirtyLine line ∧ kind = unitL2 ∧ number = homeDie (64 * line)
        ∨ p = .nearPinned line ∧ kind = unitNear ∧ number = homeDie (64 * line)
        ∨ (p = .farLine line ∨ ∃ k, p = .farLink line k ∧ 8 < k) ∧ kind = unitFar ∧ number = 64 * line / 256 % 48) →
      exec (.uncorrectableError p) s = .next (logRecord { s with poison := insertNat s.poison line }
        ⟨0x0701, 1, kind, number, 64 * line, 0⟩))
  ∧ (∀ p s, ∃ t, exec (.uncorrectableError p) s = .next t)
  ∧ (∀ s, s.dev.ideActive = true → ∃ t, exec .ideIntegrityFail s = .next t ∧ t.dev.ideActive = false
      ∧ ∀ c C, Tab.find s.ctxs c = some C → C.state ≠ .free → (t.ctx c).event = eventWith C.event 0x0706 0
        ∧ ((t.ctx c).state = .stopped ∨ (t.ctx c).stopping = true))
  ∧ (∀ s, islandOn s 26 = true → islandOn s 30 = true →
      exec .ideEstablished s = .next (drainKept (s.modDev fun D => { D with ideActive := true })))
  ∧ (∀ s port, s.survey.peerPorts.getLsbD port = true → ∃ t, exec (.peerFlitAuthFail port) s = .next t
      ∧ t.dev.rmver = s.dev.rmver + 1 ∧ t.survey.peerPorts.getLsbD port = false)
  ∧ (∀ s m n, ∃ t, exec (.linkLaneFail (.ucie m n)) s = .next t ∧ t.dev.rmver = s.dev.rmver + 1
      ∧ t.survey.ucieLanes = setAt s.survey.ucieLanes m n ∧ (n = 0 → t.survey.ucie.getLsbD m = false))
  ∧ (∀ s m n, ∃ t, exec (.linkLaneFail (.peerPort m n)) s = .next t ∧ t.dev.rmver = s.dev.rmver + 1
      ∧ t.survey.peerLanes = setAt s.survey.peerLanes m n ∧ (n = 0 → t.survey.peerPorts.getLsbD m = false))
  ∧ (∀ s win off n x a, s.dev.memwin[win]? = some x → s.dev.ideActive = true → off + n ≤ x.size.toNat →
      a = x.base.toNat + off → physOk s a n = true → isFar a = false →
      (onPoison s a n = false → exec (.hostMemAccess (.window win) off (.read n)) s
        = .next { s with hostOut := BitVec.ofNat 64 (leNat (readPhys s none a n)), hostPoison := false })
      ∧ (onPoison s a n = true → ∃ t, exec (.hostMemAccess (.window win) off (.read n)) s = .next t ∧ t.hostPoison = true)
      ∧ ∀ bs : List Byte, bs.length = n →
        exec (.hostMemAccess (.window win) off (.write bs)) s = .next (writePhys s none none (wholeBytes a bs)))
  ∧ (∀ s win off n x a k, s.dev.memwin[win]? = some x → s.dev.ideActive = true → off + n ≤ x.size.toNat →
      a = x.base.toNat + off → physOk s a n = true → isFar a = true → Tab.find s.keys x.key.toNat = some k →
      (onPoison s a n = false → exec (.hostMemAccess (.window win) off (.read n)) s
        = .next { s with hostOut := BitVec.ofNat 64 (leNat (readPhys s (some k) a n)), hostPoison := false })
      ∧ ∀ bs : List Byte, bs.length = n →
        exec (.hostMemAccess (.window win) off (.write bs)) s = .next (writePhys s none (some k) (wholeBytes a bs)))
  ∧ (∀ s win off acc x, s.dev.memwin[win]? = some x → (s.dev.ideActive = false ∨ x.size.toNat < off + busSize acc) →
      exec (.hostMemAccess (.window win) off acc) s = .next s)
  ∧ (∀ s off n a, a = hostBase + off → isHost a = true → isHost (a + n - 1) = true →
      (onPoison s a n = false → exec (.hostMemAccess .own off (.read n)) s
        = .next { s with hostOut := BitVec.ofNat 64 (leNat (readPhys s none a n)), hostPoison := false })
      ∧ ∀ bs : List Byte, bs.length = n → exec (.hostMemAccess .own off (.write bs)) s
        = .next { writePhys s none none (wholeBytes a bs) with
            hostLines := s.hostLines.filter fun e => !overlaps (64 * e.1) 64 a n })
  ∧ (∀ s port off v, exec (.hostMemAccess (.inbound port) off (.write [v])) s
      = .next (s.modDev fun D => { D with inboundAsid := setAt D.inboundAsid port v.toNat }))
  ∧ (∀ s port addr n, s.survey.peerPorts.getLsbD port = true → n ∈ [1, 2, 4, 8, 16] → addr % n = 0 →
      (inboundCtx s port = none →
        exec (.peerInboundAccess port addr (.read n)) s = .next { s with hostOut := 0x030A, hostPoison := false })
      ∧ ∀ c l e s1, inboundCtx s port = some c → translate s (.die 0) c addr = (.ok (l, e), s1) →
        leafCheck .glob addr n .read false e = none → ∀ p, p = leafPlace l e (addr % 2 ^ 56) false →
        p.keyMissing s1 = false → linkDown s1 p = false →
        (poisoned s1 p n = false → exec (.peerInboundAccess port addr (.read n)) s = .next { holdHost s1 1 (p.data n 0) with
          hostOut := BitVec.ofNat 64 ((elemFrom (readPhys s1 (p.keyOf s1)) p n).copies.headD 0), hostPoison := false })
        ∧ ∀ bs : List Byte, bs.length = n → leafCheck .glob addr n .write false e = none →
          exec (.peerInboundAccess port addr (.write bs)) s
            = .next (writePhys s1 none (p.keyOf s1) (storeWrites p n none [leNat bs]).1))
  ∧ ∀ s addr, s.dev.ideActive = true → (Tab.find s.hostLines (addr / 64)).isSome = true →
      exec (.hostSnoop addr .data) s = .next { s with hostLines := Tab.put s.hostLines (addr / 64) 1 }
      ∧ exec (.hostSnoop addr .invalidate) s = .next { s with hostLines := Tab.drop s.hostLines (addr / 64) }

/-! ## Power, the Survey and time -/

/-- R15, R16, R20, R354, R378, R406, R407, R418, R494, R497, R499: islands come up in their order, CORE after verified firmware, and go down in
the reverse; a grant sets clocks; trips and throttling; a degradation raises RMVER by what it found and tells every context; a self-test that
fails fences its sub-array; and a budget period and a latch fall at their ticks. The model's choices: the ticks of time (log 3), the
order of power's events and what a failed supply leaves (log 14), and when the Survey's image is written (log 98). -/
def Obligations.PowerAndSurvey : Prop :=
  (∀ s g, powerGroups.find? (fun g => !(g.all (islandOn s))) = some g →
      (g = [27, 31] → ∃ t, exec .powerUp s = .next t ∧ t.islands = (setPower s [27, 31] true).islands
        ∧ t.dev.pufFailed = !(Config.pufGood s.free) ∧ (t.dev.pufFailed = true → t.dev.fwstat = 3))
      ∧ (g ≠ [27, 31] → s.dev.temp < 115 → (g ≠ coreIslands ∨ s.dev.fwstat = 1) →
        ∀ u, u = (setPower s g true).modDev (fun D => { D with mainPower := true }) →
        exec .powerUp s = .next (if g = nearIslands then putPhys u s.dev.surveyAddr.toNat (surveyImage u) else u))
      ∧ (g = coreIslands → s.dev.fwstat ≠ 1 → exec .powerUp s = .next s)
      ∧ (g ≠ [27, 31] → 115 ≤ s.dev.temp → exec .powerUp s = .next s))
  ∧ (∀ s, (∀ g ∈ powerGroups, g.all (islandOn s) = true) → exec .powerUp s = .next s)
  ∧ (∀ s, (∃ i ∈ coreIslands, islandOn s i = true) → exec .powerDown s
      = .next ((endWork (setPower s coreIslands false)).modDev fun D => { D with fwstat := 0 }))
  ∧ (∀ s g, powerGroups.reverse.find? (fun g => g.any (islandOn s)) = some g → g ≠ coreIslands → g ≠ [27, 31] →
      ∃ t, exec .powerDown s = .next t ∧ t.islands = (setPower s g false).islands ∧ t.mem = s.mem ∧ t.warps = s.warps
        ∧ (26 ∈ g → t.dev.ideActive = false))
  ∧ (∀ s d gs u v, u = passSpan (s.modDev fun D => { D with demand := (List.range 32).map fun i => d.getD i (D.demand.getD i 800) })
        (1000 - s.tick.toNat % 1000) → settleCores (List.range 8) (grants u) u = (gs, v) →
      ∃ t, exec (.bellowsGrant d) s = .next t ∧ t.dev.tripGrants = v.dev.tripGrants - 1
        ∧ ∀ i, islandClock t i = if i < v.islands.length then gs.getD i (islandClock v i) else 0)
  ∧ (∀ s die temp, die < 8 → 100 ≤ temp → temp < 115 → ∃ t, exec (.junctionThrottle die temp) s = .next t
      ∧ (t.die die).throttled = true ∧ t.dev.temp = max (min 255 temp) s.dev.temp)
  ∧ (∀ s die temp, die < 8 → 115 ≤ temp → s.islands.length = 32 → ∃ t, exec (.junctionThrottle die temp) s = .next t
      ∧ (∀ i, i ≠ 27 → i ≠ 31 → islandOn t i = false) ∧ t.dev.ideActive = false ∧ t.warps = []
      ∧ t.dev.temp = max (min 255 temp) s.dev.temp)
  ∧ (∀ s die temp, temp < 100 → exec (.junctionThrottle die temp) s = .next s)
  ∧ (∀ s die, (s.die die).throttled = true → ∃ t, exec (.throttleRelease die) s = .next t
      ∧ (t.die die).throttled = false ∧ ∀ d, d ≠ die → t.die d = s.die d)
  ∧ (∀ s, s.islands.length = 32 → ∃ t, exec .currentTrip s = .next t
      ∧ (∀ i, i < 24 → i % 3 = 0 → islandClock t i = 800) ∧ t.dev.trips = min 255 (s.dev.trips + 1))
  ∧ (∀ s, s.islands.length = 32 → ∃ t, exec .thermalTrip s = .next t
      ∧ (∀ i, i ≠ 27 → i ≠ 31 → islandOn t i = false) ∧ (islandOn t 27 = islandOn s 27) ∧ (islandOn t 31 = islandOn s 31)
      ∧ t.dev.ideActive = false ∧ t.warps = [] ∧ t.blocks = [] ∧ t.launches = [] ∧ ∀ e ∈ t.ctxs, e.2.state = .free)
  ∧ (∀ s ls, ls ≠ [] → ∃ t, exec (.surveyDegradation ls) s = .next t
      ∧ t.dev.rmver = s.dev.rmver + BitVec.ofNat 32 ls.length ∧ t.survey.tick = s.tick
      ∧ ∀ c, c < 256 → (t.ctx c).event.getLsbD 3 = true
        ∧ ((s.ctx c).state = .running → (t.ctx c).ackBy = some (s.tick.toNat + 10000000)))
  ∧ (∀ s core, ∀ K, K = s.core core → 65536 ≤ K.arrayCycles → K.nextSub < 4 → ∀ q, q = testTurn K →
      (∃ t, exec (.selfTest core true) s = .next t ∧ (t.core core).arrayCycles = 0 ∧ t.dev.rmver = s.dev.rmver)
      ∧ ∃ t, exec (.selfTest core false) s = .next t ∧ (t.core core).fenced.getLsbD q = true
        ∧ t.dev.rmver = s.dev.rmver + (if s.survey.fenced.extractLsb' (4 * core) 4 ≠ 0 ∧ s.survey.liveCores.getLsbD core = true then 2 else 1))
  ∧ (∀ s, ∃ t, exec .budgetPeriod s = .next t
      ∧ t.tick = s.tick + BitVec.ofNat 64 (10000 - s.tick.toNat % 10000)
      ∧ ∀ e ∈ t.ctxs, ∀ r u, e.2.used r u = 0)
  ∧ (∀ s, s.dev.hgOn = true → ∃ t, exec .hourglassLatch s = .next t
      ∧ t.tick = s.tick + BitVec.ofNat 64 (2 ^ s.dev.hgK - s.tick.toNat % 2 ^ s.dev.hgK))
  ∧ ∀ s, s.dev.hgOn = false → exec .hourglassLatch s = .next s

/-! ## The machine as a whole -/

/-- R27, R135, R175, R188, R191, R328: a step fetches the word at the warp's PC, and runs what it decodes to; behind an LX word it fetches and
decodes the pair; a latched Foreman word and an event of the schedule are run; the account of the instruction follows it. -/
def Obligations.StepRuns : Prop :=
  (∀ s w ks pc v s1 i, s.cur = none → s.fcur = none → s.agenda = [] → s.turn = some w → warpRuns s w = true →
      nextGroup s w = some ⟨ks, pc, none, true⟩ → matching (s.ctx (s.warp w).ctx) 1 (blockIndex s (s.warp w)) pc.toNat = none →
      fetchCode s (s.warp w).core (s.warp w).ctx pc.toNat 4 = (.ok v, s1) → decode none (BitVec.ofNat 32 v) = .ok i →
      ∀ t, t = beginIssue s1 ⟨w, ks, pc, none, BitVec.ofNat 32 v⟩ →
      t.cur = some ⟨w, ks, pc, none, BitVec.ofNat 32 v⟩
      ∧ ∀ u, exec i t = .next u → step s = .next (afterIssue t i u))
  ∧ (∀ s c lx v s1 i, s.cur = some c → c.lx = some lx →
      codeHeld s (s.warp c.warp).core (s.warp c.warp).ctx (c.pc + 4).toNat 4 = false →
      fetchCode s (s.warp c.warp).core (s.warp c.warp).ctx (c.pc + 4).toNat 4 = (.ok v, s1) →
      decode (some lx) (BitVec.ofNat 32 v) = .ok i →
      ∀ t, t = beginIssue s1 { c with lx := some lx, word := BitVec.ofNat 32 v } →
      ∀ u, exec i t = .next u → step s = .next (afterIssue t i u))
  ∧ (∀ s x, s.cur = none → s.fcur = some x → step s = exec x.2 s)
  ∧ (∀ s dt ev rest, s.cur = none → s.fcur = none → s.agenda = ⟨0, dt, ev⟩ :: rest →
      step s = exec ev (passTime (ageWarps { s with agenda := rest }) dt))
  ∧ (∀ s i t, s.cur = none → s.fcur = none → s.agenda = [] → s.turn = none → t = passTime (ageWarps s) 1 →
      pickEvent t = some i → step s = exec i t)
  ∧ ∀ t neg p r sib imm u, afterIssue t (.lxWord neg p r sib imm) u = u

/-- R172 to R187, R337 (Tables 7-1, 7-3, 7-10, 7-12, 12-6): words written out from the tables decode to what they stand for. -/
def Obligations.DecodeWords : Prop :=
  -- iadd v1, v2, v3: set 0, B 0, opcode 0x00, d 1, a 2, b 3, fn 0
  decode none 0b00000000000001000010000011000000#32 = .ok (.iadd Lx.none 0 0 false 1 2 3)
  -- fadd.f32 v4, v5, v6: opcode 0x15, with B
  ∧ decode none 0b01010101000100000101000110000000#32 = .ok (.fadd { Lx.none with eor := true } .f32 4 5 6)
  -- ld.b32 v8, [g: v10:v11 + 4]: opcode 0x32, segment 0 and size code 2 in b, offset 4 in fn
  ∧ decode none 0b00110010001000001010000010000100#32 = .ok (.ld Lx.none .b32 .glob 4 8 10)
  -- bra pt, -1 word: opcode 0x3B, predicate 7, offset of 20 ones
  ∧ decode none 0b00111011111011111111111111111111#32 = .ok (.bra Lx.none false 7 (-1))
  -- sadd.u32 s1, s2, s3: set 1, opcode 0x00
  ∧ decode none 0b10000000000001000010000011000000#32 = .ok (.sadd false false 1 2 3)
  -- bwait b5, s7: set 1, opcode 0x16
  ∧ decode none 0b10010110000101000111000000000000#32 = .ok (.bwait false 5 7)
  -- [p2] imul v1, v2, v3: an LX word with predicate 2, then opcode 0x04
  ∧ decode (some 0b00111111001000000000000000000000#32) 0b00000100000001000010000011000000#32
      = .ok (.imul { Lx.none with present := true, pred := 2 } false 1 2 3)
  -- mma t2, one plane, l3, l4: opcode 0x04, S 2, PM 0, A 3, B 4
  ∧ decodeForeman (0x04#8 ++ 2#4 ++ 0#2 ++ 3#3 ++ 4#3 ++ 0#44) = .ok (.mma 2 .one 3 4)
  ∧ decodeForeman 0x1000000000000000#64 = .ok .mend

/-- R172 to R190, R337: every well-formed instruction is read back from its own words, with every operand at every value. -/
def Obligations.EncodeDecode : Prop := ∀ i, Laws.Encoding.Statement i

/-- R17, R396, R399, R410 (Tables 1-3, 15-3, 16-3): the limit is 4,200 and not locked, IDE is inactive, every context is FREE with its comparators
off; nothing runs, and memory has its canonical form. -/
def Obligations.ResetState : Prop :=
  State.reset.dev.pwrLimit = 4200 ∧ State.reset.dev.pwrLock = false ∧ State.reset.dev.ideActive = false
  ∧ (∀ c, (State.reset.ctx c).state = .free ∧ (State.reset.ctx c).dbgr = false ∧ (State.reset.ctx c).sysr = false
      ∧ ∀ k ∈ (State.reset.ctx c).comparators, k.kind = 0)
  ∧ State.reset.keys = [] ∧ State.reset.warps = [] ∧ State.reset.blocks = [] ∧ State.reset.launches = []
  ∧ Memory.wf State.reset.mem = true

/-- R4, R21, R116, R124, R138, R139, R182, R284: memory keeps its canonical form under every write; bytes written are read back, under a key too;
a register written is read back and no other changes; a pair is its two registers; `pt` and `ct` read as 1 and discard what is written. -/
def Obligations.MemoryAndRegisters : Prop :=
  (∀ s core key ws, Memory.wf s.mem = true → Memory.wf (writePhys s core key ws).mem = true)
  ∧ (∀ s c va bs u v, Memory.wf s.mem = true → structWrite s c va bs = (.ok u, v) → Memory.wf u.mem = true)
  ∧ (∀ s core a bs, Memory.wf s.mem = true →
      readPhys (writePhys s core none (wholeBytes a bs)) none a bs.length = bs)
  ∧ (∀ s core k a bs, Memory.wf s.mem = true → a + bs.length ≤ farEnd →
      readPhys (writePhys s core (some k) (wholeBytes a bs)) (some k) a bs.length = bs)
  ∧ (∀ (l : Lane) r v, Tab.rising none l.regs = true → (l.setReg r v).reg r = v % 2 ^ 32
      ∧ (∀ q, q ≠ r → (l.setReg r v).reg q = l.reg q) ∧ (l.setReg r v).preds = l.preds
      ∧ Tab.rising none (l.setReg r v).regs = true)
  ∧ (∀ (l : Lane) r v, Tab.rising none l.regs = true → (l.setPair r v).pair r = v % 2 ^ 64
      ∧ ∀ q, q ≠ r → q ≠ r + 1 → (l.setPair r v).reg q = l.reg q)
  ∧ (∀ (l : Lane) p b, (l.setPred p b).regs = l.regs ∧ l.pred 7 = true ∧ l.setPred 7 b = l
      ∧ (p ≠ 7 → (l.setPred p b).pred p = b) ∧ ∀ q, q ≠ p → (l.setPred p b).pred q = l.pred q)
  ∧ (∀ (W : Warp) r v, Tab.rising none W.sregs = true → (W.setSreg r v).sreg r = v % 2 ^ 32
      ∧ ∀ q, q ≠ r → (W.setSreg r v).sreg q = W.sreg q)
  ∧ ∀ (W : Warp) c b, W.cpred 7 = true ∧ W.setCpred 7 b = W ∧ (c ≠ 7 → (W.setCpred c b).cpred c = b)
      ∧ ∀ q, q ≠ c → (W.setCpred c b).cpred q = W.cpred q

/-- R27, R188, R189, R328: no meaning stops the machine: a lane or uniform instruction goes on whenever an instruction of a warp is in
execution, a Foreman word whenever one of them is, and an event whatever is. -/
def Obligations.MeaningsGoOn : Prop :=
  (∀ i s, isEvent i = false → isForeman i = false → s.cur.isSome = true → ∃ t, exec i s = .next t)
  ∧ (∀ i s, isForeman i = true → s.fcur.isSome = true → ∃ t, exec i s = .next t)
  ∧ ∀ i s, isEvent i = true → ∃ t, exec i s = .next t
end

