-- ==== Sys2Proof/Laws/Tables.lean ====
section
/-! SUPPORT. Laws of finite tables: reading after writing, and the canonical form, which every write keeps. -/
namespace Sys2Proof.Machine
-- One theorem after another: theorems elaborated side by side take a thread and its stack each, past the memory a check allows.
set_option Elab.async false

variable {α : Type}

/-! ### Reading after an insertion -/

@[simp] theorem Tab.find_put_same (t : Tab α) (k : Nat) (v : α) : Tab.find (Tab.put t k v) k = some v := by
  induction t with
  | nil => simp [Tab.put, Tab.find]
  | cons e t ih =>
    obtain ⟨j, u⟩ := e
    by_cases h : j = k
    · simp [Tab.put, Tab.find, h]
    · by_cases g : k < j <;> simp [Tab.put, Tab.find, h, g, ih]

theorem Tab.find_put_ne (t : Tab α) {j k : Nat} (v : α) (h : j ≠ k) :
    Tab.find (Tab.put t k v) j = Tab.find t j := by
  induction t with
  | nil =>
    simp only [Tab.put, Tab.find, if_neg (Ne.symm h)]
    split <;> rfl
  | cons e t ih =>
    obtain ⟨i, u⟩ := e
    by_cases hi : i = k
    · subst hi; simp [Tab.put, Tab.find, Ne.symm h]
    · by_cases g : k < i
      · simp only [Tab.put, if_neg hi, if_pos g]
        conv => lhs; unfold Tab.find
        simp only [if_neg (Ne.symm h)]
        split
        · rename_i hj
          simp only [Tab.find]
          rw [if_neg (by omega), if_pos (by omega)]
        · rfl
      · simp only [Tab.put, if_neg hi, if_neg g, Tab.find, ih]

theorem Tab.find_put (t : Tab α) (j k : Nat) (v : α) :
    Tab.find (Tab.put t k v) j = if j = k then some v else Tab.find t j := by
  split
  · rename_i h; subst h; simp
  · rename_i h; exact Tab.find_put_ne t v h

/-! ### Rising keys -/

theorem Tab.rising_none (t : Tab α) (b : Nat) (h : Tab.rising (some b) t = true) : Tab.rising none t = true := by
  cases t with
  | nil => rfl
  | cons e t => obtain ⟨k, v⟩ := e; simp only [Tab.rising, Bool.and_eq_true] at h ⊢; exact h.2

theorem Tab.rising_le (t : Tab α) {b c : Nat} (h : Tab.rising (some b) t = true) (hc : c ≤ b) :
    Tab.rising (some c) t = true := by
  cases t with
  | nil => rfl
  | cons e t =>
    obtain ⟨k, v⟩ := e
    simp only [Tab.rising, Bool.and_eq_true, decide_eq_true_eq] at h ⊢
    exact ⟨by omega, h.2⟩

/-- Nothing is found at or below a bound that the keys rise from. -/
theorem Tab.find_below (t : Tab α) {b k : Nat} (h : Tab.rising (some b) t = true) (hk : k ≤ b) :
    Tab.find t k = none := by
  cases t with
  | nil => rfl
  | cons e t =>
    obtain ⟨j, v⟩ := e
    simp only [Tab.rising, Bool.and_eq_true, decide_eq_true_eq] at h
    simp [Tab.find, show j ≠ k by omega, show k < j by omega]

theorem Tab.put_rising_some (t : Tab α) (k : Nat) (v : α) {b : Nat} (h : Tab.rising (some b) t = true) (hb : b < k) :
    Tab.rising (some b) (Tab.put t k v) = true := by
  induction t generalizing b with
  | nil => simp [Tab.put, Tab.rising, hb]
  | cons e t ih =>
    obtain ⟨j, u⟩ := e
    simp only [Tab.rising, Bool.and_eq_true, decide_eq_true_eq] at h
    by_cases hj : j = k
    · subst hj; simp [Tab.put, Tab.rising, h]
    · by_cases g : k < j
      · simp [Tab.put, hj, g, Tab.rising, hb, h.2]
      · simp only [Tab.put, if_neg hj, if_neg g, Tab.rising, Bool.and_eq_true, decide_eq_true_eq]
        exact ⟨h.1, ih h.2 (by omega)⟩

theorem Tab.put_rising (t : Tab α) (k : Nat) (v : α) (h : Tab.rising none t = true) :
    Tab.rising none (Tab.put t k v) = true := by
  cases t with
  | nil => simp [Tab.put, Tab.rising]
  | cons e t =>
    obtain ⟨j, u⟩ := e
    simp only [Tab.rising] at h
    by_cases hj : j = k
    · subst hj; simp [Tab.put, Tab.rising, h]
    · by_cases g : k < j
      · simp [Tab.put, hj, g, Tab.rising, h]
      · simp only [Tab.put, if_neg hj, if_neg g, Tab.rising]
        exact Tab.put_rising_some t k v h (by omega)

theorem Tab.drop_rising_some (t : Tab α) (k : Nat) {b : Nat} (h : Tab.rising (some b) t = true) :
    Tab.rising (some b) (Tab.drop t k) = true := by
  induction t generalizing b with
  | nil => rfl
  | cons e t ih =>
    obtain ⟨j, u⟩ := e
    have h' := h
    simp only [Tab.rising, Bool.and_eq_true, decide_eq_true_eq] at h
    by_cases hj : j = k
    · simp only [Tab.drop, if_pos hj]; exact Tab.rising_le t h.2 (by omega)
    · by_cases g : k < j
      · simp only [Tab.drop, if_neg hj, if_pos g]; exact h'
      · simp only [Tab.drop, if_neg hj, if_neg g, Tab.rising, Bool.and_eq_true, decide_eq_true_eq]
        exact ⟨h.1, ih h.2⟩

theorem Tab.drop_rising (t : Tab α) (k : Nat) (h : Tab.rising none t = true) :
    Tab.rising none (Tab.drop t k) = true := by
  cases t with
  | nil => rfl
  | cons e t =>
    obtain ⟨j, u⟩ := e
    have h' := h
    simp only [Tab.rising] at h
    by_cases hj : j = k
    · simp only [Tab.drop, if_pos hj]; exact Tab.rising_none t j h
    · by_cases g : k < j
      · simp only [Tab.drop, if_neg hj, if_pos g]; exact h'
      · simp only [Tab.drop, if_neg hj, if_neg g, Tab.rising]
        exact Tab.drop_rising_some t k h

/-! ### Reading after a removal -/

theorem Tab.find_drop_some (t : Tab α) (j k : Nat) {b : Nat} (h : Tab.rising (some b) t = true) :
    Tab.find (Tab.drop t k) j = if j = k then none else Tab.find t j := by
  induction t generalizing b with
  | nil => simp [Tab.drop, Tab.find]
  | cons e t ih =>
    obtain ⟨i, u⟩ := e
    simp only [Tab.rising, Bool.and_eq_true, decide_eq_true_eq] at h
    by_cases hi : i = k
    · subst hi
      simp only [Tab.drop, if_pos]
      by_cases hj : j = i
      · subst hj; simp [Tab.find_below t h.2 (Nat.le_refl _)]
      · simp only [if_neg hj, Tab.find, if_neg (Ne.symm hj)]
        split
        · exact Tab.find_below t h.2 (by omega)
        · rfl
    · by_cases g : k < i
      · simp only [Tab.drop, if_neg hi, if_pos g]
        split
        · rename_i hj; subst hj; simp [Tab.find, hi, g]
        · rfl
      · simp only [Tab.drop, if_neg hi, if_neg g, Tab.find, ih h.2]
        by_cases hij : i = j
        · subst hij; simp [hi]
        · simp only [if_neg hij]
          by_cases hlt : j < i
          · simp [hlt]
          · simp [hlt]

theorem Tab.find_drop (t : Tab α) (j k : Nat) (h : Tab.rising none t = true) :
    Tab.find (Tab.drop t k) j = if j = k then none else Tab.find t j := by
  cases t with
  | nil => simp [Tab.drop, Tab.find]
  | cons e t =>
    obtain ⟨i, u⟩ := e
    simp only [Tab.rising] at h
    by_cases hi : i = 0
    · subst hi
      by_cases hk : k = 0
      · subst hk
        simp only [Tab.drop, if_pos]
        by_cases hj : j = 0
        · subst hj; simp [Tab.find_below t h (Nat.le_refl _)]
        · simp [Tab.find, hj, Ne.symm hj]
      · simp only [Tab.drop, if_neg (Ne.symm hk), Nat.not_lt_zero, if_false, Tab.find, Tab.find_drop_some t j k h]
        by_cases hj : 0 = j
        · subst hj; simp [Ne.symm hk]
        · simp [hj]
    · exact Tab.find_drop_some _ j k (b := 0) (by
        simp only [Tab.rising, Bool.and_eq_true, decide_eq_true_eq]; exact ⟨by omega, h⟩)

/-! ### Writing values, with what an unlisted key reads as -/

variable [DecidableEq α]

/-- A write followed by a read: the value written at its key, and every other key as before. -/
theorem Tab.read_write (d : α) (t : Tab α) (j k : Nat) (v : α) (h : Tab.rising none t = true) :
    Tab.read d (Tab.write d t k v) j = if j = k then v else Tab.read d t j := by
  unfold Tab.read Tab.write
  by_cases hv : v = d
  · rw [if_pos hv, Tab.find_drop t j k h]
    split <;> simp [hv]
  · rw [if_neg hv, Tab.find_put]
    split <;> simp

theorem Tab.all_put (d : α) (t : Tab α) (k : Nat) (v : α) (hv : v ≠ d)
    (h : t.all (fun e => decide (e.2 ≠ d)) = true) :
    (Tab.put t k v).all (fun e => decide (e.2 ≠ d)) = true := by
  induction t with
  | nil => simp [Tab.put, hv]
  | cons e t ih =>
    obtain ⟨j, u⟩ := e
    simp only [List.all_cons, Bool.and_eq_true, decide_eq_true_eq] at h
    unfold Tab.put
    split
    · simp only [List.all_cons, Bool.and_eq_true, decide_eq_true_eq]; exact ⟨hv, h.2⟩
    · split
      · simp only [List.all_cons, Bool.and_eq_true, decide_eq_true_eq]; exact ⟨hv, h.1, h.2⟩
      · simp only [List.all_cons, Bool.and_eq_true, decide_eq_true_eq]
        exact ⟨h.1, ih h.2⟩

theorem Tab.all_drop (d : α) (t : Tab α) (k : Nat) (h : t.all (fun e => decide (e.2 ≠ d)) = true) :
    (Tab.drop t k).all (fun e => decide (e.2 ≠ d)) = true := by
  induction t with
  | nil => rfl
  | cons e t ih =>
    obtain ⟨j, u⟩ := e
    have h' := h
    simp only [List.all_cons, Bool.and_eq_true, decide_eq_true_eq] at h
    unfold Tab.drop
    split
    · exact h.2
    · split
      · exact h'
      · simp only [List.all_cons, Bool.and_eq_true, decide_eq_true_eq]
        exact ⟨h.1, ih h.2⟩

/-- A write keeps the canonical form. -/
theorem Tab.write_wf (d : α) (t : Tab α) (k : Nat) (v : α) (h : Tab.wf d t = true) :
    Tab.wf d (Tab.write d t k v) = true := by
  simp only [Tab.wf, Bool.and_eq_true] at h ⊢
  unfold Tab.write
  split
  · exact ⟨Tab.drop_rising t k h.1, Tab.all_drop d t k h.2⟩
  · rename_i hv; exact ⟨Tab.put_rising t k v h.1, Tab.all_put d t k v hv h.2⟩

/-- A canonical table has rising keys. -/
theorem Tab.wf_rising (d : α) (t : Tab α) (h : Tab.wf d t = true) : Tab.rising none t = true := by
  simp only [Tab.wf, Bool.and_eq_true] at h; exact h.1

end Sys2Proof.Machine
end

