-- ==== Sys2Proof/Laws/State.lean ====
section
/-! SUPPORT. What each operation that replaces a part of the state leaves alone: one lemma for each field, by rfl, and
what reading a part back gives. -/
namespace Sys2Proof.Machine

variable (s : State) (n : Nat)

/-! ### setWarp -/

@[simp] theorem State.setWarp_agenda (x : Warp) : (s.setWarp n x).agenda = s.agenda := rfl
@[simp] theorem State.setWarp_turn (x : Warp) : (s.setWarp n x).turn = s.turn := rfl
@[simp] theorem State.setWarp_cur (x : Warp) : (s.setWarp n x).cur = s.cur := rfl
@[simp] theorem State.setWarp_fcur (x : Warp) : (s.setWarp n x).fcur = s.fcur := rfl
@[simp] theorem State.setWarp_free (x : Warp) : (s.setWarp n x).free = s.free := rfl
@[simp] theorem State.setWarp_next (x : Warp) : (s.setWarp n x).next = s.next := rfl
@[simp] theorem State.setWarp_hostOut (x : Warp) : (s.setWarp n x).hostOut = s.hostOut := rfl
@[simp] theorem State.setWarp_hostPoison (x : Warp) : (s.setWarp n x).hostPoison = s.hostPoison := rfl
@[simp] theorem State.setWarp_tick (x : Warp) : (s.setWarp n x).tick = s.tick := rfl
@[simp] theorem State.setWarp_mem (x : Warp) : (s.setWarp n x).mem = s.mem := rfl
@[simp] theorem State.setWarp_lineKeys (x : Warp) : (s.setWarp n x).lineKeys = s.lineKeys := rfl
@[simp] theorem State.setWarp_poison (x : Warp) : (s.setWarp n x).poison = s.poison := rfl
@[simp] theorem State.setWarp_hostLines (x : Warp) : (s.setWarp n x).hostLines = s.hostLines := rfl
@[simp] theorem State.setWarp_keys (x : Warp) : (s.setWarp n x).keys = s.keys := rfl
@[simp] theorem State.setWarp_launches (x : Warp) : (s.setWarp n x).launches = s.launches := rfl
@[simp] theorem State.setWarp_blocks (x : Warp) : (s.setWarp n x).blocks = s.blocks := rfl
@[simp] theorem State.setWarp_ctxs (x : Warp) : (s.setWarp n x).ctxs = s.ctxs := rfl
@[simp] theorem State.setWarp_cores (x : Warp) : (s.setWarp n x).cores = s.cores := rfl
@[simp] theorem State.setWarp_dies (x : Warp) : (s.setWarp n x).dies = s.dies := rfl
@[simp] theorem State.setWarp_islands (x : Warp) : (s.setWarp n x).islands = s.islands := rfl
@[simp] theorem State.setWarp_survey (x : Warp) : (s.setWarp n x).survey = s.survey := rfl
@[simp] theorem State.setWarp_dev (x : Warp) : (s.setWarp n x).dev = s.dev := rfl
@[simp] theorem State.setWarp_joins (x : Warp) : (s.setWarp n x).joins = s.joins := rfl
@[simp] theorem State.setWarp_invals (x : Warp) : (s.setWarp n x).invals = s.invals := rfl
@[simp] theorem State.setWarp_walks (x : Warp) : (s.setWarp n x).walks = s.walks := rfl

/-! ### setBlk -/

@[simp] theorem State.setBlk_agenda (x : Block) : (s.setBlk n x).agenda = s.agenda := rfl
@[simp] theorem State.setBlk_turn (x : Block) : (s.setBlk n x).turn = s.turn := rfl
@[simp] theorem State.setBlk_cur (x : Block) : (s.setBlk n x).cur = s.cur := rfl
@[simp] theorem State.setBlk_fcur (x : Block) : (s.setBlk n x).fcur = s.fcur := rfl
@[simp] theorem State.setBlk_free (x : Block) : (s.setBlk n x).free = s.free := rfl
@[simp] theorem State.setBlk_next (x : Block) : (s.setBlk n x).next = s.next := rfl
@[simp] theorem State.setBlk_hostOut (x : Block) : (s.setBlk n x).hostOut = s.hostOut := rfl
@[simp] theorem State.setBlk_hostPoison (x : Block) : (s.setBlk n x).hostPoison = s.hostPoison := rfl
@[simp] theorem State.setBlk_tick (x : Block) : (s.setBlk n x).tick = s.tick := rfl
@[simp] theorem State.setBlk_mem (x : Block) : (s.setBlk n x).mem = s.mem := rfl
@[simp] theorem State.setBlk_lineKeys (x : Block) : (s.setBlk n x).lineKeys = s.lineKeys := rfl
@[simp] theorem State.setBlk_poison (x : Block) : (s.setBlk n x).poison = s.poison := rfl
@[simp] theorem State.setBlk_hostLines (x : Block) : (s.setBlk n x).hostLines = s.hostLines := rfl
@[simp] theorem State.setBlk_keys (x : Block) : (s.setBlk n x).keys = s.keys := rfl
@[simp] theorem State.setBlk_launches (x : Block) : (s.setBlk n x).launches = s.launches := rfl
@[simp] theorem State.setBlk_warps (x : Block) : (s.setBlk n x).warps = s.warps := rfl
@[simp] theorem State.setBlk_ctxs (x : Block) : (s.setBlk n x).ctxs = s.ctxs := rfl
@[simp] theorem State.setBlk_cores (x : Block) : (s.setBlk n x).cores = s.cores := rfl
@[simp] theorem State.setBlk_dies (x : Block) : (s.setBlk n x).dies = s.dies := rfl
@[simp] theorem State.setBlk_islands (x : Block) : (s.setBlk n x).islands = s.islands := rfl
@[simp] theorem State.setBlk_survey (x : Block) : (s.setBlk n x).survey = s.survey := rfl
@[simp] theorem State.setBlk_dev (x : Block) : (s.setBlk n x).dev = s.dev := rfl
@[simp] theorem State.setBlk_joins (x : Block) : (s.setBlk n x).joins = s.joins := rfl
@[simp] theorem State.setBlk_invals (x : Block) : (s.setBlk n x).invals = s.invals := rfl
@[simp] theorem State.setBlk_walks (x : Block) : (s.setBlk n x).walks = s.walks := rfl

/-! ### setLaunch -/

@[simp] theorem State.setLaunch_agenda (x : Launch) : (s.setLaunch n x).agenda = s.agenda := rfl
@[simp] theorem State.setLaunch_turn (x : Launch) : (s.setLaunch n x).turn = s.turn := rfl
@[simp] theorem State.setLaunch_cur (x : Launch) : (s.setLaunch n x).cur = s.cur := rfl
@[simp] theorem State.setLaunch_fcur (x : Launch) : (s.setLaunch n x).fcur = s.fcur := rfl
@[simp] theorem State.setLaunch_free (x : Launch) : (s.setLaunch n x).free = s.free := rfl
@[simp] theorem State.setLaunch_next (x : Launch) : (s.setLaunch n x).next = s.next := rfl
@[simp] theorem State.setLaunch_hostOut (x : Launch) : (s.setLaunch n x).hostOut = s.hostOut := rfl
@[simp] theorem State.setLaunch_hostPoison (x : Launch) : (s.setLaunch n x).hostPoison = s.hostPoison := rfl
@[simp] theorem State.setLaunch_tick (x : Launch) : (s.setLaunch n x).tick = s.tick := rfl
@[simp] theorem State.setLaunch_mem (x : Launch) : (s.setLaunch n x).mem = s.mem := rfl
@[simp] theorem State.setLaunch_lineKeys (x : Launch) : (s.setLaunch n x).lineKeys = s.lineKeys := rfl
@[simp] theorem State.setLaunch_poison (x : Launch) : (s.setLaunch n x).poison = s.poison := rfl
@[simp] theorem State.setLaunch_hostLines (x : Launch) : (s.setLaunch n x).hostLines = s.hostLines := rfl
@[simp] theorem State.setLaunch_keys (x : Launch) : (s.setLaunch n x).keys = s.keys := rfl
@[simp] theorem State.setLaunch_blocks (x : Launch) : (s.setLaunch n x).blocks = s.blocks := rfl
@[simp] theorem State.setLaunch_warps (x : Launch) : (s.setLaunch n x).warps = s.warps := rfl
@[simp] theorem State.setLaunch_ctxs (x : Launch) : (s.setLaunch n x).ctxs = s.ctxs := rfl
@[simp] theorem State.setLaunch_cores (x : Launch) : (s.setLaunch n x).cores = s.cores := rfl
@[simp] theorem State.setLaunch_dies (x : Launch) : (s.setLaunch n x).dies = s.dies := rfl
@[simp] theorem State.setLaunch_islands (x : Launch) : (s.setLaunch n x).islands = s.islands := rfl
@[simp] theorem State.setLaunch_survey (x : Launch) : (s.setLaunch n x).survey = s.survey := rfl
@[simp] theorem State.setLaunch_dev (x : Launch) : (s.setLaunch n x).dev = s.dev := rfl
@[simp] theorem State.setLaunch_joins (x : Launch) : (s.setLaunch n x).joins = s.joins := rfl
@[simp] theorem State.setLaunch_invals (x : Launch) : (s.setLaunch n x).invals = s.invals := rfl
@[simp] theorem State.setLaunch_walks (x : Launch) : (s.setLaunch n x).walks = s.walks := rfl

/-! ### setCtx -/

@[simp] theorem State.setCtx_agenda (x : Ctx) : (s.setCtx n x).agenda = s.agenda := rfl
@[simp] theorem State.setCtx_turn (x : Ctx) : (s.setCtx n x).turn = s.turn := rfl
@[simp] theorem State.setCtx_cur (x : Ctx) : (s.setCtx n x).cur = s.cur := rfl
@[simp] theorem State.setCtx_fcur (x : Ctx) : (s.setCtx n x).fcur = s.fcur := rfl
@[simp] theorem State.setCtx_free (x : Ctx) : (s.setCtx n x).free = s.free := rfl
@[simp] theorem State.setCtx_next (x : Ctx) : (s.setCtx n x).next = s.next := rfl
@[simp] theorem State.setCtx_hostOut (x : Ctx) : (s.setCtx n x).hostOut = s.hostOut := rfl
@[simp] theorem State.setCtx_hostPoison (x : Ctx) : (s.setCtx n x).hostPoison = s.hostPoison := rfl
@[simp] theorem State.setCtx_tick (x : Ctx) : (s.setCtx n x).tick = s.tick := rfl
@[simp] theorem State.setCtx_mem (x : Ctx) : (s.setCtx n x).mem = s.mem := rfl
@[simp] theorem State.setCtx_lineKeys (x : Ctx) : (s.setCtx n x).lineKeys = s.lineKeys := rfl
@[simp] theorem State.setCtx_poison (x : Ctx) : (s.setCtx n x).poison = s.poison := rfl
@[simp] theorem State.setCtx_hostLines (x : Ctx) : (s.setCtx n x).hostLines = s.hostLines := rfl
@[simp] theorem State.setCtx_keys (x : Ctx) : (s.setCtx n x).keys = s.keys := rfl
@[simp] theorem State.setCtx_launches (x : Ctx) : (s.setCtx n x).launches = s.launches := rfl
@[simp] theorem State.setCtx_blocks (x : Ctx) : (s.setCtx n x).blocks = s.blocks := rfl
@[simp] theorem State.setCtx_warps (x : Ctx) : (s.setCtx n x).warps = s.warps := rfl
@[simp] theorem State.setCtx_cores (x : Ctx) : (s.setCtx n x).cores = s.cores := rfl
@[simp] theorem State.setCtx_dies (x : Ctx) : (s.setCtx n x).dies = s.dies := rfl
@[simp] theorem State.setCtx_islands (x : Ctx) : (s.setCtx n x).islands = s.islands := rfl
@[simp] theorem State.setCtx_survey (x : Ctx) : (s.setCtx n x).survey = s.survey := rfl
@[simp] theorem State.setCtx_dev (x : Ctx) : (s.setCtx n x).dev = s.dev := rfl
@[simp] theorem State.setCtx_joins (x : Ctx) : (s.setCtx n x).joins = s.joins := rfl
@[simp] theorem State.setCtx_invals (x : Ctx) : (s.setCtx n x).invals = s.invals := rfl
@[simp] theorem State.setCtx_walks (x : Ctx) : (s.setCtx n x).walks = s.walks := rfl

/-! ### setCore -/

@[simp] theorem State.setCore_agenda (x : Core) : (s.setCore n x).agenda = s.agenda := rfl
@[simp] theorem State.setCore_turn (x : Core) : (s.setCore n x).turn = s.turn := rfl
@[simp] theorem State.setCore_cur (x : Core) : (s.setCore n x).cur = s.cur := rfl
@[simp] theorem State.setCore_fcur (x : Core) : (s.setCore n x).fcur = s.fcur := rfl
@[simp] theorem State.setCore_free (x : Core) : (s.setCore n x).free = s.free := rfl
@[simp] theorem State.setCore_next (x : Core) : (s.setCore n x).next = s.next := rfl
@[simp] theorem State.setCore_hostOut (x : Core) : (s.setCore n x).hostOut = s.hostOut := rfl
@[simp] theorem State.setCore_hostPoison (x : Core) : (s.setCore n x).hostPoison = s.hostPoison := rfl
@[simp] theorem State.setCore_tick (x : Core) : (s.setCore n x).tick = s.tick := rfl
@[simp] theorem State.setCore_mem (x : Core) : (s.setCore n x).mem = s.mem := rfl
@[simp] theorem State.setCore_lineKeys (x : Core) : (s.setCore n x).lineKeys = s.lineKeys := rfl
@[simp] theorem State.setCore_poison (x : Core) : (s.setCore n x).poison = s.poison := rfl
@[simp] theorem State.setCore_hostLines (x : Core) : (s.setCore n x).hostLines = s.hostLines := rfl
@[simp] theorem State.setCore_keys (x : Core) : (s.setCore n x).keys = s.keys := rfl
@[simp] theorem State.setCore_launches (x : Core) : (s.setCore n x).launches = s.launches := rfl
@[simp] theorem State.setCore_blocks (x : Core) : (s.setCore n x).blocks = s.blocks := rfl
@[simp] theorem State.setCore_warps (x : Core) : (s.setCore n x).warps = s.warps := rfl
@[simp] theorem State.setCore_ctxs (x : Core) : (s.setCore n x).ctxs = s.ctxs := rfl
@[simp] theorem State.setCore_dies (x : Core) : (s.setCore n x).dies = s.dies := rfl
@[simp] theorem State.setCore_islands (x : Core) : (s.setCore n x).islands = s.islands := rfl
@[simp] theorem State.setCore_survey (x : Core) : (s.setCore n x).survey = s.survey := rfl
@[simp] theorem State.setCore_dev (x : Core) : (s.setCore n x).dev = s.dev := rfl
@[simp] theorem State.setCore_joins (x : Core) : (s.setCore n x).joins = s.joins := rfl
@[simp] theorem State.setCore_invals (x : Core) : (s.setCore n x).invals = s.invals := rfl
@[simp] theorem State.setCore_walks (x : Core) : (s.setCore n x).walks = s.walks := rfl

/-! ### setDie -/

@[simp] theorem State.setDie_agenda (x : Die) : (s.setDie n x).agenda = s.agenda := rfl
@[simp] theorem State.setDie_turn (x : Die) : (s.setDie n x).turn = s.turn := rfl
@[simp] theorem State.setDie_cur (x : Die) : (s.setDie n x).cur = s.cur := rfl
@[simp] theorem State.setDie_fcur (x : Die) : (s.setDie n x).fcur = s.fcur := rfl
@[simp] theorem State.setDie_free (x : Die) : (s.setDie n x).free = s.free := rfl
@[simp] theorem State.setDie_next (x : Die) : (s.setDie n x).next = s.next := rfl
@[simp] theorem State.setDie_hostOut (x : Die) : (s.setDie n x).hostOut = s.hostOut := rfl
@[simp] theorem State.setDie_hostPoison (x : Die) : (s.setDie n x).hostPoison = s.hostPoison := rfl
@[simp] theorem State.setDie_tick (x : Die) : (s.setDie n x).tick = s.tick := rfl
@[simp] theorem State.setDie_mem (x : Die) : (s.setDie n x).mem = s.mem := rfl
@[simp] theorem State.setDie_lineKeys (x : Die) : (s.setDie n x).lineKeys = s.lineKeys := rfl
@[simp] theorem State.setDie_poison (x : Die) : (s.setDie n x).poison = s.poison := rfl
@[simp] theorem State.setDie_hostLines (x : Die) : (s.setDie n x).hostLines = s.hostLines := rfl
@[simp] theorem State.setDie_keys (x : Die) : (s.setDie n x).keys = s.keys := rfl
@[simp] theorem State.setDie_launches (x : Die) : (s.setDie n x).launches = s.launches := rfl
@[simp] theorem State.setDie_blocks (x : Die) : (s.setDie n x).blocks = s.blocks := rfl
@[simp] theorem State.setDie_warps (x : Die) : (s.setDie n x).warps = s.warps := rfl
@[simp] theorem State.setDie_ctxs (x : Die) : (s.setDie n x).ctxs = s.ctxs := rfl
@[simp] theorem State.setDie_cores (x : Die) : (s.setDie n x).cores = s.cores := rfl
@[simp] theorem State.setDie_islands (x : Die) : (s.setDie n x).islands = s.islands := rfl
@[simp] theorem State.setDie_survey (x : Die) : (s.setDie n x).survey = s.survey := rfl
@[simp] theorem State.setDie_dev (x : Die) : (s.setDie n x).dev = s.dev := rfl
@[simp] theorem State.setDie_joins (x : Die) : (s.setDie n x).joins = s.joins := rfl
@[simp] theorem State.setDie_invals (x : Die) : (s.setDie n x).invals = s.invals := rfl
@[simp] theorem State.setDie_walks (x : Die) : (s.setDie n x).walks = s.walks := rfl

/-! ### modWarp -/

@[simp] theorem State.modWarp_agenda (g : Warp → Warp) : (s.modWarp n g).agenda = s.agenda := rfl
@[simp] theorem State.modWarp_turn (g : Warp → Warp) : (s.modWarp n g).turn = s.turn := rfl
@[simp] theorem State.modWarp_cur (g : Warp → Warp) : (s.modWarp n g).cur = s.cur := rfl
@[simp] theorem State.modWarp_fcur (g : Warp → Warp) : (s.modWarp n g).fcur = s.fcur := rfl
@[simp] theorem State.modWarp_free (g : Warp → Warp) : (s.modWarp n g).free = s.free := rfl
@[simp] theorem State.modWarp_next (g : Warp → Warp) : (s.modWarp n g).next = s.next := rfl
@[simp] theorem State.modWarp_hostOut (g : Warp → Warp) : (s.modWarp n g).hostOut = s.hostOut := rfl
@[simp] theorem State.modWarp_hostPoison (g : Warp → Warp) : (s.modWarp n g).hostPoison = s.hostPoison := rfl
@[simp] theorem State.modWarp_tick (g : Warp → Warp) : (s.modWarp n g).tick = s.tick := rfl
@[simp] theorem State.modWarp_mem (g : Warp → Warp) : (s.modWarp n g).mem = s.mem := rfl
@[simp] theorem State.modWarp_lineKeys (g : Warp → Warp) : (s.modWarp n g).lineKeys = s.lineKeys := rfl
@[simp] theorem State.modWarp_poison (g : Warp → Warp) : (s.modWarp n g).poison = s.poison := rfl
@[simp] theorem State.modWarp_hostLines (g : Warp → Warp) : (s.modWarp n g).hostLines = s.hostLines := rfl
@[simp] theorem State.modWarp_keys (g : Warp → Warp) : (s.modWarp n g).keys = s.keys := rfl
@[simp] theorem State.modWarp_launches (g : Warp → Warp) : (s.modWarp n g).launches = s.launches := rfl
@[simp] theorem State.modWarp_blocks (g : Warp → Warp) : (s.modWarp n g).blocks = s.blocks := rfl
@[simp] theorem State.modWarp_ctxs (g : Warp → Warp) : (s.modWarp n g).ctxs = s.ctxs := rfl
@[simp] theorem State.modWarp_cores (g : Warp → Warp) : (s.modWarp n g).cores = s.cores := rfl
@[simp] theorem State.modWarp_dies (g : Warp → Warp) : (s.modWarp n g).dies = s.dies := rfl
@[simp] theorem State.modWarp_islands (g : Warp → Warp) : (s.modWarp n g).islands = s.islands := rfl
@[simp] theorem State.modWarp_survey (g : Warp → Warp) : (s.modWarp n g).survey = s.survey := rfl
@[simp] theorem State.modWarp_dev (g : Warp → Warp) : (s.modWarp n g).dev = s.dev := rfl
@[simp] theorem State.modWarp_joins (g : Warp → Warp) : (s.modWarp n g).joins = s.joins := rfl
@[simp] theorem State.modWarp_invals (g : Warp → Warp) : (s.modWarp n g).invals = s.invals := rfl
@[simp] theorem State.modWarp_walks (g : Warp → Warp) : (s.modWarp n g).walks = s.walks := rfl

/-! ### modBlk -/

@[simp] theorem State.modBlk_agenda (g : Block → Block) : (s.modBlk n g).agenda = s.agenda := rfl
@[simp] theorem State.modBlk_turn (g : Block → Block) : (s.modBlk n g).turn = s.turn := rfl
@[simp] theorem State.modBlk_cur (g : Block → Block) : (s.modBlk n g).cur = s.cur := rfl
@[simp] theorem State.modBlk_fcur (g : Block → Block) : (s.modBlk n g).fcur = s.fcur := rfl
@[simp] theorem State.modBlk_free (g : Block → Block) : (s.modBlk n g).free = s.free := rfl
@[simp] theorem State.modBlk_next (g : Block → Block) : (s.modBlk n g).next = s.next := rfl
@[simp] theorem State.modBlk_hostOut (g : Block → Block) : (s.modBlk n g).hostOut = s.hostOut := rfl
@[simp] theorem State.modBlk_hostPoison (g : Block → Block) : (s.modBlk n g).hostPoison = s.hostPoison := rfl
@[simp] theorem State.modBlk_tick (g : Block → Block) : (s.modBlk n g).tick = s.tick := rfl
@[simp] theorem State.modBlk_mem (g : Block → Block) : (s.modBlk n g).mem = s.mem := rfl
@[simp] theorem State.modBlk_lineKeys (g : Block → Block) : (s.modBlk n g).lineKeys = s.lineKeys := rfl
@[simp] theorem State.modBlk_poison (g : Block → Block) : (s.modBlk n g).poison = s.poison := rfl
@[simp] theorem State.modBlk_hostLines (g : Block → Block) : (s.modBlk n g).hostLines = s.hostLines := rfl
@[simp] theorem State.modBlk_keys (g : Block → Block) : (s.modBlk n g).keys = s.keys := rfl
@[simp] theorem State.modBlk_launches (g : Block → Block) : (s.modBlk n g).launches = s.launches := rfl
@[simp] theorem State.modBlk_warps (g : Block → Block) : (s.modBlk n g).warps = s.warps := rfl
@[simp] theorem State.modBlk_ctxs (g : Block → Block) : (s.modBlk n g).ctxs = s.ctxs := rfl
@[simp] theorem State.modBlk_cores (g : Block → Block) : (s.modBlk n g).cores = s.cores := rfl
@[simp] theorem State.modBlk_dies (g : Block → Block) : (s.modBlk n g).dies = s.dies := rfl
@[simp] theorem State.modBlk_islands (g : Block → Block) : (s.modBlk n g).islands = s.islands := rfl
@[simp] theorem State.modBlk_survey (g : Block → Block) : (s.modBlk n g).survey = s.survey := rfl
@[simp] theorem State.modBlk_dev (g : Block → Block) : (s.modBlk n g).dev = s.dev := rfl
@[simp] theorem State.modBlk_joins (g : Block → Block) : (s.modBlk n g).joins = s.joins := rfl
@[simp] theorem State.modBlk_invals (g : Block → Block) : (s.modBlk n g).invals = s.invals := rfl
@[simp] theorem State.modBlk_walks (g : Block → Block) : (s.modBlk n g).walks = s.walks := rfl

/-! ### modLaunch -/

@[simp] theorem State.modLaunch_agenda (g : Launch → Launch) : (s.modLaunch n g).agenda = s.agenda := rfl
@[simp] theorem State.modLaunch_turn (g : Launch → Launch) : (s.modLaunch n g).turn = s.turn := rfl
@[simp] theorem State.modLaunch_cur (g : Launch → Launch) : (s.modLaunch n g).cur = s.cur := rfl
@[simp] theorem State.modLaunch_fcur (g : Launch → Launch) : (s.modLaunch n g).fcur = s.fcur := rfl
@[simp] theorem State.modLaunch_free (g : Launch → Launch) : (s.modLaunch n g).free = s.free := rfl
@[simp] theorem State.modLaunch_next (g : Launch → Launch) : (s.modLaunch n g).next = s.next := rfl
@[simp] theorem State.modLaunch_hostOut (g : Launch → Launch) : (s.modLaunch n g).hostOut = s.hostOut := rfl
@[simp] theorem State.modLaunch_hostPoison (g : Launch → Launch) : (s.modLaunch n g).hostPoison = s.hostPoison := rfl
@[simp] theorem State.modLaunch_tick (g : Launch → Launch) : (s.modLaunch n g).tick = s.tick := rfl
@[simp] theorem State.modLaunch_mem (g : Launch → Launch) : (s.modLaunch n g).mem = s.mem := rfl
@[simp] theorem State.modLaunch_lineKeys (g : Launch → Launch) : (s.modLaunch n g).lineKeys = s.lineKeys := rfl
@[simp] theorem State.modLaunch_poison (g : Launch → Launch) : (s.modLaunch n g).poison = s.poison := rfl
@[simp] theorem State.modLaunch_hostLines (g : Launch → Launch) : (s.modLaunch n g).hostLines = s.hostLines := rfl
@[simp] theorem State.modLaunch_keys (g : Launch → Launch) : (s.modLaunch n g).keys = s.keys := rfl
@[simp] theorem State.modLaunch_blocks (g : Launch → Launch) : (s.modLaunch n g).blocks = s.blocks := rfl
@[simp] theorem State.modLaunch_warps (g : Launch → Launch) : (s.modLaunch n g).warps = s.warps := rfl
@[simp] theorem State.modLaunch_ctxs (g : Launch → Launch) : (s.modLaunch n g).ctxs = s.ctxs := rfl
@[simp] theorem State.modLaunch_cores (g : Launch → Launch) : (s.modLaunch n g).cores = s.cores := rfl
@[simp] theorem State.modLaunch_dies (g : Launch → Launch) : (s.modLaunch n g).dies = s.dies := rfl
@[simp] theorem State.modLaunch_islands (g : Launch → Launch) : (s.modLaunch n g).islands = s.islands := rfl
@[simp] theorem State.modLaunch_survey (g : Launch → Launch) : (s.modLaunch n g).survey = s.survey := rfl
@[simp] theorem State.modLaunch_dev (g : Launch → Launch) : (s.modLaunch n g).dev = s.dev := rfl
@[simp] theorem State.modLaunch_joins (g : Launch → Launch) : (s.modLaunch n g).joins = s.joins := rfl
@[simp] theorem State.modLaunch_invals (g : Launch → Launch) : (s.modLaunch n g).invals = s.invals := rfl
@[simp] theorem State.modLaunch_walks (g : Launch → Launch) : (s.modLaunch n g).walks = s.walks := rfl

/-! ### modCtx -/

@[simp] theorem State.modCtx_agenda (g : Ctx → Ctx) : (s.modCtx n g).agenda = s.agenda := rfl
@[simp] theorem State.modCtx_turn (g : Ctx → Ctx) : (s.modCtx n g).turn = s.turn := rfl
@[simp] theorem State.modCtx_cur (g : Ctx → Ctx) : (s.modCtx n g).cur = s.cur := rfl
@[simp] theorem State.modCtx_fcur (g : Ctx → Ctx) : (s.modCtx n g).fcur = s.fcur := rfl
@[simp] theorem State.modCtx_free (g : Ctx → Ctx) : (s.modCtx n g).free = s.free := rfl
@[simp] theorem State.modCtx_next (g : Ctx → Ctx) : (s.modCtx n g).next = s.next := rfl
@[simp] theorem State.modCtx_hostOut (g : Ctx → Ctx) : (s.modCtx n g).hostOut = s.hostOut := rfl
@[simp] theorem State.modCtx_hostPoison (g : Ctx → Ctx) : (s.modCtx n g).hostPoison = s.hostPoison := rfl
@[simp] theorem State.modCtx_tick (g : Ctx → Ctx) : (s.modCtx n g).tick = s.tick := rfl
@[simp] theorem State.modCtx_mem (g : Ctx → Ctx) : (s.modCtx n g).mem = s.mem := rfl
@[simp] theorem State.modCtx_lineKeys (g : Ctx → Ctx) : (s.modCtx n g).lineKeys = s.lineKeys := rfl
@[simp] theorem State.modCtx_poison (g : Ctx → Ctx) : (s.modCtx n g).poison = s.poison := rfl
@[simp] theorem State.modCtx_hostLines (g : Ctx → Ctx) : (s.modCtx n g).hostLines = s.hostLines := rfl
@[simp] theorem State.modCtx_keys (g : Ctx → Ctx) : (s.modCtx n g).keys = s.keys := rfl
@[simp] theorem State.modCtx_launches (g : Ctx → Ctx) : (s.modCtx n g).launches = s.launches := rfl
@[simp] theorem State.modCtx_blocks (g : Ctx → Ctx) : (s.modCtx n g).blocks = s.blocks := rfl
@[simp] theorem State.modCtx_warps (g : Ctx → Ctx) : (s.modCtx n g).warps = s.warps := rfl
@[simp] theorem State.modCtx_cores (g : Ctx → Ctx) : (s.modCtx n g).cores = s.cores := rfl
@[simp] theorem State.modCtx_dies (g : Ctx → Ctx) : (s.modCtx n g).dies = s.dies := rfl
@[simp] theorem State.modCtx_islands (g : Ctx → Ctx) : (s.modCtx n g).islands = s.islands := rfl
@[simp] theorem State.modCtx_survey (g : Ctx → Ctx) : (s.modCtx n g).survey = s.survey := rfl
@[simp] theorem State.modCtx_dev (g : Ctx → Ctx) : (s.modCtx n g).dev = s.dev := rfl
@[simp] theorem State.modCtx_joins (g : Ctx → Ctx) : (s.modCtx n g).joins = s.joins := rfl
@[simp] theorem State.modCtx_invals (g : Ctx → Ctx) : (s.modCtx n g).invals = s.invals := rfl
@[simp] theorem State.modCtx_walks (g : Ctx → Ctx) : (s.modCtx n g).walks = s.walks := rfl

/-! ### modCore -/

@[simp] theorem State.modCore_agenda (g : Core → Core) : (s.modCore n g).agenda = s.agenda := rfl
@[simp] theorem State.modCore_turn (g : Core → Core) : (s.modCore n g).turn = s.turn := rfl
@[simp] theorem State.modCore_cur (g : Core → Core) : (s.modCore n g).cur = s.cur := rfl
@[simp] theorem State.modCore_fcur (g : Core → Core) : (s.modCore n g).fcur = s.fcur := rfl
@[simp] theorem State.modCore_free (g : Core → Core) : (s.modCore n g).free = s.free := rfl
@[simp] theorem State.modCore_next (g : Core → Core) : (s.modCore n g).next = s.next := rfl
@[simp] theorem State.modCore_hostOut (g : Core → Core) : (s.modCore n g).hostOut = s.hostOut := rfl
@[simp] theorem State.modCore_hostPoison (g : Core → Core) : (s.modCore n g).hostPoison = s.hostPoison := rfl
@[simp] theorem State.modCore_tick (g : Core → Core) : (s.modCore n g).tick = s.tick := rfl
@[simp] theorem State.modCore_mem (g : Core → Core) : (s.modCore n g).mem = s.mem := rfl
@[simp] theorem State.modCore_lineKeys (g : Core → Core) : (s.modCore n g).lineKeys = s.lineKeys := rfl
@[simp] theorem State.modCore_poison (g : Core → Core) : (s.modCore n g).poison = s.poison := rfl
@[simp] theorem State.modCore_hostLines (g : Core → Core) : (s.modCore n g).hostLines = s.hostLines := rfl
@[simp] theorem State.modCore_keys (g : Core → Core) : (s.modCore n g).keys = s.keys := rfl
@[simp] theorem State.modCore_launches (g : Core → Core) : (s.modCore n g).launches = s.launches := rfl
@[simp] theorem State.modCore_blocks (g : Core → Core) : (s.modCore n g).blocks = s.blocks := rfl
@[simp] theorem State.modCore_warps (g : Core → Core) : (s.modCore n g).warps = s.warps := rfl
@[simp] theorem State.modCore_ctxs (g : Core → Core) : (s.modCore n g).ctxs = s.ctxs := rfl
@[simp] theorem State.modCore_dies (g : Core → Core) : (s.modCore n g).dies = s.dies := rfl
@[simp] theorem State.modCore_islands (g : Core → Core) : (s.modCore n g).islands = s.islands := rfl
@[simp] theorem State.modCore_survey (g : Core → Core) : (s.modCore n g).survey = s.survey := rfl
@[simp] theorem State.modCore_dev (g : Core → Core) : (s.modCore n g).dev = s.dev := rfl
@[simp] theorem State.modCore_joins (g : Core → Core) : (s.modCore n g).joins = s.joins := rfl
@[simp] theorem State.modCore_invals (g : Core → Core) : (s.modCore n g).invals = s.invals := rfl
@[simp] theorem State.modCore_walks (g : Core → Core) : (s.modCore n g).walks = s.walks := rfl

/-! ### modDie -/

@[simp] theorem State.modDie_agenda (g : Die → Die) : (s.modDie n g).agenda = s.agenda := rfl
@[simp] theorem State.modDie_turn (g : Die → Die) : (s.modDie n g).turn = s.turn := rfl
@[simp] theorem State.modDie_cur (g : Die → Die) : (s.modDie n g).cur = s.cur := rfl
@[simp] theorem State.modDie_fcur (g : Die → Die) : (s.modDie n g).fcur = s.fcur := rfl
@[simp] theorem State.modDie_free (g : Die → Die) : (s.modDie n g).free = s.free := rfl
@[simp] theorem State.modDie_next (g : Die → Die) : (s.modDie n g).next = s.next := rfl
@[simp] theorem State.modDie_hostOut (g : Die → Die) : (s.modDie n g).hostOut = s.hostOut := rfl
@[simp] theorem State.modDie_hostPoison (g : Die → Die) : (s.modDie n g).hostPoison = s.hostPoison := rfl
@[simp] theorem State.modDie_tick (g : Die → Die) : (s.modDie n g).tick = s.tick := rfl
@[simp] theorem State.modDie_mem (g : Die → Die) : (s.modDie n g).mem = s.mem := rfl
@[simp] theorem State.modDie_lineKeys (g : Die → Die) : (s.modDie n g).lineKeys = s.lineKeys := rfl
@[simp] theorem State.modDie_poison (g : Die → Die) : (s.modDie n g).poison = s.poison := rfl
@[simp] theorem State.modDie_hostLines (g : Die → Die) : (s.modDie n g).hostLines = s.hostLines := rfl
@[simp] theorem State.modDie_keys (g : Die → Die) : (s.modDie n g).keys = s.keys := rfl
@[simp] theorem State.modDie_launches (g : Die → Die) : (s.modDie n g).launches = s.launches := rfl
@[simp] theorem State.modDie_blocks (g : Die → Die) : (s.modDie n g).blocks = s.blocks := rfl
@[simp] theorem State.modDie_warps (g : Die → Die) : (s.modDie n g).warps = s.warps := rfl
@[simp] theorem State.modDie_ctxs (g : Die → Die) : (s.modDie n g).ctxs = s.ctxs := rfl
@[simp] theorem State.modDie_cores (g : Die → Die) : (s.modDie n g).cores = s.cores := rfl
@[simp] theorem State.modDie_islands (g : Die → Die) : (s.modDie n g).islands = s.islands := rfl
@[simp] theorem State.modDie_survey (g : Die → Die) : (s.modDie n g).survey = s.survey := rfl
@[simp] theorem State.modDie_dev (g : Die → Die) : (s.modDie n g).dev = s.dev := rfl
@[simp] theorem State.modDie_joins (g : Die → Die) : (s.modDie n g).joins = s.joins := rfl
@[simp] theorem State.modDie_invals (g : Die → Die) : (s.modDie n g).invals = s.invals := rfl
@[simp] theorem State.modDie_walks (g : Die → Die) : (s.modDie n g).walks = s.walks := rfl

/-! ### Reading parts back -/

@[simp] theorem State.warp_setWarp (m : Nat) (x : Warp) : (s.setWarp n x).warp m = if m = n then x else s.warp m := by
  unfold State.warp State.setWarp; simp only [Tab.find_put]; split <;> rfl
@[simp] theorem State.blk_setBlk (m : Nat) (x : Block) : (s.setBlk n x).blk m = if m = n then x else s.blk m := by
  unfold State.blk State.setBlk; simp only [Tab.find_put]; split <;> rfl
@[simp] theorem State.launch_setLaunch (m : Nat) (x : Launch) : (s.setLaunch n x).launch m = if m = n then x else s.launch m := by
  unfold State.launch State.setLaunch; simp only [Tab.find_put]; split <;> rfl
@[simp] theorem State.ctx_setCtx (m : Nat) (x : Ctx) : (s.setCtx n x).ctx m = if m = n then x else s.ctx m := by
  unfold State.ctx State.setCtx; simp only [Tab.find_put]; split <;> rfl
@[simp] theorem State.core_setCore (m : Nat) (x : Core) : (s.setCore n x).core m = if m = n then x else s.core m := by
  unfold State.core State.setCore; simp only [Tab.find_put]; split <;> rfl
@[simp] theorem State.die_setDie (m : Nat) (x : Die) : (s.setDie n x).die m = if m = n then x else s.die m := by
  unfold State.die State.setDie; simp only [Tab.find_put]; split <;> rfl
@[simp] theorem State.blk_setWarp (m : Nat) (x : Warp) : (s.setWarp n x).blk m = s.blk m := rfl
@[simp] theorem State.launch_setWarp (m : Nat) (x : Warp) : (s.setWarp n x).launch m = s.launch m := rfl
@[simp] theorem State.ctx_setWarp (m : Nat) (x : Warp) : (s.setWarp n x).ctx m = s.ctx m := rfl
@[simp] theorem State.core_setWarp (m : Nat) (x : Warp) : (s.setWarp n x).core m = s.core m := rfl
@[simp] theorem State.die_setWarp (m : Nat) (x : Warp) : (s.setWarp n x).die m = s.die m := rfl
@[simp] theorem State.warp_setBlk (m : Nat) (x : Block) : (s.setBlk n x).warp m = s.warp m := rfl
@[simp] theorem State.launch_setBlk (m : Nat) (x : Block) : (s.setBlk n x).launch m = s.launch m := rfl
@[simp] theorem State.ctx_setBlk (m : Nat) (x : Block) : (s.setBlk n x).ctx m = s.ctx m := rfl
@[simp] theorem State.core_setBlk (m : Nat) (x : Block) : (s.setBlk n x).core m = s.core m := rfl
@[simp] theorem State.die_setBlk (m : Nat) (x : Block) : (s.setBlk n x).die m = s.die m := rfl
@[simp] theorem State.warp_setLaunch (m : Nat) (x : Launch) : (s.setLaunch n x).warp m = s.warp m := rfl
@[simp] theorem State.blk_setLaunch (m : Nat) (x : Launch) : (s.setLaunch n x).blk m = s.blk m := rfl
@[simp] theorem State.ctx_setLaunch (m : Nat) (x : Launch) : (s.setLaunch n x).ctx m = s.ctx m := rfl
@[simp] theorem State.core_setLaunch (m : Nat) (x : Launch) : (s.setLaunch n x).core m = s.core m := rfl
@[simp] theorem State.die_setLaunch (m : Nat) (x : Launch) : (s.setLaunch n x).die m = s.die m := rfl
@[simp] theorem State.warp_setCtx (m : Nat) (x : Ctx) : (s.setCtx n x).warp m = s.warp m := rfl
@[simp] theorem State.blk_setCtx (m : Nat) (x : Ctx) : (s.setCtx n x).blk m = s.blk m := rfl
@[simp] theorem State.launch_setCtx (m : Nat) (x : Ctx) : (s.setCtx n x).launch m = s.launch m := rfl
@[simp] theorem State.core_setCtx (m : Nat) (x : Ctx) : (s.setCtx n x).core m = s.core m := rfl
@[simp] theorem State.die_setCtx (m : Nat) (x : Ctx) : (s.setCtx n x).die m = s.die m := rfl
@[simp] theorem State.warp_setCore (m : Nat) (x : Core) : (s.setCore n x).warp m = s.warp m := rfl
@[simp] theorem State.blk_setCore (m : Nat) (x : Core) : (s.setCore n x).blk m = s.blk m := rfl
@[simp] theorem State.launch_setCore (m : Nat) (x : Core) : (s.setCore n x).launch m = s.launch m := rfl
@[simp] theorem State.ctx_setCore (m : Nat) (x : Core) : (s.setCore n x).ctx m = s.ctx m := rfl
@[simp] theorem State.die_setCore (m : Nat) (x : Core) : (s.setCore n x).die m = s.die m := rfl
@[simp] theorem State.warp_setDie (m : Nat) (x : Die) : (s.setDie n x).warp m = s.warp m := rfl
@[simp] theorem State.blk_setDie (m : Nat) (x : Die) : (s.setDie n x).blk m = s.blk m := rfl
@[simp] theorem State.launch_setDie (m : Nat) (x : Die) : (s.setDie n x).launch m = s.launch m := rfl
@[simp] theorem State.ctx_setDie (m : Nat) (x : Die) : (s.setDie n x).ctx m = s.ctx m := rfl
@[simp] theorem State.core_setDie (m : Nat) (x : Die) : (s.setDie n x).core m = s.core m := rfl
@[simp] theorem State.blk_modWarp (m : Nat) (g : Warp → Warp) : (s.modWarp n g).blk m = s.blk m := rfl
@[simp] theorem State.launch_modWarp (m : Nat) (g : Warp → Warp) : (s.modWarp n g).launch m = s.launch m := rfl
@[simp] theorem State.ctx_modWarp (m : Nat) (g : Warp → Warp) : (s.modWarp n g).ctx m = s.ctx m := rfl
@[simp] theorem State.core_modWarp (m : Nat) (g : Warp → Warp) : (s.modWarp n g).core m = s.core m := rfl
@[simp] theorem State.die_modWarp (m : Nat) (g : Warp → Warp) : (s.modWarp n g).die m = s.die m := rfl
@[simp] theorem State.warp_modBlk (m : Nat) (g : Block → Block) : (s.modBlk n g).warp m = s.warp m := rfl
@[simp] theorem State.launch_modBlk (m : Nat) (g : Block → Block) : (s.modBlk n g).launch m = s.launch m := rfl
@[simp] theorem State.ctx_modBlk (m : Nat) (g : Block → Block) : (s.modBlk n g).ctx m = s.ctx m := rfl
@[simp] theorem State.core_modBlk (m : Nat) (g : Block → Block) : (s.modBlk n g).core m = s.core m := rfl
@[simp] theorem State.die_modBlk (m : Nat) (g : Block → Block) : (s.modBlk n g).die m = s.die m := rfl
@[simp] theorem State.warp_modLaunch (m : Nat) (g : Launch → Launch) : (s.modLaunch n g).warp m = s.warp m := rfl
@[simp] theorem State.blk_modLaunch (m : Nat) (g : Launch → Launch) : (s.modLaunch n g).blk m = s.blk m := rfl
@[simp] theorem State.ctx_modLaunch (m : Nat) (g : Launch → Launch) : (s.modLaunch n g).ctx m = s.ctx m := rfl
@[simp] theorem State.core_modLaunch (m : Nat) (g : Launch → Launch) : (s.modLaunch n g).core m = s.core m := rfl
@[simp] theorem State.die_modLaunch (m : Nat) (g : Launch → Launch) : (s.modLaunch n g).die m = s.die m := rfl
@[simp] theorem State.warp_modCtx (m : Nat) (g : Ctx → Ctx) : (s.modCtx n g).warp m = s.warp m := rfl
@[simp] theorem State.blk_modCtx (m : Nat) (g : Ctx → Ctx) : (s.modCtx n g).blk m = s.blk m := rfl
@[simp] theorem State.launch_modCtx (m : Nat) (g : Ctx → Ctx) : (s.modCtx n g).launch m = s.launch m := rfl
@[simp] theorem State.core_modCtx (m : Nat) (g : Ctx → Ctx) : (s.modCtx n g).core m = s.core m := rfl
@[simp] theorem State.die_modCtx (m : Nat) (g : Ctx → Ctx) : (s.modCtx n g).die m = s.die m := rfl
@[simp] theorem State.warp_modCore (m : Nat) (g : Core → Core) : (s.modCore n g).warp m = s.warp m := rfl
@[simp] theorem State.blk_modCore (m : Nat) (g : Core → Core) : (s.modCore n g).blk m = s.blk m := rfl
@[simp] theorem State.launch_modCore (m : Nat) (g : Core → Core) : (s.modCore n g).launch m = s.launch m := rfl
@[simp] theorem State.ctx_modCore (m : Nat) (g : Core → Core) : (s.modCore n g).ctx m = s.ctx m := rfl
@[simp] theorem State.die_modCore (m : Nat) (g : Core → Core) : (s.modCore n g).die m = s.die m := rfl
@[simp] theorem State.warp_modDie (m : Nat) (g : Die → Die) : (s.modDie n g).warp m = s.warp m := rfl
@[simp] theorem State.blk_modDie (m : Nat) (g : Die → Die) : (s.modDie n g).blk m = s.blk m := rfl
@[simp] theorem State.launch_modDie (m : Nat) (g : Die → Die) : (s.modDie n g).launch m = s.launch m := rfl
@[simp] theorem State.ctx_modDie (m : Nat) (g : Die → Die) : (s.modDie n g).ctx m = s.ctx m := rfl
@[simp] theorem State.core_modDie (m : Nat) (g : Die → Die) : (s.modDie n g).core m = s.core m := rfl

/-! ### Parts that are changed where they exist -/

theorem Tab.find_modify {α : Type} (t : Tab α) (j k : Nat) (g : α → α) :
    Tab.find (Tab.modify t k g) j = if j = k then (Tab.find t k).map g else Tab.find t j := by
  unfold Tab.modify
  split
  · rename_i v h; rw [Tab.find_put]; split <;> simp [h]
  · rename_i h; split
    · rename_i e; rw [e, h]; rfl
    · rfl

/-- A warp that exists, changed. -/
theorem State.warp_modWarp_of (g : Warp → Warp) {W : Warp} (h : Tab.find s.warps n = some W) :
    (s.modWarp n g).warp n = g (s.warp n) := by
  simp [State.warp, State.modWarp, Tab.find_modify, h]
theorem State.warp_modWarp_ne (g : Warp → Warp) {m : Nat} (h : m ≠ n) : (s.modWarp n g).warp m = s.warp m := by
  simp [State.warp, State.modWarp, Tab.find_modify, h]
/-- A block that exists, changed. -/
theorem State.blk_modBlk_of (g : Block → Block) {B : Block} (h : Tab.find s.blocks n = some B) :
    (s.modBlk n g).blk n = g (s.blk n) := by
  simp [State.blk, State.modBlk, Tab.find_modify, h]
theorem State.blk_modBlk_ne (g : Block → Block) {m : Nat} (h : m ≠ n) : (s.modBlk n g).blk m = s.blk m := by
  simp [State.blk, State.modBlk, Tab.find_modify, h]
/-- A launch that exists, changed. -/
theorem State.launch_modLaunch_of (g : Launch → Launch) {L : Launch} (h : Tab.find s.launches n = some L) :
    (s.modLaunch n g).launch n = g (s.launch n) := by
  simp [State.launch, State.modLaunch, Tab.find_modify, h]
theorem State.launch_modLaunch_ne (g : Launch → Launch) {m : Nat} (h : m ≠ n) :
    (s.modLaunch n g).launch m = s.launch m := by
  simp [State.launch, State.modLaunch, Tab.find_modify, h]

/-- A warp with a fibre exists. -/
theorem State.warp_exists {k : Nat} {f : Fibre} (h : (s.warp n).fibre? k = some f) :
    Tab.find s.warps n = some (s.warp n) := by
  unfold State.warp at *
  cases e : Tab.find s.warps n with
  | none => rw [e] at h; simp [Warp.absent, Warp.fibre?] at h
  | some W => rfl

/-! ### Updates of one warp -/

section
variable (W : Warp)
@[simp] theorem Warp.addFlags_ctx (p : Flags) (q : BitVec 4) : (W.addFlags p q).ctx = W.ctx := rfl
@[simp] theorem Warp.addFlags_launch (p : Flags) (q : BitVec 4) : (W.addFlags p q).launch = W.launch := rfl
@[simp] theorem Warp.addFlags_blk (p : Flags) (q : BitVec 4) : (W.addFlags p q).blk = W.blk := rfl
@[simp] theorem Warp.addFlags_wid (p : Flags) (q : BitVec 4) : (W.addFlags p q).wid = W.wid := rfl
@[simp] theorem Warp.addFlags_kind (p : Flags) (q : BitVec 4) : (W.addFlags p q).kind = W.kind := rfl
@[simp] theorem Warp.addFlags_core (p : Flags) (q : BitVec 4) : (W.addFlags p q).core = W.core := rfl
@[simp] theorem Warp.addFlags_quarter (p : Flags) (q : BitVec 4) : (W.addFlags p q).quarter = W.quarter := rfl
@[simp] theorem Warp.addFlags_window (p : Flags) (q : BitVec 4) : (W.addFlags p q).window = W.window := rfl
@[simp] theorem Warp.addFlags_residence (p : Flags) (q : BitVec 4) : (W.addFlags p q).residence = W.residence := rfl
@[simp] theorem Warp.addFlags_fibres (p : Flags) (q : BitVec 4) : (W.addFlags p q).fibres = W.fibres := rfl
@[simp] theorem Warp.addFlags_segs (p : Flags) (q : BitVec 4) : (W.addFlags p q).segs = W.segs := rfl
@[simp] theorem Warp.addFlags_stack (p : Flags) (q : BitVec 4) : (W.addFlags p q).stack = W.stack := rfl
@[simp] theorem Warp.addFlags_monitor (p : Flags) (q : BitVec 4) : (W.addFlags p q).monitor = W.monitor := rfl
@[simp] theorem Warp.addFlags_queue (p : Flags) (q : BitVec 4) : (W.addFlags p q).queue = W.queue := rfl
@[simp] theorem Warp.addFlags_handlers (p : Flags) (q : BitVec 4) : (W.addFlags p q).handlers = W.handlers := rfl
@[simp] theorem Warp.addFlags_storeQ (p : Flags) (q : BitVec 4) : (W.addFlags p q).storeQ = W.storeQ := rfl
@[simp] theorem Warp.addFlags_loads (p : Flags) (q : BitVec 4) : (W.addFlags p q).loads = W.loads := rfl
@[simp] theorem Warp.addFlags_cpas (p : Flags) (q : BitVec 4) : (W.addFlags p q).cpas = W.cpas := rfl
@[simp] theorem Warp.addFlags_copies (p : Flags) (q : BitVec 4) : (W.addFlags p q).copies = W.copies := rfl
@[simp] theorem Warp.addFlags_image (p : Flags) (q : BitVec 4) : (W.addFlags p q).image = W.image := rfl
@[simp] theorem Warp.addFlags_faults (p : Flags) (q : BitVec 4) : (W.addFlags p q).faults = W.faults := rfl
@[simp] theorem Warp.addFlags_ended (p : Flags) (q : BitVec 4) : (W.addFlags p q).ended = W.ended := rfl
@[simp] theorem Warp.addFlags_sregs (p : Flags) (q : BitVec 4) : (W.addFlags p q).sregs = W.sregs := rfl
@[simp] theorem Warp.addFlags_cpreds (p : Flags) (q : BitVec 4) : (W.addFlags p q).cpreds = W.cpreds := rfl
@[simp] theorem Warp.addFlags_numctl (p : Flags) (q : BitVec 4) : (W.addFlags p q).numctl = W.numctl := rfl
@[simp] theorem Warp.setSreg_ctx (r v : Nat) : (W.setSreg r v).ctx = W.ctx := rfl
@[simp] theorem Warp.setSreg_launch (r v : Nat) : (W.setSreg r v).launch = W.launch := rfl
@[simp] theorem Warp.setSreg_blk (r v : Nat) : (W.setSreg r v).blk = W.blk := rfl
@[simp] theorem Warp.setSreg_wid (r v : Nat) : (W.setSreg r v).wid = W.wid := rfl
@[simp] theorem Warp.setSreg_kind (r v : Nat) : (W.setSreg r v).kind = W.kind := rfl
@[simp] theorem Warp.setSreg_core (r v : Nat) : (W.setSreg r v).core = W.core := rfl
@[simp] theorem Warp.setSreg_quarter (r v : Nat) : (W.setSreg r v).quarter = W.quarter := rfl
@[simp] theorem Warp.setSreg_window (r v : Nat) : (W.setSreg r v).window = W.window := rfl
@[simp] theorem Warp.setSreg_residence (r v : Nat) : (W.setSreg r v).residence = W.residence := rfl
@[simp] theorem Warp.setSreg_fibres (r v : Nat) : (W.setSreg r v).fibres = W.fibres := rfl
@[simp] theorem Warp.setSreg_segs (r v : Nat) : (W.setSreg r v).segs = W.segs := rfl
@[simp] theorem Warp.setSreg_stack (r v : Nat) : (W.setSreg r v).stack = W.stack := rfl
@[simp] theorem Warp.setSreg_monitor (r v : Nat) : (W.setSreg r v).monitor = W.monitor := rfl
@[simp] theorem Warp.setSreg_queue (r v : Nat) : (W.setSreg r v).queue = W.queue := rfl
@[simp] theorem Warp.setSreg_handlers (r v : Nat) : (W.setSreg r v).handlers = W.handlers := rfl
@[simp] theorem Warp.setSreg_storeQ (r v : Nat) : (W.setSreg r v).storeQ = W.storeQ := rfl
@[simp] theorem Warp.setSreg_loads (r v : Nat) : (W.setSreg r v).loads = W.loads := rfl
@[simp] theorem Warp.setSreg_cpas (r v : Nat) : (W.setSreg r v).cpas = W.cpas := rfl
@[simp] theorem Warp.setSreg_copies (r v : Nat) : (W.setSreg r v).copies = W.copies := rfl
@[simp] theorem Warp.setSreg_image (r v : Nat) : (W.setSreg r v).image = W.image := rfl
@[simp] theorem Warp.setSreg_faults (r v : Nat) : (W.setSreg r v).faults = W.faults := rfl
@[simp] theorem Warp.setSreg_ended (r v : Nat) : (W.setSreg r v).ended = W.ended := rfl
@[simp] theorem Warp.setSreg_cpreds (r v : Nat) : (W.setSreg r v).cpreds = W.cpreds := rfl
@[simp] theorem Warp.setSreg_fpflags (r v : Nat) : (W.setSreg r v).fpflags = W.fpflags := rfl
@[simp] theorem Warp.setSreg_numflags (r v : Nat) : (W.setSreg r v).numflags = W.numflags := rfl
@[simp] theorem Warp.setSreg_numctl (r v : Nat) : (W.setSreg r v).numctl = W.numctl := rfl
@[simp] theorem Warp.setCpred_ctx (c : Pred) (b : Bool) : (W.setCpred c b).ctx = W.ctx := by
  unfold Warp.setCpred; split <;> rfl
@[simp] theorem Warp.setCpred_launch (c : Pred) (b : Bool) : (W.setCpred c b).launch = W.launch := by
  unfold Warp.setCpred; split <;> rfl
@[simp] theorem Warp.setCpred_blk (c : Pred) (b : Bool) : (W.setCpred c b).blk = W.blk := by
  unfold Warp.setCpred; split <;> rfl
@[simp] theorem Warp.setCpred_wid (c : Pred) (b : Bool) : (W.setCpred c b).wid = W.wid := by
  unfold Warp.setCpred; split <;> rfl
@[simp] theorem Warp.setCpred_kind (c : Pred) (b : Bool) : (W.setCpred c b).kind = W.kind := by
  unfold Warp.setCpred; split <;> rfl
@[simp] theorem Warp.setCpred_core (c : Pred) (b : Bool) : (W.setCpred c b).core = W.core := by
  unfold Warp.setCpred; split <;> rfl
@[simp] theorem Warp.setCpred_quarter (c : Pred) (b : Bool) : (W.setCpred c b).quarter = W.quarter := by
  unfold Warp.setCpred; split <;> rfl
@[simp] theorem Warp.setCpred_window (c : Pred) (b : Bool) : (W.setCpred c b).window = W.window := by
  unfold Warp.setCpred; split <;> rfl
@[simp] theorem Warp.setCpred_residence (c : Pred) (b : Bool) : (W.setCpred c b).residence = W.residence := by
  unfold Warp.setCpred; split <;> rfl
@[simp] theorem Warp.setCpred_fibres (c : Pred) (b : Bool) : (W.setCpred c b).fibres = W.fibres := by
  unfold Warp.setCpred; split <;> rfl
@[simp] theorem Warp.setCpred_segs (c : Pred) (b : Bool) : (W.setCpred c b).segs = W.segs := by
  unfold Warp.setCpred; split <;> rfl
@[simp] theorem Warp.setCpred_stack (c : Pred) (b : Bool) : (W.setCpred c b).stack = W.stack := by
  unfold Warp.setCpred; split <;> rfl
@[simp] theorem Warp.setCpred_monitor (c : Pred) (b : Bool) : (W.setCpred c b).monitor = W.monitor := by
  unfold Warp.setCpred; split <;> rfl
@[simp] theorem Warp.setCpred_queue (c : Pred) (b : Bool) : (W.setCpred c b).queue = W.queue := by
  unfold Warp.setCpred; split <;> rfl
@[simp] theorem Warp.setCpred_handlers (c : Pred) (b : Bool) : (W.setCpred c b).handlers = W.handlers := by
  unfold Warp.setCpred; split <;> rfl
@[simp] theorem Warp.setCpred_storeQ (c : Pred) (b : Bool) : (W.setCpred c b).storeQ = W.storeQ := by
  unfold Warp.setCpred; split <;> rfl
@[simp] theorem Warp.setCpred_loads (c : Pred) (b : Bool) : (W.setCpred c b).loads = W.loads := by
  unfold Warp.setCpred; split <;> rfl
@[simp] theorem Warp.setCpred_cpas (c : Pred) (b : Bool) : (W.setCpred c b).cpas = W.cpas := by
  unfold Warp.setCpred; split <;> rfl
@[simp] theorem Warp.setCpred_copies (c : Pred) (b : Bool) : (W.setCpred c b).copies = W.copies := by
  unfold Warp.setCpred; split <;> rfl
@[simp] theorem Warp.setCpred_image (c : Pred) (b : Bool) : (W.setCpred c b).image = W.image := by
  unfold Warp.setCpred; split <;> rfl
@[simp] theorem Warp.setCpred_faults (c : Pred) (b : Bool) : (W.setCpred c b).faults = W.faults := by
  unfold Warp.setCpred; split <;> rfl
@[simp] theorem Warp.setCpred_ended (c : Pred) (b : Bool) : (W.setCpred c b).ended = W.ended := by
  unfold Warp.setCpred; split <;> rfl
@[simp] theorem Warp.setCpred_sregs (c : Pred) (b : Bool) : (W.setCpred c b).sregs = W.sregs := by
  unfold Warp.setCpred; split <;> rfl
@[simp] theorem Warp.setCpred_fpflags (c : Pred) (b : Bool) : (W.setCpred c b).fpflags = W.fpflags := by
  unfold Warp.setCpred; split <;> rfl
@[simp] theorem Warp.setCpred_numflags (c : Pred) (b : Bool) : (W.setCpred c b).numflags = W.numflags := by
  unfold Warp.setCpred; split <;> rfl
@[simp] theorem Warp.setCpred_numctl (c : Pred) (b : Bool) : (W.setCpred c b).numctl = W.numctl := by
  unfold Warp.setCpred; split <;> rfl
@[simp] theorem Warp.setSval_ctx (w : Bool) (r v : Nat) : (W.setSval w r v).ctx = W.ctx := by
  cases w <;> rfl
@[simp] theorem Warp.setSval_launch (w : Bool) (r v : Nat) : (W.setSval w r v).launch = W.launch := by
  cases w <;> rfl
@[simp] theorem Warp.setSval_blk (w : Bool) (r v : Nat) : (W.setSval w r v).blk = W.blk := by
  cases w <;> rfl
@[simp] theorem Warp.setSval_wid (w : Bool) (r v : Nat) : (W.setSval w r v).wid = W.wid := by
  cases w <;> rfl
@[simp] theorem Warp.setSval_kind (w : Bool) (r v : Nat) : (W.setSval w r v).kind = W.kind := by
  cases w <;> rfl
@[simp] theorem Warp.setSval_core (w : Bool) (r v : Nat) : (W.setSval w r v).core = W.core := by
  cases w <;> rfl
@[simp] theorem Warp.setSval_quarter (w : Bool) (r v : Nat) : (W.setSval w r v).quarter = W.quarter := by
  cases w <;> rfl
@[simp] theorem Warp.setSval_window (w : Bool) (r v : Nat) : (W.setSval w r v).window = W.window := by
  cases w <;> rfl
@[simp] theorem Warp.setSval_residence (w : Bool) (r v : Nat) : (W.setSval w r v).residence = W.residence := by
  cases w <;> rfl
@[simp] theorem Warp.setSval_fibres (w : Bool) (r v : Nat) : (W.setSval w r v).fibres = W.fibres := by
  cases w <;> rfl
@[simp] theorem Warp.setSval_segs (w : Bool) (r v : Nat) : (W.setSval w r v).segs = W.segs := by
  cases w <;> rfl
@[simp] theorem Warp.setSval_stack (w : Bool) (r v : Nat) : (W.setSval w r v).stack = W.stack := by
  cases w <;> rfl
@[simp] theorem Warp.setSval_monitor (w : Bool) (r v : Nat) : (W.setSval w r v).monitor = W.monitor := by
  cases w <;> rfl
@[simp] theorem Warp.setSval_queue (w : Bool) (r v : Nat) : (W.setSval w r v).queue = W.queue := by
  cases w <;> rfl
@[simp] theorem Warp.setSval_handlers (w : Bool) (r v : Nat) : (W.setSval w r v).handlers = W.handlers := by
  cases w <;> rfl
@[simp] theorem Warp.setSval_storeQ (w : Bool) (r v : Nat) : (W.setSval w r v).storeQ = W.storeQ := by
  cases w <;> rfl
@[simp] theorem Warp.setSval_loads (w : Bool) (r v : Nat) : (W.setSval w r v).loads = W.loads := by
  cases w <;> rfl
@[simp] theorem Warp.setSval_cpas (w : Bool) (r v : Nat) : (W.setSval w r v).cpas = W.cpas := by
  cases w <;> rfl
@[simp] theorem Warp.setSval_copies (w : Bool) (r v : Nat) : (W.setSval w r v).copies = W.copies := by
  cases w <;> rfl
@[simp] theorem Warp.setSval_image (w : Bool) (r v : Nat) : (W.setSval w r v).image = W.image := by
  cases w <;> rfl
@[simp] theorem Warp.setSval_faults (w : Bool) (r v : Nat) : (W.setSval w r v).faults = W.faults := by
  cases w <;> rfl
@[simp] theorem Warp.setSval_ended (w : Bool) (r v : Nat) : (W.setSval w r v).ended = W.ended := by
  cases w <;> rfl
@[simp] theorem Warp.setSval_cpreds (w : Bool) (r v : Nat) : (W.setSval w r v).cpreds = W.cpreds := by
  cases w <;> rfl
@[simp] theorem Warp.setSval_fpflags (w : Bool) (r v : Nat) : (W.setSval w r v).fpflags = W.fpflags := by
  cases w <;> rfl
@[simp] theorem Warp.setSval_numflags (w : Bool) (r v : Nat) : (W.setSval w r v).numflags = W.numflags := by
  cases w <;> rfl
@[simp] theorem Warp.setSval_numctl (w : Bool) (r v : Nat) : (W.setSval w r v).numctl = W.numctl := by
  cases w <;> rfl
end

end Sys2Proof.Machine
end

