-- ==== Sys2Proof/Laws/Ends.lean ====
section
/-! SUPPORT. Laws of the common end of an instruction: what `finish` does when every fibre of the group completes, and what
the shared forms of lane and uniform instructions come to. -/
namespace Sys2Proof.Machine
-- One theorem after another: theorems elaborated side by side take a thread and its stack each, past the memory a check allows.
set_option Elab.async false

/-! ### Counters -/

/-- Only the counters of cores differ. -/
def CountersOnly (s t : State) : Prop :=
  t = { s with cores := t.cores } ∧ ∀ n, t.core n = { s.core n with banks := (t.core n).banks }

theorem CountersOnly.refl (s : State) : CountersOnly s s := ⟨rfl, fun _ => rfl⟩

theorem CountersOnly.trans {s t u : State} (h : CountersOnly s t) (g : CountersOnly t u) : CountersOnly s u := by
  refine ⟨?_, fun n => ?_⟩
  · rw [g.1, h.1]
  · have a := g.2 n; rw [h.2 n] at a; exact a

theorem count_counters (s : State) (c core code n : Nat) : CountersOnly s (count s c core code n) := by
  unfold count
  simp only
  split
  · exact .refl s
  · refine ⟨rfl, fun m => ?_⟩
    simp only [State.modCore, State.core_setCore]
    split
    · rename_i h; subst h; rfl
    · rfl

theorem countEvents_counters (s : State) (c core : Nat) (rs : List FibreRes) :
    CountersOnly s (countEvents s c core rs) := by
  unfold countEvents
  split
  · exact .refl s
  · have h : ∀ (l : List Nat) (t : State), CountersOnly t (l.foldl (fun s i =>
        count s c core (0x40 + i) (rs.filter fun r => r.num.getLsbD i).length) t) := by
      intro l
      induction l with
      | nil => exact fun t => .refl t
      | cons i l ih => exact fun t => (count_counters t _ _ _ _).trans (ih _)
    exact h _ s

/-! ### Results by slot -/

theorem insertRes_perm (r : FibreRes) : ∀ l : List FibreRes, (insertRes r l).Perm (r :: l)
  | [] => .refl _
  | x :: t => by
    unfold insertRes
    split
    · exact .refl _
    · exact ((insertRes_perm r t).cons x).trans (.swap r x t)

theorem insertAll_perm (rs : List FibreRes) : ∀ a : List FibreRes,
    (rs.foldl (fun a r => insertRes r a) a).Perm (a ++ rs) := by
  induction rs with
  | nil => intro a; simp
  | cons r t ih =>
    intro a
    refine (ih _).trans (((insertRes_perm r a).append_right t).trans ?_)
    exact (List.perm_middle (l₁ := a) (a := r) (l₂ := t)).symm

/-- Results by slot are the same results. -/
theorem bySlot_perm (rs : List FibreRes) : (bySlot rs).Perm rs := insertAll_perm rs []

/-- No slot is lower than one before it. -/
def Rising (l : List FibreRes) : Prop := l.Pairwise fun x y => x.slot ≤ y.slot

theorem insertRes_rising (r : FibreRes) : ∀ l : List FibreRes, Rising l → Rising (insertRes r l)
  | [], _ => List.pairwise_singleton _ _
  | x :: t, h => by
    have hx := List.pairwise_cons.1 h
    unfold insertRes
    split
    · rename_i lt
      refine List.pairwise_cons.2 ⟨fun y hy => ?_, h⟩
      rcases List.mem_cons.1 hy with e | hy
      · rw [e]; exact Nat.le_of_lt lt
      · exact Nat.le_trans (Nat.le_of_lt lt) (hx.1 y hy)
    · rename_i ge
      refine List.pairwise_cons.2 ⟨fun y hy => ?_, insertRes_rising r t hx.2⟩
      rcases List.mem_cons.1 ((insertRes_perm r t).mem_iff.1 hy) with e | hy
      · rw [e]; omega
      · exact hx.1 y hy

theorem insertRes_find (r : FibreRes) (k : Nat) : ∀ l : List FibreRes, Rising l →
    (insertRes r l).find? (fun x => x.slot == k) = (l ++ [r]).find? (fun x => x.slot == k)
  | [], _ => rfl
  | x :: t, h => by
    have hx := List.pairwise_cons.1 h
    unfold insertRes
    split
    · rename_i lt
      by_cases e : r.slot = k
      · have none : (x :: t).find? (fun x => x.slot == k) = none := by
          refine List.find?_eq_none.2 fun y hy => ?_
          have : r.slot < y.slot := by
            rcases List.mem_cons.1 hy with e | hy
            · rw [e]; exact lt
            · exact Nat.lt_of_lt_of_le lt (hx.1 y hy)
          simp; omega
        rw [List.find?_append, none]
        simp [e]
      · rw [List.find?_append, List.find?_cons_of_neg (by simpa using e)]
        simp [e]
    · rw [List.cons_append, List.find?_cons, List.find?_cons, insertRes_find r k t hx.2]

theorem insertAll_find (k : Nat) (rs : List FibreRes) : ∀ a : List FibreRes, Rising a →
    (rs.foldl (fun a r => insertRes r a) a).find? (fun x => x.slot == k) = (a ++ rs).find? (fun x => x.slot == k) := by
  induction rs with
  | nil => intro a _; simp
  | cons r t ih =>
    intro a h
    rw [List.foldl_cons, ih _ (insertRes_rising r a h), List.find?_append, insertRes_find r k a h, ← List.find?_append]
    simp

/-- The result of a slot is the same among results by slot. -/
theorem bySlot_find (rs : List FibreRes) (k : Nat) :
    (bySlot rs).find? (fun x => x.slot == k) = rs.find? (fun x => x.slot == k) :=
  insertAll_find k rs [] List.Pairwise.nil

theorem fibreAfter_bySlot (i : Instr) (c : Issue) (n : Nat) (rs : List FibreRes) :
    fibreAfter i c n (bySlot rs) = fibreAfter i c n rs := by
  funext f; unfold fibreAfter; rw [bySlot_find]

/-! ### `finish` when every fibre completes -/

/-- Results all of which complete, each for its own slot. -/
def AllDone (rs : List FibreRes) : Prop := ∀ r ∈ rs, ∃ g, r.fin = .done g ∧ g.slot = r.slot

theorem AllDone.bySlot {rs : List FibreRes} (h : AllDone rs) : AllDone (bySlot rs) :=
  fun r hr => h r ((bySlot_perm rs).mem_iff.1 hr)

theorem AllDone.whole {rs : List FibreRes} (h : AllDone rs) : rs.filter FibreRes.whole = rs :=
  List.filter_eq_self.2 fun r hr => by obtain ⟨g, hg, _⟩ := h r hr; simp [FibreRes.whole, hg]

theorem AllDone.gone {rs : List FibreRes} (h : AllDone rs) (s : State) (w : Nat) : endGone s w rs = s := by
  have e : (rs.filter fun r => r.fin == .gone) = [] :=
    List.filter_eq_nil_iff.2 fun r hr => by obtain ⟨g, hg, _⟩ := h r hr; simp [hg]
  simp [endGone, e]

theorem AllDone.soft {rs : List FibreRes} (h : AllDone rs) : rs.findSome? FibreRes.softError = none :=
  List.findSome?_eq_none_iff.2 fun r hr => by obtain ⟨g, hg, _⟩ := h r hr; simp [FibreRes.softError, hg]

theorem AllDone.blockRecs {rs : List FibreRes} (h : AllDone rs) (s : State) (W : Warp) (pc : VAddr) :
    blockRecs s W pc rs = [] := by
  unfold Machine.blockRecs
  generalize ([] : List FaultRec) = a
  induction rs generalizing a with
  | nil => rfl
  | cons r rs ih =>
    obtain ⟨g, hg, _⟩ := h r (List.mem_cons_self ..)
    simp only [List.foldl_cons, hg]
    exact ih (fun q hq => h q (List.mem_cons_of_mem _ hq)) a

theorem eventCode_zero : eventCode 0 = none := by decide

theorem trapEvents_none (s : State) (W : Warp) (e : BitVec 4) (nt : (s.launch W.launch).lrec.numTraps = false) :
    eventCode (trapEvents s W e) = none := by
  unfold trapEvents; rw [nt]; exact eventCode_zero

theorem AllDone.userRaises {rs : List FibreRes} (h : AllDone rs) (s : State) (W : Warp) (pc : VAddr)
    (nt : (s.launch W.launch).lrec.numTraps = false) : userRaises s W pc rs = [] := by
  unfold Machine.userRaises
  generalize ([] : List Raise) = a
  induction rs generalizing a with
  | nil => rfl
  | cons r rs ih =>
    obtain ⟨g, hg, _⟩ := h r (List.mem_cons_self ..)
    have := ih (fun q hq => h q (List.mem_cons_of_mem _ hq)) a
    simp only [List.foldl_cons, hg, trapEvents_none s W _ nt] at this ⊢
    cases g.status <;> exact this

theorem AllDone.owed {rs : List FibreRes} (h : AllDone rs) (s : State) (W : Warp) (c : Issue)
    (nt : (s.launch W.launch).lrec.numTraps = false) : owedTraps s W c rs = [] := by
  refine List.filterMap_eq_nil_iff.2 fun r hr => ?_
  obtain ⟨g, hg, _⟩ := h r hr
  simp only [hg, trapEvents_none s W _ nt]
  cases g.status <;> rfl

theorem AllDone.stage {rs : List FibreRes} (h : AllDone rs) (s : State) (W : Warp) : countStage s W rs = s := by
  have e : (rs.any fun r => r.fin == .stop (.wait .stage)) = false := by
    refine List.any_eq_false.2 fun r hr => ?_
    obtain ⟨g, hg, _⟩ := h r hr
    simp [hg]
  simp only [countStage, e, Bool.false_and, Bool.false_eq_true, if_false]

/-- Nothing is diverted when every fibre completes and no numeric trap is enabled. -/
theorem AllDone.divert {rs : List FibreRes} (h : AllDone rs) (s : State) (c : Issue) (V : Warp)
    (nt : (s.launch V.launch).lrec.numTraps = false) : divert s c V rs = s := by
  unfold Machine.divert
  simp only [h.userRaises s V c.pc nt, h.blockRecs, h.soft]
  rfl

/-- The flags and events of results. -/
def resFlags (rs : List FibreRes) : Flags := rs.foldl (fun a r => a ||| r.fp) 0
def resEvents (rs : List FibreRes) : BitVec 4 := rs.foldl (fun a r => a ||| r.num) 0

theorem resFlags_bySlot (rs : List FibreRes) : resFlags (bySlot rs) = resFlags rs :=
  (bySlot_perm rs).foldl_eq' (fun x _ y _ z => by rw [BitVec.or_assoc, BitVec.or_comm x.fp, ← BitVec.or_assoc]) 0
theorem resEvents_bySlot (rs : List FibreRes) : resEvents (bySlot rs) = resEvents rs :=
  (bySlot_perm rs).foldl_eq' (fun x _ y _ z => by rw [BitVec.or_assoc, BitVec.or_comm x.num, ← BitVec.or_assoc]) 0

/-- What `finish` comes to when every fibre completes and no numeric trap is enabled. -/
theorem finish_done (s : State) (i : Instr) (c : Issue) (rs : List FibreRes) (h : AllDone rs) (nt : NoNumTraps s c) :
    CountersOnly ({ s with next := s.next + 1 }.setWarp c.warp (warpAfter (s.warp c.warp) i c s.next (bySlot rs)))
      (finish s i c rs) := by
  have g := h.bySlot
  have o : owedTraps s (warpAfter (s.warp c.warp) i c s.next (bySlot rs)) c (bySlot rs) = [] := g.owed s _ c nt
  have k := countEvents_counters
    (({ s with next := s.next + 1 } : State).setWarp c.warp (warpAfter (s.warp c.warp) i c s.next (bySlot rs)))
    (warpAfter (s.warp c.warp) i c s.next (bySlot rs)).ctx (warpAfter (s.warp c.warp) i c s.next (bySlot rs)).core
    ((bySlot rs).filter FibreRes.whole)
  unfold finish
  simp only [o, List.append_nil, g.gone, g.stage]
  rw [g.divert]
  · exact k
  · have e : ∀ t u : State, CountersOnly t u → ∀ l, u.launch l = t.launch l := fun t u j l => by rw [j.1]; rfl
    rw [e _ _ k]
    exact nt

/-! ### Fibres after an instruction -/

theorem fibreAfter_slot {rs : List FibreRes} (h : AllDone rs) (i : Instr) (c : Issue) (n : Nat) (f : Fibre) :
    (fibreAfter i c n rs f).slot = f.slot := by
  unfold fibreAfter
  cases e : rs.find? (fun r => r.slot == f.slot) with
  | none => rfl
  | some r =>
    obtain ⟨g, hg, hs⟩ := h r (List.mem_of_find?_eq_some e)
    have := List.find?_some e
    simp only [hg]
    rw [hs]
    simpa using this

/-- A fibre found after its warp's fibres are changed without a change of slots. -/
theorem find_map_slot (fs : List Fibre) (g : Fibre → Fibre) (h : ∀ f, (g f).slot = f.slot) (k : Nat) :
    (fs.map g).find? (fun f => f.slot == k) = (fs.find? (fun f => f.slot == k)).map g := by
  rw [List.find?_map]
  congr 1
  exact congrArg (fun p => fs.find? p) (funext fun f => by simp [h])

/-- `finish` as `Ends` says it, when the results give each fibre of the group what `after` makes of it. -/
theorem finish_ends (s : State) (i : Instr) (c : Issue) (rs : List FibreRes) (after : Fibre → Fibre) (h : AllDone rs)
    (nt : NoNumTraps s c)
    (ha : ∀ k f, (s.warp c.warp).fibre? k = some f →
      fibreAfter i c s.next rs f = if c.group.contains k then after f else f) :
    Ends s c after (resFlags rs) (resEvents rs) (finish s i c rs) := by
  obtain ⟨k1, k2⟩ := finish_done s i c rs h nt
  have hw : (finish s i c rs).warp c.warp = warpAfter (s.warp c.warp) i c s.next (bySlot rs) := by
    rw [k1]; exact (State.warp_setWarp _ _ _ _).trans (if_pos rfl)
  refine ⟨?_, ?_, ?_, ?_, ?_, ?_⟩
  · rw [k1]; rfl
  · intro n; exact k2 n
  · intro a; rw [k1]; rfl
  · intro v hv; rw [k1]; exact Tab.find_put_ne _ _ hv
  · rw [hw, ← resFlags_bySlot, ← resEvents_bySlot]; simp only [warpAfter, h.bySlot.whole]; rfl
  · intro j
    rw [hw]
    show ((s.warp c.warp).fibres.map (fibreAfter i c s.next (bySlot rs))).find? _ = _
    rw [fibreAfter_bySlot]
    rw [find_map_slot _ _ (fibreAfter_slot h i c s.next)]
    cases e : (s.warp c.warp).fibre? j with
    | none => simp only [Warp.fibre?] at e; rw [e]; rfl
    | some f =>
      have := ha j f e
      simp only [Warp.fibre?] at e; rw [e]
      simp [this]

end Sys2Proof.Machine
end

