-- ==== Sys2Proof/Laws/Forms.lean ====
section
/-! SUPPORT. What the shared forms of instructions come to: register instructions of the lane set, instructions of one fibre
that reach shared state, uniform instructions and Foreman words. -/
namespace Sys2Proof.Machine
-- One theorem after another: theorems elaborated side by side take a thread and its stack each, past the memory a check allows.
set_option Elab.async false

/-! ### The results of a group -/

theorem groupOf_find (W : Warp) (c : Issue) (k : Nat) :
    (groupOf W c).find? (fun f => f.slot == k) = if c.group.contains k then W.fibre? k else none := by
  unfold groupOf Warp.fibre?
  rw [List.find?_filter]
  by_cases h : k ∈ c.group
  · rw [if_pos (List.contains_iff_mem.2 h)]
    congr 1; funext f
    by_cases e : f.slot = k
    · subst e; simp [h]
    · simp [e]
  · rw [if_neg (fun g => h (List.contains_iff_mem.1 g))]
    refine List.find?_eq_none.2 fun f _ => ?_
    by_cases e : f.slot = k
    · subst e; simp [h]
    · simp [e]

/-- The result that a group's fibre of slot k has. -/
theorem results_find (W : Warp) (c : Issue) (k : Nat) (step : Fibre → FibreRes) (h : ∀ f, (step f).slot = f.slot) :
    ((groupOf W c).map step).find? (fun r => r.slot == k)
      = if c.group.contains k then (W.fibre? k).map step else none := by
  rw [List.find?_map]
  have : ((fun r => r.slot == k) ∘ step) = fun f : Fibre => f.slot == k := funext fun f => by simp [h]
  rw [this, groupOf_find]
  split <;> rfl

theorem fibre_slot {W : Warp} {k : Nat} {f : Fibre} (h : W.fibre? k = some f) : f.slot = k := by
  simpa using List.find?_some h

/-- Status of a fibre after an instruction that it completes. -/
theorem endWait_match (x : Status) : (match x with | .waiting _ => Status.ready | x => x) = endWait x := by
  cases x <;> rfl

/-- How `fibreAfter` reads results made fibre by fibre. -/
theorem fibreAfter_results (W : Warp) (i : Instr) (c : Issue) (n k : Nat) (step : Fibre → FibreRes) (g : Fibre → Fibre)
    (hs : ∀ f, (step f).slot = f.slot) (hd : ∀ f, (step f).fin = .done (g f)) {f : Fibre} (h : W.fibre? k = some f) :
    fibreAfter i c n ((groupOf W c).map step) f
      = if c.group.contains k then { g f with status := endWait (g f).status } else f := by
  have hk := fibre_slot h
  unfold fibreAfter
  rw [hk, results_find W c k step hs, h]
  by_cases e : c.group.contains k = true
  · simp only [e, if_true, Option.map_some, hd]
    cases (g f).status <;> rfl
  · simp only [e, Bool.false_eq_true, if_false]

/-- `finish` on results made fibre by fibre from the group itself. -/
theorem finish_map (s : State) (i : Instr) (c : Issue) (step : Fibre → FibreRes) (g : Fibre → Fibre)
    (hs : ∀ f, (step f).slot = f.slot) (hd : ∀ f, (step f).fin = .done (g f)) (hg : ∀ f, (g f).slot = f.slot)
    (nt : NoNumTraps s c) :
    Ends s c (fun f => { g f with status := endWait (g f).status })
      (resFlags ((groupOf (s.warp c.warp) c).map step)) (resEvents ((groupOf (s.warp c.warp) c).map step))
      (finish s i c ((groupOf (s.warp c.warp) c).map step)) := by
  refine finish_ends s i c _ _ ?_ nt ?_
  · intro r hr
    obtain ⟨f, -, rfl⟩ := List.mem_map.1 hr
    exact ⟨g f, hd f, by rw [hs, hg]⟩
  · intro k f h
    exact fibreAfter_results (s.warp c.warp) i c s.next k step g hs hd h

/-! ### Loads in flight (R255) -/

/-- An instruction none of whose registers a load in flight is still to write does what it does. -/
theorem afterLoads_goes (i : Instr) (c : Issue) (lane uni : List (Nat × Nat)) (s : State) (go : State → State)
    (h : loadsHold (s.warp c.warp) c.group lane uni = false) : afterLoads i c lane uni s go = go s := by
  unfold afterLoads; rw [h]; rfl

/-- Otherwise it waits. -/
theorem afterLoads_waits (i : Instr) (c : Issue) (lane uni : List (Nat × Nat)) (s : State) (go : State → State)
    (h : loadsHold (s.warp c.warp) c.group lane uni = true) :
    afterLoads i c lane uni s go = waitLoads i c lane uni s := by
  unfold afterLoads; rw [h]; rfl

/-- Loads hold back nothing that names no register. -/
@[simp] theorem loadsHold_nil (W : Warp) (slots : List Nat) : loadsHold W slots [] [] = false := by
  unfold loadsHold
  refine List.any_eq_false.2 fun p _ => ?_
  cases p.slot <;> simp [inRuns]

/-- Registers that none names are usable. -/
theorem usable_nil (s : State) (c : Issue) : Usable s c [] := ⟨rfl, loadsHold_nil _ _⟩

/-! ### Register instructions of the lane set (R197, R199) -/

theorem laneStep_slot (e : LaneEnv) (us : List RegUse) (op : LaneEnv → Fibre → LaneOut) (f : Fibre) :
    (laneStep e us op f).slot = f.slot := by
  unfold laneStep
  simp only
  split
  · rfl
  · split <;> rfl

/-- A register instruction whose operands lie in the window completes for its whole group. -/
theorem lanePure_ends (x : Lx) (us : List RegUse) (op : LaneEnv → Fibre → LaneOut) (s : State) (c : Issue)
    (hc : s.cur = some c) (nt : NoNumTraps s c) (hu : Usable s c us) :
    ∃ t, lanePure x us op s = .next t
      ∧ Ends s c (laneAfter (laneEnv s c x) op) (laneFlags s c x op) (laneEvents s c x op) t := by
  refine ⟨_, by unfold lanePure; simp only [hc]; rw [afterLoads_goes _ _ _ _ _ _ hu.written], ?_⟩
  have hw : (laneEnv s c x).warp.window = (s.warp c.warp).window := rfl
  have hx : (laneEnv s c x).x = x := rfl
  have step : ∀ f, laneStep (laneEnv s c x) us op f
      = if (guardOf x f).1 then
          ⟨f.slot, .done { f.advance (laneEnv s c x).next with lanes := (op (laneEnv s c x) f).lanes },
            (op (laneEnv s c x) f).fp, (op (laneEnv s c x) f).num ||| guardEvent (guardOf x f).2⟩
        else ⟨f.slot, .done (f.skip (laneEnv s c x).next), 0, guardEvent (guardOf x f).2⟩ := by
    intro f
    unfold laneStep
    simp only [hw, hx, hu.inWindow]
    cases (guardOf x f).1 <;> rfl
  have key := finish_map s (.nop x) c (laneStep (laneEnv s c x) us op)
    (fun f => if (guardOf x f).1 then { f.advance (laneEnv s c x).next with lanes := (op (laneEnv s c x) f).lanes }
      else f.skip (laneEnv s c x).next)
    (laneStep_slot _ us op) (fun f => by rw [step]; split <;> rfl) (fun f => by split <;> rfl) nt
  have hfp : resFlags ((groupOf (s.warp c.warp) c).map (laneStep (laneEnv s c x) us op)) = laneFlags s c x op := by
    unfold resFlags laneFlags
    rw [List.foldl_map]
    congr 1; funext a f; rw [step]; split <;> rfl
  have hnum : resEvents ((groupOf (s.warp c.warp) c).map (laneStep (laneEnv s c x) us op)) = laneEvents s c x op := by
    unfold resEvents laneEvents
    rw [List.foldl_map]
    congr 1; funext a f; rw [step]; split <;> rfl
  rw [hfp, hnum] at key
  have hl : laneAfter (laneEnv s c x) op = fun f =>
      let g := if (guardOf x f).1 then { f.advance (laneEnv s c x).next with lanes := (op (laneEnv s c x) f).lanes }
        else f.skip (laneEnv s c x).next
      { g with status := endWait g.status } := by
    funext f
    unfold laneAfter
    rw [hx]
    split <;> rfl
  rw [hl]
  exact key

/-- The form in which the statements say it. -/
theorem laneDoes_of (i : Instr) (x : Lx) (us : List RegUse) (op out : LaneEnv → Fibre → LaneOut)
    (hi : ∀ s, exec i s = lanePure x us op s) (ho : op = out) : LaneDoes i x us out := by
  subst ho
  intro s c hc nt hu
  obtain ⟨t, h, e⟩ := lanePure_ends x us op s c hc nt hu
  exact ⟨t, (hi s).trans h, e⟩

/-! ### One fibre alone -/

/-- Only one fibre's result: `finish` when it completes. -/
theorem finish_one (s : State) (i : Instr) (c : Issue) (x : FibreRes) (g : Fibre) (hd : x.fin = .done g)
    (hs : g.slot = x.slot) (hc : c.group = [x.slot]) (nt : NoNumTraps s c) :
    Ends s c (fun _ => { g with status := endWait g.status }) x.fp x.num (finish s i c [x]) := by
  have key := finish_ends s i c [x] (fun _ => { g with status := endWait g.status })
    (fun r hr => by rw [List.mem_singleton.1 hr]; exact ⟨g, hd, hs⟩) nt (fun k f hf => by
      have hk := fibre_slot hf
      unfold fibreAfter
      rw [hk, hc]
      by_cases e : k = x.slot
      · subst e
        simp only [List.find?_cons, beq_self_eq_true, hd, List.contains_cons, Bool.true_or, if_true]
        cases g.status <;> rfl
      · have e' : (x.slot == k) = false := by simpa using Ne.symm e
        have e'' : (k == x.slot) = false := by simpa using e
        simp [e', e])
  have a : resFlags [x] = x.fp := by simp [resFlags]
  have b : resEvents [x] = x.num := by simp [resEvents]
  rwa [a, b] at key

theorem orderFibres_one (s : State) (f : Fibre) : orderFibres [f].length s [f] = ([f], s) := by
  simp [orderFibres, State.choose]

/-- An instruction that acts fibre by fibre, of one fibre alone. -/
theorem laneFold_alone (i : Instr) (x : Lx) (free : Bool) (us : List RegUse)
    (act : State → LaneEnv → Fibre → LaneAct × State) (s : State) (c : Issue) (f : Fibre) (h : Alone s c x f)
    (hu : Usable s c us) :
    laneFold i x free us act s
      = .next (finish (act s (laneEnv s c x) f).2 i c
          [⟨f.slot, (act s (laneEnv s c x) f).1.fin, (act s (laneEnv s c x) f).1.fp,
            (act s (laneEnv s c x) f).1.num ||| guardNum x f⟩]) := by
  have hg : guarded us act s (laneEnv s c x) f
      = ({ (act s (laneEnv s c x) f).1 with num := (act s (laneEnv s c x) f).1.num ||| guardNum x f },
          (act s (laneEnv s c x) f).2) := by
    unfold guarded
    have hx : (laneEnv s c x).x = x := rfl
    have hw : (laneEnv s c x).warp.window = (s.warp c.warp).window := rfl
    rw [hx, hw, hu.inWindow]
    have := h.active
    cases e : guardOf x f with
    | mk a u => rw [e] at this; simp only at this; subst this; simp [guardNum, e]
  unfold laneFold
  simp only [h.cur, afterLoads_goes _ _ _ _ _ _ hu.written, h.fibre, orderFibres_one, ite_self, foldFibres, hg]

/-- An instruction executed once for the warp, of one fibre alone. -/
theorem laneOnce_alone (i : Instr) (x : Lx) (us : List RegUse)
    (act : State → LaneEnv → Issue → Fibre → List Fibre → List FibreRes × State) (s : State) (c : Issue) (f : Fibre)
    (h : Alone s c x f) (hu : Usable s c us) :
    laneOnce i x us act s
      = .next (finish (act s (laneEnv s c x) c f [f]).2 i c (act s (laneEnv s c x) c f [f]).1) := by
  have hw : (laneEnv s c x).warp.window = (s.warp c.warp).window := rfl
  unfold laneOnce
  simp only [h.cur, afterLoads_goes _ _ _ _ _ _ hu.written, h.fibre, List.filter_cons, h.active, List.filter_nil, Bool.not_true,
    Bool.false_eq_true, if_false, if_true, List.map_nil, List.nil_append, hw, hu.inWindow]

/-! ### Uniform instructions (R284 to R288) -/

/-- A uniform instruction that may issue executes its act. -/
theorem uniform_runs (i : Instr) (us : List UniUse) (act : State → Issue → Warp → UniRes × State) (s : State) (c : Issue)
    (h : Uniform s c us) :
    uniform i us act s
      = .next (finish (act s c (s.warp c.warp)).2 i c
          (uniResults (groupOf ((act s c (s.warp c.warp)).2.warp c.warp) c) (act s c (s.warp c.warp)).1)) := by
  unfold uniform
  simp only [h.cur, h.free, h.uses, afterLoads_goes _ _ _ _ _ _ h.written, Bool.not_true, Bool.false_eq_true, if_false]

theorem foldl_or_zero {α : Type} {n : Nat} (l : List α) : l.foldl (fun (a : BitVec n) _ => a ||| 0) 0 = 0 := by
  induction l with
  | nil => rfl
  | cons _ _ ih => simpa using ih

/-- A uniform instruction whose act goes on leaves its group at the address and nothing else changed from the act. -/
theorem uniform_ends (s : State) (i : Instr) (c : Issue) (pc : VAddr) (nt : NoNumTraps s c) :
    UniformEnds s c pc (finish s i c (uniResults (groupOf (s.warp c.warp) c) (.go pc))) := by
  have key := finish_map s i c (fun f => ⟨f.slot, .done { f with pc := pc }, 0, 0⟩) (fun f => { f with pc := pc })
    (fun _ => rfl) (fun _ => rfl) (fun _ => rfl) nt
  have a : resFlags ((groupOf (s.warp c.warp) c).map fun f => (⟨f.slot, .done { f with pc := pc }, 0, 0⟩ : FibreRes))
      = 0 := by
    unfold resFlags; rw [List.foldl_map]; exact foldl_or_zero _
  have b : resEvents ((groupOf (s.warp c.warp) c).map fun f => (⟨f.slot, .done { f with pc := pc }, 0, 0⟩ : FibreRes))
      = 0 := by
    unfold resEvents; rw [List.foldl_map]; exact foldl_or_zero _
  rw [a, b] at key
  exact key

/-- Both together: what the statements say of a uniform instruction that completes. -/
theorem uniform_does (i : Instr) (us : List UniUse) (act : State → Issue → Warp → UniRes × State) (s u : State) (c : Issue)
    (pc : VAddr) (h : Uniform s c us) (ha : act s c (s.warp c.warp) = (.go pc, u)) (nt : NoNumTraps u c) :
    ∃ t, uniform i us act s = .next t ∧ UniformEnds u c pc t := by
  refine ⟨_, uniform_runs i us act s c h, ?_⟩
  rw [ha]
  exact uniform_ends u i c pc nt

/-! ### Foreman words (R327, R355) -/

/-- A Foreman word that a context executes. -/
theorem foremanWord_runs (act : State → FmIssue → Foreman → FmRes × State) (s : State) (c : FmIssue) (F : Foreman)
    (h : AtForeman s c F) :
    foremanWord act s =
      match act { s with fcur := none } c F with
      | (.go pc, t) => .next (modFm t c.blk fun F => { F with fpc := pc, fcount := F.fcount + 1 })
      | (.wait, _) => .next { s with fcur := none }
      | (.refuse code addr k, t) => .next (refuseWord t c.blk code addr k) := by
  obtain ⟨i, hi⟩ := h.cur
  unfold foremanWord
  have : (({ s with fcur := none } : State).blk c.blk).fm = some F := h.context
  simp only [hi, this] <;> rfl

end Sys2Proof.Machine
end

