-- ==== Sys2Proof/Laws/Memory.lean ====
section
/-! SUPPORT. Physical memory keeps its canonical form: every operation that writes bytes answers a canonical list. -/
namespace Sys2Proof.Machine
-- One theorem after another: theorems elaborated side by side take a thread and its stack each, past the memory a check allows.
set_option Elab.async false

/-- Bytes stored from an address keep the form. -/
theorem putBytes_wf (bs : List Byte) : ∀ (m : Tab Byte) (a : Nat), Tab.wf (0 : Byte) m = true →
    Tab.wf (0 : Byte) (putBytes m a bs) = true := by
  induction bs with
  | nil => exact fun _ _ h => h
  | cons b t ih => exact fun m a h => ih _ _ (Tab.write_wf 0 m a b h)

/-- A masked byte keeps the form. -/
theorem writeMasked_wf (m : Tab Byte) (b : MByte) (h : Tab.wf (0 : Byte) m = true) :
    Tab.wf (0 : Byte) (writeMasked m b) = true := Tab.write_wf 0 m _ _ h

/-- Masked bytes in a row keep the form. -/
theorem writeMasked_all_wf (ws : List MByte) : ∀ m : Tab Byte, Tab.wf (0 : Byte) m = true →
    Tab.wf (0 : Byte) (ws.foldl writeMasked m) = true := by
  induction ws with
  | nil => exact fun _ h => h
  | cons b t ih => exact fun m h => ih _ (writeMasked_wf m b h)

/-- A line that takes another key keeps the form. -/
theorem adoptKey_wf (s : State) (key : Option (BitVec 512)) (a : Nat) (h : Memory.wf s.mem = true) :
    Memory.wf (adoptKey s key a).mem = true := by
  cases key with
  | none => exact h
  | some k =>
    simp only [adoptKey]
    by_cases f : isFar a = true
    · rw [if_pos f]
      cases Tab.find s.lineKeys (a / 64) with
      | none => exact h
      | some t =>
        by_cases g : t = k
        · simp only [if_pos g]; exact h
        · simp only [if_neg g]
          generalize rekey t k (a / 64) (rawLine s (a / 64)) = bs
          exact putBytes_wf bs s.mem _ h
    · rw [if_neg f]; exact h

/-- Lines that take another key in a row keep the form. -/
theorem adoptKey_all_wf (key : Option (BitVec 512)) (ws : List MByte) : ∀ s : State, Memory.wf s.mem = true →
    Memory.wf (ws.foldl (fun s b => adoptKey s key b.addr) s).mem = true := by
  induction ws with
  | nil => exact fun _ h => h
  | cons b t ih => exact fun s h => ih _ (adoptKey_wf s key b.addr h)

/-- A write to physical memory leaves memory as its masked bytes make it. -/
theorem writePhys_mem (s : State) (core : Option Nat) (key : Option (BitVec 512)) (ws : List MByte) :
    (writePhys s core key ws).mem = ws.foldl writeMasked (ws.foldl (fun s b => adoptKey s key b.addr) s).mem := by
  have clear : ∀ u, (clearPoison u ws).mem = u.mem := by
    intro u; unfold clearPoison; split <;> rfl
  have wake : ∀ u, (wakeMonitors u none ws).mem = u.mem := fun _ => rfl
  have hold : ∀ u a, (holdHost u 2 a).mem = u.mem := by
    intro u a; unfold holdHost; split <;> rfl
  have line : ∀ u c l, (dropLine u c l).mem = u.mem := by
    intro u c l; unfold dropLine; simp only; split <;> rfl
  have lines : ∀ (ls : List Nat) u c, (ls.foldl (fun s l => dropLine s c l) u).mem = u.mem := by
    intro ls
    induction ls with
    | nil => exact fun _ _ => rfl
    | cons l t ih => exact fun u c => (ih _ c).trans (line u c l)
  have drop : ∀ u c, (dropL1 u c ws).mem = u.mem := fun u c => lines _ u c
  unfold writePhys
  generalize ws.foldl (fun s b => adoptKey s key b.addr) s = u
  cases core with
  | none => cases ws <;> simp only [hold, wake, clear]
  | some c => simp only [drop]; cases ws <;> simp only [hold, wake, clear]

/-- A write to physical memory keeps the form. -/
theorem writePhys_wf (s : State) (core : Option Nat) (key : Option (BitVec 512)) (ws : List MByte)
    (h : Memory.wf s.mem = true) : Memory.wf (writePhys s core key ws).mem = true := by
  rw [writePhys_mem]; exact writeMasked_all_wf ws _ (adoptKey_all_wf key ws s h)

/-- Bytes that the device writes for the host keep the form. -/
theorem putPhys_wf (s : State) (a : Nat) (bs : List Byte) (h : Memory.wf s.mem = true) :
    Memory.wf (putPhys s a bs).mem = true := writePhys_wf s none none _ h

/-- Parts that a structure access writes keep the form. -/
theorem structPut_wf : ∀ (ps : List (Place × Nat)) (s : State) (bs : List Byte), Memory.wf s.mem = true →
    Memory.wf (structPut s ps bs).mem = true
  | [], _, _, h => h
  | _ :: t, s, _, h => structPut_wf t _ _ (writePhys_wf s none _ _ h)

/-- A store that reaches its home L2 keeps the form. -/
theorem landOne_wf (s : State) (core i : Nat) (h : Memory.wf s.mem = true) : Memory.wf (landOne s core i).mem = true := by
  unfold landOne
  simp only
  split
  · exact h
  · split
    · exact h
    · exact writePhys_wf _ _ _ _ h

/-- Every store of a core that reaches its home L2 keeps the form. -/
theorem landCore_wf (s : State) (core : Nat) (h : Memory.wf s.mem = true) : Memory.wf (landCore s core).mem = true := by
  have all : ∀ (ys : List Passing) s, Memory.wf s.mem = true → Memory.wf (ys.foldl (landWrite core) s).mem = true := by
    intro ys
    induction ys with
    | nil => exact fun _ h => h
    | cons y t ih => exact fun s h => ih _ (writePhys_wf _ _ _ _ h)
  unfold landCore
  simp only
  split
  · exact h
  · exact all _ _ h

/-- A core with no store on its way has none to perform. -/
theorem landCore_done (s : State) (core : Nat) (h : (s.core core).passing = []) : landCore s core = s := by
  unfold landCore
  rw [h]
  rfl

/-! ### What leaves memory alone -/

/-- Counting a context's use changes the context alone. -/
@[simp] theorem charge_mem (s : State) (c : Nat) (r : Resource) (u n : Nat) : (charge s c r u n).mem = s.mem := rfl

/-- So does counting the bytes of an access. -/
@[simp] theorem chargeBytes_mem (s : State) (c : Nat) (p : Place) (n : Nat) (write : Bool) :
    (chargeBytes s c p n write).mem = s.mem := by
  unfold chargeBytes
  split <;> rfl

/-- A free choice leaves memory as it is. -/
@[simp] theorem choose_mem (s : State) (n : Nat) : (s.choose n).2.mem = s.mem := by
  unfold State.choose; split <;> rfl

/-- Lines that an L1 loses for room are of the L1 alone. -/
theorem evictLines_mem : ∀ (n : Nat) (s : State) (t : Tab (BitVec 512)), (evictLines n s t).2.mem = s.mem
  | 0, _, _ => rfl
  | n + 1, _, _ => (evictLines_mem n _ _).trans (choose_mem _ _)

/-- A line that an L1 takes leaves memory as it is. -/
@[simp] theorem l1Fill_mem (s : State) (core k : Nat) (line : BitVec 512) : (l1Fill s core k line).mem = s.mem :=
  evictLines_mem _ s _

/-- An acquire leaves memory as it is. -/
@[simp] theorem acquireAt_mem (s : State) (core n : Nat) : (acquireAt s core n).mem = s.mem := by
  have one : ∀ u c, (clearL1 u c).mem = u.mem := by
    intro u c; unfold clearL1; split <;> rfl
  have all : ∀ (cs : List Nat) u, (cs.foldl clearL1 u).mem = u.mem := by
    intro cs
    induction cs with
    | nil => exact fun _ => rfl
    | cons c t ih => exact fun u => (ih _).trans (one u c)
  unfold acquireAt
  split
  · split
    · exact all _ s
    · exact one s core
  · rfl

/-- Memory after reset has the form. -/
theorem reset_memory_wf : Memory.wf State.reset.mem = true := rfl

end Sys2Proof.Machine
end

