-- ==== Sys2Proof/Tests/Slice0.lean ====
section
/-! SUPPORT. Tests: ill-formed terms that WellFormed refuses, words written out from the opcode table, single steps, and for every
statement with hypotheses a state and operands that meet them. -/
open Sys2Proof Sys2Proof.Machine Sys2Proof.Claims

namespace Sys2Proof.Tests
set_option maxRecDepth 100000
set_option exponentiation.threshold 600
-- One theorem after another: theorems elaborated side by side take a thread and its stack each, past the memory a check allows.
set_option Elab.async false

/-! ### Words for witnesses -/

/-- A computation that succeeds, with a value and a state of which P holds. -/
def met {ε α : Type} (x : Except ε α × State) (P : α → State → Bool) : Bool :=
  match x with
  | (.ok a, s) => P a s
  | _ => false
theorem met_iff {ε α : Type} (x : Except ε α × State) (P : α → State → Bool) :
    met x P = true ↔ ∃ a s, x = (.ok a, s) ∧ P a s = true := by
  obtain ⟨e | a, s⟩ := x
  · simp [met]
  · constructor
    · intro h; exact ⟨a, s, rfl, h⟩
    · rintro ⟨_, _, h, hp⟩; cases h; exact hp
/-- A computation that succeeds, with a value of which P holds. -/
def got {ε α : Type} (x : Except ε α) (P : α → Bool) : Bool :=
  match x with
  | .ok a => P a
  | _ => false
theorem got_iff {ε α : Type} (x : Except ε α) (P : α → Bool) : got x P = true ↔ ∃ a, x = .ok a ∧ P a = true := by
  cases x <;> simp [got]
/-- A value that is there, of which P holds. -/
def there {α : Type} (x : Option α) (P : α → Bool) : Bool :=
  match x with
  | some a => P a
  | none => false

/-- A GLOBAL translation of the staged page in every cache that serves core 0. -/
def cachedAs (leaf : Nat) (s : State) : State := { s with dies := [(0, ⟨[.core 0, .cluster 0, .die].map fun l =>
  ⟨l, 0, true, 0, 26, BitVec.ofNat 64 (leaf + 2 ^ 11)⟩, false, none⟩)] }
def cached (s : State) : State := cachedAs stageLeaf s
/-- The page in host memory instead, of whose bytes the link counts every one, with bytes there. -/
def hosted (s : State) (a : Nat) (bs : List Byte) : State :=
  cachedAs (stageLeaf + hostBase) (writePhys s none none (wholeBytes (hostBase + a) bs))
/-- A warp of one fibre at address 0 (log 15): launch 1, block 2, warp 3 of context 0. -/
def base : State := State.reset.withFetchWord 32 0
/-- Its instruction in execution. -/
def one0 : Issue := ⟨3, [0], 0, none, 0⟩
/-- A fibre with its lanes changed. -/
def lanesOf (g : Lane → Lane) (f : Fibre) : Fibre := { f with lanes := f.lanes.map g }
/-- That warp in execution, with its lanes changed and itself. -/
def hereWith (g : Lane → Lane) (h : Warp → Warp) : State :=
  ({ cached base with cur := some one0 } : State).modWarp 3 fun W => h { W with fibres := W.fibres.map (lanesOf g) }
def here : State := hereWith id id
/-- Its fibre. -/
def fib (g : Lane → Lane) : Fibre := lanesOf g (newFibre true 0 0 0 0)
/-- NoNumTraps as a Bool. -/
def quiet (s : State) (c : Issue) : Bool := !(s.launch (s.warp c.warp).launch).lrec.numTraps
theorem noNumTraps_of_quiet {s : State} {c : Issue} (h : quiet s c = true) : NoNumTraps s c := by
  simpa [quiet, NoNumTraps] using h
/-- Alone as a Bool. -/
def aloneMet (s : State) (c : Issue) (x : Lx) (f : Fibre) : Bool :=
  s.cur == some c && c.group == [f.slot] && groupOf (s.warp c.warp) c == [f] && (guardOf x f).1
theorem alone_of_met {s : State} {c : Issue} {x : Lx} {f : Fibre} (h : aloneMet s c x f = true) : Alone s c x f := by
  simp only [aloneMet, Bool.and_eq_true, beq_iff_eq] at h
  exact ⟨h.1.1.1, h.1.1.2, h.1.2, h.2⟩
/-- Usable as a Bool. -/
def usable (s : State) (c : Issue) (us : List RegUse) : Bool :=
  usesOk (s.warp c.warp).window us && !loadsHold (s.warp c.warp) c.group (spans us) []
theorem usable_of {s : State} {c : Issue} {us : List RegUse} (h : usable s c us = true) : Usable s c us := by
  simp only [usable, Bool.and_eq_true, Bool.not_eq_true'] at h
  exact ⟨h.1, h.2⟩
/-- Uniform as a Bool. -/
def uniMet (s : State) (c : Issue) (us : List UniUse) : Bool :=
  s.cur == some c && handlerFree (s.warp c.warp) (groupOf (s.warp c.warp) c) && us.all (UniUse.ok (s.warp c.warp))
    && !loadsHold (s.warp c.warp) c.group [] (uniSpans us)
theorem uniform_of_met {s : State} {c : Issue} {us : List UniUse} (h : uniMet s c us = true) : Uniform s c us := by
  simp only [uniMet, Bool.and_eq_true, beq_iff_eq, Bool.not_eq_true'] at h
  exact ⟨h.1.1.1, h.1.1.2, h.1.2, h.2⟩
/-- The hypotheses of LaneDoes. -/
def laneMet (us : List RegUse) : Bool :=
  here.cur == some one0 && quiet here one0 && usable here one0 us
/-- One fibre alone, its operands allowed. -/
def aloneUses (s : State) (us : List RegUse) : Bool :=
  aloneMet s one0 Lx.none ((s.warp 3).fibres.headD (fib id)) && usable s one0 us
/-- The fibre of the staged warp in a state. -/
def fibIn (s : State) : Fibre := (s.warp 3).fibres.headD (fib id)

/-! ### Ill-formed terms -/

/-- No term of a list is well formed. -/
def refused (l : List Instr) : Bool := l.all fun i => !i.wf
/-- An LX word that is there, with its fields. -/
def lx (neg : Bool) (p : Pred) (rnd : BitVec 3) (sib : BitVec 2) : Lx :=
  { Lx.none with present := true, neg := neg, pred := p, rnd := rnd, sib := sib }
/-- No LX word. -/
abbrev nx : Lx := Lx.none
/-- R188 items 4, 5, 7 and 8: RND 7, SIBC 3, RND with SIBC 2, a guard that never holds, rounding where nothing rounds, a guard
before a word that has its own, and fields of an LX word that is not there. -/
theorem wf_prefix : refused
    [.fadd (lx false 7 7 0) .f32 1 2 3, .fadd (lx false 7 0 3) .f32 1 2 3, .fadd (lx false 7 1 2) .f32 1 2 3, .nop (lx true 7 0 0),
     .nop (lx false 7 1 0), .nop (lx false 7 0 1), .bra (lx false 2 0 0) false 7 0, .nop { nx with pred := 3 },
     .lxWord false 7 7 0 0, .lxWord false 7 0 3 0, .lxWord false 7 1 2 0, .lxWord true 7 0 0 0] = true := by decide
theorem wf_integer : refused
    [.iadd nx 0 3 false 1 2 3, .isub nx 0 3 false 1 2 3, .iaddc nx 0 false 1 2 3, .isubb nx 0 false 1 2 3, .imad nx true 2 4 6 8,
     .imadw nx true 2 4 6 8, .fsh nx true 1 2 3 4, .bfi nx true 2 4 6 8, .bpick nx 64 1 2 3, .icmp nx .un false false 0 1 2,
     .movUniform nx false 1 60, .movi nx false 1 4096, .movi (lx false 7 0 0) true 1 0x10000] = true := by decide
theorem wf_float : refused
    [.fex2 nx .f64 2 4, .flg2 nx .f64 2 4, .fsin nx .f64 2 4, .fcos nx .f64 2 4, .ftanh nx .f64 2 4, .fcvt nx true .f32 .f64 1 2,
     .f2i nx true false false .f32 1 2, .f2i nx false true false .f32 1 2, .i2f nx true false .f32 1 2, .sibget nx false 3 1 2,
     .sibput nx false 3 1 2, .sibrot nx false 3 1 2] = true := by decide
theorem wf_packed : refused
    [.fdp16 nx (some 1) false false 1 4 8, .fdpsc nx true 3 1 1 4 8, .fdpsc (lx false 7 0 0) true 2 4 1 4 8, .cvtpk nx false .f32 1 4 none,
     .cvtpk nx false .f64 1 4 none, .cvtpk nx true .e4m3 1 4 none, .cvtpk nx false .e4m3 1 4 (some 2), .cvtupk nx .f32 4 1,
     .cvtupk nx .f64 4 1] = true := by decide
theorem wf_wide : refused
    [.pollSome nx (some 4) 1 2, .pollEvery nx (some 4) 1 2, .pollSame nx (some 4) 1 2, .pollCount nx (some 4) 1 2,
     .pollMask nx (some 4) 4 2, .leadFirst nx (some 4) 1, .leadLast nx (some 4) 1, .wmask nx (some 4) 4, .warpMatch nx (some 4) false 4 1,
     .xlane nx (some 4) 0 .from_ false 1 2 3, .xlane nx none 1 .from_ false 1 2 3, .xlane (lx false 7 0 0) none 9 .from_ false 1 2 3,
     .xlane nx none 0 .rev false 1 2 3, .wred nx (some 4) .u32 .add 1 2, .wred nx none .f32 .add 1 2, .wred nx none .u32 .exch 1 2,
     .wred nx none .u32 .inc 1 2, .wred (lx false 7 0 0) none .f32 .and_ 1 2, .wscan nx none true .u32 .add 1 2,
     .wscan nx none false .u32 .exch 1 2] = true := by decide
theorem wf_memory : refused
    [.ld nx .b32 .glob 64 1 2, .ld nx .i8 .glob 0 1 2, .ld nx .bf16 .glob 0 1 2, .st nx .i16 .glob 0 1 2, .st nx .b32 .glob 64 1 2,
     .st nx .bf16 .glob 0 1 2, .lda nx .b32 .core .glob 0 1 2, .stl nx .b32 .core .glob 0 1 2, .stl nx .i8 .device .glob 0 1 2,
     .atom nx .inc .i32 .rlx .device .glob 1 2 3, .atom nx .and_ .f32 .rlx .device .glob 1 2 3, .atom nx .add .u32 .acq .device .glob 1 2 3,
     .atom nx .add .u32 .rlx .core .glob 1 2 3, .atomc nx true .rlx .device .glob 2 4 6 8, .red nx .exch .u32 .rlx .device .glob 1 2,
     .red (lx false 7 0 0) .add .u32 .acq .device .glob 1 2, .cpa nx .device .loc false none 1 2, .cpa nx .device .glob true none 1 2] = true := by
  decide
theorem wf_memory_more : refused
    [.pref nx .core .glob .l1 1, .ldf nx .core .glob 2 4, .stf nx .device .loc 2 4, .mwatch nx .core .glob 2, .mwait nx .core .glob 1 2,
     .tcopy nx .device .loc 2 4] = true := by decide
theorem wf_control : refused
    [.bra nx false 1 0x80000, .bra nx true 7 0, .call nx false 1 0x80000, .brx nx 0x800 1, .callx nx 0x800 1, .rcvset nx 0x20000,
     .spawn nx 1 0 1 2 4, .spawn nx 0 1 1 2 4, .spawn (lx false 7 0 0) 9 0 1 2 4] = true := by decide
theorem wf_uniform : refused
    [.scmp false .ord false false 1 2 3, .sld false .b4 .priv 0 1 2, .sst false .b4 .priv 0 1 2, .satom false .inc false 1 1 2 3,
     .jc false true 7 0, .claim false 0, .give false 0, .wrsr false .tick 2, .icinv false .block 2 4, .strap false 0x3FFFF] = true := by decide
theorem wf_foreman : refused [.mconfRnd 0, .mconfRnd 7] = true := by decide

/-! ### Words of the opcode table -/

/-- Words that decode to the instructions beside them. -/
def readsAs (l : List (Word × Instr)) : Bool := l.all fun e => (decode none e.1).toOption == some e.2
/-- The same behind an LX word. -/
def pairsReadAs (l : List (Word × Word × Instr)) : Bool := l.all fun e => (decode (some e.1) e.2.1).toOption == some e.2.2
/-- The same of Foreman words. -/
def foremanReads (l : List (Double × Instr)) : Bool := l.all fun e => (decodeForeman e.1).toOption == some e.2
theorem words_0 : readsAs
    [(0x000420D3, .iadd nx 2 1 true 1 2 3), (0x010420CC, .isub nx 1 2 false 1 2 3),
     (0x020420D1, .iaddc nx 2 true 1 2 3), (0x030420F8, .isubb nx 7 false 1 2 3),
     (0x040420C1, .imul nx true 1 2 3), (0x050420C2, .imulhi nx true false 1 2 3),
     (0x060420C4, .imad nx false 1 2 3 4), (0x070820C4, .imadw nx false 2 2 3 4),
     (0x080420C2, .imin nx true false 1 2 3), (0x080420C9, .imax nx false true 1 2 3),
     (0x08042014, .iabs nx true false 1 2), (0x08042019, .ineg nx false true 1 2),
     (0x090420C0, .andB nx false 1 2 3), (0x090420C9, .orB nx true 1 2 3),
     (0x090420D0, .xorB nx false 1 2 3), (0x090420D8, .andn nx false 1 2 3),
     (0x0A042FC2, .shl nx true false 1 2 63), (0x0A0420C9, .shr nx false true 1 2 3),
     (0x0A0420D2, .sar nx true false 1 2 3), (0x0A0420D9, .rotl nx false true 1 2 3),
     (0x0B0420C4, .fsh nx false 1 2 3 4), (0x0C042001, .popc nx true 1 2),
     (0x0C042008, .clz nx false 1 2), (0x0C042010, .ctz nx false 1 2)] = true := by decide

theorem words_1 : readsAs
    [(0x0C042019, .brev nx true 1 2), (0x0D0420C2, .bfx nx true false 1 2 3),
     (0x0E0420C4, .bfi nx false 1 2 3 4), (0x0F0420E3, .bpick nx 35 1 2 3),
     (0x100420D2, .icmp nx .lt false true 1 2 3), (0x110420CC, .sel nx false true 4 1 2 3),
     (0x12042002, .mov nx true 1 2), (0x12040EC1, .movUniform nx false 1 59),
     (0x12040088, .movs nx 1 .lane), (0x13041005, .movi nx true 1 5),
     (0x14040000, .movpRd nx 1), (0x14002010, .movpWr nx 2),
     (0x140420E6, .movpLop nx 6 1 2 3), (0x150420C2, .fadd nx .f16 1 2 3),
     (0x160420C3, .fsub nx .bf16 1 2 3), (0x17084181, .fmul nx .f64 2 4 6),
     (0x180420C4, .ffmaF32 nx 1 2 3 4), (0x19084188, .ffmaF64 nx 2 4 6 8),
     (0x1A0420C0, .fmin nx .f32 1 2 3), (0x1A0420CA, .fmax nx .f16 1 2 3),
     (0x1A0420D3, .fminm nx .bf16 1 2 3), (0x1A0420D8, .fmaxm nx .f32 1 2 3),
     (0x1B042002, .fabs nx .f16 1 2), (0x1B04200B, .fneg nx .bf16 1 2)] = true := by decide

theorem words_2 : readsAs
    [(0x1B0420D1, .fcopysign nx .f64 1 2 3), (0x1C0420D6, .fcmp nx .un .f16 1 2 3),
     (0x1D042003, .fclass nx .bf16 1 2), (0x1E0420C0, .fdiv nx .f32 1 2 3),
     (0x1F042000, .fsqrt nx .f32 1 2), (0x1F042009, .frcp nx .f64 1 2),
     (0x1F042012, .frsq nx .f16 1 2), (0x20042000, .fex2 nx .f32 1 2),
     (0x2004200A, .flg2 nx .f16 1 2), (0x20042013, .fsin nx .bf16 1 2),
     (0x20042018, .fcos nx .f32 1 2), (0x20042020, .ftanh nx .f32 1 2),
     (0x21042009, .frint nx true false .f64 1 2), (0x22042025, .fcvt nx false .e4m3 .e5m2 1 2),
     (0x23042006, .f2i nx false false true .f16 1 2), (0x2304200B, .i2f nx false false .bf16 1 2),
     (0x240420C0, .fldexp nx .f32 1 2 3), (0x2404200A, .ffrexp nx .f16 1 2),
     (0x25042001, .digits nx .f64 1 2), (0x2504200B, .agree nx .bf16 1 2),
     (0x26042006, .sibget nx true 2 1 2), (0x26042009, .sibput nx false 1 1 2),
     (0x26042012, .sibrot nx false 2 1 2), (0x26042019, .sibmean nx .f64 1 2)] = true := by decide

theorem words_3 : readsAs
    [(0x26042021, .sibmaj nx true 1 2), (0x270800C0, .rdraw nx 2 3),
     (0x28044201, .fdp16 nx none true false 1 4 8), (0x29044201, .fdp8 nx true 1 4 8),
     (0x2904420F, .fdpsc nx true 3 0 1 4 8), (0x2A0420C5, .idp4 nx true false true 1 2 3),
     (0x2A0420CA, .idp8 nx false true false 1 2 3), (0x2B042004, .cvtpk nx false .e4m3 1 2 none),
     (0x2B04200E, .cvtupk nx .e2m1 1 2), (0x2B042013, .scdec nx .dec 1 2),
     (0x2C084002, .sparsify nx .f16 2 4), (0x2D000028, .xclr nx 5),
     (0x2D002009, .xadd nx 1 2), (0x2D002132, .xfma nx 6 2 4),
     (0x2D08001B, .xget nx 3 2), (0x2E002044, .xmerge nx 4 .loc 2),
     (0x2E002089, .xsave nx 1 .clus 2), (0x2E002017, .xload nx 7 .glob 2),
     (0x2E04001A, .xstat nx 2 1), (0x2F042000, .pollSome nx none 1 2),
     (0x2F0C7001, .pollEvery nx none 3 7), (0x2F042002, .pollSame nx none 1 2),
     (0x2F242003, .pollCount nx none 9 2), (0x2F102004, .pollMask nx none 4 2)] = true := by decide

theorem words_4 : readsAs
    [(0x2F140008, .leadFirst nx none 5), (0x2F180009, .leadLast nx none 6),
     (0x2F100010, .wmask nx none 4), (0x300420C6, .xlane nx none 0 .swap true 1 2 3),
     (0x31042002, .wred nx none .u32 .max 1 2), (0x3104200D, .wscan nx none false .u32 .xor_ 1 2),
     (0x31102011, .warpMatch nx none true 4 2), (0x32042789, .ld nx .f32 .priv 9 1 2),
     (0x3304223F, .st nx .u8 .loc 63 1 2), (0x340820C1, .lda nx .b64 .device .glob 1 2 2),
     (0x35042080, .stl nx .b32 .device .glob 0 1 2), (0x360420E0, .atom nx .or_ .u32 .rlx .device .glob 1 2 3),
     (0x370420C4, .atomc nx false .rlx .device .glob 1 2 3 4), (0x380020C4, .red nx .add .f32 .rlx .device .glob 2 3),
     (0x39102241, .cpa nx .device .glob false (some 9) 4 2), (0x3900200A, .pref nx .device .glob .near 2),
     (0x39084010, .ldf nx .device .glob 2 4), (0x39002118, .stf nx .device .glob 2 4),
     (0x39002020, .mwatch nx .device .glob 2), (0x390400E8, .mwait nx .device .glob 1 3),
     (0x39084030, .tcopy nx .device .glob 2 4), (0x3A000184, .fence nx .sc .device),
     (0x3B300005, .bra nx true 1 5), (0x3CEFFFFF, .call nx false 7 (-1))] = true := by decide

theorem words_5 : readsAs
    [(0x3D002140, .brx nx 5 2), (0x3DFC2FC4, .callx nx (-1) 2),
     (0x3D006008, .ret nx 6), (0x3D00000C, .exit nx),
     (0x3D000010, .tail nx), (0x3D000154, .rcvset nx 5),
     (0x3D000018, .rcvwait nx), (0x3D04211C, .spawn nx 0 0 1 2 4),
     (0x3D042020, .jwait nx 1 2), (0x3D000024, .yield nx),
     (0x3D03FFE8, .trap nx 4095), (0x3D00002C, .brkpt nx),
     (0x7D000030, .nop { nx with eor := true }), (0xC00420C1, .sadd true true 1 2 3),
     (0x810420C0, .ssub false false 1 2 3), (0x820420C1, .smul false true 1 2 3),
     (0x830420C2, .smulhi false true false 1 2 3), (0x840420C0, .sand false false 1 2 3),
     (0x840420C9, .sor false true 1 2 3), (0x840420D0, .sxor false false 1 2 3),
     (0x850420C2, .sshl false true false 1 2 3), (0x850420C9, .sshr false false true 1 2 3),
     (0x850420D0, .ssar false false false 1 2 3), (0x860420C2, .smin false true false 1 2 3)] = true := by decide

theorem words_6 : readsAs
    [(0x860420C9, .smax false false true 1 2 3), (0x87042001, .smov false true 1 2),
     (0x8807FFFF, .simm false 1 (-1)), (0x8904FFFF, .simmh false 1 65535),
     (0x8A0420CD, .scmp false .ge true false 1 2 3), (0x8B0420D4, .ssel false true false 4 1 2 3),
     (0x8C102907, .sld false .b16 .args 7 4 2), (0x8D042247, .sst false .b2 .loc 7 1 2),
     (0x8E0841BE, .satom false .inc true 2 2 4 6), (0x8F203082, .rdlane false true false 8 3 2),
     (0x90FFFFFF, .jmp false (-1)), (0x91900003, .jc false true 1 3),
     (0x92002000, .jx false 2), (0x94084001, .binit false true 2 4),
     (0x95046001, .barrive false 1 (some 6)), (0x963C7000, .bwait false 15 7),
     (0x960C700A, .btest false 2 3 7), (0x97105000, .bexpect false 4 5),
     (0x98000000, .cbar false), (0x990420C4, .wait false 1 2 3 4),
     (0x9A000007, .claim false 7), (0x9A000009, .give false 1),
     (0x9B1400C1, .qtryPop false 1 5 3), (0x9B005088, .qtryPush false 0 2 5)] = true := by decide

theorem words_7 : readsAs
    [(0x9C080001, .tlrd false .mx 2), (0x9D002000, .tlwait false .copy 2),
     (0x9E0020C0, .tagpub false 2 3), (0x9F0420C0, .tagrd false 1 2 3),
     (0xA0042100, .tqpush false 1 2 4), (0xA1082100, .tqtake false 2 2 4),
     (0xA2000000, .ordwait false), (0xA3200031, .rdsr false 8 .numflags),
     (0xA4280031, .wrsr false .numflags 10), (0xA5142000, .segld false 5 2),
     (0xA6002105, .icinv false .die 2 4), (0xA7002000, .tlbinvPage false 2),
     (0xA7000001, .tlbinvAsid false), (0xA80C2000, .rmack false 3 2),
     (0xA9000000, .snop false), (0xAA03FFFE, .strap false 262142),
     (0xAA03FFFF, .resume false)] = true := by decide

theorem words_foreman : foremanReads
    [(0x0110000000000040, .mlay 1 0x40), (0x0208000000000020, .madd 0 2 32),
     (0x0304000000000000, .mclr 0 true false), (0x0352000000000000, .mclr 5 false true),
     (0x0404100000000000, .mma 0 .shared 0 1), (0x0528A60000000000, .mmas 2 .triple 1 2 3),
     (0x0621AC4000000000, .mmax 2 .one 3 2 6 1), (0x0746000000000000, .mrd 4 1 4),
     (0x0801000000000000, .mcol 0 2), (0x0920000000000000, .mbarr 2),
     (0x0A10000000000000, .mbwait 1), (0x0B00000000000008, .mloop 8),
     (0x0B80000000000010, .mloopL 16), (0x0C00000000000000, .mendl),
     (0x0D000000FFFFFFFF, .mjmp (-1)), (0x0E40000000000020, .mstamp true 32),
     (0x0F00000000000005, .mconfRnd 5), (0x0F10000000000044, .mconfTs 0x44),
     (0x0F20000000500007, .mconfWph 5 7), (0x1000000000000000, .mend)] = true := by decide

/-- Words that the specification writes out in its examples. -/
theorem words_examples : readsAs
    [(0x3D000030, .nop nx), (0x3218A182, .ld nx .f32 .glob 2 6 10), (0x7D00000C, .exit { nx with eor := true }),
     (0x00408311, .iadd nx 2 0 true 16 8 12), (0x0248A391, .iaddc nx 2 true 18 10 14), (0xD19FFFFB, .jc true true 1 (-5)),
     (0x13040014, .movi nx false 1 0x14), (0x100420CA, .icmp nx .lt true false 1 2 3), (0x22042020, .fcvt nx false .e4m3 .f32 1 2),
     (0x2D004009, .xadd nx 1 4), (0x2D20000B, .xget nx 1 8), (0x2E004009, .xsave nx 1 .glob 4), (0x2E006041, .xmerge nx 1 .loc 6),
     (0x3608A040, .atom nx .add .u32 .rlx .device .glob 2 10 1), (0x39094030, .tcopy nx .device .glob 2 20),
     (0x2F203003, .pollCount nx none 8 3), (0x88040014, .simm false 1 0x14), (0x89043FC0, .simmh false 1 0x3FC0),
     (0xC8140001, .simm true 5 1), (0x8A042102, .scmp false .lt false false 1 2 4), (0xD11FFFFD, .jc true false 1 (-3)),
     (0xA3200031, .rdsr false 8 .numflags), (0xA4280031, .wrsr false .numflags 10)] = true := by decide
theorem words_examples_pairs : pairsReadAs
    [(0x3FA20000, 0x150C1180, .fadd (lx true 2 1 0) .f32 3 1 6), (0x3F700400, 0x3218A180, .ld (lx false 7 0 0) .f32 .glob 64 6 10),
     (0x3F700003, 0x13041FC0, .movi (lx false 7 0 0) true 1 0x3FC0), (0x3F700190, 0x3800A104, .red (lx false 7 0 0) .add .f32 .rel .device .glob 10 4),
     (0x3F700180, 0x300C2141, .xlane (lx false 7 0 0) none 3 .rot false 3 2 5), (0x3F720000, 0x28044200, .fdp16 (lx false 7 1 0) none false false 1 4 8),
     (0x3F703934, 0x0F0420E0, .bpick (lx false 7 0 0) 0xE4D20 1 2 3)] = true := by decide

/-! ### States that meet the hypotheses -/

theorem met_IntegerSums : laneMet [byW true 62, byW true 0, byW true 62] = true := by decide
theorem met_IntegerProducts :
    (laneMet [byW true 62, byW true 0, byW true 60, byW true 4] && laneMet [two 62, one 63, one 0, two 62]) = true := by decide
theorem met_IntegerSelections : (laneMet [byW true 62, byW true 0, byW true 62] && laneMet [byW false 63, byW false 63]) = true := by
  decide
theorem met_LogicAndShifts :
    (laneMet [byW true 62, byW true 0, one 63] && laneMet [byW true 62, byW true 0] && laneMet [one 63, one 0, one 1, one 63]) = true := by
  decide
theorem met_BitInstructions :
    (laneMet [one 63, byW true 62] && laneMet [byW true 62, byW true 60, byW true 0, one 63] && laneMet [one 63, one 0, one 63]) = true := by
  decide
theorem met_BitResults : (64 = 32 ∨ 64 = 64) ∧ 2 ^ 64 - 1 < 2 ^ 64 ∧ 2 ^ 64 - 1 ≠ 0 ∧ (0 : Nat) < 2 ^ 32 := by decide
theorem met_ComparisonsAndMoves :
    (laneMet [byW true 62, byW true 0] && laneMet [byW true 62] && laneMet [two 62] && laneMet []) = true := by decide
theorem met_FloatArithmetic :
    (laneMet [byTy .f64 62, byTy .f64 0, byTy .f64 2, byTy .f64 60] && laneMet [byTy .bf16 63, byTy .f16 0, byTy .f32 1]) = true := by
  decide
theorem met_FloatSelections : (laneMet [byTy .f64 62, byTy .f64 0, byTy .f64 2] && laneMet [one 63, byTy .f64 62]) = true := by decide
theorem met_Transcendentals : laneMet [byTy .f32 63, byTy .bf16 0] = true := by decide
theorem met_Conversions :
    (laneMet [cvtUse .f64 62, cvtUse .e4m3 63] && laneMet [byW true 62, byTy .f64 0] && laneMet [byTy .f64 62, byTy .f64 0, one 63]
      && laneMet [four 60, byTy .f64 2] && laneMet [two 62, byTy .f32 63]) = true := by decide
theorem met_SiblingInstructions :
    (laneMet [one 63, byTy .f64 62] && laneMet [byW true 62, byW true 0] && laneMet [two 62, one 63]) = true := by decide
theorem met_PackedDots :
    (laneMet [one 63, four 60, four 0] && laneMet [one 63, four 60, four 0, one 63] && laneMet [one 63, four 60, four 0, four 56]
      && laneMet [one 63, one 0, one 62]) = true := by decide
theorem met_PackedConversions :
    (laneMet [one 63, cvtRegs .e4m3 60, one 62] && laneMet [cvtRegs .e2m1 56, one 63] && laneMet [one 63, one 0]
      && laneMet [two 62, byW true 62]) = true := by decide

/-- Slot 0 and no other in a mask group of fibres at v8. -/
def masked : State := hereWith (·.setReg 8 1) id
theorem members_none : Members here one0 Lx.none none [fib id] := ⟨by decide, by decide, by decide⟩
theorem members_some : Members masked one0 Lx.none (some 8) [fib (·.setReg 8 1)] :=
  ⟨by decide, by decide, 1, by decide, by decide, by decide⟩
theorem met_WarpPolls :
    (quiet here one0 && usable here one0 ([one 63] ++ maskUse here one0 none) && quiet masked one0
      && usable masked one0 ([one 63] ++ maskUse masked one0 (some 8)) && usable masked one0 (groupUse true 60 :: maskUse masked one0 (some 8))) = true := by
  decide
theorem met_WarpExchanges :
    (usable masked one0 ([byW true 62, byW true 0, one 63] ++ maskUse masked one0 (some 8))
      && usable masked one0 ([atomUse .f64 62, atomUse .f64 0] ++ maskUse masked one0 (some 8))
      && usable masked one0 ([groupUse true 60, byW true 62] ++ maskUse masked one0 (some 8))
      && (groupOf (masked.warp 3) one0).all fun f => got (oneValue f (·.reg 63) .read) fun v => v == 0) = true := by decide

/-- A byte string put in physical memory, as the page of address 0 reads it. -/
def withBytes (s : State) (a : Nat) (bs : List Byte) : State := writePhys s none (some 0) (wholeBytes a bs)
/-- The staged warp with its address registers v10:v11 at a number, and memory there. -/
def atWith (a : Nat) (bs : List Byte) : State := withBytes (hereWith (·.setPair 10 a) id) a bs
/-- An element located and then loaded. -/
def loadMet (s : State) (g : Seg) (off n : Nat) (kind : Bool) (tso : Bool) : Bool :=
  got (addrValue g 10 (fibIn s) .read) fun v =>
  met (locate s (s.warp 3) 0 g v off n .read tso) fun p s1 =>
  met (loadElem s1 3 (kind && (fibIn s).relaxed s1 0) p n p.va) fun el s2 =>
    quiet s2 one0 && (!tso || decide (2 ^ 63 ≤ el.copies.headD 0))
theorem met_Loads_element : (aloneUses (atWith 4096 []) [MTy.b128.use 60, addrUse .glob 10]
    && loadMet (atWith 4096 []) .glob (255 * 16) 16 true false) = true := by decide
theorem met_Loads_acquire : (aloneUses (hereWith (·.setReg 10 8128) id) [MTy.b64.use 62, addrUse .loc 10]
    && loadMet (hereWith (·.setReg 10 8128) id) .loc (7 * 8) 8 true false) = true := by decide
theorem met_Loads_future : (aloneUses (atWith 4096 (leBytes 8 (2 ^ 63 + 5))) [two 62, addrUse .glob 10]
    && loadMet (atWith 4096 (leBytes 8 (2 ^ 63 + 5))) .glob 0 8 false true) = true := by decide
theorem met_Loads_return :
    ((here.modWarp 3 fun W => { W with loads := [⟨some 0, [(0, 63, 7)]⟩] }).warp 3).loads[0]? = some ⟨some 0, [(0, 63, 7)]⟩ := by
  decide
/-- A plain place of memory, and a triple one. -/
def plainPlace : Place := ⟨none, 0x1000, 8, .plain, 0, 0, 0, false, 0x1008, false⟩
def triplePlace : Place := { plainPlace with sib := .triple }
theorem met_LoadedWords : plainPlace.sib = .plain ∧ triplePlace.sib = .triple := by decide
/-- A store located and then issued. -/
def storeMet (s : State) (g : Seg) (off n : Nat) (k : AccKind) (tso : Bool) (o : Place → StoreOp) (t : Nat) : Bool :=
  got (addrValue g 10 (fibIn s) k) fun v =>
  met (locate s (s.warp 3) 0 g v off n k tso) fun p s1 =>
  got (issueStore s1 3 (o p) p.va s1.next t) fun s2 => quiet s2 one0 && quiet (commitBlock s2 (s.warp 3)) one0
def storeOf (s : State) (ty : MTy) (t : Reg) (sc : Scope) (rel : Bool) (p : Place) : StoreOp :=
  let w := storeWrites p ty.size ty.fmt ((fibIn s).lanes.map (ty.data t))
  ⟨p, ty.size, w.1, none, sc, rel, 0, 0, w.2.1, w.2.2, 0⟩
theorem met_Stores_plain : (aloneUses (atWith 4096 []) [MTy.b32.use 63, addrUse .glob 10]
    && storeMet (atWith 4096 []) .glob 4 4 .write false (storeOf here .b32 63 .device false) 0) = true := by decide
theorem met_Stores_release : (aloneUses (atWith 4096 []) [MTy.b64.use 62, addrUse .glob 10]
    && storeMet (atWith 4096 []) .glob (63 * 8) 8 .write false (storeOf here .b64 62 .system true) 0) = true := by decide
theorem met_Stores_reduction : (aloneUses (atWith 4096 []) [addrUse .glob 10, atomUse .u64 62]
    && storeMet (atWith 4096 []) .glob 0 8 .rmw false (fun p => ⟨p, 8, [], some ⟨.add, .u64,
      (fibIn here).lanes.map fun l => BitVec.ofNat 64 (atomData .u64 62 l),
      ⟨(laneEnv (atWith 4096 []) one0 Lx.none).mode false, Lx.none.sib, 0, 0⟩⟩, .device, false, 0, 0, 0, 0, 0⟩) 0) = true := by decide
theorem met_Stores_future : (aloneUses (atWith 4096 []) [addrUse .glob 10, two 62]
    && storeMet (atWith 4096 []) .glob 0 8 .write true (fun p => ⟨p, 8, wholeBytes (p.base + p.off) (leBytes 8 (2 ^ 63)),
      none, .device, true, 0, 0, 0, 0, 0⟩) 0) = true := by decide
/-- A store that waits at the head of the warp's queue. -/
def waitingStore : StoreOp := ⟨plainPlace, 4, wholeBytes 0x1008 [1, 2, 3, 4], none, .device, false, 0, 0, 0, 0, 0⟩
def queued : State := here.modWarp 3 fun W => { W with storeQ := [waitingStore] }
theorem met_Stores_drain :
    (there (Tab.find queued.warps 3) fun W => !W.heldStores && W.storeQ == [waitingStore] && waitingStore.rmw.isNone
      && !waitingStore.place.tracked && !opStays queued W.ctx W.core waitingStore
      && (linkCheck queued waitingStore.place 4 .write).1.isNone) = true := by decide
theorem met_Stores_landing :
    (let y : Passing := ⟨waitingStore, none, 3, 1, some 2⟩
     let s := here.modCore 0 fun C => { C with passing := [y] }
     (s.core 0).tracker == [] && (s.core 0).passing == [y] && !y.stuck s) = true := by decide
theorem met_StoredBytes :
    (plainPlace.sib == .plain && triplePlace.sib == .triple && (Tab.find here.warps 3).isSome && !plainPlace.tracked
      && !boardHit here plainPlace 4 true && !locked here (here.warp 3) waitingStore && Tab.rising none here.mem
      && (wholeBytes 8 [1, 2]).all (fun y => y.addr != 10)) = true := by decide
def atomMet (s : State) (n : Nat) (fmt : Option Fmt) (vs : Place → List Nat)
    (g : Nat → Nat → Nat → Option Nat × Flags) : Bool :=
  got (addrValue .glob 10 (fibIn s) .rmw) fun v =>
  met (locate s (s.warp 3) 0 .glob v 0 n .rmw false) fun p s1 =>
  met (performAtomic s1 3 p n p.va fmt (vs p) g) fun r s2 =>
    quiet (acquire (addLoad s2 3 (some 0) (regWrites 62 2 r.1)) 0 .device) one0
theorem met_Atomics_operation : (aloneUses (atWith 4096 []) [atomUse .f64 62, addrUse .glob 10, atomUse .f64 60]
    && atomMet (atWith 4096 []) 8 (atomFmt .f64) (fun _ => (fibIn here).lanes.map (atomData .f64 60)) fun j old y =>
      let e := laneEnv (atWith 4096 []) one0 Lx.none
      let r := atomResult .add .f64 old y (e.mode false) (laneDraw e.seed 0 j 0 0)
      (some r.1, r.2)) = true := by decide
theorem met_Atomics_compare : (aloneUses (atWith 4096 []) [byW true 62, addrUse .glob 10, byW true 60, byW true 0]
    && atomMet (atWith 4096 []) 8 none (fun p => (atomcVals 8 (·.val true 60) (·.val true 0) p (fibIn here)).1) fun _ old z =>
      (if old = z % 2 ^ 64 then some (z / 2 ^ 64) else none, 0)) = true := by decide
theorem met_Atomics_values : atomFmt .u64 = none ∧ 2 ^ 64 - 1 < 2 ^ (8 * atomSize .u64) ∧ atomFmt .i32 = none
    ∧ 2 ^ 31 < 2 ^ (8 * atomSize .i32) := by decide

/-- The staged warp's context has a trap vector. -/
def withVector (s : State) : State := s.modLaunch 1 fun L => { L with lrec := { L.lrec with trapVec := 0x100 } }
theorem met_Copies_piece : (aloneUses (atWith 4096 []) [one 9, addrUse .glob 10] && mayCopy (atWith 4096 []) (base.warp 3)
    && (flushed (atWith 4096 []) 3).1
    && (let s1 := (flushed (atWith 4096 []) 3).2
        met (cpaFibre s1 (laneEnv (atWith 4096 []) one0 Lx.none) one0 s1.next .glob false none 9 10 (fibIn (atWith 4096 [])))
          fun _ s2 => quiet s2 one0)
    && (fibIn (atWith 4096 [])).status == .ready) = true := by decide
/-- A flat copy of 16 bytes from the page to the window, as its command record. -/
def copyRecord : List Byte := leBytes 8 0x2000 ++ leBytes 8 0 ++ leBytes 4 16 ++ leBytes 2 8 ++ List.replicate 42 0
def copies : State := hosted (hereWith (·.setPair 10 4096) id) 4096 copyRecord
theorem met_Copies_bulk : (aloneUses copies [two 62, addrUse .glob 10] && mayCopy copies (copies.warp 3)
    && got (addrValue .glob 10 (fibIn copies) .read) fun v =>
       met (locatePieces copies (copies.warp 3) 0 .glob v 64 16 .read) fun e s1 =>
       (flushed s1 3).1 && met (loadShared (flushed s1 3).2 3 [fibIn copies] e.1 e.2) fun bs s3 =>
       there (recordRanges s3 (recordBoards s3 (copies.warp 3) 2 bs (.carter 2 ((s3.blk 2).carter.issued + 1) 0))) fun s4 =>
         quiet (commitBlock (queueCopy s4 2 bs e.1 0 3 0).2 (copies.warp 3)) one0 && bs == copyRecord) = true := by decide
theorem met_Copies_hint : (aloneUses here [addrUse .trap 63] && quiet here one0) = true := by decide
theorem met_Copies_watch : (aloneUses (atWith 4096 []) [addrUse .glob 10]
    && got (addrValue .glob 10 (fibIn (atWith 4096 [])) .read) fun v =>
       met (locate (atWith 4096 []) ((atWith 4096 []).warp 3) 0 .glob v 0 8 .read false) fun p s1 =>
         (linkCheck s1 p 8 .read).1.isNone && quiet (linkCheck s1 p 8 .read).2 one0) = true := by decide
/-- A monitor in each of its states. -/
def monitored (m : Option Monitor) : State := hereWith id fun W => { W with monitor := m }
theorem met_Copies_wait : ((aloneUses (monitored none) [one 62, one 63]
      && got (oneValue (fib id) (·.reg 63) .read) fun _ => quiet (monitored none) one0) = true)
    ∧ [(monitored none).warp 3, (monitored (some ⟨none, 0, true, false, false⟩)).warp 3,
        (monitored (some ⟨none, 0, false, true, true⟩)).warp 3, (monitored (some ⟨none, 0, false, false, true⟩)).warp 3].map
          (fun W => W.monitor.map fun m => (m.woken, m.moved, m.expired))
      = [none, some (true, false, false), some (false, true, true), some (false, false, true)] := by decide
theorem met_Copies_fence : (aloneMet here one0 Lx.none (fib id) && (flushed here 3).1
    && quiet (acquire (flushed here 3).2 0 .device) one0) = true := by decide

/-- The staged warp with an Abacus register. -/
def abaci : State := (hereWith id fun W => { W with abCount := 1 }).modBlk 2 fun B => { B with abacus := [Abacus.clear true] }
theorem met_AbacusRegisters : (abaci.cur == some one0 && quiet abaci one0 && abacusKey (abaci.warp 3) 0 == some (2, 0)
    && usable abaci one0 [two 62, two 0]) = true := by decide
/-- The same with the image of such a register in its block's window. -/
def imaged : State := abaci.modBlk 2 fun B => { B with win := [(0, 0x42), (1, 0x41), (3, 1)] }
theorem met_AbacusImages_save : (aloneUses imaged [addrUse .loc 63] && abacusKey (imaged.warp 3) 0 == some (2, 0)
    && got (addrValue .loc 63 (fibIn imaged) .write) fun v =>
       met (locatePieces imaged (imaged.warp 3) 0 .loc v 544 16 .write) fun e s1 =>
       got (storePieces s1 3 one0 0 0 e.1 e.2 (abacusAt s1 2 0).image) fun s2 =>
         quiet (commitBlock s2 (imaged.warp 3)) one0) = true := by decide +kernel
theorem met_AbacusImages_load : (aloneUses imaged [addrUse .loc 63]
    && got (addrValue .loc 63 (fibIn imaged) .read) fun v =>
       met (locatePieces imaged (imaged.warp 3) 0 .loc v 544 16 .read) fun e s1 =>
       met (loadShared s1 3 [fibIn imaged] e.1 e.2) fun bs s2 =>
         (Abacus.ofImage (abacusAt s2 2 0).div bs).isSome && quiet s2 one0) = true := by decide +kernel
theorem met_AbacusImages_form : (Abacus.clear true).div = 1 := by decide

theorem met_Branches_relative : (aloneMet here one0 Lx.none (fib id) && quiet here one0) = true := by decide
/-- A table of one entry behind the instruction. -/
def tabled : State := withBytes here 8 (leBytes 4 1 ++ leBytes 4 0xFFFFFFFE)
theorem met_Branches_table : (aloneUses tabled [one 63] && got (oneValue (fibIn tabled) (·.reg 63) .read) fun k =>
    !codeHeld tabled 0 0 8 4 && !codeHeld tabled 0 0 (12 + 4 * k) 4 &&
    met (fetchCode tabled 0 0 8 4) fun n s1 => decide (k < n) && met (fetchCode s1 0 0 (12 + 4 * k) 4) fun _ s2 => quiet s2 one0)
    = true := by decide
theorem met_Branches_return : (aloneUses (hereWith (·.setPair 62 (2 ^ 56 - 4)) id) [two 62]
    && got (oneValue (fib (·.setPair 62 (2 ^ 56 - 4))) (·.pair 62) .read) fun v => v % 4 == 0 && decide (v < 2 ^ 56)) = true := by
  decide

theorem met_Ends : (aloneMet here one0 Lx.none (fib id) && (here.warp 3).fibre? 0 == some (fib id)
    && (here.warp 3).fibres.all (fun g => g.slot == 0) && (here.warp 3).residence == .resident && quiet here one0
    && (here.warp 3).stack == []) = true := by decide
/-- Two fibres with a reconvergence entry; the second has come, or not. -/
def paired (st : Status) : State := hereWith id fun W =>
  { W with stack := [⟨9, 0, [0, 1]⟩], fibres := W.fibres ++ [{ newFibre true 0 1 1 0 with status := st }] }
theorem met_Reconvergence :
    (aloneMet (paired (.entry 9)) one0 Lx.none (fib id) && quiet (paired (.entry 9)) one0
      && ((paired (.entry 9)).warp 3).stack == [⟨9, 0, [0, 1]⟩] && ((paired (.entry 9)).warp 3).fibre? 0 == some (fib id)
      && ((paired (.entry 9)).warp 3).fibres.all (fun g => g.slot == 0 || g.status == .entry 9)
      && ((paired .ready).warp 3).fibres.any (fun g => g.slot == 1 && g.status != .entry 9)) = true := by decide
/-- The Shuttle of a core full. -/
def childOf (s : State) : Child := ⟨0, 1, 0, (fibIn s).lanes.map fun l => [BitVec.ofNat 32 (l.reg 0)], childTid 0 0, 0, 0, 0⟩
theorem met_Spawning_child : (aloneUses here [two 62, two 0, ⟨0, 1, 1⟩] && !(here.launch 1).lrec.ordered
    && got (oneValue (fib id) (·.pair 62) .read) fun v => v % 4 == 0 && decide (v < 2 ^ 56) && got (releaseAt here 3 .device) fun s1 =>
      there (placeChild s1 (childOf here)) fun s2 => quiet (commitBlock s2 (here.warp 3)) one0) = true := by decide
theorem met_Spawning_full :
    got (releaseAt (here.modCore 0 fun K => { K with shuttle := List.replicate shuttleSize (childOf here) }) 3 .device) (fun s1 =>
      (placeChild s1 (childOf here)).isNone) = true := by decide
theorem met_Spawning_joins : (aloneUses here [one 63, two 62] && quiet here one0
    && aloneUses (atWith 4096 (leBytes 8 (5 * 2 ^ 32))) [one 63, addrUse .glob 10]
    && got (oneValue (fibIn (atWith 4096 (leBytes 8 (5 * 2 ^ 32)))) (·.pair 10) .read) fun v => v != 0
      && met (locate (atWith 4096 (leBytes 8 (5 * 2 ^ 32))) (base.warp 3) 0 .glob v 0 8 .read true) fun p s1 =>
         met (loadElem s1 3 false p 8 p.va) fun el s2 => el.copies.headD 0 % 2 ^ 32 == 0 && decide (el.copies.headD 0 < 2 ^ 48)
           && quiet (acquire s2 0 .device) one0) = true := by decide

theorem met_TrapsRaised : ((withVector here).cur == some one0 && quiet (withVector here) one0
    && ((withVector here).launch 1).lrec.trapVec != 0 && (groupOf ((withVector here).warp 3) one0) == [fib id]
    && (guardOf Lx.none (fib id)).1 && handlerFree ((withVector here).warp 3) [fib id]
    && !armed ((withVector here).ctx 0)) = true := by decide
theorem inLine_here : InLine ((withVector here).warp 3) := by simp only [InLine]; decide
theorem met_ComparisonsAndMoves_odd : ((withVector here).cur == some one0 && quiet (withVector here) one0
    && ((withVector here).launch ((withVector here).warp 3).launch).lrec.trapVec != 0 && (63 : Reg).toNat % 2 == 1
    && groupOf ((withVector here).warp 3) one0 != []) = true := by decide
/-- A comparator that arms the breakpoint instruction. -/
def armedHere : State := here.modCtx 0 fun C => { C with dbgctl := 4, dbgr := true }
theorem met_TrapsRaised_armed : (aloneMet armedHere one0 Lx.none (fib id) && armed (armedHere.ctx 0)
    && (armedHere.warp 3).blk == some 2 && (armedHere.blk 2).state != .ready && (Tab.find armedHere.blocks 2).isSome) = true := by decide
/-- A fragment of the fibre, queued. -/
def fragment : Fragment := ⟨1, 0, 0x0210, 0, [0], [0], 4, 0, 0, 7, 0, 0, 0⟩
def delivered : State := (withVector (cached base)).modWarp 3 fun W => { W with
  window := 0, queue := [fragment], fibres := W.fibres.map fun f => { f with status := .fragment 1 } }
theorem met_TrapEntry : (warpRuns delivered 3 && (delivered.warp 3).storeQ == []
    && (passCores delivered 0).all (fun k => (delivered.core k).passing == [])
    && deliverable (delivered.warp 3).settle == some fragment
    && decide (frameBytes 0 ≤ ((delivered.warp 3).settle.seg .trap).size)
    && decide (((delivered.warp 3).settle.seg .trap).baseAddr + frameOffset (delivered.warp 3).settle 0 + frameBytes 0 ≤ 2 ^ 56)
    && met (structCheck delivered 0 .write (piecesOf (frameOffset (delivered.warp 3).settle 0)
        (frameOf delivered (delivered.warp 3).settle fragment 0).length)) fun _ _ => true) = true := by decide +kernel
theorem structWrite_ok {s s1 : State} {c va : Nat} {bs : List Byte} {ps : List (Place × Nat)}
    (h : structCheck s c .write (piecesOf va bs.length) = (.ok ps, s1)) : ∃ u, structWrite s c va bs = (.ok u, u) :=
  ⟨_, by rw [structWrite, h]⟩
/-- A handler that runs and its frame of zeros. -/
def handling : State := ({ cached base with cur := some one0 } : State).modWarp 3 fun W => { W with
  window := 0, handlers := [⟨1, 0, [0]⟩], fibres := W.fibres.map fun f => { f with frag := 1 } }
theorem met_Resuming : ((groupOf (handling.warp 3) one0).all (fun f => f.frag == 1)
    && handlerLive (handling.warp 3) ⟨1, 0, [0]⟩ == (groupOf (handling.warp 3) one0).map (·.slot)
    && (handling.warp 3).storeQ == [] && (passCores handling 0).all (fun k => (handling.core k).passing == [])
    && met (frameRead handling 3 ((handling.warp 3).sval true 58) (frameBytes 0)) fun bs _ =>
      field bs 8 8 % 4 == 0 && decide (field bs 8 8 < 2 ^ 56)) = true := by decide +kernel
theorem met_Resuming_completes :
    (let W := handling.warp 3
     let ea := (W.seg .trap).baseAddr + W.sval true 58
     handling.cur == some one0 && W.handlers == [⟨1, 0, [0]⟩] && decide (W.area * (W.seg .trap).size ≤ W.sval true 58)
      && decide (W.sval true 58 + frameBytes W.window ≤ (W.area + 1) * (W.seg .trap).size)
      && decide (ea + frameBytes W.window ≤ 2 ^ 56)
      && met (structCheck handling W.ctx .read (piecesOf ea (frameBytes W.window))) fun ps s1 =>
        ps.all (fun y => !poisoned s1 y.1 y.2)
        && field (ps.flatMap fun y => freshBytes s1 y.1 (y.1.base + y.1.off) y.2) 8 8 == 0) = true := by decide +kernel
theorem met_Resuming_outside : here.cur = some one0 ∧ (here.warp 3).handlers = [] := by decide

/-- The staged warp with its uniform registers changed. -/
def hereS (h : Warp → Warp) : State := hereWith id h
/-- A ring with one token, in the staged block. -/
def ringed : State := here.modBlk 2 fun B => { B with rings := [⟨[(0, 7)], 0, 0, 1⟩, ⟨[], 0, 0, 16⟩, Ring.empty, Ring.empty] }
theorem met_UniformArithmetic :
    (uniMet ringed one0 [portUse false 61, portUse false 60, portUse false 3]
      && met (readSources ringed one0 (portBlk ringed one0) (waitingSince ringed one0) false [60, 3]) fun vs s1 => vs == [7, 0]
        && got (writeDest s1 one0 (portBlk ringed one0) (waitingSince ringed one0) false 62 9) fun s2 => quiet s2 one0) = true := by
  decide
theorem met_UniformArithmetic_shift :
    (uniMet here one0 [portUse true 58, portUse true 0, portUse false 59]
      && met (readSource here one0 2 4 true 0) fun _ s1 => met (readSource s1 one0 2 4 false 59) fun _ s2 =>
        got (writeDest s2 one0 2 4 true 58 0) fun s3 => quiet s3 one0) = true := by decide
theorem met_UniformReads :
    (uniMet here one0 [portUse true 58, plainUse false 0] && usable here one0 [byW true 62] && quiet here one0
      && ((here.warp 3).fibre? ((here.warp 3).sreg 0)).isSome && groupOf (here.warp 3) one0 != []
      && got (writeDest here one0 2 4 true 58 0) fun s1 => quiet s1 one0 && groupOf (s1.warp 3) one0 != []) = true := by decide
theorem met_UniformBranches :
    (uniMet here one0 [] && uniMet (hereS fun W => W.setSval true 58 (2 ^ 56 - 4)) one0 [plainUse true 58]
      && ((hereS fun W => W.setSval true 58 (2 ^ 56 - 4)).warp 3).sval true 58 == 2 ^ 56 - 4) = true := by decide
theorem met_UniformOperands :
    ((ringAt ringed 2 0).count != 0 && !olderWaits ringed 2 4 (· == .ringToken 0) && (ringAt ringed 2 2).count == 0
      && decide ((ringAt ringed 2 2).count < 16) && !olderWaits ringed 2 4 (· == .ringRoom 2) && (flushed ringed 3).1
      && (ringAt ringed 2 1).count == 16 && Tab.rising none (ringAt ringed 2 0).tokens) = true := by decide
/-- The staged warp with a pair of uniform registers as the address 4096. -/
def uniAt (bs : List Byte) : State := withBytes (hereS fun W => W.setSval true 4 4096) 4096 bs
theorem met_UniformMemory_load : (uniMet (uniAt []) one0 [⟨56, usizeRegs .b16, false⟩, uniAddrUse .glob 4]
    && met (locate (uniAt []) ((uniAt []).warp 3) 0 .glob (uniAddr ((uniAt []).warp 3) .glob 4) (63 * 16) 16 .read false) fun p s1 =>
       met (loadElem s1 3 ((standing ((uniAt []).warp 3)).all (·.relaxed s1 0)) p 16 p.va) fun el s2 =>
         quiet (addLoad s2 3 none (regWrites 56 4 [el.copies.headD 0])) one0) = true := by decide
theorem met_UniformMemory_store : (uniMet (uniAt []) one0 [⟨58, usizeRegs .b8, false⟩, uniAddrUse .glob 4]
    && met (locate (uniAt []) ((uniAt []).warp 3) 0 .glob 4096 0 8 .write false) fun p s1 =>
       got (issueStore s1 3 ⟨p, 8, uniWrites p 8 0, none, .device, false, 0, 0, 0, 0, 0⟩ p.va s1.next 0) fun s2 => quiet s2 one0)
    = true := by decide
theorem met_UniformMemory_atomic : (uniMet (uniAt []) one0 [plainUse true 58, plainUse true 4, plainUse true 0]
    && satomTy 2 == .u64 && met (locate (uniAt []) ((uniAt []).warp 3) 0 .glob 4096 0 8 .rmw true) fun p s1 =>
       met (performAtomic s1 3 p 8 p.va none [5] fun _ old v =>
         (some (atomResult .inc .u64 old v modeRN 0).1, (atomResult .inc .u64 old v modeRN 0).2)) fun r s2 =>
         quiet (acquire (s2.modWarp 3 fun W => W.setSval true 58 (r.1.headD 0)) 0 .device) one0) = true := by decide
/-- Barrier 15 of the staged block in a state of its own. -/
def barred (v : Barrier) : State := (hereS fun W => W.setSreg 5 1).modBlk 2 fun B => { B with bars := setAt B.bars 15 v }
def bar (count arr : Byte) (bytes : Double) : Barrier := { Barrier.zero with count := count, arr := arr, bytes := bytes }
theorem met_Barriers : (uniMet (barred (bar 2 0 0)) one0 [plainUse false 5] && ((barred (bar 2 0 0)).warp 3).blk == some 2
    && ((barred (bar 2 0 0)).warp 3).sreg 5 % 256 == 1 && barAt (barred (bar 2 0 0)) 2 15 == bar 2 0 0
    && !computeOnly (barred (bar 2 0 0)) ((barred (bar 2 0 0)).warp 3) (bar 2 0 0)
    && got ((bar 2 0 0).arrive (signedBytes 1)) (fun _ => true) && got ((bar 2 0 0).expect (signedBytes 1)) (fun _ => true)
    && (flushed (barred (bar 2 0 0)) 3).1 && (bar 2 0 0).owed.isNone
    && decide (((bar 2 0 0).phase.toNat + 65536 - 65535) % 65536 < 32768) && quiet (barred (bar 2 0 0)) one0) = true := by decide
theorem met_Barriers_team : (uniMet here one0 [] && (groupOf (here.warp 3) one0).all (fun f => f.status == .ready)
    && got (releaseAt here 3 .cluster) fun s1 =>
      teamAll s1 (here.blk 2).launch (here.blk 2).team (insertNat (teamBar here 1 (here.blk 2).team).arrived 3)) = true := by decide
/-- The staged fibre waits. -/
def waiting (why : WaitFor) : State := hereS fun W =>
  { W with fibres := W.fibres.map fun f => { f with status := .waiting ⟨why, .cbar false, none, 0, 1⟩ } }
theorem waitsFor_waiting (why : WaitFor) : waitsFor (waiting why) one0 why := by
  have h : groupOf ((waiting why).warp one0.warp) one0
      = [{ fib id with status := .waiting ⟨why, .cbar false, none, 0, 1⟩ }] := rfl
  rw [waitsFor, h]
  refine ⟨by simp, fun f hf => ⟨.cbar false, none, 0, 1, ?_⟩⟩
  rw [List.mem_singleton] at hf
  rw [hf]
theorem met_Barriers_phase : waitsFor (waiting (.teamPhase 1)) one0 (.teamPhase 1)
    ∧ (teamBar (waiting (.teamPhase 1)) 1 2).phase ≠ 1 ∧ quiet (waiting (.teamPhase 1)) one0 = true :=
  ⟨waitsFor_waiting _, by decide, by decide⟩
theorem met_Barriers_cases :
    ((bar 0 0 0).count = 0) ∧ ((bar 255 255 0).count ≠ 0 ∧ (bar 255 255 0).arr = (bar 255 255 0).count)
    ∧ ((bar 255 254 5).arr + 1 = (bar 255 254 5).count ∧ (bar 255 254 5).bytes + (-5) = 0)
    ∧ ((bar 1 0 0).arr + 1 = (bar 1 0 0).count ∧ ((bar 1 0 0).bytes + (-1)).toInt < 0)
    ∧ ((bar 2 0 0).arr ≠ (bar 2 0 0).count ∧ (bar 2 0 0).arr + 1 ≠ (bar 2 0 0).count)
    ∧ ((bar 1 1 5).arr = (bar 1 1 5).count ∧ (bar 1 1 5).bytes + (-5) = 0 ∧ ((bar 1 1 5).bytes + (-6)).toInt < 0) := by decide
/-- A full pool, and the staged warp with a small window. -/
def pooled : State := (hereS fun W => { W with window := 8 }).modBlk 2 fun B => { B with pool := 56 }
theorem met_UniformQueues_wait : (uniMet here one0 [] && quiet here one0 && (here.warp 3).loads.length == 0
    && storesOut here 3 == 0 && tilesOut here (some 2) == 0) = true := by decide
theorem met_UniformQueues_registers : ((pooled.warp 3).blk == some 2 && !inHandler (pooled.warp 3) one0
    && decide ((pooled.warp 3).window + 8 * 7 ≤ 64) && decide (8 * 7 ≤ (pooled.blk 2).pool)
    && !olderWaits pooled 2 (waitingSince pooled one0) (fun why => match why with | .pool _ => true | _ => false)
    && decide (8 * 7 + 8 ≤ (here.warp 3).window) && !loadsHold (here.warp 3) ((here.warp 3).fibres.map (·.slot)) [(8, 56)] [] && !inHandler (here.warp 3) one0) = true := by decide
theorem met_UniformQueues_rings : (uniMet ringed one0 [plainUse false 59] && (ringAt ringed 2 0).count != 0
    && !olderWaits ringed 2 ringed.next (· == .ringToken 0) && (ringAt ringed 2 3).count == 0
    && decide ((ringAt ringed 2 3).count < 16) && !olderWaits ringed 2 ringed.next (· == .ringRoom 3)
    && decide (16 ≤ (ringAt ringed 2 1).count)) = true := by decide
theorem met_UniformQueues_order : (uniMet here one0 [plainUse true 58]
    && decide ((here.warp 3).sval true 58 ≤ timelineOf here .mx 2) && !(here.launch 1).lrec.ordered
    && (let o := here.modLaunch 1 fun L => { L with lrec := { L.lrec with ordered := true } }
        (o.launch (o.warp 3).launch).lrec.ordered && isHead o 2 && uniMet o one0 [] && quiet (acquire o 0 .device) one0))
    = true := by decide
/-- A tensor record and a tile entry of the staged context. -/
def tagged : State := (hereS fun W => (W.setSreg 6 5).setSreg 7 (3 * 65536 + 9)).modCtx 0 fun C =>
  { C with tensors := [(9, ⟨0, false, true⟩)], tiles := [(tileKey 9 5, 2)] }
theorem met_TagsAndTasks_tags : (uniMet tagged one0 [plainUse false 8, plainUse false 6, plainUse false 7] && (flushed tagged 3).1
    && got (tagPublish tagged 0 1 0 9 5 3 (nameOf tagged (tagged.warp 3) 0)) (fun s2 => quiet s2 one0)
    && Tab.find (tagged.ctx 0).tiles (tileKey 9 5) == some 2 && Tab.find (tagged.ctx 0).tiles (tileKey 9 6) == none) = true := by decide
/-- A queue table at 8192 whose queue 63 is enabled and holds, or could hold, a task. -/
def tasked (ts : List Task) : State :=
  hosted ((hereS fun W => (W.setSval true 4 4096).setSreg 6 63).modCtx 0 fun C =>
    { C with tqtable := 8192, queues := [(63, ⟨ts, 0, none⟩)] }) (8192 + 32 * 63)
    (leBytes 8 0x3000 ++ leBytes 8 0 ++ leBytes 4 1 ++ leBytes 4 1)
def someTask : Task := taskOf (List.replicate 64 0) 1 63 0x3000
theorem met_TagsAndTasks_push : (uniMet (tasked []) one0 [plainUse true 4, plainUse false 6]
    && met (enabledQueue (tasked []) one0 ((tasked []).warp 3) 63) fun ent s1 =>
       met (locatePieces s1 ((tasked []).warp 3) 0 .glob 4096 64 64 .read) fun e s2 => got (releaseAt s2 3 .device) fun s3 =>
       met (loadShared s3 3 (standing ((tasked []).warp 3)) e.1 e.2) fun bs s4 => !queueFull s4 0 63 ent
       && met (pushTask s4 0 63 ent bs none) fun s5 _ => quiet s5 one0) = true := by decide +kernel
theorem met_TagsAndTasks_full :
    (met (enabledQueue (tasked [someTask]) one0 (base.warp 3) 63) fun ent s1 => queueFull s1 0 63 ent) = true := by decide +kernel
theorem met_TagsAndTasks_take : (uniMet (tasked [someTask]) one0 [plainUse true 4, plainUse false 6]
    && met (enabledQueue (tasked [someTask]) one0 ((tasked [someTask]).warp 3) 63) fun _ s1 =>
       met (locatePieces s1 ((tasked [someTask]).warp 3) 0 .glob 4096 64 64 .write) fun e s2 => e.2.all (fun p => !p.tracked)
       && nextTask s2 0 63 == some someTask && nextTask s2 0 62 == none
       && met (structRead s2 0 someTask.slot 64) fun _ s3 =>
       got (storePieces s3 3 one0 0 0 e.1 e.2 someTask.raw) fun s4 => quiet s4 one0) = true := by decide +kernel
theorem met_SystemRegisters : (uniMet here one0 [plainUse true 58]
    && got (flagsReady here 3 .numflags) (fun s1 => quiet s1 one0) && (here.warp 3).blk == some 2
    && ((hereS fun W => { W with blk := none }).warp 3).blk == none
    && BitVec.ofNat 32 ((here.warp 3).sreg 0) == here.dev.rmver
    && decide (2 ^ 31 ≤ (BitVec.ofNat 32 ((here.warp 3).sreg 0) - (here.modDev fun D => { D with rmver := 1 }).dev.rmver).toNat)) = true := by
  decide
/-- A privileged handler of the staged fibre. -/
def privileging : State := (hereS fun W => { W with
  handlers := [⟨1, 0, [0]⟩], fibres := W.fibres.map fun f => { f with frag := 1 } }).modCtx 0 fun C => { C with sysr := true }
theorem met_SystemRegisters_segment : (uniMet privileging one0 [plainUse true 4] && (privileging.ctx 0).sysr
    && met (locatePieces privileging (privileging.warp 3) 0 .glob 0 16 16 .read) fun e s1 =>
       met (loadShared s1 3 (groupOf (privileging.warp 3) one0) e.1 e.2) fun bs s2 => decide (field bs 0 8 < 2 ^ 56) && decide (field bs 8 8 < 2 ^ 48) && quiet s2 one0)
    = true := by decide
theorem met_Invalidations : waitsFor (waiting (.inval 7)) one0 (.inval 7) ∧ (∀ v ∈ (waiting (.inval 7)).invals, v.id ≠ 7)
    ∧ uniMet (waiting (.inval 7)) one0 [plainUse true 58] = true
    ∧ privileged privileging one0 (privileging.warp 3) = true
    ∧ handlerFree (privileging.warp 3) (groupOf (privileging.warp 3) one0) = true
    ∧ (∀ f ∈ groupOf (privileging.warp 3) one0, f.status = .ready) :=
  ⟨waitsFor_waiting _, by decide, by decide, by decide, by decide, by decide⟩
theorem met_Invalidations_complete :
    (([(⟨7, .page 0 65536, none⟩ : Inval)])[0]? == some ⟨7, .page 0 65536, none⟩
      && [InvalKind.page 0 65536, .asid 0].all (fun k => !((openOps (landAll here)).any (fun x => covered (landAll here) k x.1 x.2.place)
        || (openCpas (landAll here)).any fun x => covered (landAll here) k x.1 x.2))
      && got (walkCtx here 0 0) fun _ => true) = true := by decide

/-- A layout record: a tensor of one element of a type at offset 0 (Table 12-3). -/
def layRecord (typ : Nat) : List Byte :=
  leBytes 8 0 ++ leBytes 1 typ ++ [0, 0, 1, 0, 0, 0, 0] ++ leBytes 4 1 ++ List.replicate 12 0 ++ List.replicate 32 0
/-- A Foreman context with a layout in each slot but the last. -/
def foreman : Foreman := { Foreman.start 0 false with
  slots := (List.range 7).map (fun i => some ⟨layRecord (if i = 3 then 14 else if i = 4 then 7 else if i = 5 then 0 else 4), [0, 0, 0, 0]⟩) ++ [none]
  loops := [(64, 2)] }
def fmWord : FmIssue := ⟨2, 8, 0⟩
/-- The staged block with that context, a Foreman word in execution, tiles, and a record in its window. -/
def fmWith (g : Foreman → Foreman) : State :=
  ({ base with fcur := some (fmWord, .mend) } : State).modBlk 2 fun B => { B with
    fm := some (g foreman), tiles := List.replicate 6 ⟨some false, []⟩, win := [(8, 4), (11, 1), (16, 1)] }
def fm0 : State := { fmWith id with fcur := none }
theorem atForeman_fmWith : AtForeman (fmWith id) fmWord foreman := ⟨⟨.mend, by decide⟩, by decide⟩
theorem met_ForemanConfiguration :
    (got (windowRead fm0 2 foreman 0 64) (fun bs => (Layout.parse true bs).isSome) && (0x40 : BitVec 20).toNat % 64 == 0
      && (0xFFFFF : BitVec 20).toNat % 64 != 0 && (foreman.slots[6]?).any (·.isSome) && foreman.slots[7]? == some none
      && got (windowRead fm0 2 foreman 16 4) (fun bs => leNat bs == 1)) = true := by decide
theorem met_ForemanTiles_issue : (decide (foreman.cmds.length < 8) && !sequenceHolds fm0 2 3 foreman.issued foreman.timeline
    && slotsOk fm0 2 3 true && slotsOk fm0 2 5 false && !slotsOk fm0 2 6 false && !slotsOk fm0 2 1 true) = true := by decide
/-- The conditions of a multiplication. -/
def matMet (k : Nat) (pm : PlaneMode) (a b : BitVec 3) (md : Option (BitVec 3)) (sc : Option (BitVec 3 × BitVec 3)) : Bool :=
  got (matArgs fm0 2 .word foreman.slots pm a b md sc) fun m => slotsOk fm0 2 k m.three
    && m.planesOk (!(fm0.launch 1).lrec.single)
    && m.operands.all (fun o => o.1.bounded fm0 o.2 && (o.1.spans o.2).all fun r => !rangeHeld fm0 r false)
    && (withTiles fm0 2 foreman (tileSlots k m.three) m.plan.int).isSome
theorem met_ForemanTiles_multiply : (matMet 5 .one 0 1 none none && matMet 3 .shared 2 6 none none) = true := by decide +kernel
theorem met_ForemanTiles_forms : (matMet 0 .one 0 1 (some 3) none && matMet 0 .one 0 1 none (some (4, 4))) = true := by
  decide +kernel
theorem met_ForemanTiles_read : (got (operandOf fm0 2 .word (laySlot foreman.slots 5)) fun o =>
    (cmdTiles (.mrd 5 0 5)).all (fun q => !slotsOk fm0 2 q false) == false && !o.lay.bitplane && o.bounded fm0 128
    && (o.spans 128).all (fun r => !rangeHeld fm0 r true) && cmdTiles (.mrd 5 0 5) != []
    && (cmdTiles (.mrd 5 0 5)).all (fun q => slotType (ensureTiles fm0 2 foreman (cmdTiles (.mrd 5 0 5))) 2 foreman q == some false)
    && mrdType false o.lay.typ && o.lay.sib == .plain
    && (cmdTiles (.mcol 3 5)).all (fun q => slotsOk fm0 2 q false
      && slotType (ensureTiles fm0 2 foreman (cmdTiles (.mcol 3 5))) 2 foreman q == some false)) = true := by decide +kernel
theorem met_ForemanTiles_stamp : (got (clusterAddr fm0 2 0x3F8 8 .write) fun _ =>
    (stampRange fm0 2 0x3F8).all fun r => !rangeHeld fm0 r true) = true := by decide
/-- The context with loops, none or four. -/
def looped (n : Nat) : State := fmWith fun F => { F with loops := List.replicate n (64, 1) }
def fmBar : State := fm0.modBlk 2 fun B => { B with bars := setAt B.bars 15 { Barrier.zero with count := 1, fm := true } }
theorem met_ForemanControl : (foreman.cmds == [] && (barAt fmBar 2 15).count != 0 && (barAt fmBar 2 15).fm
    && got ((barAt fmBar 2 15).arrive 0) (fun _ => true)
    && decide (((barAt fmBar 2 15).phase.toNat + 65536 - (0xFFFF : BitVec 16).toNat) % 65536 < 32768)
    && decide (32768 ≤ ((barAt fmBar 2 15).phase.toNat + 65536 - (foreman.wph.getD 15 0).toNat) % 65536)
    && decide (foreman.loops.length < 4) && foreman.loops == [(64, 2)]
    && (looped 1).blk 2 != fm0.blk 2 && ((looped 0).blk 2).fm.any (fun F => F.loops == [])
    && ((looped 4).blk 2).fm.any (fun F => decide (4 ≤ F.loops.length) && F.loops.head? == some (64, 1))
    && got (windowRead fm0 2 foreman 16 4) (fun bs => leNat bs == 1)) = true := by decide
theorem met_ForemanControl_fetch : ((fm0.blk 2).fm.any (fun F => !F.ended && !F.stopped) && fm0.fcur.isNone && engineRuns fm0 2
    && (matching (fm0.ctx 0) 1 0 0).isNone && met (fetchWord fm0 2 0) (fun _ _ => true)) = true := by decide
/-- A clearing in flight behind no other command. -/
def clearing : FmCmd := ⟨1, .mclr 0 false true, 0, 0, 1, 0, []⟩
theorem met_ForemanCompletion :
    ([clearing].find? (fun c => c.n == 1) == some clearing && !onArray clearing.op
      && [clearing].all (fun x => !decide (x.n < 1) || !cmdAfter fm0 2 x clearing)
      && got (performCmd fm0 2 clearing) (fun _ => true)
      && there (Tab.find fm0.blocks 2) fun B => decide (0 < B.tiles.length)) = true := by decide
/-- A product in flight on the array, which may owe a test. -/
def product : FmCmd := ⟨1, .mma 5 .one 0 1, 0, 0, 1, 0, foreman.slots⟩
def multiplying (cycles : Nat) : State := (fm0.modBlk 2 fun B => { B with
  fm := B.fm.map fun F => { F with issued := 1, cmds := [product] } }).modCore 0 fun K => { K with arrayCycles := cycles }
theorem met_ForemanCompletion_array : (!testDue (multiplying 0) 0 && arrayTurn (multiplying 0) 0 == some 2 && onArray product.op
    && testDue (multiplying 65536) 0
    && got (cmdArgs (multiplying 0) 2 .effect product) fun m => decide (5 + (if m.three then 3 else 1) ≤ 6)) = true := by
  decide +kernel
theorem met_ForemanCompletion_effects :
    (got (operandOf fm0 2 .effect (laySlot foreman.slots 5)) (fun o => (typFmt o.lay.typ).isSome && o.lay.sib == .plain)
      && got (clusterAddr fm0 2 0x3F8 8 .write) (fun a => match a with | .win m _ => (fm0.blk m).winSib == .plain | _ => false))
    = true := by decide +kernel

/-- A copy of 16 bytes within the window, its record good, and one whose record is not. -/
def goodRecord : List Byte := leBytes 8 0 ++ leBytes 8 64 ++ leBytes 4 16 ++ [8 + 1, 0, 0, 2] ++ List.replicate 40 0
def copyCmd (started : Bool) (ps : List Piece) : CopyCmd := ⟨1, goodRecord, 0, 0, 3, base.warp 3 |>.segs, 0, none, started, ps, [], [], 0, none⟩
def copying (c : CopyCmd) : State := here.modBlk 2 fun B => { B with carter := ⟨0, 1, [c], [], 0⟩ }
theorem met_CopyEngine_start : (engineRuns (copying (copyCmd false [])) 2
    && [copyCmd false []].all (fun x => x.fault.isNone && (!decide (x.n < 1) || x.started))
    && !sourceAfter (copying (copyCmd false [])) 2 (copyCmd false []) none
    && !sequenceHolds (copying (copyCmd false [])) 2 2 0 0
    && (CopyRec.ofBytes goodRecord).ok 1 && !(CopyRec.ofBytes goodRecord).layout && !(CopyRec.ofBytes copyRecord).ok 1
    && !(CopyRec.ofBytes goodRecord).stamp) = true := by decide
/-- A context whose BUDGET for Carter caps nothing and that has used none is not at its cap. -/
theorem atCap_carter {s : State} {c k : Nat}
    (h : ((s.ctx c).budgets.getD 1 0 == 0x04000000 && (s.ctx c).used .carter k == 0) = true) : atCap s c .carter k = false := by
  simp only [Bool.and_eq_true, beq_iff_eq] at h
  have hc : (s.ctx c).cap .carter = Config.carterBytes + 1 := by
    have : (0x04000000 : Double).toNat / 65536 % 65536 = 1024 := by decide
    unfold Ctx.cap
    simp only [Resource.register, Resource.index, Resource.capacity]
    rw [h.1, this]
    omega
  unfold atCap
  rw [decide_eq_false_iff_not, hc, h.2]
  omega
/-- A block whose context alone has blocks has no rival. -/
theorem carterRival_one {s : State} {b : Nat} (h : s.blocks.all (fun e => e.2.ctx == (s.blk b).ctx) = true) :
    carterRival s b = false := by
  simp only [List.all_eq_true, beq_iff_eq] at h
  simp only [carterRival, Bool.and_eq_false_iff, List.any_eq_false]
  right
  intro e he
  simp [h e he]
theorem met_CopyEngine_land :
    (met (copyPiece (copying (copyCmd true [⟨0, none⟩])) 2 (copyCmd true [⟨0, none⟩]) ⟨0, none⟩) fun r s1 =>
      got (copyWrite s1 2 (copyCmd true [⟨0, none⟩]) r.1 r.2.1 r.2.2) fun _ => true) = true
    ∧ atCap (copying (copyCmd true [⟨0, none⟩])) 0 .carter 0 = false ∧ carterRival (copying (copyCmd true [⟨0, none⟩])) 2 = false :=
  ⟨by decide, atCap_carter (by decide), carterRival_one (by decide)⟩
/-- A piece of a `cpa` between two places of the window. -/
def winPlace0 (off : Nat) : Place := ⟨some 2, 0, off, .plain, 0, 0, 0, false, off, false⟩
def piece0 : CpaPiece := ⟨1, winPlace0 0, winPlace0 64, none, 2, 0, 0⟩
def pieced : State := here.modWarp 3 fun W => { W with cpas := [piece0] }
theorem met_CopyEngine_piece : (there (Tab.find pieced.warps 3) (fun W => !W.heldStores && W.cpas[0]? == some piece0)
    && (linkCheck pieced piece0.src 16 .read).1.isNone
    && !linkDown (linkCheck pieced piece0.src 16 .read).2 piece0.src
    && !budgetHeld (linkCheck pieced piece0.src 16 .read).2 0 piece0.src false
    && got (stagedBytes (linkCheck pieced piece0.src 16 .read).2 2 piece0.src 16) fun _ => true) = true := by decide
theorem met_CopyEngine_stamp : (let r := { CopyRec.ofBytes goodRecord with flags := 0x49, stampAddr := 128 }
    r.stamp && got (copyStamp (copying (copyCmd true [])) 2 (copyCmd true []) r).1 fun _ => true) = true := by decide

theorem met_IllegalEncodings : (here.cur == some one0 && groupOf (here.warp 3) one0 != []
    && ((withVector here).launch 1).lrec.trapVec != 0 && !usesOk (here.warp 3).window [byW true 63] && (here.warp 3).loads == []
    && !usesOk ((pooled).warp 3).window [one 8] && !usesOk 64 [byTy .f64 1] && quiet (withVector here) one0) = true := by decide

/-- The device page changed in the staged module. -/
def device (g : Device → Device) : State := base.modDev g
theorem fitBytes_length (n : Nat) (bs : List Byte) : (fitBytes n bs).length = n := by simp [fitBytes]
theorem leBytes_length (n v : Nat) : (leBytes n v).length = n := by
  induction n generalizing v with
  | zero => rfl
  | succ n h => simp [leBytes, h]
theorem reportBody_length (D : Device) (h : D.attnonce.length = 4) : (reportBody D).length = 176 := by
  simp [reportBody, List.length_flatMap, leBytes_length, fitBytes_length, List.map_const', h]
theorem met_DeviceRegisters :
    (base.dev.ideActive && (device fun D => { D with pwrLock := true }).dev.pwrLock && !base.dev.pwrLock
      && base.ctxs.any (fun e => e.2.state == .running) && State.reset.ctxs.all (fun e => e.2.state != .running)
      && !base.dev.attBusy && base.dev.keyPending.isNone && decide (511 < 512) && base.dev.keydata.length == 8
      && !base.dev.fwBusy && islandOn base 27) = true := by decide
theorem met_DeviceRegisters_ends :
    ((device fun D => { D with fwBusy := true }).dev.fwBusy && (device fun D => { D with attBusy := true, pufFailed := true }).dev.pufFailed
      && (device fun D => { D with keyPending := some (511, some 5) }).dev.keyPending == some (511, some 5)
      && Tab.rising none base.keys) = true := by decide
theorem met_DeviceRegisters_report : ∀ bs : List Byte,
    (reportBody base.dev ++ fitBytes 29792 bs).length = 29968 ∧ physOk base base.dev.attaddr.toNat 29968 = true := fun bs =>
  ⟨by rw [List.length_append, reportBody_length _ (by decide), fitBytes_length], by decide⟩

/-- Context 0 changed in the staged module. -/
def context (g : Ctx → Ctx) : State := base.modCtx 0 g
theorem met_ContextRegisters :
    (base.dev.ideActive && (base.ctx 7).state == .free && !(base.ctx 7).discarding && (base.ctx 0).state == .running
      && ((context fun C => { C with state := .stopped }).ctx 0).state == .stopped && base.dev.nearpartNext.isNone
      && (context fun C => { C with state := .stopped }).ctxs.all (fun e => e.1 == 0 || e.2.state == .free)
      && ((context fun C => { C with state := .suspended }).ctx 0).state == .suspended
      && ((base.modCtx 1 fun C => { C with state := .stopped, asid := 9 }).ctxs.any fun e => e.1 != 0 && e.2.state != .free && e.2.asid == 9)
      && (base.ctx 0).ackVersion == base.dev.rmver && !anySaved base 0
      && anySaved (base.modWarp 3 fun W => { W with residence := .saved }) 0) = true := by decide
/-- The staged module with the debug right in context 0. -/
def debugging (g : Ctx → Ctx) (h : Block → Block) : State := (context fun C => g { C with dbgr := true }).modBlk 2 h
theorem met_ContextRegisters_debug :
    (((debugging (fun C => { C with state := .stopped }) fun B => { B with halted := true }).ctx 0).dbgr
      && haltedOwners (debugging (fun C => { C with state := .stopped }) fun B => { B with halted := true }) 0 != []
      && haltedOwners (debugging id id) 0 == [] && !((debugging id id).ctx 0).halted) = true := by decide
theorem met_ContextRegisters_window : (0x200000 ≤ 0x200000 ∨ ((4 : Nat) ≠ 4 ∧ (4 : Nat) ≠ 8) ∨ 0 % 4 ≠ 0)
    ∧ ((255 < 256) ∧ ((base.ctx 255).state = .free ∨ (base.ctx 255).state = .stopped)) := by decide
theorem met_ReadsThatClear : base.dev.ideActive = true ∧ ((debugging id id).ctx 0).dbgr = true ∧ (base.ctx 255).dbgr = false
    ∧ State.reset.dev.ideActive = false ∧ (0x200000 ≤ 0x200000 ∨ ((2 : Nat) ≠ 4 ∧ (2 : Nat) ≠ 8) ∨ 2 % 4 ≠ 0) ∧ 255 < 256 := by decide

/-- A block fault's record. -/
def faultRec (code : Nat) (num : Option Nat) : FaultRec := ⟨num, code, false, false, true, 0, ⟨0, 0, 0, 0, 0, 0⟩, 64, .read, none⟩
/-- The staged block with a fault, in a context with a save area. -/
def faulted (r : FaultRec) (st : BlockState) : State :=
  ((cached base).modCtx 0 fun C => { C with savearea := 0x8000, savesize := 0x100000 }).modBlk 2 fun B => { B with faults := [r], state := st }
theorem met_BlockFaults_save :
    ((faultsOf (faulted (faultRec codeSoftError none) .resident) (.blk 2)).any (fun r => r.code == codeSoftError)
      && (faultsOf (faulted (faultRec 0x0301 none) .resident) (.blk 2)).all (fun r => r.code != codeSoftError)
      && ownerFaulted (faulted (faultRec 0x0301 none) .resident) (.blk 2)
      && !((faulted (faultRec 0x0301 none) .resident).ctx 0).saveWaits) = true := by decide
theorem met_BlockFaults_report :
    (let s := faulted (faultRec 0x0301 none) .saved
     ownerSaved s (.blk 2) && decide (((s.ctx 0).bfhead - (s.ctx 0).bftail).toNat < 64)
      && met (structWrite s 0 0x8000 (faultRec 0x0301 none).bytes) fun u _ => !(u.ctx 0).dbgr) = true := by decide +kernel
theorem met_BlockFaults_reply :
    (let s := faulted (faultRec 0x0301 (some 5)) .saved
     s.dev.ideActive && (ownersOf s 0).all (fun o => (faultsOf s o).all fun r => r.num.isSome) && recordOwner s 0 4 == none
      && recordOwner s 0 5 == some (.blk 2) && (s.blk 2).faults == [faultRec 0x0301 (some 5)]) = true := by decide
/-- A spawned warp with a fault in the ring. -/
def faultedWarp : State := base.modWarp 3 fun W => { W with blk := none, faults := [faultRec 0x0301 (some 5)] }
theorem met_BlockFaults_warp : faultedWarp.dev.ideActive = true ∧ recordOwner faultedWarp 0 5 = some (.warp 3)
    ∧ (faultedWarp.warp 3).faults = [faultRec 0x0301 (some 5)]
    ∧ (faultedWarp.warp 3).faults.find? (fun r => r.num == some 5) = some (faultRec 0x0301 (some 5)) := by
  decide
theorem met_BlockFaults_restart :
    (let s := (faulted (faultRec 0x0301 (some 5)) .saved).modLaunch 1 fun L => { L with lrec := { L.lrec with idempotent := true } }
     recordOwner s 0 5 == some (.blk 2) && (s.launch (s.blk 2).launch).lrec.idempotent && !(s.blk 2).committed) = true := by decide

/-- A context whose work is none: the staged one without its block and warp. -/
def workless (g : Ctx → Ctx) : State := ({ cached base with blocks := [], warps := [], turn := none } : State).modCtx 0 g
theorem met_Stops_halt : (stopAll ((ownersOf (context fun C => { C with haltOwed := some 255 }) 0).filter
    (ownerHalted (context fun C => { C with haltOwed := some 255 })))
      (deliverHalted (context fun C => { C with haltOwed := some 255 }) 0)).1 = true := by
  decide
theorem met_Stops_dump :
    (let s := workless fun C => { C with fault := some (0x0402, 0, 0, ⟨0, 0, 0, 0, 0, 0⟩), savesize := 0x100000 }
     ownersOf s 0 == [] && (stopAll (ownersOf s 0) s).1 && (s.ctx 0).dump.isNone && !(s.ctx 0).saveWaits
      && !(s.ctx 0).discarding && roundUp ((s.ctx 0).savearea.toNat + (s.ctx 0).saveEnd) 4096 == 4096) = true := by decide +kernel
/-- A dump with a section of 8 bytes to come, or with none, in a save area of a size. -/
def dumping (size : Nat) (todo : List Section) : State :=
  workless fun C => { C with fault := some (0x0402, 0, 0, ⟨0, 0, 0, 0, 0, 0⟩), savesize := BitVec.ofNat 64 size,
                             dump := some ⟨4096, 0xA0, todo, [], 0x80, false⟩ }
def section8 : Section := ⟨1, 0, 0, 0, List.replicate 8 0⟩
theorem met_Stops_section :
    (let s := dumping 0x100000 [section8]
     !(s.ctx 0).saveWaits && !(s.ctx 0).discarding && 4096 == roundUp ((s.ctx 0).savearea.toNat + (s.ctx 0).saveEnd) 4096
      && decide (4096 + roundUp 0xA0 4096 + 8 ≤ (s.ctx 0).savearea.toNat + (s.ctx 0).savesize.toNat)
      && met (structWrite s 0 (4096 + roundUp 0xA0 4096) section8.bytes) fun _ _ => true) = true := by decide +kernel
theorem met_Stops_section_cut :
    (let s := dumping 0x1080 [section8]
     decide (4096 + 0x80 ≤ (s.ctx 0).savearea.toNat + (s.ctx 0).savesize.toNat)
      && decide ((s.ctx 0).savearea.toNat + (s.ctx 0).savesize.toNat < 4096 + roundUp 0xA0 4096 + 8)) = true := by decide +kernel
theorem met_Stops_header :
    (let s := dumping 0x100000 []
     let D : Dump := ⟨4096, 0xA0, [], [], 0x80, false⟩
     (s.ctx 0).dump == some D && met (writeParts 0 [(4096 + 0x80, D.done.flatMap sectionEntry),
       (4096, dumpHeader (s.ctx 0) 0 0x0402 0 0 ⟨0, 0, 0, 0, 0, 0⟩ D)] s) fun _ _ => true) = true := by decide +kernel
theorem met_Stops_context :
    (let s := workless fun C => { C with stopping := true }
     (s.ctx 0).stopping && (s.ctx 0).fault.isNone && !(s.ctx 0).saveWaits && (stopAll (ownersOf s 0) s).1
     && ((context fun C => { C with discarding := true }).ctx 0).discarding) = true := by decide
theorem met_Stops_deadline :
    (let s := ({ context fun C => { C with ackBy := some 5, ackVersion := 1 } with tick := 6 } : State)
     (s.ctx 0).state == .running && !(s.ctx 0).stopping && (s.ctx 0).ackVersion != s.dev.rmver && decide (5 < s.tick.toNat)) = true := by
  decide
theorem met_Stops_map :
    (let s := (withVector base).modLaunch 1 fun L => { L with rmOwed := [1, 2] }
     (s.launch 1).rmOwed == [1, 2] && (s.launch 1).lrec.trapVec != 0 && firstWarp s 1 == some 3 && (s.warp 3).launch == 1
      && !(s.ctx 0).dbgr && (s.warp 3).fibres.any (fun f => f.status == .ready && f.pc == 0)
      && (s.warp 3).fibres.all (fun f => decide ((0 : VAddr).toNat ≤ f.pc.toNat))) = true := by decide
/-- The staged warp blocked on a stage ring since before, its launch's spill ring full. -/
def blocked : State := ({ (base.modWarp 3 fun W => { W with
    fibres := W.fibres.map fun f => { f with status := .waiting ⟨.ringToken 0, .snop false, none, 0, 1⟩ } }) with tick := 50000000 } : State).modLaunch 1
  fun L => { L with lrec := { L.lrec with spillSize := 128 }, ring := [childOf base] }
theorem met_Stops_deadlock :
    (ctxRuns blocked 0 && allBlocked blocked 0 && (blocked.ctx 0).blockedSince.isNone && !allBlocked base 0
      && ((blocked.modCtx 0 fun C => { C with blockedSince := some 0 }).ctx 0).blockedSince == some 0
      && decide (0 + 50000000 ≤ blocked.tick.toNat)
      && blocked.warps.all (fun e => decide (blockIndex blocked e.2 < 2 ^ 32) && decide (e.2.wid < 2 ^ 32))) = true := by decide

/-- A launch record of one block of one warp. -/
def launchBytes : List Byte := leBytes 8 0 ++ leBytes 8 0 ++ leBytes 4 1 ++ leBytes 4 1 ++ leBytes 4 1 ++ leBytes 2 1 ++ [2, 0, 1, 0]
  ++ List.replicate 222 0
/-- A context that has been notified of one record at 0x1000, and one of two in a ring of one. -/
def notified (bs : List Byte) (n : Word) : State := cached (withBytes (context fun C =>
  { C with notified := true, notify := n, lqsize := 1, lqbase := 0x1000 }) 0x1000 bs)
theorem met_LoomAndIssue_take :
    (let s := notified launchBytes 1
     (s.ctx 0).notified && (s.ctx 0).state == .running && !(s.ctx 0).stopping && (s.ctx 0).fault.isNone
      && (s.ctx 0).notify == (s.ctx 0).lqread + 1 && (s.ctx 0).lqsize != 0
      && met (structRead (s.modCtx 0 fun C => { C with notified := false }) 0 0x1000 256) fun bs s1 =>
        met (checkRecord { s1 with next := s1.next + 1 } 0 bs (recordOf bs)) fun _ _ => (recordOf bs).ctrPtr == 0) = true := by
  decide +kernel
theorem met_LoomAndIssue_refuse :
    (firstBad (recordTests (List.replicate 256 0) (recordOf (List.replicate 256 0)))).isSome = true
    ∧ (((notified launchBytes 2).ctx 0).lqsize.toNat < (((notified launchBytes 2).ctx 0).notify - ((notified launchBytes 2).ctx 0).lqread).toNat) := by
  decide
/-- A block that is chosen and ready, and one that has still to be placed. -/
def readyBlock (st : BlockState) (placed : Bool) : State :=
  ({ cached base with warps := [], turn := none } : State).modBlk 2 fun B => { B with state := st, placed := placed }
theorem met_LoomAndIssue_choice :
    (candidates (dispatchAll base) == []
      && there (candidates (dispatchAll (readyBlock .ready false))).head? fun x =>
        (x.place (dispatchAll (readyBlock .ready false)) allCores).isSome) = true := by decide +kernel
theorem met_LoomAndIssue_start : ((readyBlock .ready true).blk 2).placed = true ∧ ((readyBlock .ready true).blk 2).state = .ready
    ∧ ((readyBlock .ready true).blk 2).halted = false
    ∧ ctxRuns (readyBlock .ready true) ((readyBlock .ready true).blk 2).ctx = true ∧ ((readyBlock .ready true).ctx 0).halted = false
    ∧ loomGap (readyBlock .ready true) ((readyBlock .ready true).blk 2).core = true
    ∧ (teamBlocks (readyBlock .ready true) 1 ((readyBlock .ready true).blk 2).team).all (fun m => m == 2) = true
    ∧ ((readyBlock .ready true).launch 1).lrec.ordered = false
    ∧ staggerOver (readyBlock .ready true) ((readyBlock .ready true).blk 2).launch ((readyBlock .ready true).blk 2).core = true := by decide
/-- An ordered launch whose block 1 has room while block 0 has not started. -/
def orderedPair : State :=
  ((readyBlock .ready true).modLaunch 1 fun L => { L with lrec := { L.lrec with ordered := true } }).setBlk 9
    { (readyBlock .ready true).blk 2 with lin := 1 }
theorem met_LoomAndIssue_order : ((orderedPair.launch (orderedPair.blk 9).launch).lrec.ordered
    && orderedPair.blocks.any fun e => e.2.launch == (orderedPair.blk 9).launch && decide (e.2.lin < (orderedPair.blk 9).lin)
      && unstarted e.2) = true := by decide
/-- A block of a higher priority that fills a core, the one core that is live, where the staged warp stands. -/
def bigLaunch : Launch :=
  { Launch.fresh 0 0 { LaunchRec.zero with window := 8, warps := 16, priority := 3 } stageSegs .running 9 with nextBlk := 1 }
def crowded : State :=
  (({ cached base with survey := { base.survey with liveCores := 1 } } : State).setLaunch 8 bigLaunch).setBlk 9
    { newBlock bigLaunch 8 0 0 0 0 none 9 0 1 9 with state := .ready }
theorem met_LoomAndIssue_evict : (pressed (cached base) (candidates (cached base)) == none
    && there (pressed crowded (candidates crowded)) (fun vs => (vs.find? fun v => v.warp == 3).isSome)
    && there (candidates (dispatchAll crowded)).head? fun x => (x.place (dispatchAll crowded) allCores).isNone) = true := by
  decide +kernel
theorem met_LoomAndIssue_slots : ((base.core 0).slots.getD 0 none == some 3 && (base.core 0).slots.getD 1 none == none
    && oldestReady base 0 1 == none && oldestReady (base.modCore 0 fun K => { K with slots := [none, none, none, none] }) 0 0 == some 3
    && hasWork base 3 && stalledFibres (base.warp 3) == [] && !hasWork blocked 3 && Tab.rising none base.warps) = true := by decide
/-- The staged warp at an addition, with a load in flight. -/
def stalling : State := (cached (State.reset.withFetchWord 32 0x000420C0)).modWarp 3 fun W => { W with
  loads := [⟨some 0, [(0, 2, 7)]⟩]
  fibres := W.fibres.map fun f => { f with status := .waiting ⟨.regs [0] [(1, 1), (2, 1), (3, 1)] [], .nop nx, none, 0, 0⟩ } }
theorem met_LoomAndIssue_stall : ((stalling.core 0).slots.getD 0 none == some 3 && !hasWork stalling 3
    && (stalledFibres (stalling.warp 3)).length == 1 && !hasWork blocked 3 && stalledFibres (blocked.warp 3) == []) = true := by
  decide +kernel
/-- Two ready warps of a quarter, the younger in the higher slot. -/
def rivals : State := (({ base with turn := none } : State).modCore 0 fun K => { K with slots := [none, none, none, none] }).setWarp 4
  { base.warp 3 with wslot := 1, age := some 5 }
theorem met_LoomAndIssue_oldest : (oldestReady rivals 0 0 == some 3 && warpReady rivals 4 && Tab.rising none rivals.warps
    && decide ((rivals.warp 4).wslot < 64) && decide ((rivals.warp 4).age.getD (rivals.clock 0) < 2 ^ 64)
    && decide ((rivals.warp 3).age.getD (rivals.clock 0) < 2 ^ 64)
    && inGuarantee rivals (rivals.warp 4).ctx .issue (quarterUnit 0 0) == inGuarantee rivals (rivals.warp 3).ctx .issue (quarterUnit 0 0)) = true := by decide +kernel
theorem met_LoomAndIssue_yield : (yieldOver (base.modWarp 3 fun W => { W with yield := some 0 }) 3
    && !yieldOver (base.modWarp 3 fun W => { W with yield := some 64 }) 3) = true := by decide
/-- A store to the window that waits. -/
def queuedWindow : State := here.modWarp 3 fun W => { W with storeQ := [{ waitingStore with place := winPlace0 0 }] }
theorem met_LoomAndIssue_forward :
    (((base.modCore 0 fun K => { K with forwards := [⟨2, 1⟩] }).core 0).forwards[0]? == some ⟨2, 1⟩ && !namesWindow base 2
      && namesWindow queuedWindow 2) = true := by decide
/-- The staged block's core withdrawn, or every core. -/
def moving (live : BitVec 256) : State := ({ base with survey := { base.survey with liveCores := live } } : State)
theorem met_LoomAndIssue_rest :
    (let s := moving 2
     let bs := membersIn s (s.blk 2) .resident ++ membersIn s (s.blk 2) .part
     bs == [2] && (s.blk 2).placed && (s.blk 2).state == .resident && !coreLive s (s.blk 2).core
      && bs.all (fun m => decide ((s.core (s.blk m).core).forwards.length < 16) && !(s.blk m).halted && !ownerFaulted s (.blk m))
      && bs.all (blockQuiet (bs.foldl endBlockWork s)) && coreLive base (base.blk 2).core && (base.blk 2).state != .migrating) = true := by
  decide +kernel
/-- The staged block on its way, with a core to go to, or with none. -/
def migrating (live : BitVec 256) : State := (moving live).modBlk 2 fun B => { B with state := .migrating }
theorem met_LoomAndIssue_move :
    (((migrating 2).blk 2).placed && membersIn (migrating 2) ((migrating 2).blk 2) .migrating == [2]
      && there (newCores (migrating 2) ((migrating 2).blk 2) [2]) (fun ps => ps.length == 1)
      && (newCores (migrating 0) ((migrating 0).blk 2) [2]).isNone) = true := by decide +kernel

/-- The staged launch with no work left. -/
def finished (g : Launch → Launch) : State :=
  ({ cached base with warps := [], turn := none } : State).modLaunch 1 fun L => g { L with state := .completing }
theorem met_Completions_launch : (((finished id).launch 1).state == .completing && launchDrained (finished id) 1
    && !((finished id).ctx 0).discarding
    && (latchCounters (finished id) 0 64 0).1.length == 64 && (base.launch 1).state != .completing) = true := by decide +kernel
theorem met_Completions_task :
    (let s := (finished id).modBlk 2 fun B => { B with task := some someTask, state := .retired }
     (s.blk 2).task == some someTask && (s.blk 2).state == .retired
      && s.cores.all (fun e => e.2.tracker.all fun x => x.blk != some 2) && blocksQuiet s (fun q _ => q == 2)) = true := by decide
theorem met_Completions_counter :
    (met (structRead (cached base) 0 0x100 8) (fun bs _ => leNat bs == 0)
      && met (structRead (cached (withBytes base 0x100 [2])) 0 0x100 8) fun bs s1 => decide (2 ≤ leNat bs)
        && met (structWrite s1 0 0x100 (leBytes 8 (leNat bs - 1))) fun _ _ => true) = true := by decide +kernel
theorem met_Completions_ticket :
    (let s := base.modLaunch 1 fun L => { L with lrec := { L.lrec with ordered := true }, retiredTickets := [0] }
     (s.launch 1).lrec.ordered && ticketQuiet s 1 0 && !stageStays s 1 1) = true := by decide
/-- A pending task object at 0x200 for queue 0, whose table is at 0x400. -/
def pending : State := cached (withBytes (withBytes (context fun C => { C with pendEnq := [(0x200, 7)], tqtable := 0x400 }) 0x400
  (leBytes 8 0x3000 ++ leBytes 8 0 ++ leBytes 4 1 ++ leBytes 4 1)) 0x240 (leBytes 8 0))
theorem met_Completions_pending : (ctxRuns pending 0 && (pending.ctx 0).pendEnq == [(0x200, 7)]
    && (enqueueObject pending 0 0x200 (some 7)).1 == .done && (base.ctx 0).pendEnq == []) = true := by decide +kernel
/-- The end of a spawned fibre, with a join word or without. -/
def joined (a : VAddr) : State := cached (withBytes ({ base with joins := [⟨9, 0, 1, 0, a, true, ⟨0, 0, 0, 0, 0, 0⟩, 5⟩] } : State) 0x100 [3])
theorem met_Completions_join :
    (let j : JoinEnd := ⟨9, 0, 1, 0, 0x100, true, ⟨0, 0, 0, 0, 0, 0⟩, 5⟩
     let u := landHome (joined 0x100) 0
     (joined 0x100).joins[0]? == some j && (Tab.find (joined 0x100).warps 9).isNone && !joinWaits u j
      && !joinWaits (landHome (joined 0) 0) { j with addr := 0 }
      && met (locate u (joinWarp u j) 0 .glob 0x100 0 8 .rmw true) fun p t =>
        let t2 := (linkCheck t p 8 .rmw).2
        (linkCheck t p 8 .rmw).1.isNone && !linkDown t2 p && !budgetHeld t2 0 p true && !poisoned t2 p 8
        && (let v := leNat (freshBytes (landLines t2 0 (placeLines p 8)) p (p.data 8 0) 8)
            v % 2 ^ 32 != 0 && decide (v < 2 ^ 48))) = true := by
  decide +kernel
theorem met_Completions_end :
    (let s := base.modWarp 3 fun W => { W with residence := .draining, fibres := [] }
     there (Tab.find s.warps 3) fun W => W.residence == .draining && W.fibres == [] && W.faults == []
      && tracksOf (landHome s 0) 3 == [] && (landHome s 0).joins.all (fun j => j.warp != 3) && !onWay (landHome s 0) (·.warp == 3)) = true := by decide
/-- Children enough for a warp, or one whose time has not come. -/
def gathering (n since : Nat) : State :=
  (cached base).modCore 0 fun K => { K with shuttle := List.replicate n { childOf base with since := since } }
theorem met_Completions_spawn :
    (there (gathered (gathering 128 0) 0 true fun c => c.launch == 1) (fun cs => (issueSpawned (gathering 128 0) 0 0 cs).isSome)
      && (gathered (gathering 1 1) 0 true fun c => c.launch == 1).isNone) = true := by decide +kernel
theorem met_Completions_spill :
    (decide ((blocked.core 0).shuttle.length < shuttleSize)
      && (takeSpilled (dieOf 0) (blocked.launch 1).ring).isSome) = true := by decide
theorem met_Completions_limit : ((waiting (.monitor 0)).warp 3).fibres.any (fun f => match f.status with
    | .waiting x => x.why == .monitor 0 && decide (0 ≤ (waiting (.monitor 0)).clock 0)
    | _ => false) = true := by decide

/-- A unit of no core, and one of core 0. -/
def errUnit (core : Option Nat) : ErrUnit := ⟨0, 0, core, 64⟩
/-- Core 0 with corrected errors in its span. -/
def erring (n : Nat) : State := base.modCore 0 fun K => { K with corrected := List.replicate n 0 }
theorem met_Errors_corrected : ((errUnit none).core == none && (errUnit (some 0)).core == some 0
    && decide ((((erring 0).core 0).corrected.filter fun t => decide ((erring 0).tick.toNat < t + 2 ^ 30)).length < 255)
    && decide (255 ≤ (((erring 255).core 0).corrected.filter fun t => decide ((erring 255).tick.toNat < t + 2 ^ 30)).length)
    && !((erring 255).core 0).withdrawn) = true := by decide
theorem met_Errors_block : (base.warp 3).blk = some 2 ∧ (base.blk 2).placed = true ∧ (base.blk 2).state ≠ .retired := by decide
theorem met_Errors_links : (islandOn base 26 && islandOn base 30 && base.survey.peerPorts.getLsbD 7
    && there (Tab.find base.ctxs 0) fun C => C.state != .free) = true := by decide
/-- A window of all memory but what lies beyond it. -/
def windowed : State := device fun D => { D with memwin := setAt D.memwin 0 ⟨0x480000000000, 64, 0⟩ }
theorem met_Errors_host : (there windowed.dev.memwin[0]? (fun x => x.base == 0x480000000000 && decide (56 + 8 ≤ x.size.toNat)
      && decide (x.size.toNat < 60 + 8))
    && physOk windowed (0x480000000000 + 56) 8 == !isFar (0x480000000000 + 56) && !onPoison windowed (0x480000000000 + 56) 8
    && (Tab.find base.keys 0).isSome && isFar 56 && physOk base 56 8 && isHost (hostBase + 8) && isHost (hostBase + 8 + 8 - 1)
    && !onPoison base (hostBase + 8) 8) = true := by decide
theorem met_Errors_peer : (base.survey.peerPorts.getLsbD 7 && [1, 2, 4, 8, 16].contains 8 && 4096 % 8 == 0
    && (inboundCtx State.reset 7).isNone && inboundCtx base 7 == some 0
    && met (translate (cached base) (.die 0) 0 4096) fun r s1 => (leafCheck .glob 4096 8 .read false r.2).isNone
      && !(leafPlace r.1 r.2 4096 false).keyMissing s1 && !linkDown s1 (leafPlace r.1 r.2 4096 false)
      && (leafCheck .glob 4096 8 .write false r.2).isNone && !poisoned s1 (leafPlace r.1 r.2 4096 false) 8) = true := by decide +kernel
theorem met_Errors_snoop : (Tab.find ({ base with hostLines := [(5, 2)] } : State).hostLines (320 / 64)).isSome = true := by decide

/-- Power of the first groups alone. -/
def powered (n : Nat) : State := (powerGroups.take n).foldl (fun s g => setPower s g true) State.reset
theorem met_PowerAndSurvey_up :
    (powerGroups.find? (fun g => !(g.all (islandOn State.reset))) == some [27, 31]
      && powerGroups.find? (fun g => !(g.all (islandOn (powered 1)))) == some [25, 26, 29, 30]
      && powerGroups.find? (fun g => !(g.all (islandOn (powered 4)))) == some coreIslands && State.reset.dev.fwstat != 1 && decide (State.reset.dev.temp < 115)
      && powerGroups.all (fun g => g.all (islandOn base)) && coreIslands.any (islandOn base)
      && powerGroups.reverse.find? (fun g => g.any (islandOn (powered 2))) == some [25, 26, 29, 30]) = true := by decide
theorem met_PowerAndSurvey_heat : (7 < 8 ∧ 100 ≤ 100 ∧ 114 < 115) ∧ 99 < 100
    ∧ ((base.modDie 7 fun D => { D with throttled := true }).die 7).throttled = true ∧ base.islands.length = 32 := by decide
theorem met_PowerAndSurvey_test :
    (let s := base.modCore 0 fun K => { K with arrayCycles := 65536 }
     decide (65536 ≤ (s.core 0).arrayCycles) && decide ((s.core 0).nextSub < 4)) = true := by decide
theorem met_PowerAndSurvey_latch : (device fun D => { D with hgOn := true, hgK := 10 }).dev.hgOn = true ∧ base.dev.hgOn = false := by decide

theorem met_StepRuns_fetch : (base.cur.isNone && base.fcur.isNone && base.agenda.isEmpty && base.turn == some 3 && warpRuns base 3
    && nextGroup base 3 == some ⟨[0], 0, none, true⟩ && (matching (base.ctx 0) 1 (blockIndex base (base.warp 3)) 0).isNone
    && met (fetchCode base 0 0 0 4) fun v _ => (decode none (BitVec.ofNat 32 v)).toOption.isSome) = true := by decide +kernel
/-- An LX word latched for the word behind it. -/
def latched : State := { cached base with cur := some { one0 with lx := some 0x3F000000 } }
theorem met_StepRuns_pair : (!codeHeld latched 0 0 4 4 && met (fetchCode latched 0 0 4 4) fun v _ =>
    (decode (some 0x3F000000) (BitVec.ofNat 32 v)).toOption.isSome) = true := by decide +kernel
theorem met_StepRuns_event :
    (({ base with turn := none, agenda := [⟨0, 5, .currentTrip⟩] } : State).agenda == [⟨0, 5, .currentTrip⟩]
      && (pickEvent (passTime (ageWarps { base with turn := none }) 1)).isSome) = true := by decide +kernel
theorem met_MemoryAndRegisters : Memory.wf base.mem = true ∧ Tab.rising none ((fib (·.setReg 63 7)).lane 0).regs = true
    ∧ Tab.rising none ((base.warp 3).setSreg 59 7).sregs = true ∧ 4096 + 16 ≤ farEnd := by decide
theorem met_MeaningsGoOn : (isForeman .mend && (fmWith id).fcur.isSome && (fmWith id).cur.isNone && !isEvent (.nop nx) && !isForeman (.nop nx)
    && here.cur.isSome && here.fcur.isNone && isEvent .currentTrip) = true := by decide

/-! ### Single steps -/

/-- The state after a step that goes on. -/
def after (s : State) : State :=
  match step s with
  | .next t => t
  | _ => s
/-- One fibre about to execute a word, its lanes and the machine changed. -/
def ready (w : Nat) (g : Lane → Lane) : State :=
  (cached (State.reset.withFetchWord 32 w)).modWarp 3 fun W => { W with fibres := W.fibres.map (lanesOf g) }
/-- Lane 0 of the fibre after one step. -/
def laneAfterStep (w : Nat) (g : Lane → Lane) : Lane := (((after (ready w g)).warp 3).fibres.headD (fib id)).lane 0
/-- The warp after one step. -/
def warpAfter (s : State) : Warp := (after s).warp 3

/-- R202: modulo 2^32. -/
theorem test_iadd_wraps : (laneAfterStep 0x000420C0 (·.setReg 2 0xFFFFFFFF |>.setReg 3 2)).reg 1 = 1 := by decide

/-- R202: unsigned saturation holds 1 − 2 at 0. -/
theorem test_isub_saturates : (laneAfterStep 0x010420C4 (·.setReg 2 1 |>.setReg 3 2)).reg 1 = 0 := by decide

/-- R204: the high half of −1 × 2. -/
theorem test_imulhi_signed : (laneAfterStep 0x050420C2 (·.setReg 2 0xFFFFFFFF |>.setReg 3 2)).reg 1 = 0xFFFFFFFF := by decide

/-- R204: the high half of (2^32 − 1) × 2. -/
theorem test_imulhi_unsigned : (laneAfterStep 0x050420C0 (·.setReg 2 0xFFFFFFFF |>.setReg 3 2)).reg 1 = 1 := by decide

/-- R208: a count of 32 or more leaves nothing. -/
theorem test_shl_by_width : (laneAfterStep 0x0A0420C0 (·.setReg 2 1 |>.setReg 3 32)).reg 1 = 0 := by decide

/-- R208: a count of 32 or more leaves copies of the sign. -/
theorem test_sar_by_more : (laneAfterStep 0x0A0420D0 (·.setReg 2 0x80000000 |>.setReg 3 40)).reg 1 = 0xFFFFFFFF := by decide

/-- R218: 1 + 1. -/
theorem test_fadd_exact : (laneAfterStep 0x150420C0 (·.setReg 2 0x3F800000 |>.setReg 3 0x3F800000)).reg 1 = 0x40000000 := by decide

/-- R226: 1 / 0 is infinite. -/
theorem test_fdiv_by_zero : (laneAfterStep 0x1E0420C0 (·.setReg 2 0x3F800000)).reg 1 = 0x7F800000 := by decide

/-- R231's example, exactly: 3.0 × 10^9 as .i32 is held at its largest value. -/
theorem test_f2i_rounds : (laneAfterStep 0x23042004 (·.setReg 2 0x4F32D05E)).reg 1 = 0x7FFFFFFF := by decide

/-- R245's example: 2.0, −1.0, 1.0 and 0.5 keep indices 0 and 1. -/
theorem test_sparsify_ties : (laneAfterStep 0x2C084003 (·.setReg 4 0xBF804000 |>.setReg 5 0x3F003F80)).reg 2 = 0xBF804000 := by decide

/-- R241: eight products of −1 and 1. -/
theorem test_idp4_signed : (laneAfterStep 0x2A0420C3 (·.setReg 2 0xFFFFFFFF |>.setReg 3 0x11111111)).reg 1 = 0xFFFFFFF8 := by decide

/-- R183: TID of fibre 0 of block 0. -/
theorem test_movs_tid : (laneAfterStep 0x12040008 (·.setReg 1 5)).reg 1 = 0 := by decide

/-- R226: DZ is bit 3 of FPFLAGS. -/
theorem test_fdiv_flag : (warpAfter (ready 0x1E0420C0 (·.setReg 2 0x3F800000))).fpflags = 8 := by decide
/-- R212: −1 is below 2 as a signed value. -/
theorem test_icmp_signed :
    (laneAfterStep 0x100420CA (·.setReg 2 0xFFFFFFFF |>.setReg 3 2)).pred 1 = true := by decide
/-- R273: a branch of 2 words. -/
theorem test_bra : ((warpAfter (ready 0x3BE00002 id)).fibres.map (·.pc)) = [8] := by decide
/-- R274: a call leaves the next address in v6. -/
theorem test_call : (laneAfterStep 0x3CE00002 id).reg 6 = 4 := by decide
/-- R289: 5 and 2^32 − 1 modulo 2^32. -/
theorem test_sadd_wraps :
    ((warpAfter ((ready 0x800420C0 id).modWarp 3 fun W => (W.setSreg 2 5).setSreg 3 0xFFFFFFFF)).sreg 1) = 4 := by decide
/-- R276: the last fibre's end lets the warp drain. -/
theorem test_exit : ((warpAfter (ready 0x3D00000C id)).residence, (warpAfter (ready 0x3D00000C id)).fibres)
    = (.draining, []) := by decide
/-- R281: `trap 7` queues a fragment with its code, its number and the next address. -/
theorem test_trap :
    ((warpAfter (withVector (ready 0x3D0001E8 id))).queue.map fun q => (q.code, q.addr, q.pc)) = [(0x0210, 7, 4)] := by decide
/-- R188: an encoding that no entry allocates. -/
theorem test_unallocated : ((warpAfter (withVector (ready 0xFF000000 id))).queue.map fun q => (q.code, q.pc)) = [(0x0201, 0)] := by
  decide
/-- R255: a store waits in the warp's queue with its bytes from the lowest. -/
theorem test_st : ((warpAfter (ready 0x3308A081 (·.setReg 2 0x11223344))).storeQ.map fun o =>
    o.writes.map (·.val)) = [[0x44, 0x33, 0x22, 0x11]] := by decide
/-- R17: the limit is held at 1,500. -/
theorem test_pwrlim : (match exec (.pwrlimWrite 100) base with | .next t => t.dev.pwrLimit | _ => 0) = 1500 := by decide
/-- R486: a read of EVENT clears it. -/
theorem test_event : (match exec (.eventRead 0) (base.modCtx 0 fun C => { C with event := 5 }) with
    | .next t => (t.hostOut, (t.ctx 0).event) | _ => (0, 0)) = (5, 0) := by decide
/-- R342: clearing a tile is a command in flight. -/
theorem test_mclr : (match exec (.mclr 0 true false) (fmWith id) with
    | .next t => ((t.blk 2).fm.map fun F => (F.issued, F.fpc)) | _ => none) = some (1, 16) := by decide
end Sys2Proof.Tests
end

section
/-! SUPPORT. What is read back after a write: bytes of memory and of windows, registers, pairs and predicates; and the
statements about stored bytes, memory and registers that follow from it. -/
namespace Sys2Proof.Machine

/-! ### Tables -/

/-- A write keeps keys rising, whatever values the table holds. -/
theorem Tab.write_rising {α : Type} [DecidableEq α] (d : α) (t : Tab α) (k : Nat) (v : α)
    (h : Tab.rising none t = true) : Tab.rising none (Tab.write d t k v) = true := by
  unfold Tab.write
  split
  · exact Tab.drop_rising t k h
  · exact Tab.put_rising t k v h

/-! ### Bytes in a row (R4) -/

/-- What an address reads once bytes are stored in a row: the byte stored there, else what it read before. -/
theorem putBytes_read (bs : List Byte) : ∀ (m : Tab Byte) (a b : Nat), Tab.rising none m = true →
    Tab.read (0 : Byte) (putBytes m a bs) b =
      if a ≤ b then bs.getD (b - a) (Tab.read (0 : Byte) m b) else Tab.read (0 : Byte) m b := by
  induction bs with
  | nil => intro m a b _; simp [putBytes]
  | cons x t ih =>
    intro m a b h
    rw [putBytes, ih _ _ _ (Tab.write_rising 0 m a x h), Tab.read_write 0 m b a x h]
    rcases Nat.lt_trichotomy b a with hlt | rfl | hgt
    · rw [if_neg (by omega), if_neg (by omega), if_neg (by omega)]
    · rw [if_neg (by omega), if_pos rfl, if_pos (Nat.le_refl b), Nat.sub_self, List.getD_cons_zero]
    · rw [if_pos (by omega), if_neg (by omega), if_pos (by omega), show b - a = (b - (a + 1)) + 1 by omega,
        List.getD_cons_succ]

/-- A byte under a full mask replaces what was there. -/
theorem writeMasked_whole (m : Tab Byte) (a : Nat) (b : Byte) :
    writeMasked m ⟨a, b, 0xFF⟩ = Tab.write (0 : Byte) m a b := by
  have full : (0xFF : Byte) = BitVec.allOnes 8 := rfl
  simp only [writeMasked, full, BitVec.and_allOnes, BitVec.not_allOnes, BitVec.and_zero, BitVec.zero_or]

/-- Writing whole bytes is storing them in a row. -/
theorem writeMasked_wholeBytes (bs : List Byte) : ∀ (m : Tab Byte) (a : Nat),
    (wholeBytes a bs).foldl writeMasked m = putBytes m a bs := by
  induction bs with
  | nil => exact fun _ _ => rfl
  | cons x t ih => intro m a; rw [wholeBytes, List.foldl_cons, writeMasked_whole, ih, putBytes]

/-- Whole bytes lie at the addresses of their row. -/
theorem mem_wholeBytes_addr (bs : List Byte) : ∀ a b : Nat,
    (∃ y ∈ wholeBytes a bs, y.addr = b) ↔ a ≤ b ∧ b < a + bs.length := by
  induction bs with
  | nil => intro a b; simp [wholeBytes]
  | cons x t ih =>
    intro a b
    simp only [wholeBytes, List.mem_cons, or_and_right, exists_or, exists_eq_left, ih, List.length_cons]
    omega

/-- A byte that a row does not name reads as before. -/
theorem wholeBytes_read_frame (m : Tab Byte) (bs : List Byte) (a b : Nat) (h : Tab.rising none m = true)
    (hb : ∀ y ∈ wholeBytes a bs, y.addr ≠ b) :
    Tab.read (0 : Byte) ((wholeBytes a bs).foldl writeMasked m) b = Tab.read (0 : Byte) m b := by
  have outside : ¬ (a ≤ b ∧ b < a + bs.length) := fun g =>
    have ⟨y, hy, e⟩ := (mem_wholeBytes_addr bs a b).2 g
    hb y hy e
  rw [writeMasked_wholeBytes, putBytes_read bs m a b h]
  split
  · rw [List.getD_eq_getElem?_getD, List.getElem?_eq_none (by omega), Option.getD_none]
  · rfl

/-- A byte of a row is read back. -/
theorem wholeBytes_read_at (m : Tab Byte) (bs : List Byte) (a i : Nat) (h : Tab.rising none m = true)
    (hi : i < bs.length) :
    some (Tab.read (0 : Byte) ((wholeBytes a bs).foldl writeMasked m) (a + i)) = bs[i]? := by
  rw [writeMasked_wholeBytes, putBytes_read bs m a _ h, if_pos (Nat.le_add_right a i), Nat.add_sub_cancel_left,
    List.getD_eq_getElem?_getD, List.getElem?_eq_getElem hi, Option.getD_some]

/-- Byte i of a little-endian value. -/
theorem leBytes_getElem? (n : Nat) : ∀ v i : Nat, i < n → (leBytes n v)[i]? = some (BitVec.ofNat 8 (v / 256 ^ i)) := by
  induction n with
  | zero => intro v i h; omega
  | succ n ih =>
    intro v i h
    cases i with
    | zero => simp [leBytes]
    | succ i => rw [leBytes, List.getElem?_cons_succ, ih _ _ (by omega), Nat.div_div_eq_div_mul, Nat.pow_succ']

/-! ### What a store writes and where it waits (R101, R105, R149) -/

/-- One value needs no combination (R101). -/
@[simp] theorem combine_one (fmt : Option Fmt) (v : Nat) : combine fmt [v] = (v, 0, 0) := rfl

/-- Three equal values combine to that value, with no event (R101). -/
@[simp] theorem combine_equal (v : Nat) : combine none [v, v, v] = (v, 0, 0) := by simp [combine, majority]

/-- The writes of a PLAIN element: the bytes of the combined value, from the lowest address. -/
theorem storeWrites_plain (p : Place) (n : Nat) (fmt : Option Fmt) (vs : List Nat) (h : p.sib = .plain) :
    storeWrites p n fmt vs = (wholeBytes (p.base + p.off) (leBytes n (combine fmt vs).1), (combine fmt vs).2) := by
  simp [storeWrites, Place.data, h]

/-- The writes of a TRIPLE element of three values: the copies in order, then their digit count (R105). -/
theorem storeWrites_triple (p : Place) (n : Nat) (fmt : Option Fmt) (v1 v2 v3 : Nat) (h : p.sib = .triple) :
    storeWrites p n fmt [v1, v2, v3] = (wholeBytes (p.base + 4 * p.off)
      (leBytes n v1 ++ leBytes n v2 ++ leBytes n v3 ++ leBytes n (digitsOf fmt [v1, v2, v3])), 0, 0) := by
  simp [storeWrites, tripleWrites, tripled, Place.data, h]

/-- A block's first committing action changes no warp. -/
@[simp] theorem commitBlock_warp (s : State) (W : Warp) (w : Nat) : (commitBlock s W).warp w = s.warp w := by
  unfold commitBlock
  split
  · split <;> rfl
  · rfl

/-- Nor memory. -/
@[simp] theorem commitBlock_mem (s : State) (W : Warp) : (commitBlock s W).mem = s.mem := by
  unfold commitBlock
  split
  · split <;> rfl
  · rfl

/-- An untracked store that the scoreboard does not hold back, and that is no locked reduction, enters its warp's queue; of a
warp with a block, it may commit that block. -/
theorem issueStore_untracked (s : State) (w : Nat) (o : StoreOp) (ea order tid : Nat)
    (tracked : o.place.tracked = false) (board : boardHit s o.place o.size true = false)
    (unlocked : locked s (s.warp w) o = false) :
    issueStore s w o ea order tid = .ok
      (let t := s.modWarp w fun W => { W with storeQ := W.storeQ ++ [o] }
       if (s.warp w).blk.isSome && storeCommits s (s.warp w) o.place then commitBlock t (s.warp w) else t) := by
  unfold issueStore
  cases blk : (s.warp w).blk with
  | none => simp [board, unlocked, blk]
  | some b =>
    simp only [board, unlocked, tracked, blk, Bool.false_eq_true, if_false, Option.isSome_some, Bool.true_and]
    rfl

/-- Such a store waits at the end of its warp's queue, and memory is as before. -/
theorem issueStore_queues (s : State) (w : Nat) (W : Warp) (o : StoreOp) (ea order tid : Nat)
    (hw : Tab.find s.warps w = some W) (tracked : o.place.tracked = false)
    (board : boardHit s o.place o.size true = false) (unlocked : locked s W o = false) :
    ∃ u, issueStore s w o ea order tid = .ok u ∧ u.warp w = { W with storeQ := W.storeQ ++ [o] } ∧ u.mem = s.mem := by
  have here : s.warp w = W := by simp [State.warp, hw]
  refine ⟨_, issueStore_untracked s w o ea order tid tracked board (by rw [here]; exact unlocked), ?_, ?_⟩
  · dsimp only
    split <;> simp [State.warp_modWarp_of s w _ hw, here]
  · dsimp only
    split <;> simp

/-- Settles O20: the bytes of a store by its layout, the queue by `issueStore_queues`, and the bytes of a window or of memory
by what a row of whole bytes leaves to read. -/
theorem storedBytes : Obligations.StoredBytes := by
  unfold Obligations.StoredBytes
  refine ⟨fun p n fmt v h => ?_, fun p n v h => ?_, fun p n => storeWrites_triple p n none, leBytes_getElem?,
    issueStore_queues, fun m bs a b hb h => wholeBytes_read_frame m bs a b h hb, wholeBytes_read_at⟩
  · rw [storeWrites_plain p n fmt [v] h, combine_one]
  · rw [storeWrites_plain p n none [v, v, v] h, combine_equal]

end Sys2Proof.Machine
end

section
/-! SUPPORT. Memory keeps its form under the device's structure writes, bytes are read back under the key that they were
written under, and registers, pairs and predicates read as written. -/
namespace Sys2Proof.Machine

/-! ### A structure access leaves memory alone until it writes (R520) -/

/-- A translation cache that takes an entry leaves memory as it is. -/
@[simp] theorem fillTlb_mem (d : Nat) (s : State) (t : Tlb) : (fillTlb d s t).mem = s.mem := by
  unfold fillTlb
  simp only
  split
  · rfl
  · split <;> simp

/-- So does caching a translation in every cache that serves a walker. -/
@[simp] theorem cacheLeaf_mem (s : State) (a : Walker) (c va level e : Nat) :
    (cacheLeaf s a c va level e).mem = s.mem :=
  List.foldlRecOn (motive := fun u => u.mem = s.mem) _ _ rfl fun u h t _ => (fillTlb_mem _ u t).trans h

/-- A translation leaves memory as it is. -/
@[simp] theorem translate_mem (s : State) (a : Walker) (c va : Nat) : (translate s a c va).2.mem = s.mem := by
  unfold translate
  simp only
  split <;> simp

/-- The checks of a place's link leave memory as it is. -/
@[simp] theorem linkCheck_mem (s : State) (p : Place) (n : Nat) (k : AccKind) : (linkCheck s p n k).2.mem = s.mem := by
  unfold linkCheck
  split
  · rfl
  · split
    · simp only
      split <;> rfl
    · rfl

/-- Translating a structure access leaves memory as it is. -/
@[simp] theorem structPlace_mem (s : State) (c va : Nat) (k : AccKind) : (structPlace s c va k).2.mem = s.mem := by
  have walked := translate_mem s (.die 0) c va
  unfold structPlace
  generalize translate s (.die 0) c va = x at walked ⊢
  obtain ⟨r, t⟩ := x
  cases r with
  | error e => exact walked
  | ok le =>
    have linked := (linkCheck_mem t (leafPlace le.1 le.2 va false) 1 k).trans walked
    simp only
    generalize linkCheck t (leafPlace le.1 le.2 va false) 1 k = y at linked ⊢
    obtain ⟨o, u⟩ := y
    split
    · exact walked
    · split
      · exact walked
      · split
        · exact walked
        · split
          · exact walked
          · cases o <;> exact linked

/-- Checking every line of a structure access leaves memory as it is. -/
@[simp] theorem structCheck_mem (c : Nat) (k : AccKind) (ps : List (Nat × Nat)) : ∀ s : State,
    (structCheck s c k ps).2.mem = s.mem := by
  induction ps with
  | nil => exact fun _ => rfl
  | cons p ps ih =>
    intro s
    have placed := structPlace_mem s c p.1 k
    rw [structCheck]
    generalize structPlace s c p.1 k = x at placed ⊢
    obtain ⟨r, t⟩ := x
    cases r with
    | error e => exact placed
    | ok q =>
      have rest := (ih t).trans placed
      simp only
      generalize structCheck t c k ps = y at rest ⊢
      obtain ⟨r', u⟩ := y
      cases r' <;> exact rest

/-- A structure write keeps memory's form. -/
theorem structWrite_wf (s : State) (c va : Nat) (bs : List Byte) (u v : State) (h : Memory.wf s.mem = true)
    (w : structWrite s c va bs = (.ok u, v)) : Memory.wf u.mem = true := by
  have checked := structCheck_mem c .write (piecesOf va bs.length) s
  unfold structWrite at w
  generalize structCheck s c .write (piecesOf va bs.length) = x at checked w
  obtain ⟨r, t⟩ := x
  cases r with
  | error e => simp at w
  | ok ps =>
    simp only [Prod.mk.injEq, Except.ok.injEq] at w
    obtain ⟨rfl, -⟩ := w
    refine structPut_wf ps t bs ?_
    rw [show t.mem = s.mem from checked]
    exact h

/-! ### Keys of lines (R138, R139) -/

/-- Clearing poison leaves the keys of lines alone. -/
@[simp] theorem clearPoison_lineKeys (s : State) (ws : List MByte) : (clearPoison s ws).lineKeys = s.lineKeys := by
  unfold clearPoison; split <;> rfl

/-- So does holding a line of host memory. -/
@[simp] theorem holdHost_lineKeys (s : State) (v a : Nat) : (holdHost s v a).lineKeys = s.lineKeys := by
  unfold holdHost; split <;> rfl

/-- So does dropping the copies of lines. -/
@[simp] theorem dropL1_lineKeys (s : State) (core : Nat) (ws : List MByte) : (dropL1 s core ws).lineKeys = s.lineKeys := by
  have one : ∀ u l, (dropLine u core l).lineKeys = u.lineKeys := by
    intro u l; unfold dropLine; simp only; split <;> rfl
  exact List.foldlRecOn (motive := fun u => u.lineKeys = s.lineKeys) _ _ rfl fun u h l _ => (one u l).trans h

/-- After a write, lines are under the keys that its bytes adopt. -/
theorem writePhys_lineKeys (s : State) (core : Option Nat) (key : Option (BitVec 512)) (ws : List MByte) :
    (writePhys s core key ws).lineKeys = (ws.foldl (fun s b => adoptKey s key b.addr) s).lineKeys := by
  have wake : ∀ u, (wakeMonitors u none ws).lineKeys = u.lineKeys := fun _ => rfl
  unfold writePhys
  cases core with
  | none => cases ws <;> simp [wake]
  | some c => cases ws <;> simp [wake]

/-- The line of a far address that adopts a key is under that key. -/
theorem adoptKey_same (s : State) (k : BitVec 512) (a : Nat) (far : isFar a = true) :
    Tab.find (adoptKey s (some k) a).lineKeys (a / 64) = some k := by
  simp only [adoptKey, if_pos far]
  cases h : Tab.find s.lineKeys (a / 64) with
  | none => simp
  | some t =>
    by_cases e : t = k
    · subst e; simp [h]
    · simp [if_neg e]

/-- A line under a key stays under it when an address adopts that key. -/
theorem adoptKey_keeps (s : State) (k : BitVec 512) (a l : Nat) (h : Tab.find s.lineKeys l = some k) :
    Tab.find (adoptKey s (some k) a).lineKeys l = some k := by
  have put : Tab.find (Tab.put s.lineKeys (a / 64) k) l = some k := by
    rw [Tab.find_put]; split
    · rfl
    · exact h
  simp only [adoptKey]
  split
  · cases Tab.find s.lineKeys (a / 64) with
    | none => exact put
    | some t =>
      by_cases e : t = k
      · simp only [if_pos e, h]
      · simp only [if_neg e, put]
  · exact h

/-- Once every byte of a write has adopted a key, the line of each far one is under it. -/
theorem adoptKey_all (k : BitVec 512) (ws : List MByte) : ∀ s : State, ∀ b ∈ ws, isFar b.addr = true →
    Tab.find (ws.foldl (fun s b => adoptKey s (some k) b.addr) s).lineKeys (b.addr / 64) = some k := by
  induction ws with
  | nil => intro s b hb; simp at hb
  | cons x ws ih =>
    intro s b hb far
    rcases List.mem_cons.1 hb with rfl | hb
    · exact List.foldlRecOn (motive := fun u => Tab.find u.lineKeys (b.addr / 64) = some k) _ _
        (adoptKey_same s k _ far) fun u h (y : MByte) _ => adoptKey_keeps u k y.addr _ h
    · exact ih _ b hb far

/-- Bytes whose lines are under a key read under it as they are stored. -/
theorem readPhys_own_key (s : State) (k : BitVec 512) (a n : Nat)
    (h : ∀ i < n, Tab.find s.lineKeys ((a + i) / 64) = some k) : readPhys s (some k) a n = readPhys s none a n := by
  simp only [readPhys]
  split
  · refine List.map_congr_left fun i hi => ?_
    simp only [h i (List.mem_range.1 hi), if_true]
  · rfl

/-! ### Bytes of memory read back -/

/-- Whole bytes written under any key, or none, are what memory then stores. -/
theorem readPhys_writePhys_stored (s : State) (core : Option Nat) (key : Option (BitVec 512)) (a : Nat) (bs : List Byte)
    (h : Memory.wf s.mem = true) : readPhys (writePhys s core key (wholeBytes a bs)) none a bs.length = bs := by
  have rising := Tab.wf_rising _ _ (adoptKey_all_wf key (wholeBytes a bs) s h)
  refine List.ext_getElem (by simp [readPhys]) fun i _ hi => Option.some.inj ?_
  rw [← List.getElem?_eq_getElem hi, ← wholeBytes_read_at _ bs a i rising hi]
  simp [readPhys, writePhys_mem]

/-- Whole bytes written to far memory under a key are read back under it (R138). -/
theorem readPhys_writePhys_key (s : State) (core : Option Nat) (k : BitVec 512) (a : Nat) (bs : List Byte)
    (h : Memory.wf s.mem = true) (far : a + bs.length ≤ farEnd) :
    readPhys (writePhys s core (some k) (wholeBytes a bs)) (some k) a bs.length = bs := by
  rw [readPhys_own_key, readPhys_writePhys_stored s core (some k) a bs h]
  intro i hi
  obtain ⟨b, hb, addr⟩ := (mem_wholeBytes_addr bs a (a + i)).2 ⟨by omega, by omega⟩
  rw [writePhys_lineKeys, ← addr]
  exact adoptKey_all k _ s b hb (by rw [addr, isFar, decide_eq_true_eq]; omega)

/-! ### Registers and pairs (R21, R182) -/

/-- A lane register after a write: the low 32 bits of the value at its number, and every other as before. -/
theorem Lane.reg_setReg (l : Lane) (r v q : Nat) (h : Tab.rising none l.regs = true) :
    (l.setReg r v).reg q = if q = r then v % 2 ^ 32 else l.reg q := by
  simp only [Lane.reg, Lane.setReg, Tab.read_write 0 l.regs q r _ h]
  split
  · exact BitVec.toNat_ofNat v 32
  · rfl

/-- A register write leaves the predicates alone. -/
@[simp] theorem Lane.setReg_preds (l : Lane) (r v : Nat) : (l.setReg r v).preds = l.preds := rfl

/-- A write keeps a lane's registers a table of rising keys. -/
theorem Lane.setReg_rising (l : Lane) (r v : Nat) (h : Tab.rising none l.regs = true) :
    Tab.rising none (l.setReg r v).regs = true := Tab.write_rising 0 l.regs r _ h

/-- A lane register after a write of a pair: the pair's two registers take the words of the value. -/
theorem Lane.reg_setPair (l : Lane) (r v q : Nat) (h : Tab.rising none l.regs = true) :
    (l.setPair r v).reg q = if q = r + 1 then v / 2 ^ 32 % 2 ^ 32 else if q = r then v % 2 ^ 32 else l.reg q := by
  rw [Lane.setPair, Lane.reg_setReg _ _ _ _ (Lane.setReg_rising l r v h), Lane.reg_setReg l r v q h]

/-- A pair written is read back, of 64 bits. -/
theorem Lane.pair_setPair (l : Lane) (r v : Nat) (h : Tab.rising none l.regs = true) :
    (l.setPair r v).pair r = v % 2 ^ 64 := by
  rw [Lane.pair, Lane.reg_setPair l r v r h, Lane.reg_setPair l r v (r + 1) h, if_neg (by omega), if_pos rfl, if_pos rfl]
  omega

/-- A uniform register after a write. -/
theorem Warp.sreg_setSreg (W : Warp) (r v q : Nat) (h : Tab.rising none W.sregs = true) :
    (W.setSreg r v).sreg q = if q = r then v % 2 ^ 32 else W.sreg q := by
  simp only [Warp.sreg, Warp.setSreg, Tab.read_write 0 W.sregs q r _ h]
  split
  · exact BitVec.toNat_ofNat v 32
  · rfl

/-! ### Predicates (R21, R284) -/

/-- Seven predicate bits after one of them is set or cleared. -/
theorem setBit_getLsbD (x : BitVec 7) (n m : Nat) (b : Bool) (hn : n < 7) :
    (if b then x ||| (1#7 <<< n) else x &&& ~~~(1#7 <<< n)).getLsbD m = if m = n then b else x.getLsbD m := by
  have bit : (1#7 <<< n).getLsbD m = decide (m = n) := by
    rw [← BitVec.twoPow_eq, BitVec.getLsbD_twoPow, decide_eq_true hn, Bool.true_and]
    exact decide_eq_decide.2 eq_comm
  have low : x.getLsbD m = true → m < 7 := BitVec.lt_of_getLsbD
  cases b with
  | true => rw [if_pos rfl, BitVec.getLsbD_or, bit]; split <;> simp [*]
  | false =>
    rw [if_neg Bool.false_ne_true, BitVec.getLsbD_and, BitVec.getLsbD_not, bit]
    split
    · simp [*]
    · cases h : x.getLsbD m <;> simp [*]

/-- The number of a predicate that is not `pt` or `ct` names one of seven bits. -/
theorem pred_toNat_lt_seven (p : Pred) (h : p ≠ 7) : p.toNat < 7 := by
  have : p.toNat ≠ 7 := fun e => h (BitVec.eq_of_toNat_eq e)
  omega

/-- `pt` reads as 1. -/
@[simp] theorem Lane.pred_pt (l : Lane) : l.pred 7 = true := rfl

/-- What is written to `pt` is discarded. -/
@[simp] theorem Lane.setPred_pt (l : Lane) (b : Bool) : l.setPred 7 b = l := rfl

/-- `ct` reads as 1. -/
@[simp] theorem Warp.cpred_ct (W : Warp) : W.cpred 7 = true := rfl

/-- What is written to `ct` is discarded. -/
@[simp] theorem Warp.setCpred_ct (W : Warp) (b : Bool) : W.setCpred 7 b = W := rfl

/-- A predicate write leaves the registers alone. -/
@[simp] theorem Lane.setPred_regs (l : Lane) (p : Pred) (b : Bool) : (l.setPred p b).regs = l.regs := by
  unfold Lane.setPred; split <;> rfl

/-- A predicate after a write to one other than `pt`. -/
theorem Lane.pred_setPred (l : Lane) (p q : Pred) (b : Bool) (hp : p ≠ 7) :
    (l.setPred p b).pred q = if q = p then b else l.pred q := by
  unfold Lane.pred Lane.setPred
  by_cases hq : q = 7
  · rw [if_pos hq, if_neg (by rw [hq]; exact hp.symm), if_pos hq]
  · simp only [if_neg hq, if_neg hp, setBit_getLsbD _ _ _ _ (pred_toNat_lt_seven p hp), BitVec.toNat_inj]

/-- A uniform predicate after a write to one other than `ct`. -/
theorem Warp.cpred_setCpred (W : Warp) (c q : Pred) (b : Bool) (hc : c ≠ 7) :
    (W.setCpred c b).cpred q = if q = c then b else W.cpred q := by
  unfold Warp.cpred Warp.setCpred
  by_cases hq : q = 7
  · rw [if_pos hq, if_neg (by rw [hq]; exact hc.symm), if_pos hq]
  · simp only [if_neg hq, if_neg hc, setBit_getLsbD _ _ _ _ (pred_toNat_lt_seven c hc), BitVec.toNat_inj]

/-- Settles O59: the form of memory by the laws of its writes, bytes by what a write stores and the keys its lines adopt, and
registers and predicates by what each write leaves to read. -/
theorem memoryAndRegisters : Obligations.MemoryAndRegisters := by
  unfold Obligations.MemoryAndRegisters
  refine ⟨writePhys_wf, structWrite_wf, fun s core => readPhys_writePhys_stored s core none, readPhys_writePhys_key,
    ?reg, ?pair, ?pred, ?sreg, ?cpred⟩
  case reg =>
    intro l r v h
    refine ⟨?_, fun q hq => ?_, Lane.setReg_preds l r v, Lane.setReg_rising l r v h⟩
    · rw [Lane.reg_setReg l r v r h, if_pos rfl]
    · rw [Lane.reg_setReg l r v q h, if_neg hq]
  case pair =>
    refine fun l r v h => ⟨Lane.pair_setPair l r v h, fun q hr hs => ?_⟩
    rw [Lane.reg_setPair l r v q h, if_neg hs, if_neg hr]
  case pred =>
    refine fun l p b => ⟨Lane.setPred_regs l p b, Lane.pred_pt l, Lane.setPred_pt l b, fun hp => ?_, fun q hq => ?_⟩
    · rw [Lane.pred_setPred l p p b hp, if_pos rfl]
    · by_cases hp : p = 7
      · rw [hp, Lane.setPred_pt]
      · rw [Lane.pred_setPred l p q b hp, if_neg hq]
  case sreg =>
    refine fun W r v h => ⟨?_, fun q hq => ?_⟩
    · rw [Warp.sreg_setSreg W r v r h, if_pos rfl]
    · rw [Warp.sreg_setSreg W r v q h, if_neg hq]
  case cpred =>
    refine fun W c b => ⟨Warp.cpred_ct W, Warp.setCpred_ct W b, fun hc => ?_, fun q hq => ?_⟩
    · rw [Warp.cpred_setCpred W c c b hc, if_pos rfl]
    · by_cases hc : c = 7
      · rw [hc, Warp.setCpred_ct]
      · rw [Warp.cpred_setCpred W c q b hc, if_neg hq]

end Sys2Proof.Machine
end

section
/-! SUPPORT. What a write to physical memory, and a record of the machine log, leave alone. -/
namespace Sys2Proof.Machine

/-- A state without what a write to physical memory can change: memory with the keys and poison of its lines, the lines of
host memory that are held, and the warps whose monitors it wakes. -/
def State.unstored (s : State) : State :=
  { s with mem := [], lineKeys := [], poison := [], hostLines := [], warps := [] }

theorem State.unstored_put (s : State) (m : List Host.Cell) (k : Tab (BitVec 512)) :
    ({ s with mem := m, lineKeys := k } : State).unstored = s.unstored := rfl

/-- A line that takes another key changes nothing else. -/
theorem adoptKey_unstored (s : State) (key : Option (BitVec 512)) (a : Nat) :
    (adoptKey s key a).unstored = s.unstored := by
  unfold adoptKey
  cases key with
  | none => rfl
  | some k =>
    simp only
    split
    · split
      · exact State.unstored_put s _ _
      · split
        · rfl
        · exact State.unstored_put s _ _
    · rfl

/-- A write to physical memory by no core changes nothing else. -/
theorem writePhys_unstored (s : State) (key : Option (BitVec 512)) (ws : List MByte) :
    (writePhys s none key ws).unstored = s.unstored := by
  have adopted : (ws.foldl (fun u b => adoptKey u key b.addr) s).unstored = s.unstored :=
    List.foldlRecOn (motive := fun u => u.unstored = s.unstored) _ _ rfl fun u h b _ =>
      (adoptKey_unstored u key b.addr).trans h
  have put : ∀ (u : State) m, ({ u with mem := m } : State).unstored = u.unstored := fun _ _ => rfl
  have clear : ∀ u, (clearPoison u ws).unstored = u.unstored := by intro u; unfold clearPoison; split <;> rfl
  have wake : ∀ u, (wakeMonitors u none ws).unstored = u.unstored := fun _ => rfl
  have hold : ∀ u v a, (holdHost u v a).unstored = u.unstored := by intro u v a; unfold holdHost; split <;> rfl
  unfold writePhys
  cases ws <;> simp only [hold, wake, clear, put, adopted]

/-- Nor does a write of the device. -/
theorem putPhys_unstored (s : State) (a : Nat) (bs : List Byte) : (putPhys s a bs).unstored = s.unstored :=
  writePhys_unstored s none (wholeBytes a bs)

end Sys2Proof.Machine
end

section
/-! SUPPORT. The registers of the device part: what a write of each does, what the security controller leaves when it ends, and
what reset leaves; and the two statements that follow from it. -/
namespace Sys2Proof.Machine

/-! ### Writes that the window takes (R396, R397) -/

/-- A register event writes its register where the window accepts it. -/
theorem regEvent_open (s : State) (r : WinReg) (v : Nat) (h : regOpen s r = true) :
    regEvent s r v = .next (writeReg s r v) := by rw [regEvent, putReg, if_pos h]

/-- While IDE is active, the window accepts every register but those of a debug area (R396, R410). -/
theorem regOpen_of_ide {s : State} {r : WinReg} (ide : s.dev.ideActive = true) (h : r.debugOf = none) :
    regOpen s r = true := by simp [regOpen, ide, h]

/-- FWGO is open while IDE is active, and before that while the security controller has power (R396). -/
theorem regOpen_fwgo {s : State} (h : s.dev.ideActive = true ∨ islandOn s 27 = true) : regOpen s .fwgo = true := by
  rcases h with h | h <;> simp [regOpen, WinReg.firmware, WinReg.debugOf, h]

/-! ### Power limit and pinned part (R17, R127) -/

/-- A locked PWRLIM keeps what it holds. -/
theorem writePwrlim_locked {s : State} (h : s.dev.pwrLock = true) (v : Nat) : writePwrlim s v = s := if_pos h

/-- PWRLIM that is not locked takes a limit within its bounds, and locks by bit 16. -/
theorem writePwrlim_unlocked {s : State} (h : s.dev.pwrLock = false) (v : Nat) :
    writePwrlim s v = s.modDev fun D => { D with
      pwrLimit := BitVec.ofNat 16 (max 1500 (min 4400 (v % 65536))), pwrLock := v.testBit 16 } := by
  rw [writePwrlim, h, if_neg Bool.false_ne_true]

theorem anyRunning_iff (s : State) : anyRunning s = true ↔ ∃ e ∈ s.ctxs, e.2.state = .running := by
  simp [anyRunning, List.any_eq_true]

/-- While a context runs, what is written to NEARPART waits. -/
theorem writeNearpart_running {s : State} (h : ∃ e ∈ s.ctxs, e.2.state = .running) (v : Nat) :
    writeNearpart s v = s.modDev fun D => { D with nearpartNext := some (min v 32) } :=
  if_pos ((anyRunning_iff s).2 h)

/-- While none runs, it takes effect at once. -/
theorem writeNearpart_idle {s : State} (h : ∀ e ∈ s.ctxs, e.2.state ≠ .running) (v : Nat) :
    writeNearpart s v = s.modDev fun D => { D with nearpart := min v 32, nearpartNext := none } :=
  if_neg fun run => have ⟨e, he, r⟩ := (anyRunning_iff s).1 run; h e he r

/-! ### Requests to the security controller (R402, R404, R405) -/

/-- A write of FWGO begins a verification by the value 1 alone. -/
theorem writeFwgo_idle {s : State} (h : s.dev.fwBusy = false) (v : Double) :
    writeFwgo s v.toNat = s.modDev fun D => { D with fwgo := v, fwBusy := v == 1 } := by
  have one : (v.toNat == 1) = (v == 1) := Bool.eq_iff_iff.2 (by simp [← BitVec.toNat_inj])
  rw [writeFwgo, h, if_neg Bool.false_ne_true, one, BitVec.ofNat_toNat, BitVec.setWidth_eq]

theorem writeFwgo_busy {s : State} (h : s.dev.fwBusy = true) (v : Nat) : writeFwgo s v = s := if_pos h

/-- A write of ATTGO asks for a report. -/
theorem writeAttgo_idle {s : State} (h : s.dev.attBusy = false) (v : Double) :
    writeAttgo s v.toNat = s.modDev fun D => { D with attgo := v, attBusy := true } := by
  rw [writeAttgo, h, if_neg Bool.false_ne_true, BitVec.ofNat_toNat, BitVec.setWidth_eq]

theorem writeAttgo_busy {s : State} (h : s.dev.attBusy = true) (v : Nat) : writeAttgo s v = s := if_pos h

/-- A row of digits, each at its weight, is what Horner's scheme makes of them. -/
theorem zipIdx_weights_eq_foldr (b : Nat) (ds : List Nat) : ∀ k a : Nat,
    (ds.zipIdx k).foldl (fun a e => a + e.1 * b ^ e.2) a = a + b ^ k * ds.foldr (fun d r => d + b * r) 0 := by
  induction ds with
  | nil => intro k a; simp
  | cons d ds ih =>
    intro k a
    rw [List.zipIdx_cons, List.foldl_cons, ih, List.foldr_cons, Nat.mul_add, Nat.pow_succ, Nat.mul_assoc, Nat.add_assoc,
      Nat.mul_comm d]

/-- A word put below others is their lowest digit. -/
theorem toNat_append_double {n : Nat} (x : BitVec n) (d : Double) : (x ++ d).toNat = d.toNat + 2 ^ 64 * x.toNat := by
  rw [BitVec.toNat_append, ← Nat.shiftLeft_add_eq_or_of_lt d.isLt, Nat.shiftLeft_eq, Nat.add_comm, Nat.mul_comm]

/-- The key that KEYDATA holds: its registers one above the other, the first the lowest. -/
theorem keydata_key (d0 d1 d2 d3 d4 d5 d6 d7 : Double) :
    BitVec.ofNat 512 ([d0, d1, d2, d3, d4, d5, d6, d7].zipIdx.foldl
      (fun a (e : Double × Nat) => a + e.1.toNat * 2 ^ (64 * e.2)) 0)
      = d7 ++ d6 ++ d5 ++ d4 ++ d3 ++ d2 ++ d1 ++ d0 := by
  have sum := zipIdx_weights_eq_foldr (2 ^ 64) ([d0, d1, d2, d3, d4, d5, d6, d7].map BitVec.toNat) 0 0
  rw [List.zipIdx_map, List.foldl_map] at sum
  simp only [Prod.map, id, ← Nat.pow_mul] at sum
  have digits : _ = (d7 ++ d6 ++ d5 ++ d4 ++ d3 ++ d2 ++ d1 ++ d0).toNat := sum.trans (by
    simp only [toNat_append_double, List.map_cons, List.map_nil, List.foldr_cons, List.foldr_nil, Nat.pow_zero,
      Nat.one_mul, Nat.zero_add, Nat.mul_zero, Nat.add_zero])
  rw [digits]
  exact (BitVec.ofNat_toNat _ _).trans (BitVec.setWidth_eq _)

/-- A LOAD of a slot that is there takes the key of KEYDATA. -/
theorem writeKeyop_load {s : State} (idle : s.dev.keyPending = none) (slot : s.dev.keyslot.toNat < 512)
    {d0 d1 d2 d3 d4 d5 d6 d7 : Double} (data : s.dev.keydata = [d0, d1, d2, d3, d4, d5, d6, d7]) :
    writeKeyop s 1 = s.modDev fun D => { D with
      keyPending := some (s.dev.keyslot.toNat, some (d7 ++ d6 ++ d5 ++ d4 ++ d3 ++ d2 ++ d1 ++ d0)) } := by
  have free : ¬ (s.dev.keyPending.isSome = true ∨ Config.keySlots ≤ s.dev.keyslot.toNat) := by
    rw [idle]; simpa [Config.keySlots] using slot
  rw [writeKeyop]
  simp only [if_neg free, if_true, data, keydata_key]
  rfl

/-- A CLEAR of a slot that is there. -/
theorem writeKeyop_clear {s : State} (idle : s.dev.keyPending = none) (slot : s.dev.keyslot.toNat < 512) :
    writeKeyop s 2 = s.modDev fun D => { D with keyPending := some (s.dev.keyslot.toNat, none) } := by
  have free : ¬ (s.dev.keyPending.isSome = true ∨ Config.keySlots ≤ s.dev.keyslot.toNat) := by
    rw [idle]; simpa [Config.keySlots] using slot
  rw [writeKeyop]
  simp only [if_neg free]
  rfl

/-- A write of KEYOP while an operation is under way, or for a slot that is not there, changes nothing. -/
theorem writeKeyop_refused {s : State} (h : s.dev.keyPending.isSome = true ∨ 512 ≤ s.dev.keyslot.toNat) (v : Nat) :
    writeKeyop s v = s := if_pos h

/-! ### What the controller leaves when it ends -/

/-- A verification that ends measures the image and says what it found; islands have power only after a good one (R404). -/
theorem execFirmwareVerifyDone_ends {s : State} (busy : s.dev.fwBusy = true) {image : List Byte}
    (read : image = readPhys s none s.dev.fwaddr.toNat s.dev.fwlen.toNat) :
    ∃ t, execFirmwareVerifyDone s = .next t
      ∧ t.dev = { s.dev with
          fwBusy := false, measurement := shake256 image 64
          fwstat := if s.dev.pufFailed then 3 else if Config.firmwareSignatureGood image then 1 else 2 }
      ∧ t.mem = s.mem
      ∧ (Config.firmwareSignatureGood image = false → t.islands = s.islands) := by
  subst read
  rw [execFirmwareVerifyDone]
  simp only [busy, Bool.not_true, Bool.false_eq_true, if_false]
  generalize readPhys s none s.dev.fwaddr.toNat s.dev.fwlen.toNat = image
  refine ⟨_, rfl, ?dev, ?mem, ?islands⟩
  case dev =>
    have power : ∀ (c : Bool) u, (if c then setPower u coreIslands true else u).dev = u.dev := fun c u => by
      cases c <;> rfl
    rw [power]
    cases puf : s.dev.pufFailed <;> simp [State.modDev, puf]
  case mem => split <;> rfl
  case islands =>
    intro bad
    simp only [bad, Bool.false_and, Bool.false_eq_true, if_false]
    rfl

/-- A failed PUF turns a request for a report away (R499). -/
theorem execAttestReportDone_refused {s : State} (busy : s.dev.attBusy = true) (puf : s.dev.pufFailed = true) :
    execAttestReportDone s = .next (s.modDev fun D => { D with attBusy := false, attstat := 2 }) := by
  simp [execAttestReportDone, busy, puf]

/-- A report is written where it can be (R405). -/
theorem execAttestReportDone_writes {s : State} (busy : s.dev.attBusy = true) (puf : s.dev.pufFailed = false)
    {report : List Byte} (made : report = reportBody s.dev ++ fitBytes 29792 (Config.attestSignature (reportBody s.dev)))
    (ok : physOk s s.dev.attaddr.toNat report.length = true) :
    execAttestReportDone s
      = .next ((putPhys s s.dev.attaddr.toNat report).modDev fun D => { D with attBusy := false, attstat := 1 }) := by
  rw [execAttestReportDone]
  simp only [busy, puf, Bool.not_true, Bool.false_eq_true, if_false, signatureBytes, ← made, if_pos ok]

/-! ### Key operations (R402) -/

/-- Dropping the copies of a line leaves the key slots alone. -/
@[simp] theorem dropLine_keys (s : State) (core line : Nat) : (dropLine s core line).keys = s.keys := by
  unfold dropLine; simp only; split <;> rfl

/-- So does a write to physical memory. -/
@[simp] theorem writePhys_keys (s : State) (core : Option Nat) (key : Option (BitVec 512)) (ws : List MByte) :
    (writePhys s core key ws).keys = s.keys := by
  have stored : (writePhys s none key ws).keys = s.keys := (congrArg State.keys (writePhys_unstored s key ws) :)
  cases core with
  | none => exact stored
  | some c =>
    exact List.foldlRecOn (motive := fun u => u.keys = s.keys) _ _ stored fun u h l _ => (dropLine_keys u c l).trans h

/-- Stores that reach their home L2s leave the key slots alone. -/
@[simp] theorem landCore_keys (s : State) (core : Nat) : (landCore s core).keys = s.keys := by
  unfold landCore
  simp only
  split
  · rfl
  · refine List.foldlRecOn (motive := fun u => u.keys = s.keys) _ (landWrite core) ?_ fun u h y _ =>
      (writePhys_keys u (some core) y.key y.op.writes).trans h
    rfl

@[simp] theorem landAll_keys (s : State) : (landAll s).keys = s.keys :=
  List.foldlRecOn (motive := fun u => u.keys = s.keys) _ _ rfl fun u h e _ => (landCore_keys u e.1).trans h

/-- A LOAD that completes puts the key in its slot, and leaves every other slot as it was. -/
theorem execKeyOpComplete_load {s : State} {slot : Nat} {key : BitVec 512}
    (h : s.dev.keyPending = some (slot, some key)) :
    ∃ t, execKeyOpComplete s = .next t ∧ Tab.find t.keys slot = some key
      ∧ (∀ k, k ≠ slot → Tab.find t.keys k = Tab.find s.keys k) ∧ t.dev.keyPending = none := by
  rw [execKeyOpComplete, h]
  refine ⟨_, rfl, ?_, fun k hk => ?_, rfl⟩
  · exact Tab.find_put_same _ slot key
  · simp only [landAll_keys, Tab.find_put_ne s.keys key hk]

/-- A CLEAR that completes empties its slot, and leaves every other slot as it was. -/
theorem execKeyOpComplete_clear {s : State} {slot : Nat} (h : s.dev.keyPending = some (slot, none))
    (rising : Tab.rising none s.keys = true) :
    ∃ t, execKeyOpComplete s = .next t ∧ Tab.find t.keys slot = none
      ∧ (∀ k, k ≠ slot → Tab.find t.keys k = Tab.find s.keys k) ∧ t.dev.keyPending = none := by
  rw [execKeyOpComplete, h]
  refine ⟨_, rfl, ?_, fun k hk => ?_, rfl⟩
  · simp only [landAll_keys, Tab.find_drop s.keys slot slot rising, if_true]
  · simp only [landAll_keys, Tab.find_drop s.keys k slot rising, if_neg hk]

/-- Settles O46, register by register: what the window takes by `regEvent_open`, and what each write and each end leaves by the
laws of its own. -/
theorem deviceRegisters : Obligations.DeviceRegisters := by
  unfold Obligations.DeviceRegisters
  refine ⟨fun s v ide => ?writes, fun s v fw => ?fwgo, fun s busy image => execFirmwareVerifyDone_ends busy,
    fun s busy => ⟨execAttestReportDone_refused busy, fun puf _ => execAttestReportDone_writes busy puf⟩,
    fun s slot => ⟨fun key => execKeyOpComplete_load, execKeyOpComplete_clear⟩⟩
  case fwgo =>
    have taken := regEvent_open s .fwgo v.toNat (regOpen_fwgo fw)
    exact ⟨fun h => taken.trans (congrArg _ (writeFwgo_idle h v)), fun h => taken.trans (congrArg _ (writeFwgo_busy h _))⟩
  case writes =>
    have taken : ∀ r n, r.debugOf = none → regEvent s r n = .next (writeReg s r n) :=
      fun r n h => regEvent_open s r n (regOpen_of_ide ide h)
    have pwrlim := taken .pwrlim v.toNat rfl
    have nearpart := taken .nearpart v.toNat rfl
    have attgo := taken .attgo v.toNat rfl
    have load := taken .keyop 1 rfl
    have clear := taken .keyop 2 rfl
    refine ⟨fun h => pwrlim.trans (congrArg _ (writePwrlim_locked h _)),
      fun h => pwrlim.trans (congrArg _ (writePwrlim_unlocked h _)),
      fun h => nearpart.trans (congrArg _ (writeNearpart_running h _)),
      fun h => nearpart.trans (congrArg _ (writeNearpart_idle h _)),
      fun h => attgo.trans (congrArg _ (writeAttgo_idle h v)),
      fun h => attgo.trans (congrArg _ (writeAttgo_busy h _)),
      fun _ _ _ _ _ _ _ _ idle slot data => load.trans (congrArg _ (writeKeyop_load idle slot data)),
      fun idle slot => clear.trans (congrArg _ (writeKeyop_clear idle slot)),
      fun h => ⟨load.trans (congrArg _ (writeKeyop_refused h 1)), clear.trans (congrArg _ (writeKeyop_refused h 2))⟩⟩

/-- Settles O58: every context is unlisted at reset, and so reads as one that is FREE with its comparators off. -/
theorem resetState : Obligations.ResetState := by
  unfold Obligations.ResetState
  refine ⟨rfl, rfl, rfl, fun c => ⟨rfl, rfl, rfl, fun k hk => ?_⟩, rfl, rfl, rfl, rfl, reset_memory_wf⟩
  rw [List.eq_of_mem_replicate hk]
  rfl

end Sys2Proof.Machine
end

section
/-! SUPPORT. What a record of the machine log leaves alone. -/
namespace Sys2Proof.Machine

/-- The device part without what the machine log holds. -/
def Device.unlogged (D : Device) : Device := { D with mchead := 0, mclost := 0, kept := [] }
/-- A state without what a record of the machine log can change. -/
def State.unlogged (s : State) : State := { s.unstored with dev := s.dev.unlogged }

/-- What a write to physical memory leaves alone, a log record that it writes leaves alone too. -/
theorem unlogged_of_unstored {t s : State} (h : t.unstored = s.unstored) : t.unlogged = s.unlogged :=
  congrArg (fun u : State => { u with dev := u.dev.unlogged }) h

/-- The log's own registers and kept records are what it leaves out. -/
theorem State.unlogged_dev (s : State) (h l : Word) (k : List (List Byte)) :
    ({ s with dev := { s.dev with mchead := h, mclost := l, kept := k } } : State).unlogged = s.unlogged := rfl

/-- A record in the ring changes nothing else. -/
theorem ringLog_unlogged {s t : State} {bs : List Byte} (h : ringLog s bs = some t) : t.unlogged = s.unlogged := by
  unfold ringLog at h
  simp only at h
  split at h
  · obtain rfl := Option.some.inj h
    exact (State.unlogged_dev (putPhys s _ bs) _ _ _).trans (unlogged_of_unstored (putPhys_unstored s _ bs))
  · cases h

/-- Nor do the records that are kept, once the ring takes them. -/
theorem flushKept_unlogged (ks : List (List Byte)) : ∀ s : State, (flushKept ks s).unlogged = s.unlogged := by
  induction ks with
  | nil => exact fun s => State.unlogged_dev s _ _ []
  | cons bs ks ih =>
    intro s
    unfold flushKept
    cases h : ringLog s bs with
    | none => exact State.unlogged_dev s _ _ (bs :: ks)
    | some u => exact (ih u).trans (ringLog_unlogged h)

theorem drainKept_unlogged (s : State) : (drainKept s).unlogged = s.unlogged := by
  unfold drainKept
  split
  · rfl
  · exact flushKept_unlogged _ s

theorem keepLog_unlogged (s : State) (e : LogEntry) : (keepLog s e).unlogged = s.unlogged :=
  State.unlogged_dev s _ _ _

/-- A log record changes only the log, and what the write of its bytes changes (R496). -/
theorem logRecord_unlogged (s : State) (e : LogEntry) : (logRecord s e).unlogged = s.unlogged := by
  refine Eq.trans ?_ (drainKept_unlogged s)
  unfold logRecord
  generalize drainKept s = u
  simp only
  split
  · exact keepLog_unlogged u e
  · cases h : ringLog u (logBytes u e) with
    | some t => exact ringLog_unlogged h
    | none =>
      simp only
      split
      · exact State.unlogged_dev u _ _ _
      · exact keepLog_unlogged u e

/-- So does the record of a thermal trip (R494). -/
theorem logTrip_unlogged (s : State) (e : LogEntry) : (logTrip s e).unlogged = s.unlogged := by
  refine Eq.trans ?_ (drainKept_unlogged s)
  unfold logTrip
  generalize drainKept s = u
  simp only
  split
  · exact keepLog_unlogged u e
  · cases h : ringLog u (logBytes u e) with
    | some t => exact ringLog_unlogged h
    | none => exact keepLog_unlogged u e

/-- So do the records of losses found together (R497). -/
theorem logLosses_unlogged (s : State) (ls : List UnitLoss) : (logLosses s ls).unlogged = s.unlogged := by
  unfold logLosses
  exact List.foldlRecOn (motive := fun u : State => u.unlogged = s.unlogged) _ _ rfl fun u h e _ =>
    (logRecord_unlogged u _).trans h

end Sys2Proof.Machine
end

section
/-! SUPPORT. Power of the islands, its trips and the throttling of dies. -/
namespace Sys2Proof.Machine

/-! ### Islands (R14, R20) -/

theorem modAt_eq_modify {α : Type} (f : α → α) : ∀ (l : List α) (n : Nat), modAt l n f = l.modify n f
  | [], n => by cases n <;> rfl
  | _ :: _, 0 => rfl
  | _ :: l, n + 1 => by rw [modAt, modAt_eq_modify f l n, List.modify_succ_cons]

/-- An island after some have been given power or lost it. -/
theorem setPower_island (s : State) (is : List Nat) (on : Bool) (i : Nat) :
    (setPower s is on).islands[i]? = s.islands[i]?.map fun x => if i ∈ is then { x with powered := on } else x := by
  unfold setPower
  simp only
  generalize s.islands = l
  induction is generalizing l with
  | nil => simp
  | cons j is ih =>
    rw [List.foldl_cons, ih, modAt_eq_modify, List.getElem?_modify]
    cases l[i]? with
    | none => simp
    | some x =>
      rcases Decidable.em (i = j) with rfl | h
      · simp
      · simp [h, Ne.symm h]

theorem islandOn_congr {s t : State} (h : t.islands = s.islands) (i : Nat) : islandOn t i = islandOn s i := by
  rw [islandOn, islandOn, h]

/-- Islands that lose power have none. -/
theorem islandOn_setPower_off {s : State} {is : List Nat} {i : Nat} (h : i ∈ is) : islandOn (setPower s is false) i = false := by
  rw [islandOn, setPower_island]
  cases s.islands[i]? <;> simp [h]

/-- Other islands stay as they are. -/
theorem islandOn_setPower_ne {s : State} {is : List Nat} {i : Nat} (h : i ∉ is) (on : Bool) :
    islandOn (setPower s is on) i = islandOn s i := by
  rw [islandOn, setPower_island, islandOn]
  cases s.islands[i]? <;> simp [h]

/-- There is no power where there is no island. -/
theorem islandOn_of_length_le {s : State} {i : Nat} (h : s.islands.length ≤ i) : islandOn s i = false := by
  rw [islandOn, List.getElem?_eq_none h]

theorem islandClock_congr {s t : State} (h : t.islands = s.islands) (i : Nat) : islandClock t i = islandClock s i := by
  rw [islandClock, islandClock, h]

/-- The clock of an island after clocks are set. -/
theorem islandClock_setClocks (s : State) (gs : List Nat) (i : Nat) :
    islandClock (setClocks s gs) i = if i < s.islands.length then gs.getD i (islandClock s i) else 0 := by
  unfold islandClock setClocks
  rw [List.getElem?_map, List.getElem?_zipIdx]
  by_cases h : i < s.islands.length
  · simp [if_pos h, List.getElem?_eq_getElem h]
  · simp [if_neg h, List.getElem?_eq_none (Nat.le_of_not_lt h)]

/-! ### Power coming up and going down (R20) -/

section
variable {s : State} {g : List Nat}

/-- AON comes up, and the device identity is derived (R405, R499). -/
theorem execPowerUp_aon (h : powerGroups.find? (fun g => !(g.all (islandOn s))) = some [27, 31]) :
    ∃ t, execPowerUp s = .next t ∧ t.islands = (setPower s [27, 31] true).islands
      ∧ t.dev.pufFailed = !(Config.pufGood s.free) ∧ (t.dev.pufFailed = true → t.dev.fwstat = 3) := by
  unfold execPowerUp
  simp only [h]
  exact ⟨_, rfl, rfl, rfl, fun bad => if_pos bad⟩

/-- Any other group comes up below the trip point, CORE after verified firmware, and the Survey image with near memory. -/
theorem execPowerUp_main (h : powerGroups.find? (fun g => !(g.all (islandOn s))) = some g) (aon : g ≠ [27, 31])
    (cool : s.dev.temp < 115) (core : g ≠ coreIslands ∨ s.dev.fwstat = 1) {u : State}
    (hu : u = (setPower s g true).modDev fun D => { D with mainPower := true }) :
    execPowerUp s = .next (if g = nearIslands then putPhys u s.dev.surveyAddr.toNat (surveyImage u) else u) := by
  have may : ¬ (tripPoint ≤ s.dev.temp ∨ (g = coreIslands ∧ s.dev.fwstat ≠ 1)) := by
    rintro (hot | ⟨hg, hf⟩)
    · exact absurd cool (Nat.not_lt.2 hot)
    · exact core.elim (· hg) hf
  subst hu
  unfold execPowerUp
  simp only [h]
  rw [if_neg (show g ≠ aonIslands from aon), if_neg may]
  rfl

/-- It stays away at the trip point, and CORE before verified firmware. -/
theorem execPowerUp_waits (h : powerGroups.find? (fun g => !(g.all (islandOn s))) = some g) (aon : g ≠ [27, 31])
    (may : 115 ≤ s.dev.temp ∨ (g = coreIslands ∧ s.dev.fwstat ≠ 1)) : execPowerUp s = .next s := by
  unfold execPowerUp
  simp only [h]
  rw [if_neg (show g ≠ aonIslands from aon)]
  exact if_pos may

/-- With every island up, nothing is left to come up. -/
theorem execPowerUp_done (h : ∀ g ∈ powerGroups, g.all (islandOn s) = true) : execPowerUp s = .next s := by
  have none_left : powerGroups.find? (fun g => !(g.all (islandOn s))) = none :=
    List.find?_eq_none.2 fun g hg => by simp [h g hg]
  unfold execPowerUp
  simp only [none_left]

/-- CORE goes down first: work ends, and firmware must be verified again. -/
theorem execPowerDown_core (h : ∃ i ∈ coreIslands, islandOn s i = true) :
    execPowerDown s = .next ((endWork (setPower s coreIslands false)).modDev fun D => { D with fwstat := 0 }) := by
  have last : powerGroups.reverse = coreIslands :: (powerGroups.take 4).reverse := rfl
  have up : powerGroups.reverse.find? (fun g => g.any (islandOn s)) = some coreIslands := by
    rw [last]; exact List.find?_cons_of_pos (List.any_eq_true.2 h)
  unfold execPowerDown
  simp only [up, if_true]
  rfl

/-- The groups between CORE and AON go down with their links, and leave memory and work. -/
theorem execPowerDown_main (h : powerGroups.reverse.find? (fun g => g.any (islandOn s)) = some g)
    (core : g ≠ coreIslands) (aon : g ≠ [27, 31]) :
    ∃ t, execPowerDown s = .next t ∧ t.islands = (setPower s g false).islands ∧ t.mem = s.mem ∧ t.warps = s.warps
      ∧ (26 ∈ g → t.dev.ideActive = false) := by
  unfold execPowerDown
  simp only [h]
  rw [if_neg core, if_neg (show g ≠ aonIslands from aon)]
  refine ⟨_, rfl, rfl, rfl, rfl, fun link => ?_⟩
  simp only [islandOn_setPower_off link, Bool.and_false, Bool.false_and]

end

/-! ### Trips and throttling (R19, R494) -/

section
variable (s : State)

/-- The islands that a thermal trip takes main supply from. -/
theorem mem_tripped (i : Nat) :
    i ∈ (List.range 32).filter (fun i => !aonIslands.contains i) ↔ i < 32 ∧ i ≠ 27 ∧ i ≠ 31 := by
  simp [aonIslands]

/-- A thermal trip takes their power and leaves the other islands as they are. -/
theorem thermalTrip_islands : (thermalTrip s).islands =
    (setPower s ((List.range 32).filter fun i => !aonIslands.contains i) false).islands := by
  have logged : ∀ e, (logTrip s e).islands = s.islands := fun e => (congrArg State.islands (logTrip_unlogged s e) :)
  simp only [thermalTrip, setPower, endWork, logged]

/-- After a thermal trip only AON has power. -/
theorem islandOn_thermalTrip_main (all : s.islands.length = 32) {i : Nat} (h27 : i ≠ 27) (h31 : i ≠ 31) :
    islandOn (thermalTrip s) i = false := by
  rw [islandOn_congr (thermalTrip_islands s)]
  by_cases hi : i < 32
  · exact islandOn_setPower_off ((mem_tripped i).2 ⟨hi, h27, h31⟩)
  · rw [islandOn_setPower_ne fun h => hi ((mem_tripped i).1 h).1]
    exact islandOn_of_length_le (by omega)

/-- AON keeps what power it has. -/
theorem islandOn_thermalTrip_aon {i : Nat} (h : i = 27 ∨ i = 31) : islandOn (thermalTrip s) i = islandOn s i := by
  rw [islandOn_congr (thermalTrip_islands s), islandOn_setPower_ne]
  rw [mem_tripped]
  rintro ⟨-, h27, h31⟩
  exact h.elim h27 h31

/-- A thermal trip ends all work and the link. -/
theorem thermalTrip_ends : (thermalTrip s).dev.ideActive = false ∧ (thermalTrip s).warps = []
    ∧ (thermalTrip s).blocks = [] ∧ (thermalTrip s).launches = [] := ⟨rfl, rfl, rfl, rfl⟩

/-- Every context is then FREE. -/
theorem thermalTrip_free : ∀ e ∈ (thermalTrip s).ctxs, e.2.state = .free := by
  intro e he
  obtain ⟨x, -, rfl⟩ := List.mem_map.1 he
  rfl

/-- The junction is remembered at the trip point or above. -/
theorem thermalTrip_temp : (thermalTrip s).dev.temp = max 115 s.dev.temp := by
  have logged : ∀ e, (logTrip s e).dev.temp = s.dev.temp := fun e =>
    (congrArg (fun u : State => u.dev.temp) (logTrip_unlogged s e) :)
  simp only [thermalTrip, setPower, endWork, logged, tripPoint]

end
end Sys2Proof.Machine
end

section
/-! SUPPORT. What throttling, trips, the Survey's degradations and self-tests leave. -/
namespace Sys2Proof.Machine

/-! ### Parts that a log record or a write of the device leaves alone -/

section
variable (s : State) (e : LogEntry)

@[simp] theorem logRecord_islands : (logRecord s e).islands = s.islands :=
  (congrArg State.islands (logRecord_unlogged s e) :)
@[simp] theorem logRecord_die (d : Nat) : (logRecord s e).die d = s.die d :=
  (congrArg (fun u : State => u.die d) (logRecord_unlogged s e) :)
@[simp] theorem logRecord_temp : (logRecord s e).dev.temp = s.dev.temp :=
  (congrArg (fun u : State => u.dev.temp) (logRecord_unlogged s e) :)
@[simp] theorem logRecord_trips : (logRecord s e).dev.trips = s.dev.trips :=
  (congrArg (fun u : State => u.dev.trips) (logRecord_unlogged s e) :)
@[simp] theorem logRecord_rmver : (logRecord s e).dev.rmver = s.dev.rmver :=
  (congrArg (fun u : State => u.dev.rmver) (logRecord_unlogged s e) :)

variable (a : Nat) (bs : List Byte)

@[simp] theorem putPhys_tick : (putPhys s a bs).tick = s.tick := (congrArg State.tick (putPhys_unstored s a bs) :)
@[simp] theorem putPhys_dev : (putPhys s a bs).dev = s.dev := (congrArg State.dev (putPhys_unstored s a bs) :)
@[simp] theorem putPhys_survey : (putPhys s a bs).survey = s.survey :=
  (congrArg State.survey (putPhys_unstored s a bs) :)
@[simp] theorem putPhys_ctx (c : Nat) : (putPhys s a bs).ctx c = s.ctx c :=
  (congrArg (fun u : State => u.ctx c) (putPhys_unstored s a bs) :)
@[simp] theorem putPhys_cores : (putPhys s a bs).cores = s.cores := (congrArg State.cores (putPhys_unstored s a bs) :)

@[simp] theorem writeSurvey_tick : (writeSurvey s).tick = s.tick := by rw [writeSurvey, putPhys_tick]
@[simp] theorem writeSurvey_dev : (writeSurvey s).dev = s.dev := by rw [writeSurvey, putPhys_dev]
@[simp] theorem writeSurvey_survey : (writeSurvey s).survey = s.survey := by rw [writeSurvey, putPhys_survey]
@[simp] theorem writeSurvey_ctx (c : Nat) : (writeSurvey s).ctx c = s.ctx c := by rw [writeSurvey, putPhys_ctx]
@[simp] theorem writeSurvey_cores : (writeSurvey s).cores = s.cores := by rw [writeSurvey, putPhys_cores]

end

/-! ### Throttling and current trips (R19, R494) -/

/-- Below the point of throttling nothing happens. -/
theorem execJunctionThrottle_cool (s : State) (die : Nat) {temp : Nat} (cool : temp < 100) :
    execJunctionThrottle die temp s = .next s := if_pos (.inr cool)

/-- From there to the trip point, the die is throttled and the hottest junction remembered. -/
theorem execJunctionThrottle_hot (s : State) {die temp : Nat} (hd : die < 8) (hot : 100 ≤ temp) (below : temp < 115) :
    ∃ t, execJunctionThrottle die temp s = .next t
      ∧ (t.die die).throttled = true ∧ t.dev.temp = max (min 255 temp) s.dev.temp := by
  have acts : ¬ (8 ≤ die ∨ temp < throttlePoint) := by unfold throttlePoint; omega
  have stays : ¬ tripPoint ≤ temp := by unfold tripPoint; omega
  rw [execJunctionThrottle, if_neg acts]
  simp only [if_neg stays]
  refine ⟨_, rfl, ?_, ?_⟩
  · rw [logRecord_die]
    exact congrArg Die.throttled ((State.die_setDie s die die _).trans (if_pos rfl))
  · rw [logRecord_temp]
    rfl

/-- At the trip point main supply goes. -/
theorem execJunctionThrottle_trips (s : State) {die temp : Nat} (hd : die < 8) (hot : 115 ≤ temp)
    (all : s.islands.length = 32) :
    ∃ t, execJunctionThrottle die temp s = .next t
      ∧ (∀ i, i ≠ 27 → i ≠ 31 → islandOn t i = false) ∧ t.dev.ideActive = false ∧ t.warps = []
      ∧ t.dev.temp = max (min 255 temp) s.dev.temp := by
  have acts : ¬ (8 ≤ die ∨ temp < throttlePoint) := by unfold throttlePoint; omega
  have trips : tripPoint ≤ temp := hot
  rw [execJunctionThrottle, if_neg acts]
  simp only [if_pos trips]
  refine ⟨_, rfl, fun i => islandOn_thermalTrip_main _ ?_, rfl, rfl, ?_⟩
  · rw [logRecord_islands]
    exact all
  · rw [thermalTrip_temp, logRecord_temp]
    simp only [State.modDie_dev]
    omega

/-- A throttled die that has cooled is released, and no other. -/
theorem execThrottleRelease_releases (s : State) {die : Nat} (h : (s.die die).throttled = true) :
    ∃ t, execThrottleRelease die s = .next t ∧ (t.die die).throttled = false ∧ ∀ d, d ≠ die → t.die d = s.die d := by
  have acts : ¬ ((!(s.die die).throttled) = true ∧ s.dev.temp < throttlePoint) := by simp [h]
  rw [execThrottleRelease, if_neg acts]
  refine ⟨_, rfl, ?_, fun d hd => ?_⟩
  · exact congrArg Die.throttled ((State.die_setDie s die die _).trans (if_pos rfl))
  · exact (State.die_setDie s die d _).trans (if_neg hd)

/-- The clocks that a current trip sets: the floor for the CORE islands, and what they have for the others. -/
def floorClocks (s : State) : List Nat := (List.range 32).map fun i => if isCoreIsland i then coreFloor else islandClock s i

/-- A current trip puts every CORE island at its floor, and is counted. -/
theorem execCurrentTrip_floors (s : State) (all : s.islands.length = 32) :
    ∃ t, execCurrentTrip s = .next t
      ∧ (∀ i, i < 24 → i % 3 = 0 → islandClock t i = 800) ∧ t.dev.trips = min 255 (s.dev.trips + 1) := by
  refine ⟨_, rfl, fun i hi h3 => ?_, ?_⟩
  · refine (islandClock_congr (logRecord_islands _ _) i).trans ?_
    refine (islandClock_congr (s := setClocks s (floorClocks s)) rfl i).trans ?_
    rw [islandClock_setClocks, if_pos (by omega)]
    simp [floorClocks, List.getD_eq_getElem?_getD, List.getElem?_range (show i < 32 by omega), isCoreIsland, hi, h3, coreFloor]
  · rw [logRecord_trips]
    rfl

/-- In a table made of a run of keys, each finds its own value. -/
theorem Tab.find_map_range' {α : Type} (f : Nat → α) (k : Nat) : ∀ n a : Nat, a ≤ k → k < a + n →
    Tab.find ((List.range' a n).map fun i => (i, f i)) k = some (f k)
  | 0, a, low, high => absurd high (by omega)
  | n + 1, a, low, high => by
    rw [List.range'_succ, List.map_cons, Tab.find]
    rcases Nat.eq_or_lt_of_le low with rfl | above
    · rw [if_pos rfl]
    · rw [if_neg (by omega), if_neg (by omega), Tab.find_map_range' f k n (a + 1) above (by omega)]

/-! ### Degradations (R406, R407, R497) -/

/-- A state without its cores and Survey, which a loss changes. -/
def State.unsurveyed (s : State) : State := { s with cores := [], survey := Survey.reset }

theorem State.unsurveyed_put (s : State) (cs : Tab Core) (v : Survey) :
    ({ s with cores := cs, survey := v } : State).unsurveyed = s.unsurveyed := rfl

theorem withdrawCores_unsurveyed (cs : List Nat) (s : State) : (withdrawCores cs s).unsurveyed = s.unsurveyed :=
  List.foldlRecOn (motive := fun u : State => u.unsurveyed = s.unsurveyed) cs withdrawCore rfl fun u h _ _ =>
    (State.unsurveyed_put u _ _).trans h

/-- A loss changes cores and the Survey alone. -/
theorem applyLoss_unsurveyed (s : State) (l : UnitLoss) : (applyLoss s l).unsurveyed = s.unsurveyed := by
  cases l with
  | die d =>
    unfold applyLoss
    simp only
    split
    · exact (State.unsurveyed_put _ _ _).trans (withdrawCores_unsurveyed _ s)
    · exact State.unsurveyed_put s _ _
  | core c | subArray c q | nearStack d | peerPort p n | ucie m n | farChannel ch code => exact State.unsurveyed_put s _ _

/-- Losses found together, taken into the Survey and the log, change nothing of the rest. -/
theorem applyLosses_frame (s : State) (ls : List UnitLoss) :
    (ls.foldl applyLoss (logLosses s ls)).unsurveyed.unlogged = s.unsurveyed.unlogged := by
  have taken : (ls.foldl applyLoss (logLosses s ls)).unsurveyed = (logLosses s ls).unsurveyed :=
    List.foldlRecOn (motive := fun u : State => u.unsurveyed = (logLosses s ls).unsurveyed) ls applyLoss rfl
      fun u h l _ => (applyLoss_unsurveyed u l).trans h
  exact (congrArg State.unlogged taken).trans (congrArg State.unsurveyed (logLosses_unlogged s ls) :)

/-- The losses are taken and RMVER is raised. -/
def withLosses (s : State) (ls : List UnitLoss) : State :=
  let t := (byUnit ls).foldl applyLoss (logLosses s (byUnit ls))
  { t with
    dev := { t.dev with rmver := t.dev.rmver + BitVec.ofNat 32 ls.length }
    survey := { t.survey with tick := t.tick } }

section
variable (s : State) (ls : List UnitLoss)

theorem withLosses_rmver : (withLosses s ls).dev.rmver = s.dev.rmver + BitVec.ofNat 32 ls.length :=
  (congrArg (fun u : State => u.dev.rmver + BitVec.ofNat 32 ls.length) (applyLosses_frame s (byUnit ls)) :)
theorem withLosses_tick : (withLosses s ls).tick = s.tick :=
  (congrArg State.tick (applyLosses_frame s (byUnit ls)) :)
theorem withLosses_surveyTick : (withLosses s ls).survey.tick = s.tick := withLosses_tick s ls
theorem withLosses_ctx (c : Nat) : (withLosses s ls).ctx c = s.ctx c :=
  (congrArg (fun u : State => u.ctx c) (applyLosses_frame s (byUnit ls)) :)
theorem withLosses_cores :
    (withLosses s ls).cores = ((byUnit ls).foldl applyLoss (logLosses s (byUnit ls))).cores := rfl

end

section
variable (s : State) {ls : List UnitLoss} (found : ls ≠ [])
include found

/-- A degradation writes the image and tells contexts and launches, once the losses are taken. -/
theorem degrade_eq : ∃ ls', degrade s ls = { writeSurvey (withLosses s ls) with
    ctxs := (List.range Config.contexts).map fun c =>
      (c, noteVersion (writeSurvey (withLosses s ls)).tick.toNat ((writeSurvey (withLosses s ls)).ctx c))
    launches := ls' } := ⟨_, if_neg found⟩

/-- RMVER goes up by one for each loss found together. -/
theorem degrade_rmver : (degrade s ls).dev.rmver = s.dev.rmver + BitVec.ofNat 32 ls.length := by
  obtain ⟨_, e⟩ := degrade_eq s found
  simp only [e, writeSurvey_dev, withLosses_rmver]

/-- The Survey takes the tick of the degradation. -/
theorem degrade_surveyTick : (degrade s ls).survey.tick = s.tick := by
  obtain ⟨_, e⟩ := degrade_eq s found
  simp only [e, writeSurvey_survey, withLosses_surveyTick]

/-- Every context is told of the new version. -/
theorem degrade_ctx {c : Nat} (hc : c < 256) : (degrade s ls).ctx c = noteVersion s.tick.toNat (s.ctx c) := by
  obtain ⟨_, e⟩ := degrade_eq s found
  simp only [e, writeSurvey_tick, writeSurvey_ctx, withLosses_tick, withLosses_ctx, List.range_eq_range', Config.contexts]
  rw [State.ctx, Tab.find_map_range' _ c 256 0 (Nat.zero_le c) (by omega), Option.getD_some]

/-- Cores are then as the losses leave them. -/
theorem degrade_cores :
    (degrade s ls).cores = ((byUnit ls).foldl applyLoss (logLosses s (byUnit ls))).cores := by
  obtain ⟨_, e⟩ := degrade_eq s found
  simp only [e, writeSurvey_cores, withLosses_cores]

end

/-- A context that learns of a version has RMEVENT set. -/
theorem noteVersion_event (now : Nat) (C : Ctx) : (noteVersion now C).event.getLsbD 3 = true := by
  simp [noteVersion, Ctx.setEvent]

/-- While it runs, it has a deadline for its acknowledgement. -/
theorem noteVersion_ackBy (now : Nat) {C : Ctx} (h : C.state = .running) :
    (noteVersion now C).ackBy = some (now + 10000000) := by
  simp only [noteVersion, h, if_true, ackTicks]

/-! ### Fenced sub-arrays -/

theorem mem_insertLoss (l x : UnitLoss) (ls : List UnitLoss) : x ∈ insertLoss l ls ↔ x = l ∨ x ∈ ls := by
  induction ls with
  | nil => simp [insertLoss]
  | cons y ls ih =>
    unfold insertLoss
    split
    · simp
    · rw [List.mem_cons, ih, List.mem_cons, or_left_comm]

/-- Ordering losses by their units loses none. -/
theorem mem_byUnit (x : UnitLoss) (ls : List UnitLoss) : x ∈ byUnit ls ↔ x ∈ ls := by
  induction ls with
  | nil => simp [byUnit]
  | cons l ls ih => rw [byUnit, List.foldr_cons, mem_insertLoss, ← byUnit, ih, List.mem_cons]

/-- Withdrawing cores leaves every sub-array as it was. -/
theorem withdrawCores_fenced (cs : List Nat) (s : State) (c : Nat) :
    ((withdrawCores cs s).core c).fenced = (s.core c).fenced := by
  refine List.foldlRecOn (motive := fun u : State => (u.core c).fenced = (s.core c).fenced) cs withdrawCore rfl
    fun u h d _ => Eq.trans ?_ h
  have moved := State.core_setCore u d c { u.core d with withdrawn := true }
  refine (congrArg Core.fenced moved).trans ?_
  split
  · rename_i e; rw [e]
  · rfl

/-- A sub-array that is fenced stays so whatever is lost. -/
theorem applyLoss_keeps_fenced (l : UnitLoss) {s : State} {c q : Nat} (h : (s.core c).fenced.getLsbD q = true) :
    ((applyLoss s l).core c).fenced.getLsbD q = true := by
  have surveyed : ∀ (u : State) v, (({ u with survey := v } : State).core c).fenced = (u.core c).fenced := fun _ _ => rfl
  cases l with
  | core d =>
    rw [← h]
    exact congrArg (·.getLsbD q) (withdrawCores_fenced [d] s c)
  | subArray d p =>
    have moved := State.core_setCore s d c { s.core d with fenced := (s.core d).fenced ||| BitVec.ofNat 4 (2 ^ p) }
    refine (congrArg (fun K : Core => K.fenced.getLsbD q) moved).trans ?_
    split
    · rename_i e; rw [e] at h; simp [h]
    · exact h
  | die d =>
    unfold applyLoss
    simp only [surveyed]
    split
    · rw [withdrawCores_fenced, h]
    · exact h
  | nearStack d | peerPort p n | ucie m n | farChannel ch code =>
    rw [← h]
    exact congrArg (·.getLsbD q) (surveyed s _)

/-- A sub-array that is lost is fenced. -/
theorem applyLoss_fences (s : State) (c : Nat) {q : Nat} (hq : q < 4) :
    ((applyLoss s (.subArray c q)).core c).fenced.getLsbD q = true := by
  have moved := State.core_setCore s c c { s.core c with fenced := (s.core c).fenced ||| BitVec.ofNat 4 (2 ^ q) }
  have bit : (BitVec.ofNat 4 (2 ^ q)).getLsbD q = true := by
    rw [BitVec.getLsbD_ofNat, Nat.testBit_two_pow_self, decide_eq_true hq, Bool.true_and]
  refine (congrArg (fun K : Core => K.fenced.getLsbD q) (moved.trans (if_pos rfl))).trans ?_
  exact BitVec.getLsbD_or.trans (by rw [bit, Bool.or_true])

/-- Of the losses taken together, those of sub-arrays are fenced. -/
theorem applyLosses_fences {c q : Nat} (hq : q < 4) : ∀ (ls : List UnitLoss) (s : State), UnitLoss.subArray c q ∈ ls →
    ((ls.foldl applyLoss s).core c).fenced.getLsbD q = true
  | [], _, h => by cases h
  | l :: ls, s, h => by
    rcases List.mem_cons.1 h with rfl | later
    · exact List.foldlRecOn (motive := fun u : State => (u.core c).fenced.getLsbD q = true) ls applyLoss
        (applyLoss_fences s c hq) fun u h l _ => applyLoss_keeps_fenced l h
    · exact applyLosses_fences hq ls (applyLoss s l) later

/-- A degradation fences the sub-arrays that it is of. -/
theorem degrade_fences (s : State) {ls : List UnitLoss} {c q : Nat} (hq : q < 4) (h : .subArray c q ∈ ls) :
    ((degrade s ls).core c).fenced.getLsbD q = true := by
  have found : ls ≠ [] := List.ne_nil_of_mem h
  rw [State.core, degrade_cores s found]
  exact applyLosses_fences hq (byUnit ls) (logLosses s (byUnit ls)) ((mem_byUnit _ ls).2 h)

/-! ### Self-tests (R354, R491) -/

/-- The rotation names one of the four sub-arrays. -/
theorem testTurn_lt {K : Core} (h : K.nextSub < 4) : testTurn K < 4 := by
  unfold testTurn
  generalize e : ((List.range 4).map fun i => (K.nextSub + i) % 4).find? (fun q => !K.fenced.getLsbD q) = r
  cases r with
  | none => exact h
  | some q =>
    obtain ⟨i, -, rfl⟩ := List.mem_map.1 (List.mem_of_find?_eq_some e)
    exact Nat.mod_lt _ (by omega)

theorem countCycles_dev (s : State) (c core code unit n : Nat) : (countCycles s c core code unit n).dev = s.dev := by
  unfold countCycles; simp only; split <;> rfl
theorem countCycles_survey (s : State) (c core code unit n : Nat) :
    (countCycles s c core code unit n).survey = s.survey := by
  unfold countCycles; simp only; split <;> rfl
theorem unitCount_rmver (s : State) (core place n : Nat) : (unitCount s core place n).dev.rmver = s.dev.rmver := by
  unfold unitCount; split <;> rfl
theorem unitCount_survey (s : State) (core place n : Nat) : (unitCount s core place n).survey = s.survey := by
  unfold unitCount; split <;> rfl

/-- A self-test leaves the version as it is. -/
theorem runTest_rmver (s : State) (core : Nat) : (runTest s core).dev.rmver = s.dev.rmver := by
  unfold runTest
  simp only [State.modCore_dev, unitCount_rmver]
  cases arrayTurn s core with
  | none => rfl
  | some b => exact congrArg Device.rmver (countCycles_dev s _ core _ 0 _)

/-- And the Survey. -/
theorem runTest_survey (s : State) (core : Nat) : (runTest s core).survey = s.survey := by
  unfold runTest
  simp only [State.modCore_survey, unitCount_survey]
  cases arrayTurn s core with
  | none => rfl
  | some b => exact countCycles_survey s _ core _ 0 _

/-- The count of array work starts afresh. -/
theorem runTest_arrayCycles (s : State) (core : Nat) : ((runTest s core).core core).arrayCycles = 0 :=
  congrArg Core.arrayCycles ((State.core_setCore _ core core _).trans (if_pos rfl))

/-- A report of a suspect command changes its block, its warps or its launch. -/
theorem reportSuspect_cores (s : State) (e : Nat × Suspect) : (reportSuspect s e).cores = s.cores := by
  unfold reportSuspect
  simp only
  split
  · split <;> rfl
  · rfl
theorem reportSuspect_dev (s : State) (e : Nat × Suspect) : (reportSuspect s e).dev = s.dev := by
  unfold reportSuspect
  simp only
  split
  · split <;> rfl
  · rfl

/-- So do all of them. -/
theorem reportSuspects_cores (es : List (Nat × Suspect)) (s : State) : (es.foldl reportSuspect s).cores = s.cores :=
  List.foldlRecOn (motive := fun u : State => u.cores = s.cores) es reportSuspect rfl fun u h e _ =>
    (reportSuspect_cores u e).trans h
theorem reportSuspects_dev (es : List (Nat × Suspect)) (s : State) : (es.foldl reportSuspect s).dev = s.dev :=
  List.foldlRecOn (motive := fun u : State => u.dev = s.dev) es reportSuspect rfl fun u h e _ =>
    (reportSuspect_dev u e).trans h

/-- A self-test that passes changes no version. -/
theorem execSelfTest_passed {s : State} {core : Nat} (due : 65536 ≤ (s.core core).arrayCycles) :
    ∃ t, execSelfTest core true s = .next t ∧ (t.core core).arrayCycles = 0 ∧ t.dev.rmver = s.dev.rmver := by
  have runs : testDue s core = true := decide_eq_true due
  refine ⟨runTest s core, ?_, runTest_arrayCycles s core, runTest_rmver s core⟩
  simp [execSelfTest, runs]

/-- A self-test that fails fences its sub-array, and a second one on a live core takes the core with it. -/
theorem execSelfTest_failed {s : State} {core : Nat} (due : 65536 ≤ (s.core core).arrayCycles)
    (turn : (s.core core).nextSub < 4) :
    ∃ t, execSelfTest core false s = .next t ∧ (t.core core).fenced.getLsbD (testTurn (s.core core)) = true
      ∧ t.dev.rmver = s.dev.rmver
        + (if s.survey.fenced.extractLsb' (4 * core) 4 ≠ 0 ∧ s.survey.liveCores.getLsbD core = true then 2 else 1) := by
  have runs : testDue s core = true := decide_eq_true due
  unfold execSelfTest
  simp only [runs, Bool.not_true, Bool.false_eq_true, if_false, runTest_survey]
  refine ⟨_, rfl, ?fenced, ?rmver⟩
  case fenced =>
    refine (congrArg (fun u : Tab Core => (((Tab.find u core).getD Core.reset).fenced.getLsbD _))
      (reportSuspects_cores _ _)).trans (degrade_fences _ (testTurn_lt turn) ?_)
    split <;> simp
  case rmver =>
    rw [reportSuspects_dev, degrade_rmver _ (by split <;> simp), logRecord_rmver, runTest_rmver]
    congr 1
    by_cases second : s.survey.fenced.extractLsb' (4 * core) 4 ≠ 0 ∧ s.survey.liveCores.getLsbD core = true
    · rw [if_pos second, if_pos (by simpa using second)]
      rfl
    · rw [if_neg second, if_neg (by simpa using second)]
      rfl

end Sys2Proof.Machine
end

section
/-! SUPPORT. What passes with time: ticks, grants, latches and budget periods; and the statement about power and the Survey
that follows from this part. -/
namespace Sys2Proof.Machine

/-! ### Ticks (R13) -/

/-- TICK counts the ticks that pass. -/
theorem passTicks_tick (s : State) (dt : Nat) : (passTicks s dt).tick = s.tick + BitVec.ofNat 64 dt := by
  unfold passTicks
  split
  · rename_i h; rw [h]; exact (BitVec.add_zero _).symm
  · rfl

theorem unitCounts_tick (d slot : Nat) : ∀ (n place : Nat) (s : State), (unitCounts s d slot n place).2.tick = s.tick
  | 0, _, _ => rfl
  | n + 1, place, s => by
    have read : (if d < 8 ∧ slot < 32 ∧ !openPlaces.contains place then
        (Tab.read 0 s.dev.hgCounts ((d * 64 + slot) * 16 + place), s) else freeCount s).2.tick = s.tick := by
      split <;> rfl
    exact (unitCounts_tick d slot n (place + 1) _).trans read

theorem slotBytes_tick (d : Nat) : ∀ (n slot : Nat) (s : State), (slotBytes s d n slot).2.tick = s.tick
  | 0, _, _ => rfl
  | n + 1, slot, s => by
    unfold slotBytes
    split
    · rfl
    · exact (slotBytes_tick d n (slot + 1) _).trans (unitCounts_tick d slot 15 0 s)

theorem groupRecords_tick : ∀ (n d : Nat) (s : State), (groupRecords n d s).2.tick = s.tick
  | 0, _, _ => rfl
  | n + 1, d, s => (groupRecords_tick n (d + 1) _).trans (slotBytes_tick d 63 0 s)

/-- A latch takes no time. -/
theorem latchHour_tick (s : State) : (latchHour s).tick = s.tick := by
  unfold latchHour
  simp only
  split
  · simp only [putPhys_tick, groupRecords_tick]
  · rfl

/-- Ticks that pass in two parts. -/
theorem tick_add (t : Double) {d dt : Nat} (h : d ≤ dt) :
    t + BitVec.ofNat 64 d + BitVec.ofNat 64 (dt - d) = t + BitVec.ofNat 64 dt := by
  rw [BitVec.add_assoc, ← BitVec.ofNat_add, Nat.add_sub_cancel' h]

theorem passLatches_tick (period : Nat) : ∀ (n dt : Nat) (s : State),
    (passLatches period n dt s).tick = s.tick + BitVec.ofNat 64 dt
  | 0, dt, s => passTicks_tick s dt
  | n + 1, dt, s => by
    unfold passLatches
    simp only
    split
    · exact passTicks_tick s dt
    · rename_i h
      rw [passLatches_tick period n, latchHour_tick, passTicks_tick, tick_add _ (Nat.le_of_not_lt h)]

theorem passSpan_tick (s : State) (dt : Nat) : (passSpan s dt).tick = s.tick + BitVec.ofNat 64 dt := by
  unfold passSpan
  split
  · exact passLatches_tick _ _ dt s
  · exact passTicks_tick s dt

theorem choose_tick (s : State) (n : Nat) : (s.choose n).2.tick = s.tick := by
  unfold State.choose; split <;> rfl

theorem lowered_tick (s : State) (die f : Nat) : (lowered s die f).2.tick = s.tick := by
  unfold lowered
  split
  · exact choose_tick s _
  · rfl

theorem settleCores_tick : ∀ (ds gs : List Nat) (s : State), (settleCores ds gs s).2.tick = s.tick
  | [], _, _ => rfl
  | d :: ds, _, s => (settleCores_tick ds _ _).trans (lowered_tick s d _)

/-- A grant takes no time. -/
theorem grantOnce_tick (s : State) : (grantOnce s).tick = s.tick := by
  have settled := settleCores_tick (List.range 8) (grants s) s
  unfold grantOnce
  generalize settleCores (List.range 8) (grants s) s = x at settled ⊢
  exact settled

theorem passGrants_tick : ∀ (n dt : Nat) (s : State), (passGrants n dt s).tick = s.tick + BitVec.ofNat 64 dt
  | 0, dt, s => passSpan_tick s dt
  | n + 1, dt, s => by
    unfold passGrants
    simp only
    split
    · exact passSpan_tick s dt
    · rename_i h
      have due := tick_add s.tick (Nat.le_of_not_lt h)
      split
      · rw [passSpan_tick, grantOnce_tick, passSpan_tick, due]
      · rw [passGrants_tick n, grantOnce_tick, passSpan_tick, due]

/-- Time passes by the ticks that it is given, whatever falls in them. -/
theorem passTime_tick (s : State) (dt : Nat) : (passTime s dt).tick = s.tick + BitVec.ofNat 64 dt := by
  unfold passTime
  split
  · rename_i h; rw [h]; exact (BitVec.add_zero _).symm
  · simp only
    split
    · exact passGrants_tick _ dt s
    · exact passGrants_tick _ dt s

/-! ### Budget periods and latches (R378, R418) -/

/-- A budget period begins with nothing used. -/
theorem execBudgetPeriod_begins (s : State) :
    ∃ t, execBudgetPeriod s = .next t ∧ t.tick = s.tick + BitVec.ofNat 64 (10000 - s.tick.toNat % 10000)
      ∧ ∀ e ∈ t.ctxs, ∀ r u, e.2.used r u = 0 := by
  refine ⟨_, rfl, passTime_tick s _, ?_⟩
  have passes : toMultiple s.tick.toNat periodTicks ≠ 0 := by unfold toMultiple periodTicks; omega
  have begins : (s.tick.toNat + toMultiple s.tick.toNat periodTicks) / periodTicks ≠ s.tick.toNat / periodTicks := by
    unfold toMultiple periodTicks; omega
  rw [passTime, if_neg passes]
  simp only [if_neg begins]
  intro e he r u
  obtain ⟨x, -, rfl⟩ := List.mem_map.1 he
  rfl

/-- A latch of the Hourglass falls at the next multiple of its interval. -/
theorem execHourglassLatch_on {s : State} (on : s.dev.hgOn = true) :
    ∃ t, execHourglassLatch s = .next t
      ∧ t.tick = s.tick + BitVec.ofNat 64 (2 ^ s.dev.hgK - s.tick.toNat % 2 ^ s.dev.hgK) := by
  refine ⟨passTime s (toMultiple s.tick.toNat (2 ^ s.dev.hgK)), ?_, passTime_tick s _⟩
  rw [execHourglassLatch, if_pos on]

/-- None falls while it is off. -/
theorem execHourglassLatch_off {s : State} (off : s.dev.hgOn = false) : execHourglassLatch s = .next s := by
  rw [execHourglassLatch, off, if_neg Bool.false_ne_true]

/-! ### Grants of Bellows (R16) -/

theorem toMultiple_pos (t : Nat) {n : Nat} (h : 0 < n) : 0 < toMultiple t n := Nat.sub_pos_of_lt (Nat.mod_lt t h)

theorem passTicks_zero (s : State) : passTicks s 0 = s := if_pos rfl

/-- No ticks leave a state as it is, whether the Hourglass is on or not. -/
theorem passSpan_zero (s : State) : passSpan s 0 = s := by
  unfold passSpan
  split
  · simp only [Nat.zero_div, passLatches]
    rw [if_pos (toMultiple_pos _ (Nat.two_pow_pos _)), passTicks_zero]
  · exact passTicks_zero s

theorem passGrants_zero (s : State) : ∀ n : Nat, passGrants n 0 s = s
  | 0 => passSpan_zero s
  | n + 1 => by
    unfold passGrants
    simp only
    rw [if_pos (toMultiple_pos _ (by decide)), passSpan_zero]

/-- Up to the next microsecond there is one grant, at its end. -/
theorem passGrants_next (s : State) (n : Nat) : passGrants (n + 1) (toMultiple s.tick.toNat grantTicks) s
    = grantOnce (passSpan s (toMultiple s.tick.toNat grantTicks)) := by
  unfold passGrants
  simp only [Nat.lt_irrefl, if_false, Nat.sub_self, passSpan_zero, passGrants_zero, ite_self]

/-- Once time has passed to the next microsecond, the islands and the device part are as that grant leaves them. -/
theorem passTime_next (s : State) :
    (passTime s (toMultiple s.tick.toNat grantTicks)).islands
        = (grantOnce (passSpan s (toMultiple s.tick.toNat grantTicks))).islands
      ∧ (passTime s (toMultiple s.tick.toNat grantTicks)).dev
        = (grantOnce (passSpan s (toMultiple s.tick.toNat grantTicks))).dev := by
  have passes : toMultiple s.tick.toNat grantTicks ≠ 0 := Nat.ne_of_gt (toMultiple_pos _ (by decide))
  rw [passTime, if_neg passes]
  simp only [passGrants_next]
  generalize grantOnce (passSpan s (toMultiple s.tick.toNat grantTicks)) = u
  split <;> exact ⟨rfl, rfl⟩

/-- What a grant gives the islands. -/
theorem grantOnce_settles {u v : State} {gs : List Nat} (h : settleCores (List.range 8) (grants u) u = (gs, v)) :
    (grantOnce u).islands = (setClocks v gs).islands ∧ (grantOnce u).dev.tripGrants = v.dev.tripGrants - 1 := by
  unfold grantOnce
  rw [h]
  exact ⟨rfl, rfl⟩

/-- A demand is granted at the next microsecond: each island takes its clock. -/
theorem execBellowsGrant_grants {s : State} {d gs : List Nat} {u v : State}
    (hu : u = passSpan (s.modDev fun D => { D with demand := (List.range 32).map fun i => d.getD i (D.demand.getD i 800) })
      (1000 - s.tick.toNat % 1000))
    (h : settleCores (List.range 8) (grants u) u = (gs, v)) :
    ∃ t, execBellowsGrant d s = .next t ∧ t.dev.tripGrants = v.dev.tripGrants - 1
      ∧ ∀ i, islandClock t i = if i < v.islands.length then gs.getD i (islandClock v i) else 0 := by
  have asked : (s.modDev fun D =>
      { D with demand := (List.range 32).map fun i => d.getD i (D.demand.getD i 800) }).tick = s.tick := rfl
  have span : 1000 - s.tick.toNat % 1000 = toMultiple s.tick.toNat grantTicks := rfl
  have next := passTime_next
    (s.modDev fun D => { D with demand := (List.range 32).map fun i => d.getD i (D.demand.getD i 800) })
  rw [asked, ← span, ← hu] at next
  obtain ⟨islands, dev⟩ := next
  obtain ⟨clocks, trips⟩ := grantOnce_settles h
  refine ⟨_, rfl, (congrArg Device.tripGrants dev).trans trips, fun i => ?_⟩
  exact (islandClock_congr (islands.trans clocks) i).trans (islandClock_setClocks v gs i)

/-- Settles O54: power by the groups of islands in their order, heat and trips by what a log record leaves alone, degradations
and self-tests by what the losses of `degrade` are, and time by the ticks that pass whatever falls in them. -/
theorem powerAndSurvey : Obligations.PowerAndSurvey := by
  unfold Obligations.PowerAndSurvey
  refine ⟨fun s g h => ⟨?aon, fun aon cool core u hu => execPowerUp_main h aon cool core hu, ?unverified,
      fun aon hot => execPowerUp_waits h aon (.inl hot)⟩,
    fun s => execPowerUp_done, fun s => execPowerDown_core, fun s g => execPowerDown_main,
    fun s d gs u v => execBellowsGrant_grants, fun s die temp => execJunctionThrottle_hot s,
    fun s die temp => execJunctionThrottle_trips s, fun s die temp => execJunctionThrottle_cool s die,
    fun s die => execThrottleRelease_releases s, execCurrentTrip_floors, ?trip, ?survey, ?test,
    execBudgetPeriod_begins, fun s => execHourglassLatch_on, fun s => execHourglassLatch_off⟩
  case aon =>
    rintro rfl
    exact execPowerUp_aon h
  case unverified =>
    intro core unverified
    exact execPowerUp_waits h (by rw [core]; decide) (.inr ⟨core, unverified⟩)
  case trip =>
    intro s all
    obtain ⟨link, warps, blocks, launches⟩ := thermalTrip_ends s
    exact ⟨thermalTrip s, rfl, fun i => islandOn_thermalTrip_main s all, islandOn_thermalTrip_aon s (.inl rfl),
      islandOn_thermalTrip_aon s (.inr rfl), link, warps, blocks, launches, thermalTrip_free s⟩
  case survey =>
    intro s ls found
    refine ⟨degrade s ls, rfl, degrade_rmver s found, degrade_surveyTick s found, fun c hc => ?_⟩
    rw [degrade_ctx s found hc]
    exact ⟨noteVersion_event _ _, noteVersion_ackBy _⟩
  case test =>
    rintro s core K rfl due turn q rfl
    exact ⟨execSelfTest_passed due, execSelfTest_failed due turn⟩

end Sys2Proof.Machine
end

section
/-! SUPPORT. Abacus instructions as register instructions on the state whose Abacus register is updated, and the statement about
clearing, adding to, reading and inspecting a register that follows from this. -/
namespace Sys2Proof.Machine
open Sys2Proof.Claims

/-! ### An update of an Abacus register (R87, R247) -/

section
variable (s : State) (b n : Nat) (A : Abacus)

/-- An update of an Abacus register leaves the instruction in execution. -/
@[simp] theorem setAbacus_cur : (setAbacus s b n A).cur = s.cur := rfl

/-- So it does every warp. -/
@[simp] theorem setAbacus_warp (w : Nat) : (setAbacus s b n A).warp w = s.warp w := rfl

/-- What a lane instruction reads besides its fibre is as before the update. -/
@[simp] theorem laneEnv_setAbacus (c : Issue) (x : Lx) : laneEnv (setAbacus s b n A) c x = laneEnv s c x := rfl

/-- A group may use the same registers as before the update. -/
theorem Usable.setAbacus {s : State} {c : Issue} {us : List RegUse} (h : Usable s c us) :
    Usable (setAbacus s b n A) c us := ⟨h.inWindow, h.written⟩

end

/-! ### Abacus instructions of a group (R247, log 21) -/

/-- A register instruction whose registers are usable ends with the results of its group's fibres. -/
theorem lanePure_next {s : State} {c : Issue} {us : List RegUse} (x : Lx) (op : LaneEnv → Fibre → LaneOut)
    (hc : s.cur = some c) (hu : Usable s c us) :
    lanePure x us op s
      = .next (finish s (.nop x) c ((groupOf (s.warp c.warp) c).map (laneStep (laneEnv s c x) us op))) := by
  simp only [lanePure, hc, afterLoads_goes _ _ _ _ _ _ hu.written]

/-- An Abacus instruction is the register instruction that reads the register as it stood, on the state in which the fibres that
execute have made their one update. -/
theorem abacusOp_eq_lanePure {s : State} {c : Issue} {k : BitVec 3} {us : List RegUse} {b n : Nat} (x : Lx)
    (upd : Abacus → List Fibre → Abacus) (op : Abacus → LaneEnv → Fibre → LaneOut) (hc : s.cur = some c)
    (hk : abacusKey (s.warp c.warp) k = some (b, n)) (hu : Usable s c us) :
    abacusOp x k us upd op s = lanePure x us (op (abacusAt s b n))
      (if (groupOf (s.warp c.warp) c).filter (fun f => (guardOf x f).1) = [] then s
       else setAbacus s b n (upd (abacusAt s b n) ((groupOf (s.warp c.warp) c).filter fun f => (guardOf x f).1))) := by
  have env : (laneEnv s c x).warp = s.warp c.warp := rfl
  simp only [abacusOp, hc, afterLoads_goes _ _ _ _ _ _ hu.written, env, hk, hu.inWindow, if_true]
  split
  · rw [lanePure_next x _ hc hu]
  · rw [lanePure_next x _ ((setAbacus_cur ..).trans hc) (hu.setAbacus ..), setAbacus_warp, laneEnv_setAbacus]

/-- An instruction that the model executes as an Abacus instruction does what the statements say of one. -/
theorem abacusDoes_of {i : Instr} {x : Lx} {k : BitVec 3} {us : List RegUse} {upd : Abacus → List Fibre → Abacus}
    {out : Abacus → LaneEnv → Fibre → LaneOut} (hi : ∀ s, exec i s = abacusOp x k us upd out s) :
    AbacusDoes i x k us upd out := by
  intro s c b n hc nt hk hu A acting u
  rw [hi, abacusOp_eq_lanePure x upd out hc hk hu]
  by_cases masked : acting = []
  · rw [if_pos masked, show u = s from if_pos masked]
    exact lanePure_ends x us (out A) s c hc nt hu
  · rw [if_neg masked, show u = setAbacus s b n (upd A acting) from if_neg masked]
    exact lanePure_ends x us (out A) _ c ((setAbacus_cur ..).trans hc) nt (hu.setAbacus ..)

/-! ### What each reads and writes -/

/-- Pairing a list with what its numbered elements give, element by element. -/
theorem zip_map_zipIdx {α β : Type} (ls : List α) (g : α × Nat → β) :
    ls.zip (ls.zipIdx.map g) = ls.zipIdx.map fun e => (e.1, g e) :=
  List.ext_getElem (by simp) fun j _ _ => by simp

/-- The addends of `xadd` are the fibre's doubles. -/
theorem xaddTerms_eq (a : Reg) (f : Fibre) : xaddTerms a f = f.lanes.map fun l => (num .f64 l a, false) := rfl

/-- Those of `xfma` are the products of the fibre's doubles. -/
theorem xfmaTerms_eq (a b : Reg) (f : Fibre) :
    xfmaTerms a b f = f.lanes.map fun l => mulNum (num .f64 l a) (num .f64 l b) := rfl

/-- `xadd` is an Abacus instruction whose addends are doubles. -/
theorem execXadd_eq (x : Lx) (k : BitVec 3) (a : Reg) (s : State) :
    execXadd x k a s = abacusOp x k [two a]
      (fun A fs => A.add (fs.flatMap fun f => f.lanes.map fun l => (num .f64 l a, false)))
      (fun _ _ f => ⟨f.lanes, snanFlag (f.lanes.map fun l => num .f64 l a), 0⟩) s := by
  simp only [execXadd, flagsOnly, funext (xaddTerms_eq a), List.map_map, Function.comp_def]

/-- `xfma` is one whose addends are products of doubles. -/
theorem execXfma_eq (x : Lx) (k : BitVec 3) (a b : Reg) (s : State) :
    execXfma x k a b s = abacusOp x k [two a, two b]
      (fun A fs => A.add (fs.flatMap fun f => f.lanes.map fun l => mulNum (num .f64 l a) (num .f64 l b)))
      (fun _ _ f =>
        let ps := f.lanes.map fun l => mulNum (num .f64 l a) (num .f64 l b)
        ⟨f.lanes, snanFlag (ps.map (·.1)) ||| (if ps.any (·.2) then flagNV else 0), 0⟩) s := by
  simp only [execXfma, flagsOnly, funext (xfmaTerms_eq a b)]

/-- `xget` is one that writes to each sibling the register's value, rounded with the sibling's own draw. -/
theorem execXget_eq (x : Lx) (k : BitVec 3) (d : Reg) (s : State) :
    execXget x k d s = abacusOp x k [two d] (fun A _ => A)
      (fun A e f => floats f .f64 d (fun j _ => A.get (e.mode false) (e.drawOf f j 0)) fun _ => 0) s := by
  simp only [execXget, floats, zip_map_zipIdx, List.map_map, Function.comp_def, Lane.setFval]

/-- Settles O23: each instruction is an Abacus instruction of the model with the addends, results and flags that the statement
names, and such an instruction is a register instruction once the register is updated. -/
theorem abacusRegisters : Obligations.AbacusRegisters := by
  unfold Obligations.AbacusRegisters
  exact ⟨fun x k => abacusDoes_of fun _ => rfl, fun x k a => abacusDoes_of (execXadd_eq x k a),
    fun x k a b => abacusDoes_of (execXfma_eq x k a b), fun x k d => abacusDoes_of (execXget_eq x k d),
    fun x k d => abacusDoes_of fun _ => rfl⟩

end Sys2Proof.Machine
end

section
/-! SUPPORT. What a fibre that acts alone leaves when its act completes, the acts of stores, reductions and atomics once their
place is located, and what takes a store from a warp's queue to its home L2; and the statement about stores and reductions that
follows from these. -/
namespace Sys2Proof.Machine

/-! ### A fibre that acts alone -/

section
variable {s : State} {c : Issue} {x : Lx} {f : Fibre}

/-- The instruction in execution is its warp's. -/
theorem Alone.curWarp (h : Alone s c x f) : curWarp s = c.warp := by simp only [Machine.curWarp, h.cur]

/-- So is its address. -/
theorem Alone.curPc (h : Alone s c x f) : curPc s = c.pc := by simp only [Machine.curPc, h.cur]

/-- Reports name a fibre alone by its own slot (R475). -/
theorem Alone.lead (h : Alone s c x f) : (laneEnv s c x).lead = f.slot := by
  show leadSlot (s.warp c.warp) c x = f.slot
  have acts : [f].filter (fun g => (guardOf x g).1) = [f] := List.filter_cons_of_pos h.active
  simp only [leadSlot, h.fibre, acts, List.head?_cons, Option.map_some, Option.getD_some]

/-- An instruction that acts fibre by fibre ends for a fibre alone as its act leaves it, where that act completes. -/
theorem aloneEnds_of_laneFold {i : Instr} {free : Bool} {us : List RegUse}
    {act : State → LaneEnv → Fibre → LaneAct × State} {u : State} {lanes : List Lane} {fp : Flags} {num : BitVec 4}
    (h : Alone s c x f) (hu : Usable s c us) (hi : exec i s = laneFold i x free us act s)
    (ha : act s (laneEnv s c x) f = ({ LaneAct.ok (laneEnv s c x) f lanes with fp := fp, num := num }, u))
    (nt : NoNumTraps u c) : AloneEnds i s u c x f (nextPc c) lanes fp num := by
  refine ⟨_, hi.trans (laneFold_alone i x free us act s c f h hu), ?_⟩
  rw [ha]
  exact finish_one u i c ⟨f.slot, _, fp, num ||| guardNum x f⟩ { f.advance (nextPc c) with lanes := lanes } rfl rfl h.group nt

end

/-! ### Stores and reductions that take their place (R255, R259, R265) -/

section
variable {s s1 s2 : State} {e : LaneEnv} {f : Fibre} {seg : Seg} {a : Reg} {v : Nat} {p : Place}

/-- A store whose element is located and takes its place completes, with the events that trap. -/
theorem laneStore_issued {ty : MTy} {off w : Nat} (pc : VAddr) (t : Reg) (rel : Option Scope)
    (lead : e.lead = f.slot) (ha : addrValue seg a f .write = .ok v)
    (hl : locate s e.warp f.tid.toNat seg v (off * ty.size) ty.size .write false = (.ok p, s1))
    {ws : List MByte × Flags × BitVec 4} (hws : ws = storeWrites p ty.size ty.fmt (f.lanes.map (ty.data t)))
    (hs : issueStore s1 w ⟨p, ty.size, ws.1, none, rel.getD .device, rel.isSome, pc, f.slot, ws.2.1, ws.2.2,
      trapEvents s1 e.warp ws.2.2⟩ p.va s1.next f.tid.toNat = .ok s2) :
    laneStore w pc ty seg off t a rel s e f
      = ({ LaneAct.ok e f f.lanes with num := trapEvents s2 e.warp ws.2.2 }, s2) := by
  subst hws
  simp only [laneStore, ha, hl, lead, Fibre.vals, hs]

/-- So does a reduction, which commits its block. -/
theorem laneRed_issued {ty : AtomTy} {w : Nat} (pc : VAddr) (op : AtomOp) (o : MemOrd) (sc : Scope) (b : Reg)
    (lead : e.lead = f.slot) (ha : addrValue seg a f .rmw = .ok v)
    (hl : locate s e.warp f.tid.toNat seg v 0 (atomSize ty) .rmw false = (.ok p, s1)) {ev : BitVec 4}
    (hev : ev = if p.sib = .triple then 0 else (combine (atomFmt ty) (f.lanes.map (atomData ty b))).2.2)
    (hs : issueStore s1 w ⟨p, atomSize ty, [], some ⟨op, ty, f.lanes.map fun l => BitVec.ofNat 64 (atomData ty b l),
      e.rounding f⟩, sc, o == .rel, pc, f.slot, 0, 0, trapEvents s1 e.warp ev⟩ p.va s1.next f.tid.toNat = .ok s2) :
    laneRed w pc op ty o sc seg a b s e f
      = ({ LaneAct.ok e f f.lanes with num := trapEvents s2 e.warp ev }, commitBlock s2 e.warp) := by
  subst hev
  simp only [laneRed, ha, hl, lead, Fibre.vals, List.map_map, Function.comp_def, hs]

/-- So does a full future, whose bit 63 is set. -/
theorem laneStf_issued {w : Nat} (pc : VAddr) (sc : Scope) (b : Reg) (lead : e.lead = f.slot)
    (ha : addrValue seg a f .write = .ok v)
    (hl : locate s e.warp f.tid.toNat seg v 0 8 .write true = (.ok p, s1))
    {r : Nat × Flags × BitVec 4} (hr : r = combine none (f.lanes.map (·.pair b.toNat)))
    (hs : issueStore s1 w ⟨p, 8, wholeBytes (p.base + p.off) (leBytes 8 (r.1 % 2 ^ 63 + 2 ^ 63)), none, sc, true, pc,
      f.slot, 0, r.2.2, trapEvents s1 e.warp r.2.2⟩ p.va s1.next f.tid.toNat = .ok s2) :
    laneStf w pc sc seg a b s e f
      = ({ LaneAct.ok e f f.lanes with num := trapEvents s2 e.warp r.2.2 }, commitBlock s2 e.warp) := by
  subst hr
  have size : ∀ n, (leBytes 8 n).length = 8 := fun _ => rfl
  simp only [laneStf, ha, hl, lead, Fibre.vals, plainStore, size, hs]

end

/-! ### Stores on their way to memory (R149, R150) -/

/-- A store that nothing holds back leaves the core or reaches memory at once, with its flags and events. -/
theorem performStore_store {s s1 : State} {core w l : Nat} {blk : Option Nat} {o : StoreOp} (store : o.rmw = none)
    (link : linkCheck s o.place o.size .write = (none, s1)) :
    performStore s core w l blk none o
      = (.ok ((if mayPass s1 core l o then sendStore s1 core ⟨o, o.place.keyOf s1, w, l, blk⟩
          else writePlace (landBefore s1 core o) core o.place o.writes), o.fp, o.num), s1) := by
  simp only [performStore, store, Option.isSome_none, Bool.false_eq_true, if_false, link, Option.isNone_none, Bool.true_and]
  split <;> rfl

/-- The oldest operation of a queue that is performed leaves it, is charged for, and gives the warp its flags and events. -/
theorem drainOne_performs {s t u : State} {w : Nat} {W : Warp} {o : StoreOp} {rest : List StoreOp} {fp : Flags}
    {num : BitVec 4} (hw : s.warp w = W) (free : W.heldStores = false) (queue : W.storeQ = o :: rest)
    (goes : opStays s W.ctx W.core o = false)
    (done : performStore s W.core w W.launch W.blk (if o.place.tracked then ticketOf s W else none) o
      = (.ok (t, fp, num), u)) :
    drainOne s w = countNum ((chargeBytes t W.ctx o.place o.size true).modWarp w fun V =>
      { V.addFlags fp num with storeQ := rest }) W.ctx W.core (num &&& ~~~o.raised) := by
  simp only [drainOne, hw, free, queue, goes, done, Bool.false_eq_true, if_false]

/-- The only store on its way from a core reaches its home L2. -/
theorem landOne_only {s : State} {core : Nat} {y : Passing} (only : (s.core core).passing = [y])
    (goes : y.stuck s = false) :
    landOne s core 0
      = writePhys (s.modCore core fun C => { C with passing := [] }) (some core) y.key y.op.writes := by
  have gone : (s.modCore core fun C => { C with passing := dropAt C.passing 0 })
      = s.modCore core fun C => { C with passing := [] } := by
    simp only [State.modCore, only, dropAt]
  simp only [landOne, only, List.getElem?_cons_zero, List.take_zero, List.reverse_nil, firstShared, List.getD_cons_zero,
    goes, Bool.false_eq_true, if_false, gone, landWrite]

/-- Settles O19: a store, a future and a reduction of one fibre complete as the place that they take leaves the state; the drain
of a queue performs its oldest store, and that of a tracker lands the one store on its way. -/
theorem stores : Obligations.Stores := by
  unfold Obligations.Stores
  refine ⟨?_, ?_, ?_, ?_, ?_, ?_⟩
  · intro x ty seg off t a s c f v p s1 s2 h hu ha hl ws hws hs nt
    refine aloneEnds_of_laneFold h hu rfl ?_ nt
    rw [h.curWarp, h.curPc]
    exact laneStore_issued (e := laneEnv s c x) c.pc t none h.lead ha hl hws hs
  · intro x ty sc seg off t a s c f v p s1 s2 h hu ha hl ws hws hs nt
    refine aloneEnds_of_laneFold h hu rfl ?_ nt
    rw [h.curWarp, h.curPc]
    exact laneStore_issued (e := laneEnv s c x) c.pc t (some sc) h.lead ha hl hws hs
  · intro x op ty o sc seg a b s c f v p s1 s2 h hu ha hl ev hev hs u commit nt
    subst commit
    refine aloneEnds_of_laneFold h hu rfl ?_ nt
    rw [h.curWarp, h.curPc]
    exact laneRed_issued (e := laneEnv s c x) c.pc op o sc b h.lead ha hl hev hs
  · intro x sc seg a b s c f v p s1 s2 h hu ha hl r hr hs u commit nt
    subst commit
    refine aloneEnds_of_laneFold h hu rfl ?_ nt
    rw [h.curWarp, h.curPc]
    exact laneStf_issued (e := laneEnv s c x) c.pc sc b h.lead ha hl hr hs
  · intro w W o rest s s1 u hw free queue store tracked goes link hu
    subst hu
    have here : s.warp w = W := by simp only [State.warp, hw, Option.getD_some]
    show Host.Outcome.next (if (Tab.find s.warps w).isSome then drainOne s w else s) = _
    rw [hw, Option.isSome_some, if_pos rfl,
      drainOne_performs here free queue goes (by rw [tracked]; exact performStore_store store link)]
  · intro core y s empty only goes
    show Host.Outcome.next (if 0 < (s.core core).tracker.length then drainTrack s core 0
      else landOne s core (0 - (s.core core).tracker.length)) = _
    rw [empty, List.length_nil, if_neg (Nat.lt_irrefl 0), landOne_only only goes]

end Sys2Proof.Machine
end

section
/-! SUPPORT. What a returning atomic of a fibre alone leaves once it is performed, and what the integer operations make of the
old value and the operand; and the statement about atomics that follows from these. -/
namespace Sys2Proof.Machine

/-! ### Returning atomics (R258, R260) -/

/-- An atomic acquires at its own scope when its ordering does, and where a fence before it asks for that (R153, R155). -/
theorem acquireFor_ordering (s : State) (core : Nat) (f : Fibre) (o : MemOrd) (sc : Scope) :
    acquireFor s core f (if acquires o then some sc else none)
      = acquireAt (if o = .acq ∨ o = .ar ∨ o = .sc then acquire s core sc else s) core f.fenced := by
  cases o <;> rfl

/-- A returning atomic whose element is located and that is performed completes: its old values wait in the warp's loads, and an
acquiring one gives up older copies. -/
theorem laneAtomic_performed {s s1 s2 : State} {e : LaneEnv} {f : Fibre} {seg : Seg} {a : Reg} {v w n : Nat} {p : Place}
    {fmt : Option Fmt} {vals : Place → Fibre → List Nat × BitVec 4}
    {g : LaneEnv → Fibre → Nat → Nat → Nat → Option Nat × Flags} {olds : List Nat} {fp : Flags} {ev : BitVec 4}
    (o : MemOrd) (sc : Scope) (d : Reg) (ha : addrValue seg a f .rmw = .ok v)
    (hl : locate s e.warp f.tid.toNat seg v 0 n .rmw false = (.ok p, s1))
    (hp : performAtomic s1 w p n p.va fmt (vals p f).1 (g e f) = (.ok (olds, fp, ev), s2)) {u u' : State}
    (hu : u = addLoad s2 w (some f.slot) (regWrites d.toNat (if n = 8 then 2 else 1) olds))
    (hu' : u' = acquireAt (if o = .acq ∨ o = .ar ∨ o = .sc then acquire u e.warp.core sc else u) e.warp.core f.fenced)
    {num : BitVec 4} (hn : num = ev ||| (vals p f).2) :
    laneAtomic w n fmt o sc seg d a vals g s e f = ({ LaneAct.ok e f f.lanes with fp := fp, num := num }, u') := by
  subst hu' hu hn
  simp only [laneAtomic, ha, hl, hp, acquireFor_ordering]

/-! ### What the integer operations make (Table 10-4) -/

/-- The two readings of a value as two's complement are one. -/
theorem toSigned_eq_signed (w v : Nat) : toSigned w v = Claims.signed w v := by
  unfold toSigned Claims.signed
  split <;> split <;> omega

/-- An atomic's values are compared as the statements read them. -/
theorem compared_eq_read (sg : Bool) (w v : Nat) : (if sg then toSigned w v else (v : Int)) = Claims.read sg w v := by
  rw [toSigned_eq_signed, Claims.read]

/-- The types that compare as signed. -/
theorem atomSigned_eq_decide (ty : AtomTy) : atomSigned ty = decide (ty = .i32 ∨ ty = .i64) := by cases ty <;> rfl

section
variable {ty : AtomTy} (int : atomFmt ty = none) (old b : Nat) (mode : Mode) (d : Double)
include int

/-- The sum is taken modulo 2^w. -/
theorem atomResult_add : atomResult .add ty old b mode d = ((old + b) % 2 ^ (8 * atomSize ty), 0) := by
  simp only [atomResult, int]

/-- `min` leaves the smaller value, as the type reads it. -/
theorem read_atomResult_min :
    Claims.read (atomSigned ty) (8 * atomSize ty) (atomResult .min ty old b mode d).1
      = min (Claims.read (atomSigned ty) (8 * atomSize ty) old) (Claims.read (atomSigned ty) (8 * atomSize ty) b) := by
  have other : (AtomOp.min == AtomOp.max) = false := rfl
  simp only [atomResult, int, compared_eq_read, other, beq_false, Bool.not_eq_eq_eq_not, Bool.not_true,
    decide_eq_false_iff_not, ite_not]
  rw [apply_ite (Claims.read _ _)]
  split <;> omega

/-- `max` leaves the larger one. -/
theorem read_atomResult_max :
    Claims.read (atomSigned ty) (8 * atomSize ty) (atomResult .max ty old b mode d).1
      = max (Claims.read (atomSigned ty) (8 * atomSize ty) old) (Claims.read (atomSigned ty) (8 * atomSize ty) b) := by
  simp only [atomResult, int, compared_eq_read, beq_self_eq_true, beq_true, decide_eq_true_eq]
  rw [apply_ite (Claims.read _ _)]
  split <;> omega

end

/-- The increment counts up below the operand and returns to 0 from there. -/
theorem atomResult_inc (ty : AtomTy) (old b : Nat) (mode : Mode) (d : Double) :
    atomResult .inc ty old b mode d = (if old < b then old + 1 else 0, 0) := by
  by_cases less : old < b
  · rw [if_pos less]
    exact congrArg (·, 0) (if_neg (Nat.not_le.2 less))
  · rw [if_neg less]
    exact congrArg (·, 0) (if_pos (Nat.not_lt.1 less))

/-- Settles O21: an atomic of one fibre completes as its performance, the load of its old values and its acquire leave the state;
the results of the integer operations are those of Table 10-4 by case of the operation. -/
theorem atomics : Obligations.Atomics := by
  unfold Obligations.Atomics
  refine ⟨⟨?_, ?_⟩, ?_⟩
  · intro x op ty o sc seg d a b s c f v p s1 olds fp ev s2 h hu ha hl hp u load u' acq nt
    refine aloneEnds_of_laneFold h hu rfl ?_ nt
    rw [h.curWarp]
    refine laneAtomic_performed (e := laneEnv s c x) o sc d ha hl ?_ load acq BitVec.or_zero.symm
    exact hp
  · intro x w o sc seg d a b k s c f v p s1 olds fp ev s2 h n size hu ha hl y vals hp u load u' acq nt
    subst size vals
    refine aloneEnds_of_laneFold h hu rfl ?_ nt
    rw [h.curWarp]
    refine laneAtomic_performed (e := laneEnv s c x) o sc d ha hl ?_ load acq rfl
    exact hp
  · intro ty old b mode d int _ _ w r sg
    have signs : sg = atomSigned ty := (atomSigned_eq_decide ty).symm
    rw [signs]
    exact ⟨atomResult_add int old b mode d, read_atomResult_min int old b mode d, read_atomResult_max int old b mode d,
      rfl, rfl, rfl, rfl, atomResult_inc ty old b mode d⟩

end Sys2Proof.Machine
end

section
/-! SUPPORT. An invalidation whose operand a load in flight is still to write, and the statement about invalidations that it refutes. -/
namespace Sys2Proof.Machine

/-- A uniform instruction whose operand a load in flight is still to write waits for the load (R255). -/
theorem uniform_waitsLoads {i : Instr} {us : List UniUse} {act : State → Issue → Warp → UniRes × State} {s : State} {c : Issue}
    (cur : s.cur = some c) (free : handlerFree (s.warp c.warp) (groupOf (s.warp c.warp) c) = true)
    (uses : us.all (UniUse.ok (s.warp c.warp)) = true)
    (held : loadsHold (s.warp c.warp) c.group [] (uniSpans us) = true) :
    uniform i us act s = .next (waitLoads i c [] (uniSpans us) s) := by
  simp only [uniform, cur, free, uses, afterLoads_waits _ _ _ _ _ _ held, Bool.not_true, Bool.false_eq_true, if_false]

/-- So does `tlbinv.page`, and begins no invalidation. -/
theorem tlbinvPage_waitsLoads {e : Bool} {a : Reg} {s : State} {c : Issue} (cur : s.cur = some c)
    (free : handlerFree (s.warp c.warp) (groupOf (s.warp c.warp) c) = true)
    (uses : [plainUse true a].all (UniUse.ok (s.warp c.warp)) = true)
    (held : loadsHold (s.warp c.warp) c.group [] (uniSpans [plainUse true a]) = true) :
    exec (.tlbinvPage e a) s = .next (waitLoads (.tlbinvPage e a) c [] (uniSpans [plainUse true a]) s) := by
  show execTlbinvPage e a s = _
  exact uniform_waitsLoads cur free uses held

/-- A fibre that runs in the handler of fragment 1. -/
def handlerFibre : Fibre where
  slot := 0
  pc := 0
  tid := 0
  base := 0
  icount := 0
  join := 0
  status := .ready
  frag := 1
  fenced := 0
  yields := false
  lanes := []

/-- The instruction that it issues. -/
def handlerIssue : Issue := ⟨0, [0], 0, none, 0⟩

/-- It issues in a context with the system right, while a load in flight is still to write s0. -/
def loadingHandler : State := { State.reset with
  cur := some handlerIssue
  warps := [(0, { Warp.absent with
    fibres := [handlerFibre], handlers := [⟨1, 0, [0]⟩], loads := [⟨none, [(0, 0, 0)]⟩] })]
  ctxs := [(0, { Ctx.reset with sysr := true })] }

/-- There `tlbinv.page` with its address in s0:s1 waits for the load, and no invalidation has begun. -/
theorem tlbinvPage_loadingHandler :
    ∃ t, exec (.tlbinvPage false 0) loadingHandler = .next t ∧ t.invals = [] :=
  ⟨waitLoads (.tlbinvPage false 0) handlerIssue [] (uniSpans [plainUse true 0]) loadingHandler,
    tlbinvPage_waitsLoads (c := handlerIssue) rfl (by decide) (by decide) (by decide), by decide⟩

/-- Refutes O39: its clause about the beginning of an invalidation does not ask that no load in flight is still to write the operand.
Where one is, the group waits for the load first (R255), and the invalidation is not yet among those of the machine. -/
theorem not_invalidations : ¬ Obligations.Invalidations := by
  unfold Obligations.Invalidations
  rintro ⟨-, -, -, begins, -⟩
  have ready : ∀ f ∈ groupOf (loadingHandler.warp handlerIssue.warp) handlerIssue, f.status = .ready := by decide
  obtain ⟨t, runs, -, -, rest, -⟩ :=
    (begins loadingHandler handlerIssue rfl (by decide) ready).1 false 0 (by decide) (by decide)
  obtain ⟨u, runs', none⟩ := tlbinvPage_loadingHandler
  obtain rfl : t = u := Host.Outcome.next.inj (runs.symm.trans runs')
  have one : t.invals.length = 1 := congrArg (fun v : State => v.invals.length) rest
  rw [none] at one
  exact absurd one (by decide)

end Sys2Proof.Machine
end

section
/-! SUPPORT. What stores on their way and the device's own accesses leave alone, and what leaves every block's state as it was. -/
namespace Sys2Proof.Machine

/-! ### Stores on their way (R145, R150) -/

/-- A state without what stores that reach their home L2s can change: what a write to physical memory does, and the cores. -/
def State.unlanded (s : State) : State := { s.unstored with cores := [] }

theorem State.unlanded_cores (s : State) (cs : Tab Core) : ({ s with cores := cs } : State).unlanded = s.unlanded := rfl

/-- The copies of a line are the cores'. -/
theorem dropLine_unlanded (s : State) (core line : Nat) : (dropLine s core line).unlanded = s.unlanded := by
  unfold dropLine; simp only; split <;> rfl

/-- A write to physical memory, by a core or none, changes nothing else. -/
theorem writePhys_unlanded (s : State) (core : Option Nat) (key : Option (BitVec 512)) (ws : List MByte) :
    (writePhys s core key ws).unlanded = s.unlanded := by
  have stored : (writePhys s none key ws).unlanded = s.unlanded :=
    congrArg (fun u : State => { u with cores := [] }) (writePhys_unstored s key ws)
  cases core with
  | none => exact stored
  | some c =>
    exact List.foldlRecOn (motive := fun u : State => u.unlanded = s.unlanded) _ _ stored fun u h l _ =>
      (dropLine_unlanded u c l).trans h

theorem landCore_unlanded (s : State) (core : Nat) : (landCore s core).unlanded = s.unlanded := by
  unfold landCore
  simp only
  split
  · rfl
  · exact List.foldlRecOn (motive := fun u : State => u.unlanded = s.unlanded) _ (landWrite core) (State.unlanded_cores s _)
      fun u h y _ => (writePhys_unlanded u (some core) y.key y.op.writes).trans h

theorem landHome_unlanded (s : State) (core : Nat) : (landHome s core).unlanded = s.unlanded :=
  List.foldlRecOn (motive := fun u : State => u.unlanded = s.unlanded) _ landCore rfl fun u h c _ => (landCore_unlanded u c).trans h

theorem landOn_unlanded (s : State) (cores ls : List Nat) : (landOn s cores ls).unlanded = s.unlanded :=
  List.foldlRecOn (motive := fun u : State => u.unlanded = s.unlanded) _ _ rfl fun u h c _ => by
    split
    · exact (landCore_unlanded u c).trans h
    · exact h

theorem landBefore_unlanded (s : State) (core : Nat) (o : StoreOp) : (landBefore s core o).unlanded = s.unlanded := by
  unfold landBefore
  split
  · exact landHome_unlanded s core
  · split
    · exact landOn_unlanded s _ _
    · rfl

/-- A store that leaves its core is the core's. -/
theorem sendStore_unlanded (s : State) (core : Nat) (y : Passing) : (sendStore s core y).unlanded = s.unlanded :=
  (State.unlanded_cores _ _).trans (landOn_unlanded s _ _)

/-- So are the stores and lines that a cluster gives up when it enters or leaves the fused state (R128). -/
theorem refuse_unlanded (before : State) (core : Nat) (s : State) : (refuse before core s).unlanded = s.unlanded := by
  unfold refuse
  simp only
  split
  · rfl
  · exact List.foldlRecOn (motive := fun u : State => u.unlanded = s.unlanded) _ _ rfl fun u h c _ =>
      (State.unlanded_cores _ _).trans ((landCore_unlanded u c).trans h)

/-! ### Structure accesses of the device (R520, R521) -/

/-- A state without what a translation can change: the translation caches and the free choices. -/
def State.unwalked (s : State) : State := { s with dies := [], free := 0 }

theorem choose_unwalked (s : State) (n : Nat) : (s.choose n).2.unwalked = s.unwalked := by
  unfold State.choose; split <;> rfl

theorem fillTlb_unwalked (d : Nat) (s : State) (t : Tlb) : (fillTlb d s t).unwalked = s.unwalked := by
  have filled : ∀ u x, (State.modDie u d x).unwalked = u.unwalked := fun _ _ => rfl
  unfold fillTlb
  simp only
  split
  · rfl
  · split
    · exact filled s _
    · exact (filled _ _).trans (choose_unwalked s _)

theorem cacheLeaf_unwalked (s : State) (a : Walker) (c va level e : Nat) :
    (cacheLeaf s a c va level e).unwalked = s.unwalked :=
  List.foldlRecOn (motive := fun u : State => u.unwalked = s.unwalked) _ _ rfl fun u h t _ => (fillTlb_unwalked _ u t).trans h

theorem translate_unwalked (s : State) (a : Walker) (c va : Nat) : (translate s a c va).2.unwalked = s.unwalked := by
  unfold translate
  simp only
  split
  · exact choose_unwalked s _
  · exact (cacheLeaf_unwalked _ _ _ _ _ _).trans (choose_unwalked s _)

theorem linkCheck_unwalked (s : State) (p : Place) (n : Nat) (k : AccKind) :
    (linkCheck s p n k).2.unwalked = s.unwalked := by
  unfold linkCheck
  split
  · rfl
  · split
    · simp only
      split <;> rfl
    · rfl

/-- Translating a structure access ends in the state of its translation, or of the check of its place's link. -/
theorem structPlace_state (s : State) (c va : Nat) (k : AccKind) :
    (structPlace s c va k).2 = (translate s (.die 0) c va).2
      ∨ ∃ p, (structPlace s c va k).2 = (linkCheck (translate s (.die 0) c va).2 p 1 k).2 := by
  unfold structPlace
  generalize translate s (.die 0) c va = x
  obtain ⟨r, t⟩ := x
  rcases r with e | ⟨l, e⟩
  · exact .inl rfl
  · dsimp only
    split
    · exact .inl rfl
    · split
      · exact .inl rfl
      · split
        · exact .inl rfl
        · split
          · exact .inl rfl
          · refine .inr ⟨leafPlace l e va false, ?_⟩
            split
            · rename_i h
              exact (congrArg Prod.snd h).symm
            · rename_i h
              exact (congrArg Prod.snd h).symm

theorem structPlace_unwalked (s : State) (c va : Nat) (k : AccKind) :
    (structPlace s c va k).2.unwalked = s.unwalked := by
  rcases structPlace_state s c va k with h | ⟨p, h⟩
  · rw [h, translate_unwalked]
  · rw [h, linkCheck_unwalked, translate_unwalked]

theorem structCheck_unwalked (c : Nat) (k : AccKind) (ps : List (Nat × Nat)) : ∀ s : State,
    (structCheck s c k ps).2.unwalked = s.unwalked := by
  induction ps with
  | nil => exact fun _ => rfl
  | cons p ps ih =>
    intro s
    have placed := structPlace_unwalked s c p.1 k
    rw [structCheck]
    generalize structPlace s c p.1 k = x at placed ⊢
    obtain ⟨r, t⟩ := x
    cases r with
    | error e => exact placed
    | ok q =>
      have rest := (ih t).trans placed
      simp only
      generalize structCheck t c k ps = y at rest ⊢
      obtain ⟨r', u⟩ := y
      cases r' <;> exact rest

theorem structPut_unstored : ∀ (ps : List (Place × Nat)) (s : State) (bs : List Byte),
    (structPut s ps bs).unstored = s.unstored
  | [], _, _ => rfl
  | _ :: t, s, _ => (structPut_unstored t _ _).trans (writePhys_unstored s _ _)

/-- A structure write, and what it leaves of a range that it may not write, change memory and translations alone. -/
theorem structWrite_frame (s : State) (c va : Nat) (bs : List Byte) :
    (structWrite s c va bs).2.unwalked.unstored = s.unwalked.unstored := by
  have checked := congrArg State.unstored (structCheck_unwalked c .write (piecesOf va bs.length) s)
  unfold structWrite
  generalize structCheck s c .write (piecesOf va bs.length) = x at checked ⊢
  obtain ⟨r, t⟩ := x
  cases r with
  | error e => exact checked
  | ok ps => exact (congrArg State.unwalked (structPut_unstored ps t bs)).trans checked

/-- A structure write that goes through ends in the state that it names. -/
theorem structWrite_ok {s u v : State} {c va : Nat} {bs : List Byte} (h : structWrite s c va bs = (.ok u, v)) : u = v := by
  unfold structWrite at h
  generalize structCheck s c .write (piecesOf va bs.length) = x at h
  obtain ⟨r, t⟩ := x
  cases r with
  | error e => simp at h
  | ok ps =>
    simp only [Prod.mk.injEq, Except.ok.injEq] at h
    exact h.1.symm.trans h.2

/-! ### What leaves the table of blocks alone -/

theorem landHome_blocks (s : State) (core : Nat) : (landHome s core).blocks = s.blocks :=
  (congrArg State.blocks (landHome_unlanded s core) :)
theorem sendStore_blocks (s : State) (core : Nat) (y : Passing) : (sendStore s core y).blocks = s.blocks :=
  (congrArg State.blocks (sendStore_unlanded s core y) :)
theorem refuse_blocks (before : State) (core : Nat) (s : State) : (refuse before core s).blocks = s.blocks :=
  (congrArg State.blocks (refuse_unlanded before core s) :)
theorem structWrite_blocks (s : State) (c va : Nat) (bs : List Byte) : (structWrite s c va bs).2.blocks = s.blocks :=
  (congrArg State.blocks (structWrite_frame s c va bs) :)

/-- A trace record is the context's, and memory's. -/
theorem trace_blocks (s : State) (c core ty : Nat) (n : Name) (data : List Byte) :
    (trace s c core ty n data).blocks = s.blocks := by
  unfold trace
  simp only
  split
  · split
    · generalize h : structWrite s c _ _ = x
      have written : x.2.blocks = s.blocks := h ▸ structWrite_blocks s c _ _
      obtain ⟨r, t⟩ := x
      cases r with
      | error e => exact written
      | ok u => exact (congrArg State.blocks (structWrite_ok h)).trans written
    · rfl
  · rfl

theorem launchFault_blocks (s : State) (l : Nat) (r : FaultRec) : (launchFault s l r).blocks = s.blocks := rfl

/-- A context fault is of its context and launch (R456). -/
theorem ctxFault_blocks (s : State) (c core : Nat) (l : Option Nat) (code detail addr : Nat) (n : Name) (sec : Option Nat) :
    (ctxFault s c core l code detail addr n sec).blocks = s.blocks := by
  refine Eq.trans ?_ (trace_blocks s c core 3 n (faultData code 0 addr))
  unfold ctxFault
  simp only
  split
  · rfl
  · cases l <;> rfl

theorem count_blocks (s : State) (c core code n : Nat) : (count s c core code n).blocks = s.blocks :=
  (congrArg State.blocks (count_counters s c core code n).1 :)

theorem countNum_blocks (s : State) (c core : Nat) (num : BitVec 4) : (countNum s c core num).blocks = s.blocks :=
  List.foldlRecOn (motive := fun u : State => u.blocks = s.blocks) _ _ rfl fun u h i _ => by
    split
    · exact (count_blocks u c core _ 1).trans h
    · exact h

theorem chargeBytes_blocks (s : State) (c : Nat) (p : Place) (n : Nat) (write : Bool) :
    (chargeBytes s c p n write).blocks = s.blocks := by
  unfold chargeBytes; split <;> rfl

/-- What an ordered block's write gives way to, and what stands again, is the launch's, and memory's (R391). -/
theorem keepOwners_blocks (s : State) (l i : Nat) (key : Option (BitVec 512)) (ws : List MByte) :
    (keepOwners s l i key ws).blocks = s.blocks :=
  List.foldlRecOn (motive := fun u : State => u.blocks = s.blocks) _ _ rfl fun u h b _ => by
    split
    · split
      · exact h
      · exact h
    · exact h

theorem standAgain_blocks (s : State) (l i : Nat) : (standAgain s l i).blocks = s.blocks :=
  List.foldlRecOn (motive := fun u : State => u.blocks = s.blocks) _ _ rfl fun u h e _ =>
    Eq.trans (congrArg State.blocks (writePhys_unlanded u none e.2.key e.2.kept) :) h

end Sys2Proof.Machine
end
section
/-! SUPPORT. What a kill makes of a block: the operations that it performs leave every block in its state until the block itself
retires. -/
namespace Sys2Proof.Machine

/-! ### Reading an element changes caches and lines of the host alone -/

theorem evictLines_unwalked : ∀ (n : Nat) (s : State) (t : Tab (BitVec 512)), (evictLines n s t).2.unwalked = s.unwalked
  | 0, _, _ => rfl
  | n + 1, s, _ => (evictLines_unwalked n _ _).trans (choose_unwalked s _)

theorem l1Fill_blocks (s : State) (core k : Nat) (line : BitVec 512) : (l1Fill s core k line).blocks = s.blocks :=
  (congrArg State.blocks (evictLines_unwalked _ s _) :)

theorem dropLine_blocks (s : State) (core line : Nat) : (dropLine s core line).blocks = s.blocks :=
  (congrArg State.blocks (dropLine_unlanded s core line) :)

theorem meanRenew_blocks (s : State) (core : Nat) (p : Place) : (meanRenew s core p).blocks = s.blocks := by
  unfold meanRenew
  split
  · simp only
    split
    · rfl
    · exact List.foldlRecOn (motive := fun u : State => u.blocks = s.blocks) _ _ rfl fun u h i _ => (dropLine_blocks u _ _).trans h
  · rfl

theorem l1Take_blocks (s : State) (core : Nat) (p : Place) (ls : List Nat) : (l1Take s core p ls).blocks = s.blocks :=
  List.foldlRecOn (motive := fun u : State => u.blocks = s.blocks) _ _ (meanRenew_blocks s core p) fun u h _ _ =>
    (l1Fill_blocks u _ _ _).trans h

theorem l1Renew_blocks (s : State) (core : Nat) (p : Place) (ls : List Nat) : (l1Renew s core p ls).blocks = s.blocks :=
  List.foldlRecOn (motive := fun u : State => u.blocks = s.blocks) _ _ rfl fun u h x _ => by
    simp only
    split
    · exact (dropLine_blocks u _ _).trans h
    · exact h

theorem l1View_blocks (s : State) (core : Nat) (relaxed : Bool) (p : Place) (ls : List Nat) :
    (l1View s core relaxed p ls).2.blocks = s.blocks := by
  unfold l1View
  split
  · rfl
  · split
    · split
      · exact l1Take_blocks s core p ls
      · split
        · rfl
        · simp only
          split
          · rfl
          · exact l1Take_blocks _ core p ls
    · exact l1Renew_blocks s core p ls

theorem readElem_blocks (s : State) (core : Nat) (relaxed : Bool) (q : List StoreOp) (p : Place) (n : Nat) :
    (readElem s core relaxed q p n).2.blocks = s.blocks := by
  refine Eq.trans ?_ (l1View_blocks s core relaxed p (placeLines p n))
  unfold readElem
  simp only
  split
  · unfold holdHost
    split <;> rfl
  · rfl

/-! ### The state of a block, and whether it was killed -/

/-- Where each block stands: its state, and whether it was killed. -/
def State.fates (s : State) (b : Nat) : Option (BlockState × Bool) :=
  (Tab.find s.blocks b).map fun B => (B.state, B.killed)

theorem fates_congr {s t : State} (h : t.blocks = s.blocks) : t.fates = s.fates := by
  unfold State.fates; rw [h]

/-- A block stands where its own fields say. -/
theorem blk_of_fates {s : State} {b : Nat} {x : BlockState × Bool} (h : s.fates b = some x) :
    (s.blk b).state = x.1 ∧ (s.blk b).killed = x.2 := by
  obtain ⟨B, found, rfl⟩ := Option.map_eq_some_iff.1 h
  simp [State.blk, found]

theorem fates_modBlk (s : State) (b : Nat) (g : Block → Block) (c : Nat) :
    (s.modBlk b g).fates c = if c = b then (Tab.find s.blocks b).map fun B => ((g B).state, (g B).killed) else s.fates c := by
  simp only [State.fates, State.modBlk, Tab.find_modify]
  split
  · exact Option.map_map _ _ _
  · rfl

/-- A change of a block's other fields leaves it where it stands. -/
theorem modBlk_fates (s : State) (b : Nat) {g : Block → Block} (keeps : ∀ B, (g B).state = B.state ∧ (g B).killed = B.killed) :
    (s.modBlk b g).fates = s.fates := by
  funext c
  simp only [fates_modBlk, keeps]
  split
  · rename_i h; rw [h]; rfl
  · rfl

theorem addFault_fates (s : State) (o : Owner) (r : FaultRec) : (addFault s o r).fates = s.fates := by
  cases o with
  | blk b => exact modBlk_fates s b fun _ => ⟨rfl, rfl⟩
  | warp w => rfl

/-! ### Performing stores (R149, R391) -/

theorem writePlace_fates (s : State) (core : Nat) (p : Place) (ws : List MByte) : (writePlace s core p ws).fates = s.fates := by
  unfold writePlace
  cases p.sram with
  | some b => exact modBlk_fates s b fun _ => ⟨rfl, rfl⟩
  | none => exact fates_congr (congrArg State.blocks (writePhys_unlanded s (some core) _ ws) :)

theorem writeTracked_fates (s : State) (core l : Nat) (tk : Option Nat) (p : Place) (ws : List MByte) :
    (writeTracked s core l tk p ws).fates = s.fates := by
  cases tk with
  | none => exact writePlace_fates s core p ws
  | some i => exact (writePlace_fates _ core p _).trans (fates_congr (keepOwners_blocks s l i _ _))

/-- A store or reduction leaves every block where it stands, whether it is performed or meets a fault. -/
theorem performStore_fates (s : State) (core w l : Nat) (blk tk : Option Nat) (o : StoreOp) :
    (performStore s core w l blk tk o).2.fates = s.fates
      ∧ ∀ t fp num, (performStore s core w l blk tk o).1 = .ok (t, fp, num) → t.fates = s.fates := by
  have checked : (linkCheck s o.place o.size (if o.rmw.isSome then .rmw else .write)).2.fates = s.fates :=
    fates_congr (congrArg State.blocks (linkCheck_unwalked s _ _ _) :)
  unfold performStore
  generalize linkCheck s o.place o.size (if o.rmw.isSome then .rmw else .write) = x at checked ⊢
  obtain ⟨r, u⟩ := x
  replace checked : u.fates = s.fates := checked
  have before : (landBefore u core o).blocks = u.blocks := (congrArg State.blocks (landBefore_unlanded u core o) :)
  cases r with
  | some c => exact ⟨checked, fun _ _ _ h => by simp at h⟩
  | none =>
    simp only
    cases o.rmw with
    | none =>
      simp only
      split
      · refine ⟨checked, fun t fp num h => ?_⟩
        simp only [Except.ok.injEq, Prod.mk.injEq] at h
        rw [← h.1, fates_congr (sendStore_blocks u core _), checked]
      · refine ⟨checked, fun t fp num h => ?_⟩
        simp only [Except.ok.injEq, Prod.mk.injEq] at h
        rw [← h.1, writeTracked_fates, fates_congr before, checked]
    | some r =>
      simp only
      split
      · exact ⟨checked, fun _ _ _ h => by simp at h⟩
      · have read : (readElem (landBefore u core o) core false [] o.place o.size).2.fates = s.fates :=
          (fates_congr ((readElem_blocks _ core false [] _ _).trans before)).trans checked
        refine ⟨read, fun t fp num h => ?_⟩
        simp only [Except.ok.injEq, Prod.mk.injEq] at h
        rw [← h.1, writeTracked_fates, read]

theorem drainOne_fates (s : State) (w : Nat) : (drainOne s w).fates = s.fates := by
  unfold drainOne
  simp only
  split
  · rfl
  · split
    · rfl
    · split
      · rfl
      · rename_i o rest _ _
        obtain ⟨stopped, performed⟩ := performStore_fates s (s.warp w).core w (s.warp w).launch (s.warp w).blk
          (if o.place.tracked then ticketOf s (s.warp w) else none) o
        split
        · rename_i t fp num u h
          rw [fates_congr (countNum_blocks _ _ _ _)]
          exact (fates_congr (chargeBytes_blocks t _ _ _ _)).trans (performed t fp num (congrArg Prod.fst h))
        · rename_i c u h
          rw [addFault_fates]
          exact (congrArg State.fates (congrArg Prod.snd h)).symm.trans stopped

theorem drainN_fates (w : Nat) : ∀ (n : Nat) (s : State), (drainN w n s).fates = s.fates
  | 0, _ => rfl
  | n + 1, s => (drainN_fates w n _).trans (drainOne_fates s w)

theorem drainAll_fates (s : State) (w : Nat) : (drainAll s w).fates = s.fates :=
  (fates_congr (landHome_blocks _ _)).trans (drainN_fates w _ s)

/-! ### The end of fibres and of warps (R52, R473) -/

/-- Traps that fibres take are their warp's, or a fault of its context (R457, R458). -/
theorem raiseUser_blocks (s : State) (w : Nat) (lx word : Word) (rs : List Raise) :
    (raiseUser s w lx word rs).blocks = s.blocks := by
  unfold raiseUser
  split
  · rfl
  · simp only
    split
    · exact ctxFault_blocks s _ _ _ _ _ _ _ _
    · rfl

theorem raiseOwed_blocks (s : State) (w : Nat) : (raiseOwed s w).blocks = s.blocks := by
  unfold raiseOwed
  simp only
  split
  · rfl
  · exact raiseUser_blocks _ w _ _ _

theorem endFibres_blocks (s : State) (w : Nat) (ks : List Nat) (killed : Bool) :
    (endFibres s w ks killed).blocks = s.blocks := raiseOwed_blocks _ w

theorem killWarp_fates (s : State) (w : Nat) : (killWarp s w).fates = s.fates := by
  have ended : (killWarp s w).blocks = (drainAll s w).blocks := by
    simp only [killWarp, endFibres_blocks]
  rw [fates_congr ended, drainAll_fates]

/-! ### The end of blocks (R53, R473) -/

/-- A block that retires is RETIRED, killed or not as it was. -/
theorem retireBlock_fate {s : State} {b : Nat} {x : BlockState × Bool} (h : s.fates b = some x) :
    (retireBlock s b).fates b = some (.retired, x.2) := by
  obtain ⟨state, -⟩ := blk_of_fates h
  obtain ⟨B, found, rfl⟩ := Option.map_eq_some_iff.1 h
  unfold retireBlock
  simp only
  split
  · rename_i retired
    exact h.trans (congrArg (fun st => some (st, B.killed)) (state.symm.trans retired))
  · rw [fates_congr (trace_blocks _ _ _ _ _ _)]
    have stands : (refuse s (s.blk b).core
        (s.modBlk b fun B => { B with state := .retired, rings := [], abacus := [], tiles := [] })).fates b
          = some (.retired, B.killed) := by
      rw [fates_congr (refuse_blocks _ _ _), fates_modBlk, if_pos rfl, found]
      rfl
    split
    · exact (congrFun (fates_congr (standAgain_blocks _ _ _)) b).trans stands
    · exact stands

/-- The launch's record of a kill, and its context fault where a committed idempotent block is lost (R417, R483). -/
def killReported (s : State) (b : Nat) (r : FaultRec) : State :=
  let B := s.blk b
  let lost := (s.launch B.launch).lrec.idempotent && B.committed
  let t := launchFault s B.launch (if lost then { r with code := codeIdempotenceLost } else r)
  if lost then ctxFault t B.ctx B.core (some B.launch) codeIdempotenceLost 0 0 r.name none else t

theorem killReported_blocks (s : State) (b : Nat) (r : FaultRec) : (killReported s b r).blocks = s.blocks := by
  unfold killReported
  simp only
  split
  · exact ctxFault_blocks _ _ _ _ _ _ _ _ _
  · rfl

/-- The block's warps are killed next. -/
def killEmptied (s : State) (b : Nat) (r : FaultRec) : State :=
  ((killReported s b r).warps.filter fun e => e.2.blk == some b).foldl (fun s e => killWarp s e.1) (killReported s b r)

theorem killEmptied_fates (s : State) (b : Nat) (r : FaultRec) : (killEmptied s b r).fates = s.fates :=
  List.foldlRecOn (motive := fun u : State => u.fates = s.fates) _ _ (fates_congr (killReported_blocks s b r)) fun u h e _ =>
    (killWarp_fates u e.1).trans h

/-- The block is marked as killed, and its engines' work ends. -/
def markKilled (B : Block) : Block :=
  { B with
    killed := true, faults := []
    fm := B.fm.map fun F => { F with ended := true, stopped := false }
    carter := { B.carter with cmds := B.carter.cmds.filter copyGoesOn } }

/-- The kill of a block ends in its retirement. -/
theorem kill_retires (s : State) (b : Nat) (r : FaultRec) :
    ∃ t, kill s (.blk b) r = retireBlock t b ∧ t.blocks = ((killEmptied s b r).modBlk b markKilled).blocks := ⟨_, rfl, rfl⟩

/-- A block that is killed retires so (R473). -/
theorem kill_fate {s : State} {b : Nat} {x : BlockState × Bool} (h : s.fates b = some x) (r : FaultRec) :
    (kill s (.blk b) r).fates b = some (.retired, true) := by
  obtain ⟨t, kills, marked⟩ := kill_retires s b r
  rw [← killEmptied_fates s b r] at h
  obtain ⟨B, found, -⟩ := Option.map_eq_some_iff.1 h
  have dead : t.fates b = some (B.state, true) := by
    rw [fates_congr marked, fates_modBlk, if_pos rfl, found]
    rfl
  rw [kills, retireBlock_fate dead]

theorem trimSave_blocks (s : State) (c : Nat) : (trimSave s c).blocks = s.blocks := by
  unfold trimSave; split <;> rfl

/-- KILL gives up the operations that a tracker holds of the block, and kills it. -/
theorem killOwner_kills (s : State) (b : Nat) (r : FaultRec) :
    ∃ t q, killOwner s (.blk b) r = trimSave (kill t (.blk b) q) (s.blk b).ctx ∧ t.blocks = s.blocks :=
  ⟨_, _, rfl, rfl⟩

/-- So does one that KILL answers for (R473). -/
theorem killOwner_fate {s : State} {b : Nat} {x : BlockState × Bool} (h : s.fates b = some x) (r : FaultRec) :
    (killOwner s (.blk b) r).fates b = some (.retired, true) := by
  obtain ⟨t, q, kills, same⟩ := killOwner_kills s b r
  rw [kills, fates_congr (trimSave_blocks _ _)]
  exact kill_fate ((congrFun (fates_congr same) b).trans h) q

/-- So does one whose state a soft error destroys (R495). -/
theorem killByError_fate {s : State} {b : Nat} (placed : (s.blk b).placed = true) (live : (s.blk b).state ≠ .retired) :
    (killByError s (.blk b)).fates b = some (.retired, true) := by
  have lives : ownerLives s (.blk b) = true := by simp [ownerLives, placed, live]
  have there : ∃ B, Tab.find s.blocks b = some B := by
    cases h : Tab.find s.blocks b with
    | none => simp [State.blk, h, Block.absent] at placed
    | some B => exact ⟨B, rfl⟩
  obtain ⟨B, found⟩ := there
  have stands : s.fates b = some (B.state, B.killed) := congrArg (Option.map _) found
  rw [killByError, if_pos lives]
  exact killOwner_fate (s := spoilDump s _) stands _

end Sys2Proof.Machine
end

section
/-! SUPPORT. Errors, links, and accesses of the host and of peers; and the statement about them that follows. -/
namespace Sys2Proof.Machine

/-! ### What a log record and a degradation leave alone -/

@[simp] theorem logRecord_errors (s : State) (e : LogEntry) : (logRecord s e).dev.errors = s.dev.errors :=
  (congrArg (fun u : State => u.dev.errors) (logRecord_unlogged s e) :)
@[simp] theorem logRecord_ctxs (s : State) (e : LogEntry) : (logRecord s e).ctxs = s.ctxs :=
  (congrArg State.ctxs (logRecord_unlogged s e) :)
@[simp] theorem logRecord_blocks (s : State) (e : LogEntry) : (logRecord s e).blocks = s.blocks :=
  (congrArg State.blocks (logRecord_unlogged s e) :)
@[simp] theorem logRecord_survey (s : State) (e : LogEntry) : (logRecord s e).survey = s.survey :=
  (congrArg State.survey (logRecord_unlogged s e) :)
@[simp] theorem logRecord_cores (s : State) (e : LogEntry) : (logRecord s e).cores = s.cores :=
  (congrArg State.cores (logRecord_unlogged s e) :)

/-- No loss is no degradation. -/
@[simp] theorem degrade_nil (s : State) : degrade s [] = s := if_pos rfl

/-- Counts of corrected errors are not a degradation's. -/
theorem degrade_errors (s : State) (ls : List UnitLoss) : (degrade s ls).dev.errors = s.dev.errors := by
  by_cases found : ls = []
  · rw [found, degrade_nil]
  · obtain ⟨_, e⟩ := degrade_eq s found
    simp only [e, writeSurvey_dev]
    exact (congrArg (fun u : State => u.dev.errors) (applyLosses_frame s (byUnit ls)) :)

/-- The Survey of one loss is as the loss leaves it, with the tick of the degradation. -/
theorem degrade_one_survey (s : State) (l : UnitLoss) :
    (degrade s [l]).survey = { (applyLoss (logLosses s [l]) l).survey with tick := s.tick } := by
  obtain ⟨_, e⟩ := degrade_eq s (List.cons_ne_nil l [])
  have tick := withLosses_surveyTick s [l]
  simp only [e, writeSurvey_survey, ← tick]
  rfl

theorem degrade_one_rmver (s : State) (l : UnitLoss) : (degrade s [l]).dev.rmver = s.dev.rmver + 1 :=
  degrade_rmver s (List.cons_ne_nil l [])

theorem logLosses_survey (s : State) (ls : List UnitLoss) : (logLosses s ls).survey = s.survey :=
  (congrArg State.survey (logLosses_unlogged s ls) :)

/-- A bit that is cleared is 0. -/
@[simp] theorem getLsbD_clearBit {w : Nat} (m : BitVec w) (i : Nat) : (clearBit m i).getLsbD i = false := by
  rw [clearBit, BitVec.getLsbD_and, BitVec.getLsbD_not, BitVec.getLsbD_ofNat, Nat.testBit_two_pow_self]
  by_cases h : i < w <;> simp [h]

/-- A peer port takes the width that is left to it, and one of no lanes is withdrawn. -/
theorem degrade_peerPort (s : State) (m n : Nat) :
    (degrade s [.peerPort m n]).survey.peerLanes = setAt s.survey.peerLanes m n
      ∧ (n = 0 → (degrade s [.peerPort m n]).survey.peerPorts.getLsbD m = false) := by
  rw [degrade_one_survey, ← logLosses_survey s [.peerPort m n]]
  refine ⟨rfl, fun gone => ?_⟩
  simp [applyLoss, gone]

/-- So does a module of the host link. -/
theorem degrade_ucie (s : State) (m n : Nat) :
    (degrade s [.ucie m n]).survey.ucieLanes = setAt s.survey.ucieLanes m n
      ∧ (n = 0 → (degrade s [.ucie m n]).survey.ucie.getLsbD m = false) := by
  rw [degrade_one_survey, ← logLosses_survey s [.ucie m n]]
  refine ⟨rfl, fun gone => ?_⟩
  simp [applyLoss, gone]

/-- A core that is lost is withdrawn, and is no longer among the live ones. -/
theorem degrade_core (s : State) (c : Nat) :
    ((degrade s [.core c]).core c).withdrawn = true ∧ (degrade s [.core c]).survey.liveCores.getLsbD c = false := by
  constructor
  · have cores : (degrade s [.core c]).cores = (withdrawCore (logLosses s [.core c]) c).cores :=
      degrade_cores s (List.cons_ne_nil _ [])
    rw [State.core, cores]
    exact congrArg Core.withdrawn ((State.core_setCore _ c c _).trans (if_pos rfl))
  · rw [degrade_one_survey]
    exact getLsbD_clearBit _ c

/-! ### Corrected errors (R495) -/

/-- A correction counts for its unit. -/
def countCorrected (s : State) (kind number : Nat) : State :=
  s.modDev fun D => { D with
    errors := Tab.put D.errors (errorKey kind number) (Tab.read 0 D.errors (errorKey kind number) + 1) }

/-- In a core, it counts against the core beside those of its span. -/
def countAgainst (s : State) (c : Nat) : State :=
  s.modCore c fun K => { K with
    corrected := s.tick.toNat :: K.corrected.filter fun t => decide (s.tick.toNat < t + correctedSpan) }

/-- What is lost with a correction that counts against a core: the core, once it has come to the limit. -/
def lostCore (K : Core) (c : Nat) : List UnitLoss :=
  if correctedLimit ≤ K.corrected.length ∧ !K.withdrawn then [.core c] else []

theorem noteCorrected_none (s : State) (kind number addr : Nat) :
    noteCorrected s kind number addr none = logRecord (countCorrected s kind number) ⟨0, 0, kind, number, addr, 0⟩ :=
  degrade_nil (logRecord (countCorrected s kind number) ⟨0, 0, kind, number, addr, 0⟩)

/-- The core is then lost, or not, with the degradation that the log's record counts. -/
theorem noteCorrected_some (s : State) (kind number addr c : Nat) {u : State}
    (hu : u = countAgainst (countCorrected s kind number) c) :
    noteCorrected s kind number addr (some c)
      = degrade (logRecord u ⟨0, 0, kind, number, addr, (lostCore (u.core c) c).length⟩) (lostCore (u.core c) c) := by
  subst hu
  rfl

/-- The core's corrections are then one more than those of its span, and it is withdrawn or not as it was. -/
theorem countAgainst_core (s : State) (kind number c : Nat) :
    ((countAgainst (countCorrected s kind number) c).core c).corrected.length
        = ((s.core c).corrected.filter fun t => decide (s.tick.toNat < t + 2 ^ 30)).length + 1
      ∧ ((countAgainst (countCorrected s kind number) c).core c).withdrawn = (s.core c).withdrawn := by
  have counted := (State.core_setCore (countCorrected s kind number) c c
    { (countCorrected s kind number).core c with
      corrected := s.tick.toNat :: (s.core c).corrected.filter fun t => decide (s.tick.toNat < t + 2 ^ 30) }).trans (if_pos rfl)
  exact ⟨congrArg (fun K : Core => K.corrected.length) counted, (congrArg Core.withdrawn counted :)⟩

/-- A corrected error of a core is counted, and one that comes to the limit withdraws it. -/
theorem noteCorrected_core (s : State) (kind number addr c : Nat) {n : Nat}
    (hn : n = ((s.core c).corrected.filter fun t => decide (s.tick.toNat < t + 2 ^ 30)).length) {t : State}
    (ht : t = noteCorrected s kind number addr (some c)) :
    Tab.read 0 t.dev.errors (errorKey kind number) = Tab.read 0 s.dev.errors (errorKey kind number) + 1
      ∧ (n < 255 → t.dev.rmver = s.dev.rmver)
      ∧ (255 ≤ n → (s.core c).withdrawn = false → t.dev.rmver = s.dev.rmver + 1 ∧ (t.core c).withdrawn = true
          ∧ t.survey.liveCores.getLsbD c = false) := by
  obtain ⟨count, same⟩ := countAgainst_core s kind number c
  subst ht
  rw [noteCorrected_some s kind number addr c rfl, lostCore, count, same, ← hn]
  refine ⟨?_, fun few => ?_, fun many live => ?_⟩
  · rw [degrade_errors, logRecord_errors]
    exact congrArg (fun x : Option Nat => x.getD 0) (Tab.find_put_same _ _ _)
  · rw [if_neg (by unfold correctedLimit; omega), degrade_nil, logRecord_rmver]
    rfl
  · rw [if_pos ⟨by unfold correctedLimit; omega, by rw [live]; rfl⟩]
    refine ⟨?_, degrade_core _ c⟩
    rw [degrade_one_rmver, logRecord_rmver]
    rfl

/-! ### Uncorrectable errors (Table 22-6) -/

/-- One in the state of a block that lives kills it. -/
theorem execUncorrectableError_kills {s : State} {b : Nat} {p : ErrPlace}
    (h : p = .window b ∨ p = .accumulator b ∨ ∃ w, p = .registers w ∧ (s.warp w).blk = some b)
    (placed : (s.blk b).placed = true) (live : (s.blk b).state ≠ .retired) :
    ∃ t, execUncorrectableError p s = .next t ∧ (t.blk b).state = .retired ∧ (t.blk b).killed = true := by
  have dead : ∀ e, ((killByError (logRecord s e) (.blk b)).blk b).state = .retired
      ∧ ((killByError (logRecord s e) (.blk b)).blk b).killed = true := by
    intro e
    have same : (logRecord s e).blk b = s.blk b := by rw [State.blk, logRecord_blocks, State.blk]
    exact blk_of_fates (killByError_fate (by rw [same]; exact placed) (by rw [same]; exact live))
  rcases h with rfl | rfl | ⟨w, rfl, hw⟩
  · exact ⟨_, rfl, dead _⟩
  · exact ⟨_, rfl, dead _⟩
  · have owner : ownerOf w (s.warp w) = .blk b := by rw [ownerOf, hw]
    refine ⟨_, rfl, ?_⟩
    rw [owner]
    exact dead _

/-- One in a line that nothing else holds poisons it. -/
theorem execUncorrectableError_poisons {s : State} {line kind number : Nat} {p : ErrPlace}
    (h : p = .dirtyLine line ∧ kind = unitL2 ∧ number = homeDie (64 * line)
      ∨ p = .nearPinned line ∧ kind = unitNear ∧ number = homeDie (64 * line)
      ∨ (p = .farLine line ∨ ∃ k, p = .farLink line k ∧ 8 < k) ∧ kind = unitFar ∧ number = 64 * line / 256 % 48) :
    execUncorrectableError p s = .next (poisonLine s line kind number) := by
  rcases h with ⟨rfl, rfl, rfl⟩ | ⟨rfl, rfl, rfl⟩ | ⟨rfl | ⟨k, rfl, tried⟩, rfl, rfl⟩
  · rfl
  · rfl
  · rfl
  · exact if_neg (Nat.not_le.2 tried)

/-- Wherever it is, the machine goes on. -/
theorem execUncorrectableError_next (p : ErrPlace) (s : State) : ∃ t, execUncorrectableError p s = .next t := by
  cases p with
  | farLink line retries =>
    unfold execUncorrectableError
    simp only
    split
    · exact ⟨_, rfl⟩
    · exact ⟨_, rfl⟩
  | registers w | window b | accumulator b | saved o | l1 core line | cleanLine line | dirtyLine line | nearPinned line
  | farLine line => exact ⟨_, rfl⟩

/-! ### The host link and peer ports (R396, R497, R499) -/

/-- What each entry of a table becomes is found under its key. -/
theorem Tab.find_map {α : Type} (f : α → α) (k : Nat) : ∀ t : Tab α,
    Tab.find (t.map fun e => (e.1, f e.2)) k = (Tab.find t k).map f
  | [] => rfl
  | e :: t => by
    simp only [List.map_cons, Tab.find]
    split
    · rfl
    · split
      · rfl
      · exact Tab.find_map f k t

/-- A context that is not FREE takes the code, and is STOPPED or on its way there. -/
theorem stopFor_stops {C : Ctx} (h : C.state ≠ .free) (code : Nat) :
    (stopFor code C).event = eventWith C.event code 0 ∧ ((stopFor code C).state = .stopped ∨ (stopFor code C).stopping = true) := by
  rw [stopFor, if_neg h]
  refine ⟨rfl, ?_⟩
  by_cases stopped : C.state = .stopped
  · exact .inl stopped
  · exact .inr (by simp [stopped])

/-- A failed integrity check stops every context and the link. -/
theorem execIdeIntegrityFail_stops {s : State} (on : s.dev.ideActive = true) :
    ∃ t, execIdeIntegrityFail s = .next t ∧ t.dev.ideActive = false
      ∧ ∀ c C, Tab.find s.ctxs c = some C → C.state ≠ .free → (t.ctx c).event = eventWith C.event 0x0706 0
        ∧ ((t.ctx c).state = .stopped ∨ (t.ctx c).stopping = true) := by
  rw [execIdeIntegrityFail, if_neg (by rw [on]; exact Bool.false_ne_true)]
  refine ⟨_, rfl, rfl, fun c C found used => ?_⟩
  have stopped : ∀ t : State, t.ctxs = s.ctxs.map (fun e => (e.1, stopFor codeSecurity e.2)) → t.ctx c = stopFor codeSecurity C := by
    intro t h
    rw [State.ctx, h, Tab.find_map, found]
    rfl
  rw [stopped _ (by rw [logRecord_ctxs])]
  exact stopFor_stops used codeSecurity

/-- IDE becomes active on a link that has power, and the records that were kept go to their ring. -/
theorem execIdeEstablished_powered {s : State} (io : islandOn s 26 = true) (link : islandOn s 30 = true) :
    execIdeEstablished s = .next (drainKept (s.modDev fun D => { D with ideActive := true })) := by
  rw [execIdeEstablished, io, link]
  rfl

/-- A flit that fails its check withdraws its port. -/
theorem execPeerFlitAuthFail_withdraws {s : State} {port : Nat} (up : s.survey.peerPorts.getLsbD port = true) :
    ∃ t, execPeerFlitAuthFail port s = .next t ∧ t.dev.rmver = s.dev.rmver + 1 ∧ t.survey.peerPorts.getLsbD port = false := by
  rw [execPeerFlitAuthFail, if_neg (by rw [up]; exact Bool.false_ne_true)]
  refine ⟨_, rfl, ?_, (degrade_peerPort _ port 0).2 rfl⟩
  rw [degrade_one_rmver, logRecord_rmver]

/-! ### Accesses of the host (R142) -/

section
variable {s : State} {key : Option (BitVec 512)} {a n : Nat}

/-- A read of bytes that hold no poison answers with their value. -/
theorem busAccess_read (clean : onPoison s a n = false) :
    busAccess s key a (.read n) = answer s (leNat (readPhys s key a n)) :=
  if_neg (by rw [busSize, clean]; exact Bool.false_ne_true)

/-- A read of poisoned bytes gives its issuer poison. -/
theorem busAccess_read_poisoned (dirty : onPoison s a n = true) : (busAccess s key a (.read n)).hostPoison = true := by
  have noted : busAccess s key a (.read n) = noData s true (.read n) := if_pos dirty
  rw [noted]
  rfl

end

section
variable {s : State} {win off : Nat} {acc : BusAccess} {x : MemWin}

/-- An access to near or host memory through a window is performed there. -/
theorem windowAccess_near (hx : s.dev.memwin[win]? = some x) (ide : s.dev.ideActive = true)
    (fits : off + busSize acc ≤ x.size.toNat) (ok : physOk s (x.base.toNat + off) (busSize acc) = true)
    (near : isFar (x.base.toNat + off) = false) :
    windowAccess win off acc s = busAccess s none (x.base.toNat + off) acc := by
  simp only [windowAccess, hx, ide, ok, near, decide_eq_false (Nat.not_lt.2 fits), Bool.not_true, Bool.or_false,
    Bool.false_eq_true, if_false]

/-- One to far memory is performed under the key that the window names. -/
theorem windowAccess_far {k : BitVec 512} (hx : s.dev.memwin[win]? = some x) (ide : s.dev.ideActive = true)
    (fits : off + busSize acc ≤ x.size.toNat) (ok : physOk s (x.base.toNat + off) (busSize acc) = true)
    (far : isFar (x.base.toNat + off) = true) (hk : Tab.find s.keys x.key.toNat = some k) :
    windowAccess win off acc s = busAccess s (some k) (x.base.toNat + off) acc := by
  simp only [windowAccess, hx, ide, ok, far, hk, decide_eq_false (Nat.not_lt.2 fits), Bool.not_true, Bool.or_false,
    Bool.false_eq_true, if_false, if_true]

/-- One that the link does not carry, or that does not fit its window, does nothing. -/
theorem windowAccess_refused (hx : s.dev.memwin[win]? = some x)
    (h : s.dev.ideActive = false ∨ x.size.toNat < off + busSize acc) : windowAccess win off acc s = s := by
  simp only [windowAccess, hx]
  refine if_pos ?_
  rcases h with down | beyond
  · simp [down]
  · simp [beyond]

end

section
variable {s : State} {off : Nat} (first : isHost (hostBase + off) = true)
include first

/-- The host reads its own memory where it stands. -/
theorem ownAccess_read {n : Nat} (last : isHost (hostBase + off + n - 1) = true)
    (clean : onPoison s (hostBase + off) n = false) :
    ownAccess off (.read n) s = answer s (leNat (readPhys s none (hostBase + off) n)) := by
  simp only [ownAccess, busSize, first, last, Bool.and_self, if_true, busAccess_read clean]
  rfl

/-- It writes there, and takes the lines that it writes from their home L2. -/
theorem ownAccess_write {bs : List Byte} (last : isHost (hostBase + off + bs.length - 1) = true) :
    ownAccess off (.write bs) s = { writePhys s none none (wholeBytes (hostBase + off) bs) with
      hostLines := s.hostLines.filter fun e => !overlaps (64 * e.1) 64 (hostBase + off) bs.length } := by
  simp only [ownAccess, busSize, first, last, Bool.and_self, if_true]
  rfl

end

/-! ### Accesses of peers (R403) -/

section
variable {s : State} {port addr : Nat} {acc : BusAccess}
variable (up : s.survey.peerPorts.getLsbD port = true) (size : busSize acc ∈ [1, 2, 4, 8, 16])
  (aligned : addr % busSize acc = 0)
include up size aligned

/-- Without a context for its port, an inbound access is refused. -/
theorem execPeerInboundAccess_refused (hc : inboundCtx s port = none) :
    execPeerInboundAccess port addr acc s = .next (answer s codePeer) := by
  simp only [execPeerInboundAccess, up, List.contains_iff_mem.2 size, aligned, hc, bne_self_eq_false, Bool.not_true,
    Bool.or_false, Bool.false_eq_true, if_false]

/-- With one, it is performed at the place that its leaf gives. -/
theorem execPeerInboundAccess_at {c l e : Nat} {s1 : State} {p : Place} (hc : inboundCtx s port = some c)
    (ht : translate s (.die 0) c addr = (.ok (l, e), s1))
    (allowed : leafCheck .glob addr (busSize acc) (busKind acc) false e = none)
    (hp : p = leafPlace l e (addr % 2 ^ 56) false) (key : p.keyMissing s1 = false) (link : linkDown s1 p = false) :
    execPeerInboundAccess port addr acc s = .next (inboundAt s1 p acc) := by
  subst hp
  simp only [execPeerInboundAccess, up, List.contains_iff_mem.2 size, aligned, hc, ht, allowed, key, link, bne_self_eq_false,
    Bool.not_true, Bool.or_false, Bool.false_eq_true, if_false]

end

/-- A read of an element that holds no poison answers with its value. -/
theorem inboundAt_read {s : State} {p : Place} {n : Nat} (clean : poisoned s p n = false) :
    inboundAt s p (.read n)
      = answer (holdHost s 1 (p.data n 0)) ((elemFrom (readPhys s (p.keyOf s)) p n).copies.headD 0) :=
  if_neg (by rw [busSize, clean]; exact Bool.false_ne_true)

/-! ### Snoops (R141) -/

section
variable {s : State} {addr : Nat} (ide : s.dev.ideActive = true) (held : (Tab.find s.hostLines (addr / 64)).isSome = true)
include ide held

/-- A snoop of a line that a home L2 holds finds it where the link carries it. -/
theorem snoop_acts : ¬ (!s.dev.ideActive || (Tab.find s.hostLines (addr / 64)).isNone) = true := by
  rw [ide, Option.isNone_eq_false_iff.2 held]
  exact Bool.false_ne_true

/-- Data asked of it leaves it shared. -/
theorem execHostSnoop_data :
    execHostSnoop addr .data s = .next { s with hostLines := Tab.put s.hostLines (addr / 64) 1 } :=
  if_neg (snoop_acts ide held)

/-- An invalidation takes it from its home L2. -/
theorem execHostSnoop_invalidate :
    execHostSnoop addr .invalidate s = .next { s with hostLines := Tab.drop s.hostLines (addr / 64) } :=
  if_neg (snoop_acts ide held)

end

/-- Settles O53: errors by what a degradation leaves and the fate of a killed block, links by the losses that the Survey takes, and
accesses from outside by the place at which they are performed. -/
theorem errorsLinksAndBus : Obligations.ErrorsLinksAndBus := by
  unfold Obligations.ErrorsLinksAndBus
  refine ⟨?corrected, ?correctedCore, fun s b p h => execUncorrectableError_kills h, ?poison, execUncorrectableError_next,
    fun s => execIdeIntegrityFail_stops, fun s => execIdeEstablished_powered, fun s port => execPeerFlitAuthFail_withdraws,
    fun s m n => ⟨_, rfl, degrade_one_rmver s _, degrade_ucie s m n⟩,
    fun s m n => ⟨_, rfl, degrade_one_rmver s _, degrade_peerPort s m n⟩, ?near, ?far, ?refused, ?own, ?inbound, ?peer, ?snoop⟩
  case corrected =>
    intro s u device
    show Host.Outcome.next (noteCorrected s u.kind u.number u.addr u.core) = _
    rw [device, noteCorrected_none]
    rfl
  case correctedCore =>
    intro s u c core n hn
    refine ⟨_, rfl, noteCorrected_core s u.kind u.number u.addr c hn ?_⟩
    rw [core]
  case poison =>
    intro s line p kind number h
    exact execUncorrectableError_poisons h
  case near =>
    intro s win off n x a hx ide fits ha ok near
    subst ha
    have read := windowAccess_near (acc := .read n) hx ide fits ok near
    refine ⟨fun clean => ?_, fun dirty => ⟨_, congrArg Host.Outcome.next read, busAccess_read_poisoned dirty⟩, ?_⟩
    · exact congrArg Host.Outcome.next (read.trans (busAccess_read clean))
    · rintro bs rfl
      exact congrArg Host.Outcome.next (windowAccess_near (acc := .write bs) hx ide fits ok near)
  case far =>
    intro s win off n x a k hx ide fits ha ok far hk
    subst ha
    refine ⟨fun clean => ?_, ?_⟩
    · exact congrArg Host.Outcome.next
        ((windowAccess_far (acc := .read n) hx ide fits ok far hk).trans (busAccess_read clean))
    · rintro bs rfl
      exact congrArg Host.Outcome.next (windowAccess_far (acc := .write bs) hx ide fits ok far hk)
  case refused =>
    intro s win off acc x hx h
    exact congrArg Host.Outcome.next (windowAccess_refused hx h)
  case own =>
    intro s off n a ha first last
    subst ha
    refine ⟨fun clean => ?_, ?_⟩
    · exact congrArg Host.Outcome.next (ownAccess_read first last clean)
    · rintro bs rfl
      exact congrArg Host.Outcome.next (ownAccess_write first last)
  case inbound =>
    intro s port off v
    have byte : leNat [v] % 256 = v.toNat := by
      have := v.isLt
      simp only [leNat]
      omega
    show Host.Outcome.next (s.modDev fun D => { D with inboundAsid := setAt D.inboundAsid port (leNat [v] % 256) }) = _
    rw [byte]
  case peer =>
    intro s port addr n up size aligned
    refine ⟨fun hc => execPeerInboundAccess_refused (acc := .read n) up size aligned hc, ?_⟩
    intro c l e s1 hc ht readable p hp key link
    refine ⟨fun clean => ?_, ?_⟩
    · refine (execPeerInboundAccess_at (acc := .read n) up size aligned hc ht readable hp key link).trans ?_
      rw [inboundAt_read clean]
      rfl
    · rintro bs rfl writable
      exact execPeerInboundAccess_at (acc := .write bs) up size aligned hc ht writable hp key link
  case snoop =>
    intro s addr ide held
    exact ⟨execHostSnoop_data ide held, execHostSnoop_invalidate ide held⟩

end Sys2Proof.Machine
end

section
/-! SUPPORT. What a load and a future of a fibre alone leave once their element is read; and the statement about loads that follows
from these. -/
namespace Sys2Proof.Machine

/-! ### Loads and futures that are read (R255, R265) -/

/-- Lanes changed alike, whatever their sibling numbers, are changed one by one. -/
theorem mapLanes_const (f : Fibre) (g : Lane → Lane) : mapLanes f (fun _ l => g l) = f.lanes.map g :=
  (List.map_map (f := Prod.fst) (g := g)).symm.trans (congrArg (List.map g) (List.zipIdx_map_fst 0 f.lanes))

section
variable {s s1 s2 : State} {e : LaneEnv} {f : Fibre} {seg : Seg} {a : Reg} {v w : Nat} {p : Place} {el : Elem}

/-- A load whose element is located and read completes: what it read waits in the warp's loads, and an acquiring one gives up
older copies. -/
theorem laneLoad_read {ty : MTy} {off : Nat} (t : Reg) {acq : Option Scope} (ha : addrValue seg a f .read = .ok v)
    (hl : locate s e.warp f.tid.toNat seg v (off * ty.size) ty.size .read false = (.ok p, s1))
    (he : loadElem s1 w (fromL1 s1 e.warp.core f acq) p ty.size p.va = (.ok el, s2)) {u : State}
    (hu : u = acquireFor (addLoad s2 w (some f.slot) (regWrites t.toNat ty.regs
      ((siblingValues e.three p ty.fmt el).map ty.extend))) e.warp.core f acq) :
    laneLoad w ty seg off t a acq s e f = (LaneAct.ok e f f.lanes, u) := by
  subst hu
  simp only [laneLoad, ha, hl, he]

/-- A full future is read at once, without its bit 63. -/
theorem laneLdf_full (sc : Scope) (d : Reg) (ha : addrValue seg a f .read = .ok v)
    (hl : locate s e.warp f.tid.toNat seg v 0 8 .read true = (.ok p, s1))
    (he : loadElem s1 w false p 8 p.va = (.ok el, s2)) (full : 2 ^ 63 ≤ el.copies.headD 0)
    {u : State} (hu : u = acquire s2 e.warp.core sc) :
    laneLdf w sc seg d a s e f
      = (LaneAct.ok e f (f.lanes.map fun l => l.setPair d.toNat (el.copies.headD 0 - 2 ^ 63)), u) := by
  subst hu
  simp only [laneLdf, ha, hl, he, if_neg (Nat.not_lt.2 full), mapLanes_const]

end

/-- Removing an element of a list is the library's. -/
theorem dropAt_eq_eraseIdx {α : Type} : ∀ (l : List α) (n : Nat), dropAt l n = l.eraseIdx n
  | [], _ => rfl
  | _ :: _, 0 => rfl
  | x :: l, n + 1 => congrArg (x :: ·) (dropAt_eq_eraseIdx l n)

/-- A change of a warp is what it makes of the warp as it is. -/
theorem State.modWarp_congr {s : State} {w : Nat} {g h : Warp → Warp} (same : g (s.warp w) = h (s.warp w)) :
    s.modWarp w g = s.modWarp w h := by
  unfold State.modWarp Tab.modify
  cases found : Tab.find s.warps w with
  | none => rfl
  | some W =>
    have here : s.warp w = W := by simp only [State.warp, found, Option.getD_some]
    rw [here] at same
    simp only [same]

/-- A load in flight that returns is applied to its warp, and is in flight no more. -/
theorem execLoadDataReturn_applies {s : State} {w idx : Nat} {p : PendingLoad} (h : (s.warp w).loads[idx]? = some p) :
    execLoadDataReturn w idx s
      = .next (s.modWarp w fun W => { applyLoad W p with loads := W.loads.eraseIdx idx }) := by
  refine congrArg Host.Outcome.next (State.modWarp_congr ?_)
  simp only [h, dropAt_eq_eraseIdx]

/-- Settles O17: a load and a future of one fibre complete as what they read, and their acquires, leave the state; a load that
returns is applied to its warp. -/
theorem loads : Obligations.Loads := by
  unfold Obligations.Loads
  refine ⟨?_, ?_, ?_, fun w idx s p => execLoadDataReturn_applies⟩
  · intro x ty seg off t a s c f v p el s1 s2 h hu ha hl he u hread nt
    refine aloneEnds_of_laneFold (free := false) (act := laneLoad (curWarp s) ty seg off.toNat t a none) h hu rfl ?_ nt
    rw [h.curWarp]
    refine laneLoad_read (e := laneEnv s c x) (acq := none) t ha hl ?_ hread
    exact (congrArg (loadElem s1 c.warp · p ty.size p.va) (Bool.and_true _)).trans he
  · intro x ty sc seg off t a s c f v p el s1 s2 h hu ha hl he u hread nt
    refine aloneEnds_of_laneFold (free := false) (act := laneLoad (curWarp s) ty seg off.toNat t a (some sc)) h hu rfl ?_ nt
    rw [h.curWarp]
    exact laneLoad_read (e := laneEnv s c x) (acq := some sc) t ha hl he hread
  · intro x sc seg d a s c f v p el s1 s2 h hu ha hl he full u acq nt
    refine aloneEnds_of_laneFold (free := false) (act := laneLdf (curWarp s) sc seg d a) h hu rfl ?_ nt
    rw [h.curWarp]
    exact laneLdf_full (e := laneEnv s c x) sc d ha hl he full acq

end Sys2Proof.Machine
end

section
/-! SUPPORT. What an event of a copy engine's command comes to once its checks are met: its beginning, the landing of a piece, and
its completion; and the statement about copy commands that follows from these. -/
namespace Sys2Proof.Machine

/-! ### Beginning (R263, R409, R489) -/

section
variable {s : State} {b n : Nat} {k : CopyCmd} (found : (s.blk b).carter.cmds.find? (fun c => c.n == n) = some k)
include found

/-- A command begins when its block's engines run or the block has retired, no command of its context has faulted, every earlier one
has begun, and no comparator holds it back. -/
theorem execCopyCommandStart_begins (waits : k.started = false)
    (runs : (engineRuns s b || (s.blk b).state == .retired) = true)
    (sound : ∀ x ∈ (s.blk b).carter.cmds, x.fault = none)
    (turn : ∀ x ∈ (s.blk b).carter.cmds, x.n < n → x.started = true)
    (free : sequenceHolds s b 2 (n - 1) (s.blk b).carter.timeline = false) :
    execCopyCommandStart b n s = .next (startCopy s b k) := by
  have own : k.fault = none := sound k (List.mem_of_find?_eq_some found)
  have faults : (s.blk b).carter.cmds.any (fun x => x.fault.isSome) = false := by
    simpa using sound
  have earlier : (s.blk b).carter.cmds.any (fun x => decide (x.n < n) && !x.started) = false := by
    simpa using turn
  simp only [execCopyCommandStart, found, waits, own, runs, faults, earlier, free, Option.isSome_none, Bool.not_true,
    Bool.or_self, Bool.false_eq_true, if_false]

end

section
variable {s : State} {b : Nat} {k : CopyCmd} {r : CopyRec} (hr : r = CopyRec.ofBytes k.record)
include hr

/-- A flat command whose record keeps the rules, and whose source nothing is still to write, has its pieces in flight. -/
theorem startCopy_flat (ok : r.ok (s.blk b).teamSize = true) (flat : r.layout = false)
    (ready : sourceAfter s b k none = false) :
    startCopy s b k = modCopy s b k.n fun c =>
      { c with started := true, lays := none, pieces := piecesFor (r.len / 16) r.members } := by
  subst hr
  simp only [startCopy, ok, flat, ready, Bool.not_true, Bool.not_false, Bool.false_eq_true, if_false, if_true]

/-- One whose record does not keep them is an engine fault. -/
theorem startCopy_refused (bad : r.ok (s.blk b).teamSize = false) :
    startCopy s b k = copyFail s b k codeCopyRecord k.recAddr .read := by
  subst hr
  simp only [startCopy, bad, Bool.not_false, if_true]

end

/-! ### Landing (R163, R261) -/

/-- A piece of a command that may move bytes lands once it is read and written. -/
theorem carterLand_lands {s s1 s2 : State} {b n idx : Nat} {k : CopyCmd} {p : Piece} {dst : Place} {size : Nat}
    {ws : List MByte} (found : (s.blk b).carter.cmds.find? (fun c => c.n == n) = some k) (begun : k.started = true)
    (sound : k.fault = none) (below : atCap s (s.blk b).ctx .carter (s.blk b).core = false)
    (first : carterRival s b = false) (piece : k.pieces[idx]? = some p)
    (read : copyPiece s b k p = (.ok (dst, size, ws), s1)) (written : copyWrite s1 b k dst size ws = .ok s2) :
    carterLand s b n idx = landPiece s2 b k idx dst ws := by
  simp only [carterLand, found, begun, sound, below, first, piece, read, written, Option.isSome_none, Bool.not_true,
    Bool.or_self, Bool.false_eq_true, if_false]

/-- So does a piece of a `cpa` of a warp that is still there, and counts for no barrier where it names none. -/
theorem cpaLand_lands {s s1 s2 : State} {w idx : Nat} {W : Warp} {p : CpaPiece} {bs : List Byte}
    (warp : Tab.find s.warps w = some W) (free : W.heldStores = false) (piece : W.cpas[idx]? = some p) (bar : p.bar = none)
    (link : linkCheck s p.src 16 .read = (none, s1)) (up : linkDown s1 p.src = false)
    (budget : budgetHeld s1 W.ctx p.src false = false) (read : stagedBytes s1 p.dstBlk p.src 16 = .ok (bs, s2)) :
    cpaLand s w idx = dropCpa (writePlace (chargeBytes s2 W.ctx p.src 16 false) W.core p.dst
      (wholeBytes (p.dst.data 16 0) bs)) w idx p := by
  have stands : cpaAt s w idx = some (p, W, false) := by
    simp only [cpaAt, warp, piece, free, Option.map_some]
  simp only [cpaLand, stands, link, up, budget, read, bar, Bool.or_self, Bool.false_eq_true, if_false]

/-! ### Completion (R165, R167) -/

section
variable {s : State} {b n : Nat} {k : CopyCmd} (found : (s.blk b).carter.cmds.find? (fun c => c.n == n) = some k)
  (begun : k.started = true) (sound : k.fault = none) (landed : k.pieces = []) {r : CopyRec}
  (hr : r = CopyRec.ofBytes k.record)
include found begun sound landed hr

/-- A command with no piece left and no stamp completes. -/
theorem completeCopy_unstamped (plain : r.stamp = false) : completeCopy s b n = finishCopy s b k := by
  subst hr
  simp only [completeCopy, found, begun, sound, landed, plain, Option.isSome_none, Bool.not_true, Bool.or_self, ne_eq,
    not_true_eq_false, decide_false, Bool.false_eq_true, if_false]

/-- One with a stamp completes from the state in which it is written. -/
theorem completeCopy_stamped {u v : State} (stamp : r.stamp = true) (written : copyStamp s b k r = (.ok u, v)) :
    completeCopy s b n = finishCopy u b k := by
  subst hr
  simp only [completeCopy, found, begun, sound, landed, stamp, written, Option.isSome_none, Bool.not_true, Bool.or_self, ne_eq,
    not_true_eq_false, decide_false, Bool.false_eq_true, if_false, if_true]

end

/-- Settles O44: each event of a command by the lemma that says what it comes to once its checks are met. -/
theorem copyEngine : Obligations.CopyEngine := by
  unfold Obligations.CopyEngine
  refine ⟨?start, ?land, ?piece, ?complete⟩
  case start =>
    intro b n s k found waits runs sound turn free r hr
    have begins := execCopyCommandStart_begins found waits runs sound turn free
    exact ⟨fun ok flat ready => begins.trans (congrArg _ (startCopy_flat hr ok flat ready)),
      fun bad => begins.trans (congrArg _ (startCopy_refused hr bad))⟩
  case land =>
    intro b n idx s k p dst size ws s1 s2 found begun sound below first piece read written
    exact congrArg _ (carterLand_lands found begun sound below first piece read written)
  case piece =>
    intro w idx s W p s1 bs s2 warp free piece bar link up budget read
    exact congrArg _ (cpaLand_lands warp free piece bar link up budget read)
  case complete =>
    intro b n s k found begun sound landed r hr
    exact ⟨fun plain => congrArg _ (completeCopy_unstamped found begun sound landed hr plain),
      fun u v stamp written => congrArg _ (completeCopy_stamped found begun sound landed hr stamp written)⟩

end Sys2Proof.Machine
end

section
/-! SUPPORT. What the completion of a Foreman command makes of its context, of the timeline and of the flags of its block's warps:
nothing else that follows from a completion touches a context or a warp's flags. -/
namespace Sys2Proof.Machine

/-! ### Foreman contexts and the flags of warps -/

/-- From s to t, every block's Foreman context has stayed as it was, and every warp of t is one of s, of the same block and with the
same IEEE flags. -/
structure KeepsForemen (s t : State) : Prop where
  fm : ∀ b, (t.blk b).fm = (s.blk b).fm
  warps : ∀ e ∈ t.warps, ∃ d ∈ s.warps, d.1 = e.1 ∧ d.2.blk = e.2.blk ∧ d.2.fpflags = e.2.fpflags

theorem KeepsForemen.of_eq {s t : State} (blocks : t.blocks = s.blocks) (warps : t.warps = s.warps) : KeepsForemen s t :=
  ⟨fun b => by unfold State.blk; rw [blocks], fun e he => ⟨e, warps ▸ he, rfl, rfl, rfl⟩⟩

theorem KeepsForemen.refl (s : State) : KeepsForemen s s := .of_eq rfl rfl

theorem KeepsForemen.trans {s t u : State} (h : KeepsForemen s t) (g : KeepsForemen t u) : KeepsForemen s u where
  fm b := (g.fm b).trans (h.fm b)
  warps e he := by
    obtain ⟨d, hd, key, blk, flags⟩ := g.warps e he
    obtain ⟨c, hc, key', blk', flags'⟩ := h.warps d hd
    exact ⟨c, hc, key'.trans key, blk'.trans blk, flags'.trans flags⟩

/-- So does every step of a fold that keeps them. -/
theorem KeepsForemen.foldl {α : Type} {g : State → α → State} (keeps : ∀ s x, KeepsForemen s (g s x)) (l : List α)
    (s : State) : KeepsForemen s (l.foldl g s) :=
  List.foldlRecOn (motive := KeepsForemen s) l g (.refl s) fun t h x _ => h.trans (keeps t x)

/-! ### What leaves contexts and flags alone -/

/-- Block b changed, where it exists: each field that the change leaves alone is as it was. -/
theorem State.blk_modBlk_field {α : Type} (s : State) (b c : Nat) {g : Block → Block} (x : Block → α)
    (keeps : ∀ B, x (g B) = x B) : x ((s.modBlk b g).blk c) = x (s.blk c) := by
  unfold State.blk State.modBlk
  simp only [Tab.find_modify]
  split
  · rename_i h
    subst h
    cases Tab.find s.blocks c with
    | none => rfl
    | some B => exact keeps B
  · rfl

theorem modBlk_keepsForemen (s : State) (b : Nat) {g : Block → Block} (keeps : ∀ B, (g B).fm = B.fm) :
    KeepsForemen s (s.modBlk b g) :=
  ⟨fun c => s.blk_modBlk_field b c Block.fm keeps, fun e he => ⟨e, he, rfl, rfl, rfl⟩⟩

theorem mapBlks_keepsForemen (s : State) {g : Block → Block} (keeps : ∀ B, (g B).fm = B.fm) :
    KeepsForemen s (s.mapBlks fun _ => g) where
  fm b := by
    unfold State.blk State.mapBlks
    simp only [Tab.find_map]
    cases Tab.find s.blocks b with
    | none => rfl
    | some B => exact keeps B
  warps e he := ⟨e, he, rfl, rfl, rfl⟩

theorem mapWarps_keepsForemen (s : State) {g : Warp → Warp} (keeps : ∀ W, (g W).blk = W.blk ∧ (g W).fpflags = W.fpflags) :
    KeepsForemen s (s.mapWarps fun _ => g) where
  fm _ := rfl
  warps e he := by
    obtain ⟨d, hd, rfl⟩ := List.mem_map.1 he
    exact ⟨d, hd, rfl, (keeps d.2).1.symm, (keeps d.2).2.symm⟩

theorem modCore_keepsForemen (s : State) (c : Nat) (g : Core → Core) : KeepsForemen s (s.modCore c g) := .of_eq rfl rfl
theorem modCtx_keepsForemen (s : State) (c : Nat) (g : Ctx → Ctx) : KeepsForemen s (s.modCtx c g) := .of_eq rfl rfl
theorem mem_keepsForemen (s : State) (m : List Host.Cell) : KeepsForemen s { s with mem := m } := .of_eq rfl rfl

theorem wakeMonitors_keepsForemen (s : State) (sram : Option Nat) (ws : List MByte) :
    KeepsForemen s (wakeMonitors s sram ws) :=
  mapWarps_keepsForemen s fun W => by
    split
    · exact ⟨rfl, rfl⟩
    · split <;> exact ⟨rfl, rfl⟩

theorem dropLine_keepsForemen (s : State) (core line : Nat) : KeepsForemen s (dropLine s core line) := by
  unfold dropLine
  simp only
  split
  · exact .of_eq rfl rfl
  · exact .refl s

theorem adoptKey_keepsForemen (s : State) (key : Option (BitVec 512)) (a : Nat) : KeepsForemen s (adoptKey s key a) := by
  unfold adoptKey
  split
  · exact .refl s
  · simp only
    split
    · split
      · exact .of_eq rfl rfl
      · split
        · exact .refl s
        · exact .of_eq rfl rfl
    · exact .refl s

theorem clearPoison_keepsForemen (s : State) (ws : List MByte) : KeepsForemen s (clearPoison s ws) := by
  unfold clearPoison
  split
  · exact .refl s
  · exact .of_eq rfl rfl

theorem holdHost_keepsForemen (s : State) (v a : Nat) : KeepsForemen s (holdHost s v a) := by
  unfold holdHost
  split
  · exact .of_eq rfl rfl
  · exact .refl s

/-- A write to physical memory wakes monitors, and leaves contexts and flags alone. -/
theorem writePhys_keepsForemen (s : State) (core : Option Nat) (key : Option (BitVec 512)) (ws : List MByte) :
    KeepsForemen s (writePhys s core key ws) := by
  have adopted : KeepsForemen s (ws.foldl (fun s b => adoptKey s key b.addr) s) :=
    .foldl (fun u (b : MByte) => adoptKey_keepsForemen u key b.addr) ws s
  have put := adopted.trans
    (mem_keepsForemen _ (ws.foldl writeMasked (ws.foldl (fun s b => adoptKey s key b.addr) s).mem))
  have stored := (put.trans (clearPoison_keepsForemen _ ws)).trans (wakeMonitors_keepsForemen _ none ws)
  have held : ∀ u, KeepsForemen u (match ws with | b :: _ => holdHost u 2 b.addr | [] => u) := by
    intro u
    cases ws with
    | nil => exact .refl u
    | cons b _ => exact holdHost_keepsForemen u 2 b.addr
  cases core with
  | none => exact stored.trans (held _)
  | some c => exact (stored.trans (held _)).trans (KeepsForemen.foldl (fun u l => dropLine_keepsForemen u c l) _ _)

theorem landCore_keepsForemen (s : State) (core : Nat) : KeepsForemen s (landCore s core) := by
  unfold landCore
  simp only
  split
  · exact .refl s
  · exact (modCore_keepsForemen s core _).trans
      (.foldl (fun u (y : Passing) => writePhys_keepsForemen u (some core) y.key y.op.writes) _ _)

theorem refuse_keepsForemen (before : State) (core : Nat) (s : State) : KeepsForemen s (refuse before core s) := by
  unfold refuse
  simp only
  split
  · exact .refl s
  · exact .foldl (fun u c => (landCore_keepsForemen u c).trans (modCore_keepsForemen _ c _)) _ s

/-! ### Halts (R411, R412) -/

theorem unseat_keepsForemen (s : State) : KeepsForemen s (unseat s) :=
  ⟨fun _ => rfl, fun e he => ⟨e, (List.mem_filter.1 he).1, rfl, rfl, rfl⟩⟩

theorem haltBlocks_keepsForemen (s : State) (which : Block → Bool) : KeepsForemen s (haltBlocks s which) :=
  (mapBlks_keepsForemen s fun B => by split <;> rfl).trans <|
    (unseat_keepsForemen _).trans (.foldl (fun u cl => refuse_keepsForemen s (4 * cl) u) _ _)

theorem haltContext_keepsForemen (s : State) (c : Nat) : KeepsForemen s (haltContext s c) :=
  (modCtx_keepsForemen s c _).trans <|
    (haltBlocks_keepsForemen _ _).trans (mapWarps_keepsForemen _ fun W => by split <;> exact ⟨rfl, rfl⟩)

theorem matchBlock_keepsForemen (s : State) (b idx : Nat) (wide : Bool) (n : Name) :
    KeepsForemen s (matchBlock s b idx wide n) := by
  unfold matchBlock
  simp only
  split
  · exact (haltContext_keepsForemen s _).trans (modCtx_keepsForemen _ _ _)
  · exact (haltBlocks_keepsForemen s _).trans (modCtx_keepsForemen _ _ _)

theorem sequenceMatch_keepsForemen (s : State) (b kind before now : Nat) (passed : List DoneCmd) :
    KeepsForemen s (sequenceMatch s b kind before now passed) := by
  unfold sequenceMatch
  simp only
  split
  · exact .refl s
  · split
    · exact matchBlock_keepsForemen s b _ _ _
    · exact .refl s

/-! ### Accounts (R325, R332, R414) -/

theorem count_keepsForemen (s : State) (c core code n : Nat) : KeepsForemen s (count s c core code n) :=
  .of_eq (count_blocks s c core code n) (congrArg State.warps (count_counters s c core code n).1 :)

theorem countCycles_keepsForemen (s : State) (c core code unit n : Nat) :
    KeepsForemen s (countCycles s c core code unit n) := by
  unfold countCycles
  simp only
  split
  · exact .refl s
  · exact .of_eq rfl rfl

theorem unitCount_keepsForemen (s : State) (core place n : Nat) : KeepsForemen s (unitCount s core place n) := by
  unfold unitCount
  split
  · exact .of_eq rfl rfl
  · exact .refl s

theorem bankStalls_keepsForemen (s : State) (b : Nat) (c : FmCmd) : KeepsForemen s (bankStalls s b c).2 := by
  unfold bankStalls
  split
  · exact .refl s
  · split
    · exact .of_eq rfl rfl
    · exact .refl s

theorem arrayAccount_keepsForemen (s : State) (b : Nat) (c : FmCmd) : KeepsForemen s (arrayAccount s b c) := by
  unfold arrayAccount
  exact (modCore_keepsForemen s _ _).trans <| (countCycles_keepsForemen _ _ _ _ _ _).trans <|
    (unitCount_keepsForemen _ _ _ _).trans <| (bankStalls_keepsForemen _ b c).trans (modBlk_keepsForemen _ b fun _ => rfl)

/-! ### Completion (R165, R351, R353) -/

/-- The timeline of a context of which a command has completed. -/
def Foreman.topAfter (F : Foreman) (c : FmCmd) : Nat :=
  timelineTop F.issued ((F.cmds.filter fun x => x.n != c.n).map (·.n))
/-- Its completed commands that the timeline had not passed. -/
def Foreman.doneWith (F : Foreman) (c : FmCmd) : List DoneCmd := F.above ++ [⟨c.n, cmdScope c.op, c.pc⟩]
/-- Those that it passes now. -/
def Foreman.passedBy (F : Foreman) (c : FmCmd) : List DoneCmd :=
  (F.doneWith c).filter fun d => decide (d.n ≤ F.topAfter c)
/-- Such a context as the completion leaves it: G is as it stands in the block. -/
def Foreman.completed (F : Foreman) (c : FmCmd) (G : Foreman) : Foreman :=
  { G with
    cmds := F.cmds.filter fun x => x.n != c.n
    timeline := F.topAfter c
    above := (F.doneWith c).filter fun d => decide (F.topAfter c < d.n)
    scope := widestScope G.scope (F.passedBy c) }

/-- A context of a block is changed where the block has one. -/
theorem modFm_fm {s : State} {b : Nat} {F : Foreman} (g : Foreman → Foreman) (h : (s.blk b).fm = some F) :
    ((modFm s b g).blk b).fm = some (g F) := by
  cases found : Tab.find s.blocks b with
  | none => simp [State.blk, found, Block.absent] at h
  | some B => rw [modFm, State.blk_modBlk_of s b _ found, h, Option.map_some]

/-- A block whose Foreman stream has not ended does not retire. -/
theorem retireIfDone_running {s : State} {b : Nat} {F : Foreman} (h : (s.blk b).fm = some F) (runs : F.ended = false) :
    retireIfDone s b = s := by
  simp only [retireIfDone, h, runs, Bool.false_and, Bool.and_false, Bool.false_eq_true, if_false]

/-- The state in which a command of a block has given the warps its flags and has left its context. -/
def leftBy (s : State) (b : Nat) (c : FmCmd) (F : Foreman) (fl : Flags) : State :=
  modFm (s.mapWarps fun _ W => if W.blk = some b then W.addFlags fl 0 else W) b (F.completed c)
/-- That state with the command accounted for. -/
def accountedFor (s : State) (b : Nat) (c : FmCmd) (F : Foreman) (fl : Flags) : State :=
  count (if onArray c.op then arrayAccount (leftBy s b c F fl) b c else leftBy s b c F fl) (s.blk b).ctx (s.blk b).core 0x21 1

theorem cmdDone_eq (s : State) (b : Nat) (F : Foreman) (c : FmCmd) (fl : Flags) :
    cmdDone s b F c fl
      = retireIfDone (sequenceMatch (accountedFor s b c F fl) b 3 F.timeline (F.topAfter c) (F.passedBy c)) b := rfl

section
variable {s : State} {b : Nat} {F : Foreman} (c : FmCmd) (fl : Flags)

theorem leftBy_fm (h : (s.blk b).fm = some F) : ((leftBy s b c F fl).blk b).fm = some (F.completed c F) :=
  modFm_fm _ h

theorem accountedFor_keepsForemen : KeepsForemen (leftBy s b c F fl) (accountedFor s b c F fl) := by
  unfold accountedFor
  refine KeepsForemen.trans ?_ (count_keepsForemen _ _ _ 0x21 1)
  split
  · exact arrayAccount_keepsForemen _ b c
  · exact .refl _

/-- Nothing that follows changes contexts or flags while the stream goes on. -/
theorem cmdDone_keepsForemen (h : (s.blk b).fm = some F) (runs : F.ended = false) :
    KeepsForemen (leftBy s b c F fl) (cmdDone s b F c fl) := by
  have matched := (accountedFor_keepsForemen c fl).trans
    (sequenceMatch_keepsForemen (accountedFor s b c F fl) b 3 F.timeline (F.topAfter c) (F.passedBy c))
  rw [cmdDone_eq, retireIfDone_running ((matched.fm b).trans (leftBy_fm c fl h)) runs]
  exact matched

/-- The context without the command, and the timeline that follows. -/
theorem cmdDone_fm (h : (s.blk b).fm = some F) (runs : F.ended = false) :
    ((cmdDone s b F c fl).blk b).fm = some (F.completed c F) :=
  ((cmdDone_keepsForemen c fl h runs).fm b).trans (leftBy_fm c fl h)

/-- Its flags are every warp's of the block. -/
theorem cmdDone_fpflags (h : (s.blk b).fm = some F) (runs : F.ended = false) :
    ∀ e ∈ (cmdDone s b F c fl).warps, e.2.blk = some b →
      ∃ d ∈ s.warps, d.1 = e.1 ∧ d.2.blk = some b ∧ e.2.fpflags = d.2.fpflags ||| fl.setWidth 32 := by
  intro e he own
  obtain ⟨d, hd, key, blk, flags⟩ := (cmdDone_keepsForemen c fl h runs).warps e he
  obtain ⟨x, hx, rfl⟩ := List.mem_map.1 hd
  rw [own] at blk
  have mine : x.2.blk = some b := by
    by_cases here : x.2.blk = some b
    · exact here
    · simpa only [if_neg here] using blk
  refine ⟨x, hx, key, mine, flags.symm.trans ?_⟩
  simp only [if_pos mine, Warp.addFlags]

end

/-! ### The timeline (R165) -/

/-- The timeline is below every command that has not completed, and is the greatest such number up to the last one issued. -/
theorem timelineTop_greatest (ns : List Nat) : ∀ top, timelineTop top ns ≤ top
    ∧ (∀ n ∈ ns, n ≠ 0 → timelineTop top ns < n) ∧ ∀ m, m ≤ top → (∀ n ∈ ns, m < n) → m ≤ timelineTop top ns := by
  induction ns with
  | nil => exact fun top => ⟨Nat.le_refl top, by simp, fun m hm _ => hm⟩
  | cons n ns ih =>
    intro top
    obtain ⟨le, below, most⟩ := ih (min top (n - 1))
    have step : timelineTop top (n :: ns) = timelineTop (min top (n - 1)) ns := rfl
    rw [step]
    refine ⟨by omega, ?_, ?_⟩
    · intro k hk pos
      rcases List.mem_cons.1 hk with rfl | hk
      · omega
      · exact below k hk pos
    · intro m hm hall
      have := hall n (List.mem_cons_self ..)
      exact most m (by omega) fun k hk => hall k (List.mem_cons_of_mem _ hk)

/-! ### Which commands complete (R351, R352, R354) -/

section
variable {s : State} {b n : Nat} {F : Foreman} {k : FmCmd} (context : (s.blk b).fm = some F)
  (found : F.cmds.find? (fun c => c.n == n) = some k)
include found

/-- The command found under a number has it. -/
theorem cmd_number : k.n = n := by simpa using List.find?_some found

/-- A command is ready when none earlier must come before it. -/
theorem cmdReady_iff : cmdReady s b F k = true ↔ ∀ x ∈ F.cmds, x.n < n → cmdAfter s b x k = false := by
  simp [cmdReady, cmd_number found]

include context

/-- It completes when the array, where it needs it, is its context's. -/
theorem execForemanCommandComplete_completes (ready : ∀ x ∈ F.cmds, x.n < n → cmdAfter s b x k = false)
    (turn : onArray k.op = true → testDue s (s.blk b).core = false ∧ arrayTurn s (s.blk b).core = some b) :
    execForemanCommandComplete b n s = .next (completeCmd s b F k) := by
  have free : (onArray k.op && arrayBusy s b) = false := by
    cases array : onArray k.op with
    | false => rfl
    | true => simp [arrayBusy, turn array]
  simp only [execForemanCommandComplete, context, found, (cmdReady_iff found).2 ready, free, Bool.not_true, Bool.or_self,
    Bool.false_eq_true, if_false]

/-- It does not complete behind one that must come before it, nor on an array that is not its context's. -/
theorem execForemanCommandComplete_waits (held : (∃ x ∈ F.cmds, x.n < n ∧ cmdAfter s b x k = true)
    ∨ onArray k.op = true ∧ (testDue s (s.blk b).core = true ∨ arrayTurn s (s.blk b).core ≠ some b)) :
    execForemanCommandComplete b n s = .next s := by
  have stays : (!cmdReady s b F k || (onArray k.op && arrayBusy s b)) = true := by
    rcases held with ⟨x, hx, before, after⟩ | ⟨array, busy⟩
    · have waits : cmdReady s b F k ≠ true := fun ready => by
        simpa [after] using (cmdReady_iff found).1 ready x hx before
      simp [waits]
    · simp only [array, arrayBusy, Bool.true_and, Bool.or_eq_true, bne_iff_ne]
      exact .inr busy
  simp only [execForemanCommandComplete, context, found, stays, if_true]

end

end Sys2Proof.Machine
end

section
/-! SUPPORT. What the commands that clear and multiply tiles leave in their slots, cell by cell; and the sums of a row of Table 12-1
in the words of the statements. -/
namespace Sys2Proof.Machine

/-! ### Tile slots (R334) -/

/-- Replacing an element of a list is the library's. -/
theorem setAt_eq_set {α : Type} (x : α) : ∀ (l : List α) (n : Nat), setAt l n x = l.set n x
  | [], _ => rfl
  | _ :: _, 0 => rfl
  | y :: l, n + 1 => congrArg (y :: ·) (setAt_eq_set x l n)

/-- The slots of a tile, from its first. -/
theorem tileSlots_eq (k : Nat) (three : Bool) : tileSlots k three = (List.range (if three then 3 else 1)).map (k + ·) := by
  cases three <;> rfl

/-- Numbers that follow one another from a first one are apart. -/
theorem nodup_following (k n : Nat) : ((List.range n).map (k + ·)).Nodup :=
  List.pairwise_map.2 (List.nodup_range.imp fun apart same => apart (Nat.add_left_cancel same))

theorem zipIdx_tileSlots (k : Nat) (three : Bool) :
    (tileSlots k three).zipIdx = (List.range (if three then 3 else 1)).map fun p => (k + p, p) := by
  cases three <;> rfl

section
variable (s : State) (b : Nat)

theorem setTile_blk {B : Block} (found : Tab.find s.blocks b = some B) (r : Nat) (t : Tile) :
    Tab.find (setTile s b r t).blocks b = some { B with tiles := B.tiles.set r t } := by
  simp only [setTile, State.modBlk, Tab.find_modify, found, setAt_eq_set, if_true, Option.map_some]

theorem setTile_keepsForemen (r : Nat) (t : Tile) : KeepsForemen s (setTile s b r t) :=
  modBlk_keepsForemen s b fun _ => rfl

/-- Tiles put into slots of a block, one after another. -/
def putTiles (l : List (Nat × Tile)) : State := l.foldl (fun s e => setTile s b e.1 e.2) s

theorem putTiles_keepsForemen (l : List (Nat × Tile)) : KeepsForemen s (putTiles s b l) :=
  .foldl (fun u (e : Nat × Tile) => setTile_keepsForemen u b e.1 e.2) l s

theorem putTiles_mem (l : List (Nat × Tile)) : (putTiles s b l).mem = s.mem :=
  List.foldlRecOn (motive := fun u : State => u.mem = s.mem) l _ rfl fun _ h _ _ => h

end

section
variable {s : State} {b : Nat} {B : Block} (found : Tab.find s.blocks b = some B)
include found

theorem tileAt_of (r : Nat) : tileAt s b r = B.tiles.getD r ⟨none, []⟩ := by
  simp only [tileAt, State.blk, found, Option.getD_some]

/-- A slot that is none of those put into is as it was. -/
theorem tileAt_putTiles_ne (l : List (Nat × Tile)) {r : Nat} (other : ∀ e ∈ l, e.1 ≠ r) :
    tileAt (putTiles s b l) b r = tileAt s b r := by
  induction l generalizing s B with
  | nil => rfl
  | cons e l ih =>
    refine (ih (setTile_blk s b found e.1 e.2) fun x hx => other x (List.mem_cons_of_mem _ hx)).trans ?_
    rw [tileAt_of (setTile_blk s b found e.1 e.2), tileAt_of found, List.getD_eq_getElem?_getD, List.getD_eq_getElem?_getD,
      List.getElem?_set_ne (other e (List.mem_cons_self ..))]

/-- A slot put into once holds what was put there. -/
theorem tileAt_putTiles_mem (l : List (Nat × Tile)) (apart : (l.map (·.1)).Nodup) {e : Nat × Tile} (he : e ∈ l)
    (fits : e.1 < B.tiles.length) : tileAt (putTiles s b l) b e.1 = e.2 := by
  induction l generalizing s B with
  | nil => cases he
  | cons x l ih =>
    obtain ⟨first, apart⟩ := List.nodup_cons.1 apart
    have set := setTile_blk s b found x.1 x.2
    rcases List.mem_cons.1 he with rfl | he
    · refine (tileAt_putTiles_ne set l fun y hy same => first (List.mem_map.2 ⟨y, hy, same⟩)).trans ?_
      rw [tileAt_of set, List.getD_eq_getElem?_getD, List.getElem?_set_self fits, Option.getD_some]
    · exact ih set apart he (by rw [List.length_set]; exact fits)

end

/-! ### Cells -/

/-- What is found in a table made of rising keys, each with its value or none. -/
theorem Tab.find_filterMap {α : Type} (h : Nat → Option α) (j : Nat) : ∀ ks : List Nat, ks.Pairwise (· < ·) →
    Tab.find (ks.filterMap fun k => (h k).map (k, ·)) j = if j ∈ ks then h j else none
  | [], _ => rfl
  | k :: ks, sorted => by
    obtain ⟨above, sorted⟩ := List.pairwise_cons.1 sorted
    have tail := Tab.find_filterMap h j ks sorted
    by_cases here : k = j
    · subst here
      have none_after : k ∉ ks := fun hk => Nat.lt_irrefl _ (above k hk)
      cases e : h k with
      | none => simp [e, tail, none_after]
      | some v => simp [e, Tab.find]
    · have below : j < k → j ∉ ks := fun lt hj => Nat.lt_asymm lt (above j hj)
      cases e : h k with
      | none => simp [e, tail, Ne.symm here]
      | some v =>
        by_cases lt : j < k
        · simp [e, Tab.find, here, Ne.symm here, lt, below lt]
        · simp [e, Tab.find, here, Ne.symm here, lt, tail]

/-- A cell of a tile of results is its result, as a word. -/
theorem tileResults_cell (f : Nat → Nat → Nat × Flags) (int : Option Bool) {i j : Nat} (hi : i < 128) (hj : j < 128) :
    (Tile.mk int (tileResults f).1).cell i j = (f i j).1 % 2 ^ 32 := by
  have cells : (tileResults f).1 = (List.range 16384).filterMap fun n =>
      (if BitVec.ofNat 32 (f (n / 128) (n % 128)).1 = 0 then none
        else some (BitVec.ofNat 32 (f (n / 128) (n % 128)).1)).map (n, ·) := by
    unfold tileResults
    simp only [List.filterMap_map]
    refine congrArg (List.filterMap · _) (funext fun n => ?_)
    simp only [Function.comp]
    split <;> rfl
  have row : (128 * i + j) / 128 = i := by omega
  have column : (128 * i + j) % 128 = j := by omega
  have inside : 128 * i + j ∈ List.range 16384 := List.mem_range.2 (by omega)
  unfold Tile.cell Tab.read
  rw [cells, Tab.find_filterMap _ _ _ List.pairwise_lt_range, if_pos inside, row, column]
  split
  · rename_i zero
    rw [Option.getD_none, ← zero, BitVec.toNat_ofNat]
  · rw [Option.getD_some, BitVec.toNat_ofNat]

/-- A tile without cells is zero everywhere. -/
theorem cell_cleared (int : Option Bool) (i j : Nat) : (Tile.mk int []).cell i j = 0 := rfl

theorem Tile.cell_lt (t : Tile) (i j : Nat) : t.cell i j < 2 ^ 32 := BitVec.isLt _

/-- A flag is among the flags of a list joined to others when one of the list, or of the others, has it. -/
theorem getLsbD_foldl_or {α : Type} {w : Nat} (x : α → BitVec w) (g : Nat) (l : List α) : ∀ z : BitVec w,
    (l.foldl (fun a e => a ||| x e) z).getLsbD g = true ↔ z.getLsbD g = true ∨ ∃ e ∈ l, (x e).getLsbD g = true := by
  induction l with
  | nil => simp
  | cons e l ih => intro z; simp [ih, or_assoc]

/-- The flags of a tile of results are those of its 128 by 128 elements. -/
theorem tileResults_flags (f : Nat → Nat → Nat × Flags) (g : Nat) :
    (tileResults f).2.getLsbD g = true ↔ ∃ i j, i < 128 ∧ j < 128 ∧ (f i j).2.getLsbD g = true := by
  unfold tileResults
  rw [getLsbD_foldl_or (fun r : Nat × Nat × Flags => r.2.2)]
  constructor
  · rintro (start | ⟨e, he, raised⟩)
    · simp at start
    · obtain ⟨n, hn, rfl⟩ := List.mem_map.1 he
      have := List.mem_range.1 hn
      exact ⟨n / 128, n % 128, by omega, Nat.mod_lt _ (by decide), raised⟩
  · rintro ⟨i, j, hi, hj, raised⟩
    refine .inr ⟨_, List.mem_map.2 ⟨128 * i + j, List.mem_range.2 (by omega), rfl⟩, ?_⟩
    have row : (128 * i + j) / 128 = i := by omega
    have column : (128 * i + j) % 128 = j := by omega
    simpa only [row, column] using raised

/-! ### Clearing (R342) -/

section
variable {s : State} {b : Nat} {k : FmCmd} {B : Block}

theorem performCmd_mclr {q : BitVec 4} {three int : Bool} (hop : k.op = .mclr q three int) :
    performCmd s b k = .ok (putTiles s b ((tileSlots q.toNat three).map (·, ⟨some int, []⟩)), 0) := by
  simp only [performCmd, hop, putTiles, List.foldl_map]

/-- Each slot of a cleared tile has the type and zeros, and every other slot is as it was. -/
theorem performCmd_clears {q : BitVec 4} {three int : Bool} (hop : k.op = .mclr q three int)
    (found : Tab.find s.blocks b = some B) (fits : ∀ r ∈ tileSlots q.toNat three, r < B.tiles.length) :
    ∃ t, performCmd s b k = .ok (t, 0) ∧ (∀ r ∈ tileSlots q.toNat three,
        (tileAt t b r).int = some int ∧ ∀ i j, (tileAt t b r).cell i j = 0)
      ∧ ∀ r, r ∉ tileSlots q.toNat three → tileAt t b r = tileAt s b r := by
  refine ⟨_, performCmd_mclr hop, fun r hr => ?_, fun r hr => ?_⟩
  · have apart : (tileSlots q.toNat three).Nodup := by
      rw [tileSlots_eq]
      exact nodup_following _ _
    have cleared := tileAt_putTiles_mem found ((tileSlots q.toNat three).map (·, (⟨some int, []⟩ : Tile)))
      (by simpa only [List.map_map, Function.comp_def, List.map_id'] using apart)
      (List.mem_map.2 ⟨r, hr, rfl⟩) (fits r hr)
    rw [cleared]
    exact ⟨rfl, cell_cleared _⟩
  · refine tileAt_putTiles_ne found _ fun e he same => hr ?_
    obtain ⟨x, hx, rfl⟩ := List.mem_map.1 he
    exact same ▸ hx

end

/-! ### Multiplying (R343 to R345) -/

/-- The commands that multiply. -/
def Multiplies (i : Instr) (q : BitVec 4) : Prop :=
  (∃ pm x y, i = .mma q pm x y) ∨ (∃ pm x y z, i = .mmas q pm x y z) ∨ ∃ pm x y u v, i = .mmax q pm x y u v

section
variable {s : State} {b : Nat} {k : FmCmd} {q : BitVec 4} {m : MatArgs} {B : Block}

theorem performCmd_multiplies (hop : Multiplies k.op q) (args : cmdArgs s b .effect k = .ok m) :
    performCmd s b k = .ok (doMultiply s b k q.toNat m) := by
  rcases hop with ⟨pm, x, y, hop⟩ | ⟨pm, x, y, z, hop⟩ | ⟨pm, x, y, u, v, hop⟩ <;> simp only [performCmd, hop, args]

/-- What a multiplying command makes of plane p of its tile. -/
def productTile (s : State) (b : Nat) (k : FmCmd) (q : Nat) (m : MatArgs) (p : Nat) : Tile :=
  { tileAt s b (q + p) with cells := (m.plane s b k p (tileAt s b (q + p))).1 }

/-- A fold of pairs whose parts do not meet is the pair of the folds. -/
theorem foldl_pair {α β γ : Type} (f : α → γ → α) (g : β → γ → β) (l : List γ) : ∀ (a : α) (b : β),
    l.foldl (fun r e => (f r.1 e, g r.2 e)) (a, b) = (l.foldl f a, l.foldl g b) := by
  induction l with
  | nil => exact fun _ _ => rfl
  | cons e l ih => exact fun a b => ih _ _

/-- The planes' tiles are put into their slots, and their flags joined. -/
theorem doMultiply_eq (s : State) (b : Nat) (k : FmCmd) (q : Nat) (m : MatArgs) :
    doMultiply s b k q m
      = (putTiles s b ((List.range (if m.three then 3 else 1)).map fun p => (q + p, productTile s b k q m p)),
        (List.range (if m.three then 3 else 1)).foldl (fun a p => a ||| (m.plane s b k p (tileAt s b (q + p))).2) 0) := by
  unfold doMultiply putTiles productTile
  rw [zipIdx_tileSlots, List.foldl_map, List.foldl_map]
  exact foldl_pair (fun (u : State) p => setTile u b (q + p) { tileAt s b (q + p) with
    cells := (m.plane s b k p (tileAt s b (q + p))).1 }) (fun a p => a ||| (m.plane s b k p (tileAt s b (q + p))).2) _ s 0

/-- The sum of an element of plane p with the products of its row and column. -/
def planeSum (s : State) (b : Nat) (k : FmCmd) (q : Nat) (m : MatArgs) (p i j : Nat) : Nat × Flags :=
  m.plan.run k.rnd (matrixDraw (s.launch (s.blk b).launch).lrec.seed (s.blk b).lin p k.fcount i j) (m.aAt s p i) (m.bAt s p j)
    (scaleAt s m.plan m.sa i) (scaleAt s m.plan m.sb j) k.ts ((tileAt s b (q + p)).cell i j)

/-- What the command makes of an element of plane p: beyond the extents it keeps what it held (log 28). -/
def planeValue (s : State) (b : Nat) (k : FmCmd) (q : Nat) (m : MatArgs) (p i j : Nat) : Nat × Flags :=
  if m.a.rowIn i && m.b.rowIn j then planeSum s b k q m p i j else ((tileAt s b (q + p)).cell i j, 0)

theorem plane_eq (s : State) (b : Nat) (k : FmCmd) (q : Nat) (m : MatArgs) (p : Nat) :
    m.plane s b k p (tileAt s b (q + p)) = tileResults (planeValue s b k q m p) := rfl

theorem productTile_cell {p i j : Nat} (hi : i < 128) (hj : j < 128) :
    (productTile s b k q.toNat m p).cell i j
      = if m.a.rowIn i = true ∧ m.b.rowIn j = true then (planeSum s b k q.toNat m p i j).1 % 2 ^ 32
        else (tileAt s b (q.toNat + p)).cell i j := by
  rw [productTile, plane_eq, tileResults_cell _ _ hi hj]
  simp only [planeValue, Bool.and_eq_true]
  split
  · rfl
  · exact Nat.mod_eq_of_lt (Tile.cell_lt _ i j)

theorem plane_flags (p g : Nat) :
    (m.plane s b k p (tileAt s b (q.toNat + p))).2.getLsbD g = true ↔ ∃ i j, i < 128 ∧ j < 128 ∧ m.a.rowIn i = true
      ∧ m.b.rowIn j = true ∧ (planeSum s b k q.toNat m p i j).2.getLsbD g = true := by
  rw [plane_eq, tileResults_flags]
  refine (exists_congr fun i => exists_congr fun j => and_congr_right fun _ =>
    and_congr_right fun _ => ?_)
  simp only [planeValue, Bool.and_eq_true]
  split
  · rename_i inside
    simp only [inside, true_and]
  · rename_i outside
    constructor
    · intro h; simp at h
    · exact fun ⟨ha, hb, _⟩ => absurd ⟨ha, hb⟩ outside

/-- Every element within the extents of each plane takes its sum, and every other one is as it was. -/
theorem performCmd_products (hop : Multiplies k.op q) (args : cmdArgs s b .effect k = .ok m)
    (found : Tab.find s.blocks b = some B) {n : Nat} (hn : n = if m.three then 3 else 1)
    (fits : q.toNat + n ≤ B.tiles.length) :
    ∃ t fl, performCmd s b k = .ok (t, fl)
      ∧ (∀ p, p < n → (tileAt t b (q.toNat + p)).int = (tileAt s b (q.toNat + p)).int
        ∧ ∀ i j, i < 128 → j < 128 → (tileAt t b (q.toNat + p)).cell i j
          = if m.a.rowIn i = true ∧ m.b.rowIn j = true then (planeSum s b k q.toNat m p i j).1 % 2 ^ 32
            else (tileAt s b (q.toNat + p)).cell i j)
      ∧ (∀ g, fl.getLsbD g = true ↔ ∃ p i j, p < n ∧ i < 128 ∧ j < 128 ∧ m.a.rowIn i = true ∧ m.b.rowIn j = true
          ∧ (planeSum s b k q.toNat m p i j).2.getLsbD g = true)
      ∧ (∀ r, (r < q.toNat ∨ q.toNat + n ≤ r) → tileAt t b r = tileAt s b r) ∧ t.mem = s.mem := by
  have effect := (performCmd_multiplies hop args).trans (congrArg Except.ok (doMultiply_eq s b k q.toNat m))
  rw [← hn] at effect
  refine ⟨_, _, effect, fun p hp => ?_, fun g => ?_, fun r hr => ?_, putTiles_mem s b _⟩
  · have put := tileAt_putTiles_mem found ((List.range n).map fun p => (q.toNat + p, productTile s b k q.toNat m p))
      (by simpa only [List.map_map, Function.comp_def] using nodup_following q.toNat n)
      (List.mem_map.2 ⟨p, List.mem_range.2 hp, rfl⟩) (by simp only; omega)
    simp only at put
    rw [put]
    exact ⟨by rw [productTile], fun i j => productTile_cell⟩
  · rw [getLsbD_foldl_or]
    simp [plane_flags]
  · refine tileAt_putTiles_ne found _ fun e he same => ?_
    obtain ⟨p, hp, rfl⟩ := List.mem_map.1 he
    have := List.mem_range.1 hp
    simp only at same
    omega

end

/-! ### Sums of a row of Table 12-1 -/

section
variable {p : MatPlan} (mode : Mode) (dr : Nat → Double) (a b sa sb : Nat → Nat) (ts : Word) (acc : Nat)

/-- Integer products are summed with the element, modulo 2^32. -/
theorem MatPlan.run_ints {x y : Bool} {wa wb : Nat} (kind : p.kind = .ints x y wa wb) (one : p.chunks = 1) :
    p.run mode dr a b sa sb ts acc = (Claims.modulo 32 (((List.range p.depth).map fun k =>
      Claims.read x wa (a k) * Claims.read y wb (b k)).foldl (· + ·) (acc : Int)), 0) := by
  have values : ∀ (sg : Bool) (w v : Nat), intOf sg w v = Claims.read sg w v := compared_eq_read
  have chunk : p.chunk mode dr a b sa sb ts acc 0 = (Claims.modulo 32 (((List.range p.depth).map fun k =>
      Claims.read x wa (a k) * Claims.read y wb (b k)).foldl (· + ·) (acc : Int)), 0) := by
    simp only [MatPlan.chunk, kind, one, Nat.div_one, Nat.mul_zero, Nat.zero_add, List.map_id', List.foldl_map, values]
    rfl
  simp only [MatPlan.run, one, List.range_one, List.foldl_cons, List.foldl_nil, chunk]
  exact congrArg _ BitVec.or_zero

/-- Chunks are summed in increasing depth. -/
theorem MatPlan.run_chunks {fa fb : Fmt} {w : Option Nat} (kind : p.kind = .chunks fa fb w) {n : Nat}
    (hn : n = p.depth / p.chunks) :
    p.run mode dr a b sa sb ts acc = (List.range p.chunks).foldl (fun r ch =>
      let v := chunkStep mode (dr ch) w 0 ((List.range n).map fun j => decodeNum fa (a (n * ch + j)))
        ((List.range n).map fun j => decodeNum fb (b (n * ch + j))) r.1
      (v.1, r.2 ||| v.2)) (acc, 0) := by
  subst hn
  simp only [MatPlan.run, MatPlan.chunk, kind, List.map_map, Function.comp_def]

/-- A chunk of scaled values is NaN under a NaN scale, and else takes the sum of the scales' exponents. -/
theorem MatPlan.chunk_scaled {fa fb : Fmt} {w : Option Nat} {per : Nat} (kind : p.kind = .scaled fa fb w per) {n : Nat}
    (hn : n = p.depth / p.chunks) (ch : Nat) :
    p.chunk mode dr a b sa sb ts acc ch = if sa (ch / per) = 255 ∨ sb (ch / per) = 255 then (0x7FC00000, 0)
      else chunkStep mode (dr ch) w ((sa (ch / per) : Int) + sb (ch / per) - 254)
        ((List.range n).map fun j => decodeNum fa (a (n * ch + j))) ((List.range n).map fun j => decodeNum fb (b (n * ch + j)))
        acc := by
  subst hn
  have quiet : binary32.nanBits = 0x7FC00000 := by decide
  simp only [MatPlan.chunk, kind, quiet, List.map_map, Function.comp_def]

end

/-- A position of a decompressed row holds what the metadata of its group of four puts there. -/
theorem sparseAt_group (a m : Nat → Nat) (g : Nat) {i : Nat} (hi : i < 4) :
    sparseAt a m (4 * g + i) = if m (2 * g + 1) = i then a (2 * g + 1) else if m (2 * g) = i then a (2 * g) else 0 := by
  have group : (4 * g + i) / 4 = g := by omega
  have place : (4 * g + i) % 4 = i := by omega
  simp only [sparseAt, group, place]

end Sys2Proof.Machine
end

section
/-! SUPPORT. What the commands that read tiles out and stamp write into windows; and the statement about the completion of Foreman
commands. -/
namespace Sys2Proof.Machine

/-! ### Destinations (R333, R346) -/

/-- The targets of a destination are its elements within the tensor. -/
theorem mem_targets (o : Operand) (i j : Nat) : (i, j) ∈ o.targets ↔ i < 128 ∧ j < 128
    ∧ o.lay.inside (o.origin 0 + j) (o.origin 1 + i) (o.origin 2) (o.origin 3) = true := by
  have row : o.holds j i = true → o.rowIn i = true := by
    simp only [Operand.holds, Operand.rowIn, Layout.inside, Bool.and_eq_true, decide_eq_true_eq]
    omega
  constructor
  · intro h
    obtain ⟨i', hi, h⟩ := List.mem_flatMap.1 h
    split at h
    · obtain ⟨j', hj, same⟩ := List.mem_map.1 h
      obtain ⟨rfl, rfl⟩ := Prod.mk.inj same
      obtain ⟨hj, holds⟩ := List.mem_filter.1 hj
      exact ⟨List.mem_range.1 hi, List.mem_range.1 hj, holds⟩
    · cases h
  · rintro ⟨hi, hj, holds⟩
    refine List.mem_flatMap.2 ⟨i, List.mem_range.2 hi, ?_⟩
    rw [if_pos (row holds)]
    exact List.mem_map.2 ⟨j, List.mem_filter.2 ⟨List.mem_range.2 hj, holds⟩, rfl⟩

/-! ### Reading out (R346) -/

/-- The nearest signed value is the statements' saturation. -/
theorem clampSigned_eq_saturate {w : Nat} (v : Int) : clampSigned w v = Claims.saturate w v := by
  have pos : (1 : Int) ≤ (2 ^ (w - 1) : Nat) := by exact_mod_cast Nat.one_le_two_pow
  have bounds : ∀ lo hi : Int, lo ≤ hi → clampInt lo hi v = max lo (min hi v) := by
    intro lo hi le
    unfold clampInt
    split
    · omega
    · split <;> omega
  unfold clampSigned Claims.saturate
  rw [bounds _ _ (by omega)]
  rfl

/-- A tile element is converted as the statements read it out. -/
theorem mrdValue_eq_readOut (int : Bool) (typ : Nat) (mode : Mode) (d : Double) (v : Nat) :
    mrdValue int typ mode d v = Claims.readOut int typ mode d v := by
  unfold mrdValue Claims.readOut
  rw [clampSigned_eq_saturate, toSigned_eq_signed]
  cases int with
  | true => simp only [if_true]; split <;> rfl
  | false => rfl

/-- What `mrd` writes of an element whose planes read out as given, with their flags. -/
def elemWrites (s : State) (o : Operand) (vs : List (Nat × Flags)) (e : Nat × Nat) : List MByte × Flags :=
  (match vs with
    | [v] => plainElem o.lay (o.spotOf s e.1 e.2).1 (o.spotOf s e.1 e.2).2 v.1
    | _ => tripleWrites (o.spotOf s e.1 e.2).1 o.lay.size (digitsOf (typFmt o.lay.typ) (vs.map (·.1))) (vs.map (·.1)),
    vs.foldl (fun a v => a ||| v.2) 0)

section
variable (s : State) (b : Nat) (k : FmCmd) (o : Operand)

/-- One plane is written as a PLAIN tensor holds it. -/
theorem elemWrites_one (v : Nat × Flags) (e : Nat × Nat) :
    elemWrites s o [v] e = (plainElem o.lay (o.spotOf s e.1 e.2).1 (o.spotOf s e.1 e.2).2 v.1, v.2) := by
  simp [elemWrites]

/-- Three planes are written as copies. -/
theorem elemWrites_three (v0 v1 v2 : Nat × Flags) (e : Nat × Nat) :
    elemWrites s o [v0, v1, v2] e
      = (tripleWrites (o.spotOf s e.1 e.2).1 o.lay.size (digitsOf (typFmt o.lay.typ) [v0.1, v1.1, v2.1]) [v0.1, v1.1, v2.1],
        v0.2 ||| v1.2 ||| v2.2) := by
  simp [elemWrites]

/-- `mrd` writes each target as its planes read out. -/
theorem mrdWrites_eq (planes : List (Nat × Nat)) {elem : Nat × Nat → List MByte × Flags}
    (he : elem = fun e => elemWrites s o (planes.map fun x => Claims.planeOut s b k o x.1 x.2 e) e) :
    mrdWrites s b k planes o = (o.targets.flatMap fun e => (elem e).1, orFlags (o.targets.map fun e => (elem e).2)) := by
  have split : mrdWrites s b k planes o
      = ((o.targets.map elem).flatMap (·.1), (o.targets.map elem).foldl (fun a r => a ||| r.2) 0) := by
    simp only [he, Claims.planeOut, ← mrdValue_eq_readOut]
    rfl
  rw [split, List.flatMap_map, List.foldl_map, orFlags, List.foldl_map]

theorem mrdWrites_plane (plane slot : Nat) :
    mrdWrites s b k [(plane, slot)] o
      = (o.targets.flatMap fun e => plainElem o.lay (o.spotOf s e.1 e.2).1 (o.spotOf s e.1 e.2).2
          (Claims.planeOut s b k o plane slot e).1,
        orFlags (o.targets.map fun e => (Claims.planeOut s b k o plane slot e).2)) :=
  mrdWrites_eq s b k o _ (elem := fun _ => (_, _)) (funext fun e => (elemWrites_one s o _ e).symm)

theorem mrdWrites_planes (q : Nat) {v : Nat → Nat × Nat → Nat × Flags}
    (hv : v = fun p => Claims.planeOut s b k o p (q + p)) :
    mrdWrites s b k [(0, q), (1, q + 1), (2, q + 2)] o
      = (o.targets.flatMap fun e => tripleWrites (o.spotOf s e.1 e.2).1 o.lay.size
          (digitsOf (typFmt o.lay.typ) [(v 0 e).1, (v 1 e).1, (v 2 e).1]) [(v 0 e).1, (v 1 e).1, (v 2 e).1],
        orFlags (o.targets.map fun e => (v 0 e).2 ||| (v 1 e).2 ||| (v 2 e).2)) := by
  subst hv
  exact mrdWrites_eq s b k o _ (elem := fun e => (_, _)) (funext fun e => (elemWrites_three s o _ _ _ e).symm)

/-! ### Combining planes (R347) -/

variable {f : Fmt} (format : typFmt o.lay.typ = some f) (q : Nat)
include format

/-- The value of the three planes at an element. -/
def colValue (s : State) (b q p : Nat) (e : Nat × Nat) : Num := decodeNum binary32 ((tileAt s b (q + p)).cell e.1 e.2)
/-- Their mean. -/
def colMean (s : State) (b q : Nat) (f : Fmt) (e : Nat × Nat) : Nat × Flags :=
  mean3 f (colValue s b q 0 e) (colValue s b q 1 e) (colValue s b q 2 e)
/-- Their digit count. -/
def colDigits (s : State) (b q : Nat) (f : Fmt) (e : Nat × Nat) : Nat :=
  digits3 (colValue s b q 0 e) (colValue s b q 1 e) (colValue s b q 2 e) f.p
/-- The copy of one of them. -/
def colCopy (s : State) (b q : Nat) (f : Fmt) (p : Nat) (e : Nat × Nat) : Nat × Flags :=
  encodeNum f modeRN 0 (colValue s b q p e)

/-- A PLAIN tensor takes the means. -/
theorem mcolWrites_plain (plain : o.lay.sib = .plain) :
    mcolWrites s b q o
      = (o.targets.flatMap fun e => plainElem o.lay (o.spotOf s e.1 e.2).1 (o.spotOf s e.1 e.2).2 (colMean s b q f e).1,
        orFlags (o.targets.map fun e => (colMean s b q f e).2)) := by
  simp only [mcolWrites, format, plain, orFlags, List.flatMap_map, List.foldl_map]
  rfl

/-- A MEAN tensor takes them with their digit counts. -/
theorem mcolWrites_mean (mean : o.lay.sib = .mean) :
    mcolWrites s b q o
      = (o.targets.flatMap fun e => meanWrites (o.spotOf s e.1 e.2).1 o.lay.size (colDigits s b q f e) (colMean s b q f e).1,
        orFlags (o.targets.map fun e => (colMean s b q f e).2)) := by
  simp only [mcolWrites, format, mean, orFlags, List.flatMap_map, List.foldl_map]
  rfl

/-- A TRIPLE tensor takes the copies with their digit counts. -/
theorem mcolWrites_triple (triple : o.lay.sib = .triple) :
    mcolWrites s b q o
      = (o.targets.flatMap fun e => tripleWrites (o.spotOf s e.1 e.2).1 o.lay.size (colDigits s b q f e)
          [(colCopy s b q f 0 e).1, (colCopy s b q f 1 e).1, (colCopy s b q f 2 e).1],
        orFlags (o.targets.map fun e => snanFlag [colValue s b q 0 e, colValue s b q 1 e, colValue s b q 2 e]
          ||| (colCopy s b q f 0 e).2 ||| (colCopy s b q f 1 e).2 ||| (colCopy s b q f 2 e).2)) := by
  simp only [mcolWrites, format, triple, orFlags, List.flatMap_map, List.foldl_map]
  rfl

end

/-! ### Commands that write windows (R346 to R348) -/

section
variable {s : State} {b : Nat} {k : FmCmd} {q : BitVec 4} {d : BitVec 3} {o : Operand}

theorem performCmd_mrd_plane {pl : BitVec 2} (hop : k.op = .mrd q pl d) (one : pl ≠ 3)
    (dest : operandOf s b .effect (laySlot k.slots d) = .ok o) :
    performCmd s b k = .ok (writeWin s o.blk (mrdWrites s b k [(pl.toNat, q.toNat + pl.toNat)] o).1,
      (mrdWrites s b k [(pl.toNat, q.toNat + pl.toNat)] o).2) := by
  simp only [performCmd, hop, dest, if_neg one]

theorem performCmd_mrd_planes (hop : k.op = .mrd q 3 d) (dest : operandOf s b .effect (laySlot k.slots d) = .ok o) :
    performCmd s b k
      = .ok (writeWin s o.blk (mrdWrites s b k [(0, q.toNat), (1, q.toNat + 1), (2, q.toNat + 2)] o).1,
        (mrdWrites s b k [(0, q.toNat), (1, q.toNat + 1), (2, q.toNat + 2)] o).2) := by
  simp only [performCmd, hop, dest, if_true]

theorem performCmd_mcol (hop : k.op = .mcol q d) (dest : operandOf s b .effect (laySlot k.slots d) = .ok o) :
    performCmd s b k = .ok (writeWin s o.blk (mcolWrites s b q.toNat o).1, (mcolWrites s b q.toNat o).2) := by
  simp only [performCmd, hop, dest]

theorem performCmd_mstamp {clu : Bool} {a : BitVec 22} {m off : Nat} (hop : k.op = .mstamp clu a)
    (there : clusterAddr s b a.toNat 8 .write = .ok (.win m off)) :
    performCmd s b k = .ok (writeWin s m (uniWrites (winPlace s m off) 8 k.n), 0) := by
  simp only [performCmd, hop, there]

/-- A stamp in a PLAIN window is its number. -/
theorem uniWrites_plain {m off : Nat} (plain : (s.blk m).winSib = .plain) (n v : Nat) :
    uniWrites (winPlace s m off) n v = wholeBytes off (leBytes n v) := by
  simp only [uniWrites, winPlace, Place.data, plain, Nat.zero_add]

/-- In a TRIPLE window it is three copies with a digit count of 0. -/
theorem uniWrites_triple {m off : Nat} (triple : (s.blk m).winSib = .triple) (n v : Nat) :
    uniWrites (winPlace s m off) n v
      = wholeBytes (4 * off) (leBytes n v ++ leBytes n v ++ leBytes n v ++ leBytes n 0) := by
  simp only [uniWrites, tripleWrites, tripled, winPlace, Place.data, triple, Nat.zero_add, Nat.zero_mul, Nat.add_zero]

theorem writeWin_keepsForemen (s : State) (b : Nat) (ws : List MByte) : KeepsForemen s (writeWin s b ws) :=
  (modBlk_keepsForemen s b (g := fun B => { B with win := ws.foldl writeMasked B.win }) fun _ => rfl).trans
    (wakeMonitors_keepsForemen _ _ ws)

theorem doMultiply_keepsForemen (s : State) (b : Nat) (k : FmCmd) (q : Nat) (m : MatArgs) :
    KeepsForemen s (doMultiply s b k q m).1 := by
  rw [doMultiply_eq]
  exact putTiles_keepsForemen s b _

/-- The effect of a command is in tiles and windows: it leaves contexts and flags alone. -/
theorem performCmd_keepsForemen {t : State} {fl : Flags} (h : performCmd s b k = .ok (t, fl)) : KeepsForemen s t := by
  have multiplied : ∀ q, (match cmdArgs s b .effect k with
      | .ok m => .ok (doMultiply s b k q m)
      | .error e => .error e) = Except.ok (ε := FmStop) (t, fl) → KeepsForemen s t := by
    intro q h
    split at h
    · obtain ⟨rfl, rfl⟩ := Prod.mk.inj (Except.ok.inj h)
      exact doMultiply_keepsForemen s b k q _
    · cases h
  have written : ∀ (d : BitVec 3) (f : Operand → List MByte × Flags), (match operandOf s b .effect (laySlot k.slots d) with
      | .ok o => .ok (writeWin s o.blk (f o).1, (f o).2)
      | .error e => .error e) = Except.ok (ε := FmStop) (t, fl) → KeepsForemen s t := by
    intro d f h
    split at h
    · cases h
      exact writeWin_keepsForemen s _ _
    · cases h
  unfold performCmd at h
  dsimp only at h
  split at h
  case h_1 =>
    cases h
    exact .foldl (fun u r => setTile_keepsForemen u b r _) _ s
  case h_2 | h_3 | h_4 => exact multiplied _ h
  case h_5 | h_6 => exact written _ _ h
  case h_7 =>
    split at h
    · cases h
      exact writeWin_keepsForemen s _ _
    · cases h
    · cases h
  case h_8 => cases h

end

/-- Settles O43: which command completes and what a completion makes of its context and its block's warps, by the lemmas on
completion; and each effect by the lemma on its command. -/
theorem foremanCompletion : Obligations.ForemanCompletion := by
  unfold Obligations.ForemanCompletion
  refine ⟨⟨?completes, ?waits, ?after, fun top ns => timelineTop_greatest ns top⟩, ⟨?clear, ?stamp⟩,
    ⟨mem_targets, ?plane, ?planes, ?column⟩, ⟨?multiply, ?ints, ?chunks, ?scaled, ?sparse⟩⟩
  case completes =>
    intro b n s F k context found ready turn
    exact execForemanCommandComplete_completes context found ready turn
  case waits =>
    intro b n s F k context found held
    exact execForemanCommandComplete_waits context found held
  case after =>
    intro b s F k t fl context runs effect
    have kept := performCmd_keepsForemen effect
    have here := (kept.fm b).trans context
    have done : completeCmd s b F k = cmdDone t b F k fl := by simp only [completeCmd, effect]
    rw [done]
    refine ⟨⟨_, cmdDone_fm k fl here runs, rfl, rfl, rfl, rfl⟩, fun e he own => ?_⟩
    obtain ⟨d, hd, key, blk, flags⟩ := cmdDone_fpflags k fl here runs e he own
    obtain ⟨c, hc, key', blk', flags'⟩ := kept.warps d hd
    exact ⟨c, hc, key'.trans key, blk'.trans blk, by rw [flags, flags']⟩
  case clear =>
    intro b s k q three int hop B found fits
    exact performCmd_clears hop found fits
  case stamp =>
    intro b s k clu a m off hop at_
    rw [performCmd_mstamp hop at_]
    exact ⟨fun plain => by rw [uniWrites_plain plain], fun triple => by rw [uniWrites_triple triple]⟩
  case plane =>
    intro b s k q pl d o hop one dest v hv
    subst hv
    rw [performCmd_mrd_plane hop one dest, mrdWrites_plane]
  case planes =>
    intro b s k q d o hop dest v hv
    rw [performCmd_mrd_planes hop dest, mrdWrites_planes s b k o q.toNat hv]
  case column =>
    intro b s k q d o f hop dest format x hx y hy dg hdg c hc
    subst hx hy hdg hc
    rw [performCmd_mcol hop dest]
    refine ⟨fun plain => ?_, fun mean => ?_, fun triple => ?_⟩
    · rw [mcolWrites_plain s b o format q.toNat plain]; rfl
    · rw [mcolWrites_mean s b o format q.toNat mean]; rfl
    · rw [mcolWrites_triple s b o format q.toNat triple]; rfl
  case multiply =>
    intro b s k q m B n hop args found hn fits sum hsum
    have here : s.blk b = B := by simp only [State.blk, found, Option.getD_some]
    have sums : sum = planeSum s b k q.toNat m := by rw [hsum, ← here]; rfl
    rw [sums]
    exact performCmd_products hop args found hn fits
  case ints =>
    intro p x y wa wb mode dr a b sa sb ts acc kind one
    exact MatPlan.run_ints mode dr a b sa sb ts acc kind one
  case chunks =>
    intro p fa fb w mode dr a b sa sb ts acc kind n hn
    exact MatPlan.run_chunks mode dr a b sa sb ts acc kind hn
  case scaled =>
    intro p fa fb w per mode dr a b sa sb ts acc ch kind n hn
    exact MatPlan.chunk_scaled mode dr a b sa sb ts acc kind hn ch
  case sparse =>
    intro a m g i hi
    exact sparseAt_group a m g hi

end Sys2Proof.Machine
end

section
/-! SUPPORT. Decoding after encoding, for every instruction at once, and words written out from the tables. -/
namespace Sys2Proof.Laws.Encoding

/-- Every well-formed instruction is read back from its own words: one that has words by the lemma of its constructor, and an
event because it has none. -/
theorem readBack_encode (i : Instr) : Statement i := by
  cases i with
  | lxWord => apply lxWord | iadd => apply iadd | isub => apply isub | iaddc => apply iaddc
  | isubb => apply isubb | imul => apply imul | imulhi => apply imulhi | imad => apply imad
  | imadw => apply imadw | imin => apply imin | imax => apply imax | iabs => apply iabs
  | ineg => apply ineg | andB => apply andB | orB => apply orB | xorB => apply xorB
  | andn => apply andn | shl => apply shl | shr => apply shr | sar => apply sar | rotl => apply rotl
  | fsh => apply fsh | popc => apply popc | clz => apply clz | ctz => apply ctz | brev => apply brev
  | bfx => apply bfx | bfi => apply bfi | bpick => apply bpick | icmp => apply icmp
  | sel => apply sel | mov => apply mov | movUniform => apply movUniform | movs => apply movs
  | movi => apply movi | movpRd => apply movpRd | movpWr => apply movpWr | movpLop => apply movpLop
  | fadd => apply fadd | fsub => apply fsub | fmul => apply fmul | ffmaF32 => apply ffmaF32
  | ffmaF64 => apply ffmaF64 | fmin => apply fmin | fmax => apply fmax | fminm => apply fminm
  | fmaxm => apply fmaxm | fabs => apply fabs | fneg => apply fneg | fcopysign => apply fcopysign
  | fcmp => apply fcmp | fclass => apply fclass | fdiv => apply fdiv | fsqrt => apply fsqrt
  | frcp => apply frcp | frsq => apply frsq | fex2 => apply fex2 | flg2 => apply flg2
  | fsin => apply fsin | fcos => apply fcos | ftanh => apply ftanh | frint => apply frint
  | fcvt => apply fcvt | f2i => apply f2i | i2f => apply i2f | fldexp => apply fldexp
  | ffrexp => apply ffrexp | digits => apply digits | agree => apply agree | sibget => apply sibget
  | sibput => apply sibput | sibrot => apply sibrot | sibmean => apply sibmean | sibmaj => apply sibmaj
  | rdraw => apply rdraw | fdp16 => apply fdp16 | fdp8 => apply fdp8 | fdpsc => apply fdpsc
  | idp4 => apply idp4 | idp8 => apply idp8 | cvtpk => apply cvtpk | cvtupk => apply cvtupk
  | scdec => apply scdec | sparsify => apply sparsify | xclr => apply xclr | xadd => apply xadd
  | xfma => apply xfma | xget => apply xget | xmerge => apply xmerge | xsave => apply xsave
  | xload => apply xload | xstat => apply xstat | pollSome => apply pollSome
  | pollEvery => apply pollEvery | pollSame => apply pollSame | pollCount => apply pollCount
  | pollMask => apply pollMask | leadFirst => apply leadFirst | leadLast => apply leadLast
  | wmask => apply wmask | xlane => apply xlane | wred => apply wred | wscan => apply wscan
  | warpMatch => apply warpMatch | ld => apply ld | st => apply st | lda => apply lda
  | stl => apply stl | atom => apply atom | atomc => apply atomc | red => apply red
  | cpa => apply cpa | pref => apply pref | ldf => apply ldf | stf => apply stf
  | mwatch => apply mwatch | mwait => apply mwait | tcopy => apply tcopy | fence => apply fence
  | bra => apply bra | call => apply call | brx => apply brx | callx => apply callx
  | ret => apply ret | exit => apply exit | tail => apply tail | rcvset => apply rcvset
  | rcvwait => apply rcvwait | spawn => apply spawn | jwait => apply jwait | yield => apply yield
  | trap => apply trap | brkpt => apply brkpt | nop => apply nop | sadd => apply sadd
  | ssub => apply ssub | smul => apply smul | smulhi => apply smulhi | sand => apply sand
  | sor => apply sor | sxor => apply sxor | sshl => apply sshl | sshr => apply sshr
  | ssar => apply ssar | smin => apply smin | smax => apply smax | smov => apply smov
  | simm => apply simm | simmh => apply simmh | scmp => apply scmp | ssel => apply ssel
  | sld => apply sld | sst => apply sst | satom => apply satom | rdlane => apply rdlane
  | jmp => apply jmp | jc => apply jc | jx => apply jx | binit => apply binit
  | barrive => apply barrive | bwait => apply bwait | btest => apply btest | bexpect => apply bexpect
  | cbar => apply cbar | wait => apply wait | claim => apply claim | give => apply give
  | qtryPop => apply qtryPop | qtryPush => apply qtryPush | tlrd => apply tlrd | tlwait => apply tlwait
  | tagpub => apply tagpub | tagrd => apply tagrd | tqpush => apply tqpush | tqtake => apply tqtake
  | ordwait => apply ordwait | rdsr => apply rdsr | wrsr => apply wrsr | segld => apply segld
  | icinv => apply icinv | tlbinvPage => apply tlbinvPage | tlbinvAsid => apply tlbinvAsid
  | rmack => apply rmack | snop => apply snop | strap => apply strap | resume => apply resume
  | mlay => apply mlay | madd => apply madd | mclr => apply mclr | mma => apply mma
  | mmas => apply mmas | mmax => apply mmax | mrd => apply mrd | mcol => apply mcol
  | mbarr => apply mbarr | mbwait => apply mbwait | mloop => apply mloop | mloopL => apply mloopL
  | mendl => apply mendl | mjmp => apply mjmp | mstamp => apply mstamp | mconfRnd => apply mconfRnd
  | mconfTs => apply mconfTs | mconfWph => apply mconfWph | mend => apply mend
  | _ => exact fun _ => of_event _ rfl

/-- Settles O57: the words of each constructor by its lemma, events because they have none. -/
theorem encodeDecode : Obligations.EncodeDecode := readBack_encode

/-- Settles O56: the decoder, run on each word, answers the instruction that the tables give. -/
theorem decodeWords : Obligations.DecodeWords := by
  unfold Obligations.DecodeWords
  exact ⟨rfl, rfl, rfl, rfl, rfl, rfl, rfl, rfl, rfl⟩

end Sys2Proof.Laws.Encoding
end

section
/-! SUPPORT. The words that a load brings to the registers of each sibling. -/
namespace Sys2Proof.Machine

/-- Register r + i of sibling j takes word i of its value, for each of the n words. -/
theorem mem_regWrites (r n : Nat) (vs : List Nat) (j i : Nat) (w : Word) :
    (j, r + i, w) ∈ regWrites r n vs ↔ ∃ v, vs[j]? = some v ∧ i < n ∧ w = BitVec.ofNat 32 (v / 2 ^ (32 * i)) := by
  simp only [regWrites, List.mem_flatMap, Prod.exists, List.mem_zipIdx_iff_getElem?, List.mem_map, List.mem_range,
    Prod.mk.injEq, Nat.add_left_cancel_iff]
  constructor
  · rintro ⟨v, _, at_, _, lt, rfl, rfl, rfl⟩
    exact ⟨v, at_, lt, rfl⟩
  · rintro ⟨v, at_, lt, rfl⟩
    exact ⟨v, j, at_, i, lt, rfl, rfl, rfl⟩

/-- An element of one copy in a PLAIN place gives each of three siblings its value. -/
theorem siblingValues_plain {p : Place} (h : p.sib = .plain) (fmt : Option Fmt) (v : Nat) (d : Nat) :
    siblingValues true p fmt ⟨[v], d⟩ = [v, v, v] := by simp only [siblingValues, h]

/-- A TRIPLE element gives each sibling its own copy. -/
theorem siblingValues_triple {p : Place} (h : p.sib = .triple) (fmt : Option Fmt) (cs : List Nat) (d : Nat) :
    siblingValues true p fmt ⟨cs, d⟩ = cs := by simp only [siblingValues, h]

/-- A single lane takes copy 0 of any layout (log 90). -/
theorem siblingValues_single (p : Place) (fmt : Option Fmt) (v : Nat) (cs : List Nat) (d : Nat) :
    siblingValues false p fmt ⟨v :: cs, d⟩ = [v] := rfl

/-- Settles O18: the two signed types by the one reading of two's complement, the words by `mem_regWrites`, and the copies by
case of the place. -/
theorem loadedWords : Obligations.LoadedWords := by
  unfold Obligations.LoadedWords
  refine ⟨fun ty v => ?_, mem_regWrites, fun p fmt d v h => siblingValues_plain h fmt v d,
    fun p fmt d v1 v2 v3 h => siblingValues_triple h fmt [v1, v2, v3] d, fun p fmt d v t => siblingValues_single p fmt v t d⟩
  cases ty with
  | i8 => exact congrArg (wrapInt 32) (toSigned_eq_signed 8 v)
  | i16 => exact congrArg (wrapInt 32) (toSigned_eq_signed 16 v)
  | _ => rfl
end Sys2Proof.Machine
end

section
/-! SUPPORT. What special registers read, and the uniform instructions on them. -/
namespace Sys2Proof.Machine

/-- What a warp of a block reads of its block. -/
theorem srRead_block {W : Warp} {b : Nat} (s : State) (h : W.blk = some b) :
    srRead s W .bidX = (s.blk b).x.toNat ∧ srRead s W .bidY = (s.blk b).y.toNat ∧ srRead s W .bidZ = (s.blk b).z.toNat
    ∧ srRead s W .nwarp = (s.blk b).nwarp ∧ srRead s W .team = (s.blk b).pos ∧ srRead s W .lsconf = (s.blk b).lsconf.toNat
    ∧ srRead s W .tlcopy = (s.blk b).carter.timeline := by
  simp only [srRead, h, Option.map_some, timelineOf, and_self]

/-- A spawned warp has no block coordinates (R183). -/
theorem srRead_spawned {W : Warp} (s : State) (h : W.blk = none) :
    srRead s W .bidX = 0xFFFFFFFF ∧ srRead s W .bidY = 0xFFFFFFFF ∧ srRead s W .bidZ = 0xFFFFFFFF := by
  simp only [srRead, h, Option.map_none, and_self]

section
variable {s u : State} {c : Issue} {e : Bool}

/-- An instruction of the uniform form that may issue, and whose act goes on, completes. -/
theorem goes_of_act {i : Instr} {us : List UniUse} {act : State → Issue → Warp → UniRes × State} {pc : VAddr}
    (o : Host.Outcome State Fault Refusal) (arm : exec i s = o) (form : o = uniform i us act s)
    (met : Uniform s c us) (acts : act s c (s.warp c.warp) = (.go pc, u)) (nt : NoNumTraps u c) :
    Claims.Goes i s u c pc := by
  obtain ⟨t, runs, ends⟩ := uniform_does i us act s u c pc met acts nt
  exact ⟨t, (arm.trans form).trans runs, ends⟩

/-- A read of a special register puts its value into the destination, once what it waits for is performed (R316). -/
theorem rdsr_goes {d : Reg} {sr : USr} {s1 : State} (met : Uniform s c [plainUse (srWide sr) d])
    (ready : flagsReady s c.warp sr = .ok s1)
    (hu : u = s1.modWarp c.warp fun W => W.setSval (srWide sr) d.toNat (srRead s1 (s1.warp c.warp) sr))
    (nt : NoNumTraps u c) : Claims.Goes (.rdsr e d sr) s u c (nextPc c) := by
  subst hu
  exact goes_of_act (execRdsr e d sr s) rfl rfl met (by simp only [ready]) nt

/-- A write of a special register, once what it waits for is performed. -/
theorem wrsr_goes {d : Reg} {sr : USr} {s1 : State} (met : Uniform s c [plainUse (srWide sr) d])
    (ready : flagsReady s c.warp sr = .ok s1)
    (hu : u = srWrite s1 c.warp sr ((s.warp c.warp).sval (srWide sr) d.toNat)) (nt : NoNumTraps u c) :
    Claims.Goes (.wrsr e sr d) s u c (nextPc c) := by
  subst hu
  exact goes_of_act (execWrsr e sr d s) rfl rfl met (by simp only [ready]) nt

/-- `rmack` of the present version acknowledges it. -/
theorem rmack_present {cd : Pred} {a : Reg} (met : Uniform s c [plainUse false a])
    (same : BitVec.ofNat 32 ((s.warp c.warp).sreg a.toNat) = s.dev.rmver)
    (hu : u = (acknowledge s (s.warp c.warp).ctx s.dev.rmver).modWarp c.warp fun W => W.setCpred cd true)
    (nt : NoNumTraps u c) : Claims.Goes (.rmack e cd a) s u c (nextPc c) := by
  subst hu
  exact goes_of_act (execRmack e cd a s) rfl rfl met (by simp only [same, if_true]) nt

/-- `rmack` of a version that is no longer the present one acknowledges nothing. -/
theorem rmack_past {cd : Pred} {a : Reg} (met : Uniform s c [plainUse false a])
    (past : 2 ^ 31 ≤ (BitVec.ofNat 32 ((s.warp c.warp).sreg a.toNat) - s.dev.rmver).toNat)
    (hu : u = s.modWarp c.warp fun W => W.setCpred cd false) (nt : NoNumTraps u c) :
    Claims.Goes (.rmack e cd a) s u c (nextPc c) := by
  have differs : BitVec.ofNat 32 ((s.warp c.warp).sreg a.toNat) ≠ s.dev.rmver := by
    intro same
    rw [same, BitVec.sub_self] at past
    exact absurd past (by decide)
  subst hu
  exact goes_of_act (execRmack e cd a s) rfl rfl met (by simp only [if_neg differs, if_neg (Nat.not_lt.2 past)]) nt

/-- Where a handler runs, a group that may issue a uniform instruction is that handler's: with the system right, it is
privileged (R317). -/
theorem Uniform.privileged {us : List UniUse} {h : Handler} {rest : List Handler} (met : Uniform s c us)
    (runs : (s.warp c.warp).handlers = h :: rest) (right : (s.ctx (s.warp c.warp).ctx).sysr = true) :
    privileged s c (s.warp c.warp) = true := by
  have own := met.free
  simp only [handlerFree, runs] at own
  simp only [Machine.privileged, inHandler, runs, own, right, Bool.and_self]

/-- `segld` in a privileged handler loads a segment register with a base below 2^56 and a limit below 2^48. -/
theorem segld_goes {k : BitVec 3} {a : Reg} {ea : Nat} {ps : List Place} {s1 s2 : State} {bs : List Byte}
    (met : Uniform s c [plainUse true a]) (right : privileged s c (s.warp c.warp) = true) (k1 : k ≠ 1) (k2 : k ≠ 2)
    (located : locatePieces s (s.warp c.warp) 0 .glob ((s.warp c.warp).sval true a.toNat) 16 16 .read = (.ok (ea, ps), s1))
    (loaded : loadShared s1 c.warp (standing (s.warp c.warp)) ea ps = (.ok bs, s2))
    (base : field bs 0 8 < 2 ^ 56) (limit : field bs 8 8 < 2 ^ 48)
    (hu : u = s2.modWarp c.warp fun W => { W with
      segs := setAt W.segs k.toNat ⟨BitVec.ofNat 64 (field bs 0 8), BitVec.ofNat 64 (field bs 8 8)⟩ })
    (nt : NoNumTraps u c) : Claims.Goes (.segld e k a) s u c (nextPc c) := by
  have fits : ¬ (field bs 0 8 / 2 ^ 56 ≠ 0 ∨ field bs 8 8 / 2 ^ 48 ≠ 0) := by
    rw [Nat.div_eq_of_lt base, Nat.div_eq_of_lt limit]; decide
  subst hu
  refine goes_of_act (execSegld e k a s) rfl rfl met ?_ nt
  simp only [right, k1, k2, located, loaded, fits, or_self, Bool.not_true, Bool.false_eq_true, if_false]

end

/-- Settles O38: each instruction by what its act comes to once its checks are met, and the values by case of the register. A
write of LSCONF by a warp without a block does nothing (log 27). -/
theorem systemRegisters : Obligations.SystemRegisters := by
  unfold Obligations.SystemRegisters
  refine ⟨?read, fun s W b => srRead_block s, fun s W => srRead_spawned s, ?values, ?write, ?ack, ?segment⟩
  case read =>
    intro e d sr s c s1 met ready u hu nt
    exact rdsr_goes met ready hu nt
  case values =>
    intro s W
    exact ⟨rfl, rfl, rfl, rfl, rfl, rfl, rfl, rfl, rfl, rfl, rfl, rfl, rfl, rfl⟩
  case write =>
    intro e sr d s c s1 met ready v hv u hu nt
    subst hv
    refine wrsr_goes met ready (hu.trans ?_) nt
    cases sr <;> rfl
  case ack =>
    intro e cd a s c v met hv
    subst hv
    refine ⟨fun same u hu nt => rmack_present met same (hu.trans ?_) nt, fun past u hu nt => rmack_past met past hu nt⟩
    rw [same]; rfl
  case segment =>
    intro e k a s c h rest ea ps s1 bs s2 met runs right k1 k2 located loaded base limit u hu nt
    exact segld_goes met (met.privileged runs right) k1 k2 located loaded base limit hu nt

end Sys2Proof.Machine
end

section
/-! SUPPORT. The fragments that a group's fibres leave as when a handler takes their condition: how the fibres of one handler are
gathered (R458), and what the fragments made of them leave in the warp (R459). -/
namespace Sys2Proof.Machine

/-! ### Gathering the fibres of each handler (R458) -/

/-- A number above every number of a list goes to its end. -/
theorem insertNat_last (k : Nat) : ∀ l : List Nat, (∀ x ∈ l, x < k) → insertNat l k = l ++ [k]
  | [], _ => rfl
  | x :: l, h => by
    obtain ⟨low, rest⟩ := List.forall_mem_cons.1 h
    rw [insertNat, if_neg (Nat.ne_of_lt low), if_neg (Nat.not_lt.2 (Nat.le_of_lt low)), insertNat_last k l rest]
    rfl

/-- Raises of one code and address that gather some fibres by their handlers: each names all the fibres of its handler, no two
name the same handler, and every fibre is named. -/
structure Gathered (code : Nat) (pc : VAddr) (addr : Nat) (frag : Nat → BitVec 16) (ks : List Nat) (rs : List Raise) :
    Prop where
  each : ∀ r ∈ rs, r.code = code ∧ r.pc = pc ∧ r.addr = addr ∧ r.mask = ks.filter (fun j => frag j == r.parent)
  apart : rs.Pairwise fun r q => r.parent ≠ q.parent
  every : ∀ k ∈ ks, ∃ r ∈ rs, r.parent = frag k

/-- A raise with one fibre more, if it is that of the fibre's handler. -/
def Raise.take (parent : BitVec 16) (k : Nat) (r : Raise) : Raise :=
  if r.parent = parent then { r with mask := insertNat r.mask k } else r

@[simp] theorem Raise.take_parent (parent : BitVec 16) (k : Nat) (r : Raise) : (r.take parent k).parent = r.parent := by
  unfold Raise.take; split <;> rfl

theorem Raise.take_other {parent : BitVec 16} (k : Nat) {r : Raise} (h : r.parent ≠ parent) : r.take parent k = r := if_neg h

section
variable {code : Nat} {pc : VAddr} {addr : Nat}

/-- A fibre of a handler that no raise names makes a raise of its own. -/
theorem addRaise_new {parent : BitVec 16} (k : Nat) : ∀ rs : List Raise, (∀ r ∈ rs, r.parent ≠ parent) →
    addRaise rs code 0 pc parent k addr = rs ++ [⟨code, 0, pc, parent, [k], addr, 0, 0⟩]
  | [], _ => rfl
  | r :: rs, h => by
    obtain ⟨other, rest⟩ := List.forall_mem_cons.1 h
    simp only [addRaise, other, decide_false, Bool.and_false, Bool.false_eq_true, if_false, List.cons_append,
      addRaise_new k rs rest]

/-- The raise of a fibre's handler takes it, and every other raise is as before. -/
theorem addRaise_named {parent : BitVec 16} (k : Nat) : ∀ rs : List Raise, (∀ r ∈ rs, r.code = code ∧ r.pc = pc) →
    (rs.Pairwise fun r q => r.parent ≠ q.parent) → (∃ r ∈ rs, r.parent = parent) →
    addRaise rs code 0 pc parent k addr = rs.map (Raise.take parent k)
  | [], _, _, named => by obtain ⟨_, hr, _⟩ := named; exact absurd hr List.not_mem_nil
  | r :: rs, of, apart, named => by
    obtain ⟨⟨hcode, hpc⟩, ofs⟩ := List.forall_mem_cons.1 of
    obtain ⟨others, aparts⟩ := List.pairwise_cons.1 apart
    by_cases here : r.parent = parent
    · have rest : rs.map (Raise.take parent k) = rs :=
        (List.map_congr_left fun q hq => Raise.take_other k (here ▸ (others q hq).symm)).trans (List.map_id rs)
      simp only [addRaise, hcode, hpc, here, decide_true, Bool.and_self, if_true, List.map_cons, rest, Raise.take]
    · have later : ∃ q ∈ rs, q.parent = parent := by
        obtain ⟨q, hq, e⟩ := named
        rcases List.mem_cons.1 hq with rfl | hq
        · exact absurd e here
        · exact ⟨q, hq, e⟩
      simp only [addRaise, here, decide_false, Bool.and_false, Bool.false_eq_true, if_false, List.map_cons,
        Raise.take_other k here, addRaise_named k rs ofs aparts later]

variable {frag : Nat → BitVec 16} {ks : List Nat} {rs : List Raise}

theorem Gathered.nil : Gathered code pc addr frag [] [] :=
  ⟨fun _ h => absurd h List.not_mem_nil, List.Pairwise.nil, fun _ h => absurd h List.not_mem_nil⟩

/-- A fibre above those gathered is gathered too. -/
theorem Gathered.add {k : Nat} (h : Gathered code pc addr frag ks rs) (above : ∀ j ∈ ks, j < k) :
    Gathered code pc addr frag (ks ++ [k]) (addRaise rs code 0 pc (frag k) k addr) := by
  have mask : ∀ q : BitVec 16, (ks ++ [k]).filter (fun j => frag j == q)
      = if q = frag k then ks.filter (fun j => frag j == q) ++ [k] else ks.filter (fun j => frag j == q) := fun q => by
    rw [List.filter_append]
    by_cases e : q = frag k
    · rw [if_pos e, List.filter_cons_of_pos (p := fun j => frag j == q) (beq_iff_eq.2 e.symm), List.filter_nil]
    · rw [if_neg e, List.filter_cons_of_neg (p := fun j => frag j == q) fun same => e (eq_of_beq same).symm,
        List.filter_nil, List.append_nil]
  by_cases named : ∃ r ∈ rs, r.parent = frag k
  · rw [addRaise_named k rs (fun r hr => ⟨(h.each r hr).1, (h.each r hr).2.1⟩) h.apart named]
    refine ⟨fun q hq => ?_, List.pairwise_map.2 (by simpa using h.apart), fun j hj => ?_⟩
    · obtain ⟨r, hr, rfl⟩ := List.mem_map.1 hq
      obtain ⟨hcode, hpc, haddr, hmask⟩ := h.each r hr
      rw [Raise.take_parent, mask, ← hmask]
      by_cases e : r.parent = frag k
      · have low : ∀ j ∈ r.mask, j < k := fun j hj => above j (List.mem_filter.1 (hmask ▸ hj)).1
        simp only [Raise.take, if_pos e, hcode, hpc, haddr, insertNat_last k r.mask low, and_self]
      · simp only [Raise.take, if_neg e, hcode, hpc, haddr, and_self]
    · have old : ∃ r ∈ rs, r.parent = frag j := by
        rcases List.mem_append.1 hj with hj | hj
        · exact h.every j hj
        · rwa [List.mem_singleton.1 hj]
      obtain ⟨r, hr, e⟩ := old
      exact ⟨_, List.mem_map_of_mem hr, (Raise.take_parent _ k r).trans e⟩
  · have new : ∀ r ∈ rs, r.parent ≠ frag k := fun r hr e => named ⟨r, hr, e⟩
    have nobody : ks.filter (fun j => frag j == frag k) = [] := by
      refine List.filter_eq_nil_iff.2 fun j hj e => ?_
      obtain ⟨r, hr, parent⟩ := h.every j hj
      exact new r hr (parent.trans (eq_of_beq e))
    rw [addRaise_new k rs new]
    refine ⟨fun r hr => ?_, List.pairwise_append.2 ⟨h.apart, List.pairwise_singleton _ _, fun r hr q hq => ?_⟩,
      fun j hj => ?_⟩
    · rcases List.mem_append.1 hr with hr | hr
      · rw [mask, if_neg (new r hr)]; exact h.each r hr
      · rw [List.mem_singleton.1 hr, mask, if_pos rfl, nobody]; exact ⟨rfl, rfl, rfl, rfl⟩
    · rw [List.mem_singleton.1 hq]; exact new r hr
    · rcases List.mem_append.1 hj with hj | hj
      · obtain ⟨r, hr, e⟩ := h.every j hj
        exact ⟨r, List.mem_append_left _ hr, e⟩
      · rw [List.mem_singleton.1 hj]
        exact ⟨_, List.mem_append_right _ (List.mem_singleton_self _), rfl⟩

/-- Fibres in ascending order, above those gathered, are gathered one after another. -/
theorem Gathered.addAll (ks : List Nat) : ∀ (js : List Nat) (rs : List Raise), (js ++ ks).Pairwise (· < ·) →
    Gathered code pc addr frag js rs →
    Gathered code pc addr frag (js ++ ks) (ks.foldl (fun a k => addRaise a code 0 pc (frag k) k addr) rs) := by
  induction ks with
  | nil => intro js rs _ h; rwa [List.append_nil]
  | cons k ks ih =>
    intro js rs rising h
    obtain ⟨-, -, above⟩ := List.pairwise_append.1 rising
    rw [List.foldl_cons, List.append_cons]
    exact ih (js ++ [k]) _ (by rwa [← List.append_cons]) (h.add fun j hj => above j hj k (List.mem_cons_self ..))

/-- The raises of fibres in ascending order gather them. -/
theorem raisesOf_gathered (W : Warp) (code : Nat) (pc : VAddr) (addr : Nat) (ks : List Nat) (rising : ks.Pairwise (· < ·)) :
    Gathered code pc addr W.fragOf ks (raisesOf W code pc ks addr) :=
  Gathered.addAll ks [] [] rising .nil

end

/-- A raise goes behind those of its own code. -/
theorem insertRaise_last (r : Raise) : ∀ a : List Raise, (∀ x ∈ a, x.code = r.code) → insertRaise r a = a ++ [r]
  | [], _ => rfl
  | x :: a, h => by
    obtain ⟨same, rest⟩ := List.forall_mem_cons.1 h
    rw [insertRaise, same, if_neg (Nat.lt_irrefl _), insertRaise_last r a rest]
    rfl

/-- Raises of one code stay in the order in which they were made. -/
theorem insertRaises_one {code : Nat} (rs : List Raise) : ∀ a : List Raise, (∀ r ∈ a ++ rs, r.code = code) →
    rs.foldl (fun a r => insertRaise r a) a = a ++ rs := by
  induction rs with
  | nil => exact fun a _ => (List.append_nil a).symm
  | cons r rs ih =>
    intro a one
    have last : insertRaise r a = a ++ [r] := insertRaise_last r a fun x hx =>
      (one x (List.mem_append_left _ hx)).trans (one r (List.mem_append_right _ (List.mem_cons_self ..))).symm
    rw [List.foldl_cons, last, ih (a ++ [r]) (by simpa using one), List.append_assoc]
    rfl

/-! ### The fragments made of them (R458, R459) -/

/-- A fibre after its warp's fibres of some slots are changed. -/
theorem Warp.fibre?_mapFibres (W : Warp) (ks : List Nat) {g : Fibre → Fibre} (h : ∀ f, (g f).slot = f.slot) (k : Nat) :
    (W.mapFibres ks g).fibre? k = if ks.contains k then (W.fibre? k).map g else W.fibre? k := by
  have slots : ∀ f : Fibre, (if ks.contains f.slot then g f else f).slot = f.slot := fun f => by
    split
    · exact h f
    · rfl
  rw [Warp.fibre?, Warp.mapFibres, find_map_slot _ _ slots, ← Warp.fibre?]
  cases found : W.fibre? k with
  | none => simp
  | some f => simp only [Option.map_some, fibre_slot found]; split <;> rfl

/-- The fragment that a raise makes. -/
def Raise.fragment (lx word : Word) (all : List Nat) (W : Warp) (r : Raise) : Fragment :=
  ⟨W.nextFrag, r.parent, r.code, r.flags, r.mask, all.filter (fun k => !r.mask.contains k), r.pc, lx, word, r.addr, r.engine,
    r.seq, W.numflags⟩

/-- A fibre that waits in a raise's fragment. -/
def Raise.park (r : Raise) (id : BitVec 16) (f : Fibre) : Fibre :=
  { f with pc := r.pc, status := .fragment id, yields := f.yields || r.code == codeFutureEmpty }

/-- The warp once a raise's fibres wait. -/
def Raise.parkAll (W : Warp) (r : Raise) : Warp :=
  { W.mapFibres r.mask (r.park W.nextFrag) with nextFrag := nextId W.nextFrag }

theorem Raise.fibre?_parkAll (W : Warp) (r : Raise) (k : Nat) :
    (r.parkAll W).fibre? k = if r.mask.contains k then (W.fibre? k).map (r.park W.nextFrag) else W.fibre? k :=
  Warp.fibre?_mapFibres W r.mask (g := r.park W.nextFrag) (fun _ => rfl) k

section
variable {lx word : Word} {all : List Nat}

theorem makeFragments_cons (r : Raise) (rs : List Raise) (W : Warp) (acc : List Fragment) :
    makeFragments lx word all (r :: rs) W acc
      = makeFragments lx word all rs (r.parkAll W) (acc ++ [r.fragment lx word all W]) := rfl

/-- Fragments once made stay. -/
theorem makeFragments_keeps {q : Fragment} (rs : List Raise) : ∀ (W : Warp) (acc : List Fragment), q ∈ acc →
    q ∈ (makeFragments lx word all rs W acc).2 := by
  induction rs with
  | nil => exact fun _ _ h => h
  | cons r rs ih => exact fun W acc h => ih _ _ (List.mem_append_left _ h)

/-- A fibre that no raise names is as before. -/
theorem makeFragments_others {k : Nat} (rs : List Raise) : ∀ (W : Warp) (acc : List Fragment), (∀ r ∈ rs, k ∉ r.mask) →
    (makeFragments lx word all rs W acc).1.fibre? k = W.fibre? k := by
  induction rs with
  | nil => exact fun _ _ _ => rfl
  | cons r rs ih =>
    intro W acc h
    obtain ⟨not, rest⟩ := List.forall_mem_cons.1 h
    rw [makeFragments_cons, ih _ _ rest, Raise.fibre?_parkAll, if_neg (by simpa using not)]

/-- Fibres that wait in a fragment keep their registers. -/
theorem makeFragments_lanes (k : Nat) (rs : List Raise) : ∀ (W : Warp) (acc : List Fragment),
    ((makeFragments lx word all rs W acc).1.fibre? k).map (·.lanes) = (W.fibre? k).map (·.lanes) := by
  induction rs with
  | nil => exact fun _ _ => rfl
  | cons r rs ih =>
    intro W acc
    rw [makeFragments_cons, ih, Raise.fibre?_parkAll]
    split
    · rw [Option.map_map]; rfl
    · rfl

/-- Of raises that name no fibre twice, each makes a fragment in which its fibres wait. -/
theorem makeFragments_parks {r : Raise} (rs : List Raise) : ∀ (W : Warp) (acc : List Fragment),
    (rs.Pairwise fun r q => ∀ k ∈ r.mask, k ∉ q.mask) → r ∈ rs →
    ∃ q ∈ (makeFragments lx word all rs W acc).2, q.code = r.code ∧ q.pc = r.pc ∧ q.addr = r.addr ∧ q.parent = r.parent
      ∧ q.mask = r.mask ∧ ∀ k ∈ r.mask, (W.fibre? k).isSome = true →
        ((makeFragments lx word all rs W acc).1.fibre? k).map (fun f => (f.pc, f.status)) = some (r.pc, .fragment q.id) := by
  induction rs with
  | nil => exact fun _ _ _ h => absurd h List.not_mem_nil
  | cons x rs ih =>
    intro W acc apart hr
    obtain ⟨ahead, rest⟩ := List.pairwise_cons.1 apart
    rcases List.mem_cons.1 hr with rfl | hr
    · refine ⟨r.fragment lx word all W, makeFragments_keeps rs _ _ (List.mem_append_right _ (List.mem_singleton_self _)),
        rfl, rfl, rfl, rfl, rfl, fun k hk here => ?_⟩
      obtain ⟨f, hf⟩ := Option.isSome_iff_exists.1 here
      rw [makeFragments_cons, makeFragments_others rs _ _ (fun q hq => ahead q hq k hk), Raise.fibre?_parkAll,
        if_pos (List.contains_iff_mem.2 hk), hf]
      rfl
    · obtain ⟨q, hq, code, pc, addr, parent, mask, parked⟩ := ih (x.parkAll W) (acc ++ [x.fragment lx word all W]) rest hr
      refine ⟨q, hq, code, pc, addr, parent, mask, fun k hk here => parked k hk ?_⟩
      rw [Raise.fibre?_parkAll]
      split
      · rw [Option.isSome_map]; exact here
      · exact here

end

/-- The raises that gather fibres name none twice. -/
theorem Gathered.disjoint {code : Nat} {pc : VAddr} {addr : Nat} {frag : Nat → BitVec 16} {ks : List Nat} {rs : List Raise}
    (h : Gathered code pc addr frag ks rs) : rs.Pairwise fun r q => ∀ k ∈ r.mask, k ∉ q.mask := by
  refine h.apart.imp_of_mem fun {r q} hr hq ne k inR inQ => ne ?_
  obtain ⟨-, -, -, ofR⟩ := h.each r hr
  obtain ⟨-, -, -, ofQ⟩ := h.each q hq
  rw [ofR] at inR
  rw [ofQ] at inQ
  exact (eq_of_beq (List.mem_filter.1 inR).2).symm.trans (eq_of_beq (List.mem_filter.1 inQ).2)

/-- Fragments put ahead of a queue and behind it, by a test, all stand in it. -/
theorem mem_queueAround {q : Fragment} {qs : List Fragment} (ahead : Fragment → Bool) (queue : List Fragment) (h : q ∈ qs) :
    q ∈ qs.filter ahead ++ queue ++ qs.filter fun q => !ahead q := by
  cases side : ahead q <;> simp [h, side]

/-- Raises of one code, in a launch with a trap vector, are made into fragments, which join the warp's queue. -/
theorem raiseUser_makes {s : State} {w code : Nat} {rs : List Raise} (lx word : Word) (raised : rs ≠ [])
    (one : ∀ r ∈ rs, r.code = code) (vector : (s.launch (s.warp w).launch).lrec.trapVec ≠ 0) :
    ∃ Q, raiseUser s w lx word rs
        = s.setWarp w { (makeFragments lx word (rs.flatMap (·.mask)) rs (s.warp w) []).1 with queue := Q }
      ∧ ∀ q ∈ (makeFragments lx word (rs.flatMap (·.mask)) rs (s.warp w) []).2, q ∈ Q := by
  obtain ⟨r, t, rfl⟩ := List.exists_cons_of_ne_nil raised
  have order : (r :: t).foldl (fun a r => insertRaise r a) [] = r :: t := insertRaises_one (r :: t) [] one
  unfold raiseUser
  simp only [order, if_neg vector]
  exact ⟨_, rfl, fun q hq => mem_queueAround _ _ hq⟩

/-- Fibres of a warp, in ascending order of their slots, that a handler takes with one code are diverted. -/
theorem raiseUser_diverts {s : State} {w code addr : Nat} {pc : VAddr} {ks : List Nat} (lx word : Word)
    (rising : ks.Pairwise (· < ·)) (here : ∀ k ∈ ks, ((s.warp w).fibre? k).isSome = true) (acting : ks ≠ [])
    (vector : (s.launch (s.warp w).launch).lrec.trapVec ≠ 0) :
    Claims.Diverted s (raiseUser s w lx word (raisesOf (s.warp w) code pc ks addr)) w code pc ks addr := by
  have gathered := raisesOf_gathered (s.warp w) code pc addr ks rising
  generalize raisesOf (s.warp w) code pc ks addr = rs at gathered
  have raised : rs ≠ [] := by
    obtain ⟨k, hk⟩ := List.exists_mem_of_ne_nil ks acting
    obtain ⟨r, hr, -⟩ := gathered.every k hk
    exact List.ne_nil_of_mem hr
  obtain ⟨Q, made, joins⟩ := raiseUser_makes lx word raised (fun r hr => (gathered.each r hr).1) vector
  rw [made]
  have after : ∀ W : Warp, (s.setWarp w W).warp w = W := fun W => (State.warp_setWarp s w w W).trans (if_pos rfl)
  refine ⟨fun k hk => ?_, fun k => ?_, rfl⟩
  · obtain ⟨r, hr, parent⟩ := gathered.every k hk
    obtain ⟨q, hq, hcode, hpc, haddr, hparent, hmask, parked⟩ := makeFragments_parks rs (s.warp w) [] gathered.disjoint hr
    obtain ⟨rcode, rpc, raddr, rmask⟩ := gathered.each r hr
    have mine : k ∈ r.mask := by rw [rmask]; exact List.mem_filter.2 ⟨hk, by rw [parent]; exact beq_self_eq_true _⟩
    rw [after]
    refine ⟨q, joins q hq, hcode.trans rcode, hpc.trans rpc, haddr.trans raddr, hparent.trans parent, ?_, ?_⟩
    · rw [hmask, rmask, parent]
    · rw [← rpc]; exact parked k mine (here k hk)
  · rw [after]; exact makeFragments_lanes k rs (s.warp w) []

end Sys2Proof.Machine
end

section
/-! SUPPORT. What `finish` leaves of a group some of whose fibres a handler takes, and the statement about unallocated encodings
and bad operands that follows. -/
namespace Sys2Proof.Machine

/-! ### Results in the order of a warp's fibres (R472) -/

/-- A result behind those of lower slots goes to the end. -/
theorem insertRes_last (r : FibreRes) : ∀ a : List FibreRes, (∀ x ∈ a, x.slot ≤ r.slot) → insertRes r a = a ++ [r]
  | [], _ => rfl
  | x :: a, h => by
    obtain ⟨low, rest⟩ := List.forall_mem_cons.1 h
    rw [insertRes, if_neg (Nat.not_lt.2 low), insertRes_last r a rest]
    rfl

/-- Results that rise are put in the order that they have. -/
theorem insertAll_rising (rs : List FibreRes) : ∀ a : List FibreRes, Rising (a ++ rs) →
    rs.foldl (fun a r => insertRes r a) a = a ++ rs := by
  induction rs with
  | nil => exact fun a _ => (List.append_nil a).symm
  | cons r rs ih =>
    intro a rising
    obtain ⟨-, -, before⟩ := List.pairwise_append.1 rising
    rw [List.foldl_cons, insertRes_last r a fun x hx => before x hx r (List.mem_cons_self ..),
      ih (a ++ [r]) (by rwa [List.append_assoc, List.singleton_append]), List.append_assoc, List.singleton_append]

/-- Results that rise by slot are already in order. -/
theorem bySlot_rising {rs : List FibreRes} (h : Rising rs) : bySlot rs = rs := insertAll_rising rs [] h

section
variable {s : State} {c : Issue} {x : Cause} {on : Fibre → Bool} {step : Fibre → FibreRes}

/-- Of a group, the fibres that `on` names are diverted with a condition that a handler takes; every other goes on with its
registers as they are, and takes no trap. -/
structure DivertsOn (s : State) (c : Issue) (x : Cause) (on : Fibre → Bool) (step : Fibre → FibreRes) : Prop where
  user : (blockLevel x.code || x.code == codeSoftError) = false
  stops : ∀ f, on f = true → step f = stopRes (.cause x) f
  skips : ∀ f, on f = false → NoNumTraps s c ∧ ∃ pc num, step f = ⟨f.slot, .done { f with pc := pc }, 0, num⟩

/-- Each result is its own fibre's. -/
theorem DivertsOn.slot (h : DivertsOn s c x on step) (f : Fibre) : (step f).slot = f.slot := by
  cases side : on f with
  | true => rw [h.stops f side]; rfl
  | false => obtain ⟨-, pc, num, skip⟩ := h.skips f side; rw [skip]

/-- Each result is a diversion with the condition, or completes. -/
theorem DivertsOn.fin (h : DivertsOn s c x on step) (f : Fibre) :
    (step f).fin = .stop (.cause x) ∨ ∃ g, (step f).fin = .done g := by
  cases side : on f with
  | true => rw [h.stops f side]; exact .inl rfl
  | false => obtain ⟨-, pc, num, skip⟩ := h.skips f side; rw [skip]; exact .inr ⟨_, rfl⟩

/-- A fibre's handler and registers are as before its instruction. -/
theorem DivertsOn.fibreAfter_keeps (h : DivertsOn s c x on step) (i : Instr) (n k : Nat) {W : Warp} {f : Fibre}
    (hf : W.fibre? k = some f) :
    (fibreAfter i c n ((groupOf W c).map step) f).frag = f.frag
      ∧ (fibreAfter i c n ((groupOf W c).map step) f).lanes = f.lanes := by
  unfold fibreAfter
  rw [fibre_slot hf, results_find W c k step h.slot, hf]
  by_cases mine : c.group.contains k = true
  · rw [if_pos mine, Option.map_some]
    cases side : on f with
    | true => rw [h.stops f side]; simp only [stopRes]; split <;> exact ⟨rfl, rfl⟩
    | false => obtain ⟨-, pc, num, skip⟩ := h.skips f side; rw [skip]; exact ⟨rfl, rfl⟩
  · rw [if_neg mine]; exact ⟨rfl, rfl⟩

/-- And so is its slot, whichever fibre it is. -/
theorem DivertsOn.fibreAfter_slot (h : DivertsOn s c x on step) (i : Instr) (n : Nat) (W : Warp) (f : Fibre) :
    (fibreAfter i c n ((groupOf W c).map step) f).slot = f.slot := by
  unfold fibreAfter
  cases found : ((groupOf W c).map step).find? (fun r => r.slot == f.slot) with
  | none => rfl
  | some r =>
    obtain ⟨g, -, rfl⟩ := List.mem_map.1 (List.mem_of_find?_eq_some found)
    have same : (step g).slot = f.slot := by simpa using List.find?_some found
    cases side : on g with
    | true => rw [h.stops g side]; simp only [stopRes]; split <;> rfl
    | false =>
      obtain ⟨-, pc, num, skip⟩ := h.skips g side
      rw [skip] at same ⊢
      exact same

/-- The conditions of the group that a handler takes: those of the diverted fibres. -/
theorem DivertsOn.userRaises (h : DivertsOn s c x on step) {t : State} {V : Warp} (pc : VAddr)
    (same : (t.launch V.launch).lrec.numTraps = (s.launch (s.warp c.warp).launch).lrec.numTraps) (fs : List Fibre) :
    userRaises t V pc (fs.map step) = raisesOf V x.code pc ((fs.filter on).map (·.slot)) x.addr := by
  unfold Machine.userRaises raisesOf
  generalize ([] : List Raise) = a
  induction fs generalizing a with
  | nil => rfl
  | cons f fs ih =>
    rw [List.map_cons, List.foldl_cons]
    cases side : on f with
    | true =>
      rw [List.filter_cons_of_pos side, List.map_cons, List.foldl_cons, h.stops f side]
      simp only [stopRes, h.user, Bool.false_eq_true, if_false]
      exact ih _
    | false =>
      obtain ⟨nt, at_, num, skip⟩ := h.skips f side
      rw [List.filter_cons_of_neg (by rw [side]; exact Bool.false_ne_true), skip]
      have rest := ih a
      simp only [trapEvents_none t V _ (same.trans nt)] at rest ⊢
      cases f.status <;> exact rest

/-- No block-level condition is reported. -/
theorem DivertsOn.blockRecs (h : DivertsOn s c x on step) (t : State) (V : Warp) (pc : VAddr) (fs : List Fibre) :
    blockRecs t V pc (fs.map step) = [] := by
  have low : blockLevel x.code = false := (Bool.or_eq_false_iff.1 h.user).1
  unfold Machine.blockRecs
  induction fs with
  | nil => rfl
  | cons f fs ih =>
    rw [List.map_cons, List.foldl_cons]
    rcases h.fin f with e | ⟨g, e⟩
    · simp only [e, low, Bool.false_and, Bool.false_eq_true, if_false]; exact ih
    · simp only [e]; exact ih

/-- No soft error is found. -/
theorem DivertsOn.softError (h : DivertsOn s c x on step) (fs : List Fibre) :
    (fs.map step).findSome? FibreRes.softError = none := by
  refine List.findSome?_eq_none_iff.2 fun r hr => ?_
  obtain ⟨f, -, rfl⟩ := List.mem_map.1 hr
  have hard : (x.code == codeSoftError) = false := (Bool.or_eq_false_iff.1 h.user).2
  rcases h.fin f with e | ⟨g, e⟩ <;> simp only [FibreRes.softError, e, hard, Bool.false_eq_true, if_false]

/-- No fibre has ended. -/
theorem DivertsOn.endGone (h : DivertsOn s c x on step) (t : State) (w : Nat) (fs : List Fibre) :
    endGone t w (fs.map step) = t := by
  have nobody : (fs.map step).filter (fun r => r.fin == .gone) = [] := by
    refine List.filter_eq_nil_iff.2 fun r hr => ?_
    obtain ⟨f, -, rfl⟩ := List.mem_map.1 hr
    rcases h.fin f with e | ⟨g, e⟩ <;> simp [e]
  simp only [Machine.endGone, nobody, List.map_nil, if_true]

/-- None waits for a stage. -/
theorem DivertsOn.countStage (h : DivertsOn s c x on step) (t : State) (W : Warp) (fs : List Fibre) :
    countStage t W (fs.map step) = t := by
  have nobody : ((fs.map step).any fun r => r.fin == .stop (.wait .stage)) = false := by
    refine List.any_eq_false.2 fun r hr => ?_
    obtain ⟨f, -, rfl⟩ := List.mem_map.1 hr
    rcases h.fin f with e | ⟨g, e⟩ <;> simp [e]
  simp only [Machine.countStage, nobody, Bool.false_and, Bool.false_eq_true, if_false]

/-- What a diversion leaves is the same from a state with the same memory, and the same handlers and registers of the warp's
fibres. -/
theorem diverted_of_same {t u : State} {w code addr : Nat} {pc : VAddr} {ks : List Nat}
    (h : Claims.Diverted t u w code pc ks addr) (mem : t.mem = s.mem)
    (frag : ∀ k, (t.warp w).fragOf k = (s.warp w).fragOf k)
    (lanes : ∀ k, ((t.warp w).fibre? k).map (·.lanes) = ((s.warp w).fibre? k).map (·.lanes)) :
    Claims.Diverted s u w code pc ks addr := by
  refine ⟨fun k hk => ?_, fun k => (h.lanes k).trans (lanes k), h.memory.trans mem⟩
  simpa only [frag] using h.queue k hk

/-- Results of a warp's group, in line, rise by slot. -/
theorem DivertsOn.rising (h : DivertsOn s c x on step) {W : Warp} (line : Claims.InLine W) :
    Rising ((groupOf W c).map step) := by
  refine List.pairwise_map.2 (((List.pairwise_map.1 line).filter _).imp fun {f g} lt => ?_)
  rw [h.slot, h.slot]
  exact Nat.le_of_lt lt

/-- The instruction diverts what it diverts from a state that differs in counters and in its warp: there the fibres of the group
have had their results. -/
theorem DivertsOn.finish_eq (h : DivertsOn s c x on step) (i : Instr) (line : Claims.InLine (s.warp c.warp)) :
    ∃ V t, V.fibres = (s.warp c.warp).fibres.map (fibreAfter i c s.next ((groupOf (s.warp c.warp) c).map step))
      ∧ V.launch = (s.warp c.warp).launch ∧ CountersOnly (({ s with next := s.next + 1 } : State).setWarp c.warp V) t
      ∧ finish s i c ((groupOf (s.warp c.warp) c).map step) = divert t c V ((groupOf (s.warp c.warp) c).map step) := by
  unfold finish
  simp only [bySlot_rising (h.rising line), h.countStage, h.endGone]
  refine ⟨_, _, ?fibres, ?launch, ?counters, rfl⟩
  case fibres => rfl
  case launch => rfl
  case counters => exact countEvents_counters _ _ _ _

/-- What is diverted is raised. -/
theorem DivertsOn.divert_eq (h : DivertsOn s c x on step) {t : State} {V : Warp}
    (same : (t.launch V.launch).lrec.numTraps = (s.launch (s.warp c.warp).launch).lrec.numTraps) (fs : List Fibre) :
    divert t c V (fs.map step)
      = raiseUser t c.warp (c.lx.getD 0) c.word (raisesOf V x.code c.pc ((fs.filter on).map (·.slot)) x.addr) := by
  unfold divert
  simp only [h.userRaises c.pc same, h.blockRecs, h.softError, List.foldl_nil]

/-- The fibres of a group that are diverted with one condition leave it as fragments. -/
theorem DivertsOn.finish_diverts (h : DivertsOn s c x on step) (i : Instr) (line : Claims.InLine (s.warp c.warp))
    (vector : (s.launch (s.warp c.warp).launch).lrec.trapVec ≠ 0) (acting : ∃ f ∈ groupOf (s.warp c.warp) c, on f = true) :
    Claims.Diverted s (finish s i c ((groupOf (s.warp c.warp) c).map step)) c.warp x.code c.pc
      (((groupOf (s.warp c.warp) c).filter on).map (·.slot)) x.addr := by
  obtain ⟨V, t, fibres, launch, counters, ends⟩ := h.finish_eq i line
  have here : t.warp c.warp = V := by
    rw [counters.1]; exact (State.warp_setWarp _ _ _ _).trans (if_pos rfl)
  have launches : ∀ l, t.launch l = s.launch l := fun l => by rw [counters.1]; rfl
  have after : ∀ k, V.fibre? k
      = ((s.warp c.warp).fibre? k).map (fibreAfter i c s.next ((groupOf (s.warp c.warp) c).map step)) := fun k => by
    rw [Warp.fibre?, fibres, find_map_slot _ _ (h.fibreAfter_slot i s.next _), ← Warp.fibre?]
  rw [ends, h.divert_eq (by rw [launches, launch])]
  have diverted := raiseUser_diverts (s := t) (w := c.warp) (code := x.code) (addr := x.addr) (pc := c.pc)
    (ks := ((groupOf (s.warp c.warp) c).filter on).map (·.slot)) (c.lx.getD 0) c.word ?rising ?here ?acting ?vector
  case rising => exact List.pairwise_map.2 (((List.pairwise_map.1 line).filter _).filter _)
  case here =>
    intro k hk
    obtain ⟨f, hf, rfl⟩ := List.mem_map.1 hk
    have inWarp : f ∈ (s.warp c.warp).fibres := (List.mem_filter.1 (List.mem_filter.1 hf).1).1
    rw [here, after, Option.isSome_map, Warp.fibre?, List.find?_isSome]
    exact ⟨f, inWarp, beq_self_eq_true _⟩
  case acting =>
    obtain ⟨f, hf, side⟩ := acting
    exact List.ne_nil_of_mem (List.mem_map_of_mem (List.mem_filter.2 ⟨hf, side⟩))
  case vector => rwa [here, launches, launch]
  rw [here] at diverted
  refine diverted_of_same diverted (by rw [counters.1]; rfl) (fun k => ?_) (fun k => ?_)
  · rw [here, Warp.fragOf, after, Warp.fragOf]
    cases found : (s.warp c.warp).fibre? k with
    | none => rfl
    | some f => exact (h.fibreAfter_keeps i s.next k found).1
  · rw [here, after]
    cases found : (s.warp c.warp).fibre? k with
    | none => rfl
    | some f => exact congrArg some (h.fibreAfter_keeps i s.next k found).2

end

/-! ### Words that are no instruction, and operands that the window does not allow (R189, R199) -/

/-- A register instruction with an operand that the window does not allow diverts the fibres whose guard holds. -/
theorem laneStep_divertsOn {s : State} {c : Issue} {x : Lx} {us : List RegUse} (op : LaneEnv → Fibre → LaneOut)
    (nt : NoNumTraps s c) (bad : usesOk (s.warp c.warp).window us = false) :
    DivertsOn s c ⟨codeIllegalOperand, 0, .read⟩ (fun f => (guardOf x f).1) (laneStep (laneEnv s c x) us op) := by
  have refused : usesOk (laneEnv s c x).warp.window us = false := bad
  have guarded : (laneEnv s c x).x = x := rfl
  refine ⟨rfl, fun f side => ?_, fun f side => ⟨nt, nextPc c, guardEvent (guardOf x f).2, ?_⟩⟩
  · simp only [laneStep, guarded, refused, side, Bool.not_true, Bool.not_false, Bool.false_eq_true, if_false, if_true, stopRes]
  · simp only [laneStep, guarded, side, Bool.not_false, if_true]
    rfl

/-- A register instruction with an operand that the window does not allow, by its own uses. -/
theorem badOperand_of {i : Instr} {x : Lx} {us : List RegUse} {op : LaneEnv → Fibre → LaneOut}
    (form : ∀ s, exec i s = lanePure x us op s) : Claims.BadOperand i x us := by
  intro s c cur nt line vector bad free acting
  refine ⟨_, ?_, (laneStep_divertsOn op nt bad).finish_diverts (.nop x) line vector acting⟩
  rw [form]
  simp only [lanePure, cur, afterLoads_goes _ _ _ _ _ _ free]

/-- An unallocated encoding diverts its whole group. -/
theorem unallocated_divertsOn (s : State) (c : Issue) :
    DivertsOn s c ⟨codeIllegalInstr, 0, .fetch⟩ (fun _ => true) (stopRes (.cause ⟨codeIllegalInstr, 0, .fetch⟩)) :=
  ⟨rfl, fun _ _ => rfl, fun _ no => absurd no (Bool.noConfusion)⟩

theorem execUnallocatedEncoding_diverts {s : State} {c : Issue} (lx : Option Word) (w : Word) (cur : s.cur = some c)
    (acting : groupOf (s.warp c.warp) c ≠ []) (line : Claims.InLine (s.warp c.warp))
    (vector : (s.launch (s.warp c.warp).launch).lrec.trapVec ≠ 0) :
    ∃ t, execUnallocatedEncoding lx w s = .next t
      ∧ Claims.Diverted s t c.warp 0x0201 c.pc ((groupOf (s.warp c.warp) c).map (·.slot)) 0 := by
  obtain ⟨f, hf⟩ := List.exists_mem_of_ne_nil _ acting
  have diverted := (unallocated_divertsOn s { c with lx := lx, word := w }).finish_diverts (.unallocatedEncoding lx w) line
    vector ⟨f, hf, rfl⟩
  rw [List.filter_eq_self.2 fun _ _ => rfl] at diverted
  refine ⟨_, ?_, diverted⟩
  simp only [execUnallocatedEncoding, cur]
  rfl

/-- Settles O45: an LX word by its execution, and each diversion by `DivertsOn.finish_diverts` on the results of its group. -/
theorem illegalEncodings : Obligations.IllegalEncodings := by
  unfold Obligations.IllegalEncodings
  refine ⟨fun neg pred rnd sib imm s c cur => ?_, fun lx w s c cur acting line vector => ?_,
    fun x cy sat w d a b => badOperand_of fun s => rfl, fun x ty d a b => badOperand_of fun s => rfl,
    fun x w d a => badOperand_of fun s => rfl⟩
  · show execLxWord neg pred rnd sib imm s = _
    simp only [execLxWord, cur]
  · exact execUnallocatedEncoding_diverts lx w cur acting line vector

end Sys2Proof.Machine
end

section
/-! SUPPORT. Lane integer instructions: what the model's operations on values of w bits come to in the words of the statements, the
forms that give a register a function of others, and the statements about sums, products, selections, logic and shifts that follow. -/
namespace Sys2Proof.Machine
open Sys2Proof.Claims

/-! ### Values of w bits (R198) -/

/-- The W bit gives the model and the statements one width. -/
theorem widthOf_eq_bits (w : Bool) : widthOf w = bits w := rfl

/-- So it does one value modulo 2^w. -/
theorem wrapInt_eq_modulo (w : Nat) (v : Int) : wrapInt w v = modulo w v := rfl

/-- Values are read as signed or unsigned as the statements read them. -/
theorem intOf_eq_read (sg : Bool) (w v : Nat) : intOf sg w v = read sg w v := compared_eq_read sg w v

/-- A natural number modulo 2^w. -/
theorem modulo_natCast (w v : Nat) : modulo w (v : Int) = v % 2 ^ w := by
  unfold modulo
  rw [← Int.natCast_emod, Int.toNat_natCast]

/-- A register or a pair holds a value of its width. -/
theorem Lane.val_lt (l : Lane) (w : Bool) (r : Nat) : l.val w r < 2 ^ bits w := by
  have word : ∀ q, l.reg q < 2 ^ 32 := fun q => BitVec.isLt _
  cases w with
  | false => exact word r
  | true =>
    have low := word r
    have high := word (r + 1)
    simp only [Lane.val, Lane.pair, bits, if_true]
    omega

/-- The nearest natural number of w bits. -/
theorem toNat_clampInt (w : Nat) (v : Int) : (clampInt 0 ((2 ^ w : Nat) - 1) v).toNat = min v.toNat (2 ^ w - 1) := by
  have pos := Nat.one_le_two_pow (n := w)
  unfold clampInt
  split
  · omega
  · split <;> omega

/-- A value of w bits read as two's complement is at least -2^w and below 2^w. -/
theorem signed_bounds {w p : Nat} (h : p < 2 ^ w) : -((2 ^ w : Nat) : Int) ≤ signed w p ∧ signed w p < (2 ^ w : Nat) := by
  unfold signed
  split <;> omega

/-- A quotient by more than its dividend is the sign. -/
theorem ediv_eq_sign {v : Int} {n : Nat} (low : -(n : Int) ≤ v) (high : v < n) : v / (n : Int) = if v < 0 then -1 else 0 := by
  split
  · rename_i neg
    exact Int.ediv_eq_neg_one_of_neg_of_le neg (by omega)
  · exact Int.ediv_eq_zero_of_lt (by omega) high

/-- -1 modulo 2^w has every bit set. -/
theorem modulo_neg_one (w : Nat) : modulo w (-1) = 2 ^ w - 1 := by
  have pos := Nat.one_le_two_pow (n := w)
  unfold modulo
  rw [show (-1 : Int) = ((2 ^ w - 1 : Nat) : Int) + -1 * ((2 ^ w : Nat) : Int) by omega, Int.add_mul_emod_self_right,
    ← Int.natCast_emod, Int.toNat_natCast, Nat.mod_eq_of_lt (by omega)]

/-! ### Results in the statements' words (R202 to R208) -/

section
variable (w p q : Nat)

/-- A sum and its carry. -/
theorem addSub_add (sat : BitVec 2) :
    addSub false sat w p q
      = (if sat = 1 then saturate w (signed w p + signed w q) else if sat = 2 then min (p + q) (2 ^ w - 1) else (p + q) % 2 ^ w,
          decide (2 ^ w ≤ p + q)) := by
  simp only [addSub, Bool.false_eq_true, if_false, clampSigned_eq_saturate, toSigned_eq_signed,
    ← Int.natCast_add, toNat_clampInt, Int.toNat_natCast, wrapInt_eq_modulo, modulo_natCast]

/-- A difference and its borrow. -/
theorem addSub_sub (sat : BitVec 2) :
    addSub true sat w p q
      = (if sat = 1 then saturate w (signed w p - signed w q) else if sat = 2 then min (p - q) (2 ^ w - 1)
          else modulo w ((p : Int) - q), decide (p < q)) := by
  simp only [addSub, if_true, clampSigned_eq_saturate, toSigned_eq_signed, toNat_clampInt, Int.toNat_sub, wrapInt_eq_modulo]

/-- The funnel shift to the left. -/
theorem funnel_left (n : Nat) : funnel true p q n = (p * 2 ^ 32 + q) * 2 ^ (n % 32) / 2 ^ 32 % 2 ^ 32 := by
  simp only [funnel, wrap, if_true]

/-- And to the right. -/
theorem funnel_right (n : Nat) : funnel false p q n = (p * 2 ^ 32 + q) / 2 ^ (n % 32) % 2 ^ 32 := by
  simp only [funnel, wrap, Bool.false_eq_true, if_false]

/-- The high bits of a product. -/
theorem mulHigh_eq (sg : Bool) : mulHigh sg w p q = modulo w (read sg w p * read sg w q / (2 ^ w : Nat)) := by
  simp only [mulHigh, intOf_eq_read, wrapInt_eq_modulo]

/-- The smaller operand. -/
theorem minMax_min (sg : Bool) : minMax false sg w p q = if read sg w p < read sg w q then p else q := by
  simp only [minMax, intOf_eq_read, beq_false, Bool.not_eq_true', decide_eq_false_iff_not, ite_not]

/-- The larger operand. -/
theorem minMax_max (sg : Bool) : minMax true sg w p q = if read sg w p < read sg w q then q else p := by
  simp only [minMax, intOf_eq_read, beq_true, decide_eq_true_eq]

/-- The absolute value. -/
theorem absNeg_abs (sat : Bool) :
    absNeg false sat w p
      = if sat then saturate w ((signed w p).natAbs : Int) else modulo w ((signed w p).natAbs : Int) := by
  have abs : (if signed w p < 0 then -signed w p else signed w p) = ((signed w p).natAbs : Int) := by
    split <;> omega
  simp only [absNeg, toSigned_eq_signed, Bool.false_eq_true, if_false, abs, clampSigned_eq_saturate, wrapInt_eq_modulo]

/-- The negation. -/
theorem absNeg_neg (sat : Bool) :
    absNeg true sat w p = if sat then saturate w (-signed w p) else modulo w (-signed w p) := by
  simp only [absNeg, toSigned_eq_signed, if_true, clampSigned_eq_saturate, wrapInt_eq_modulo]

/-- A signed shift of a value of w bits: by w or more, the copies of its sign that a shift by w leaves. -/
theorem shiftOp_sar (n : Nat) (h : p < 2 ^ w) : shiftOp .sar w p n = shiftSigned w p n := by
  unfold shiftOp shiftSigned
  simp only [toSigned_eq_signed, wrapInt_eq_modulo]
  split
  · rw [Nat.min_eq_left (by omega)]
  · obtain ⟨low, high⟩ := signed_bounds h
    rw [Nat.min_eq_right (by omega), ediv_eq_sign low high]
    split
    · exact modulo_neg_one w
    · exact (modulo_natCast w 0).trans (Nat.zero_mod _)

end

/-! ### Registers that receive a function of others -/

section
variable {i : Instr} {x : Lx} {us : List RegUse} {wd w wb : Bool} {d a b c : Reg}

/-- A register instruction does what its results are, fibre by fibre. -/
theorem laneDoes_of_eq {op out : LaneEnv → Fibre → LaneOut} (form : ∀ s, exec i s = lanePure x us op s)
    (same : ∀ e f, op e f = out e f) : LaneDoes i x us out :=
  laneDoes_of i x us op out form (funext fun e => funext (same e))

/-- d receives a function of a. -/
theorem laneDoes_from1 {g h : Nat → Nat} (form : ∀ s, exec i s = lanePure x us (fun _ => unary wd w d a g) s)
    (same : ∀ p, p < 2 ^ bits w → g p = h p) : LaneDoes i x us (from1 wd w d a h) := by
  refine laneDoes_of_eq form fun _ f => ?_
  simp only [unary, same _ (Lane.val_lt _ _ _)]
  rfl

/-- d receives a function of a and b. -/
theorem laneDoes_from2 {g h : Nat → Nat → Nat} (form : ∀ s, exec i s = lanePure x us (fun _ => binary w wb d a b g) s)
    (same : ∀ p q, p < 2 ^ bits w → q < 2 ^ bits wb → g p q = h p q) : LaneDoes i x us (from2 w w wb d a b h) := by
  refine laneDoes_of_eq form fun _ f => ?_
  simp only [binary, same _ _ (Lane.val_lt _ _ _) (Lane.val_lt _ _ _)]
  rfl

/-- d receives a function of a, b and c. -/
theorem laneDoes_from3 {g h : Nat → Nat → Nat → Nat}
    (form : ∀ s, exec i s = lanePure x us (fun _ f => quiet f fun _ l =>
      l.setVal w d.toNat (g (l.val w a.toNat) (l.val w b.toNat) (l.val wb c.toNat))) s)
    (same : ∀ p q r, g p q r = h p q r) : LaneDoes i x us (from3 w wb d a b c h) := by
  refine laneDoes_of_eq form fun _ f => ?_
  simp only [same]
  rfl

/-- d and the predicate that CY names receive functions of a, b and that predicate. -/
theorem laneDoes_withCarry {cy : BitVec 3} {r : Nat → Nat → Bool → Nat × Bool} {g : Nat → Nat → Bool → Nat}
    {h : Nat → Nat → Bool → Bool}
    (form : ∀ s, exec i s = lanePure x us (fun _ f => quiet f fun _ l =>
      (l.setVal w d.toNat (r (l.val w a.toNat) (l.val w b.toNat) (l.pred (cy - 1))).1).setCarry cy
        (r (l.val w a.toNat) (l.val w b.toNat) (l.pred (cy - 1))).2) s)
    (same : ∀ p q k, r p q k = (g p q k, h p q k)) : LaneDoes i x us (withCarry w cy d a b g h) := by
  refine laneDoes_of_eq form fun _ f => ?_
  simp only [same, Lane.setCarry]
  rfl

end

/-- A shift by a register's value or by the b field. -/
theorem laneShift_does {i : Lx → Bool → Bool → Reg → Reg → Reg → Instr} {k : Shift} {g : Nat → Nat → Nat → Nat}
    (form : ∀ x imm w d a b s, exec (i x imm w d a b) s = laneShift k x imm w d a b s)
    (same : ∀ w p n, p < 2 ^ w → shiftOp k w p n = g w p n) (x : Lx) (w : Bool) (d a b : Reg) :
    LaneDoes (i x false w d a b) x [byW w d, byW w a, one b] (from2 w w false d a b (g (bits w)))
      ∧ LaneDoes (i x true w d a b) x [byW w d, byW w a] (from1 w w d a fun p => g (bits w) p b.toNat) :=
  ⟨laneDoes_from2 (g := shiftOp k (widthOf w)) (form x false w d a b) fun p q hp _ => same _ p q hp,
    laneDoes_from1 (g := fun p => shiftOp k (widthOf w) p b.toNat) (form x true w d a b) fun p hp => same _ p _ hp⟩

/-! ### The statements -/

/-- Settles O1: each is the model's result of the operands with its carry, which the predicate that CY names receives. -/
theorem integerSums : Obligations.IntegerSums := by
  unfold Obligations.IntegerSums
  refine ⟨fun x cy sat w d a b => ?add, fun x cy sat w d a b => ?sub, fun x cy w d a b => ?addc, fun x cy w d a b => ?subb⟩
  case add =>
    exact laneDoes_withCarry (r := fun p q _ => addSub false sat (widthOf w) p q) (fun _ => rfl) fun p q _ => addSub_add _ p q sat
  case sub =>
    exact laneDoes_withCarry (r := fun p q _ => addSub true sat (widthOf w) p q) (fun _ => rfl) fun p q _ => addSub_sub _ p q sat
  case addc => exact laneDoes_withCarry (r := addCarry false (widthOf w)) (fun _ => rfl) fun _ _ _ => rfl
  case subb => exact laneDoes_withCarry (r := addCarry true (widthOf w)) (fun _ => rfl) fun _ _ _ => rfl

/-- Settles O2: products are taken as the model takes them; the high bits and the wide sum read their operands by S. -/
theorem integerProducts : Obligations.IntegerProducts := by
  unfold Obligations.IntegerProducts
  refine ⟨fun x w d a b => ?low, fun x sg w d a b => ?high, fun x w d a b c => ?sum, fun x sg d a b c => ?wide⟩
  case low => exact laneDoes_from2 (fun _ => rfl) fun _ _ _ _ => rfl
  case high => exact laneDoes_from2 (fun _ => rfl) fun p q _ _ => mulHigh_eq _ p q sg
  case sum => exact laneDoes_from3 (g := fun p q r => wrap (widthOf w) (p * q + r)) (fun _ => rfl) fun _ _ _ => rfl
  case wide =>
    refine laneDoes_of_eq (fun _ => rfl) fun _ f => ?_
    simp only [intOf_eq_read, wrapInt_eq_modulo]
    rfl

/-- Settles O3: each is the model's selection, read as the statements read signed and unsigned values. -/
theorem integerSelections : Obligations.IntegerSelections := by
  unfold Obligations.IntegerSelections
  refine ⟨fun x sg w d a b => ?min, fun x sg w d a b => ?max, fun x sat w d a => ?abs, fun x sat w d a => ?neg⟩
  case min => exact laneDoes_from2 (fun _ => rfl) fun p q _ _ => minMax_min _ p q sg
  case max => exact laneDoes_from2 (fun _ => rfl) fun p q _ _ => minMax_max _ p q sg
  case abs => exact laneDoes_from1 (fun _ => rfl) fun p _ => absNeg_abs _ p sat
  case neg => exact laneDoes_from1 (fun _ => rfl) fun p _ => absNeg_neg _ p sat

/-- Settles O4: the bitwise operations are the model's; of the shifts the signed one alone says a count of w or more otherwise
(`shiftOp_sar`). -/
theorem logicAndShifts : Obligations.LogicAndShifts := by
  unfold Obligations.LogicAndShifts
  refine ⟨fun x w d a b => ?and, fun x w d a b => ?or, fun x w d a b => ?xor, fun x w d a b => ?andn,
    fun i g named => ?shift, fun x d a b c => ?left, fun x d a b c => ?right⟩
  case and => exact laneDoes_from2 (fun _ => rfl) fun _ _ _ _ => rfl
  case or => exact laneDoes_from2 (fun _ => rfl) fun _ _ _ _ => rfl
  case xor => exact laneDoes_from2 (fun _ => rfl) fun _ _ _ _ => rfl
  case andn => exact laneDoes_from2 (fun _ => rfl) fun p q _ _ => congrArg (p &&& ·) (Nat.xor_comm q _)
  case shift =>
    simp only [List.mem_cons, Prod.mk.injEq, List.not_mem_nil, or_false] at named
    rcases named with ⟨rfl, rfl⟩ | ⟨rfl, rfl⟩ | ⟨rfl, rfl⟩ | ⟨rfl, rfl⟩
    · exact laneShift_does (k := .shl) (fun _ _ _ _ _ _ _ => rfl) fun _ _ _ _ => rfl
    · exact laneShift_does (k := .shr) (fun _ _ _ _ _ _ _ => rfl) fun _ _ _ _ => rfl
    · exact laneShift_does (k := .sar) (fun _ _ _ _ _ _ _ => rfl) fun w p n => shiftOp_sar w p n
    · exact laneShift_does (k := .rotl) (fun _ _ _ _ _ _ _ => rfl) fun _ _ _ _ => rfl
  case left => exact laneDoes_from3 (g := funnel true) (fun _ => rfl) funnel_left
  case right => exact laneDoes_from3 (g := funnel false) (fun _ => rfl) funnel_right

end Sys2Proof.Machine
end

section
/-! SUPPORT. Counts, reversal and fields bit by bit; and the statements about bit instructions that follow. -/
namespace Sys2Proof.Machine
open Sys2Proof.Claims

/-! ### Counts and reversal (R209) -/

/-- The number of one bits. -/
theorem popCount_eq_countP (w : Nat) : ∀ p, popCount w p = (List.range w).countP p.testBit := by
  induction w with
  | zero => exact fun _ => rfl
  | succ w ih =>
    intro p
    have low : p % 2 = if p.testBit 0 then 1 else 0 := by
      rw [Nat.testBit_zero]
      by_cases odd : p % 2 = 1
      · rw [decide_eq_true odd, if_pos rfl, odd]
      · rw [decide_eq_false odd, if_neg Bool.false_ne_true]; omega
    have high : p.testBit ∘ Nat.succ = (p / 2).testBit := funext fun i => Nat.testBit_succ p i
    rw [popCount, ih, List.range_succ_eq_map, List.countP_cons, List.countP_map, high, low, Nat.add_comm]

/-- A reversal has w bits. -/
theorem bitReverse_lt (w : Nat) : ∀ p, bitReverse w p < 2 ^ w := by
  induction w with
  | zero => exact fun _ => Nat.one_pos
  | succ w ih =>
    intro p
    have rest := ih (p / 2)
    have top : p % 2 * 2 ^ w ≤ 1 * 2 ^ w := Nat.mul_le_mul_right _ (by omega)
    rw [bitReverse, Nat.pow_succ]
    omega

/-- It has bit w - 1 - i at bit i. -/
theorem testBit_bitReverse (w : Nat) : ∀ p i, i < w → (bitReverse w p).testBit i = p.testBit (w - 1 - i) := by
  induction w with
  | zero => exact fun _ _ h => absurd h (Nat.not_lt_zero _)
  | succ w ih =>
    intro p i h
    rw [bitReverse, Nat.mul_comm, Nat.testBit_two_pow_mul_add _ (bitReverse_lt w _)]
    split
    · rename_i low
      rw [ih _ _ low, ← Nat.testBit_succ]
      congr 1
      omega
    · rw [show i = w by omega, Nat.sub_self, show w + 1 - 1 - w = 0 by omega, Nat.testBit_zero, Nat.testBit_zero, Nat.mod_mod]

/-- The zeros above the highest one bit. -/
theorem leadZeros_highest {w p : Nat} (h : p < 2 ^ w) (nonzero : p ≠ 0) :
    p.testBit (w - 1 - leadZeros w p) = true ∧ ∀ i, w - 1 - leadZeros w p < i → p.testBit i = false := by
  have top : p.log2 < w := (Nat.log2_lt nonzero).2 h
  have place : w - 1 - leadZeros w p = p.log2 := by rw [leadZeros, if_neg nonzero]; omega
  rw [place]
  refine ⟨Nat.testBit_log2 nonzero, fun i above => Nat.testBit_lt_two_pow ?_⟩
  exact (Nat.log2_lt nonzero).1 above

/-- The zeros of 0. -/
theorem trailZeros_zero (w : Nat) : trailZeros w 0 = w := by
  induction w with
  | zero => rfl
  | succ w ih => rw [trailZeros, if_neg (by decide), Nat.zero_div, ih, Nat.add_comm]

/-- The zeros below the lowest one bit. -/
theorem trailZeros_lowest (w : Nat) : ∀ p, p < 2 ^ w → p ≠ 0 →
    p.testBit (trailZeros w p) = true ∧ ∀ i, i < trailZeros w p → p.testBit i = false := by
  induction w with
  | zero => exact fun p h nonzero => absurd h (by omega)
  | succ w ih =>
    intro p h nonzero
    rw [trailZeros]
    split
    · rename_i odd
      exact ⟨by rw [Nat.testBit_zero, decide_eq_true odd], fun i below => absurd below (Nat.not_lt_zero _)⟩
    · rename_i even
      obtain ⟨one, zeros⟩ := ih (p / 2) (by rw [Nat.pow_succ] at h; omega) (by omega)
      rw [Nat.add_comm]
      refine ⟨by rw [Nat.testBit_succ, one], fun i below => ?_⟩
      cases i with
      | zero => rw [Nat.testBit_zero, decide_eq_false even]
      | succ i => rw [Nat.testBit_succ, zeros i (by omega)]

/-! ### Fields (R210) -/

/-- An unsigned field. -/
theorem testBit_bitExtract {w p : Nat} (b i : Nat) :
    (bitExtract false w p b).testBit i
      = (decide (i < b / 256 % 256) && decide (b % 256 + i < w) && p.testBit (b % 256 + i)) := by
  unfold bitExtract
  simp only [Bool.false_eq_true, if_false]
  split
  · rename_i nothing
    rw [Nat.zero_testBit]
    symm
    rcases nothing with past | empty
    · rw [decide_eq_false (show ¬ b % 256 + i < w by omega), Bool.and_false, Bool.false_and]
    · rw [decide_eq_false (show ¬ i < b / 256 % 256 by omega), Bool.false_and, Bool.false_and]
  · rw [Nat.testBit_mod_two_pow, Nat.testBit_div_two_pow, ← Bool.decide_and, Nat.add_comm i]
    congr 1
    exact decide_eq_decide.2 (by omega)

/-- A value with a field put in. -/
theorem testBit_bitInsert {w p : Nat} (q c : Nat) {i : Nat} (h : i < w) :
    (bitInsert w p q c).testBit i
      = if c % 256 ≤ i ∧ i - c % 256 < c / 256 % 256 then q.testBit (i - c % 256) else p.testBit i := by
  unfold bitInsert
  generalize c % 256 = pos, c / 256 % 256 = len
  simp only
  split
  · rw [if_neg (by omega)]
  · generalize hl : min len (w - pos) = l
    have parts : p / 2 ^ (pos + l) * 2 ^ (pos + l) + q % 2 ^ l * 2 ^ pos + p % 2 ^ pos
        = 2 ^ pos * (2 ^ l * (p / 2 ^ (pos + l)) + q % 2 ^ l) + p % 2 ^ pos := by
      rw [Nat.pow_add, Nat.mul_comm (p / (2 ^ pos * 2 ^ l)), Nat.mul_comm (q % 2 ^ l), Nat.mul_add, Nat.mul_assoc]
    rw [parts, Nat.testBit_two_pow_mul_add _ (Nat.mod_lt _ (Nat.two_pow_pos _)),
      Nat.testBit_two_pow_mul_add _ (Nat.mod_lt _ (Nat.two_pow_pos _)), Nat.testBit_mod_two_pow, Nat.testBit_mod_two_pow,
      Nat.testBit_div_two_pow]
    by_cases below : i < pos
    · rw [if_pos below, if_neg (by omega), decide_eq_true below, Bool.true_and]
    · rw [if_neg below]
      by_cases inside : i - pos < l
      · rw [if_pos inside, if_pos (by omega), decide_eq_true inside, Bool.true_and]
      · rw [if_neg inside, if_neg (by omega)]
        congr 1
        omega

/-- Settles O5: each is the model's function of its operands; the number of one bits is counted bit by bit. -/
theorem bitInstructions : Obligations.BitInstructions := by
  unfold Obligations.BitInstructions
  refine ⟨fun x w d a => ?popc, fun x w d a => ?clz, fun x w d a => ?ctz, fun x w d a => ?brev, fun x sg w d a b => ?bfx,
    fun x w d a b c => ?bfi, fun x ctl d a b => ?bpick⟩
  case popc => exact laneDoes_from1 (fun _ => rfl) fun p _ => popCount_eq_countP (bits w) p
  case clz => exact laneDoes_from1 (fun _ => rfl) fun _ _ => rfl
  case ctz => exact laneDoes_from1 (fun _ => rfl) fun _ _ => rfl
  case brev => exact laneDoes_from1 (fun _ => rfl) fun _ _ => rfl
  case bfx => exact laneDoes_from2 (fun _ => rfl) fun _ _ _ _ => rfl
  case bfi => exact laneDoes_from3 (g := bitInsert (widthOf w)) (fun _ => rfl) fun _ _ _ => rfl
  case bpick => exact laneDoes_from2 (fun _ => rfl) fun _ _ _ _ => rfl

/-- Settles O6: bit by bit, by the recursion of each function. -/
theorem bitResults : Obligations.BitResults := by
  unfold Obligations.BitResults
  intro w p _ h
  exact ⟨testBit_bitReverse w p, bitReverse_lt w p, fun zero => by subst zero; exact ⟨if_pos rfl, trailZeros_zero w⟩,
    leadZeros_highest h, trailZeros_lowest w p h, testBit_bitExtract, fun q c _ inside => testBit_bitInsert q c inside⟩

end Sys2Proof.Machine
end

section
/-! SUPPORT. What a group leaves that a handler takes with a condition of its instruction; and the statement about comparison, selection
and moves, in which a misaligned uniform pair does so. -/
namespace Sys2Proof.Machine
open Sys2Proof.Claims

/-- An integer comparison is the statements' comparison of what the values read as (Table 8-4). -/
theorem intCompare_eq_compareInt (c : Cond) (sg : Bool) (w p q : Nat) :
    intCompare c sg w p q = compareInt c (read sg w p) (read sg w q) := by
  simp only [intCompare, intOf_eq_read]
  cases c <;> rfl

/-- Pairing a list with what its elements give, element by element. -/
theorem zip_map_self {α β : Type} (ls : List α) (g : α → β) : ls.zip (ls.map g) = ls.map fun l => (l, g l) := by
  rw [List.zip_map_right, List.zip_eq_zipWith, List.zipWith_self, List.map_map]
  rfl

/-- Predicates of each sibling, and UCMP where they differ. -/
theorem predicates_map (f : Fibre) (pd : Pred) (g : Lane → Bool) :
    predicates f pd (f.lanes.map g) = ((compareOut f pd g).lanes, (compareOut f pd g).num) := by
  simp only [predicates, zip_map_self, List.map_map]
  rfl

/-- The entry of a truth table that two predicates choose (R217). -/
theorem table_entry (p q : Bool) : (if p then 2 else 0) + (if q then 1 else 0) = 2 * one01 p + one01 q := by
  cases p <;> cases q <;> rfl

/-- A choice by a predicate or its inverse. -/
theorem ite_bne {α : Type} (p neg : Bool) (u v : α) : (if (p != neg) = true then u else v) = if p = neg then v else u := by
  by_cases h : p = neg
  · subst h
    rw [bne_self_eq_false, if_neg Bool.false_ne_true, if_pos rfl]
  · rw [if_neg h, if_pos (bne_iff_ne.2 h)]

/-- A group that stops with a condition is diverted as a whole. -/
theorem stopRes_divertsOn (s : State) (c : Issue) {x : Cause} (user : (blockLevel x.code || x.code == codeSoftError) = false) :
    DivertsOn s c x (fun _ => true) (stopRes (.cause x)) :=
  ⟨user, fun _ _ => rfl, fun _ no => absurd no (Bool.noConfusion)⟩

/-- It leaves as fragments with the condition's code and address. -/
theorem finish_stopRes_diverts {s : State} {c : Issue} {x : Cause} (i : Instr)
    (user : (blockLevel x.code || x.code == codeSoftError) = false) (line : InLine (s.warp c.warp))
    (vector : (s.launch (s.warp c.warp).launch).lrec.trapVec ≠ 0) (acting : groupOf (s.warp c.warp) c ≠ []) :
    Diverted s (finish s i c ((groupOf (s.warp c.warp) c).map (stopRes (.cause x)))) c.warp x.code c.pc
      ((groupOf (s.warp c.warp) c).map (·.slot)) x.addr := by
  obtain ⟨f, hf⟩ := List.exists_mem_of_ne_nil _ acting
  have diverted := (stopRes_divertsOn s c user).finish_diverts i line vector ⟨f, hf, rfl⟩
  rwa [List.filter_eq_self.2 fun _ _ => rfl] at diverted

section
variable {s : State} {c : Issue} (x : Lx) (d b : Reg) (cur : s.cur = some c)
include cur

/-- A move from uniform registers that are aligned, and that no load is still to write, is a register instruction (R214). -/
theorem execMovUniform_aligned {w : Bool} (aligned : w = true → b.toNat % 2 = 0)
    (written : loadsHold (s.warp c.warp) c.group [] [(b.toNat, if w then 2 else 1)] = false) :
    execMovUniform x w d b s
      = lanePure x [byW w d] (fun e f => eachLane f fun _ l => l.setVal w d.toNat (e.warp.sval w b.toNat)) s := by
  have even : (w && b.toNat % 2 == 1) = false := by
    cases w with
    | false => rfl
    | true => rw [aligned rfl]; rfl
  simp only [execMovUniform, cur, even, written, Bool.false_eq_true, if_false]
  rfl

/-- One from an odd pair diverts its whole group (R182). -/
theorem execMovUniform_odd (odd : b.toNat % 2 = 1) :
    execMovUniform x true d b s
      = .next (finish s (.nop x) c ((groupOf (s.warp c.warp) c).map (stopRes (.cause ⟨codeIllegalOperand, 0, .read⟩)))) := by
  simp only [execMovUniform, cur, odd, beq_self_eq_true, Bool.and_self, if_true]

end

/-- Settles O7: comparison by each sibling's result, the moves by what each writes; a move from uniform registers is a register
instruction when they are aligned, and an odd pair diverts the group. -/
theorem comparisonsAndMoves : Obligations.ComparisonsAndMoves := by
  unfold Obligations.ComparisonsAndMoves
  refine ⟨fun x c sg w pd a b => ?cmp, fun x w neg pn d a b => ?sel, fun x w d a => ?mov,
    fun x w d b s c cur nt met aligned written => ?uni, fun x d b s c cur nt line vector odd acting => ?odd, fun x d => ?tid,
    fun x d => ?sib, fun x d => ?lane, fun x d => ?icount, fun x d v => ?imm, fun x d v => ?immh, fun x d => ?rd, fun x a => ?wr,
    fun x t pd pa pb => ?lop, fun x => ?nop⟩
  case cmp =>
    refine laneDoes_of_eq (fun _ => rfl) fun _ f => ?_
    simp only [intCompare_eq_compareInt, predicates_map]
    rfl
  case sel =>
    refine laneDoes_of_eq (fun _ => rfl) fun _ f => ?_
    simp only [ite_bne]
    rfl
  case mov => exact laneDoes_from1 (fun _ => rfl) fun _ _ => rfl
  case uni =>
    obtain ⟨t, runs, ends⟩ := lanePure_ends x [byW w d]
      (fun e f => eachLane f fun _ l => l.setVal w d.toNat (e.warp.sval w b.toNat)) s c cur nt met
    exact ⟨t, (execMovUniform_aligned x d b cur aligned written).trans runs, ends⟩
  case odd => exact ⟨_, execMovUniform_odd x d b cur odd, finish_stopRes_diverts (.nop x) rfl line vector acting⟩
  case tid => exact laneDoes_of _ _ _ _ _ (fun _ => rfl) rfl
  case sib => exact laneDoes_of _ _ _ _ _ (fun _ => rfl) rfl
  case lane => exact laneDoes_of _ _ _ _ _ (fun _ => rfl) rfl
  case icount => exact laneDoes_of _ _ _ _ _ (fun _ => rfl) rfl
  case imm => exact laneDoes_of _ _ _ _ _ (fun _ => rfl) rfl
  case immh => exact laneDoes_of _ _ _ _ _ (fun _ => rfl) rfl
  case rd => exact laneDoes_of _ _ _ _ _ (fun _ => rfl) rfl
  case wr => exact laneDoes_of _ _ _ _ _ (fun _ => rfl) rfl
  case lop =>
    refine laneDoes_of_eq (fun _ => rfl) fun _ f => ?_
    simp only [table_entry]
    rfl
  case nop => exact laneDoes_of _ _ _ _ _ (fun _ => rfl) rfl

end Sys2Proof.Machine
end

section
/-! SUPPORT. Lane floating-point instructions: a result for each sibling, gathered with its flags as the statements gather them; and
the statements about arithmetic, selections, the transcendental functions, conversions and siblings that follow. -/
namespace Sys2Proof.Machine
open Sys2Proof.Claims

/-! ### A result for each sibling (R84, R98) -/

section
variable (f : Fibre) (ty : FTy) (d : Reg)

/-- Results of a type, their flags, and the events that they give. -/
theorem floatOut_eq_floats (g : Nat → Lane → FOut) (ev : List FOut → BitVec 4) :
    floatOut f ty d (sibResults f g) (ev (sibResults f g)) = floats f ty d g ev := by
  simp only [floatOut, sibResults, floats, zip_map_zipIdx, List.map_map, Function.comp_def]

/-- Results without events. -/
theorem floatOut_quiet (g : Nat → Lane → FOut) : floatOut f ty d (sibResults f g) 0 = floats f ty d g fun _ => 0 :=
  floatOut_eq_floats f ty d g fun _ => 0

/-- A combined value goes to every lane. -/
theorem combined_eq (w : Bool) (r : Nat × Flags × BitVec 4) :
    combined w d f r = ⟨f.lanes.map fun l => l.setVal w d.toNat r.1, r.2.1, r.2.2⟩ := by
  rw [combined, mapLanes_const]

end

section
variable {i : Instr} {x : Lx} {us : List RegUse} {ty : FTy} {d a b : Reg}

/-- d receives a rounded function of a. -/
theorem laneDoes_float1 {g : Fmt → Mode → Double → Num → FOut} {ra : Bool}
    (form : ∀ s, exec i s = lanePure x us (float1 ra ty d a g) s) :
    LaneDoes i x us fun e f =>
      floats f ty d (fun j l => g (fmtOf ty) (e.mode ra) (e.drawOf f j 0) (num ty l a)) fun _ => 0 :=
  laneDoes_of_eq form fun _ f => floatOut_quiet f ty d _

/-- d receives a rounded function of a and b, with the events of the results. -/
theorem laneDoes_float2 {g : Fmt → Mode → Double → Num → Num → FOut} {ev : LaneEnv → Fibre → List FOut → BitVec 4}
    (form : ∀ s, exec i s = lanePure x us (fun e f => float2 ty d a b g (fun e os => ev e f os) e f) s) :
    LaneDoes i x us fun e f =>
      floats f ty d (fun j l => g (fmtOf ty) (e.mode false) (e.drawOf f j 0) (num ty l a) (num ty l b)) (ev e f) :=
  laneDoes_of_eq form fun e f => floatOut_eq_floats f ty d _ (ev e f)

/-- d receives results without events. -/
theorem laneDoes_floats {g : LaneEnv → Fibre → Nat → Lane → FOut}
    (form : ∀ s, exec i s = lanePure x us (fun e f => floatOut f ty d (sibResults f (g e f)) 0) s) :
    LaneDoes i x us fun e f => floats f ty d (g e f) fun _ => 0 :=
  laneDoes_of_eq form fun _ f => floatOut_quiet f ty d _

/-- d, of W bits, receives a rounded result. -/
theorem laneDoes_rounded {w : Bool} {g : LaneEnv → Fibre → Nat → Lane → Nat × Flags}
    (form : ∀ s, exec i s = lanePure x us (fun e f =>
      ⟨(f.lanes.zip (sibResults f fun j l => fout (g e f j l))).map fun (l, o) => l.setVal w d.toNat o.bits,
        orFlags ((sibResults f fun j l => fout (g e f j l)).map (·.flags)), 0⟩) s) :
    LaneDoes i x us fun e f =>
      ⟨f.lanes.zipIdx.map fun y => y.1.setVal w d.toNat (g e f y.2 y.1).1,
        orFlags (f.lanes.zipIdx.map fun y => (g e f y.2 y.1).2), 0⟩ := by
  refine laneDoes_of_eq form fun e f => ?_
  simp only [sibResults, zip_map_zipIdx, List.map_map]
  rfl

/-- Every sibling receives the fibre's combined value (R101). -/
theorem laneDoes_combined {w : Bool} {r : Fibre → Nat × Flags × BitVec 4}
    (form : ∀ s, exec i s = lanePure x us (fun _ f => combined w d f (r f)) s) :
    LaneDoes i x us fun _ f => ⟨f.lanes.map fun l => l.setVal w d.toNat (r f).1, (r f).2.1, (r f).2.2⟩ :=
  laneDoes_of_eq form fun _ f => combined_eq f d w (r f)

end

/-- Settles O8: each is a rounded function of its operands for each sibling, with the events of its results or divisors. -/
theorem floatArithmetic : Obligations.FloatArithmetic := by
  unfold Obligations.FloatArithmetic
  refine ⟨fun x ty d a b => ?add, fun x ty d a b => ?sub, fun x ty d a b => ?mul, fun x d a b c => ?fma32,
    fun x d a b c => ?fma64, fun x ty d a b => ?div, fun x ty d a => ?sqrt, fun x ty d a => ?rcp, fun x ty d a => ?rsq⟩
  case add => exact laneDoes_float2 (ev := fun e _ => cancEvent e (fmtOf ty)) fun _ => rfl
  case sub => exact laneDoes_float2 (g := fun f m r p q => fAdd f m r p q.flip) (ev := fun e _ => cancEvent e (fmtOf ty)) fun _ => rfl
  case mul => exact laneDoes_float2 (ev := fun _ _ _ => 0) fun _ => rfl
  case fma32 =>
    exact laneDoes_of_eq (fun _ => rfl) fun e f => floatOut_eq_floats f .f32 d _ (cancEvent e binary32)
  case fma64 =>
    exact laneDoes_of_eq (fun _ => rfl) fun e f => floatOut_eq_floats f .f64 d _ (cancEvent e binary64)
  case div => exact laneDoes_float2 (ev := fun e f _ => zdivEvent e (fmtOf ty) (divisors ty b f)) fun _ => rfl
  case sqrt => exact laneDoes_float1 fun _ => rfl
  case rcp =>
    exact laneDoes_of_eq (fun _ => rfl) fun e f =>
      floatOut_eq_floats f ty d _ fun _ => zdivEvent e (fmtOf ty) (divisors ty a f)
  case rsq => exact laneDoes_float1 fun _ => rfl

/-- Settles O9: the minima and maxima are results for each sibling, a comparison its predicates with its flags, and the operations on
signs and the class write registers alone. -/
theorem floatSelections : Obligations.FloatSelections := by
  unfold Obligations.FloatSelections
  refine ⟨fun x ty d a b => ?min, fun x ty d a b => ?max, fun x ty d a b => ?minm, fun x ty d a b => ?maxm,
    fun x ty d a => ?abs, fun x ty d a => ?neg, fun x ty d a b => ?copysign, fun x c ty pd a b => ?cmp, fun x ty d a => ?cls⟩
  case min => exact laneDoes_floats fun _ => rfl
  case max => exact laneDoes_floats fun _ => rfl
  case minm => exact laneDoes_floats fun _ => rfl
  case maxm => exact laneDoes_floats fun _ => rfl
  case abs => exact laneDoes_of _ _ _ _ _ (fun _ => rfl) rfl
  case neg => exact laneDoes_of _ _ _ _ _ (fun _ => rfl) rfl
  case copysign => exact laneDoes_of _ _ _ _ _ (fun _ => rfl) rfl
  case cmp =>
    refine laneDoes_of_eq (fun _ => rfl) fun _ f => ?_
    simp only [List.map_map, Function.comp_def, predicates_map]
    rfl
  case cls => exact laneDoes_of _ _ _ _ _ (fun _ => rfl) rfl

/-- Settles O10: each of the five is a rounded function of its operand. -/
theorem transcendentals : Obligations.Transcendentals := by
  unfold Obligations.Transcendentals
  intro i g named x ty d a
  simp only [List.mem_cons, Prod.mk.injEq, List.not_mem_nil, or_false] at named
  rcases named with ⟨rfl, rfl⟩ | ⟨rfl, rfl⟩ | ⟨rfl, rfl⟩ | ⟨rfl, rfl⟩ | ⟨rfl, rfl⟩
  · exact laneDoes_float1 (g := fEx2) fun _ => rfl
  · exact laneDoes_float1 (g := fLg2) fun _ => rfl
  · exact laneDoes_float1 (g := fSin) fun _ => rfl
  · exact laneDoes_float1 (g := fCos) fun _ => rfl
  · exact laneDoes_float1 (g := fTanh) fun _ => rfl

/-- Settles O11: each is a rounded result for each sibling; `ffrexp` writes the two words of its own. -/
theorem conversions : Obligations.Conversions := by
  unfold Obligations.Conversions
  refine ⟨fun x ra exact ty d a => ?rint, fun x ra dst src d a => ?cvt, fun x ra w sg ty d a => ?toInt, fun x w sg ty d a => ?ofInt,
    fun x ty d a b => ?ldexp, fun x ty d a => ?frexp⟩
  case rint => exact laneDoes_floats fun _ => rfl
  case cvt =>
    exact laneDoes_rounded (g := fun e f j l =>
      ((encodeNum (fmtOfCvt dst) (e.mode ra) (e.drawOf f j 0) (decodeNum (fmtOfCvt src) (l.cval src a.toNat))).1,
        (encodeNum (fmtOfCvt dst) (e.mode ra) (e.drawOf f j 0) (decodeNum (fmtOfCvt src) (l.cval src a.toNat))).2
          ||| snanFlag [decodeNum (fmtOfCvt src) (l.cval src a.toNat)])) fun _ => rfl
  case toInt =>
    exact laneDoes_rounded (g := fun e f j l => fToInt (e.mode ra) (e.drawOf f j 0) (bits w) sg (num ty l a)) fun _ => rfl
  case ofInt =>
    refine laneDoes_of_eq (fun _ => rfl) fun _ f => ?_
    rw [floatOut_quiet]
    simp only [intOf_eq_read]
    rfl
  case ldexp =>
    refine laneDoes_of_eq (fun _ => rfl) fun _ f => ?_
    rw [floatOut_quiet]
    simp only [toSigned_eq_signed]
    rfl
  case frexp =>
    simp only [← beq_iff_eq (a := ty)]
    refine laneDoes_of_eq (fun _ => rfl) fun _ f => ?_
    simp only [zip_map_self, List.map_map]
    rfl

/-- Settles O12: the mean and the majority are combined values, and every other writes each sibling's own registers. -/
theorem siblingInstructions : Obligations.SiblingInstructions := by
  unfold Obligations.SiblingInstructions
  refine ⟨fun x ty d a => ?digits, fun x ty d a => ?agree, fun x w k d a => ?get, fun x w k d a => ?put, fun x w r d a => ?rot,
    fun x ty d a => ?mean, fun x w d a => ?maj, fun x d b => ?draw⟩
  case digits => exact laneDoes_of _ _ _ _ _ (fun _ => rfl) rfl
  case agree => exact laneDoes_of _ _ _ _ _ (fun _ => rfl) rfl
  case get => exact laneDoes_of _ _ _ _ _ (fun _ => rfl) rfl
  case put => exact laneDoes_of _ _ _ _ _ (fun _ => rfl) rfl
  case rot => exact laneDoes_of _ _ _ _ _ (fun _ => rfl) rfl
  case mean => exact laneDoes_combined fun _ => rfl
  case maj => exact laneDoes_combined fun _ => rfl
  case draw => exact laneDoes_of _ _ _ _ _ (fun _ => rfl) rfl

end Sys2Proof.Machine
end

section
/-! SUPPORT. Uniform instructions that raise what a combination of siblings raises; and the statement about the signed scalar shift,
comparison, reading a lane and the jumps of a group. -/
namespace Sys2Proof.Machine
open Sys2Proof.Claims

/-! ### Results with flags and events (R287) -/

/-- What every element adds alike is added when there is an element. -/
theorem foldl_or_const {α : Type} {n : Nat} (v : BitVec n) (l : List α) (nonempty : l ≠ []) :
    l.foldl (fun a _ => a ||| v) 0 = v := by
  have kept : ∀ l : List α, l.foldl (fun a _ => a ||| v) v = v := by
    intro l
    induction l with
    | nil => rfl
    | cons _ l ih => rw [List.foldl_cons, BitVec.or_self, ih]
  cases l with
  | nil => exact absurd rfl nonempty
  | cons _ l => exact (congrArg (l.foldl (fun a _ => a ||| v)) BitVec.zero_or).trans (kept l)

/-- A uniform instruction whose act goes on with flags and events raises them for its warp. -/
theorem uniform_raises {i : Instr} {us : List UniUse} {act : State → Issue → Warp → UniRes × State} {s u : State} {c : Issue}
    {pc : VAddr} {fp : Flags} {num : BitVec 4} (met : Uniform s c us)
    (acts : act s c (s.warp c.warp) = (⟨.ok pc, fp, num⟩, u)) (nt : NoNumTraps u c) (acting : groupOf (u.warp c.warp) c ≠ []) :
    ∃ t, uniform i us act s = .next t ∧ Ends u c (fun f => { f with pc := pc, status := endWait f.status }) fp num t := by
  refine ⟨_, uniform_runs i us act s c met, ?_⟩
  rw [acts]
  have key := finish_map u i c (fun f => ⟨f.slot, .done { f with pc := pc }, fp, num⟩) (fun f => { f with pc := pc })
    (fun _ => rfl) (fun _ => rfl) (fun _ => rfl) nt
  simp only [resFlags, resEvents, List.foldl_map, foldl_or_const _ _ acting] at key
  exact key

/-! ### Each instruction (R207, R291, R295, R296) -/

section
variable {s u : State} {c : Issue} {e w : Bool} {d a b : Reg}

/-- A scalar instruction whose operands are read and written goes on (R289). -/
theorem goes_of_scalar {i : Instr} {srcs : List Reg} {g : Warp → List Nat → Nat} {vs : List Nat} {s1 : State}
    (form : exec i s = scalar i w d srcs g s) (met : Uniform s c (portUse w d :: srcs.map (portUse w)))
    (sources : readSources s c (portBlk s c) (waitingSince s c) w srcs = (.ok vs, s1))
    (dest : writeDest s1 c (portBlk s c) (waitingSince s c) w d (g (s.warp c.warp) vs) = .ok u) (nt : NoNumTraps u c) :
    Goes i s u c (nextPc c) := by
  refine goes_of_act _ form rfl met ?_ nt
  simp only [portBlk] at sources dest
  simp only [sources, dest]

/-- A scalar shift by a register's value goes on alike. -/
theorem goes_of_scalarShift {i : Instr} {k : Shift} {p n : Nat} {s1 s2 : State}
    (form : exec i s = scalarShift i k false w d a b s) (met : Uniform s c [portUse w d, portUse w a, portUse false b])
    (first : readSource s c (portBlk s c) (waitingSince s c) w a = (.ok p, s1))
    (second : readSource s1 c (portBlk s c) (waitingSince s c) false b = (.ok n, s2))
    (dest : writeDest s2 c (portBlk s c) (waitingSince s c) w d (shiftOp k (bits w) p n) = .ok u)
    (nt : NoNumTraps u c) : Goes i s u c (nextPc c) := by
  refine goes_of_act _ form (if_neg Bool.false_ne_true) met ?_ nt
  simp only [portBlk] at first second dest
  simp only [first, second, widthOf_eq_bits, dest]

/-- The signed shift by the b field. -/
theorem ssar_field_goes {p : Nat} {s1 : State} (met : Uniform s c [portUse w d, portUse w a]) (fits : p < 2 ^ bits w)
    (source : readSources s c (portBlk s c) (waitingSince s c) w [a] = (.ok [p], s1))
    (dest : writeDest s1 c (portBlk s c) (waitingSince s c) w d (shiftSigned (bits w) p b.toNat) = .ok u)
    (nt : NoNumTraps u c) : Goes (.ssar e true w d a b) s u c (nextPc c) := by
  rw [← shiftOp_sar _ _ _ fits] at dest
  exact goes_of_scalar (g := fun _ vs => shiftOp .sar (widthOf w) (vs.getD 0 0) b.toNat)
    (show scalarShift (.ssar e true w d a b) .sar true w d a b s = _ from if_pos rfl) met source dest nt

/-- The signed shift by a register's value. -/
theorem ssar_register_goes {p n : Nat} {s1 s2 : State} (met : Uniform s c [portUse w d, portUse w a, portUse false b])
    (fits : p < 2 ^ bits w) (first : readSource s c (portBlk s c) (waitingSince s c) w a = (.ok p, s1))
    (second : readSource s1 c (portBlk s c) (waitingSince s c) false b = (.ok n, s2))
    (dest : writeDest s2 c (portBlk s c) (waitingSince s c) w d (shiftSigned (bits w) p n) = .ok u)
    (nt : NoNumTraps u c) : Goes (.ssar e false w d a b) s u c (nextPc c) := by
  rw [← shiftOp_sar _ _ _ fits] at dest
  exact goes_of_scalarShift (k := .sar) rfl met first second dest nt

/-- Comparison into a uniform predicate. -/
theorem scmp_goes {cn : Cond} {sg : Bool} {cd : Pred} {p q : Nat} {s1 : State} (met : Uniform s c [portUse w a, portUse w b])
    (sources : readSources s c (portBlk s c) (waitingSince s c) w [a, b] = (.ok [p, q], s1))
    (hu : u = s1.modWarp c.warp fun W => W.setCpred cd (compareInt cn (read sg (bits w) p) (read sg (bits w) q)))
    (nt : NoNumTraps u c) : Goes (.scmp e cn sg w cd a b) s u c (nextPc c) := by
  subst hu
  refine goes_of_act (execScmp e cn sg w cd a b s) rfl rfl met ?_ nt
  simp only [portBlk] at sources
  simp only [sources, intCompare_eq_compareInt]
  rfl

/-- A jump on a uniform predicate or its inverse. -/
theorem jc_goes {neg : Bool} {cn : Pred} {off : BitVec 20} (met : Uniform s c []) (nt : NoNumTraps s c) :
    Goes (.jc e neg cn off) s s c
      (if (s.warp c.warp).cpred cn = neg then nextPc c else c.pc + BitVec.ofInt 56 (4 * off.toInt)) := by
  refine goes_of_act (execJc e neg cn off s) rfl rfl met ?_ nt
  simp only [ite_bne]

/-- A jump to a code address. -/
theorem jx_goes (met : Uniform s c [plainUse true a]) (nt : NoNumTraps s c)
    (aligned : (s.warp c.warp).sval true a.toNat % 4 = 0) (inside : (s.warp c.warp).sval true a.toNat < 2 ^ 56) :
    Goes (.jx e a) s s c (BitVec.ofNat 56 ((s.warp c.warp).sval true a.toNat)) := by
  refine goes_of_act (execJx e a s) rfl rfl met ?_ nt
  simp only [aligned, Nat.div_eq_of_lt inside, and_self, if_true]

/-- A lane's value, combined over its siblings, with the flags and events of the combination. -/
theorem rdlane_ends {fl : Bool} {r : Nat × Flags × BitVec 4} (met : Uniform s c [portUse w d, plainUse false b])
    (lane : Usable s { c with group := [(s.warp c.warp).sreg b.toNat] } [byW w a])
    (hr : r = (match (s.warp c.warp).fibre? ((s.warp c.warp).sreg b.toNat) with
        | none => (0, 0, 0)
        | some f => combine (if fl then some (if w then binary64 else binary32) else none) (f.vals (·.val w a.toNat))))
    (dest : writeDest s c (portBlk s c) (waitingSince s c) w d r.1 = .ok u) (nt : NoNumTraps u c)
    (acting : groupOf (u.warp c.warp) c ≠ []) :
    ∃ t, exec (.rdlane e fl w d a b) s = .next t
      ∧ Ends u c (fun f => { f with pc := nextPc c, status := endWait f.status }) r.2.1 r.2.2 t := by
  show ∃ t, execRdlane e fl w d a b s = .next t ∧ _
  unfold execRdlane
  refine uniform_raises met ?_ nt acting
  subst hr
  have window : usesOk (s.warp c.warp).window [byW w a] = true := lane.inWindow
  have free : loadsHold (s.warp c.warp) [(s.warp c.warp).sreg b.toNat] (spans [byW w a]) [] = false := lane.written
  simp only [portBlk] at dest
  simp only [window, free, Bool.not_true, Bool.false_eq_true, if_false]
  cases found : (s.warp c.warp).fibre? ((s.warp c.warp).sreg b.toNat) with
  | none =>
    simp only [found] at dest
    simp only [dest]
  | some f =>
    simp only [found] at dest
    simp only [dest]

end

/-- Settles O32: each instruction by what its act comes to once its operands are read and its destination is written. -/
theorem uniformReadsAndBranches : Obligations.UniformReadsAndBranches := by
  unfold Obligations.UniformReadsAndBranches
  refine ⟨⟨fun e w d a b s c p s1 s2 met fits source dest nt => ssar_field_goes met fits source dest nt,
    fun e w d a b s c p n s1 s2 s3 met fits first second dest nt => ssar_register_goes met fits first second dest nt,
    fun e cn sg w cd a b s c p q s1 met sources u hu nt => scmp_goes met sources hu nt,
    fun e fl w d a b s c s1 met lane r hr dest nt acting => rdlane_ends met lane hr dest nt acting⟩, ?jmp, ?jc, ?jx, ?snop⟩
  case jmp => exact fun e off s c met nt => goes_of_act (execJmp e off s) rfl rfl met rfl nt
  case jc => exact fun e neg cn off s c met nt => jc_goes met nt
  case jx => exact fun e a s c met nt aligned inside => jx_goes met nt aligned inside
  case snop => exact fun e s c met nt => goes_of_act (execSnop e s) rfl rfl met rfl nt

end Sys2Proof.Machine
end

section
/-! SUPPORT. Packed operands of the lane set as the statements read them, a result for each sibling with its flags, and the
statements about packed dot products, conversions and sparsity that follow. -/
namespace Sys2Proof.Machine
open Sys2Proof.Claims

/-! ### Packed operands (R236) -/

section
variable (l : Lane) (r : Reg)

/-- An element of a width that divides a register lies where the statements place it. -/
theorem packedElem_eq_element {w : Nat} (fits : w ∣ 32) (i : Nat) : packedElem l r.toNat w i = element l r w i := by
  obtain ⟨n, hn⟩ := fits
  have pos : 0 < w := Nat.pos_of_ne_zero fun zero => by simp [zero] at hn
  simp only [packedElem, element, hn, Nat.mul_div_mul_left _ _ pos, Nat.mul_mod_mul_left, Nat.mul_div_cancel_left _ pos]

/-- So do n elements. -/
theorem packedElems_eq_elements {w : Nat} (fits : w ∣ 32) (n : Nat) : packedElems l r.toNat w n = elements l r w n :=
  congrArg (fun g => (List.range n).map g) (funext (packedElem_eq_element l r fits))

/-- And the numbers that they decode to. -/
theorem packedNums_eq_nums {fm : Fmt} (fits : fm.width ∣ 32) (n : Nat) : packedNums fm l r.toNat n = nums fm l r n := by
  rw [packedNums, packedElems_eq_elements l r fits, nums]

/-- FP8 elements. -/
theorem packedNums_fp8 (t : Bool) (n : Nat) :
    packedNums (fp8Of t) l r.toNat n = nums (if t then e5m2 else e4m3) l r n :=
  packedNums_eq_nums l r (by cases t <;> decide) n

/-- Half-width elements. -/
theorem packedNums_half (bf : Bool) (n : Nat) :
    packedNums (if bf then bfloat16 else binary16) l r.toNat n = nums (if bf then bfloat16 else binary16) l r n :=
  packedNums_eq_nums l r (by cases bf <;> decide) n

/-- E2M1 elements. -/
theorem packedNums_e2m1 (n : Nat) : packedNums e2m1 l r.toNat n = nums e2m1 l r n :=
  packedNums_eq_nums l r (by decide) n

/-- Elements of a packed conversion: a format wider than a register has none. -/
theorem packedNums_cvt (c : CvtFmt) :
    packedNums (fmtOfCvt c) l r.toNat (cvtCount c) = nums (fmtOfCvt c) l r (cvtCount c) := by
  by_cases wide : c = .f64
  · subst wide; rfl
  · exact packedNums_eq_nums l r (by revert wide; cases c <;> decide) _

end

/-! ### A packed result for each sibling (R84) -/

/-- Results that are each sibling's own, with their flags, as the statements gather them. -/
theorem dotOut_eq_dots {f : Fibre} {d : Reg} {g : Lane × Nat → Nat × Flags} {h : Nat → Lane → Nat × Flags}
    (same : ∀ j l, g (l, j) = h j l) : dotOut f d (f.lanes.zipIdx.map g) = dots f d h := by
  have each : g = fun e => h e.2 e.1 := funext fun e => same e.2 e.1
  simp only [dotOut, dots, zip_map_zipIdx, List.map_map, Function.comp_def, each]

/-- Results that do not depend on the sibling's number. -/
theorem dotOut_map_eq_dots (f : Fibre) (d : Reg) (g : Lane → Nat × Flags) :
    dotOut f d (f.lanes.map g) = dots f d fun _ l => g l := by
  have numbered : f.lanes.map g = f.lanes.zipIdx.map (g ∘ Prod.fst) := by rw [← List.map_map, List.zipIdx_map_fst]
  rw [numbered]
  exact dotOut_eq_dots fun _ _ => rfl

/-! ### Dot products (R238 to R241) -/

/-- The integer dot product is the sum of the products of its elements, from d on (R241). -/
theorem add_intDot (w : Nat) (sa sb : Bool) (p q : Nat → Nat) (v : Int) (ns : List Nat) :
    v + intDot w sa sb (ns.map p) (ns.map q)
      = (ns.map fun i => read sa w (p i) * read sb w (q i)).foldl (· + ·) v := by
  have terms : intDot w sa sb (ns.map p) (ns.map q)
      = (ns.map fun i => read sa w (p i) * read sb w (q i)).foldl (· + ·) 0 := by
    simp only [intDot, List.zip_map', List.foldl_map, intOf_eq_read]
  rw [terms, ← List.foldl_assoc (op := ((· + ·) : Int → Int → Int)), Int.add_zero]

/-- `idp4` and `idp8` write the statements' sum. -/
theorem laneIdp_eq {w : Nat} (fits : w ∣ 32) (sat sa sb : Bool) (d a b : Reg) (f : Fibre) :
    laneIdp w sat sa sb d a b f = eachLane f fun _ l => l.setReg d.toNat (intDots w sat sa sb d a b l) := by
  simp only [laneIdp, intDots, packedElems_eq_elements _ _ fits, elements, add_intDot, toSigned_eq_signed,
    clampSigned_eq_saturate, wrapInt_eq_modulo]
  rfl

/-- Settles O13: each form's elements lie where the statement reads them, and each sibling receives its own sum. -/
theorem packedDots : Obligations.PackedDots := by
  unfold Obligations.PackedDots
  refine ⟨fun x ta tb d a b => ?plain, fun x r ta tb d a b => ?scaled, fun x bf d a b => ?halves, fun x nb r d a b => ?mx,
    fun x nb r d a b => ?nx4, fun x sat sa sb d a b => ?idp4, fun x sat sa sb d a b => ?idp8⟩
  case plain =>
    refine laneDoes_of_eq (fun _ => rfl) fun e f => dotOut_eq_dots fun j l => ?_
    simp only [packedNums_fp8]
  case scaled =>
    refine laneDoes_of_eq (fun _ => rfl) fun e f => dotOut_eq_dots fun j l => ?_
    simp only [packedNums_fp8, Bool.or_eq_true, decide_eq_true_eq]
  case halves =>
    refine laneDoes_of_eq (fun _ => rfl) fun e f => dotOut_eq_dots fun j l => ?_
    simp only [packedNums_half]
  case mx =>
    refine laneDoes_of_eq (fun _ => rfl) fun e f => dotOut_eq_dots fun j l => ?_
    simp only [fdpscLane, if_true, packedNums_e2m1, Bool.or_eq_true, decide_eq_true_eq]
  case nx4 =>
    refine laneDoes_of_eq (fun _ => rfl) fun e f => dotOut_eq_dots fun j l => ?_
    unfold fdpscLane nx4Block
    simp only [Bool.false_eq_true, if_false, packedNums_e2m1]
  case idp4 => exact laneDoes_of_eq (fun _ => rfl) fun _ f => laneIdp_eq (by decide) sat sa sb d a b f
  case idp8 => exact laneDoes_of_eq (fun _ => rfl) fun _ f => laneIdp_eq (by decide) sat sa sb d a b f

/-! ### Structured sparsity (R245) -/

/-- Two elements packed into one value. -/
theorem packElems_two (w p q : Nat) : packElems w [p, q] = p % 2 ^ w + 2 ^ w * (q % 2 ^ w) := by
  simp only [packElems, Nat.mul_zero, Nat.add_zero]

/-- The width of a sparse element. -/
theorem sparseWidth_eq (ty : SparseTy) : sparseWidth ty = if ty = .f16 ∨ ty = .bf16 then 16 else 8 := by
  cases ty <;> rfl

/-- The operand is a pair where its elements are 16 bits wide. -/
theorem sparseWidth_wide (ty : SparseTy) : (sparseWidth ty == 16) = decide (ty = .f16 ∨ ty = .bf16) := by
  cases ty <;> rfl

/-- Either width divides a register. -/
theorem sparseWidth_dvd (ty : SparseTy) : sparseWidth ty ∣ 32 := by
  cases ty <;> decide

/-- The elements kept are those that fewer than two others come before, by rank and then by index. -/
theorem sparseKeep_map (rank : Nat → Nat) (es : List Nat) :
    sparseKeep (es.map rank) = (List.range es.length).filter fun i =>
      decide ((List.range es.length).countP (fun j =>
        decide (rank (es.getD i 0) < rank (es.getD j 0) ∨ (rank (es.getD j 0) = rank (es.getD i 0) ∧ j < i))) < 2) := by
  have rankAt : ∀ i ∈ List.range es.length, (es.map rank).getD i 0 = rank (es.getD i 0) := fun i hi => by
    have inside := List.mem_range.1 hi
    simp [List.getD_eq_getElem?_getD, inside]
  rw [sparseKeep, List.length_map]
  refine List.filter_congr fun i hi => ?_
  rw [← List.countP_eq_length_filter]
  refine congrArg (fun n => decide (n < 2)) (List.countP_congr fun j hj => ?_)
  simp only [rankAt i hi, rankAt j hj, Bool.or_eq_true, Bool.and_eq_true, decide_eq_true_eq, beq_iff_eq]
  exact or_congr_right (and_congr_left' eq_comm)

/-- Settles O14: elements, scales and ranks are the model's own, and the elements kept are those that fewer than two come before. -/
theorem packedConversions : Obligations.PackedConversions := by
  unfold Obligations.PackedConversions
  refine ⟨fun x ra dst d a => ?pack, fun x ra dst d a b => ?packScaled, fun x src d a => ?unpack, fun x c d a => ?scale,
    fun x ty d a => ?sparse⟩
  case pack => exact laneDoes_of_eq (fun _ => rfl) fun _ _ => dotOut_eq_dots fun _ _ => rfl
  case packScaled => exact laneDoes_of_eq (fun _ => rfl) fun _ _ => dotOut_eq_dots fun _ _ => rfl
  case unpack =>
    refine laneDoes_of_eq (fun _ => rfl) fun _ f => ?_
    simp only [packedNums_cvt]
  case scale => exact laneDoes_of_eq (fun _ => rfl) fun _ f => dotOut_map_eq_dots f d _
  case sparse =>
    rw [← sparseWidth_wide]
    refine laneDoes_of_eq (fun _ => rfl) fun _ f => ?_
    have count : ∀ l, (elements l a (sparseWidth ty) 4).length = 4 := fun l => by simp [elements]
    simp only [packedElems_eq_elements _ _ (sparseWidth_dvd ty), sparseKeep_map, count, packElems_two, ← sparseWidth_eq]
    rfl

end Sys2Proof.Machine
end

section
/-! SUPPORT. What a fibre that executes alone for its warp leaves; images of Abacus registers, read back field by field; and the
statement about saving, loading and merging a register that follows. -/
namespace Sys2Proof.Machine

/-! ### An instruction executed once for the warp -/

section
variable {s : State} {c : Issue} {x : Lx} {f : Fibre}

/-- An instruction executed once for the warp ends for a fibre alone as its act leaves it, where that act completes. -/
theorem aloneEnds_of_laneOnce {i : Instr} {us : List RegUse}
    {act : State → LaneEnv → Issue → Fibre → List Fibre → List FibreRes × State} {u : State} {lanes : List Lane}
    (h : Alone s c x f) (hu : Usable s c us) (hi : exec i s = laneOnce i x us act s)
    (ha : act s (laneEnv s c x) c f [f] = ([doneRes (laneEnv s c x) f lanes], u)) (nt : NoNumTraps u c) :
    AloneEnds i s u c x f (nextPc c) lanes 0 0 := by
  refine ⟨_, hi.trans (laneOnce_alone i x us act s c f h hu), ?_⟩
  rw [ha, show (0 : BitVec 4) ||| guardNum x f = guardNum x f from BitVec.zero_or]
  exact finish_one u i c (doneRes (laneEnv s c x) f lanes) { f.advance (nextPc c) with lanes := lanes } rfl rfl h.group nt

/-- An image instruction ends as its act on the located image leaves the state (R250). -/
theorem aloneEnds_of_abacusImage {i : Instr} {k : BitVec 3} {seg : Seg} {a : Reg} {kind : AccKind}
    {act : State → LaneEnv → Issue → Fibre → Nat × List Place → Nat × Nat → Except Stop State × State}
    {key : Nat × Nat} {v : Nat} {ps : Nat × List Place} {s1 u t : State} (h : Alone s c x f)
    (hu : Usable s c [addrUse seg a]) (hi : exec i s = abacusImage i x k seg a kind act s)
    (hk : abacusKey (s.warp c.warp) k = some key) (hv : addrValue seg a f kind = .ok v)
    (hl : locatePieces s (s.warp c.warp) f.tid.toNat seg v 544 16 kind = (.ok ps, s1))
    (ha : act s1 (laneEnv s c x) c f ps key = (.ok u, t)) (nt : NoNumTraps u c) :
    AloneEnds i s u c x f (nextPc c) f.lanes 0 0 := by
  refine aloneEnds_of_laneOnce h hu hi ?_ nt
  have env : (laneEnv s c x).warp = s.warp c.warp := rfl
  simp only [env, hk, hv, hl, ha, List.map_cons, List.map_nil]

end

/-- A register made from an image that is read and well formed for its divisor is put in place (R250). -/
theorem abacusFrom_puts {put : Abacus → Abacus → Abacus} {s s1 : State} {e : LaneEnv} {c : Issue} {f : Fibre} {ea b n : Nat}
    {ps : List Place} {bs : List Byte} {I : Abacus} (read : loadShared s c.warp [f] ea ps = (.ok bs, s1))
    (formed : Abacus.ofImage (abacusAt s1 b n).div bs = some I) :
    abacusFrom put s e c f (ea, ps) (b, n) = (.ok (setAbacus s1 b n (put (abacusAt s1 b n) I)), s1) := by
  simp only [abacusFrom, read, formed]

/-! ### Fields of a record (R4) -/

/-- n bytes of a value have that length. -/
theorem length_leBytes (n : Nat) : ∀ v, (leBytes n v).length = n := by
  induction n with
  | zero => exact fun _ => rfl
  | succ n ih => exact fun v => congrArg (· + 1) (ih _)

/-- They hold the value modulo 256^n. -/
theorem leNat_leBytes (n : Nat) : ∀ v, leNat (leBytes n v) = v % 256 ^ n := by
  induction n with
  | zero => exact fun v => (Nat.mod_one v).symm
  | succ n ih =>
    intro v
    have low : (BitVec.ofNat 8 v).toNat = v % 256 := BitVec.toNat_ofNat v 8
    rw [leBytes, leNat, ih, low, Nat.pow_succ' (m := 256), Nat.mod_mul]

/-- A field that was written between others is read back. -/
theorem field_leBytes {pre : List Byte} {off : Nat} (start : pre.length = off) (n v : Nat) (post : List Byte) :
    field (pre ++ (leBytes n v ++ post)) off n = v % 256 ^ n := by
  rw [field, List.drop_left' start, List.take_left' (length_leBytes n v), leNat_leBytes]

/-- n bytes hold a value of 8n bits. -/
theorem ofNat_mod_bytes (n : Nat) (v : BitVec (8 * n)) : BitVec.ofNat (8 * n) (v.toNat % 256 ^ n) = v := by
  rw [show 256 ^ n = 2 ^ (8 * n) from (Nat.pow_mul 2 8 n).symm, Nat.mod_eq_of_lt v.isLt, BitVec.ofNat_toNat, BitVec.setWidth_eq]

/-! ### Images (Table 9-6) -/

/-- The four marks of a register in a byte. -/
def marksByte (pinf ninf nan ovf : Bool) : Nat :=
  (if pinf then 1 else 0) + (if ninf then 2 else 0) + (if nan then 4 else 0) + (if ovf then 8 else 0)

/-- They are its low bits. -/
theorem marksByte_bits (pinf ninf nan ovf : Bool) :
    marksByte pinf ninf nan ovf < 16 ∧ (marksByte pinf ninf nan ovf).testBit 0 = pinf
      ∧ (marksByte pinf ninf nan ovf).testBit 1 = ninf ∧ (marksByte pinf ninf nan ovf).testBit 2 = nan
      ∧ (marksByte pinf ninf nan ovf).testBit 3 = ovf := by
  revert pinf ninf nan ovf
  decide

section
variable (A : Abacus)

/-- An image, its fields one after another. -/
theorem Abacus.image_fields :
    A.image = leBytes 2 0x4142 ++ (leBytes 1 (marksByte A.pinf A.ninf A.nan A.ovf)
      ++ (leBytes 1 A.div ++ (leBytes 4 0 ++ leBytes 536 A.n.toNat))) := by
  simp only [Abacus.image, marksByte, List.append_assoc]

/-- It is 544 bytes long. -/
theorem Abacus.image_length : A.image.length = 544 := by
  simp only [Abacus.image_fields, List.length_append, length_leBytes]

/-- It begins with the word that marks an image. -/
theorem Abacus.image_magic : field A.image 0 2 = 0x4142 := by
  rw [Abacus.image_fields]
  exact field_leBytes (pre := []) rfl 2 _ _

/-- Then come the marks. -/
theorem Abacus.image_marks : field A.image 2 1 = marksByte A.pinf A.ninf A.nan A.ovf := by
  rw [Abacus.image_fields, field_leBytes (length_leBytes 2 _)]
  exact Nat.mod_eq_of_lt (Nat.lt_trans (marksByte_bits A.pinf A.ninf A.nan A.ovf).1 (by decide))

/-- Then the divisor. -/
theorem Abacus.image_div (small : A.div < 256) : field A.image 3 1 = A.div := by
  rw [Abacus.image_fields, ← List.append_assoc, field_leBytes (by simp only [List.length_append, length_leBytes])]
  exact Nat.mod_eq_of_lt small

/-- Then four bytes that are 0. -/
theorem Abacus.image_reserved : field A.image 4 4 = 0 := by
  rw [Abacus.image_fields, ← List.append_assoc, ← List.append_assoc]
  exact (field_leBytes (by simp only [List.length_append, length_leBytes]) 4 0 _).trans (Nat.zero_mod _)

/-- The rest is the sum. -/
theorem Abacus.image_sum : BitVec.ofNat 4288 (field A.image 8 536) = A.n := by
  have sum : field A.image 8 536 = A.n.toNat % 256 ^ 536 := by
    rw [Abacus.image_fields, ← List.append_nil (leBytes 536 _), ← List.append_assoc, ← List.append_assoc, ← List.append_assoc,
      field_leBytes (by simp only [List.length_append, length_leBytes])]
  rw [sum]
  exact ofNat_mod_bytes 536 A.n

/-- An image of a register is well formed for its divisor and describes it. -/
theorem Abacus.ofImage_image (small : A.div < 256) : Abacus.ofImage A.div A.image = some A := by
  obtain ⟨low, pinf, ninf, nan, ovf⟩ := marksByte_bits A.pinf A.ninf A.nan A.ovf
  simp only [Abacus.ofImage, Abacus.image_magic, Abacus.image_marks, Abacus.image_div A small, Abacus.image_reserved,
    Abacus.image_sum, pinf, ninf, nan, ovf, Nat.not_le.2 low]
  simp

end

/-- Settles O24: each instruction acts on the located image, and an image's fields are read back as they were written. -/
theorem abacusImages : Obligations.AbacusImages := by
  unfold Obligations.AbacusImages
  refine ⟨?save, ?take, fun A divisor => ⟨A.image_length, A.ofImage_image (by omega)⟩⟩
  case save =>
    intro x k seg a s c f b n v ea ps s1 s2 h hu hk hv hl hs u eq nt
    subst eq
    have form : exec (.xsave x k seg a) s = execXsave x k seg a s := rfl
    refine aloneEnds_of_abacusImage h hu form hk hv hl (t := s1) ?_ nt
    simp only [hs]
    rfl
  case take =>
    intro x k seg a s c f b n v ea ps s1 bs s2 I h hu hk hv hl read formed nt
    exact ⟨aloneEnds_of_abacusImage h hu rfl hk hv hl (abacusFrom_puts read formed) nt,
      aloneEnds_of_abacusImage h hu rfl hk hv hl (abacusFrom_puts read formed) nt⟩

end Sys2Proof.Machine
end

section
/-! SUPPORT. What a warp-wide instruction comes to for its group once its members are there; and the statement about polls, leaders
and masks that follows from it. -/
namespace Sys2Proof.Machine
open Sys2Proof.Claims

/-! ### Instructions executed once for a group all of which executes (R268) -/

section
variable {s : State} {c : Issue} {x : Lx}

/-- What an instruction makes of the fibres of its group is all that matters of it. -/
theorem Ends.of_group {after after' : Fibre → Fibre} {fp : Flags} {num : BitVec 4} {t : State} (h : Ends s c after fp num t)
    (same : ∀ f ∈ groupOf (s.warp c.warp) c, after f = after' f) : Ends s c after' fp num t := by
  refine { h with fibre := fun k => (h.fibre k).trans ?_ }
  cases found : (s.warp c.warp).fibre? k with
  | none => rfl
  | some f =>
    by_cases mine : c.group.contains k = true
    · have acts : f ∈ groupOf (s.warp c.warp) c :=
        List.mem_filter.2 ⟨List.mem_of_find?_eq_some found, by rwa [fibre_slot found]⟩
      simp only [Option.map_some, if_pos mine, same f acts]
    · simp only [Option.map_some, if_neg mine]

/-- A group all of whose fibres execute ends with a result of registers alone for each. -/
theorem finish_outRes (i : Instr) (out : LaneEnv → Fibre → LaneOut)
    (active : ∀ f ∈ groupOf (s.warp c.warp) c, (guardOf x f).1 = true) (nt : NoNumTraps s c) :
    Ends s c (laneAfter (laneEnv s c x) out) (laneFlags s c x out) (laneEvents s c x out)
      (finish s i c ((groupOf (s.warp c.warp) c).map fun f => outRes (laneEnv s c x) f (out (laneEnv s c x) f))) := by
  have ends := finish_map s i c (fun f => outRes (laneEnv s c x) f (out (laneEnv s c x) f))
    (fun f => { f.advance (laneEnv s c x).next with lanes := (out (laneEnv s c x) f).lanes })
    (fun _ => rfl) (fun _ => rfl) (fun _ => rfl) nt
  have flags : resFlags ((groupOf (s.warp c.warp) c).map fun f => outRes (laneEnv s c x) f (out (laneEnv s c x) f))
      = laneFlags s c x out := by
    rw [resFlags, List.foldl_map]
    exact List.foldl_ext _ _ _ fun a f hf => by rw [if_pos (active f hf)]; rfl
  have events : resEvents ((groupOf (s.warp c.warp) c).map fun f => outRes (laneEnv s c x) f (out (laneEnv s c x) f))
      = laneEvents s c x out := by
    rw [resEvents, List.foldl_map]
    exact List.foldl_ext _ _ _ fun a f hf => by rw [if_pos (active f hf)]; rfl
  rw [flags, events] at ends
  exact ends.of_group fun f hf => (if_pos (active f hf)).symm

/-- An instruction executed once for the warp, every fibre of whose group executes, ends with the results that its act gives
them. -/
theorem laneOnce_together {i : Instr} {us : List RegUse}
    {act : State → LaneEnv → Issue → Fibre → List Fibre → List FibreRes × State} {step : Fibre → FibreRes}
    (cur : s.cur = some c) (active : ∀ f ∈ groupOf (s.warp c.warp) c, (guardOf x f).1 = true) (hu : Usable s c us)
    (acts : ∀ lead rest, groupOf (s.warp c.warp) c = lead :: rest →
      act s (laneEnv s c x) c lead (lead :: rest) = ((lead :: rest).map step, s)) :
    laneOnce i x us act s = .next (finish s i c ((groupOf (s.warp c.warp) c).map step)) := by
  have window : usesOk (laneEnv s c x).warp.window us = true := hu.inWindow
  have on : (groupOf (s.warp c.warp) c).filter (fun f => (guardOf x f).1) = groupOf (s.warp c.warp) c :=
    List.filter_eq_self.2 active
  have off : (groupOf (s.warp c.warp) c).filter (fun f => !(guardOf x f).1) = [] :=
    List.filter_eq_nil_iff.2 fun f hf => by rw [active f hf]; exact Bool.false_ne_true
  unfold laneOnce
  simp only [cur, afterLoads_goes _ _ _ _ _ _ hu.written, on, off, window, List.map_nil, List.nil_append, Bool.not_true,
    Bool.false_eq_true, if_false]
  cases group : groupOf (s.warp c.warp) c with
  | nil => rfl
  | cons lead rest => simp only [acts lead rest group]

end

/-! ### Members (R268) -/

section
variable {s : State} {c : Issue} {x : Lx} {mm : Option Reg} {mem : List Fibre}

/-- The warp whose instruction is in execution. -/
theorem Members.curWarp (h : Members s c x mm mem) : curWarp s = c.warp := by simp only [Machine.curWarp, h.cur]

/-- The results of a warp-wide instruction without a mask group: the group is its own members. -/
theorem warpWide_group {us : List RegUse} {op : LaneEnv → List Fibre → Fibre → Except Stop LaneOut}
    {out : LaneEnv → Fibre → LaneOut} (i : Instr) (h : Members s c x none mem) (hu : Usable s c (us ++ maskUse s c none))
    (made : ∀ f ∈ groupOf (s.warp c.warp) c, op (laneEnv s c x) mem f = .ok (out (laneEnv s c x) f)) :
    warpWide i x none us op s = .next (finish s i c
      ((groupOf (s.warp c.warp) c).map fun f => outRes (laneEnv s c x) f (out (laneEnv s c x) f))) := by
  unfold warpWide
  refine laneOnce_together (us := us ++ maskUse s c none) h.cur h.active hu fun lead rest group => ?_
  obtain rfl : mem = lead :: rest := h.members.trans group
  rw [group] at made
  refine congrArg (·, s) (List.map_congr_left fun f hf => ?_)
  simp only [made f hf]

/-- Those of one with a mask group: the fibres that it names are all there. -/
theorem warpWide_masked {us : List RegUse} {op : LaneEnv → List Fibre → Fibre → Except Stop LaneOut}
    {out : LaneEnv → Fibre → LaneOut} {m : Reg} (i : Instr) (h : Members s c x (some m) mem)
    (hu : Usable s c (us ++ maskUse s c (some m)))
    (made : ∀ f ∈ groupOf (s.warp c.warp) c, op (laneEnv s c x) mem f = .ok (out (laneEnv s c x) f)) :
    warpWide i x (some m) us op s = .next (finish s i c
      ((groupOf (s.warp c.warp) c).map fun f => outRes (laneEnv s c x) f (out (laneEnv s c x) f))) := by
  obtain ⟨k, own, named, here⟩ := h.members
  have warp : (laneEnv s c x).warp = s.warp c.warp := rfl
  unfold warpWide
  simp only [h.curWarp]
  refine laneOnce_together (us := us ++ maskUse s c (some m)) h.cur h.active hu fun lead rest group => ?_
  rw [group] at own made
  have first : ownMask (s.three (s.warp c.warp)) m lead = some k := (own lead (List.mem_cons_self ..)).1
  have fits : ∀ f ∈ lead :: rest, (ownMask (s.three (s.warp c.warp)) m f == some k && k.testBit f.slot) = true :=
    fun f hf => by rw [(own f hf).1, (own f hf).2, beq_self_eq_true, Bool.and_true]
  have agree : (lead :: rest).filter (fun f => ownMask (s.three (s.warp c.warp)) m f == some k && k.testBit f.slot)
      = lead :: rest := List.filter_eq_self.2 fits
  have differ : (lead :: rest).filter (fun f => !(ownMask (s.three (s.warp c.warp)) m f == some k && k.testBit f.slot)) = [] :=
    List.filter_eq_nil_iff.2 fun f hf => by rw [fits f hf]; exact Bool.false_ne_true
  have stay : (lead :: rest).filter (fun f => !([] : List Fibre).any fun g => g.slot == f.slot) = lead :: rest :=
    List.filter_eq_self.2 fun _ _ => rfl
  have present : (mem.all fun f => (lead :: rest).any fun g => g.slot == f.slot) = true := by
    refine List.all_eq_true.2 fun f hf => List.any_eq_true.2 ⟨f, ?_, beq_self_eq_true _⟩
    rw [← group]
    exact List.mem_filter.2 ⟨(List.mem_filter.1 (named ▸ hf)).1, here f hf⟩
  simp only [first, warp, group, differ, agree, stay, ← named, present, if_true, List.map_nil, List.nil_append]
  refine congrArg (·, s) (List.map_congr_left fun f hf => ?_)
  simp only [made f hf]

/-- Either way, each fibre's result is made from the members. -/
theorem warpWide_runs {us : List RegUse} {op : LaneEnv → List Fibre → Fibre → Except Stop LaneOut}
    {out : LaneEnv → Fibre → LaneOut} (i : Instr) (h : Members s c x mm mem) (hu : Usable s c (us ++ maskUse s c mm))
    (made : ∀ f ∈ groupOf (s.warp c.warp) c, op (laneEnv s c x) mem f = .ok (out (laneEnv s c x) f)) :
    warpWide i x mm us op s = .next (finish s i c
      ((groupOf (s.warp c.warp) c).map fun f => outRes (laneEnv s c x) f (out (laneEnv s c x) f))) := by
  cases mm with
  | none => exact warpWide_group i h hu made
  | some m => exact warpWide_masked i h hu made

/-- A warp-wide instruction completes for its group. -/
theorem warpWide_ends {us : List RegUse} {op : LaneEnv → List Fibre → Fibre → Except Stop LaneOut}
    {out : LaneEnv → Fibre → LaneOut} (i : Instr) (h : Members s c x mm mem) (nt : NoNumTraps s c)
    (hu : Usable s c (us ++ maskUse s c mm))
    (made : ∀ f ∈ groupOf (s.warp c.warp) c, op (laneEnv s c x) mem f = .ok (out (laneEnv s c x) f)) :
    ∃ t, warpWide i x mm us op s = .next t
      ∧ Ends s c (laneAfter (laneEnv s c x) out) (laneFlags s c x out) (laneEvents s c x out) t :=
  ⟨_, warpWide_runs i h hu made, finish_outRes i out h.active nt⟩

end

/-- So the statements say it of an instruction whose results its operation makes from the members. -/
theorem wideDoes_of {i : Instr} {x : Lx} {mm : Option Reg} {us : List RegUse}
    {op : LaneEnv → List Fibre → Fibre → Except Stop LaneOut} {out : LaneEnv → List Fibre → Fibre → LaneOut}
    (form : ∀ s, exec i s = warpWide i x mm us op s) (made : ∀ e mem f, op e mem f = .ok (out e mem f)) :
    WideDoes i x mm us out := by
  intro s c mem h nt hu
  rw [form]
  exact warpWide_ends i h nt hu fun f _ => made _ mem f

/-! ### Votes (R269) -/

/-- A fibre votes by the majority of its siblings. -/
theorem fibrePred_eq_votes (p : Pred) (f : Fibre) : (fibrePred p f).1 = votes p f := by
  unfold fibrePred votes
  rcases f.lanes with - | ⟨l, - | ⟨m, - | ⟨n, - | ⟨o, rest⟩⟩⟩⟩
  case cons.cons.cons.nil =>
    simp only [List.map_cons, List.map_nil, majorityBool, List.countP_cons, List.countP_nil]
    cases l.pred p <;> cases m.pred p <;> cases n.pred p <;> rfl
  all_goals rfl

/-- The votes of the members, each with its slot. -/
def voteList (p : Pred) (mem : List Fibre) : List (Nat × Bool) := mem.map fun g => (g.slot, votes p g)

/-- A poll makes its result from these. -/
theorem pollWith_eq (pa : Pred) (put : List (Nat × Bool) → Lane → Lane) (e : LaneEnv) (mem : List Fibre) (f : Fibre) :
    pollWith pa put e mem f
      = .ok ⟨f.lanes.map (put (voteList pa mem)), 0, guardEvent (majorityBool (f.lanes.map (·.pred pa))).2⟩ := by
  simp only [pollWith, voteList, fibrePred_eq_votes]
  rfl

section
variable (p : Pred) (mem : List Fibre)

/-- Whether some member votes for it, all do, none does, and how many. -/
theorem voteList_any : (voteList p mem).any (·.2) = mem.any (votes p) := List.any_map
theorem voteList_all : (voteList p mem).all (·.2) = mem.all (votes p) := List.all_map
theorem voteList_none : (voteList p mem).all (fun v => !v.2) = !mem.any (votes p) := by
  rw [← voteList_any, List.not_any_eq_all_not]
theorem voteList_count : ((voteList p mem).filter (·.2)).length = mem.countP (votes p) := by
  rw [← List.countP_eq_length_filter, voteList, List.countP_map]
  rfl

/-- The mask of the members that vote for it. -/
theorem voteList_mask :
    (voteList p mem).foldl (fun a v => if v.2 then a ||| 2 ^ v.1 else a) 0 = slotMask (mem.filter (votes p)) := by
  rw [voteList, List.foldl_map, slotMask, List.foldl_filter]

end

/-- Settles O15: each result is made from the members' votes, their first and last, or their mask. -/
theorem warpPolls : Obligations.WarpPolls := by
  unfold Obligations.WarpPolls
  intro poll
  refine ⟨fun x mm pd pa => ?some, fun x mm pd pa => ?every, fun x mm pd pa => ?same, fun x mm d pa => ?count,
    fun x mm d pa s c mem h nt hu => ?mask, fun x mm pd => ?first,
    fun x mm pd => ?last, fun x mm d s c mem h nt hu => ?members⟩
  case some =>
    refine wideDoes_of (fun s => (rfl : exec _ s = execPollSome x mm pd pa s)) fun e mem f => ?_
    rw [pollWith_eq, voteList_any]
  case every =>
    refine wideDoes_of (fun s => (rfl : exec _ s = execPollEvery x mm pd pa s)) fun e mem f => ?_
    rw [pollWith_eq, voteList_all]
  case same =>
    refine wideDoes_of (fun s => (rfl : exec _ s = execPollSame x mm pd pa s)) fun e mem f => ?_
    rw [pollWith_eq, voteList_all, voteList_none]
  case count =>
    refine wideDoes_of (fun s => (rfl : exec _ s = execPollCount x mm d pa s)) fun e mem f => ?_
    rw [pollWith_eq, voteList_count]
  case mask =>
    show ∃ t, execPollMask x mm d pa s = .next t ∧ _
    unfold execPollMask
    rw [h.curWarp]
    exact warpWide_ends _ h nt hu fun f _ => by rw [pollWith_eq, voteList_mask]
  case first =>
    refine wideDoes_of (fun s => (rfl : exec _ s = execLeadFirst x mm pd s)) fun e mem f => ?_
    rfl
  case last =>
    refine wideDoes_of (fun s => (rfl : exec _ s = execLeadLast x mm pd s)) fun e mem f => ?_
    rfl
  case members =>
    show ∃ t, execWmask x mm d s = .next t ∧ _
    unfold execWmask
    rw [h.curWarp]
    exact warpWide_ends _ h nt hu fun f _ => rfl

end Sys2Proof.Machine
end

section
/-! SUPPORT. The source of a lane exchange, and the members that a reduction or scan combines; and the statement about exchanges,
reductions, scans and matches that follows. -/
namespace Sys2Proof.Machine
open Sys2Proof.Claims

/-- A reversal reads the member as far from its segment's end as the reader is from its start, within the warp (R270). -/
theorem xlaneSource_rev {size : Nat} (pos : 0 < size) (n k b : Nat) :
    xlaneSource .rev size n k b
      = if k / size * size + (size - 1 - k % size) < n then some (k / size * size + (size - 1 - k % size)) else none := by
  have within : k - k / size * size = k % size := by rw [Nat.mul_comm]; exact (Nat.mod_eq_sub_mul_div).symm
  have low : k % size < size := Nat.mod_lt k pos
  have source : k / size * size + size - 1 - (k - k / size * size) = k / size * size + (size - 1 - k % size) := by
    rw [within]; omega
  simp only [xlaneSource, source, Option.filter_some, decide_eq_true_eq]

/-- So the fibre that a reversal reads is that member, or the reader itself where there is none. -/
theorem reversedMember {size : Nat} (pos : 0 < size) (n b : Nat) (mem : List Fibre) (f : Fibre) :
    ((xlaneSource .rev size n f.slot b).bind fun k => mem.find? fun g => g.slot == k).getD f
      = if f.slot / size * size + (size - 1 - f.slot % size) < n then
          (mem.find? fun g => g.slot == f.slot / size * size + (size - 1 - f.slot % size)).getD f else f := by
  rw [xlaneSource_rev pos]
  split <;> rfl

/-- Segments have a fibre or more. -/
theorem segment_pos (three : Bool) (seg : BitVec 4) : 0 < if seg = 0 then fibreCount three else 2 ^ seg.toNat := by
  split
  · cases three <;> decide
  · exact Nat.two_pow_pos _

/-- A reduction or scan of the members that it takes in, for each sibling (R271). -/
theorem wideOut_eq (op : AtomOp) (ty : AtomTy) (d a : Reg) (keep : Nat → Nat → Bool) (e : LaneEnv) (mem : List Fibre)
    (f : Fibre) {r : Nat → Nat × Flags} (made : r = fun j => wideCombine op ty (e.mode false) (e.drawOf f j 0)
      ((mem.filter fun g => keep g.slot f.slot).map fun g => atomData ty a (g.lane j))) :
    wideOut op ty d a keep e mem f
      = .ok ⟨f.lanes.zipIdx.map fun y => y.1.setVal (atomSize ty == 8) d.toNat (r y.2).1,
          orFlags (f.lanes.zipIdx.map fun y => (r y.2).2), 0⟩ := by
  subst made
  simp only [wideOut, zip_map_zipIdx, List.map_map]
  rfl

/-- Settles O16: the source of an exchange by its mode, reductions and scans by the members that they take in, and the members
of one value by their mask. -/
theorem warpExchanges : Obligations.WarpExchanges := by
  unfold Obligations.WarpExchanges
  refine ⟨fun x mm seg w d a b => ?rev, fun x mm seg mode w d a b s c mem v notRev h nt hu one => ?exchange,
    fun x mm ty op d a => ?reduce, fun x mm excl ty op d a => ?scan, fun x mm w d a s c mem h nt hu => ?matching⟩
  case rev =>
    refine wideDoes_of (fun s => (rfl : exec _ s = execXlane x mm seg .rev w d a b s)) fun e mem f => ?_
    simp only [if_true, reversedMember (segment_pos e.three seg)]
    rfl
  case exchange =>
    show ∃ t, execXlane x mm seg mode w d a b s = .next t ∧ _
    unfold execXlane
    rw [if_neg notRev]
    exact warpWide_ends _ h nt hu fun f hf => by simp only [if_neg notRev, one f hf]; rfl
  case reduce =>
    refine wideDoes_of (fun s => (rfl : exec _ s = execWred x mm ty op d a s)) fun e mem f => ?_
    refine (wideOut_eq op ty d a (fun _ _ => true) e mem f rfl).trans ?_
    rw [List.filter_true]
  case scan =>
    refine wideDoes_of (fun s => (rfl : exec _ s = execWscan x mm excl ty op d a s)) fun e mem f => ?_
    exact wideOut_eq op ty d a _ e mem f rfl
  case matching =>
    show ∃ t, execWarpMatch x mm w d a s = .next t ∧ _
    unfold execWarpMatch
    rw [h.curWarp]
    exact warpWide_ends _ h nt hu fun f _ => rfl

end Sys2Proof.Machine
end

section
/-! SUPPORT. Copies, hints, monitors and fences of a fibre alone; and the statement about them that follows. -/
namespace Sys2Proof.Machine

/-! ### A fibre alone that its instruction changes besides its registers -/

/-- An instruction executed once for the warp ends for a fibre alone with the fibre that its act completes. -/
theorem aloneEnds_of_completed {s : State} {c : Issue} {x : Lx} {f g : Fibre} {i : Instr} {us : List RegUse}
    {act : State → LaneEnv → Issue → Fibre → List Fibre → List FibreRes × State} {u : State} {lanes : List Lane}
    (h : Alone s c x f) (same : g.slot = f.slot) (hu : Usable s c us) (hi : exec i s = laneOnce i x us act s)
    (ha : act s (laneEnv s c x) c f [f] = ([doneRes (laneEnv s c x) g lanes], u)) (nt : NoNumTraps u c) :
    AloneEnds i s u c x g (nextPc c) lanes 0 0 := by
  refine ⟨_, hi.trans (laneOnce_alone i x us act s c f h hu), ?_⟩
  rw [ha, show (0 : BitVec 4) ||| guardNum x g = guardNum x g from BitVec.zero_or]
  exact finish_one u i c (doneRes (laneEnv s c x) g lanes) { g.advance (nextPc c) with lanes := lanes } rfl rfl
    (h.group.trans (congrArg (fun k => [k]) same.symm)) nt

/-- A fibre is no other fibre of its own group. -/
theorem others_alone (f : Fibre) : [f].filter (fun g => g.slot != f.slot) = [] :=
  List.filter_cons_of_neg (by simp)

/-- A change of a warp that leaves its launch takes no numeric trap that was not taken before. -/
theorem NoNumTraps.modWarp {s : State} {c : Issue} (nt : NoNumTraps s c) {g : Warp → Warp}
    (keeps : ∀ W, (g W).launch = W.launch) : NoNumTraps (s.modWarp c.warp g) c := by
  have same : ((s.modWarp c.warp g).warp c.warp).launch = (s.warp c.warp).launch := by
    cases found : Tab.find s.warps c.warp with
    | none => simp only [State.warp, State.modWarp, Tab.modify, found]
    | some W => rw [State.warp_modWarp_of s c.warp g found, keeps]
  unfold NoNumTraps
  rw [same]
  exact nt

/-! ### Copies (R261, R262) -/

section
variable {s s1 s2 s3 s4 : State} {c : Issue} {x : Lx} {f : Fibre} {seg : Seg} {d a : Reg}

/-- A `cpa` that does not go on after a wait takes a new number. -/
theorem cpaId_new (s : State) (new : ∀ w, f.status = .waiting w → ∀ n, w.why ≠ .recorded n) : cpaId s [f] = s.next := by
  simp only [cpaId, List.findSome?_cons, List.findSome?_nil]
  split
  next n found =>
    split at found
    next w status =>
      split at found
      next why => exact absurd why (new w status _)
      next => cases found
    next => cases found
  next => rfl

/-- Its piece is recorded. -/
theorem cpaFibres_records {one : State → Fibre → Except Stop Unit × State}
    (new : ∀ w, f.status = .waiting w → ∀ n, w.why ≠ .recorded n) (recorded : one s f = (.ok (), s1)) :
    cpaFibres one [f] s false = ([(f, none)], s1) := by
  simp only [cpaFibres, recorded, Bool.false_eq_true, if_false]
  split
  next w status =>
    split
    next found =>
      split at found
      next why => exact absurd why (new w status _)
      next => cases found
    next => rfl
  next => rfl

/-- A `cpa` of a fibre alone completes once the earlier stores are performed and its piece is recorded (R164, R261). -/
theorem cpa_ends {sc : Scope} {dclus : Bool} {bar : Option (BitVec 4)} (h : Alone s c x f)
    (hu : Usable s c [one d, addrUse seg a]) (may : mayCopy s (s.warp c.warp) = true) (performed : flushed s c.warp = (true, s1))
    (new : ∀ w, f.status = .waiting w → ∀ n, w.why ≠ .recorded n)
    (recorded : cpaFibre s1 (laneEnv s c x) c s1.next seg dclus bar d a f = (.ok (), s2)) (nt : NoNumTraps s2 c) :
    AloneEnds (.cpa x sc seg dclus bar d a) s s2 c x f (nextPc c) f.lanes 0 0 := by
  refine aloneEnds_of_laneOnce h hu (rfl : exec _ s = execCpa x sc seg dclus bar d a s) ?_ nt
  have warp : (laneEnv s c x).warp = s.warp c.warp := rfl
  have piece := cpaFibres_records (s := s1) (one := (cpaFibre · (laneEnv s c x) c s1.next seg dclus bar d a ·)) new recorded
  simp only [warp, may, performed, cpaId_new s1 new, piece, Bool.not_true, Bool.false_eq_true, if_false]
  rfl

/-- A `tcopy` whose record is located, read and recorded queues its command and writes its number (R165, R262). -/
theorem tcopy_ends {sc : Scope} {v ea b : Nat} {ps : List Place} {bs : List Byte} {u : State} (h : Alone s c x f)
    (hu : Usable s c [two d, addrUse seg a]) (may : mayCopy s (s.warp c.warp) = true) (hv : addrValue seg a f .read = .ok v)
    (hl : locatePieces s (s.warp c.warp) f.tid.toNat seg v 64 16 .read = (.ok (ea, ps), s1))
    (performed : flushed s1 c.warp = (true, s2)) (read : loadShared s2 c.warp [f] ea ps = (.ok bs, s3))
    (blk : b = (s.warp c.warp).blk.getD 0)
    (recorded : recordRanges s3 (fitBoards (recordBoards s3 (s.warp c.warp) b bs
      (.carter b ((s3.blk b).carter.issued + 1) 0))) = some s4)
    (hu' : u = commitBlock (queueCopy s4 b bs ea c.pc c.warp f.slot).2 (s.warp c.warp)) (nt : NoNumTraps u c) :
    AloneEnds (.tcopy x sc seg d a) s u c x f (nextPc c)
      (f.lanes.map fun l => l.setPair d.toNat ((s4.blk b).carter.issued + 1)) 0 0 := by
  subst blk hu'
  refine aloneEnds_of_laneOnce h hu (rfl : exec _ s = execTcopy x sc seg d a s) ?_ nt
  have warp : (laneEnv s c x).warp = s.warp c.warp := rfl
  simp only [warp, may, hv, hl, performed, read, recorded, others_alone, mapLanes_const, List.map_nil, Bool.not_true,
    Bool.false_eq_true, if_false]
  rfl

end

/-! ### Hints (R264) -/

/-- A hint begins a walk or adds to one, at most. -/
theorem askWalk_walks (s : State) (core c va : Nat) : ∃ ws, askWalk s core c va = { s with walks := ws } := by
  unfold askWalk
  simp only
  split
  · exact ⟨_, rfl⟩
  · split
    · exact ⟨s.walks, rfl⟩
    · exact ⟨_, rfl⟩

/-- A prefetch completes, whether or not it asks for a walk. -/
theorem lanePref_walks (seg : Seg) (a : Reg) (s : State) (e : LaneEnv) (f : Fibre) :
    ∃ ws, lanePref seg a s e f = (LaneAct.ok e f f.lanes, { s with walks := ws }) := by
  have unchanged : ∃ ws, (LaneAct.ok e f f.lanes, s) = (LaneAct.ok e f f.lanes, { s with walks := ws }) := ⟨s.walks, rfl⟩
  unfold lanePref
  simp only
  split
  · exact unchanged
  · split
    · split
      · obtain ⟨ws, asked⟩ := askWalk_walks s e.warp.core e.warp.ctx ‹Nat›
        exact ⟨ws, congrArg (Prod.mk _) asked⟩
      · exact unchanged
    · exact unchanged

/-! ### Fences (R267) -/

/-- A fence has the earlier stores performed when it is `.sc`, or releases beyond the core. -/
theorem fenceDrains_iff (s : State) (core : Nat) (o : MemOrd) (sc : Scope) :
    fenceDrains s core o sc = true ↔ o = .sc ∨ ((o = .rel ∨ o = .ar) ∧ atHome s core sc = true) := by
  cases o <;> simp [fenceDrains, releases]

/-- The orderings that acquire. -/
theorem acquires_eq_decide (o : MemOrd) : acquires o = decide (o = .acq ∨ o = .ar ∨ o = .sc) := by cases o <;> rfl

/-- A fibre after a fence has at most a wider acquire. -/
theorem Fibre.fence_eq (f : Fibre) (o : MemOrd) (sc : Scope) :
    f.fence o sc = { f with fenced := if acquires o then max f.fenced (scopeCode sc) else f.fenced } := by
  unfold Fibre.fence
  split <;> rfl

/-- Settles O22: a copy by the record that its act makes, a hint by the walk that it may ask for, a monitor by its code, and a fence
by what it performs and gives up. -/
theorem copiesAndMonitors : Obligations.CopiesAndMonitors := by
  unfold Obligations.CopiesAndMonitors
  refine ⟨fun x sc seg dclus bar d a s c f s1 s2 h hu may performed new recorded nt =>
      cpa_ends h hu may performed new recorded nt,
    fun x sc seg d a s c f v ea ps s1 s2 bs s3 s4 h hu may hv hl performed read b blk recorded u eq nt =>
      tcopy_ends h hu may hv hl performed read blk recorded eq nt,
    fun x sc seg lv a s c f h nt hu => ?hint, fun x sc seg a s c f v p s1 s2 h hu hv hl linked u eq nt => ?watch,
    fun x sc seg d b s c f v h nt hu one k code => ?wait, fun x o sc s c f s1 h released acq eq u eq' nt => ?fence⟩
  case hint =>
    obtain ⟨ws, act⟩ := lanePref_walks seg a s (laneEnv s c x) f
    exact ⟨ws, aloneEnds_of_laneFold h hu (rfl : exec _ s = execPref x sc seg lv a s) act nt⟩
  case watch =>
    subst eq
    refine aloneEnds_of_laneOnce h hu (rfl : exec _ s = execMwatch x sc seg a s) ?_ nt
    have warp : (laneEnv s c x).warp = s.warp c.warp := rfl
    simp only [warp, hv, hl, linked, List.map_cons, List.map_nil]
  case wait =>
    have known : monitorCode (s.warp c.warp).monitor = some k := by
      cases armed : (s.warp c.warp).monitor with
      | none =>
        rw [armed] at code
        obtain rfl : k = 3 := code
        rfl
      | some m =>
        rw [armed] at code
        rcases code with ⟨woken, rfl⟩ | ⟨woken, moved, rfl⟩ | ⟨woken, moved, expired, rfl⟩
        · simp only [monitorCode, woken, if_true]
        · simp only [monitorCode, woken, moved, Bool.false_eq_true, if_true, if_false]
        · simp only [monitorCode, woken, moved, expired, Bool.false_eq_true, if_true, if_false]
    refine aloneEnds_of_laneOnce h hu (rfl : exec _ s = execMwait x sc seg d b s) ?_ (nt.modWarp fun _ => rfl)
    have warp : (laneEnv s c x).warp = s.warp c.warp := rfl
    simp only [warp, one, known, mapLanes_const, List.map_cons, List.map_nil]
  case fence =>
    subst eq eq'
    rw [← acquires_eq_decide] at nt ⊢
    rw [← Fibre.fence_eq]
    have same : (f.fence o sc).slot = f.slot := by rw [Fibre.fence_eq]
    refine aloneEnds_of_completed h same (usable_nil s c) (rfl : exec _ s = execFence x o sc s) ?_ nt
    have warp : (laneEnv s c x).warp = s.warp c.warp := rfl
    simp only [warp, fenceDrains_iff, released, List.map_cons, List.map_nil]

end Sys2Proof.Machine
end

section
/-! SUPPORT. Where a fibre alone goes; and the statement about branches, calls, tables and returns that follows. -/
namespace Sys2Proof.Machine

section
variable {s u : State} {c : Issue} {x : Lx} {f : Fibre}

/-- A fibre alone that its branch sends to an address stands there with the lanes that it leaves. -/
theorem aloneEnds_of_laneBranch {i : Instr} {us : List RegUse} {go : State → LaneEnv → Issue → Fibre → LaneAct × State}
    {pc : VAddr} {lanes : List Lane} {num : BitVec 4} (h : Alone s c x f) (hu : Usable s c us)
    (hi : exec i s = laneBranch x us go s)
    (ha : go s (laneEnv s c x) c f = (⟨.done { f.advance pc with lanes := lanes }, 0, num⟩, u)) (nt : NoNumTraps u c) :
    AloneEnds i s u c x f pc lanes 0 num := by
  have form : laneBranch x us go s = laneFold (.nop x) x false us (fun s e f => go s e c f) s := by
    simp only [laneBranch, h.cur]
  refine ⟨_, hi.trans (form.trans (laneFold_alone (.nop x) x false us _ s c f h hu)), ?_⟩
  rw [ha]
  exact finish_one u (.nop x) c ⟨f.slot, _, 0, num ||| guardNum x f⟩ { f.advance pc with lanes := lanes } rfl rfl h.group nt

/-- The lanes of a fibre that goes to a target: those of a call hold its link. -/
def linked (link : Bool) (next : VAddr) (f : Fibre) : List Lane :=
  if link then f.lanes.map fun l => l.setPair 6 next.toNat else f.lanes

/-- A fibre that goes to a target has those lanes there. -/
theorem jumpTo_eq (e : LaneEnv) (link : Bool) (target : VAddr) (f : Fibre) :
    jumpTo e link target f = { f.advance target with lanes := linked link e.next f } := by
  cases link
  · rfl
  · simp only [jumpTo, linked, mapLanes_const, if_true]

/-- A branch goes to its target where the majority of the siblings' predicates, or its inverse, holds (R273). -/
theorem laneBra_ends {i : Instr} {link neg : Bool} {pred : Pred} {off : BitVec 35} (h : Alone s c x f)
    (nt : NoNumTraps s c) (hu : Usable s c (linkUse link)) (hi : exec i s = laneBra x link neg pred off s)
    {m : Bool × Bool} (majority : m = majorityBool (f.lanes.map (·.pred pred))) :
    AloneEnds i s s c x f (if m.1 ≠ neg then branchTarget c.pc off else nextPc c)
      (if m.1 ≠ neg then linked link (nextPc c) f else f.lanes) 0 (guardEvent m.2) := by
  refine aloneEnds_of_laneBranch h hu hi ?_ nt
  have votes : fibrePred pred f = m := majority.symm
  simp only [votes]
  by_cases goes : m.1 ≠ neg
  · simp only [if_pos goes, if_pos (bne_iff_ne.2 goes), jumpTo_eq]
    rfl
  · simp only [if_neg goes, if_neg (mt bne_iff_ne.1 goes)]
    rfl

/-- A branch through a table goes to the entry that the operand names, a word offset from the table (R274, log 24). -/
theorem laneTable_ends {i : Instr} {link : Bool} {off : BitVec 27} {a : Reg} {k n v : Nat} {s1 s2 : State} {table : VAddr}
    (h : Alone s c x f) (hu : Usable s c (one a :: linkUse link)) (hi : exec i s = laneTable x link off a s)
    (index : oneValue f (·.reg a.toNat) .read = .ok k) (base : table = branchTarget c.pc off)
    (free : codeHeld s (s.warp c.warp).core (s.warp c.warp).ctx table.toNat 4 = false)
    (entryFree : codeHeld s (s.warp c.warp).core (s.warp c.warp).ctx (table + BitVec.ofNat 56 (4 + 4 * k)).toNat 4 = false)
    (count : fetchCode s (s.warp c.warp).core (s.warp c.warp).ctx table.toNat 4 = (.ok n, s1)) (within : k < n)
    (entry : fetchCode s1 (s.warp c.warp).core (s.warp c.warp).ctx (table + BitVec.ofNat 56 (4 + 4 * k)).toNat 4 = (.ok v, s2))
    (nt : NoNumTraps s2 c) :
    AloneEnds i s s2 c x f (branchTarget table (BitVec.ofNat 32 v)) (linked link (nextPc c) f) 0 0 := by
  subst base
  refine aloneEnds_of_laneBranch h hu hi ?_ nt
  have warp : (laneEnv s c x).warp = s.warp c.warp := rfl
  simp only [index, warp, free, entryFree, count, entry, if_neg (Nat.not_le.2 within), jumpTo_eq, Bool.false_eq_true, if_false]
  rfl

/-- A return goes to the code address that its pair holds (R275). -/
theorem ret_ends {a : Reg} {v : Nat} (h : Alone s c x f) (nt : NoNumTraps s c) (hu : Usable s c [two a])
    (address : oneValue f (·.pair a.toNat) .read = .ok v) (code : codeAddress v = true) :
    AloneEnds (.ret x a) s s c x f (BitVec.ofNat 56 v) f.lanes 0 0 := by
  refine aloneEnds_of_laneBranch h hu (rfl : exec _ s = execRet x a s) ?_ nt
  simp only [address, code, if_true, jumpTo_eq]
  rfl

end

/-- Settles O25: each instruction by where its act sends the fibre. -/
theorem branches : Obligations.Branches := by
  unfold Obligations.Branches
  refine ⟨fun x neg pred off s c f h nt => ⟨?bra, fun hu => ?call⟩,
    fun x off a s c f k n v s1 s2 h hu index table base free entryFree count within entry nt => ⟨?brx, fun hu' => ?callx⟩,
    fun x a s c f v h nt hu address aligned low => ?ret⟩
  case bra =>
    have ends := laneBra_ends (i := .bra x neg pred off) (link := false) h nt (usable_nil s c)
      (rfl : exec _ s = execBra x neg pred off s) rfl
    rwa [show linked false (nextPc c) f = f.lanes from rfl, ite_self] at ends
  case call => exact laneBra_ends h nt hu (link := true) (rfl : exec _ s = execCall x neg pred off s) rfl
  case brx =>
    exact laneTable_ends h hu (link := false) (rfl : exec _ s = execBrx x off a s) index base free entryFree count within entry nt
  case callx =>
    exact laneTable_ends h hu' (link := true) (rfl : exec _ s = execCallx x off a s) index base free entryFree count within entry nt
  case ret =>
    refine ret_ends h nt hu address ?_
    rw [codeAddress, aligned, Nat.div_eq_of_lt low]
    rfl

end Sys2Proof.Machine
end

section
/-! SUPPORT. A breakpoint that halts a team one of whose blocks has only been given room in a fused cluster, and the statement about
traps and breakpoints that it refutes. -/
namespace Sys2Proof.Machine

/-- A fibre of one lane. -/
def breakingFibre : Fibre where
  slot := 0
  pc := 0
  tid := 0
  base := 0
  icount := 0
  join := 0
  status := .ready
  frag := 0
  fenced := 0
  yields := false
  lanes := [Lane.zero]

/-- The `brkpt` that it issues. -/
def breakingIssue : Issue := ⟨0, [0], 0, none, 0⟩

/-- A store of one byte, 1 at address 0. -/
def byteStore : StoreOp where
  place := ⟨none, 0, 0, .plain, 0, 0, 0, false, 0, false⟩
  size := 1
  writes := wholeBytes 0 [1]
  rmw := none
  scope := .device
  release := false
  pc := 0
  slot := 0
  fp := 0
  num := 0
  raised := 0

/-- It issues in block 0, which runs on core 0, of a launch with fused L1s, in a context with breakpoints armed. Block 1 of the same
team has been given room on core 4, from which a store is on its way to its home L2. -/
def breakingTeam : State := { State.reset with
  cur := some breakingIssue
  warps := [(0, { Warp.absent with blk := some 0, fibres := [breakingFibre] })]
  blocks := [(0, { Block.absent with state := .resident, placed := true }),
    (1, { Block.absent with state := .ready, placed := true, core := 4 })]
  launches := [(0, { Launch.absent with lrec := { LaunchRec.zero with fused := true } })]
  cores := [(4, { Core.reset with passing := [⟨byteStore, none, 0, 0, some 1⟩] })]
  ctxs := [(0, { Ctx.reset with dbgr := true, dbgctl := 4 })] }

/-- The fibre issues it alone. -/
theorem breakingTeam_alone : Alone breakingTeam breakingIssue Lx.none breakingFibre := ⟨rfl, rfl, by decide, by decide⟩

/-- Block 1 gives up its room, so that its cluster is fused no more (R128, R412), and the store reaches memory. -/
theorem brkpt_breakingTeam : ∃ t, exec (.brkpt Lx.none) breakingTeam = .next t ∧ t.mem ≠ breakingTeam.mem := by
  refine ⟨matchWarp breakingTeam 0 haltIndex false 0, rfl, by decide +kernel⟩

/-- Refutes O28: its clause about an armed `brkpt` does not ask that the blocks of the team which it halts lie on one cluster (R39).
Where one that has only been given room was the last of a fused cluster, the halt has the stores of that cluster performed (R128),
and memory is not as it was. -/
theorem not_trapsRaised : ¬ Obligations.TrapsRaised := by
  unfold Obligations.TrapsRaised
  rintro ⟨-, -, -, halts⟩
  have runs : ∀ b, (breakingTeam.warp breakingIssue.warp).blk = some b → (breakingTeam.blk b).state ≠ .ready := by
    intro b block
    obtain rfl : 0 = b := Option.some.inj block
    decide
  obtain ⟨t, halted, -, -, -, kept, -⟩ :=
    halts Lx.none breakingTeam breakingIssue breakingFibre breakingTeam_alone (by decide) runs
  obtain ⟨u, halted', changed⟩ := brkpt_breakingTeam
  obtain rfl : t = u := Host.Outcome.next.inj (halted.symm.trans halted')
  exact changed kept

end Sys2Proof.Machine
end

section
/-! SUPPORT. Scalar arithmetic whose results the statements write out; and the statement about it that follows. -/
namespace Sys2Proof.Machine
open Sys2Proof.Claims

section
variable {i : Instr} {w : Bool} {d a b : Reg}

/-- A scalar instruction that the model gives the function of its statement. -/
theorem scalar_of {srcs : List Reg} {f g : Warp → List Nat → Nat} (o : State → Host.Outcome State Fault Refusal)
    (arm : ∀ s, exec i s = o s) (form : ∀ s, o s = scalar i w d srcs f s) (same : f = g) : Scalar i w d srcs g := by
  subst same
  exact fun s c vs s1 s2 met sources dest nt => goes_of_scalar ((arm s).trans (form s)) met sources dest nt

/-- A scalar instruction of two sources, alike. -/
theorem scalar2_of {f g : Nat → Nat → Nat} (o : State → Host.Outcome State Fault Refusal) (arm : ∀ s, exec i s = o s)
    (form : ∀ s, o s = scalar2 i w d a b f s) (same : ∀ p q, f p q = g p q) : Scalar2 i w d a b g :=
  scalar_of o arm form (funext fun _ => funext fun vs => same (vs.getD 0 0) (vs.getD 1 0))

/-- A scalar shift whose amount is a register's value or the field itself. -/
theorem scalarShift_of {i : Bool → Bool → Reg → Reg → Reg → Instr} {k : Shift} {g : Nat → Nat → Nat → Nat}
    (form : ∀ imm w d a b s, exec (i imm w d a b) s = scalarShift (i imm w d a b) k imm w d a b s)
    (same : ∀ w p n, shiftOp k w p n = g w p n) : ScalarShift i g := by
  obtain rfl : shiftOp k = g := funext fun w => funext fun p => funext fun n => same w p n
  exact ⟨fun w d a b => scalar_of (scalarShift (i true w d a b) k true w d a b) (form true w d a b)
      (fun _ => if_pos rfl) rfl,
    fun w d a b s c p n s1 s2 s3 met first second dest nt =>
      goes_of_scalarShift (form false w d a b s) met first second dest nt⟩

/-- A uniform register takes 16 bits above its lower half. -/
theorem simmh_goes {s : State} {c : Issue} {e : Bool} {v : BitVec 16} (met : Uniform s c [plainUse false d])
    (nt : NoNumTraps s c) :
    Goes (.simmh e d v) s (s.setWarp c.warp ((s.warp c.warp).setSreg d.toNat
      (v.toNat * 65536 + (s.warp c.warp).sreg d.toNat % 65536))) c (nextPc c) := by
  refine goes_of_act (execSimmh e d v s) rfl rfl met rfl ?_
  simpa only [NoNumTraps, State.warp_setWarp, if_true, State.launch_setWarp, Warp.setSreg_launch] using nt

end

/-- Settles O31: each instruction is of a scalar form, and the function that the model gives the form is the statement's. -/
theorem uniformArithmetic : Obligations.UniformArithmetic := by
  unfold Obligations.UniformArithmetic
  refine ⟨?sadd, ?ssub, ?smul, ?smulhi, ?sand, ?sor, ?sxor, ?shifts, ?smin, ?smax, ?smov, ?simm, ?simmh, ?ssel⟩
  case sadd => exact fun e w d a b => scalar2_of (execSadd e w d a b) (fun _ => rfl) (fun _ => rfl) fun _ _ => rfl
  case ssub => exact fun e w d a b => scalar2_of (execSsub e w d a b) (fun _ => rfl) (fun _ => rfl) fun _ _ => rfl
  case smul => exact fun e w d a b => scalar2_of (execSmul e w d a b) (fun _ => rfl) (fun _ => rfl) fun _ _ => rfl
  case smulhi =>
    exact fun e sg w d a b => scalar2_of (execSmulhi e sg w d a b) (fun _ => rfl) (fun _ => rfl) fun p q => mulHigh_eq _ p q sg
  case sand => exact fun e w d a b => scalar2_of (execSand e w d a b) (fun _ => rfl) (fun _ => rfl) fun _ _ => rfl
  case sor => exact fun e w d a b => scalar2_of (execSor e w d a b) (fun _ => rfl) (fun _ => rfl) fun _ _ => rfl
  case sxor => exact fun e w d a b => scalar2_of (execSxor e w d a b) (fun _ => rfl) (fun _ => rfl) fun _ _ => rfl
  case shifts =>
    exact fun e => ⟨scalarShift_of (k := .shl) (fun _ _ _ _ _ _ => rfl) fun _ _ _ => rfl,
      scalarShift_of (k := .shr) (fun _ _ _ _ _ _ => rfl) fun _ _ _ => rfl⟩
  case smin =>
    exact fun e sg w d a b => scalar2_of (execSmin e sg w d a b) (fun _ => rfl) (fun _ => rfl) fun p q => minMax_min _ p q sg
  case smax =>
    exact fun e sg w d a b => scalar2_of (execSmax e sg w d a b) (fun _ => rfl) (fun _ => rfl) fun p q => minMax_max _ p q sg
  case smov => exact fun e w d a => scalar_of (execSmov e w d a) (fun _ => rfl) (fun _ => rfl) rfl
  case simm => exact fun e d v => scalar_of (execSimm e d v) (fun _ => rfl) (fun _ => rfl) rfl
  case simmh => exact fun e d v s c met nt => simmh_goes met nt
  case ssel =>
    refine fun e w neg cn d a b => scalar_of (execSsel e w neg cn d a b) (fun _ => rfl) (fun _ => rfl)
      (funext fun W => funext fun vs => ?_)
    rw [ite_bne]; split <;> rfl

end Sys2Proof.Machine
end

section
/-! SUPPORT. Uniform loads, stores and atomics whose address is found; and the statement about them that follows. -/
namespace Sys2Proof.Machine
open Sys2Proof.Claims

section
variable {s s1 s2 u : State} {c : Issue} {e : Bool} {p : Place}

/-- A uniform load waits with its warp's loads, with the value that memory holds when it issues (log 9). -/
theorem sld_goes {sz : USize} {seg : Seg} {off : BitVec 6} {t a : Reg} {el : Elem} {fs : List Fibre}
    (met : Uniform s c [⟨t.toNat, usizeRegs sz, false⟩, uniAddrUse seg a])
    (located : locate s (s.warp c.warp) 0 seg (uniAddr (s.warp c.warp) seg a) (off.toNat * usize sz) (usize sz) .read false
      = (.ok p, s1)) (hfs : fs = standing (s.warp c.warp))
    (loaded : loadElem s1 c.warp (fs.all (·.relaxed s1 (s.warp c.warp).core)) p (usize sz) p.va = (.ok el, s2))
    (hu : u = acquireAt (addLoad s2 c.warp none (regWrites t.toNat (usizeRegs sz) [el.copies.headD 0])) (s.warp c.warp).core
      (widestFence fs)) (nt : NoNumTraps u c) : Goes (.sld e sz seg off t a) s u c (nextPc c) := by
  subst hu hfs
  refine goes_of_act (execSld e sz seg off t a s) rfl rfl met ?_ nt
  simp only [located, loaded]

/-- A uniform store takes its place among its warp's operations. -/
theorem sst_goes {sz : USize} {seg : Seg} {off : BitVec 6} {t a : Reg} {v : Nat}
    (met : Uniform s c [⟨t.toNat, usizeRegs sz, false⟩, uniAddrUse seg a])
    (located : locate s (s.warp c.warp) 0 seg (uniAddr (s.warp c.warp) seg a) (off.toNat * usize sz) (usize sz) .write false
      = (.ok p, s1))
    (hv : v = (List.range (usizeRegs sz)).foldl (fun v i => v + 2 ^ (32 * i) * (s.warp c.warp).sreg (t.toNat + i)) 0)
    (stored : issueStore s1 c.warp ⟨p, usize sz, uniWrites p (usize sz) (v % 2 ^ (8 * usize sz)), none, .device, false, c.pc,
      c.group.headD 0, 0, 0, 0⟩ p.va s1.next 0 = .ok u) (nt : NoNumTraps u c) :
    Goes (.sst e sz seg off t a) s u c (nextPc c) := by
  subst hv
  refine goes_of_act (execSst e sz seg off t a s) rfl rfl met ?_ nt
  simp only [located, lowSlot, stored]

/-- A uniform atomic performs at once and writes the old value (log 10). -/
theorem satom_goes {op : AtomOp} {ar : Bool} {ty : BitVec 2} {d a b : Reg} {t : AtomTy} {olds : List Nat} {fp : Flags}
    {ev : BitVec 4} (ht : t = satomTy ty)
    (met : Uniform s c [plainUse (atomSize t == 8) d, plainUse true a, plainUse (atomSize t == 8) b])
    (located : locate s (s.warp c.warp) 0 .glob ((s.warp c.warp).sval true a.toNat) 0 (atomSize t) .rmw true = (.ok p, s1))
    (performed : performAtomic s1 c.warp p (atomSize t) p.va none [(s.warp c.warp).sval (atomSize t == 8) b.toNat]
      (fun _ old v => (some (atomResult op t old v modeRN 0).1, (atomResult op t old v modeRN 0).2))
      = (.ok (olds, fp, ev), s2)) {w : State}
    (hw : w = s2.modWarp c.warp fun W => W.setSval (atomSize t == 8) d.toNat (olds.headD 0))
    (hu : u = acquireAt (if ar then acquire w (s.warp c.warp).core .device else w) (s.warp c.warp).core
      (widestFence (standing (s.warp c.warp)))) (nt : NoNumTraps u c) : Goes (.satom e op ar ty d a b) s u c (nextPc c) := by
  subst hu hw ht
  refine goes_of_act (execSatom e op ar ty d a b s) rfl (by unfold execSatom; rfl) met ?_ nt
  simp only [located, performed]

end

/-- Settles O34: each instruction by what its act comes to once its address is found and its access is made. -/
theorem uniformMemory : Obligations.UniformMemory := by
  unfold Obligations.UniformMemory
  refine ⟨?load, ?store, ?atomic⟩
  case load =>
    exact fun e sz seg off t a s c p el s1 s2 met located fs hfs loaded u hu nt => sld_goes met located hfs loaded hu nt
  case store => exact fun e sz seg off t a s c p s1 s2 met located v hv stored nt => sst_goes met located hv stored nt
  case atomic =>
    exact fun e op ar ty d a b s c p olds fp ev s1 s2 t ht met located performed w hw u hu nt =>
      satom_goes ht met located performed hw hu nt

end Sys2Proof.Machine
end

section
/-! SUPPORT. Barriers: what an arrival and added bytes do case by case, and the instructions on them once their checks are met;
and the statement about them that follows. -/
namespace Sys2Proof.Machine
open Sys2Proof.Claims

/-! ### Arrivals and bytes (R298, R300, R301) -/

section

/-- A barrier with bytes and arrivals counted: the fault, or its phase ended where it is over. -/
def Barrier.counted (u : Barrier) : Except Nat Barrier := if u.below then .error 3 else .ok u.settle

theorem Barrier.arrive_of_room {v : Barrier} (tx : Double) (set : v.count ≠ 0) (room : v.arr ≠ v.count) :
    v.arrive tx = ({ v with bytes := v.bytes + tx, arr := v.arr + 1 } : Barrier).counted := by
  rw [Barrier.arrive, if_neg set, if_neg room, Barrier.counted]

theorem Barrier.expect_eq (v : Barrier) (tx : Double) :
    v.expect tx = ({ v with bytes := v.bytes + tx } : Barrier).counted := rfl

variable (u : Barrier)

/-- The phase ends when every arrival is made and no byte is outstanding. -/
theorem Barrier.counted_full (set : u.count ≠ 0) (full : u.arr = u.count) (none : u.bytes = 0) :
    u.counted = .ok { u with phase := u.phase + 1, arr := 0 } := by
  have above : u.below = false := by simp [Barrier.below, none]
  have ends : u.settle = { u with phase := u.phase + 1, arr := 0 } := if_pos ⟨set, full, none⟩
  rw [Barrier.counted, above, ends]; rfl

/-- Bytes below 0 with every arrival made are case 3. -/
theorem Barrier.counted_below (set : u.count ≠ 0) (full : u.arr = u.count) (neg : u.bytes.toInt < 0) :
    u.counted = .error 3 := by
  have msb : u.bytes.msb = true := by rw [BitVec.msb_eq_toInt]; exact decide_eq_true neg
  have below : u.below = true := by
    rw [Barrier.below, full, msb]; simpa using set
  rw [Barrier.counted, if_pos below]

/-- While an arrival is missing nothing more happens. -/
theorem Barrier.counted_missing (h : u.arr ≠ u.count ∨ u.count = 0) : u.counted = .ok u := by
  have above : u.below = false := by rcases h with h | h <;> simp [Barrier.below, h]
  have goesOn : u.settle = u := if_neg fun all => h.elim (· all.2.1) all.1
  rw [Barrier.counted, above, goesOn]; rfl

/-- The cases of an arrival and of added bytes (R298, R300, R301, R479). -/
theorem Barrier.cases (v : Barrier) (tx : Double) :
    (v.count = 0 → v.arrive tx = .error 1)
    ∧ (v.count ≠ 0 → v.arr = v.count → v.arrive tx = .error 2)
    ∧ (v.count ≠ 0 → v.arr ≠ v.count → v.arr + 1 = v.count → v.bytes + tx = 0 →
        v.arrive tx = .ok { v with phase := v.phase + 1, arr := 0, bytes := 0 })
    ∧ (v.count ≠ 0 → v.arr ≠ v.count → v.arr + 1 = v.count → (v.bytes + tx).toInt < 0 → v.arrive tx = .error 3)
    ∧ (v.count ≠ 0 → v.arr ≠ v.count → v.arr + 1 ≠ v.count →
        v.arrive tx = .ok { v with arr := v.arr + 1, bytes := v.bytes + tx })
    ∧ (v.count ≠ 0 → v.arr = v.count → v.bytes + tx = 0 →
        v.expect tx = .ok { v with phase := v.phase + 1, arr := 0, bytes := 0 })
    ∧ (v.count ≠ 0 → v.arr = v.count → (v.bytes + tx).toInt < 0 → v.expect tx = .error 3)
    ∧ (v.arr ≠ v.count ∨ v.count = 0 → v.expect tx = .ok { v with bytes := v.bytes + tx }) := by
  refine ⟨fun unset => if_pos unset, fun set full => (if_neg set).trans (if_pos full), ?last, ?below, ?more, ?ends,
    ?short, ?added⟩
  case last =>
    intro set room last none
    rw [Barrier.arrive_of_room tx set room, Barrier.counted_full { v with bytes := v.bytes + tx, arr := v.arr + 1 } set last none,
      none]
  case below => exact fun set room last neg => (Barrier.arrive_of_room tx set room).trans (Barrier.counted_below _ set last neg)
  case more => exact fun set room more => (Barrier.arrive_of_room tx set room).trans (Barrier.counted_missing _ (.inl more))
  case ends =>
    intro set full none
    rw [Barrier.expect_eq, Barrier.counted_full { v with bytes := v.bytes + tx } set full none, none]
  case short => exact fun set full neg => Barrier.counted_below _ set full neg
  case added => exact fun missing => Barrier.counted_missing _ missing

/-- A phase has been reached when it is less than 2^15 beyond the one asked for, modulo 2^16 (R302). -/
theorem Barrier.reached_eq (v : Barrier) (x : Nat) :
    v.reached (BitVec.ofNat 16 x) = decide ((v.phase.toNat + 65536 - x % 65536) % 65536 < 32768) := by
  have same : (v.phase.setWidth 16 - BitVec.ofNat 16 x).toNat = (v.phase.toNat + 65536 - x % 65536) % 65536 := by
    rw [BitVec.toNat_sub, BitVec.toNat_setWidth, BitVec.toNat_ofNat]; omega
  rw [Barrier.reached, same]

end

/-! ### The instructions (R299 to R304) -/

section
variable {s s1 u : State} {c : Issue} {e : Bool} {b : Nat} {bn : BitVec 4} {a : Reg} {v : Barrier}

/-- A barrier that nothing is in is set. -/
theorem binit_goes {fm : Bool} {n : Nat} (met : Uniform s c [plainUse false a]) (blk : (s.warp c.warp).blk = some b)
    (hn : n = (s.warp c.warp).sreg a.toNat % 256) (nonzero : n ≠ 0) (arr : (barAt s b bn.toNat).arr = 0)
    (bytes : (barAt s b bn.toNat).bytes = 0)
    (hu : u = setBar s b bn.toNat { barAt s b bn.toNat with count := BitVec.ofNat 8 n, fm := fm }) (nt : NoNumTraps u c) :
    Goes (.binit e fm bn a) s u c (nextPc c) := by
  subst hn hu
  refine goes_of_act (execBinit e fm bn a s) rfl rfl met ?_ nt
  simp only [inBlock, blk, nonzero, arr, bytes, if_false, ne_eq, not_true, or_self]

/-- The operand of an arrival, and the bytes that it adds. -/
def arrivalUses : Option Reg → List UniUse
  | some a => [plainUse false a]
  | none => []
def arrivalBytes (W : Warp) : Option Reg → Double
  | some a => signedBytes (W.sreg a.toNat)
  | none => 0

/-- An arrival with bytes, once earlier stores are performed. -/
theorem barrive_goes {tx : Option Reg} (met : Uniform s c (arrivalUses tx)) (blk : (s.warp c.warp).blk = some b)
    (allowed : computeOnly s (s.warp c.warp) (barAt s b bn.toNat) = false)
    (arrives : (barAt s b bn.toNat).arrive (arrivalBytes (s.warp c.warp) tx) = .ok v)
    (drained : flushed s c.warp = (true, s1)) (nt : NoNumTraps (setBar s1 b bn.toNat v) c) :
    Goes (.barrive e bn tx) s (setBar s1 b bn.toNat v) c (nextPc c) := by
  refine goes_of_act (execBarrive e bn tx s) rfl rfl met ?_ nt
  cases tx <;> simp only [arrivalBytes] at arrives <;>
    simp only [inBlock, blk, allowed, arrives, drained, Bool.false_eq_true, if_false]

/-- Bytes are added to a barrier. -/
theorem bexpect_goes (met : Uniform s c [plainUse false a]) (blk : (s.warp c.warp).blk = some b)
    (expects : (barAt s b bn.toNat).expect (signedBytes ((s.warp c.warp).sreg a.toNat)) = .ok v)
    (nt : NoNumTraps (setBar s b bn.toNat v) c) : Goes (.bexpect e bn a) s (setBar s b bn.toNat v) c (nextPc c) := by
  refine goes_of_act (execBexpect e bn a s) rfl rfl met ?_ nt
  simp only [inBlock, blk, expects]

/-- A barrier after an instruction that touches no block. -/
theorem UniformEnds.barAt {s t : State} {pc : VAddr} (h : UniformEnds s c pc t) (b n : Nat) : barAt t b n = barAt s b n := by
  have rest := h.rest
  rw [rest]; rfl

/-- A group goes on whose phase has been reached, and with no fault owed nothing else happens (R302, R479). -/
theorem bwait_goes (met : Uniform s c [plainUse false a]) (nt : NoNumTraps s c) (blk : (s.warp c.warp).blk = some b)
    (allowed : computeOnly s (s.warp c.warp) (barAt s b bn.toNat) = false) (set : (barAt s b bn.toNat).count ≠ 0)
    (clear : (barAt s b bn.toNat).owed = none)
    (past : ((barAt s b bn.toNat).phase.toNat + 65536 - (s.warp c.warp).sreg a.toNat % 65536) % 65536 < 32768) :
    Goes (.bwait e bn a) s s c (nextPc c) := by
  have reached := ((barAt s b bn.toNat).reached_eq ((s.warp c.warp).sreg a.toNat)).trans (decide_eq_true past)
  show ∃ t, execBwait e bn a s = .next t ∧ _
  unfold execBwait
  obtain ⟨t, runs, ends⟩ := uniform_does (.bwait e bn a) [plainUse false a] (inBlock fun s c W b =>
      let v := barAt s b bn.toNat
      let ph := BitVec.ofNat 16 (W.sreg a.toNat)
      if computeOnly s W v then (.trap codeIllegalOperand 0, s)
      else if v.count = 0 then (.trap codeBarrier (barrierAddr bn.toNat 5), s)
      else if v.reached ph then (.go (nextPc c), s)
      else (.halt (.wait (.barrier bn.toNat ph)), s)) s s c (nextPc c) met
    (by simp only [inBlock, blk, allowed, set, reached, Bool.false_eq_true, if_false, if_true]) nt
  refine ⟨t, ?_, ends⟩
  rw [runs]
  simp only [met.cur, blk, Option.getD_some, ends.barAt, clear]

/-- A phase is tested into a uniform predicate. -/
theorem btest_goes {cd : Pred} (met : Uniform s c [plainUse false a]) (blk : (s.warp c.warp).blk = some b)
    (allowed : computeOnly s (s.warp c.warp) (barAt s b bn.toNat) = false) (set : (barAt s b bn.toNat).count ≠ 0)
    (hu : u = s.modWarp c.warp fun W => W.setCpred cd
      (decide (((barAt s b bn.toNat).phase.toNat + 65536 - (s.warp c.warp).sreg a.toNat % 65536) % 65536 < 32768)))
    (nt : NoNumTraps u c) : Goes (.btest e cd bn a) s u c (nextPc c) := by
  subst hu
  refine goes_of_act (execBtest e cd bn a s) rfl rfl met ?_ nt
  simp only [inBlock, blk, allowed, set, Barrier.reached_eq, Bool.false_eq_true, if_false]
  exact congrArg (Prod.mk _) (State.modWarp_congr rfl)

/-- The phase of the team barrier that a fibre waits for. -/
def teamPhaseOf (f : Fibre) : Option Nat :=
  match f.status with
  | .waiting w => (match w.why with | .teamPhase k => some k | _ => none)
  | _ => none

theorem teamPhaseOf_eq_some {f : Fibre} {k : Nat} (h : teamPhaseOf f = some k) :
    ∃ w, f.status = .waiting w ∧ w.why = .teamPhase k := by
  unfold teamPhaseOf at h
  split at h
  · next w waits =>
    split at h
    · next j why => exact ⟨w, waits, why.trans (congrArg _ (Option.some.inj h))⟩
    · exact nomatch h
  · exact nomatch h

/-- The group's last arrival opens the team barrier for all, and acquires at cluster scope. -/
theorem cbar_opens {T : TeamBar} (met : Uniform s c []) (blk : (s.warp c.warp).blk = some b)
    (new : ∀ f ∈ groupOf (s.warp c.warp) c, ∀ w, f.status = .waiting w → ∀ k, w.why ≠ .teamPhase k)
    (released : releaseAt s c.warp .cluster = .ok s1) (hT : T = teamBar s (s.blk b).launch (s.blk b).team)
    (all : teamAll s1 (s.blk b).launch (s.blk b).team (insertNat T.arrived c.warp) = true)
    (hu : u = acquire (s1.modLaunch (s.blk b).launch fun L => { L with
      teams := Tab.put L.teams (s.blk b).team ⟨T.phase + 1, []⟩ }) (s.warp c.warp).core .cluster) (nt : NoNumTraps u c) :
    Goes (.cbar e) s u c (nextPc c) := by
  have first : (groupOf (s.warp c.warp) c).findSome? teamPhaseOf = none := by
    refine List.findSome?_eq_none_iff.2 fun f hf => Option.eq_none_iff_forall_ne_some.2 fun k hk => ?_
    obtain ⟨w, waits, why⟩ := teamPhaseOf_eq_some hk
    exact new f hf w waits k why
  subst hT hu
  refine goes_of_act (execCbar e s) rfl rfl met ?_ nt
  simp only [inBlock, blk]
  split
  · next k waited => exact absurd (waited.symm.trans first) (by simp)
  · simp only [released, all, if_true]

/-- An acquire changes caches of cores alone. -/
theorem acquireAt_cores (s : State) (core n : Nat) : ∃ cs, acquireAt s core n = { s with cores := cs } := by
  have one : ∀ (u : State) (k : Nat), ∃ cs, clearL1 u k = { u with cores := cs } := by
    intro u k
    unfold clearL1
    split
    · exact ⟨u.cores, rfl⟩
    · exact ⟨_, rfl⟩
  have all : ∀ (ks : List Nat) (u : State), ∃ cs, ks.foldl clearL1 u = { u with cores := cs } := by
    intro ks
    induction ks with
    | nil => exact fun u => ⟨u.cores, rfl⟩
    | cons k ks ih =>
      intro u
      obtain ⟨cs, hcs⟩ := one u k
      obtain ⟨ds, hds⟩ := ih (clearL1 u k)
      exact ⟨ds, by rw [List.foldl_cons, hds, hcs]⟩
  unfold acquireAt
  split
  · split
    · exact all _ s
    · exact one s core
  · exact ⟨s.cores, rfl⟩

/-- So it enables no numeric trap. -/
theorem NoNumTraps.acquireAt {s : State} {c : Issue} (nt : NoNumTraps s c) (core n : Nat) :
    NoNumTraps (acquireAt s core n) c := by
  obtain ⟨cs, h⟩ := acquireAt_cores s core n
  rw [h]; exact nt

/-- A group that waited goes on once its phase of the team barrier is over. -/
theorem cbar_goes {k : Nat} (met : Uniform s c []) (nt : NoNumTraps s c) (blk : (s.warp c.warp).blk = some b)
    (waits : waitsFor s c (.teamPhase k)) (past : (teamBar s (s.blk b).launch (s.blk b).team).phase ≠ k) :
    Goes (.cbar e) s (acquire s (s.warp c.warp).core .cluster) c (nextPc c) := by
  obtain ⟨nonempty, each⟩ := waits
  have first : (groupOf (s.warp c.warp) c).findSome? teamPhaseOf = some k := by
    obtain ⟨f, fs, group⟩ := List.exists_cons_of_ne_nil nonempty
    obtain ⟨i, lx, w, n, status⟩ := each f (group ▸ List.mem_cons_self)
    rw [group, List.findSome?_cons, teamPhaseOf, status]
  refine goes_of_act (execCbar e s) rfl rfl met ?_ (nt.acquireAt _ _)
  simp only [inBlock, blk]
  split
  · next j waited =>
    obtain rfl : j = k := Option.some.inj (waited.symm.trans first)
    rw [if_pos past]
  · next waited => exact absurd (waited.symm.trans first) (by simp)

end

/-- Settles O35: the instructions once their checks are met, and the cases of an arrival and of added bytes. -/
theorem barriers : Obligations.Barriers := by
  unfold Obligations.Barriers
  refine ⟨⟨?init, ?arrive, ?expect, ?wait, ?test, ?opens, ?goes⟩, Barrier.cases⟩
  case init => exact fun e fm bn a s c b met blk n hn nonzero arr bytes u hu nt => binit_goes met blk hn nonzero arr bytes hu nt
  case arrive =>
    exact fun e bn tx s c b v s1 met blk allowed arrives drained nt => barrive_goes met blk allowed arrives drained nt
  case expect => exact fun e bn a s c b v met blk expects nt => bexpect_goes met blk expects nt
  case wait => exact fun e bn a s c b met nt blk allowed set clear past => bwait_goes met nt blk allowed set clear past
  case test => exact fun e cd bn a s c b met blk allowed set u hu nt => btest_goes met blk allowed set hu nt
  case opens => exact fun e s c b s1 met blk new released T hT all u hu nt => cbar_opens met blk new released hT all hu nt
  case goes => exact fun e s c b k met nt blk waits past => cbar_goes met nt blk waits past

end Sys2Proof.Machine
end

section
/-! SUPPORT. Tile tags and task queues: each instruction once what it needs is found and performed; and the statement about them
that follows. -/
namespace Sys2Proof.Machine
open Sys2Proof.Claims

section
variable {s s1 s2 s3 s4 u : State} {c : Issue} {W : Warp} {e : Bool} {a b d : Reg}

/-- A generation is published once earlier stores are performed (R310, R483). -/
theorem tagpub_goes {tile tensor gen : Nat} {n : Name} (met : Uniform s c [plainUse false a, plainUse false b])
    (released : releaseAt s c.warp .device = .ok s1) (hW : W = s.warp c.warp) (htile : tile = W.sreg a.toNat)
    (htensor : tensor = W.sreg b.toNat % 65536) (hgen : gen = W.sreg b.toNat / 65536) (hn : n = nameOf s1 W c.pc.toNat)
    (published : tagPublish s1 W.ctx W.launch W.core tensor tile (BitVec.ofNat 16 gen) n = .ok s2)
    (hu : u = commitBlock (trace s2 W.ctx W.core 5 n (leBytes 2 tensor ++ leBytes 2 gen ++ leBytes 4 tile)) W)
    (nt : NoNumTraps u c) : Goes (.tagpub e a b) s u c (nextPc c) := by
  subst hu hn hgen htensor htile hW
  refine goes_of_act (execTagpub e a b s) rfl rfl met ?_ nt
  simp only [released, published]

/-- Whether a tensor's record has the coarse bit. -/
def coarseOf : Option Tensor → Bool
  | some r => r.coarse
  | none => false

/-- The value of `tagrd`: the coarse bit above what the tile's tag gives (R311). -/
theorem tagWord_eq {coarse : Bool} {t : Option Tensor} (h : coarse = (t.map (·.coarse)).getD false) (n : Nat) :
    (if coarseOf t then 0x20000 else 0) + n = one01 coarse * 2 ^ 17 + n := by
  have same : coarseOf t = coarse := by cases t <;> exact h.symm
  rw [same]; cases coarse <;> rfl

/-- A tile that has a tag is read with its generation, and acquires (R311). -/
theorem tagrd_goes_tagged {tensor : Nat} {coarse : Bool} {g : BitVec 16}
    (met : Uniform s c [plainUse false d, plainUse false a, plainUse false b]) (hW : W = s.warp c.warp)
    (htensor : tensor = W.sreg b.toNat % 65536)
    (hcoarse : coarse = ((Tab.find (s.ctx W.ctx).tensors tensor).map (·.coarse)).getD false)
    (tagged : Tab.find (s.ctx W.ctx).tiles (tileKey tensor (W.sreg a.toNat)) = some g)
    (hu : u = acquire (s.modWarp c.warp fun W => W.setSreg d.toNat (one01 coarse * 2 ^ 17 + 2 ^ 16 + g.toNat)) W.core .device)
    (nt : NoNumTraps u c) : Goes (.tagrd e d a b) s u c (nextPc c) := by
  subst hu htensor hW
  refine goes_of_act (execTagrd e d a b s) rfl rfl met ?_ nt
  simp only [tagged, Option.isSome_some, if_true, Nat.add_assoc, ← tagWord_eq hcoarse]
  rfl

/-- One that has none is read as 0 beside the coarse bit. -/
theorem tagrd_goes_untagged {tensor : Nat} {coarse : Bool}
    (met : Uniform s c [plainUse false d, plainUse false a, plainUse false b]) (hW : W = s.warp c.warp)
    (htensor : tensor = W.sreg b.toNat % 65536)
    (hcoarse : coarse = ((Tab.find (s.ctx W.ctx).tensors tensor).map (·.coarse)).getD false)
    (untagged : Tab.find (s.ctx W.ctx).tiles (tileKey tensor (W.sreg a.toNat)) = none)
    (hu : u = s.modWarp c.warp fun W => W.setSreg d.toNat (one01 coarse * 2 ^ 17)) (nt : NoNumTraps u c) :
    Goes (.tagrd e d a b) s u c (nextPc c) := by
  subst hu htensor hW
  refine goes_of_act (execTagrd e d a b s) rfl rfl met ?_ nt
  simp only [untagged, Option.isSome_none, Bool.false_eq_true, if_false]
  rw [← Nat.add_zero (one01 coarse * 2 ^ 17), ← tagWord_eq hcoarse 0]
  rfl

/-! ### Task queues (R313, R314) -/

section
variable {cd : Pred} {q ea : Nat} {ent : QueueEntry} {ps : List Place}

/-- A task is not pushed to a queue that is full: the block has committed all the same (R483). -/
theorem tqpush_goes_full {bs : List Byte} (met : Uniform s c [plainUse true a, plainUse false b]) (hW : W = s.warp c.warp)
    (hq : q = W.sreg b.toNat % 64) (enabled : enabledQueue s c W q = (.ok ent, s1))
    (located : locatePieces s1 W 0 .glob (W.sval true a.toNat) 64 64 .read = (.ok (ea, ps), s2))
    (released : releaseAt s2 c.warp .device = .ok s3) (loaded : loadShared s3 c.warp (standing W) ea ps = (.ok bs, s4))
    (full : queueFull s4 W.ctx q ent = true)
    (hu : u = commitBlock (count (s4.modWarp c.warp fun W => W.setCpred cd false) W.ctx W.core 0x32 1) W)
    (nt : NoNumTraps u c) : Goes (.tqpush e cd a b) s u c (nextPc c) := by
  subst hu hq hW
  refine goes_of_act (execTqpush e cd a b s) rfl rfl met ?_ nt
  simp only [enabled, located, released, loaded, full, if_true]

/-- It is pushed to one that has room. -/
theorem tqpush_goes_room {bs : List Byte} {s5 s6 : State} (met : Uniform s c [plainUse true a, plainUse false b])
    (hW : W = s.warp c.warp) (hq : q = W.sreg b.toNat % 64) (enabled : enabledQueue s c W q = (.ok ent, s1))
    (located : locatePieces s1 W 0 .glob (W.sval true a.toNat) 64 64 .read = (.ok (ea, ps), s2))
    (released : releaseAt s2 c.warp .device = .ok s3) (loaded : loadShared s3 c.warp (standing W) ea ps = (.ok bs, s4))
    (room : queueFull s4 W.ctx q ent = false) (pushed : pushTask s4 W.ctx q ent bs none = (.ok s5, s6))
    (hu : u = commitBlock (s5.modWarp c.warp fun W => W.setCpred cd true) W) (nt : NoNumTraps u c) :
    Goes (.tqpush e cd a b) s u c (nextPc c) := by
  subst hu hq hW
  refine goes_of_act (execTqpush e cd a b s) rfl rfl met ?_ nt
  simp only [enabled, located, released, loaded, room, pushed, Bool.false_eq_true, if_false]

/-- An access of an ordered launch's head, or one that no record tracks, does not wait (R387). -/
theorem headHolds_false {s : State} {blk : Nat} (head : ps.any (·.tracked) = true → isHead s blk = true) :
    (ps.any (·.tracked) && !isHead s blk) = false := by
  cases tracked : ps.any (·.tracked) with
  | false => rfl
  | true => rw [head tracked]; rfl

/-- A queue with no task to take. -/
theorem tqtake_goes_empty (met : Uniform s c [plainUse true a, plainUse false b]) (hW : W = s.warp c.warp)
    (hq : q = W.sreg b.toNat % 64) (enabled : enabledQueue s c W q = (.ok ent, s1))
    (located : locatePieces s1 W 0 .glob (W.sval true a.toNat) 64 64 .write = (.ok (ea, ps), s2))
    (head : ps.any (·.tracked) = true → isHead s2 (W.blk.getD 0) = true) (empty : nextTask s2 W.ctx q = none)
    (hu : u = commitBlock (s2.modWarp c.warp fun W => W.setCpred cd false) W) (nt : NoNumTraps u c) :
    Goes (.tqtake e cd a b) s u c (nextPc c) := by
  subst hu hq hW
  refine goes_of_act (execTqtake e cd a b s) rfl rfl met ?_ nt
  simp only [enabled, located, headHolds_false head, empty, Bool.false_eq_true, if_false]

/-- The task whose turn it is is taken (log 78). -/
theorem tqtake_goes_task {k : Task} {raw : List Byte} (met : Uniform s c [plainUse true a, plainUse false b])
    (hW : W = s.warp c.warp) (hq : q = W.sreg b.toNat % 64) (enabled : enabledQueue s c W q = (.ok ent, s1))
    (located : locatePieces s1 W 0 .glob (W.sval true a.toNat) 64 64 .write = (.ok (ea, ps), s2))
    (head : ps.any (·.tracked) = true → isHead s2 (W.blk.getD 0) = true) (task : nextTask s2 W.ctx q = some k)
    (read : structRead s2 W.ctx k.slot 64 = (.ok raw, s3))
    (stored : storePieces s3 c.warp c (c.group.headD 0) 0 ea ps k.raw = .ok s4)
    (hu : u = commitBlock ((acquire (dropTask s4 W.ctx k) W.core .device).modWarp c.warp fun W => W.setCpred cd true) W)
    (nt : NoNumTraps u c) : Goes (.tqtake e cd a b) s u c (nextPc c) := by
  subst hu hq hW
  refine goes_of_act (execTqtake e cd a b s) rfl rfl met ?_ nt
  simp only [enabled, located, headHolds_false head, task, read, lowSlot, stored, Bool.false_eq_true, if_false]

end
end

/-- Settles O37: each instruction by what its act comes to, tagged or not, with room or not, with a task or not. -/
theorem tagsAndTasks : Obligations.TagsAndTasks := by
  unfold Obligations.TagsAndTasks
  refine ⟨?publish, ?read, ?push, ?take⟩
  case publish =>
    exact fun e a b s c s1 s2 met released W hW tile tensor gen htile htensor hgen n hn published u hu nt =>
      tagpub_goes met released hW htile htensor hgen hn published hu nt
  case read =>
    intro e d a b s c met W hW tensor htensor coarse hcoarse
    exact ⟨fun g tagged u hu nt => tagrd_goes_tagged met hW htensor hcoarse tagged hu nt,
      fun untagged u hu nt => tagrd_goes_untagged met hW htensor hcoarse untagged hu nt⟩
  case push =>
    intro e cd a b s c q ent s1 ea ps s2 s3 bs s4 met W hW hq enabled located released loaded
    exact ⟨fun full u hu nt => tqpush_goes_full met hW hq enabled located released loaded full hu nt,
      fun s5 s6 room pushed u hu nt => tqpush_goes_room met hW hq enabled located released loaded room pushed hu nt⟩
  case take =>
    intro e cd a b s c q ent s1 ea ps s2 met W hW hq enabled located head
    exact ⟨fun empty u hu nt => tqtake_goes_empty met hW hq enabled located head empty hu nt,
      fun k raw s3 s4 task read stored u hu nt => tqtake_goes_task met hW hq enabled located head task read stored hu nt⟩

end Sys2Proof.Machine
end

section
/-! SUPPORT. Foreman words by what their acts come to; layouts, configuration, barriers, loops and the end of the stream; and the
statements about configuration and control. -/
namespace Sys2Proof.Machine
open Sys2Proof.Claims

/-! ### Words that go on, are refused or wait (R327, R355) -/

section
variable {s s0 u : State} {c : FmIssue} {F : Foreman} {i : Instr} {act : State → FmIssue → Foreman → FmRes × State}

/-- A word whose act goes on completes. -/
theorem fmGoes_of_act {pc : VAddr} (o : Host.Outcome State Fault Refusal) (arm : exec i s = o)
    (form : o = foremanWord act s) (here : AtForeman s c F) (hs : s0 = { s with fcur := none })
    (acts : act s0 c F = (.go pc, u)) : FmGoes i s u c pc := by
  subst hs
  refine (arm.trans form).trans ((foremanWord_runs act s c F here).trans ?_)
  rw [acts]

/-- A word whose act refuses it is refused. -/
theorem fmRefused_of_act (o : Host.Outcome State Fault Refusal) (arm : exec i s = o) (form : o = foremanWord act s)
    (here : AtForeman s c F) (hs : s0 = { s with fcur := none }) (acts : act s0 c F = (.bad c, s0)) : FmRefused i s c := by
  subst hs
  refine (arm.trans form).trans ((foremanWord_runs act s c F here).trans ?_)
  rw [acts]; rfl

/-- A word that waits leaves everything as it is. -/
theorem fmWaits_of_act (o : Host.Outcome State Fault Refusal) (arm : exec i s = o) (form : o = foremanWord act s)
    (here : AtForeman s c F) (hs : s0 = { s with fcur := none }) (acts : act s0 c F = (.wait, s0)) : exec i s = .next s0 := by
  subst hs
  refine (arm.trans form).trans ((foremanWord_runs act s c F here).trans ?_)
  rw [acts]

end

section
variable {s s0 : State} {c : FmIssue} {F : Foreman}

/-! ### Layouts, origins and configuration (R338, R339, R341) -/

/-- A layout record is read into its slot, with origins of 0. -/
theorem mlay_goes {l : BitVec 3} {off : BitVec 20} {bs : List Byte} (here : AtForeman s c F) (hs : s0 = { s with fcur := none })
    (aligned : off.toNat % 64 = 0) (record : windowRead s0 c.blk F off.toNat 64 = .ok bs)
    (formed : (Layout.parse true bs).isSome = true) :
    FmGoes (.mlay l off) s (modFm s0 c.blk fun F => { F with
      slots := setAt F.slots l.toNat (some ⟨bs, [0, 0, 0, 0]⟩) }) c (c.pc + 8) := by
  obtain ⟨L, parsed⟩ := Option.isSome_iff_exists.1 formed
  refine fmGoes_of_act (execMlay l off s) rfl rfl here hs ?_
  simp only [aligned, ne_eq, not_true, if_false, record, parsed]
  rfl

/-- A misaligned record is refused. -/
theorem mlay_refused {l : BitVec 3} {off : BitVec 20} (here : AtForeman s c F) (odd : off.toNat % 64 ≠ 0) :
    FmRefused (.mlay l off) s c :=
  fmRefused_of_act (execMlay l off s) rfl rfl here rfl (if_pos odd)

/-- What a slot holds. -/
theorem laySlot_of {slots : List (Option LaySlot)} {l : BitVec 3} {x : Option LaySlot} (h : slots[l.toNat]? = some x) :
    laySlot slots l = x := by
  rw [laySlot, List.getD_eq_getElem?_getD, h, Option.getD_some]

/-- An origin is moved. -/
theorem madd_goes {l : BitVec 3} {dim : BitVec 2} {inc : Word} {x : LaySlot} (here : AtForeman s c F)
    (hs : s0 = { s with fcur := none }) (slot : F.slots[l.toNat]? = some (some x)) :
    FmGoes (.madd l dim inc) s (modFm s0 c.blk fun F => { F with
      slots := setAt F.slots l.toNat (some { x with origins := modAt x.origins dim.toNat fun o => o + inc }) }) c
      (c.pc + 8) := by
  refine fmGoes_of_act (execMadd l dim inc s) rfl rfl here hs ?_
  simp only [laySlot_of slot]
  rfl

/-- An empty slot has none. -/
theorem madd_refused {l : BitVec 3} {dim : BitVec 2} {inc : Word} (here : AtForeman s c F)
    (slot : F.slots[l.toNat]? = some none) : FmRefused (.madd l dim inc) s c := by
  refine fmRefused_of_act (execMadd l dim inc s) rfl rfl here rfl ?_
  simp only [laySlot_of slot]

/-- The tensor scales are read from the window. -/
theorem mconfTs_goes {off : BitVec 20} {bs : List Byte} (here : AtForeman s c F) (hs : s0 = { s with fcur := none })
    (aligned : off.toNat % 4 = 0) (scales : windowRead s0 c.blk F off.toNat 4 = .ok bs) :
    FmGoes (.mconfTs off) s (modFm s0 c.blk fun F => { F with ts := BitVec.ofNat 32 (leNat bs) }) c (c.pc + 8) := by
  refine fmGoes_of_act (execMconfTs off s) rfl rfl here hs ?_
  simp only [aligned, ne_eq, not_true, if_false, scales]
  rfl

/-! ### Barriers (R349) -/

/-- A context arrives at a Foreman barrier with no command in flight. -/
theorem mbarr_goes {bn : BitVec 4} {v : Barrier} (here : AtForeman s c F) (hs : s0 = { s with fcur := none })
    (done : F.cmds = []) (set : (barAt s0 c.blk bn.toNat).count ≠ 0) (fm : (barAt s0 c.blk bn.toNat).fm = true)
    (arrives : (barAt s0 c.blk bn.toNat).arrive 0 = .ok v) :
    FmGoes (.mbarr bn) s (setBar s0 c.blk bn.toNat v) c (c.pc + 8) := by
  refine fmGoes_of_act (execMbarr bn s) rfl rfl here hs ?_
  simp only [done, set, fm, arrives, ne_eq, not_true, or_self, if_false, Bool.not_true, Bool.false_eq_true]
  rfl

/-- A phase compared with an expected one, as numbers (R302). -/
theorem Barrier.reached_iff (v : Barrier) (x : BitVec 16) :
    v.reached x = true ↔ (v.phase.toNat + 65536 - x.toNat) % 65536 < 32768 := by
  have same := v.reached_eq x.toNat
  rw [BitVec.ofNat_toNat, BitVec.setWidth_eq, Nat.mod_eq_of_lt x.isLt] at same
  rw [same, decide_eq_true_eq]

/-- A context goes on whose phase has been reached, and waits for the one after it next. -/
theorem mbwait_goes {bn : BitVec 4} {x : BitVec 16} (here : AtForeman s c F) (hs : s0 = { s with fcur := none })
    (set : (barAt s0 c.blk bn.toNat).count ≠ 0) (fm : (barAt s0 c.blk bn.toNat).fm = true) (hx : x = F.wph.getD bn.toNat 0)
    (past : ((barAt s0 c.blk bn.toNat).phase.toNat + 65536 - x.toNat) % 65536 < 32768) :
    FmGoes (.mbwait bn) s (modFm s0 c.blk fun F => { F with wph := setAt F.wph bn.toNat (x + 1) }) c (c.pc + 8) := by
  subst hx
  refine fmGoes_of_act (execMbwait bn s) rfl rfl here hs ?_
  have reached := (Barrier.reached_iff _ _).2 past
  simp only [set, fm, reached, if_false, if_true, Bool.not_true, Bool.false_eq_true]
  rfl

/-- One whose phase has not been reached waits. -/
theorem mbwait_waits {bn : BitVec 4} (here : AtForeman s c F) (hs : s0 = { s with fcur := none })
    (set : (barAt s0 c.blk bn.toNat).count ≠ 0) (fm : (barAt s0 c.blk bn.toNat).fm = true)
    (ahead : 32768 ≤ ((barAt s0 c.blk bn.toNat).phase.toNat + 65536 - (F.wph.getD bn.toNat 0).toNat) % 65536) :
    exec (.mbwait bn) s = .next s0 := by
  refine fmWaits_of_act (execMbwait bn s) rfl rfl here hs ?_
  have reached := (Barrier.reached_iff _ _).not.2 (Nat.not_lt.2 ahead)
  simp only [set, fm, reached, if_false, Bool.not_true, Bool.false_eq_true]

/-! ### Loops (R350) -/

/-- A loop of a count above 0 begins where there is a level for it. -/
theorem beginLoop_begins {n : Nat} (s : State) (nonzero : n ≠ 0) (fits : n < 2 ^ 24) (room : F.loops.length < 4) :
    beginLoop s c F n = (.on c, modFm s c.blk fun F => { F with loops := (c.pc + 8, n) :: F.loops }) := by
  rw [beginLoop, if_neg nonzero, if_neg (by omega)]

/-- With four levels in use it is refused. -/
theorem beginLoop_refused {n : Nat} (s : State) (nonzero : n ≠ 0) (full : 4 ≤ F.loops.length) :
    beginLoop s c F n = (.bad c, s) := by
  rw [beginLoop, if_neg nonzero, if_pos (.inr full)]

/-- A loop whose count is in the word. -/
theorem mloop_goes {n : BitVec 24} (here : AtForeman s c F) (hs : s0 = { s with fcur := none }) (nonzero : n ≠ 0)
    (room : F.loops.length < 4) :
    FmGoes (.mloop n) s (modFm s0 c.blk fun F => { F with loops := (c.pc + 8, n.toNat) :: F.loops }) c (c.pc + 8) := by
  exact fmGoes_of_act (execMloop n s) rfl rfl here hs (beginLoop_begins _ (BitVec.toNat_ne_iff_ne.mpr nonzero) n.isLt room)

/-- A fifth level is refused. -/
theorem mloop_refused {n : BitVec 24} (here : AtForeman s c F) (nonzero : n ≠ 0) (full : 4 ≤ F.loops.length) :
    FmRefused (.mloop n) s c :=
  fmRefused_of_act (execMloop n s) rfl rfl here rfl (beginLoop_refused _ (BitVec.toNat_ne_iff_ne.mpr nonzero) full)

/-- A loop whose count is in the window. -/
theorem mloopL_goes {off : BitVec 24} {bs : List Byte} (here : AtForeman s c F) (hs : s0 = { s with fcur := none })
    (aligned : off.toNat % 4 = 0) (record : windowRead s0 c.blk F off.toNat 4 = .ok bs) (nonzero : leNat bs ≠ 0)
    (fits : leNat bs < 2 ^ 24) (room : F.loops.length < 4) :
    FmGoes (.mloopL off) s (modFm s0 c.blk fun F => { F with loops := (c.pc + 8, leNat bs) :: F.loops }) c (c.pc + 8) := by
  refine fmGoes_of_act (execMloopL off s) rfl rfl here hs ?_
  simp only [aligned, ne_eq, not_true, if_false, record, beginLoop_begins _ nonzero fits room]
  rfl

/-- The end of a loop goes back while its count is above 1. -/
theorem mendl_back {start : VAddr} {n : Nat} {rest : List (VAddr × Nat)} (here : AtForeman s c F)
    (hs : s0 = { s with fcur := none }) (loops : F.loops = (start, n) :: rest) (more : 2 ≤ n) :
    FmGoes .mendl s (modFm s0 c.blk fun F => { F with loops := (start, n - 1) :: rest }) c start := by
  refine fmGoes_of_act (execMendl s) rfl rfl here hs ?_
  simp only [loops, if_neg (Nat.sub_ne_zero_of_lt more)]

/-- It goes on from the last turn. -/
theorem mendl_leaves {start : VAddr} {n : Nat} {rest : List (VAddr × Nat)} (here : AtForeman s c F)
    (hs : s0 = { s with fcur := none }) (loops : F.loops = (start, n) :: rest) (last : n ≤ 1) :
    FmGoes .mendl s (modFm s0 c.blk fun F => { F with loops := rest }) c (c.pc + 8) := by
  refine fmGoes_of_act (execMendl s) rfl rfl here hs ?_
  simp only [loops, if_pos (Nat.sub_eq_zero_of_le last)]
  rfl

/-- The end of no loop is refused. -/
theorem mendl_refused (here : AtForeman s c F) (loops : F.loops = []) : FmRefused .mendl s c := by
  refine fmRefused_of_act (execMendl s) rfl rfl here rfl ?_
  simp only [loops]

/-- The end of the stream, after which the block retires if nothing of it is left (R53). -/
theorem mend_ends (here : AtForeman s c F) (hs : s0 = { s with fcur := none }) :
    exec .mend s = .next (retireIfDone (modFm (modFm s0 c.blk fun F => { F with ended := true }) c.blk fun F =>
      { F with fpc := c.pc + 8, fcount := F.fcount + 1 }) c.blk) := by
  subst hs
  obtain ⟨i, cur⟩ := here.cur
  show execMend s = _
  rw [execMend, foremanWord_runs _ s c F here]
  simp only [FmRes.on, cur]

end

/-- The event of a fetch latches the word at FPC with what it decodes to (R328). -/
theorem foremanFetch_latches {s s1 : State} {b v : Nat} {F : Foreman} (context : (s.blk b).fm = some F) (ended : F.ended = false)
    (stopped : F.stopped = false) (free : s.fcur = none) (runs : engineRuns s b = true) (near : wordHeld s b F.fpc = false)
    (unmatched : matching (s.ctx (s.blk b).ctx) 1 (s.blk b).lin F.fpc.toNat = none)
    (fetched : fetchWord s b F.fpc = (.ok v, s1)) :
    exec (.foremanFetch b) s = .next { s1 with fcur := some (⟨b, F.fpc, BitVec.ofNat 64 v⟩,
      match decodeForeman (BitVec.ofNat 64 v) with | .ok i => i | .error _ => .foremanWordUnallocated (BitVec.ofNat 64 v)) } := by
  show execForemanFetch b s = _
  unfold execForemanFetch
  simp only [context, ended, stopped, free, runs, near, unmatched, fetched, Option.isSome_none, Bool.or_self, Bool.not_true,
    Bool.false_eq_true, if_false] <;> rfl

/-- Settles O40: each word by what its act comes to, or by the check that refuses it. -/
theorem foremanConfiguration : Obligations.ForemanConfiguration := by
  unfold Obligations.ForemanConfiguration
  intro s c F here s0 hs
  refine ⟨?lay, ?layOdd, ?add, ?addEmpty, ?rnd, ?rnd0, ?rnd7, ?scales, ?phase⟩
  case lay => exact fun l off bs aligned record formed => mlay_goes here hs aligned record formed
  case layOdd => exact fun l off odd => mlay_refused here odd
  case add => exact fun l dim inc x slot => madd_goes here hs slot
  case addEmpty => exact fun l dim inc slot => madd_refused here slot
  case rnd =>
    intro code not0 not7
    exact fmGoes_of_act (execMconfRnd code s) rfl rfl here hs (if_neg (not_or.2 ⟨not0, not7⟩))
  case rnd0 => exact fmRefused_of_act (execMconfRnd 0 s) rfl rfl here hs (if_pos (.inl rfl))
  case rnd7 => exact fmRefused_of_act (execMconfRnd 7 s) rfl rfl here hs (if_pos (.inr rfl))
  case scales => exact fun off bs aligned scales => mconfTs_goes here hs aligned scales
  case phase =>
    intro bn ph
    exact fmGoes_of_act (execMconfWph bn ph s) rfl rfl here hs rfl

/-- Settles O42: each word by what its act comes to, or by the check that refuses it, and the fetch of a word. -/
theorem foremanControl : Obligations.ForemanControl := by
  unfold Obligations.ForemanControl
  refine ⟨fun s c F here s0 hs => ?_, fun b s F v s1 context ended stopped free runs near unmatched fetched =>
    foremanFetch_latches context ended stopped free runs near unmatched fetched⟩
  refine ⟨?arrive, ?wait, ?waits, ?loop, ?loopL, ?back, ?leave, ?noLoop, ?full, ?jump, mend_ends here hs, ?unallocated⟩
  case arrive => exact fun bn v done set fm arrives => mbarr_goes here hs done set fm arrives
  case wait => exact fun bn set fm x hx past => mbwait_goes here hs set fm hx past
  case waits => exact fun bn set fm ahead => mbwait_waits here hs set fm ahead
  case loop => exact fun n nonzero room => mloop_goes here hs nonzero room
  case loopL => exact fun off bs aligned record nonzero fits room => mloopL_goes here hs aligned record nonzero fits room
  case back => exact fun start n rest loops more => mendl_back here hs loops more
  case leave => exact fun start n rest loops last => mendl_leaves here hs loops last
  case noLoop => exact fun loops => mendl_refused here loops
  case full => exact fun full n nonzero => mloop_refused here nonzero full
  case jump => exact fun off => fmGoes_of_act (execMjmp off s) rfl rfl here hs rfl
  case unallocated => exact fun w => fmRefused_of_act (execForemanWordUnallocated w s) rfl rfl here hs rfl

end Sys2Proof.Machine
end

section
/-! SUPPORT. Tile words that keep their rules, and the commands that they begin; and the statement about them that follows. -/
namespace Sys2Proof.Machine
open Sys2Proof.Claims

/-! ### Slots that take a type leave the sequence comparators as they are (R334, R411) -/

/-- What a sequence comparator is compared with is the same in both states. -/
def SameSequence (b : Nat) (s t : State) : Prop :=
  (∀ c, t.ctx c = s.ctx c) ∧ (t.blk b).ctx = (s.blk b).ctx ∧ (t.blk b).lin = (s.blk b).lin

theorem SameSequence.holds {b : Nat} {s t : State} (h : SameSequence b s t) (kind issued timeline : Nat) :
    sequenceHolds t b kind issued timeline = sequenceHolds s b kind issued timeline := by
  obtain ⟨ctx, inCtx, lin⟩ := h
  simp only [sequenceHolds, ctx, inCtx, lin]

theorem choose_sameSequence (b : Nat) (s : State) (n : Nat) : SameSequence b s (s.choose n).2 := by
  unfold State.choose
  split <;> exact ⟨fun _ => rfl, rfl, rfl⟩

theorem setTile_sameSequence (s : State) (b k : Nat) (x : Tile) : SameSequence b s (setTile s b k x) :=
  ⟨fun _ => rfl, State.blk_modBlk_field s b b Block.ctx fun _ => rfl, State.blk_modBlk_field s b b Block.lin fun _ => rfl⟩

theorem SameSequence.trans {b : Nat} {s t u : State} (h : SameSequence b s t) (g : SameSequence b t u) : SameSequence b s u :=
  ⟨fun c => (g.1 c).trans (h.1 c), g.2.1.trans h.2.1, g.2.2.trans h.2.2⟩

theorem ensureTile_sameSequence (s : State) (b k : Nat) : SameSequence b s (ensureTile s b k) := by
  unfold ensureTile
  simp only
  split
  · exact ⟨fun _ => rfl, rfl, rfl⟩
  · exact (choose_sameSequence b s 2).trans
      (setTile_sameSequence { (s.choose 2).2 with free := (s.choose 2).2.free + 16384 } b k _)

theorem ensureTiles_sameSequence (s : State) (b : Nat) (F : Foreman) (ks : List Nat) :
    SameSequence b s (ensureTiles s b F ks) :=
  List.foldlRecOn (motive := SameSequence b s) ks _ ⟨fun _ => rfl, rfl, rfl⟩ fun t h k _ => by
    split
    · exact h
    · exact h.trans (ensureTile_sameSequence t b k)

/-! ### Commands that a word begins (R340, R352) -/

section
variable {s s0 t : State} {c : FmIssue} {F : Foreman}

/-- A command is issued from a state in which the context may issue one. -/
theorem issueCmd_issued (op : Instr) (may : mayIssue s c F) (same : SameSequence c.blk s t) :
    issueCmd t c F op = (.go (c.pc + 8), issued t c op) := by
  obtain ⟨room, free⟩ := may
  rw [issueCmd, same.holds, free, decide_eq_false (Nat.not_le.2 room)]
  rfl

/-- Clearing slots that the block has. -/
theorem mclr_goes {k : BitVec 4} {three int : Bool} (here : AtForeman s c F) (hs : s0 = { s with fcur := none })
    (may : mayIssue s0 c F) (slots : slotsOk s0 c.blk k.toNat three = true) :
    FmGoes (.mclr k three int) s (issued s0 c (.mclr k three int)) c (c.pc + 8) := by
  refine fmGoes_of_act (execMclr k three int s) rfl rfl here hs ?_
  rw [if_pos slots]
  exact issueCmd_issued _ may ⟨fun _ => rfl, rfl, rfl⟩

/-- Slots that it does not have are refused. -/
theorem mclr_refused {k : BitVec 4} {three int : Bool} (here : AtForeman s c F) (hs : s0 = { s with fcur := none })
    (slots : slotsOk s0 c.blk k.toNat three = false) : FmRefused (.mclr k three int) s c := by
  refine fmRefused_of_act (execMclr k three int s) rfl rfl here hs ?_
  rw [if_neg (by rw [slots]; decide)]

/-- A word that multiplies, in any of its forms. -/
theorem multiply_goes {op : Instr} {k : BitVec 4} {pm : PlaneMode} {a b : BitVec 3} {md : Option (BitVec 3)}
    {sc : Option (BitVec 3 × BitVec 3)} {m : MatArgs} (arm : exec op s = multiply op k pm a b md sc s)
    (here : AtForeman s c F) (hs : s0 = { s with fcur := none }) (may : mayIssue s0 c F)
    (args : matArgs s0 c.blk .word F.slots pm a b md sc = .ok m) (slots : slotsOk s0 c.blk k.toNat m.three = true)
    (planes : m.planesOk (!(s0.launch (s0.blk c.blk).launch).lrec.single) = true)
    (operands : ∀ o ∈ m.operands, o.1.bounded s0 o.2 = true ∧ ∀ r ∈ o.1.spans o.2, rangeHeld s0 r false = false)
    (tiles : withTiles s0 c.blk F (tileSlots k.toNat m.three) m.plan.int = some t) :
    FmGoes op s (issued t c op) c (c.pc + 8) := by
  have bounded : (m.operands.all fun o => o.1.bounded s0 o.2) = true :=
    List.all_eq_true.2 fun o ho => (operands o ho).1
  have near : (m.operands.any fun o => (o.1.spans o.2).any fun r => rangeHeld s0 r false) = false :=
    List.any_eq_false.2 fun o ho => by
      rw [Bool.not_eq_true]
      exact List.any_eq_false.2 fun r hr => by rw [(operands o ho).2 r hr]; decide
  have same : SameSequence c.blk s0 t := by
    obtain ⟨-, found⟩ := Option.ite_none_right_eq_some.1 tiles
    exact Option.some.inj found ▸ ensureTiles_sameSequence _ _ _ _
  refine fmGoes_of_act (multiply op k pm a b md sc s) arm rfl here hs ?_
  simp only [args, slots, planes, bounded, near, tiles, Bool.not_true, Bool.or_self, Bool.false_eq_true, if_false,
    issueCmd_issued op may same]

/-- A word that reads tiles out of one type, to a destination that takes it. -/
theorem readOut_goes {op : Instr} {ks : List Nat} {ok : Bool} {d : BitVec 3} {fits : Bool → Operand → Bool} {o : Operand}
    {int : Bool} (arm : exec op s = Machine.readOut op ks ok d fits s) (here : AtForeman s c F)
    (hs : s0 = { s with fcur := none }) (may : mayIssue s0 c F) (hok : ok = true)
    (dest : operandOf s0 c.blk .word (laySlot F.slots d) = .ok o) (slots : ∀ q ∈ ks, slotsOk s0 c.blk q false = true)
    (plain : o.lay.bitplane = false) (bounded : o.bounded s0 128 = true) (near : ∀ r ∈ o.spans 128, rangeHeld s0 r true = false)
    (ht : t = ensureTiles s0 c.blk F ks) (nonempty : ks ≠ []) (types : ∀ q ∈ ks, slotType t c.blk F q = some int)
    (takes : fits int o = true) : FmGoes op s (issued t c op) c (c.pc + 8) := by
  subst hok ht
  have slotsAll : (ks.all fun q => slotsOk s0 c.blk q false) = true := List.all_eq_true.2 slots
  have nearAll : ((o.spans 128).any fun r => rangeHeld s0 r true) = false :=
    List.any_eq_false.2 fun r hr => by rw [near r hr]; decide
  have first : (slotType (ensureTiles s0 c.blk F ks) c.blk F (ks.headD 0) == some true) = int := by
    obtain ⟨q, qs, rfl⟩ := List.exists_cons_of_ne_nil nonempty
    rw [List.headD_cons, types q List.mem_cons_self]; cases int <;> rfl
  have typesAll : (ks.all fun q => slotType (ensureTiles s0 c.blk F ks) c.blk F q == some int) = true :=
    List.all_eq_true.2 fun q hq => by rw [types q hq]; exact beq_self_eq_true _
  refine fmGoes_of_act (Machine.readOut op ks true d fits s) arm rfl here hs ?_
  simp only [dest, slotsAll, plain, bounded, nearAll, first, typesAll, takes, Bool.not_true, Bool.or_self, Bool.and_self,
    Bool.false_eq_true, if_false, if_true, issueCmd_issued op may (ensureTiles_sameSequence _ _ _ _)]

/-- A stamp of an aligned place of the cluster. -/
theorem mstamp_goes {clu : Bool} {addr : BitVec 22} {ea : EffAddr} (here : AtForeman s c F) (hs : s0 = { s with fcur := none })
    (may : mayIssue s0 c F) (aligned : addr.toNat % 8 = 0) (place : clusterAddr s0 c.blk addr.toNat 8 .write = .ok ea)
    (near : ∀ r ∈ stampRange s0 c.blk addr, rangeHeld s0 r true = false) :
    FmGoes (.mstamp clu addr) s (issued s0 c (.mstamp clu addr)) c (c.pc + 8) := by
  have nearAll : (stampRange s0 c.blk addr).any (fun r => rangeHeld s0 r true) = false := by
    cases range : stampRange s0 c.blk addr with
    | none => rfl
    | some r => exact near r range
  refine fmGoes_of_act (execMstamp clu addr s) rfl rfl here hs ?_
  simp only [aligned, ne_eq, not_true, if_false, place, nearAll, Bool.false_eq_true,
    issueCmd_issued _ may ⟨fun _ => rfl, rfl, rfl⟩]

end

/-- Settles O41: each word by the checks that it passes, and the command that is then in flight. -/
theorem foremanTiles : Obligations.ForemanTiles := by
  unfold Obligations.ForemanTiles
  intro s c F here s0 hs may
  refine ⟨?clear, ?refused, ?multiply, ?plane, ?column, ?stamp⟩
  case clear => exact fun k three int slots => mclr_goes here hs may slots
  case refused => exact fun k three int slots => mclr_refused here hs slots
  case multiply =>
    intro op k pm a b md sc m t form args slots planes operands tiles
    rcases form with ⟨rfl, rfl, rfl⟩ | ⟨x, rfl, rfl, rfl⟩ | ⟨x, y, rfl, rfl, rfl⟩
    · exact multiply_goes rfl here hs may args slots planes operands tiles
    · exact multiply_goes rfl here hs may args slots planes operands tiles
    · exact multiply_goes rfl here hs may args slots planes operands tiles
  case plane =>
    intro k pl d o int ks hks triple dest slots plain bounded near t ht nonempty types typ sib
    subst hks
    refine readOut_goes (show exec (.mrd k pl d) s = execMrd k pl d s from rfl) here hs may ?_ dest slots plain bounded near ht
      nonempty types ?_
    · rw [Bool.or_eq_true, bne_iff_ne, beq_iff_eq]
      exact not_or_of_imp triple
    · simp only [typ, sib, beq_self_eq_true, Bool.and_self]
  case column =>
    intro k d o ks hks triple dest slots plain bounded near t ht nonempty types typ
    subst hks
    refine readOut_goes (show exec (.mcol k d) s = execMcol k d s from rfl) here hs may (beq_iff_eq.2 triple) dest slots plain
      bounded near ht nonempty types ?_
    rcases typ with typ | typ | typ <;> simp [typ]
  case stamp => exact fun clu addr ea aligned place near => mstamp_goes here hs may aligned place near

end Sys2Proof.Machine
end

section
/-! SUPPORT. What a write to memory leaves of the warps: all but their monitors, which it wakes (R168); tables of which entries are
taken out; and a context that is changed twice. -/
namespace Sys2Proof.Machine

/-! ### Tables -/

/-- An entry that stays when others are taken out is still found. -/
theorem Tab.find_filter_of_find {α : Type} {p : Nat × α → Bool} {k : Nat} {v : α} (keep : p (k, v) = true) :
    ∀ {t : Tab α}, Tab.find t k = some v → Tab.find (t.filter p) k = some v
  | [], h => h
  | e :: t, h => by
    rw [Tab.find] at h
    split at h
    next same =>
      obtain rfl : e.2 = v := Option.some.inj h
      subst same
      rw [List.filter_cons_of_pos (by exact keep), Tab.find, if_pos rfl]
    next other =>
      split at h
      · exact absurd h (by simp)
      · rename_i above
        have rest := Tab.find_filter_of_find keep h
        by_cases kept : p e = true
        · rw [List.filter_cons_of_pos kept, Tab.find, if_neg other, if_neg above, rest]
        · rw [List.filter_cons_of_neg kept, rest]

/-- What each entry becomes by its key is found under that key. -/
theorem Tab.find_mapKey {α : Type} (f : Nat → α → α) (k : Nat) : ∀ t : Tab α,
    Tab.find (t.map fun e => (e.1, f e.1 e.2)) k = (Tab.find t k).map (f k)
  | [] => rfl
  | e :: t => by
    simp only [List.map_cons, Tab.find]
    split
    next same => exact same ▸ rfl
    · split
      · rfl
      · exact Tab.find_mapKey f k t

theorem State.find_mapWarps (s : State) (f : Nat → Warp → Warp) (w : Nat) :
    Tab.find (s.mapWarps f).warps w = (Tab.find s.warps w).map (f w) := Tab.find_mapKey f w s.warps

theorem State.find_mapBlks (s : State) (f : Nat → Block → Block) (b : Nat) :
    Tab.find (s.mapBlks f).blocks b = (Tab.find s.blocks b).map (f b) := Tab.find_mapKey f b s.blocks

/-- The second of two entries under one key stands. -/
theorem Tab.put_put {α : Type} (k : Nat) (x y : α) : ∀ t : Tab α, Tab.put (Tab.put t k x) k y = Tab.put t k y
  | [] => by simp [Tab.put]
  | e :: t => by
    by_cases same : e.1 = k
    · simp [Tab.put, same]
    · by_cases below : k < e.1
      · simp [Tab.put, same, below]
      · simp [Tab.put, same, below, Tab.put_put k x y t]

/-- A context that is changed twice is changed once by both. -/
theorem State.modCtx_modCtx (s : State) (c : Nat) (f g : Ctx → Ctx) :
    (s.modCtx c f).modCtx c g = s.modCtx c fun C => g (f C) := by
  have found : (s.modCtx c f).ctx c = f (s.ctx c) := (State.ctx_setCtx s c c _).trans (if_pos rfl)
  rw [State.modCtx, found]
  exact congrArg (fun t : Tab Ctx => ({ s with ctxs := t } : State)) (Tab.put_put c _ _ s.ctxs)

/-- A change of a context is what it makes of it. -/
theorem State.modCtx_congr {s : State} {c : Nat} {f g : Ctx → Ctx} (same : f (s.ctx c) = g (s.ctx c)) :
    s.modCtx c f = s.modCtx c g := by rw [State.modCtx, State.modCtx, same]

@[simp] theorem State.ctx_modCtx_same (s : State) (c : Nat) (f : Ctx → Ctx) : (s.modCtx c f).ctx c = f (s.ctx c) :=
    (State.ctx_setCtx s c c _).trans (if_pos rfl)

/-! ### Warps without their monitors -/

/-- A warp without its monitor. -/
def Warp.unwatched (W : Warp) : Warp := { W with monitor := none }
/-- The warps of a state without their monitors. -/
def State.unwatched (s : State) : Tab Warp := s.warps.map fun e => (e.1, e.2.unwatched)

/-- Warps that are the same but for their monitors are found alike. -/
theorem find_unwatched {s t : State} (h : t.unwatched = s.unwatched) (w : Nat) :
    (Tab.find t.warps w).map Warp.unwatched = (Tab.find s.warps w).map Warp.unwatched := by
  rw [← Tab.find_map, ← Tab.find_map]
  exact congrArg (Tab.find · w) h

theorem warp_unwatched {s t : State} (h : t.unwatched = s.unwatched) (w : Nat) :
    (t.warp w).unwatched = (s.warp w).unwatched := by
  have found := find_unwatched h w
  rw [State.warp, State.warp]
  generalize Tab.find t.warps w = x at found ⊢
  generalize Tab.find s.warps w = y at found ⊢
  cases x <;> cases y <;> simp_all

/-- What a change of every warp that keeps all but its monitor leaves. -/
theorem mapWarps_unwatched (s : State) (f : Nat → Warp → Warp) (h : ∀ w W, (f w W).unwatched = W.unwatched) :
    (s.mapWarps f).unwatched = s.unwatched := by
  simp only [State.unwatched, State.mapWarps, List.map_map]
  exact List.map_congr_left fun e _ => Prod.ext rfl (h e.1 e.2)

theorem wakeMonitors_unwatched (s : State) (sram : Option Nat) (ws : List MByte) :
    (wakeMonitors s sram ws).unwatched = s.unwatched :=
  mapWarps_unwatched s _ fun _ W => by
    split
    · rfl
    · split <;> rfl

theorem State.unwatched_put (s : State) (m : List Host.Cell) (k : Tab (BitVec 512)) :
    ({ s with mem := m, lineKeys := k } : State).unwatched = s.unwatched := rfl

theorem adoptKey_unwatched (s : State) (key : Option (BitVec 512)) (a : Nat) : (adoptKey s key a).unwatched = s.unwatched := by
  unfold adoptKey
  cases key with
  | none => rfl
  | some k =>
    simp only
    split
    · split
      · exact State.unwatched_put s _ _
      · split
        · rfl
        · exact State.unwatched_put s _ _
    · rfl

theorem clearPoison_unwatched (s : State) (ws : List MByte) : (clearPoison s ws).unwatched = s.unwatched := by
  unfold clearPoison; split <;> rfl

theorem holdHost_unwatched (s : State) (v a : Nat) : (holdHost s v a).unwatched = s.unwatched := by
  unfold holdHost; split <;> rfl

theorem dropLine_unwatched (s : State) (core line : Nat) : (dropLine s core line).unwatched = s.unwatched := by
  unfold dropLine; simp only; split <;> rfl

/-- A write to physical memory wakes monitors, and changes nothing else of a warp. -/
theorem writePhys_unwatched (s : State) (core : Option Nat) (key : Option (BitVec 512)) (ws : List MByte) :
    (writePhys s core key ws).unwatched = s.unwatched := by
  have adopted : (ws.foldl (fun u b => adoptKey u key b.addr) s).unwatched = s.unwatched :=
    List.foldlRecOn (motive := fun u : State => u.unwatched = s.unwatched) _ _ rfl fun u h b _ =>
      (adoptKey_unwatched u key b.addr).trans h
  have put : ∀ (u : State) m, ({ u with mem := m } : State).unwatched = u.unwatched := fun _ _ => rfl
  have stored : (writePhys s none key ws).unwatched = s.unwatched := by
    unfold writePhys
    cases ws <;> simp only [holdHost_unwatched, wakeMonitors_unwatched, clearPoison_unwatched, put, adopted]
  cases core with
  | none => exact stored
  | some c =>
    exact List.foldlRecOn (motive := fun u : State => u.unwatched = s.unwatched) _ _ stored fun u h l _ =>
      (dropLine_unwatched u c l).trans h

theorem landCore_unwatched (s : State) (core : Nat) : (landCore s core).unwatched = s.unwatched := by
  unfold landCore
  simp only
  split
  · rfl
  · exact List.foldlRecOn (motive := fun u : State => u.unwatched = s.unwatched) _ (landWrite core) rfl
      fun u h y _ => (writePhys_unwatched u (some core) y.key y.op.writes).trans h

theorem refuse_unwatched (before : State) (core : Nat) (s : State) : (refuse before core s).unwatched = s.unwatched := by
  unfold refuse
  simp only
  split
  · rfl
  · exact List.foldlRecOn (motive := fun u : State => u.unwatched = s.unwatched) _ _ rfl fun u h c _ =>
      (show _ = (landCore u c).unwatched from rfl).trans ((landCore_unwatched u c).trans h)

theorem structPut_unwatched : ∀ (ps : List (Place × Nat)) (s : State) (bs : List Byte),
    (structPut s ps bs).unwatched = s.unwatched
  | [], _, _ => rfl
  | _ :: t, s, _ => (structPut_unwatched t _ _).trans (writePhys_unwatched s none _ _)

theorem structWrite_unwatched (s : State) (c va : Nat) (bs : List Byte) :
    (structWrite s c va bs).2.unwatched = s.unwatched := by
  have checked : (structCheck s c .write (piecesOf va bs.length)).2.unwatched = s.unwatched :=
    (congrArg State.unwatched (structCheck_unwalked c .write (piecesOf va bs.length) s) :)
  unfold structWrite
  generalize structCheck s c .write (piecesOf va bs.length) = x at checked ⊢
  obtain ⟨r, t⟩ := x
  cases r with
  | error e => exact checked
  | ok ps => exact (structPut_unwatched ps t bs).trans checked

/-- A trace record leaves of the warps all but their monitors. -/
theorem trace_unwatched (s : State) (c core ty : Nat) (n : Name) (data : List Byte) :
    (trace s c core ty n data).unwatched = s.unwatched := by
  unfold trace
  simp only
  split
  · split
    · generalize h : structWrite s c _ _ = x
      have written : x.2.unwatched = s.unwatched := h ▸ structWrite_unwatched s c _ _
      obtain ⟨r, t⟩ := x
      cases r with
      | error e => exact written
      | ok u => exact (congrArg State.unwatched (structWrite_ok h)).trans written
    · rfl
  · rfl

end Sys2Proof.Machine
end

section
/-! SUPPORT. Reads of the register window: what a whole read leaves where it stands, what it clears, and which accesses the
window does not take; and the statement about the registers that a read clears. -/
namespace Sys2Proof.Machine
open Sys2Proof.Claims

/-! ### Reads of a whole register (R397, R410) -/

/-- A whole read of a register that the window accepts answers what it holds, after it cleared what a read clears. -/
theorem hostRead_open {s : State} {r : WinReg} (h : regOpen s r = true) :
    hostRead s r = answer (clearRead s r (BitVec.allOnes 64)) (regValue s r) := by
  rw [hostRead, readReg, if_pos h]

/-- A read of a register that the window does not accept answers 0. -/
theorem hostRead_closed {s : State} {r : WinReg} (h : regOpen s r = false) : hostRead s r = answer s 0 := by
  rw [hostRead, readReg, h, if_neg Bool.false_ne_true]

/-- A register of a debug area is open to a context with the debug right (R410). -/
theorem regOpen_of_dbgr {s : State} {r : WinReg} {c : Nat} (ide : s.dev.ideActive = true) (h : r.debugOf = some c)
    (right : (s.ctx c).dbgr = true) : regOpen s r = true := by simp [regOpen, ide, h, right]

/-- Without the debug right it is closed. -/
theorem regOpen_of_not_dbgr {s : State} {r : WinReg} {c : Nat} (h : r.debugOf = some c)
    (right : (s.ctx c).dbgr = false) : regOpen s r = false := by simp [regOpen, h, right]

/-- Before IDE is active, only the firmware registers are open (R396). -/
theorem regOpen_of_not_ide {s : State} {r : WinReg} (ide : s.dev.ideActive = false) (h : r.firmware = false) :
    regOpen s r = false := by simp [regOpen, ide, h]

/-! ### What a whole read clears (R413, R419, R486, R494, R496) -/

/-- No bit is left of what a whole read clears. -/
theorem and_not_allOnes {n : Nat} (x : BitVec n) : x &&& ~~~BitVec.allOnes n = 0 := by simp

/-- A whole read of EVENT leaves it 0. -/
theorem clearRead_event (s : State) (c : Nat) :
    clearRead s (.event c) (BitVec.allOnes 64) = s.modCtx c fun C => { C with event := 0 } := by
  simp only [clearRead, and_not_allOnes]

/-- A whole read of TRLOST leaves it 0, and so does a read of its 32 bits alone. -/
theorem clearRead_trlost (s : State) (c : Nat) {bits : Double} (h : bits.setWidth 32 = BitVec.allOnes 32) :
    clearRead s (.trlost c) bits = s.modCtx c fun C => { C with trlost := 0 } := by
  simp only [clearRead, h, and_not_allOnes]

/-- A whole read of HGLOST leaves it 0. -/
theorem clearRead_hglost (s : State) :
    clearRead s .hglost (BitVec.allOnes 64) = s.modDev fun D => { D with hglost := 0 } := by
  simp only [clearRead, and_not_allOnes]

/-- A whole read of MCLOST leaves it 0. -/
theorem clearRead_mclost (s : State) :
    clearRead s .mclost (BitVec.allOnes 64) = s.modDev fun D => { D with mclost := 0 } := by
  simp only [clearRead, show (BitVec.allOnes 64).setWidth 32 = BitVec.allOnes 32 from rfl, and_not_allOnes]

/-- A whole read of PWRSTAT clears the count of trips, and not the temperature. -/
theorem clearRead_pwrstat (s : State) :
    clearRead s .pwrstat (BitVec.allOnes 64) = s.modDev fun D => { D with trips := 0 } := by
  simp only [clearRead, show ((BitVec.allOnes 64) >>> 8).setWidth 8 = BitVec.allOnes 8 by decide, and_not_allOnes]
  rfl

/-! ### The window by offsets (R397) -/

/-- An access that the window does not take: beyond it, of another size, or not aligned. -/
def WindowRefuses (off n : Nat) : Prop := 0x200000 ≤ off ∨ (n ≠ 4 ∧ n ≠ 8) ∨ off % n ≠ 0

/-- A refused access is beyond the window, misaligned, or neither of 4 bytes nor of 8. -/
theorem WindowRefuses.cases {off n : Nat} (h : WindowRefuses off n) :
    (windowSpan ≤ off ∨ off % max 1 n ≠ 0) ∨ (n ≠ 4 ∧ n ≠ 8) := by
  rcases h with beyond | size | misaligned
  · exact .inl (.inl beyond)
  · exact .inr size
  · rcases Nat.eq_zero_or_pos n with rfl | positive
    · exact .inr ⟨by omega, by omega⟩
    · exact .inl (.inr (by rwa [Nat.max_eq_right positive]))

/-- A read that the window does not take reads 0 and changes nothing. -/
theorem registerRead_refused {off n : Nat} (s : State) (h : WindowRefuses off n) : registerRead s off n = (0, s) := by
  rw [registerRead]
  rcases h.cases with h | ⟨h4, h8⟩
  · rw [if_pos h]
  · rw [if_neg h4, if_neg h8, ite_self]

/-- A write that the window does not take changes nothing. -/
theorem windowWrite_refused {off n : Nat} (s : State) (v : Nat) (h : WindowRefuses off n) :
    windowWrite s off n v = s := by
  rw [windowWrite]
  rcases h.cases with h | ⟨h4, h8⟩
  · rw [if_pos h]
  · rw [if_neg h4, if_neg h8, ite_self]

/-- Eight aligned bytes of the window are the register that begins there. -/
theorem registerRead_wide {off : Nat} {r : WinReg} (s : State) (inside : off < 0x200000) (aligned : off % 8 = 0)
    (h : regAt off = some r) (wide : r.narrow = false) :
    registerRead s off 8 = readReg s r (BitVec.allOnes 64) := by
  rw [registerRead, if_neg (by rw [windowSpan, show max 1 8 = 8 from rfl]; omega), if_neg (by decide), if_pos rfl, h]
  simp only [wide, Bool.false_eq_true, if_false]

/-- Four aligned bytes are read as such. -/
theorem registerRead_four {off : Nat} (s : State) (inside : off < 0x200000) (aligned : off % 4 = 0) :
    registerRead s off 4 = read4 s off := by
  rw [registerRead, if_neg (by rw [windowSpan, show max 1 4 = 4 from rfl]; omega), if_pos rfl]

/-- Eight aligned bytes at a register of 4 bytes are a pair of them, the second read after the first. -/
theorem registerRead_pair {off : Nat} {r : WinReg} (s : State) (inside : off < 0x200000) (aligned : off % 8 = 0)
    (h : regAt off = some r) (narrow : r.narrow = true) :
    registerRead s off 8 = ((read4 s off).1 + 2 ^ 32 * (read4 (read4 s off).2 (off + 4)).1,
      (read4 (read4 s off).2 (off + 4)).2) := by
  rw [registerRead, if_neg (by rw [windowSpan, show max 1 8 = 8 from rfl]; omega), if_neg (by decide), if_pos rfl, h]
  simp only [narrow, if_true]

/-- Four bytes at a register are its low half, or the whole of one of 4 bytes. -/
theorem read4_low {off : Nat} {r : WinReg} {s : State} (h : regAt off = some r) (open_ : regOpen s r = true) :
    read4 s off = (regValue s r % 2 ^ 32, clearRead s r 0xFFFFFFFF) := by
  rw [read4, h]
  simp only [readReg, open_, if_true]

/-- Four bytes four beyond a register of 8 bytes are its high half. -/
theorem read4_high {off : Nat} {r : WinReg} {s : State} (none_ : regAt (off + 4) = none) (aligned : off % 8 = 0)
    (h : regAt off = some r) (wide : r.narrow = false) (open_ : regOpen s r = true) :
    read4 s (off + 4) = (regValue s r / 2 ^ 32 % 2 ^ 32, clearRead s r 0xFFFFFFFF00000000) := by
  rw [read4, none_, if_pos (by omega : (off + 4) % 8 = 4), Nat.add_sub_cancel, h]
  simp only [wide, Bool.false_eq_true, if_false, readReg, open_, if_true]

/-- Eight aligned bytes written at a register of 8 bytes write it. -/
theorem windowWrite_wide {off : Nat} {r : WinReg} (s : State) (v : Nat) (inside : off < 0x200000) (aligned : off % 8 = 0)
    (h : regAt off = some r) (wide : r.narrow = false) :
    windowWrite s off 8 v = putReg s r (v % 2 ^ 64) := by
  rw [windowWrite, if_neg (by rw [windowSpan, show max 1 8 = 8 from rfl]; omega), if_neg (by decide), if_pos rfl, h]
  simp only [wide, Bool.false_eq_true, if_false]

/-- The register at an offset of a context page. -/
theorem regAt_page {c o : Nat} (hc : c < 256) (ho : o < 0x1000) : regAt (0x10000 + 0x1000 * c + o) = pageReg c o := by
  have context : (0x10000 + 0x1000 * c + o - pagesBase) / 0x1000 = c := by rw [pagesBase]; omega
  have offset : (0x10000 + 0x1000 * c + o) % 0x1000 = o := by omega
  rw [regAt, if_neg (by rw [pagesBase]; omega)]
  simp only [context, offset]
  exact if_pos hc

/-! ### The pair of TRMASK and TRLOST (R397, R413) -/

/-- An 8-byte read of TRMASK's place reads TRMASK and TRLOST, and clears TRLOST. -/
theorem registerRead_trmask {s : State} {c : Nat} (hc : c < 256) (ide : s.dev.ideActive = true)
    (right : (s.ctx c).dbgr = true) :
    registerRead s (0x10000 + 0x1000 * c + 0x128) 8 = (((s.ctx c).trlost ++ (s.ctx c).trmask).toNat,
      s.modCtx c fun C => { C with trlost := 0 }) := by
  have mask : regAt (0x10000 + 0x1000 * c + 0x128) = some (.trmask c) := (regAt_page hc (by decide)).trans rfl
  have lost : regAt (0x10000 + 0x1000 * c + 0x128 + 4) = some (.trlost c) :=
    (regAt_page (o := 0x12C) hc (by decide)).trans rfl
  rw [registerRead_pair s (by omega) (by omega) mask rfl, read4_low mask (regOpen_of_dbgr ide rfl right)]
  simp only [clearRead]
  rw [read4_low lost (regOpen_of_dbgr ide rfl right), clearRead_trlost s c (by decide)]
  refine Prod.ext ?_ rfl
  rw [BitVec.toNat_append, ← Nat.shiftLeft_add_eq_or_of_lt (s.ctx c).trmask.isLt, Nat.shiftLeft_eq]
  simp only [regValue, Nat.mod_eq_of_lt (s.ctx c).trmask.isLt, Nat.mod_eq_of_lt (s.ctx c).trlost.isLt]
  omega

/-- What is read of a whole value stands in the host's output. -/
theorem answer_toNat {n : Nat} (s : State) (v : BitVec n) :
    answer s v.toNat = { s with hostOut := v.setWidth 64, hostPoison := false } := by
  rw [answer, BitVec.ofNat_toNat]

/-- Settles O48, access by access: whole reads by `hostRead_open` and what `clearRead` leaves of each register, accesses by offset
by the lemmas about the window. -/
theorem readsThatClear : Obligations.ReadsThatClear := by
  unfold Obligations.ReadsThatClear
  refine ⟨fun s ide => ?whole, fun s ide c i hi => ?closed,
    fun s off n h => congrArg (fun p : Nat × State => Host.Outcome.next (answer p.2 p.1)) (registerRead_refused s h),
    fun s ide => ?byOffset⟩
  case whole =>
    have reads {n : Nat} (r : WinReg) (t : State) (v : BitVec n) (free : regOpen s r = true)
        (value : regValue s r = v.toNat) (cleared : clearRead s r (BitVec.allOnes 64) = t) :
        hostRead s r = { t with hostOut := v.setWidth 64, hostPoison := false } := by
      rw [hostRead_open free, value, cleared, answer_toNat]
    have always : ∀ r : WinReg, r.debugOf = none → regOpen s r = true := fun r h => regOpen_of_ide ide h
    refine ⟨fun c => ?event, fun c right => ?trlost, fun c right => ?noRight,
      ?hglost, ?mclost, ?pwrstat⟩
    case event =>
      have read := reads (.event c) _ (s.ctx c).event (always _ rfl) rfl (clearRead_event s c)
      rw [BitVec.setWidth_eq] at read
      exact congrArg Host.Outcome.next read
    case trlost =>
      exact congrArg Host.Outcome.next
        (reads (.trlost c) _ (s.ctx c).trlost (regOpen_of_dbgr ide rfl right) rfl (clearRead_trlost s c rfl))
    case noRight => exact congrArg Host.Outcome.next (hostRead_closed (regOpen_of_not_dbgr rfl right))
    case hglost =>
      have read := reads .hglost _ s.dev.hglost (always _ rfl) rfl (clearRead_hglost s)
      rw [BitVec.setWidth_eq] at read
      exact congrArg Host.Outcome.next read
    case mclost =>
      exact congrArg Host.Outcome.next (reads .mclost _ s.dev.mclost (always _ rfl) rfl (clearRead_mclost s))
    case pwrstat =>
      have read := hostRead_open (always .pwrstat rfl)
      rw [clearRead_pwrstat] at read
      exact congrArg Host.Outcome.next read
  case closed =>
    have closed : ∀ r : WinReg, r.firmware = false →
        Host.Outcome.next (φ := Fault) (ρ := Refusal) (hostRead s r) = .next (answer s 0) :=
      fun r h => congrArg _ (hostRead_closed (regOpen_of_not_ide ide h))
    simp only [List.mem_cons, List.not_mem_nil, or_false] at hi
    rcases hi with rfl | rfl | rfl | rfl | rfl
    · exact closed (.event c) rfl
    · exact closed (.trlost c) rfl
    · exact closed .hglost rfl
    · exact closed .mclost rfl
    · exact closed .pwrstat rfl
  case byOffset =>
    have accepted : regOpen s .fwlen = true := regOpen_of_ide ide rfl
    have reads {off n v : Nat} {t : State} (h : registerRead s off n = (v, t)) :
        exec (.hostMemAccess .registers off (.read n)) s = .next (answer t v) :=
      congrArg (fun p : Nat × State => Host.Outcome.next (answer p.2 p.1)) h
    refine ⟨?whole, ?half, fun c hc right => ?pair, fun v => ?write⟩
    case whole =>
      have read := registerRead_wide (off := 0x108) s (by decide) (by decide) rfl rfl
      rw [readReg, if_pos accepted] at read
      exact (reads read).trans (congrArg _ ((answer_toNat s s.dev.fwlen).trans (by rw [BitVec.setWidth_eq])))
    case half =>
      have read := (registerRead_four s (by decide) (by decide)).trans
        (read4_high (off := 0x108) rfl (by decide) rfl rfl accepted)
      rw [regValue, Nat.mod_eq_of_lt (by have := s.dev.fwlen.isLt; omega)] at read
      exact reads read
    case pair =>
      have read := reads (registerRead_trmask hc ide right)
      rw [answer_toNat, BitVec.setWidth_eq] at read
      exact read
    case write =>
      have written : registerAccess 0x100 (.write (leBytes 8 v.toNat)) s = s.modDev fun D => { D with fwaddr := v } := by
        rw [registerAccess, length_leBytes, leNat_leBytes, show 256 ^ 8 = 2 ^ 64 by decide, Nat.mod_eq_of_lt v.isLt,
          windowWrite_wide (off := 0x100) s v.toNat (by decide) (by decide) rfl rfl, Nat.mod_eq_of_lt v.isLt, putReg,
          if_pos (regOpen_of_ide ide rfl), writeReg, BitVec.ofNat_toNat, BitVec.setWidth_eq]
      exact congrArg Host.Outcome.next written

end Sys2Proof.Machine
end

section
/-! SUPPORT. Writes of the context pages: the states of a context, its debug right, halts and their end, and the other registers;
and the statement about them. -/
namespace Sys2Proof.Machine
open Sys2Proof.Claims

/-! ### A halt's end (R410, R412) -/

/-- A debugger's edits are of warps and blocks. -/
theorem editSection_ctxs (s : State) (o : Owner) (x : Section) (nth : Nat) (bs : List Byte) :
    (editSection s o x nth bs).ctxs = s.ctxs := by
  unfold editSection
  cases o with
  | warp w => rfl
  | blk b =>
    simp only
    split
    case h_1 => split <;> rfl
    all_goals rfl

theorem editAll_ctxs (o : Owner) : ∀ (xs : List (Nat × Section)) (nth : Nat) (bs : List Byte) (s : State),
    (editAll o xs nth bs s).ctxs = s.ctxs
  | [], _, _, _ => rfl
  | _ :: t, _, _, _ => (editAll_ctxs o t _ _ _).trans (editSection_ctxs _ _ _ _ _)

theorem structRead_ctxs (s : State) (c va n : Nat) : (structRead s c va n).2.ctxs = s.ctxs := by
  have checked : (structCheck s c .read (piecesOf va n)).2.ctxs = s.ctxs :=
    (congrArg State.ctxs (structCheck_unwalked c .read (piecesOf va n) s) :)
  unfold structRead
  generalize structCheck s c .read (piecesOf va n) = x at checked ⊢
  obtain ⟨r, t⟩ := x
  cases r with
  | error e => exact checked
  | ok ps => dsimp only; split <;> exact checked

theorem takeEdits_ctxs (s : State) (o : Owner) : (takeEdits s o).ctxs = s.ctxs := by
  unfold takeEdits
  simp only
  split
  · rfl
  · split
    next h => exact (editAll_ctxs _ _ _ _ _).trans ((congrArg (fun x => x.2.ctxs) h.symm :).trans (structRead_ctxs _ _ _ _))
    next h => exact (congrArg (fun x => x.2.ctxs) h.symm :).trans (structRead_ctxs _ _ _ _)

/-- What the end of a halt leaves of its context: nothing is halted or owed. -/
def Ctx.unhalted (C : Ctx) : Ctx :=
  { C with halted := false, haltOwed := none, haltName := none, haltCore := 0, dbgstat := 0, dbgctl := C.dbgctl &&& ~~~ 1 }

theorem unhalt_ctx (s : State) (c : Nat) (edits : Bool) : (unhalt s c edits).ctx c = (s.ctx c).unhalted := by
  have edited : ∀ os : List Owner,
      (os.foldl (fun s o => if ownerSaved s o then takeEdits s o else s) s).ctxs = s.ctxs := fun os =>
    List.foldlRecOn (motive := fun u : State => u.ctxs = s.ctxs) os _ rfl fun u h o _ => by
      split
      · exact (takeEdits_ctxs u o).trans h
      · exact h
  rw [unhalt]
  refine (State.ctx_modCtx_same _ c _).trans (congrArg Ctx.unhalted ?_)
  cases edits with
  | false => rfl
  | true => exact congrArg (fun t : Tab Ctx => (Tab.find t c).getD Ctx.reset) (edited _)

/-- No block of a context is halted when its halt has ended. -/
theorem unhalt_blk {s : State} {c b : Nat} {edits : Bool} {B : Block}
    (h : Tab.find (unhalt s c edits).blocks b = some B) (hc : B.ctx = c) : B.halted = false := by
  have unmarked : ∃ t : State, (unhalt s c edits).blocks
      = (t.mapBlks fun _ B => if B.ctx = c then { B with halted := false } else B).blocks := ⟨_, rfl⟩
  obtain ⟨t, ht⟩ := unmarked
  rw [ht, State.find_mapBlks] at h
  obtain ⟨A, -, made⟩ := Option.map_eq_some_iff.mp h
  subst made
  split at hc
  next mine => rw [if_pos mine]
  next other => exact absurd hc other

/-! ### A halt (R412) -/

theorem haltBlocks_ctxs (s : State) (which : Block → Bool) : (haltBlocks s which).ctxs = s.ctxs :=
  List.foldlRecOn (motive := fun u : State => u.ctxs = s.ctxs) _ _ rfl fun u h _ _ =>
    (congrArg State.ctxs (refuse_unlanded s _ u) :).trans h

/-- The blocks of a kind are marked by a halt. -/
theorem haltBlocks_find (s : State) (which : Block → Bool) (b : Nat) :
    Tab.find (haltBlocks s which).blocks b = (Tab.find s.blocks b).map fun X => if which X then X.halt else X :=
  have marked : (haltBlocks s which).blocks = (s.mapBlks fun _ X => if which X then X.halt else X).blocks :=
    List.foldlRecOn (motive := fun u : State => u.blocks = (s.mapBlks fun _ X => if which X then X.halt else X).blocks)
      _ _ rfl fun u h _ _ => (refuse_blocks s _ u).trans h
  (congrArg (Tab.find · b) marked).trans (State.find_mapBlks s _ b)

/-- A spawned warp stays when blocks give up their room. -/
theorem unseat_spawned {s : State} {w : Nat} {W : Warp} (h : Tab.find s.warps w = some W) (spawned : W.blk = none) :
    Tab.find (unseat s).warps w = some W :=
  Tab.find_filter_of_find (by simp only [spawned]) h

/-- It stays as it is when blocks are halted, but for its monitor. -/
theorem haltBlocks_spawned {s : State} {w : Nat} {W : Warp} (which : Block → Bool) (h : Tab.find s.warps w = some W)
    (spawned : W.blk = none) : ∃ V, Tab.find (haltBlocks s which).warps w = some V ∧ V.unwatched = W.unwatched := by
  have like : (haltBlocks s which).unwatched = (unseat (s.mapBlks fun _ X => if which X then X.halt else X)).unwatched :=
    List.foldlRecOn (motive := fun u : State => u.unwatched = (unseat _).unwatched) _ _ rfl fun u h _ _ =>
      (refuse_unwatched s _ u).trans h
  have found := find_unwatched like w
  rw [unseat_spawned (s := s.mapBlks fun _ X => if which X then X.halt else X) h spawned] at found
  exact Option.map_eq_some_iff.mp found

/-- Every placed block of a context that is halted is marked, but one that has retired. -/
theorem haltContext_blk {s : State} {c b : Nat} {B : Block} (h : Tab.find s.blocks b = some B) (hc : B.ctx = c)
    (placed : B.placed = true) (alive : B.state ≠ .retired) : ((haltContext s c).blk b).halted = true := by
  have found : Tab.find (haltContext s c).blocks b = some B.halt := by
    refine (haltBlocks_find _ _ b).trans ?_
    rw [show Tab.find (s.modCtx c _).blocks b = some B from h, Option.map_some, if_pos (by simp [hc, placed, alive])]
  rw [State.blk, found]
  rfl

/-- A spawned warp of a context that is halted is marked. -/
theorem haltContext_warp {s : State} {c w : Nat} {W : Warp} (h : Tab.find s.warps w = some W) (hc : W.ctx = c)
    (spawned : W.blk = none) : ((haltContext s c).warp w).halted = true := by
  obtain ⟨V, found, like⟩ := haltBlocks_spawned (s := s.modCtx c fun C => { C with halted := true })
    (fun X => X.ctx == c && X.placed && X.state != .retired) h spawned
  have ctx : V.ctx = c := (congrArg Warp.ctx like :).trans hc
  have blk : V.blk = none := (congrArg Warp.blk like :).trans spawned
  rw [State.warp, haltContext, State.find_mapWarps, found, Option.map_some, if_pos ⟨ctx, blk⟩]
  rfl

/-- The context of a halt is marked, and otherwise as it was. -/
theorem haltContext_ctx (s : State) (c : Nat) : (haltContext s c).ctx c = { s.ctx c with halted := true } :=
  (congrArg (fun t : Tab Ctx => (Tab.find t c).getD Ctx.reset) (haltBlocks_ctxs _ _)).trans (State.ctx_modCtx_same s c _)

/-- A halt that is owed is named once, and changes nothing that DBGCTL reads. -/
theorem oweHalt_ctx (s : State) (c idx core : Nat) (n : Option Name) :
    ((oweHalt s c idx core n).ctx c).haltOwed = some ((s.ctx c).haltOwed.getD idx)
      ∧ ((oweHalt s c idx core n).ctx c).dbgctl = (s.ctx c).dbgctl
      ∧ ((oweHalt s c idx core n).ctx c).halted = (s.ctx c).halted := by
  rw [oweHalt, State.ctx_modCtx_same]
  cases owed : (s.ctx c).haltOwed with
  | none => exact ⟨rfl, rfl, rfl⟩
  | some i => exact ⟨owed, rfl, rfl⟩

/-! ### The debug right and DBGCTL (R410, R500) -/

/-- A write of DBGCTL keeps what HALT reads, and takes ARM and TRACE. -/
def Ctx.armedBy (C : Ctx) (v : Nat) : Ctx := { C with dbgctl := (C.dbgctl &&& 1) ||| BitVec.ofNat 64 (v / 4 % 4 * 4) }

/-- HALT halts a context of which nothing is halted. -/
theorem writeDbgctl_halt {s : State} {c v : Nat} (halt : v.testBit 0 = true) (resume : v.testBit 1 = false)
    (none_ : haltedOwners s c = []) (running : (s.ctx c).halted = false) :
    writeDbgctl s c v = oweHalt ((haltContext (s.modCtx c (·.armedBy v)) c).modCtx c fun C => { C with dbgctl := C.dbgctl ||| 1 })
      c haltIndex 0 none := by
  have idle : haltedOwners (s.modCtx c (·.armedBy v)) c = [] := none_
  have free : ((s.modCtx c (·.armedBy v)).ctx c).halted = false := by rw [State.ctx_modCtx_same]; exact running
  unfold writeDbgctl
  simp only [resume, Bool.false_eq_true, if_false]
  refine if_pos ?_
  rw [halt, Bool.true_and, Bool.and_eq_true, Bool.not_eq_true']
  exact ⟨List.isEmpty_iff.mpr idle, free⟩

/-- RESUME ends a halt, and the edits of its images are taken up. -/
theorem writeDbgctl_resume {s : State} {c v : Nat} (halt : v.testBit 0 = false) (resume : v.testBit 1 = true) :
    writeDbgctl s c v = unhalt (s.modCtx c (·.armedBy v)) c true := by
  unfold writeDbgctl
  simp only [halt, resume, if_true, Bool.false_and, Bool.false_eq_true, if_false]
  rfl

/-- The debug right that is cleared leaves the state of its context. -/
theorem revokeDebug_state (s : State) (c : Nat) : ((revokeDebug s c).ctx c).state = (s.ctx c).state := by
  unfold revokeDebug
  split
  · rw [unhalt_ctx]; rfl
  · have page := State.ctx_modCtx_same (unhalt s c true) c
      fun C => { C.setEvent (eventWith C.event codeDebugRevoked 0x20) with comparators := noComparators }
    rw [unhalt_ctx] at page
    exact (congrArg Ctx.state page :)

/-- With work halted, DBGREVOKED is set and the comparators are cleared. -/
theorem revokeDebug_halted {s : State} {c : Nat} (h : haltedOwners s c ≠ []) :
    ((revokeDebug s c).ctx c).event.getLsbD 5 = true ∧ ((revokeDebug s c).ctx c).comparators = noComparators
      ∧ ∀ b B, Tab.find (revokeDebug s c).blocks b = some B → B.ctx = c → B.halted = false := by
  unfold revokeDebug
  rw [if_neg h]
  have page := State.ctx_modCtx_same (unhalt s c true) c
    fun C => { C.setEvent (eventWith C.event codeDebugRevoked 0x20) with comparators := noComparators }
  refine ⟨?_, congrArg Ctx.comparators page, fun b B found hc => unhalt_blk found hc⟩
  exact (congrArg (fun C : Ctx => C.event.getLsbD 5) page).trans (by simp [Ctx.setEvent, eventWith])

/-! ### States of a context (R399) -/

/-- The rights and the ASID that a value of CTXCTL gives. -/
def Ctx.given (C : Ctx) (v : Double) : Ctx :=
  { C with asid := v.toNat / 256 % 256, dbgr := v.getLsbD 3, sysr := v.getLsbD 2 }

theorem withState_mod (v : Double) {st : Nat} (h : st < 4) : withState v st % 4 = st := by rw [withState]; omega

theorem withState_asid (v : Double) {st : Nat} (h : st < 4) : withState v st / 256 % 256 = v.toNat / 256 % 256 := by
  rw [withState]; omega

/-- STATE is below the bits of the rights. -/
theorem withState_bit3 (v : Double) {st : Nat} (h : st < 4) : (withState v st).testBit 3 = v.getLsbD 3 := by
  rw [← BitVec.testBit_toNat, withState, Nat.testBit_eq_decide_div_mod_eq, Nat.testBit_eq_decide_div_mod_eq]
  congr 2
  omega

theorem withState_bit2 (v : Double) {st : Nat} (h : st < 4) : (withState v st).testBit 2 = v.getLsbD 2 := by
  rw [← BitVec.testBit_toNat, withState, Nat.testBit_eq_decide_div_mod_eq, Nat.testBit_eq_decide_div_mod_eq]
  congr 2
  omega

theorem setRights_withState (C : Ctx) (v : Double) {st : Nat} (h : st < 4) : setRights C (withState v st) = C.given v := by
  rw [setRights, withState_asid v h, withState_bit3 v h, withState_bit2 v h]; rfl

section
variable {s : State} {c : Nat} (v : Double)

/-- A context that is FREE stops with the rights it is given. -/
theorem writeCtxctl_take (idle : (s.ctx c).discarding = false) (free : (s.ctx c).state = .free) :
    writeCtxctl s c (withState v 1) = s.modCtx c fun C => { C.given v with state := .stopped } := by
  simp only [writeCtxctl, idle, free, withState_mod v (show 1 < 4 by decide), setRights_withState _ v (show 1 < 4 by decide)]
  rfl

/-- One that runs or is suspended is told to stop. -/
theorem writeCtxctl_stop (idle : (s.ctx c).discarding = false)
    (h : (s.ctx c).state = .running ∨ (s.ctx c).state = .suspended) :
    writeCtxctl s c (withState v 1) = s.modCtx c fun C => { C with stopping := true } := by
  rcases h with h | h <;> simp [writeCtxctl, idle, h, withState_mod v (show 1 < 4 by decide)]

/-- No other context of the ASID stands in the way of one that runs. -/
theorem asidTaken_false {a : Nat} (h : ∀ e ∈ s.ctxs, e.1 ≠ c → e.2.state ≠ .free → e.2.asid ≠ a) :
    asidTaken s c a = false := by
  rw [asidTaken, List.any_eq_false]
  intro e he
  by_cases same : e.1 = c
  · simp [same]
  · by_cases free : e.2.state = .free
    · simp [free]
    · simp [h e he same free]

/-- NEARPART that waits for nothing takes no effect. -/
theorem applyNearpart_none (h : s.dev.nearpartNext = none) : applyNearpart s = s := by rw [applyNearpart, h]

/-- A context that is STOPPED runs with the rights it is given, while it keeps the debug right or has none. -/
theorem writeCtxctl_run (idle : (s.ctx c).discarding = false) (stopped : (s.ctx c).state = .stopped)
    (own : asidTaken s c (v.toNat / 256 % 256) = false) (right : (s.ctx c).dbgr = false ∨ v.getLsbD 3 = true)
    (near : s.dev.nearpartNext = none) :
    writeCtxctl s c (withState v 2) = s.modCtx c fun C => { C.given v with state := .running } := by
  have kept : ((s.ctx c).dbgr && !v.getLsbD 3) = false := by rcases right with h | h <;> simp [h]
  have rights : writeRights s c (withState v 2) = s.modCtx c (·.given v) := by
    simp only [writeRights, withState_bit3 v (show 2 < 4 by decide), kept, Bool.false_eq_true, if_false,
      setRights_withState _ v (show 2 < 4 by decide)]
  simp only [writeCtxctl, idle, stopped, withState_mod v (show 2 < 4 by decide), withState_asid v (show 2 < 4 by decide), own,
    rights]
  rw [applyNearpart_none (s := s.modCtx c (·.given v)) near, if_neg (by decide), if_neg (by decide), if_neg (by decide),
    if_neg (by decide)]
  exact State.modCtx_modCtx s c _ _

/-- It does not run under an ASID that another context holds. -/
theorem writeCtxctl_taken (stopped : (s.ctx c).state = .stopped) (taken : asidTaken s c (v.toNat / 256 % 256) = true) :
    writeCtxctl s c (withState v 2) = s := by
  simp [writeCtxctl, stopped, withState_mod v (show 2 < 4 by decide), withState_asid v (show 2 < 4 by decide), taken]

/-- A context that is SUSPENDED runs again when it has acknowledged. -/
theorem writeCtxctl_resume (idle : (s.ctx c).discarding = false) (suspended : (s.ctx c).state = .suspended)
    (going : (s.ctx c).stopping = false) (ack : (s.ctx c).ackVersion = s.dev.rmver)
    (own : asidTaken s c (s.ctx c).asid = false) (near : s.dev.nearpartNext = none) :
    writeCtxctl s c (withState v 2) = s.modCtx c fun C => { C with state := .running } := by
  simp [writeCtxctl, idle, suspended, withState_mod v (show 2 < 4 by decide), going, ack, own, applyNearpart_none near]

/-- A context that is STOPPED is discarded, and one that runs is not. -/
theorem writeCtxctl_free (idle : (s.ctx c).discarding = false) (stopped : (s.ctx c).state = .stopped) :
    writeCtxctl s c (withState v 0) = s.modCtx c fun C => { C with discarding := true } := by
  simp [writeCtxctl, idle, stopped, withState_mod v (show 0 < 4 by decide)]

theorem writeCtxctl_free_running (running : (s.ctx c).state = .running) : writeCtxctl s c (withState v 0) = s := by
  simp [writeCtxctl, running, withState_mod v (show 0 < 4 by decide)]

/-- A value that stops a context and leaves it no debug right. -/
theorem writeCtxctl_revoke {n : Nat} (idle : (s.ctx c).discarding = false) (stopped : (s.ctx c).state = .stopped)
    (right : (s.ctx c).dbgr = true) (state : n % 4 = 1) (clear : n.testBit 3 = false) :
    writeCtxctl s c n = (revokeDebug s c).modCtx c fun C => setRights C n := by
  simp [writeCtxctl, idle, stopped, state, writeRights, right, clear]

end

/-! ### The save area (R472) -/

section
variable {s : State} {c : Nat} (v : Double)

/-- While nothing is saved, the save area is set. -/
theorem writeSave_free (h : anySaved s c = false) :
    writeSave s c false v.toNat = (s.modCtx c fun C => { C with savearea := v, saveWaits := false })
    ∧ writeSave s c true v.toNat = (s.modCtx c fun C => { C with savesize := v, saveWaits := false }) := by
  constructor <;> simp [writeSave, h]

/-- While work is saved, its size is only raised. -/
theorem writeSave_held (h : anySaved s c = true) :
    writeSave s c false v.toNat = (s.modCtx c fun C => { C with saveWaits := false })
    ∧ writeSave s c true v.toNat = (s.modCtx c fun C => { C with
        savesize := if C.savesize.toNat ≤ v.toNat then v else C.savesize, saveWaits := false }) := by
  constructor
  · simp [writeSave, h]
  · rw [writeSave]
    refine State.modCtx_congr ?_
    by_cases room : (s.ctx c).savesize.toNat ≤ v.toNat <;> simp [h, room]

end

/-! ### The window by offsets (R397) -/

/-- Four bytes written at a register of 8 bytes are its low half. -/
theorem windowWrite_low {off : Nat} {r : WinReg} (s : State) (v : Nat) (inside : off < 0x200000) (aligned : off % 4 = 0)
    (h : regAt off = some r) (wide : r.narrow = false) :
    windowWrite s off 4 v = putReg s r (regStored s r / 2 ^ 32 * 2 ^ 32 + v % 2 ^ 32) := by
  rw [windowWrite, if_neg (by rw [windowSpan, show max 1 4 = 4 from rfl]; omega), if_pos rfl, write4, h]
  simp only [wide, Bool.false_eq_true, if_false]

/-- The high half of one word before the low half of another. -/
theorem ofNat_halves (x v : Double) :
    BitVec.ofNat 64 (x.toNat / 2 ^ 32 * 2 ^ 32 + v.toNat % 2 ^ 32) = x.extractLsb' 32 32 ++ v.setWidth 32 := by
  apply BitVec.eq_of_toNat_eq
  have bound := x.isLt
  rw [BitVec.toNat_append, ← Nat.shiftLeft_add_eq_or_of_lt (v.setWidth 32).isLt, Nat.shiftLeft_eq, BitVec.toNat_ofNat,
    BitVec.extractLsb'_toNat, BitVec.toNat_setWidth, Nat.shiftRight_eq_div_pow]
  omega

/-- ROOT is set while its context is FREE or STOPPED (R398). -/
theorem windowWrite_root {s : State} {c : Nat} (v : Double) (ide : s.dev.ideActive = true) (hc : c < 256)
    (h : (s.ctx c).state = .free ∨ (s.ctx c).state = .stopped) :
    windowWrite s (0x10000 + 0x1000 * c + 8) 8 v.toNat = s.modCtx c fun C => { C with root := v } := by
  rw [windowWrite_wide s v.toNat (by omega) (by omega) ((regAt_page hc (by decide)).trans rfl) rfl, putReg,
    if_pos (regOpen_of_ide ide rfl), writeReg]
  refine State.modCtx_congr ?_
  rw [if_pos h, Nat.mod_eq_of_lt v.isLt, BitVec.ofNat_toNat, BitVec.setWidth_eq]

/-- A change of the device part is what it makes of it. -/
theorem State.modDev_congr {s : State} {f g : Device → Device} (same : f s.dev = g s.dev) : s.modDev f = s.modDev g :=
  congrArg (fun D : Device => ({ s with dev := D } : State)) same

/-- FWADDR takes its low half. -/
theorem windowWrite_fwaddr_low {s : State} (v : Double) (ide : s.dev.ideActive = true) :
    windowWrite s 0x100 4 v.toNat
      = s.modDev fun D => { D with fwaddr := D.fwaddr.extractLsb' 32 32 ++ v.setWidth 32 } := by
  have stored : regStored s .fwaddr = s.dev.fwaddr.toNat := rfl
  have written := windowWrite_low (off := 0x100) (r := .fwaddr) s v.toNat (by decide) (by decide) rfl rfl
  rw [stored, putReg, if_pos (regOpen_of_ide ide rfl), writeReg, ofNat_halves] at written
  exact written.trans (State.modDev_congr rfl)

/-- FWADDR takes all of its bytes. -/
theorem windowWrite_fwaddr {s : State} (v : Double) (ide : s.dev.ideActive = true) :
    windowWrite s 0x100 8 v.toNat = s.modDev fun D => { D with fwaddr := v } := by
  rw [windowWrite_wide s v.toNat (by decide) (by decide) rfl rfl, putReg, if_pos (regOpen_of_ide ide rfl), writeReg,
    Nat.mod_eq_of_lt v.isLt, BitVec.ofNat_toNat, BitVec.setWidth_eq]

/-- RMVER is only read. -/
theorem windowWrite_rmver {s : State} (v : Double) (ide : s.dev.ideActive = true) : windowWrite s 8 8 v.toNat = s := by
  rw [windowWrite_wide s v.toNat (by decide) (by decide) rfl rfl, putReg, if_pos (regOpen_of_ide ide rfl), writeReg]

/-! ### What the debug registers leave -/

/-- The debug right is gone, the context is as it was, and what was halted is not. -/
theorem debugRightClear_leaves {s : State} {c : Nat} (v : Double) (stopped : (s.ctx c).state = .stopped)
    (idle : (s.ctx c).discarding = false) (right : (s.ctx c).dbgr = true) {t : State}
    (ht : t = writeReg s (.ctxctl c) (v.toNat / 16 * 16 + v.toNat % 8 / 4 * 4 + 1)) :
    (t.ctx c).dbgr = false ∧ (t.ctx c).state = .stopped
      ∧ (haltedOwners s c ≠ [] → (t.ctx c).event.getLsbD 5 = true ∧ (t.ctx c).comparators = noComparators
        ∧ ∀ b B, Tab.find t.blocks b = some B → B.ctx = c → B.halted = false) := by
  have clear : (v.toNat / 16 * 16 + v.toNat % 8 / 4 * 4 + 1).testBit 3 = false := by
    rw [Nat.testBit_eq_decide_div_mod_eq, decide_eq_false_iff_not]; omega
  rw [writeReg, writeCtxctl_revoke idle stopped right (by omega) clear] at ht
  have page : t.ctx c = setRights ((revokeDebug s c).ctx c) (v.toNat / 16 * 16 + v.toNat % 8 / 4 * 4 + 1) := by
    rw [ht, State.ctx_modCtx_same]
  have blocks : t.blocks = (revokeDebug s c).blocks := (congrArg State.blocks ht).trans (State.modCtx_blocks _ c _)
  rw [page, blocks]
  exact ⟨clear, (revokeDebug_state s c).trans stopped, revokeDebug_halted⟩

/-- HALT: a halt is owed, and the work of the context is marked. -/
theorem dbgctlHalt_leaves {s : State} {c : Nat} (v : Double) (none_ : haltedOwners s c = [])
    (running : (s.ctx c).halted = false) (quiet : v.getLsbD 1 = false) {t : State}
    (ht : t = writeReg s (.dbgctl c) (v.toNat ||| 1)) :
    (t.ctx c).haltOwed = some ((s.ctx c).haltOwed.getD 255) ∧ (t.ctx c).dbgctl.getLsbD 0 = true ∧ (t.ctx c).halted = true
      ∧ (∀ b B, Tab.find s.blocks b = some B → B.ctx = c → B.placed = true → B.state ≠ .retired → (t.blk b).halted = true)
      ∧ ∀ w W, Tab.find s.warps w = some W → W.ctx = c → W.blk = none → (t.warp w).halted = true := by
  have halt : (v.toNat ||| 1).testBit 0 = true := by rw [Nat.testBit_or]; simp
  have resume : (v.toNat ||| 1).testBit 1 = false := by rw [Nat.testBit_or, BitVec.testBit_toNat, quiet]; decide
  rw [writeReg, writeDbgctl_halt halt resume none_ running] at ht
  obtain ⟨owed, reads, halted⟩ := oweHalt_ctx ((haltContext (s.modCtx c (·.armedBy (v.toNat ||| 1))) c).modCtx c
    fun C => { C with dbgctl := C.dbgctl ||| 1 }) c haltIndex 0 none
  rw [← ht, State.ctx_modCtx_same, haltContext_ctx] at owed reads halted
  rw [State.ctx_modCtx_same] at owed
  have blocks : ∀ b, t.blk b = (haltContext (s.modCtx c (·.armedBy (v.toNat ||| 1))) c).blk b := fun b => by
    rw [ht, oweHalt, State.blk_modCtx, State.blk_modCtx]
  have warps : ∀ w, t.warp w = (haltContext (s.modCtx c (·.armedBy (v.toNat ||| 1))) c).warp w := fun w => by
    rw [ht, oweHalt, State.warp_modCtx, State.warp_modCtx]
  exact ⟨owed, by rw [reads, BitVec.getLsbD_or]; simp, halted,
    fun b B h hc placed alive => (blocks b).symm ▸ haltContext_blk h hc placed alive,
    fun w W h hc spawned => (warps w).symm ▸ haltContext_warp h hc spawned⟩

/-- RESUME: nothing is halted or owed. -/
theorem dbgctlResume_leaves {s : State} {c : Nat} (v : Double) (quiet : v.getLsbD 0 = false) {t : State}
    (ht : t = writeReg s (.dbgctl c) (v.toNat ||| 2)) :
    (t.ctx c).haltOwed = none ∧ (t.ctx c).dbgstat = 0 ∧ (t.ctx c).halted = false
      ∧ ∀ b B, Tab.find t.blocks b = some B → B.ctx = c → B.halted = false := by
  have halt : (v.toNat ||| 2).testBit 0 = false := by rw [Nat.testBit_or, BitVec.testBit_toNat, quiet]; decide
  have resume : (v.toNat ||| 2).testBit 1 = true := by rw [Nat.testBit_or, Bool.or_eq_true]; exact .inr (by decide)
  rw [writeReg, writeDbgctl_resume halt resume] at ht
  have page : t.ctx c = ((s.modCtx c (·.armedBy (v.toNat ||| 2))).ctx c).unhalted := by rw [ht, unhalt_ctx]
  rw [page]
  exact ⟨rfl, rfl, rfl, fun b B h hc => unhalt_blk (ht ▸ h) hc⟩

/-- Settles O47, write by write: what the window takes by `regEvent_open` and the lemmas about offsets, and what each write leaves
by the laws of its register. -/
theorem contextRegisters : Obligations.ContextRegisters := by
  unfold Obligations.ContextRegisters
  refine ⟨fun s c v ide => ?pages, fun s c v ide right => ?debug,
    fun s off size v h => congrArg Host.Outcome.next (windowWrite_refused s v.toNat h), fun s v ide => ?offsets⟩
  case pages =>
    have taken {r : WinReg} {n : Nat} {t : State} (h : writeReg s r n = t) (plain : r.debugOf = none) :
        regEvent s r n = .next t := (regEvent_open s r n (regOpen_of_ide ide plain)).trans (congrArg _ h)
    refine ⟨fun w => taken (r := .notify c) ?_ rfl,
      fun idle free => taken (r := .ctxctl c) (writeCtxctl_take v idle free) rfl,
      fun idle h => taken (r := .ctxctl c) (writeCtxctl_stop v idle h) rfl,
      fun idle stopped own kept near =>
        taken (r := .ctxctl c) (writeCtxctl_run v idle stopped (asidTaken_false own) kept near) rfl,
      fun stopped other => taken (r := .ctxctl c) (writeCtxctl_taken v stopped ?_) rfl,
      fun idle suspended going ack near own =>
        taken (r := .ctxctl c) (writeCtxctl_resume v idle suspended going ack (asidTaken_false own) near) rfl,
      fun idle stopped => taken (r := .ctxctl c) (writeCtxctl_free v idle stopped) rfl,
      fun running => taken (r := .ctxctl c) (writeCtxctl_free_running v running) rfl,
      taken (r := .tagclr c) rfl rfl, taken (r := .rmack c) ?_ rfl,
      fun h => ⟨taken (r := .savearea c) (writeSave_free v h).1 rfl, taken (r := .savesize c) (writeSave_free v h).2 rfl⟩,
      fun h => ⟨taken (r := .savearea c) (writeSave_held v h).1 rfl, taken (r := .savesize c) (writeSave_held v h).2 rfl⟩⟩
    · simp only [writeReg, writeNotify, BitVec.ofNat_toNat, BitVec.setWidth_eq]
    · obtain ⟨e, he, ne, live, same⟩ := other
      exact List.any_eq_true.mpr ⟨e, he, by simp [ne, live, same]⟩
    · have low : BitVec.ofNat 64 (v.toNat % 2 ^ 32) = (v.setWidth 32).setWidth 64 := by
        rw [← BitVec.toNat_setWidth, BitVec.ofNat_toNat]
      simp only [writeReg, writeRmack, low, BitVec.ofNat_toNat]
  case debug =>
    have taken {r : WinReg} {n : Nat} (h : regOpen s r = true) : regEvent s r n = .next (writeReg s r n) :=
      regEvent_open s r n h
    have plain : regOpen s (.ctxctl c) = true := regOpen_of_ide ide rfl
    have dbgctl : regOpen s (.dbgctl c) = true := regOpen_of_dbgr ide rfl right
    refine ⟨fun stopped idle => ⟨_, taken plain, debugRightClear_leaves v stopped idle right rfl⟩,
      fun none_ running quiet => ⟨_, taken dbgctl, dbgctlHalt_leaves v none_ running quiet rfl⟩,
      fun quiet => ⟨_, taken dbgctl, dbgctlResume_leaves v quiet rfl⟩, (taken (regOpen_of_dbgr ide rfl right)).trans ?_⟩
    rw [writeReg, writeDbgiclen, BitVec.ofNat_toNat, BitVec.setWidth_eq]
    rfl
  case offsets =>
    exact ⟨congrArg Host.Outcome.next (windowWrite_fwaddr v ide), congrArg Host.Outcome.next (windowWrite_fwaddr_low v ide),
      congrArg Host.Outcome.next (windowWrite_rmver v ide),
      fun c hc h => congrArg Host.Outcome.next (windowWrite_root v ide hc h)⟩

end Sys2Proof.Machine
end

section
/-! SUPPORT. Entering a handler and leaving it: a warp with no store to come has nothing to perform, the fragment's frame is
written before its fibres are entered, and RESUME reads it back; and the two statements. -/
namespace Sys2Proof.Machine
open Sys2Proof.Claims

/-! ### A warp with no store to come (R149, R150) -/

theorem foldl_landCore_idle {s : State} : ∀ cs : List Nat, (∀ k ∈ cs, (s.core k).passing = []) → cs.foldl landCore s = s
  | [], _ => rfl
  | c :: cs, h => by
    rw [List.foldl_cons, landCore_done s c (h c (List.mem_cons_self ..)),
      foldl_landCore_idle cs fun k hk => h k (List.mem_cons_of_mem _ hk)]

/-- Nothing is performed for it. -/
theorem drainAll_idle {s : State} {w : Nat} (none_ : (s.warp w).storeQ = []) (home : noPassing s (s.warp w).core) :
    drainAll s w = s := by
  rw [drainAll, none_]
  exact foldl_landCore_idle _ home

/-! ### Entering (R460) -/

/-- A fibre of a fragment that enters its handler. -/
def Fragment.enter (q : Fragment) (vec : Nat) (f : Fibre) : Fibre :=
  { f with pc := BitVec.ofNat 56 vec, status := .ready, frag := q.id }

/-- The warp that a delivered fragment leaves: its fibres at the trap vector as the running handler. -/
def Warp.entered (W : Warp) (q : Fragment) (vec off : Nat) (watch : Option Monitor) : Warp :=
  { (W.mapFibres q.mask (q.enter vec)).setSval true 58 off with
    monitor := watch
    queue := W.queue.filter (fun x => x.id != q.id)
    handlers := ⟨q.id, W.handlers.length, q.mask⟩ :: W.handlers }

/-- A fragment that has a slot and whose frame is written enters its handler. -/
theorem enterHandler_enters {s s1 s2 : State} {w : Nat} {W : Warp} {q : Fragment} (hW : W = (s.warp w).settle)
    (first : deliverable W = some q) (slot : (W.handlers.length + 1) * frameBytes W.window ≤ (W.seg .trap).size)
    (fits : (W.seg .trap).baseAddr + frameOffset W W.handlers.length + frameBytes W.window ≤ 2 ^ 56)
    (written : structWrite s W.ctx ((W.seg .trap).baseAddr + frameOffset W W.handlers.length)
      (frameOf s W q W.handlers.length) = (.ok s1, s2)) :
    enterHandler s w = trace (s1.setWarp w (W.entered q (s1.launch W.launch).lrec.trapVec (frameOffset W W.handlers.length)
      (s1.warp w).monitor)) W.ctx W.core 3 (fragmentName s W q) (faultData q.code q.id.toNat q.addr) := by
  have room : ¬frameSlots W ≤ W.handlers.length := by
    rw [frameSlots, Nat.not_le, Nat.lt_iff_add_one_le, Nat.le_div_iff_mul_le (by rw [frameBytes]; omega)]
    exact slot
  have frame : writeFrame s W q W.handlers.length (frameOffset W W.handlers.length) = (.ok s1, s2) := by
    rw [writeFrame]
    exact (if_neg (by omega)).trans written
  unfold enterHandler
  simp only [← hW, first, if_neg room, frame]
  rfl

/-- Registers s58:s59 are the warp's, whatever its fibres are. -/
theorem Warp.setSval_sregs_congr {V W : Warp} (h : V.sregs = W.sregs) (wide : Bool) (r v : Nat) :
    (V.setSval wide r v).sregs = (W.setSval wide r v).sregs := by
  cases wide <;> simp only [Warp.setSval, Warp.setSreg, h, if_true, Bool.false_eq_true, if_false]

/-- What entering leaves of the warp. -/
theorem entered_fields (W : Warp) (q : Fragment) (vec off : Nat) (watch : Option Monitor) :
    (W.entered q vec off watch).queue = W.queue.filter (fun x => x.id != q.id)
      ∧ (W.entered q vec off watch).handlers = ⟨q.id, W.handlers.length, q.mask⟩ :: W.handlers
      ∧ (W.entered q vec off watch).sregs = (W.setSval true 58 off).sregs
      ∧ ∀ k, (W.entered q vec off watch).fibre? k = (W.fibre? k).map fun f =>
          if q.mask.contains k then q.enter vec f else f := by
  refine ⟨rfl, rfl, Warp.setSval_sregs_congr (by rfl) true 58 off, fun k => ?_⟩
  refine (Warp.fibre?_mapFibres W q.mask (g := q.enter vec) (fun _ => rfl) k).trans ?_
  split
  · rfl
  · exact Option.map_id'.symm

/-- Settles O29: the delivery is `enterHandler_enters`, and the trace record leaves of the warp all but its monitor. -/
theorem trapEntry : Obligations.TrapEntry := by
  unfold Obligations.TrapEntry
  intro w s q s1 s2 runs none_ home W hW first d hd slot fits written
  subst hd
  have idle := drainAll_idle none_ home
  have delivered : exec (.fragmentDeliver w) s = .next (enterHandler s w) := by
    refine congrArg Host.Outcome.next ?_
    rw [if_pos runs]
    simp only [idle, runs, if_true]
  refine ⟨s1.setWarp w (W.entered q (s1.launch W.launch).lrec.trapVec (frameOffset W W.handlers.length) (s1.warp w).monitor), _,
    delivered.trans (congrArg _ (enterHandler_enters hW first slot fits written)), rfl, rfl, ?_⟩
  generalize (s1.launch W.launch).lrec.trapVec = vec
  generalize (s1.warp w).monitor = watch
  have left := warp_unwatched (trace_unwatched (s1.setWarp w (W.entered q vec (frameOffset W W.handlers.length) watch))
    W.ctx W.core 3 (fragmentName s W q) (faultData q.code q.id.toNat q.addr)) w
  rw [State.warp_setWarp, if_pos rfl] at left
  generalize trace _ _ _ _ _ _ = t at left ⊢
  obtain ⟨queue, handlers, sregs, fibres⟩ := entered_fields W q vec (frameOffset W W.handlers.length) watch
  exact ⟨(congrArg Warp.queue left :).trans queue, (congrArg Warp.handlers left :).trans handlers,
    (congrArg Warp.sregs left :).trans sregs, fun k => (congrArg (fun V : Warp => V.fibre? k) left :).trans (fibres k), rfl⟩

end Sys2Proof.Machine
end

section
/-! SUPPORT. Leaving a handler: RESUME reads the frame that entering wrote, and the group goes on from it; and the statement. -/
namespace Sys2Proof.Machine
open Sys2Proof.Claims

/-! ### Fields of a record (R4) -/

theorem leNat_lt : ∀ bs : List Byte, leNat bs < 256 ^ bs.length
  | [] => by decide
  | b :: t => by
    have low := b.isLt
    have rest := leNat_lt t
    rw [leNat, List.length_cons, Nat.pow_succ]
    omega

/-- A field of four bytes is a word. -/
theorem field_lt (bs : List Byte) (off : Nat) : field bs off 4 < 2 ^ 32 :=
  calc field bs off 4 < 256 ^ ((bs.drop off).take 4).length := leNat_lt _
    _ ≤ 256 ^ 4 := Nat.pow_le_pow_right (by decide) (List.length_take_le 4 _)
    _ = 2 ^ 32 := by decide

/-- A field of one byte is that byte. -/
theorem field_byte (bs : List Byte) (i : Nat) : field bs i 1 = (byteAt bs i).toNat := by
  rw [field, byteAt, List.take_one, List.head?_drop, List.getD_eq_getElem?_getD]
  cases bs[i]? <;> rfl

/-! ### Uniform registers that are taken up in order -/

/-- Registers below n read what is written to each of them. -/
theorem read_writes (f : Nat → Word) (n r : Nat) {t : Tab Word} (rising : Tab.rising none t = true) (hr : r < n) :
    Tab.read (0 : Word) ((List.range n).foldl (fun t r => Tab.write (0 : Word) t r (f r)) t) r = f r := by
  have written : ∀ n, Tab.rising none ((List.range n).foldl (fun t r => Tab.write (0 : Word) t r (f r)) t) = true
      ∧ ∀ r, r < n → Tab.read (0 : Word) ((List.range n).foldl (fun t r => Tab.write (0 : Word) t r (f r)) t) r = f r := by
    intro n
    induction n with
    | zero => exact ⟨rising, fun r hr => absurd hr (Nat.not_lt_zero r)⟩
    | succ n ih =>
      obtain ⟨sorted, reads⟩ := ih
      rw [List.range_succ, List.foldl_append]
      refine ⟨Tab.write_rising _ _ _ _ sorted, fun r hr => ?_⟩
      refine (Tab.read_write (0 : Word) _ r n (f n) sorted).trans ?_
      split
      next same => rw [same]
      next other => exact reads r (by omega)
  exact (written n).2 r hr

/-! ### Reading the frame (R464) -/

/-- Loads that return keep the window. -/
theorem applyLoad_window (W : Warp) (p : PendingLoad) : (applyLoad W p).window = W.window := by
  unfold applyLoad
  split
  · exact List.foldlRecOn (motive := fun V : Warp => V.window = W.window) _ _ rfl fun V h _ _ => h
  · rfl

theorem settle_window (W : Warp) : W.settle.window = W.window :=
  List.foldlRecOn (motive := fun V : Warp => V.window = W.window) _ applyLoad rfl fun V h p _ => (applyLoad_window V p).trans h

/-- The slots of a warp are those of its fibres, whatever loads return to them. -/
theorem applyLoad_isSome (W : Warp) (p : PendingLoad) (k : Nat) :
    ((applyLoad W p).fibre? k).isSome = (W.fibre? k).isSome := by
  unfold applyLoad
  split
  · exact List.foldlRecOn (motive := fun V : Warp => (V.fibre? k).isSome = (W.fibre? k).isSome) _ _ rfl fun V h _ _ => h
  · rw [Warp.fibre?_mapFibres]
    · split
      · exact Option.isSome_map
      · rfl
    · exact fun _ => rfl

theorem settle_isSome (W : Warp) (k : Nat) : (W.settle.fibre? k).isSome = (W.fibre? k).isSome :=
  List.foldlRecOn (motive := fun V : Warp => (V.fibre? k).isSome = (W.fibre? k).isSome) _ applyLoad rfl fun V h p _ =>
    (applyLoad_isSome V p k).trans h

/-- A frame that is read, or cannot be, changes translations alone. -/
theorem frameRead_unwalked {s : State} {w : Nat} (idle : drainAll s w = s) (off n : Nat) :
    (frameRead s w off n).2.unwalked = s.unwalked := by
  unfold frameRead
  simp only [idle]
  split
  · rfl
  · have checked := structCheck_unwalked (s.warp w).ctx .read (piecesOf (((s.warp w).seg .trap).baseAddr + off) n) s
    generalize structCheck s _ _ _ = x at checked ⊢
    obtain ⟨r, t⟩ := x
    cases r with
    | error e => exact checked
    | ok ps =>
      dsimp only
      split
      · exact checked
      · split <;> exact checked

/-- The group of fibres that a handler's end leaves, in the handler around it. -/
def outerFrag (rest : List Handler) : BitVec 16 := match rest with | p :: _ => p.id | [] => 0

/-- The warp after its group has left a handler by a frame. -/
def Warp.resumed (W : Warp) (three : Bool) (bs : List Byte) (group : List Nat) (rest : List Handler) : Warp :=
  { W.mapFibres group (fibreFrom three bs W.window (BitVec.ofNat 56 (field bs 8 8)) (outerFrag rest)) with
    handlers := rest
    sregs := (List.range 60).foldl (fun t r => Tab.write (0 : Word) t r
      (BitVec.ofNat 32 (field bs (0x80 + 1536 * W.window + 0xD80 + 4 * r) 4))) W.sregs
    cpreds := (byteAt bs (0x80 + 1536 * W.window + 0xE80)).setWidth 7 }

/-- A frame with an address of code takes the whole group of a handler back. -/
theorem leaveHandler_leaves {s s1 : State} {w : Nat} {group : List Nat} {h : Handler} {rest : List Handler} {bs : List Byte}
    (running : (s.warp w).handlers = h :: rest) (whole : handlerLive (s.warp w) h = group)
    (frame : frameRead s w ((s.warp w).sval true 58) (frameBytes (s.warp w).window) = (.ok bs, s1))
    (aligned : field bs 8 8 % 4 = 0) (code : field bs 8 8 < 2 ^ 56) :
    leaveHandler s w group = (.ok (s1.setWarp w ((s1.warp w).settle.resumed (s1.three (s1.warp w).settle) bs group rest)),
      s1.setWarp w ((s1.warp w).settle.resumed (s1.three (s1.warp w).settle) bs group rest)) := by
  have legal : (decide (field bs 8 8 % 4 ≠ 0) || decide (field bs 8 8 / 2 ^ 56 ≠ 0)) = false := by
    rw [aligned, Nat.div_eq_of_lt code]; rfl
  unfold leaveHandler
  simp only [running, whole, ne_eq, not_true_eq_false, if_false, frame]
  rw [if_neg (by simpa using legal)]
  rfl

/-- RESUME of the whole group of the running handler. -/
theorem resume_leaves {e : Bool} {s s1 : State} {c : Issue} {h : Handler} {rest : List Handler} {bs : List Byte}
    (hc : s.cur = some c) (running : (s.warp c.warp).handlers = h :: rest)
    (inside : ∀ f ∈ groupOf (s.warp c.warp) c, f.frag = h.id)
    (whole : handlerLive (s.warp c.warp) h = (groupOf (s.warp c.warp) c).map (·.slot))
    (frame : frameRead s c.warp ((s.warp c.warp).sval true 58) (frameBytes (s.warp c.warp).window) = (.ok bs, s1))
    (aligned : field bs 8 8 % 4 = 0) (code : field bs 8 8 < 2 ^ 56) (kept : s1.warp c.warp = s.warp c.warp) :
    exec (.resume e) s = .next (s1.setWarp c.warp ((s.warp c.warp).settle.resumed (s1.three (s.warp c.warp).settle) bs
      ((groupOf (s.warp c.warp) c).map (·.slot)) rest)) := by
  have mine : (groupOf (s.warp c.warp) c).all (fun f => f.frag == h.id) = true :=
    List.all_eq_true.mpr fun f hf => beq_iff_eq.mpr (inside f hf)
  have free : handlerFree (s.warp c.warp) (groupOf (s.warp c.warp) c) = true := by rw [handlerFree, running]; exact mine
  have handling : inHandler (s.warp c.warp) c = true := by rw [inHandler, running]; exact mine
  have leaves := leaveHandler_leaves running whole frame aligned code
  rw [kept] at leaves
  show execResume e s = _
  unfold execResume
  simp only [hc, free, handling, leaves, Bool.not_true, Bool.false_eq_true, if_false]

/-- What RESUME leaves of the warp. -/
theorem resumed_fields (W : Warp) (three : Bool) (bs : List Byte) (group : List Nat) (rest : List Handler) :
    (W.resumed three bs group rest).handlers = rest
      ∧ (Tab.rising none W.sregs = true → ∀ r, r < 60 →
        (W.resumed three bs group rest).sreg r = field bs (0x80 + 1536 * W.window + 0xD80 + 4 * r) 4)
      ∧ (W.resumed three bs group rest).cpreds = BitVec.ofNat 7 (field bs (0x80 + 1536 * W.window + 0xE80) 1)
      ∧ ∀ k, (W.resumed three bs group rest).fibre? k = if group.contains k then
          (W.fibre? k).map (fibreFrom three bs W.window (BitVec.ofNat 56 (field bs 8 8)) (outerFrag rest))
        else W.fibre? k := by
  refine ⟨rfl, fun rising r hr => ?_, ?_, fun k =>
    Warp.fibre?_mapFibres W group (g := fibreFrom three bs W.window (BitVec.ofNat 56 (field bs 8 8)) (outerFrag rest))
      (fun _ => rfl) k⟩
  · rw [Warp.sreg, Warp.resumed,
      read_writes (fun r => BitVec.ofNat 32 (field bs (0x80 + 1536 * W.window + 0xD80 + 4 * r) 4)) 60 r rising hr,
      BitVec.toNat_ofNat, Nat.mod_eq_of_lt (field_lt bs _)]
  · rw [Warp.resumed, field_byte, BitVec.ofNat_toNat]

/-- Bytes over which no operation stands are as they are. -/
theorem overlay_nil (sram : Option Nat) : ∀ (a : Nat) (bs : List Byte), overlay [] sram a bs = bs
  | _, [] => rfl
  | a, b :: t => congrArg (b :: ·) (overlay_nil sram (a + 1) t)

/-- A frame in its warp's own trap area, whose pages may be read and whose lines are not poisoned, is read. -/
theorem frameRead_reads {s s1 : State} {w off n : Nat} {ps : List (Place × Nat)} (idle : drainAll s w = s)
    (none_ : (s.warp w).storeQ = []) (low : (s.warp w).area * ((s.warp w).seg .trap).size ≤ off)
    (high : off + n ≤ ((s.warp w).area + 1) * ((s.warp w).seg .trap).size)
    (fits : ((s.warp w).seg .trap).baseAddr + off + n ≤ 2 ^ 56)
    (checked : structCheck s (s.warp w).ctx .read (piecesOf (((s.warp w).seg .trap).baseAddr + off) n) = (.ok ps, s1))
    (clean : ∀ y ∈ ps, poisoned s1 y.1 y.2 = false) :
    frameRead s w off n = (.ok (ps.flatMap fun y => freshBytes s1 y.1 (y.1.base + y.1.off) y.2), s1) := by
  have inside : (decide (off < (s.warp w).area * ((s.warp w).seg .trap).size)
      || decide (((s.warp w).area + 1) * ((s.warp w).seg .trap).size < off + n)
      || decide (2 ^ 56 < ((s.warp w).seg .trap).baseAddr + off + n)) = false := by simp; omega
  have found : (ps.find? fun y => poisoned s1 y.1 y.2) = none :=
    List.find?_eq_none.mpr fun y hy => by simp [clean y hy]
  unfold frameRead
  simp only [idle]
  rw [if_neg (by simpa using inside), checked]
  dsimp only
  rw [found, none_]
  simp [queuedRed, overlay_nil]

/-- Settles O30: the group goes on by the frame that `frameRead` gives; it is read where its place allows it, and translations
alone change with it. -/
theorem resuming : Obligations.Resuming := by
  unfold Obligations.Resuming
  refine ⟨fun e s c h rest bs s1 hc running inside whole none_ home frame aligned code save hsave => ?returns,
    fun e s c hc outside => ?outside,
    fun e s c h rest hc running inside whole none_ home off n limit ea hoff hn hlimit hea low high fits ps s1 checked clean
      pc hpc aligned code => ?completes⟩
  case returns =>
    have unwalked := frameRead_unwalked (drainAll_idle none_ home) ((s.warp c.warp).sval true 58)
      (frameBytes (s.warp c.warp).window)
    rw [frame] at unwalked
    have kept : s1.warp c.warp = s.warp c.warp := (congrArg (fun u : State => u.warp c.warp) unwalked :)
    obtain ⟨handlers, sregs, cpreds, fibres⟩ := resumed_fields (s.warp c.warp).settle (s1.three (s.warp c.warp).settle) bs
      ((groupOf (s.warp c.warp) c).map (·.slot)) rest
    refine ⟨_, resume_leaves hc running inside whole frame aligned code kept, ?_⟩
    rw [State.warp_setWarp, if_pos rfl, hsave, ← settle_window]
    refine ⟨handlers, sregs, cpreds, (congrArg State.mem unwalked :), fun k hk => (fibres k).trans (if_pos hk)⟩
  case outside =>
    have free : handlerFree (s.warp c.warp) (groupOf (s.warp c.warp) c) = true := by rw [handlerFree, outside]
    have handling : inHandler (s.warp c.warp) c = false := by rw [inHandler, outside]
    show execResume e s = uniformTrap (.strap e 0x3FFFF) 0x3FFFF s
    unfold execResume
    simp only [hc, free, handling, Bool.not_true, Bool.not_false, Bool.false_eq_true, if_false, if_true]
  case completes =>
    subst hoff hn hlimit hea
    have idle := drainAll_idle none_ home
    have frame := frameRead_reads idle none_ low high fits checked clean
    have unwalked := frameRead_unwalked idle ((s.warp c.warp).sval true 58) (frameBytes (s.warp c.warp).window)
    rw [frame] at unwalked
    rw [hpc] at aligned code
    have kept : ∀ v, s1.warp v = s.warp v := fun v => (congrArg (fun u : State => u.warp v) unwalked :)
    obtain ⟨handlers, -, -, fibres⟩ := resumed_fields (s.warp c.warp).settle (s1.three (s.warp c.warp).settle)
      (ps.flatMap fun y => freshBytes s1 y.1 (y.1.base + y.1.off) y.2) ((groupOf (s.warp c.warp) c).map (·.slot)) rest
    refine ⟨_, resume_leaves hc running inside whole frame aligned code (kept c.warp), ?_⟩
    rw [State.warp_setWarp, if_pos rfl]
    refine ⟨handlers, fun k hk => ?_, fun k hk => (fibres k).trans (if_neg (by rw [hk]; exact Bool.false_ne_true)),
      fun v hv => (State.warp_setWarp _ _ v _).trans ((if_neg hv).trans (kept v)), (congrArg State.mem unwalked :)⟩
    rw [fibres k, if_pos hk, hpc]
    have slots := settle_isSome (s.warp c.warp) k
    cases settled : (s.warp c.warp).settle.fibre? k <;> cases present : (s.warp c.warp).fibre? k
    · rfl
    · simp [settled, present] at slots
    · simp [settled, present] at slots
    · rfl

end Sys2Proof.Machine
end

section
/-! SUPPORT. A state that refutes the statement about halts, stops, discards, deadlines and dumps: RESOURCE_MAP reaches a warp whose
fibres are not in the order of their slots. -/
namespace Sys2Proof.Machine
open Sys2Proof.Claims

/-- A fibre of a slot that is ready at address 0. -/
def readyFibre (k : Nat) : Fibre where
  slot := k
  pc := 0
  tid := 0
  base := 0
  icount := 0
  join := 0
  status := .ready
  frag := 0
  fenced := 0
  yields := false
  lanes := []

/-- Launch 0, which has a trap vector, is owed RESOURCE_MAP; its one warp lists the fibre of slot 1 before that of slot 0. -/
def outOfLine : State := { State.reset with
  warps := [(0, { Warp.absent with residence := .resident, fibres := [readyFibre 1, readyFibre 0] })]
  launches := [(0, { Launch.absent with lrec := { LaunchRec.zero with trapVec := 4 }, rmOwed := [0] })]
  ctxs := [(0, { Ctx.reset with state := .running })] }

/-- There the fragment's mask holds the slots in their own order (R458). -/
theorem resourceMapDeliver_outOfLine :
    ∃ t, exec (.resourceMapDeliver 0) outOfLine = .next t ∧ (t.warp 0).queue.map (·.mask) = [[0, 1]] :=
  ⟨_, rfl, by decide +kernel⟩

/-- Refutes O50: its clause about the delivery of RESOURCE_MAP does not ask that the warp's fibres are in the order of their slots
(`InLine`), and gives the fragment's mask in the order of the fibres. Where the fibre of slot 1 comes before that of slot 0, the mask
of the fragment is `[0, 1]` (R458), and the clause says `[1, 0]`. -/
theorem not_stopsAndDumps : ¬ Obligations.StopsAndDumps := by
  unfold Obligations.StopsAndDumps
  rintro ⟨-, -, -, -, -, -, delivers, -⟩
  obtain ⟨t, delivered, -, diverted⟩ := delivers outOfLine 0 0 0 0 [] rfl (by decide) (by decide) rfl rfl
    ⟨readyFibre 1, by decide, rfl, rfl⟩ (fun f _ _ => Nat.zero_le _)
  obtain ⟨u, delivered', masks⟩ := resourceMapDeliver_outOfLine
  obtain rfl : t = u := Host.Outcome.next.inj (delivered.symm.trans delivered')
  obtain ⟨q, hq, -, -, -, -, mask, -⟩ := diverted.queue 1 (by decide)
  have sorted : q.mask ∈ [[0, 1]] := masks ▸ List.mem_map_of_mem hq
  rw [mask] at sorted
  exact absurd sorted (by decide)

end Sys2Proof.Machine
end

section
/-! SUPPORT. Block faults: the record of one, the replies to it, and what each makes of its owner; and the statement. -/
namespace Sys2Proof.Machine
open Sys2Proof.Claims

/-! ### Records (R472, R489) -/

/-- No record takes a trace where the debug right is not given (R410). -/
theorem trace_off {s : State} {c : Nat} (h : (s.ctx c).dbgr = false) (core ty : Nat) (n : Name) (data : List Byte) :
    trace s c core ty n data = s := by
  unfold trace
  simp only [h, Bool.false_and, Bool.false_eq_true, if_false]

/-- Faults in their order are those faults. -/
theorem mem_insertFault (r x : FaultRec) : ∀ rs : List FaultRec, x ∈ insertFault r rs ↔ x = r ∨ x ∈ rs
  | [] => by simp [insertFault]
  | y :: t => by
    rw [insertFault]
    split
    · simp
    · rw [List.mem_cons, mem_insertFault r x t, List.mem_cons]
      exact or_left_comm

theorem mem_orderFaults (x : FaultRec) (rs : List FaultRec) : x ∈ orderFaults rs ↔ x ∈ rs := by
  have gather : ∀ a : List FaultRec, x ∈ rs.foldl (fun a r => insertFault r a) a ↔ x ∈ rs ∨ x ∈ a := by
    induction rs with
    | nil => simp
    | cons r rs ih =>
      intro a
      rw [List.foldl_cons, ih, mem_insertFault, List.mem_cons]
      tauto
  exact (gather []).trans (or_iff_left (List.not_mem_nil))

/-- An owner all of whose records stand in the ring reports nothing more. -/
theorem reportOwner_reported {s : State} {o : Owner} (h : ∀ r ∈ faultsOf s o, r.num.isSome = true) : reportOwner s o = s := by
  unfold reportOwner
  exact if_pos (List.all_eq_true.mpr fun r hr => h r ((mem_orderFaults r _).mp hr))

/-- A record is written where the ring has room. -/
theorem writeRecord_writes {s u v : State} {c core : Nat} {r : FaultRec} (room : ((s.ctx c).bfhead - (s.ctx c).bftail).toNat < 64)
    (written : structWrite s c ((s.ctx c).savearea.toNat + 64 * ((s.ctx c).bfhead.toNat % 64)) r.bytes = (.ok u, v))
    (quiet : (u.ctx c).dbgr = false) :
    writeRecord s c core r
      = (some (s.ctx c).bfhead.toNat, setEvent (u.modCtx c fun C => { C with bfhead := C.bfhead + 1 }) c 1) := by
  have off : ((setEvent (u.modCtx c fun C => { C with bfhead := C.bfhead + 1 }) c 1).ctx c).dbgr = false := by
    rw [setEvent, State.ctx_modCtx_same, State.ctx_modCtx_same]
    exact quiet
  unfold writeRecord
  simp only [faultRing, if_neg (Nat.not_le.mpr room), written, trace_off off]

/-- An owner that is saved with one record, which may be answered, has it written. -/
theorem reportOwner_writes {s u v : State} {o : Owner} {r : FaultRec} (one : faultsOf s o = [r]) (new : r.num = none)
    (saved : ownerSaved s o = true) (alive : r.alive = true) {c : Nat} (hc : c = ownerCtx s o)
    (room : ((s.ctx c).bfhead - (s.ctx c).bftail).toNat < 64)
    (written : structWrite s c ((s.ctx c).savearea.toNat + 64 * ((s.ctx c).bfhead.toNat % 64)) r.bytes = (.ok u, v))
    (quiet : (u.ctx c).dbgr = false) :
    reportOwner s o = setFaults (setEvent (u.modCtx c fun C => { C with bfhead := C.bfhead + 1 }) c 1) o
      [{ r with num := some (s.ctx c).bfhead.toNat }] := by
  subst hc
  have order : orderFaults (faultsOf s o) = [r] := by rw [one]; rfl
  unfold reportOwner
  simp only [order, List.all_cons, new, Option.isSome_none, Bool.false_and, Bool.false_eq_true, if_false, saved, Bool.not_true,
    Bool.and_false, writeRecords, writeRecord_writes room written quiet, alive, if_true]

/-- A block fault of an owner that is saved writes its record alone. -/
theorem stopOwner_saved {s : State} {o : Owner} (saved : ownerSaved s o = true) : stopOwner s o = (true, s) := by
  rw [stopOwner, endUnsaved, if_pos saved, saveEnded, if_pos saved]

/-! ### Replies (R473) -/

/-- The owner of a record holds it. -/
theorem recordOwner_holds {s : State} {c n : Nat} {o : Owner} (h : recordOwner s c n = some o) :
    ∃ r ∈ faultsOf s o, r.num = some n := by
  have holds := List.find?_some h
  obtain ⟨r, hr, ok⟩ := List.any_eq_true.mp holds
  simp only [Bool.and_eq_true, beq_iff_eq] at ok
  exact ⟨r, hr, ok.1.1⟩

/-- A warp with faults is there. -/
theorem warp_of_faults {s : State} {w : Nat} {r : FaultRec} (h : r ∈ (s.warp w).faults) :
    ∃ W, Tab.find s.warps w = some W := by
  cases found : Tab.find s.warps w with
  | none => rw [State.warp, found] at h; exact absurd h (by simp [Warp.absent])
  | some W => exact ⟨W, rfl⟩

/-- A block with faults is there. -/
theorem blk_of_faults {s : State} {b : Nat} {r : FaultRec} (h : r ∈ (s.blk b).faults) :
    ∃ B, Tab.find s.blocks b = some B := by
  cases found : Tab.find s.blocks b with
  | none => rw [State.blk, found] at h; exact absurd h (by simp [Block.absent])
  | some B => exact ⟨B, rfl⟩

/-- A reply that is no more than noted counts as progress (R484). -/
theorem replied_modCtx (s : State) (c : Nat) (v : Double) :
    replied (s.modCtx c fun C => { C with bfreply := v }) c
      = s.modCtx c fun C => { C with bfreply := v, blockedSince := none } :=
  State.modCtx_modCtx s c _ _

/-- The faults that an owner is given. -/
theorem faultsOf_setFaults {s : State} {o : Owner} {r : FaultRec} (h : r ∈ faultsOf s o) (rs : List FaultRec) :
    faultsOf (setFaults s o rs) o = rs := by
  cases o with
  | warp w =>
    obtain ⟨W, found⟩ := warp_of_faults h
    exact congrArg Warp.faults (State.warp_modWarp_of s w _ found)
  | blk b =>
    obtain ⟨B, found⟩ := blk_of_faults h
    exact congrArg Block.faults (State.blk_modBlk_of s b _ found)

/-- A record that is answered RETRY. -/
def FaultRec.retried (r : FaultRec) : FaultRec := { r with reply := some .retry }

/-- RETRY of an owner's only record renews the owner. -/
theorem retryRecord_renews {s : State} {c n : Nat} {o : Owner} {r : FaultRec} (owner : recordOwner s c n = some o)
    (one : faultsOf s o = [r]) (num : r.num = some n) :
    retryRecord s c n = renewOwner (setFaults (replied s c) o [r.retried]) o := by
  have same : faultsOf (replied s c) o = [r] := by cases o <;> exact one
  have noted : noteReply (replied s c) o n .retry = setFaults (replied s c) o [r.retried] := by
    rw [noteReply, same, List.map_singleton, if_pos num]; rfl
  have answered := faultsOf_setFaults (s := replied s c) (same ▸ List.mem_singleton_self r) [r.retried]
  unfold retryRecord
  simp only [owner, noted, answered]
  exact if_pos (by simp [FaultRec.retried])

/-- No report is left that nothing answers. -/
theorem retried_left {s : State} {o : Owner} {r : FaultRec} {n : Nat} (h : r ∈ faultsOf s o) (num : r.num = some n) :
    (faultsOf (setFaults s o [r.retried]) o).filter (fun r => !r.alive && r.num.isNone) = [] := by
  rw [faultsOf_setFaults h]
  simp [FaultRec.retried, num]

/-- A fibre that faulted is ready again. -/
def Fibre.readied (f : Fibre) : Fibre := if f.status = .faulted then { f with status := .ready } else f

/-- A warp whose faulted fibres are ready again. -/
def Warp.readied (W : Warp) : Warp := { W with fibres := W.fibres.map Fibre.readied }

theorem Fibre.readied_slot (f : Fibre) : f.readied.slot = f.slot := by unfold Fibre.readied; split <;> rfl

theorem Warp.fibre?_readied (W : Warp) (k : Nat) : W.readied.fibre? k = (W.fibre? k).map Fibre.readied :=
  find_map_slot W.fibres Fibre.readied Fibre.readied_slot k

/-- A block whose Foreman goes on, and whose failed copies execute again. -/
def Block.renewed (B : Block) : Block :=
  { B with
    faults := []
    fm := B.fm.map fun F => { F with stopped := false }
    carter := { B.carter with cmds := B.carter.cmds.map renewCopy } }

theorem renewOwner_warp {s : State} {w : Nat}
    (left : (faultsOf s (.warp w)).filter (fun r => !r.alive && r.num.isNone) = []) :
    renewOwner s (.warp w) = (s.modWarp w Warp.readied).modWarp w fun W => { W with faults := [] } := by
  rw [renewOwner, left]; rfl

theorem renewOwner_blk {s : State} {b : Nat}
    (left : (faultsOf s (.blk b)).filter (fun r => !r.alive && r.num.isNone) = []) :
    renewOwner s (.blk b) = (s.mapWarps fun _ W => if W.blk = some b then W.readied else W).modBlk b Block.renewed := by
  rw [renewOwner, left]; rfl

/-- What RETRY leaves of a spawned warp: no fault, and its fibres execute again. -/
theorem retryRecord_warp {s : State} {c n w : Nat} {r : FaultRec} (owner : recordOwner s c n = some (.warp w))
    (one : (s.warp w).faults = [r]) (num : r.num = some n) :
    ((retryRecord s c n).warp w).faults = []
      ∧ ∀ k, ((retryRecord s c n).warp w).fibre? k = ((s.warp w).fibre? k).map Fibre.readied := by
  have held : r ∈ (s.warp w).faults := one ▸ List.mem_singleton_self r
  obtain ⟨W, found⟩ := warp_of_faults held
  have left := retried_left (s := replied s c) (o := .warp w) held num
  have renewed := retryRecord_renews owner one num
  have present : Tab.find (setFaults (replied s c) (.warp w) [r.retried]).warps w = some { W with faults := [r.retried] } :=
    (Tab.find_modify s.warps w w _).trans (by rw [if_pos rfl, found]; rfl)
  have after : (retryRecord s c n).warp w = { W.readied with faults := [] } := by
    rw [renewed, renewOwner_warp left]
    refine (congrArg (·.getD Warp.absent) (Tab.find_modify _ w w _)).trans ?_
    rw [if_pos rfl]
    refine (congrArg (fun x => (Option.map _ x).getD Warp.absent) (Tab.find_modify _ w w _)).trans ?_
    rw [if_pos rfl, present]
    rfl
  rw [after]
  exact ⟨rfl, fun k => (Warp.fibre?_readied W k).trans (by rw [State.warp, found]; rfl)⟩

/-- What RETRY leaves of a block: no fault, its Foreman goes on, and the fibres of its warps execute again. -/
theorem retryRecord_blk {s : State} {c n b : Nat} {r : FaultRec} (owner : recordOwner s c n = some (.blk b))
    (one : (s.blk b).faults = [r]) (num : r.num = some n) :
    ((retryRecord s c n).blk b).faults = [] ∧ (∀ F, ((retryRecord s c n).blk b).fm = some F → F.stopped = false)
      ∧ ∀ w W, Tab.find s.warps w = some W → W.blk = some b →
          ∀ k, ((retryRecord s c n).warp w).fibre? k = (W.fibre? k).map Fibre.readied := by
  have held : r ∈ (s.blk b).faults := one ▸ List.mem_singleton_self r
  obtain ⟨B, found⟩ := blk_of_faults held
  have left := retried_left (s := replied s c) (o := .blk b) held num
  rw [retryRecord_renews owner one num, renewOwner_blk left]
  have present : Tab.find (setFaults (replied s c) (.blk b) [r.retried]).blocks b = some { B with faults := [r.retried] } :=
    (Tab.find_modify s.blocks b b _).trans (by rw [if_pos rfl, found]; rfl)
  have after : (((setFaults (replied s c) (.blk b) [r.retried]).mapWarps fun _ W =>
      if W.blk = some b then W.readied else W).modBlk b Block.renewed).blk b
        = ((setFaults (replied s c) (.blk b) [r.retried]).blk b).renewed := State.blk_modBlk_of _ b _ present
  rw [after]
  refine ⟨rfl, fun F hF => ?_, fun w W hW hb k => ?_⟩
  · obtain ⟨A, -, rfl⟩ := Option.map_eq_some_iff.mp hF
    rfl
  · have warp : Tab.find ((setFaults (replied s c) (.blk b) [r.retried]).mapWarps fun _ W =>
        if W.blk = some b then W.readied else W).warps w = some W.readied :=
      (State.find_mapWarps _ _ w).trans ((congrArg (Option.map _) hW).trans (congrArg some (if_pos hb)))
    refine Eq.trans (congrArg (fun x : Option Warp => (x.getD Warp.absent).fibre? k) warp) ?_
    exact Warp.fibre?_readied W k

/-! ### The end of an owner (R473, R483) -/

/-- A warp that is killed is gone. -/
theorem killWarp_gone (s : State) (w : Nat) : ∀ e ∈ (killWarp s w).warps, e.1 ≠ w := fun _ he =>
  bne_iff_ne.mp (List.mem_filter.mp he).2

theorem trimSave_warps (s : State) (c : Nat) : (trimSave s c).warps = s.warps := by unfold trimSave; split <;> rfl

/-- So is one whose record is answered KILL. -/
theorem killOwner_gone (s : State) (w : Nat) (r : FaultRec) : ∀ e ∈ (killOwner s (.warp w) r).warps, e.1 ≠ w := by
  have killed : ∃ t q c, killOwner s (.warp w) r = trimSave (kill t (.warp w) q) c := ⟨_, _, _, rfl⟩
  obtain ⟨t, q, c, killed⟩ := killed
  rw [killed, trimSave_warps]
  exact killWarp_gone _ w

/-- A context fault changes warps as its trace record does. -/
theorem ctxFault_unwatched (s : State) (c core : Nat) (l : Option Nat) (code detail addr : Nat) (n : Name) (sec : Option Nat) :
    (ctxFault s c core l code detail addr n sec).unwatched = s.unwatched := by
  refine Eq.trans ?_ (trace_unwatched s c core 3 n (faultData code 0 addr))
  unfold ctxFault
  simp only
  split
  · rfl
  · cases l <;> rfl

/-- No warp comes that was not there. -/
theorem gone_of_unwatched {s t : State} {w : Nat} (h : t.unwatched = s.unwatched) (gone : ∀ e ∈ s.warps, e.1 ≠ w) :
    ∀ e ∈ t.warps, e.1 ≠ w := fun e he => by
  have listed : (e.1, e.2.unwatched) ∈ s.unwatched := h ▸ List.mem_map_of_mem he
  obtain ⟨d, hd, same⟩ := List.mem_map.mp listed
  exact (Prod.mk.inj same).1 ▸ gone d hd

/-- A second fault leaves the one that is being reported, and EVENT takes its code (R504). -/
theorem spoilt_page (C : Ctx) (e : Double) (code detail addr : Nat) :
    (((C.setEvent e).inform code detail addr).spoil code).fault = C.fault
      ∧ (((C.setEvent e).inform code detail addr).spoil code).event = e := ⟨rfl, rfl⟩

/-- A context fault is reported of its context, whose EVENT takes the code. -/
theorem ctxFault_reports (s : State) (c core : Nat) (l : Option Nat) (code detail addr : Nat) (n : Name) (sec : Option Nat) :
    ((ctxFault s c core l code detail addr n sec).ctx c).fault.isSome = true
      ∧ ∃ v, ((ctxFault s c core l code detail addr n sec).ctx c).event = eventWith v code 2 := by
  unfold ctxFault
  generalize trace s c core 3 n (faultData code 0 addr) = t
  have page : ∀ (u : State) (C : Ctx), (u.setCtx c C).ctx c = C := fun u C => (State.ctx_setCtx u c c C).trans (if_pos rfl)
  simp only
  split
  next x already =>
    rw [page]
    obtain ⟨fault, event⟩ := spoilt_page (t.ctx c) (eventWith (t.ctx c).event code 2) code detail addr
    exact ⟨by rw [fault, already]; rfl, _, event⟩
  next first =>
    cases l with
    | none => dsimp only; rw [page]; exact ⟨rfl, (t.ctx c).event, rfl⟩
    | some l => dsimp only; rw [launchFault, State.ctx_modLaunch, page]; exact ⟨rfl, (t.ctx c).event, rfl⟩

/-- A block of which nothing was seen outside is made anew, and its warps are forgotten. -/
theorem restartBlock_leaves (s : State) (b : Nat) :
    (restartBlock s b).blk b = freshBlock (s.launch (s.blk b).launch) (s.blk b)
      ∧ ∀ e ∈ (restartBlock s b).warps, e.2.blk ≠ some b := by
  refine ⟨(State.blk_setBlk _ b b _).trans (if_pos rfl), fun e he mine => ?_⟩
  obtain ⟨present, other⟩ := List.mem_filter.mp he
  have listed : e.1 ∈ warpsOf s b := List.mem_map_of_mem (List.mem_filter.mpr ⟨present, beq_iff_eq.mpr mine⟩)
  rw [List.contains_iff_mem.mpr listed] at other
  exact absurd other (by decide)

/-! ### Writes of BFREPLY and BFTAIL -/

/-- A context with its reply. -/
def State.withReply (s : State) (c : Nat) (v : Double) : State := s.modCtx c fun C => { C with bfreply := v }

/-- A reply to a record that no owner holds is no more than noted. -/
theorem records_none {s : State} {c n : Nat} (h : recordOwner s c n = none) :
    retryRecord s c n = replied s c ∧ killRecord s c n = replied s c ∧ restartRecord s c n = replied s c := by
  refine ⟨?_, ?_, ?_⟩
  · unfold retryRecord; rw [h]
  · unfold killRecord; rw [h]
  · unfold restartRecord; rw [h]

/-- KILL ends the owner of a record. -/
theorem killRecord_kills {s : State} {c n : Nat} {o : Owner} {r : FaultRec} (owner : recordOwner s c n = some o)
    (found : (faultsOf s o).find? (fun r => r.num == some n) = some r) :
    killRecord s c n = killOwner (replied s c) o r := by
  unfold killRecord
  simp only [owner, found]

/-- RESTART of a spawned warp kills it, and its context takes IDEMPOTENCE_LOST. -/
theorem restartRecord_warp {s : State} {c n w : Nat} {r : FaultRec} (owner : recordOwner s c n = some (.warp w))
    (found : (s.warp w).faults.find? (fun r => r.num == some n) = some r) :
    restartRecord s c n = ctxFault (killOwner (replied s c) (.warp w) r) c (s.warp w).core (some (s.warp w).launch)
      codeIdempotenceLost 0 0 r.name none := by
  have found' : (faultsOf s (.warp w)).find? (fun r => r.num == some n) = some r := found
  unfold restartRecord
  simp only [owner, found']
  rfl

/-- RESTART of a block of an idempotent launch that has not committed makes it anew. -/
theorem restartRecord_blk {s : State} {c n b : Nat} (owner : recordOwner s c n = some (.blk b))
    (idempotent : (s.launch (s.blk b).launch).lrec.idempotent = true) (new : (s.blk b).committed = false) :
    restartRecord s c n = trimSave (restartBlock (replied s c) b) c := by
  obtain ⟨r, hr, num⟩ := recordOwner_holds owner
  have found : ((faultsOf s (.blk b)).find? fun r => r.num == some n).isSome = true :=
    List.find?_isSome.mpr ⟨r, hr, beq_iff_eq.mpr num⟩
  obtain ⟨q, found⟩ := Option.isSome_iff_exists.mp found
  unfold restartRecord
  simp only [owner, found, idempotent, new, Bool.not_true, Bool.false_eq_true, if_false]

/-- A block that holds a record is there, in some state. -/
theorem fates_of_record {s : State} {b : Nat} {r : FaultRec} (h : r ∈ (s.blk b).faults) : ∃ x, s.fates b = some x := by
  obtain ⟨B, found⟩ := blk_of_faults h
  exact ⟨_, congrArg (Option.map _) found⟩

/-- A block fault that is no soft error has its work saved, unless that waits, and its records written. -/
theorem execBlockFaultSave_saves {s : State} {o : Owner} (hard : ∀ r ∈ faultsOf s o, r.code ≠ codeSoftError)
    (some_ : faultsOf s o ≠ []) :
    exec (.blockFaultSave o) s = .next (reportOwner
      (if ownerFaulted s o && !(s.ctx (ownerCtx s o)).saveWaits then (stopOwner s o).2 else s) o) := by
  have none_ : ((faultsOf s o).find? fun r => r.code == codeSoftError) = none :=
    List.find?_eq_none.mpr fun r hr => by simp [hard r hr]
  show execBlockFaultSave o s = _
  unfold execBlockFaultSave
  rw [none_]
  exact if_neg some_

/-- Owners all of whose records stand in the ring report nothing more. -/
theorem foldl_reportOwner_reported {s : State} : ∀ os : List Owner,
    (∀ o ∈ os, ∀ r ∈ faultsOf s o, r.num.isSome = true) → os.foldl reportOwner s = s
  | [], _ => rfl
  | o :: os, h => by
    rw [List.foldl_cons, reportOwner_reported (h o (List.mem_cons_self ..)),
      foldl_reportOwner_reported os fun p hp => h p (List.mem_cons_of_mem _ hp)]

/-- Settles O49, clause by clause: reports by `reportOwner_writes`, replies by what `retryRecord`, `killRecord` and `restartRecord`
make of the owner of a record. -/
theorem blockFaults : Obligations.BlockFaults := by
  unfold Obligations.BlockFaults
  refine ⟨fun s o r soft => ?soft, fun s o hard some_ stops goes => ?saves,
    fun s o r a u v one hard alive new saved c hc goes room ha written quiet => ?reports,
    fun s c v ide reported => ?tail, fun s c n ide none_ => ?noted,
    fun s c n w r ide owner one num =>
      ⟨_, congrArg Host.Outcome.next (if_pos ide), retryRecord_warp (s := s.withReply c _) owner one num⟩,
    fun s c n b r ide owner one num =>
      ⟨_, congrArg Host.Outcome.next (if_pos ide), retryRecord_blk (s := s.withReply c _) owner one num⟩,
    fun s c n b r ide owner found => ⟨_, congrArg Host.Outcome.next (if_pos ide), ?killBlock⟩,
    fun s c n w r ide owner found => ⟨⟨_, congrArg Host.Outcome.next (if_pos ide), ?killWarp⟩, ?restartWarp⟩,
    fun s c n b ide owner idempotent new => ⟨_, congrArg Host.Outcome.next (if_pos ide), ?restartBlock⟩⟩
  case soft =>
    show execBlockFaultSave o s = _
    unfold execBlockFaultSave
    rw [soft]
  case saves =>
    rw [execBlockFaultSave_saves hard some_, if_pos (by rw [stops, goes]; rfl)]
  case reports =>
    subst hc ha
    have faulted : ownerFaulted s o = true := by rw [ownerFaulted, one, List.any_cons, alive]; rfl
    have some_ : faultsOf s o ≠ [] := by rw [one]; exact List.cons_ne_nil _ _
    have only : ∀ q ∈ faultsOf s o, q.code ≠ codeSoftError := fun q hq => by
      rw [one, List.mem_singleton] at hq
      exact hq ▸ hard
    rw [execBlockFaultSave_saves only some_, faulted, goes, stopOwner_saved saved]
    exact congrArg Host.Outcome.next (reportOwner_writes one new saved alive rfl room written quiet)
  case tail =>
    refine (if_pos ide).trans (congrArg Host.Outcome.next (foldl_reportOwner_reported _ fun o ho r hr => reported o ho r ?_))
    cases o <;> exact hr
  case noted =>
    have replies : ∀ v, (retryRecord (s.withReply c v) c n.toNat = replied (s.withReply c v) c)
        ∧ killRecord (s.withReply c v) c n.toNat = replied (s.withReply c v) c
        ∧ restartRecord (s.withReply c v) c n.toNat = replied (s.withReply c v) c :=
      fun v => records_none (s := s.withReply c v) none_
    exact ⟨congrArg Host.Outcome.next ((if_pos ide).trans ((replies _).1.trans (replied_modCtx s c _))),
      congrArg Host.Outcome.next ((if_pos ide).trans ((replies _).2.1.trans (replied_modCtx s c _))),
      congrArg Host.Outcome.next ((if_pos ide).trans ((replies _).2.2.trans (replied_modCtx s c _)))⟩
  case killBlock =>
    obtain ⟨q, hq, -⟩ := recordOwner_holds owner
    obtain ⟨x, stands⟩ := fates_of_record hq
    have killed := killRecord_kills (s := s.withReply c (n.setWidth 64 + 2 ^ 32)) owner found
    exact blk_of_fates (killed.symm ▸ killOwner_fate (s := replied (s.withReply c _) c) stands r)
  case killWarp =>
    have killed := killRecord_kills (s := s.withReply c (n.setWidth 64 + 2 ^ 32)) owner found
    exact killed.symm ▸ killOwner_gone _ w r
  case restartWarp =>
    have restarted := restartRecord_warp (s := s.withReply c (n.setWidth 64 + 2 ^ 33)) owner found
    obtain ⟨fault, v, event⟩ := ctxFault_reports (killOwner (replied (s.withReply c (n.setWidth 64 + 2 ^ 33)) c) (.warp w) r) c
      (s.warp w).core (some (s.warp w).launch) codeIdempotenceLost 0 0 r.name none
    exact ⟨_, v, congrArg Host.Outcome.next ((if_pos ide).trans restarted),
      gone_of_unwatched (ctxFault_unwatched _ _ _ _ _ _ _ _ _) (killOwner_gone _ w r), fault, event⟩
  case restartBlock =>
    have restarted := restartRecord_blk (s := s.withReply c (n.setWidth 64 + 2 ^ 33)) owner idempotent new
    obtain ⟨fresh, gone⟩ := restartBlock_leaves (replied (s.withReply c (n.setWidth 64 + 2 ^ 33)) c) b
    have blocks := trimSave_blocks (restartBlock (replied (s.withReply c (n.setWidth 64 + 2 ^ 33)) c) b) c
    have warps := trimSave_warps (restartBlock (replied (s.withReply c (n.setWidth 64 + 2 ^ 33)) c) b) c
    refine restarted.symm ▸ ⟨?_, warps.symm ▸ gone⟩
    exact (congrArg (fun t : Tab Block => (Tab.find t b).getD Block.absent) blocks).trans fresh

end Sys2Proof.Machine
end

section
/-! SUPPORT. One step of the module, branch by branch; and the statement. -/
namespace Sys2Proof.Machine
open Sys2Proof.Claims

/-- An instruction whose turn has come is executed, and its account follows. -/
theorem step_issue {s t u : State} {i : Instr} (planned : plan s = .issue i t) (run : exec i t = .next u) :
    step s = .next (afterIssue t i u) := by
  rw [step, planned]
  simp only [run]

/-- An event or a Foreman word is executed as it is. -/
theorem step_event {s t : State} {i : Instr} (planned : plan s = .event i t) : step s = exec i t := by
  rw [step, planned]

/-- An instruction that begins is the one in execution. -/
theorem beginIssue_cur (s : State) (c : Issue) : (beginIssue s c).cur = some c := rfl

/-- A group that may issue, whose word is there and decodes, issues that instruction (R27, R175). -/
theorem takeTurn_runs {s s1 : State} {w v : Nat} {ks : List Nat} {pc : VAddr} {i : Instr} (runs : warpRuns s w = true)
    (next : nextGroup s w = some ⟨ks, pc, none, true⟩)
    (free : matching (s.ctx (s.warp w).ctx) 1 (blockIndex s (s.warp w)) pc.toNat = none)
    (fetched : fetchCode s (s.warp w).core (s.warp w).ctx pc.toNat 4 = (.ok v, s1))
    (decoded : decode none (BitVec.ofNat 32 v) = .ok i) :
    takeTurn s w = .run i (beginIssue s1 ⟨w, ks, pc, none, BitVec.ofNat 32 v⟩) := by
  simp only [takeTurn, runs, next, free, ite_self, Bool.not_true, Bool.false_eq_true, if_false, fetchIssue, fetched, decoded]

/-- The word behind an LX word is fetched and decoded with it (R175, R191). -/
theorem takeSecond_runs {s s1 : State} {c : Issue} {lx : Word} {v : Nat} {i : Instr}
    (open_ : codeHeld s (s.warp c.warp).core (s.warp c.warp).ctx (c.pc + 4).toNat 4 = false)
    (fetched : fetchCode s (s.warp c.warp).core (s.warp c.warp).ctx (c.pc + 4).toNat 4 = (.ok v, s1))
    (decoded : decode (some lx) (BitVec.ofNat 32 v) = .ok i) :
    takeSecond s c lx = .run i (beginIssue s1 { c with lx := some lx, word := BitVec.ofNat 32 v }) := by
  simp only [takeSecond, open_, Bool.false_eq_true, if_false, fetched, instrOf, decoded]

/-- Settles O55, a branch of `plan` for each clause. -/
theorem stepRuns : Obligations.StepRuns := by
  unfold Obligations.StepRuns
  refine ⟨fun s w ks pc v s1 i idle unlatched empty focus runs next free fetched decoded t ht => ?issues,
    fun s c lx v s1 i running behind open_ fetched decoded t ht u run => ?second,
    fun s x idle latched => step_event ?latched,
    fun s dt ev rest idle unlatched due => step_event ?due,
    fun s i t idle unlatched empty unfocused ht picked => step_event ?picked,
    fun t neg p r sib imm u => rfl⟩
  case issues =>
    subst ht
    refine ⟨beginIssue_cur _ _, fun u run => step_issue ?_ run⟩
    simp only [plan, idle, unlatched, empty, ordinary, focus, takeTurn_runs runs next free fetched decoded, Turn.plan]
  case second =>
    subst ht
    refine step_issue ?_ run
    simp only [plan, running, behind, takeSecond_runs open_ fetched decoded, Turn.plan]
  case latched => simp only [plan, idle, latched]
  case due => simp only [plan, idle, unlatched, due]
  case picked =>
    subst ht
    simp only [plan, idle, unlatched, empty, ordinary, unfocused, picked]

end Sys2Proof.Machine
end

section
/-! SUPPORT. Uniform operands that are registers or ports of stage rings; and the statement. -/
namespace Sys2Proof.Machine
open Sys2Proof.Claims

/-! ### Ports (R37, R38) -/

/-- An operand that is no port is a register. -/
theorem no_port {w : Bool} {r : Reg} (h : w = true ∨ r.toNat < 60) : (w || decide (r.toNat < 60)) = true := by
  simpa using h

/-- An operand of 60 to 63 is a port. -/
theorem port {r : Reg} (h : 60 ≤ r.toNat) : (false || decide (r.toNat < 60)) = false := by
  simpa using h

/-! ### A token that is pushed (R36) -/

/-- A ring with room counts one token more. -/
theorem Ring.count_push {r : Ring} (room : r.count < 16) (v : Nat) : (r.push v).count = r.count + 1 := by
  unfold Ring.count at *
  simp only [Ring.push]
  bv_omega

/-- A token goes to the slot of the write pointer. -/
theorem Ring.head_push {r : Ring} (sorted : Tab.rising none r.tokens = true) (v : Nat) :
    (r.push v).head = if r.rd.toNat % 16 = r.wr.toNat % 16 then v % 2 ^ 32 else r.head := by
  simp only [Ring.head, Ring.push, Tab.read_write 0 r.tokens _ _ _ sorted]
  split <;> simp

/-- Settles O33. -/
theorem uniformOperands : Obligations.UniformOperands := by
  unfold Obligations.UniformOperands
  refine ⟨fun s c b since w r h => ?reads, fun s c b since r h some_ first => ?takes, fun s c b since r h none_ => ?empty,
    fun s c b since w d v h => ?writes, fun s c b since d v s1 h room first stored => ?pushes,
    fun s c b since d v h full => ?full, fun r v room sorted => ⟨r.count_push room v, fun none_ => ?fills, fun some_ => ?keeps⟩⟩
  case reads => rw [readSource, if_pos (no_port h)]
  case takes =>
    rw [readSource, port h]
    simp only [some_, first, decide_false, Bool.or_false, Bool.false_eq_true, if_false]
    rfl
  case empty =>
    rw [readSource, port h]
    simp only [none_, decide_true, Bool.true_or, if_true, Bool.false_eq_true, if_false]
  case writes => rw [writeDest, if_pos (no_port h)]
  case pushes =>
    rw [writeDest, port h]
    simp only [Nat.not_le.mpr room, first, stored, decide_false, Bool.or_false, Bool.false_eq_true, if_false]
  case full =>
    rw [writeDest, port h]
    simp only [full, decide_true, Bool.true_or, if_true, Bool.false_eq_true, if_false]
  case fills =>
    refine (Ring.head_push sorted v).trans (if_pos ?_)
    unfold Ring.count at none_
    bv_omega
  case keeps =>
    refine (Ring.head_push sorted v).trans (if_neg ?_)
    unfold Ring.count at some_ room
    bv_omega

end Sys2Proof.Machine
end

section
/-! SUPPORT. That no meaning stops the machine: one lemma for each shared form of a meaning, one for each meaning with
branches of its own; and the statement. -/
namespace Sys2Proof.Machine
open Sys2Proof.Claims

/-- A meaning ends in a next state, and in no fault or refusal. -/
def GoesOn (o : Host.Outcome State Fault Refusal) : Prop := ∃ t, o = .next t

theorem goesOn_next (t : State) : GoesOn (.next t) := ⟨t, rfl⟩

theorem goesOn_ite {p : Prop} [Decidable p] {a b : Host.Outcome State Fault Refusal} (yes : GoesOn a) (no : GoesOn b) :
    GoesOn (if p then a else b) := by
  split
  · exact yes
  · exact no

/-- Both ways of a branch end. -/
theorem goesOn_ite_next {p : Prop} [Decidable p] {t u : State} : GoesOn (if p then .next t else .next u) :=
  goesOn_ite (goesOn_next t) (goesOn_next u)

/-! ### The shared forms of an instruction's meaning (R182, R287) -/

section
variable {s : State}

theorem lanePure_goesOn {x : Lx} {us : List RegUse} {op : LaneEnv → Fibre → LaneOut} (h : s.cur.isSome = true) :
    GoesOn (lanePure x us op s) := by
  obtain ⟨c, hc⟩ := Option.isSome_iff_exists.mp h
  simp only [lanePure, hc]
  exact goesOn_next _

theorem laneFold_goesOn {i : Instr} {x : Lx} {free : Bool} {us : List RegUse}
    {act : State → LaneEnv → Fibre → LaneAct × State} (h : s.cur.isSome = true) : GoesOn (laneFold i x free us act s) := by
  obtain ⟨c, hc⟩ := Option.isSome_iff_exists.mp h
  simp only [laneFold, hc]
  exact goesOn_next _

theorem laneOnce_goesOn {i : Instr} {x : Lx} {us : List RegUse}
    {act : State → LaneEnv → Issue → Fibre → List Fibre → List FibreRes × State} (h : s.cur.isSome = true) :
    GoesOn (laneOnce i x us act s) := by
  obtain ⟨c, hc⟩ := Option.isSome_iff_exists.mp h
  simp only [laneOnce, hc]
  exact goesOn_next _

theorem laneBranch_goesOn {x : Lx} {us : List RegUse} {go : State → LaneEnv → Issue → Fibre → LaneAct × State}
    (h : s.cur.isSome = true) : GoesOn (laneBranch x us go s) := by
  obtain ⟨c, hc⟩ := Option.isSome_iff_exists.mp h
  simp only [laneBranch, hc]
  exact laneFold_goesOn h

theorem abacusOp_goesOn {x : Lx} {k : BitVec 3} {us : List RegUse} {upd : Abacus → List Fibre → Abacus}
    {op : Abacus → LaneEnv → Fibre → LaneOut} (h : s.cur.isSome = true) : GoesOn (abacusOp x k us upd op s) := by
  obtain ⟨c, hc⟩ := Option.isSome_iff_exists.mp h
  simp only [abacusOp, hc]
  exact goesOn_next _

theorem abacusImage_goesOn {i : Instr} {x : Lx} {k : BitVec 3} {seg : Seg} {a : Reg} {kind : AccKind}
    {act : State → LaneEnv → Issue → Fibre → Nat × List Place → Nat × Nat → Except Stop State × State}
    (h : s.cur.isSome = true) : GoesOn (abacusImage i x k seg a kind act s) := by
  unfold abacusImage
  exact laneOnce_goesOn h

theorem warpWide_goesOn {i : Instr} {x : Lx} {mm : Option Reg} {us : List RegUse}
    {op : LaneEnv → List Fibre → Fibre → Except Stop LaneOut} (h : s.cur.isSome = true) : GoesOn (warpWide i x mm us op s) := by
  unfold warpWide
  exact laneOnce_goesOn h

theorem uniform_goesOn {i : Instr} {us : List UniUse} {act : State → Issue → Warp → UniRes × State} (h : s.cur.isSome = true) :
    GoesOn (uniform i us act s) := by
  obtain ⟨c, hc⟩ := Option.isSome_iff_exists.mp h
  simp only [uniform, hc]
  exact goesOn_ite (goesOn_next _) goesOn_ite_next

theorem scalar_goesOn {i : Instr} {w : Bool} {d : Reg} {srcs : List Reg} {f : Warp → List Nat → Nat} (h : s.cur.isSome = true) :
    GoesOn (scalar i w d srcs f s) := by
  unfold scalar
  exact uniform_goesOn h

theorem scalar2_goesOn {i : Instr} {w : Bool} {d a b : Reg} {f : Nat → Nat → Nat} (h : s.cur.isSome = true) :
    GoesOn (scalar2 i w d a b f s) := by
  unfold scalar2
  exact scalar_goesOn h

theorem uniformTrap_goesOn {i : Instr} {n : Nat} (h : s.cur.isSome = true) : GoesOn (uniformTrap i n s) := by
  obtain ⟨c, hc⟩ := Option.isSome_iff_exists.mp h
  simp only [uniformTrap, hc]
  exact goesOn_ite_next

theorem scalarShift_goesOn {i : Instr} {k : Shift} {imm w : Bool} {d a b : Reg} (h : s.cur.isSome = true) :
    GoesOn (scalarShift i k imm w d a b s) :=
  goesOn_ite (uniform_goesOn h) (uniform_goesOn h)

theorem foremanWord_goesOn {act : State → FmIssue → Foreman → FmRes × State} (h : s.fcur.isSome = true) :
    GoesOn (foremanWord act s) := by
  obtain ⟨⟨c, i⟩, hc⟩ := Option.isSome_iff_exists.mp h
  simp only [foremanWord, hc]
  split
  · exact goesOn_next _
  · split
    · exact goesOn_next _
    · exact goesOn_next _
    · exact goesOn_next _

theorem multiply_goesOn {op : Instr} {k : BitVec 4} {pm : PlaneMode} {a b : BitVec 3} {md : Option (BitVec 3)} {sc : Option
    (BitVec 3 × BitVec 3)} (h : s.fcur.isSome = true) : GoesOn (multiply op k pm a b md sc s) := by
  unfold multiply
  exact foremanWord_goesOn h

theorem readOut_goesOn {op : Instr} {ks : List Nat} {ok : Bool} {d : BitVec 3} {fits : Bool → Operand → Bool}
    (h : s.fcur.isSome = true) : GoesOn (readOut op ks ok d fits s) := by
  unfold readOut
  exact foremanWord_goesOn h

/-! ### Instructions with branches of their own -/

theorem execLxWord_goesOn {neg : Bool} {pred : Pred} {rnd : BitVec 3} {sib : BitVec 2} {imm : BitVec 15}
    (h : s.cur.isSome = true) : GoesOn (execLxWord neg pred rnd sib imm s) := by
  obtain ⟨c, hc⟩ := Option.isSome_iff_exists.mp h
  simp only [execLxWord, hc]
  exact goesOn_next _

theorem execMovUniform_goesOn {x : Lx} {w : Bool} {d b : Reg} (h : s.cur.isSome = true) :
    GoesOn (execMovUniform x w d b s) := by
  obtain ⟨c, hc⟩ := Option.isSome_iff_exists.mp h
  simp only [execMovUniform, hc]
  exact goesOn_ite (goesOn_next _) (goesOn_ite (goesOn_next _) (lanePure_goesOn h))

theorem execRcvwait_goesOn {x : Lx} (h : s.cur.isSome = true) : GoesOn (execRcvwait x s) := by
  obtain ⟨c, hc⟩ := Option.isSome_iff_exists.mp h
  obtain ⟨t, ht⟩ := laneFold_goesOn (i := .rcvwait x) (x := x) (free := false) (us := []) (act := rcvwaitFibre c) h
  simp only [execRcvwait, hc, ht]
  exact goesOn_next _

theorem execTrap_goesOn {x : Lx} {n : BitVec 12} (h : s.cur.isSome = true) : GoesOn (execTrap x n s) := by
  obtain ⟨c, hc⟩ := Option.isSome_iff_exists.mp h
  simp only [execTrap, hc]
  exact goesOn_ite_next

theorem execBrkpt_goesOn {x : Lx} (h : s.cur.isSome = true) : GoesOn (execBrkpt x s) := by
  obtain ⟨c, hc⟩ := Option.isSome_iff_exists.mp h
  simp only [execBrkpt, hc]
  exact goesOn_ite (goesOn_next _) (laneBranch_goesOn h)

theorem execResume_goesOn {e : Bool} (h : s.cur.isSome = true) : GoesOn (execResume e s) := by
  obtain ⟨c, hc⟩ := Option.isSome_iff_exists.mp h
  simp only [execResume, hc]
  refine goesOn_ite (goesOn_next _) (goesOn_ite (uniformTrap_goesOn h) ?_)
  split
  · exact goesOn_next _
  · exact goesOn_next _

theorem execUnallocatedEncoding_goesOn {lx : Option Word} {w : Word} (h : s.cur.isSome = true) :
    GoesOn (execUnallocatedEncoding lx w s) := by
  obtain ⟨c, hc⟩ := Option.isSome_iff_exists.mp h
  simp only [execUnallocatedEncoding, hc]
  exact goesOn_next _

theorem execSpawn_goesOn {x : Lx} {n : BitVec 4} {r : Reg} {pd : Pred} {a b : Reg} (h : s.cur.isSome = true) :
    GoesOn (execSpawn x n r pd a b s) := by
  obtain ⟨t, ht⟩ := laneFold_goesOn (i := .spawn x n r pd a b) (x := x) (free := false)
    (us := [two a, two b, ⟨r.toNat, n.toNat, 1⟩]) (act := laneSpawn (curWarp s) n r pd a b) h
  simp only [execSpawn, ht]
  exact goesOn_next _

theorem execWarpMatch_goesOn {x : Lx} {mm : Option Reg} {w : Bool} {d a : Reg} (h : s.cur.isSome = true) :
    GoesOn (execWarpMatch x mm w d a s) := by
  simp only [execWarpMatch]
  exact warpWide_goesOn h

theorem execRdlane_goesOn {e f w : Bool} {d a b : Reg} (h : s.cur.isSome = true) : GoesOn (execRdlane e f w d a b s) := by
  simp only [execRdlane]
  exact uniform_goesOn h

theorem execPollMask_goesOn {x : Lx} {mm : Option Reg} {d : Reg} {pa : Pred} (h : s.cur.isSome = true) :
    GoesOn (execPollMask x mm d pa s) := by
  simp only [execPollMask]
  exact warpWide_goesOn h

theorem execWmask_goesOn {x : Lx} {mm : Option Reg} {d : Reg} (h : s.cur.isSome = true) : GoesOn (execWmask x mm d s) := by
  simp only [execWmask]
  exact warpWide_goesOn h

theorem execAtomc_goesOn {x : Lx} {w : Bool} {o : MemOrd} {sc : Scope} {seg : Seg} {d a b c : Reg} (h : s.cur.isSome = true) :
    GoesOn (execAtomc x w o sc seg d a b c s) := by
  simp only [execAtomc]
  exact laneFold_goesOn h

theorem execSatom_goesOn {e : Bool} {op : AtomOp} {ar : Bool} {ty : BitVec 2} {d a b : Reg} (h : s.cur.isSome = true) :
    GoesOn (execSatom e op ar ty d a b s) := by
  simp only [execSatom]
  exact uniform_goesOn h

theorem execBwait_goesOn {e : Bool} {bn : BitVec 4} {a : Reg} (h : s.cur.isSome = true) : GoesOn (execBwait e bn a s) := by
  obtain ⟨c, hc⟩ := Option.isSome_iff_exists.mp h
  unfold execBwait
  split
  · simp only [hc]
    split
    · exact goesOn_next _
    · exact goesOn_next _
  · next stops => obtain ⟨t, ht⟩ := uniform_goesOn h; exact absurd ht (stops t)

theorem execMend_goesOn (h : s.fcur.isSome = true) : GoesOn (execMend s) := by
  unfold execMend
  split
  · split
    · exact goesOn_next _
    · exact goesOn_next _
  · next stops => obtain ⟨t, ht⟩ := foremanWord_goesOn h; exact absurd ht (stops t)

/-! ### Events with branches of their own -/

theorem execForemanFetch_goesOn {b : Nat} : GoesOn (execForemanFetch b s) := by
  unfold execForemanFetch
  split
  · exact goesOn_next _
  · refine goesOn_ite (goesOn_next _) ?_
    split
    · exact goesOn_next _
    · split
      · exact goesOn_ite_next
      · exact goesOn_next _

theorem execForemanCommandComplete_goesOn {b n : Nat} : GoesOn (execForemanCommandComplete b n s) := by
  unfold execForemanCommandComplete
  simp only
  split
  · exact goesOn_next _
  · split
    · exact goesOn_next _
    · exact goesOn_ite_next

theorem execCopyCommandStart_goesOn {b n : Nat} : GoesOn (execCopyCommandStart b n s) := by
  unfold execCopyCommandStart
  simp only
  split
  · exact goesOn_next _
  · exact goesOn_ite_next

theorem execCopyPieceLand_goesOn {src : PieceSrc} : GoesOn (execCopyPieceLand src s) := by
  unfold execCopyPieceLand
  split
  · exact goesOn_next _
  · exact goesOn_next _

theorem execStoreDrain_goesOn {src : DrainSrc} : GoesOn (execStoreDrain src s) := by
  unfold execStoreDrain
  split
  · exact goesOn_next _
  · exact goesOn_next _

theorem execPageWalkComplete_goesOn {idx : Nat} : GoesOn (execPageWalkComplete idx s) := by
  unfold execPageWalkComplete
  split
  · exact goesOn_next _
  · simp only
    split
    · exact goesOn_next _
    · exact goesOn_next _

theorem execTlbInvalidateComplete_goesOn {idx : Nat} : GoesOn (execTlbInvalidateComplete idx s) := by
  unfold execTlbInvalidateComplete
  split
  · exact goesOn_next _
  · split
    · exact goesOn_next _
    · exact goesOn_next _
    · exact goesOn_next _
    · exact goesOn_next _

theorem execIcinvComplete_goesOn {idx : Nat} : GoesOn (execIcinvComplete idx s) := by
  unfold execIcinvComplete
  split
  · exact goesOn_next _
  · split
    · exact goesOn_next _
    · exact goesOn_next _

theorem execWarpEnd_goesOn {w : Nat} : GoesOn (execWarpEnd w s) := by
  unfold execWarpEnd
  split
  · exact goesOn_next _
  · exact goesOn_ite (goesOn_next _) (goesOn_ite (goesOn_next _) goesOn_ite_next)

theorem execSpawnTimeout_goesOn {core launch : Nat} : GoesOn (execSpawnTimeout core launch s) := by
  unfold execSpawnTimeout
  split
  · exact goesOn_next _
  · exact goesOn_next _

theorem execSpillReturn_goesOn {core launch : Nat} : GoesOn (execSpillReturn core launch s) := by
  unfold execSpillReturn
  refine goesOn_ite (goesOn_next _) ?_
  split
  · exact goesOn_next _
  · exact goesOn_next _

theorem execResourceMapDeliver_goesOn {l : Nat} : GoesOn (execResourceMapDeliver l s) := by
  unfold execResourceMapDeliver
  simp only
  split
  · refine goesOn_ite (goesOn_next _) ?_
    split
    · exact goesOn_next _
    · exact goesOn_next _
  · exact goesOn_next _

theorem execBlockFaultSave_goesOn {o : Owner} : GoesOn (execBlockFaultSave o s) := by
  unfold execBlockFaultSave
  split
  · exact goesOn_next _
  · exact goesOn_ite_next

theorem execCoreDump_goesOn {c : Nat} : GoesOn (execCoreDump c s) := by
  unfold execCoreDump
  simp only
  split
  · exact goesOn_next _
  · refine goesOn_ite (goesOn_next _) ?_
    split
    · exact goesOn_next _
    · refine goesOn_ite (goesOn_next _) ?_
      split
      · exact goesOn_next _
      · exact goesOn_next _

theorem execWorkHalt_goesOn {c : Nat} : GoesOn (execWorkHalt c s) := by
  unfold execWorkHalt
  simp only
  split
  · exact goesOn_next _
  · refine goesOn_ite (goesOn_next _) (goesOn_ite (goesOn_next _) ?_)
    split
    · exact goesOn_next _
    · exact goesOn_next _

theorem execForwardEntryFree_goesOn {core idx : Nat} : GoesOn (execForwardEntryFree core idx s) := by
  unfold execForwardEntryFree
  split
  · exact goesOn_next _
  · exact goesOn_ite_next

theorem execIssueSlotGrant_goesOn {core quarter : Nat} : GoesOn (execIssueSlotGrant core quarter s) := by
  unfold execIssueSlotGrant
  split
  · exact goesOn_next _
  · split
    · exact goesOn_next _
    · exact goesOn_next _

theorem execRunBreak_goesOn {core quarter : Nat} : GoesOn (execRunBreak core quarter s) := by
  unfold execRunBreak
  split
  · exact goesOn_next _
  · refine goesOn_ite (goesOn_next _) ?_
    split
    · exact goesOn_next _
    · exact goesOn_next _

theorem execTaskComplete_goesOn {b : Nat} : GoesOn (execTaskComplete b s) := by
  unfold execTaskComplete
  simp only
  split
  · exact goesOn_next _
  · exact goesOn_ite_next

theorem execResourceMapTimeout_goesOn {c : Nat} : GoesOn (execResourceMapTimeout c s) := by
  unfold execResourceMapTimeout
  simp only
  split
  · exact goesOn_next _
  · exact goesOn_ite_next

theorem execWarpEvict_goesOn {w : Nat} : GoesOn (execWarpEvict w s) := by
  unfold execWarpEvict
  split
  · exact goesOn_next _
  · split
    · exact goesOn_next _
    · exact goesOn_next _

theorem execPowerUp_goesOn : GoesOn (execPowerUp s) := by
  unfold execPowerUp
  simp only
  split
  · exact goesOn_next _
  · exact goesOn_ite (goesOn_next _) goesOn_ite_next

theorem execPowerDown_goesOn : GoesOn (execPowerDown s) := by
  unfold execPowerDown
  split
  · exact goesOn_next _
  · exact goesOn_ite (goesOn_next _) goesOn_ite_next

theorem execLinkLaneFail_goesOn {l : UnitLoss} : GoesOn (execLinkLaneFail l s) := by
  unfold execLinkLaneFail
  split
  · exact goesOn_next _
  · exact goesOn_next _
  · exact goesOn_next _
  · exact goesOn_next _
  · exact goesOn_next _
  · exact goesOn_next _
  · exact goesOn_next _

theorem execHostMemAccess_goesOn {target : HostTarget} {off : Nat} {acc : BusAccess} :
    GoesOn (execHostMemAccess target off acc s) := by
  unfold execHostMemAccess
  split
  · exact goesOn_next _
  · exact goesOn_next _
  · exact goesOn_next _
  · split
    · exact goesOn_next _
    · exact goesOn_next _
    · exact goesOn_next _
    · exact goesOn_next _

theorem execKeyOpComplete_goesOn : GoesOn (execKeyOpComplete s) := by
  unfold execKeyOpComplete
  split
  · exact goesOn_next _
  · exact goesOn_next _

theorem execDeadlockSuspect_goesOn {c : Nat} : GoesOn (execDeadlockSuspect c s) := by
  unfold execDeadlockSuspect
  refine goesOn_ite (goesOn_next _) ?_
  split
  · exact goesOn_next _
  · refine goesOn_ite (goesOn_next _) ?_
    simp only
    split
    · exact goesOn_next _
    · exact goesOn_next _

theorem execPeerInboundAccess_goesOn {port addr : Nat} {acc : BusAccess} : GoesOn (execPeerInboundAccess port addr acc s) := by
  unfold execPeerInboundAccess
  refine goesOn_ite (goesOn_next _) ?_
  simp only
  split
  · exact goesOn_next _
  · split
    · exact goesOn_next _
    · split
      · exact goesOn_next _
      · exact goesOn_ite (goesOn_next _) goesOn_ite_next

theorem execHostSnoop_goesOn {addr : Nat} {k : Snoop} : GoesOn (execHostSnoop addr k s) := by
  unfold execHostSnoop
  refine goesOn_ite (goesOn_next _) ?_
  split
  · exact goesOn_next _
  · exact goesOn_next _

theorem execLaunchComplete_goesOn {l : Nat} : GoesOn (execLaunchComplete l s) := by
  unfold execLaunchComplete
  exact goesOn_ite_next

theorem execLaunchTake_goesOn {c : Nat} : GoesOn (execLaunchTake c s) := by
  unfold execLaunchTake
  exact goesOn_ite (goesOn_next _) goesOn_ite_next

theorem execContextStopComplete_goesOn {c : Nat} : GoesOn (execContextStopComplete c s) := by
  unfold execContextStopComplete
  exact goesOn_ite (goesOn_next _) goesOn_ite_next

theorem execSelfTest_goesOn {core : Nat} {passed : Bool} : GoesOn (execSelfTest core passed s) := by
  unfold execSelfTest
  exact goesOn_ite (goesOn_next _) goesOn_ite_next

theorem execThrottleRelease_goesOn {die : Nat} : GoesOn (execThrottleRelease die s) := by
  unfold execThrottleRelease
  exact goesOn_ite_next

theorem execAttestReportDone_goesOn : GoesOn (execAttestReportDone s) := by
  unfold execAttestReportDone
  exact goesOn_ite (goesOn_next _) goesOn_ite_next

end

/-! ### Every meaning -/

/-- A meaning goes on where what it needs is there: for a lane or uniform instruction an instruction of a warp in execution, and
for a Foreman word one of those. -/
theorem exec_goesOn (i : Instr) (s : State) (lane : isEvent i = false → isForeman i = false → s.cur.isSome = true)
    (word : isEvent i = false → isForeman i = true → s.fcur.isSome = true) : GoesOn (exec i s) := by
  cases i with unfold exec
  | iadd | isub | iaddc | isubb | imul | imulhi | imad | imadw | imin | imax | iabs
  | ineg | andB | orB | xorB | andn | fsh | popc | clz | ctz | brev | bfx | bfi
  | bpick | icmp | sel | mov | movs | movi | movpRd | movpWr | movpLop | fadd | fsub
  | fmul | ffmaF32 | ffmaF64 | fmin | fmax | fminm | fmaxm | fabs | fneg | fcopysign
  | fcmp | fclass | fdiv | fsqrt | frcp | frsq | fex2 | flg2 | fsin | fcos | ftanh
  | frint | fcvt | f2i | i2f | fldexp | ffrexp | digits | agree | sibget | sibput
  | sibrot | sibmean | sibmaj | rdraw | fdp16 | fdp8 | fdpsc | idp4 | idp8 | cvtpk
  | cvtupk | scdec | sparsify | nop | shl | shr | sar | rotl => exact lanePure_goesOn (lane rfl rfl)
  | xclr | xadd | xfma | xget | xstat => exact abacusOp_goesOn (lane rfl rfl)
  | cpa | mwatch | mwait | tcopy | fence | rcvset | yield => exact laneOnce_goesOn (lane rfl rfl)
  | xmerge | xsave | xload => exact abacusImage_goesOn (lane rfl rfl)
  | pollSome | pollEvery | pollSame | pollCount | leadFirst | leadLast | xlane | wred
  | wscan => exact warpWide_goesOn (lane rfl rfl)
  | ld | st | lda | stl | atom | red | pref | ldf | stf | jwait => exact laneFold_goesOn (lane rfl rfl)
  | ret | bra | call | brx | callx | exit | tail => exact laneBranch_goesOn (lane rfl rfl)
  | simmh | scmp | sld | sst | jmp | jc | jx | binit | barrive | btest | bexpect
  | cbar | wait | claim | give | qtryPop | qtryPush | tlrd | tlwait | tagpub | tagrd
  | tqpush | tqtake | ordwait | rdsr | wrsr | segld | icinv | tlbinvPage | tlbinvAsid
  | rmack | snop => exact uniform_goesOn (lane rfl rfl)
  | smov | simm | ssel => exact scalar_goesOn (lane rfl rfl)
  | sadd | ssub | smul | smulhi | sand | sor | sxor | smin | smax => exact scalar2_goesOn (lane rfl rfl)
  | sshl | sshr | ssar => exact scalarShift_goesOn (lane rfl rfl)
  | strap => exact uniformTrap_goesOn (lane rfl rfl)
  | pollMask => exact execPollMask_goesOn (lane rfl rfl)
  | wmask => exact execWmask_goesOn (lane rfl rfl)
  | warpMatch => exact execWarpMatch_goesOn (lane rfl rfl)
  | atomc => exact execAtomc_goesOn (lane rfl rfl)
  | satom => exact execSatom_goesOn (lane rfl rfl)
  | rdlane => exact execRdlane_goesOn (lane rfl rfl)
  | lxWord => exact execLxWord_goesOn (lane rfl rfl)
  | movUniform => exact execMovUniform_goesOn (lane rfl rfl)
  | rcvwait => exact execRcvwait_goesOn (lane rfl rfl)
  | spawn => exact execSpawn_goesOn (lane rfl rfl)
  | trap => exact execTrap_goesOn (lane rfl rfl)
  | brkpt => exact execBrkpt_goesOn (lane rfl rfl)
  | bwait => exact execBwait_goesOn (lane rfl rfl)
  | resume => exact execResume_goesOn (lane rfl rfl)
  | unallocatedEncoding => exact execUnallocatedEncoding_goesOn (lane rfl rfl)
  | mlay | madd | mclr | mbarr | mbwait | mloop | mloopL | mendl | mjmp | mstamp
  | mconfRnd | mconfTs | mconfWph | foremanWordUnallocated => exact foremanWord_goesOn (word rfl rfl)
  | mma | mmas | mmax => exact multiply_goesOn (word rfl rfl)
  | mrd | mcol => exact readOut_goesOn (word rfl rfl)
  | mend => exact execMend_goesOn (word rfl rfl)
  | copyCommandComplete | loadDataReturn | joinEndUpdate | fragmentDeliver | loomChoice | migration
  | yieldExpire | pendingEnqueueDrain | budgetPeriod | surveyDegradation | hourglassLatch | bellowsGrant
  | currentTrip | thermalTrip | correctedError | eventRead | trlostRead | hglostRead | mclostRead
  | pwrstatRead | bfreplyRetry | bfreplyKill | bfreplyRestart | registerWrite | ideEstablished
  | pwrlimWrite | nearpartWrite | fwgoWrite | attgoWrite | keyopLoad | keyopClear | notifyWrite
  | ctxStateStop | ctxStateRun | ctxStateFree | tagclrWrite | rmackWrite | saveAreaWrite
  | dbgctlHalt | dbgctlResume | dbgiclenWrite | debugRightClear => exact goesOn_next _
  | foremanFetch => exact execForemanFetch_goesOn
  | foremanCommandComplete => exact execForemanCommandComplete_goesOn
  | copyCommandStart => exact execCopyCommandStart_goesOn
  | copyPieceLand => exact execCopyPieceLand_goesOn
  | storeDrain => exact execStoreDrain_goesOn
  | pageWalkComplete => exact execPageWalkComplete_goesOn
  | tlbInvalidateComplete => exact execTlbInvalidateComplete_goesOn
  | icinvComplete => exact execIcinvComplete_goesOn
  | warpEnd => exact execWarpEnd_goesOn
  | spawnTimeout => exact execSpawnTimeout_goesOn
  | resourceMapDeliver => exact execResourceMapDeliver_goesOn
  | blockFaultSave => exact execBlockFaultSave_goesOn
  | coreDump => exact execCoreDump_goesOn
  | workHalt => exact execWorkHalt_goesOn
  | forwardEntryFree => exact execForwardEntryFree_goesOn
  | issueSlotGrant => exact execIssueSlotGrant_goesOn
  | runBreak => exact execRunBreak_goesOn
  | taskComplete => exact execTaskComplete_goesOn
  | resourceMapTimeout => exact execResourceMapTimeout_goesOn
  | warpEvict => exact execWarpEvict_goesOn
  | powerUp => exact execPowerUp_goesOn
  | powerDown => exact execPowerDown_goesOn
  | uncorrectableError p => exact execUncorrectableError_next p s
  | linkLaneFail => exact execLinkLaneFail_goesOn
  | hostMemAccess => exact execHostMemAccess_goesOn
  | keyOpComplete => exact execKeyOpComplete_goesOn
  | spillReturn => exact execSpillReturn_goesOn
  | launchTake => exact execLaunchTake_goesOn
  | launchComplete => exact execLaunchComplete_goesOn
  | deadlockSuspect => exact execDeadlockSuspect_goesOn
  | contextStopComplete => exact execContextStopComplete_goesOn
  | selfTest => exact execSelfTest_goesOn
  | peerInboundAccess => exact execPeerInboundAccess_goesOn
  | attestReportDone => exact execAttestReportDone_goesOn
  | throttleRelease => exact execThrottleRelease_goesOn
  | hostSnoop => exact execHostSnoop_goesOn
  | mwaitLimitExpire | blockStart | bakeryAdvance | contextDiscardComplete | junctionThrottle
  | ideIntegrityFail | peerFlitAuthFail | firmwareVerifyDone | bftailWrite => exact goesOn_ite_next

/-- Settles O60, by the forms that the meanings share. -/
theorem meaningsGoOn : Obligations.MeaningsGoOn := by
  unfold Obligations.MeaningsGoOn
  refine ⟨fun i s _ other running => exec_goesOn i s (fun _ _ => running) fun _ h => ?_,
    fun i s word latched => exec_goesOn i s (fun _ h => ?_) fun _ _ => latched,
    fun i s event => exec_goesOn i s (fun h _ => ?_) fun h _ => ?_⟩
  · exact absurd (h.symm.trans other) (by decide)
  · exact absurd (h.symm.trans word) (by decide)
  · exact absurd (h.symm.trans event) (by decide)
  · exact absurd (h.symm.trans event) (by decide)

end Sys2Proof.Machine
end

section
/-! SUPPORT. Spawning, waiting for children and yielding, of a fibre alone; and the statement. -/
namespace Sys2Proof.Machine
open Sys2Proof.Claims

/-- An aligned address of 56 bits is a code address (R278). -/
theorem codeAddress_of {v : Nat} (aligned : v % 4 = 0) (inside : v < 2 ^ 56) : codeAddress v = true := by
  rw [codeAddress, aligned, Nat.div_eq_of_lt inside]
  rfl

section
variable {s s1 s2 : State} {e : LaneEnv} {f : Fibre} {n : BitVec 4} {r d a b : Reg} {pd : Pred} {w entry v : Nat} {p : Place}

/-- The record of the child that a fibre spawns with no join word (R46, R278). -/
def childOf (s : State) (e : LaneEnv) (f : Fibre) (n : BitVec 4) (r : Reg) (entry : Nat) : Child :=
  ⟨e.warp.ctx, e.warp.launch, BitVec.ofNat 56 entry,
    f.lanes.map (fun l => (List.range n.toNat).map fun j => BitVec.ofNat 32 (l.reg (r.toNat + j))),
    childTid f.tid f.icount, 0#56, s.clock e.warp.core, e.warp.core⟩

/-- A child without a join word that finds room is counted, and its fibre's predicate is set (R45, R278). -/
theorem laneSpawn_placed (free : (s.launch e.warp.launch).lrec.ordered = false)
    (ha : oneValue f (·.pair a.toNat) .read = .ok entry) (code : codeAddress entry = true)
    (hb : oneValue f (·.pair b.toNat) .rmw = .ok 0) (released : releaseAt s w .device = .ok s1)
    (placed : placeChild s1 (childOf s1 e f n r entry) = some s2) :
    laneSpawn w n r pd a b s e f = (LaneAct.ok e f (f.lanes.map fun l => l.setPred pd true),
      commitBlock (count (s2.modLaunch e.warp.launch fun L => { L with children := L.children + 1 }) e.warp.ctx e.warp.core
        0x30 1) e.warp) := by
  unfold childOf at placed
  simp only [laneSpawn, free, Bool.false_eq_true, if_false, ha, code, Bool.not_true, hb, joinPlace, if_true, released, placed,
    Option.getD_some, mapLanes_const]

/-- One that finds no room is counted as refused, and its fibre's predicate is cleared (R278, R375). -/
theorem laneSpawn_refused (free : (s.launch e.warp.launch).lrec.ordered = false)
    (ha : oneValue f (·.pair a.toNat) .read = .ok entry) (code : codeAddress entry = true)
    (hb : oneValue f (·.pair b.toNat) .rmw = .ok 0) (released : releaseAt s w .device = .ok s1)
    (full : placeChild s1 (childOf s1 e f n r entry) = none) :
    laneSpawn w n r pd a b s e f = (LaneAct.ok e f (f.lanes.map fun l => l.setPred pd false),
      commitBlock (count s1 e.warp.ctx e.warp.core 0x32 1) e.warp) := by
  unfold childOf at full
  simp only [laneSpawn, free, Bool.false_eq_true, if_false, ha, code, Bool.not_true, hb, joinPlace, if_true, released, full,
    mapLanes_const]

/-- A fibre alone that spawns ends as its act leaves it, and the full warps that wait then issue (R48). -/
theorem execSpawn_ends {c : Issue} {x : Lx} {lanes : List Lane} {u : State} (h : Alone s c x f)
    (hu : Usable s c [two a, two b, ⟨r.toNat, n.toNat, 1⟩])
    (acts : laneSpawn c.warp n r pd a b s (laneEnv s c x) f = (LaneAct.ok (laneEnv s c x) f lanes, u)) (nt : NoNumTraps u c) :
    ∃ t, exec (.spawn x n r pd a b) s = .next (issueFull fullWarps (s.warp c.warp).core t)
      ∧ Ends u c (fun _ => fibreAt f (nextPc c) lanes) 0 (guardNum x f) t := by
  refine ⟨finish u (.spawn x n r pd a b) c [⟨f.slot, .done { f.advance (nextPc c) with lanes := lanes }, 0, guardNum x f⟩], ?_,
    finish_one u _ c ⟨f.slot, _, 0, guardNum x f⟩ { f.advance (nextPc c) with lanes := lanes } rfl rfl h.group nt⟩
  show execSpawn x n r pd a b s = _
  rw [execSpawn, h.curWarp, laneFold_alone _ x false _ _ s c f h hu, acts]
  simp only [LaneAct.ok, show (0 : BitVec 4) ||| guardNum x f = guardNum x f from BitVec.zero_or]
  rfl

/-! ### Waiting for children (R279) -/

/-- Where there is no join word, `jwait` reads 0. -/
theorem laneJwait_none (ha : oneValue f (·.pair a.toNat) .read = .ok 0) :
    laneJwait w d a s e f
      = (LaneAct.ok e f (f.lanes.map fun l => l.setReg d.toNat 0), acquire s e.warp.core .device) := by
  simp only [laneJwait, ha, joinPlace, if_true, mapLanes_const]

/-- Of a join word with no child outstanding it reads the faults. -/
theorem laneJwait_done {el : Elem} (ha : oneValue f (·.pair a.toNat) .read = .ok v) (some_ : v ≠ 0)
    (located : locate s e.warp 0 .glob v 0 8 .read true = (.ok p, s1)) (loaded : loadElem s1 w false p 8 p.va = (.ok el, s2))
    (done : el.copies.headD 0 % 2 ^ 32 = 0) (formed : el.copies.headD 0 < 2 ^ 48) :
    laneJwait w d a s e f = (LaneAct.ok e f (f.lanes.map fun l => l.setReg d.toNat (el.copies.headD 0 / 2 ^ 32)),
      acquire s2 e.warp.core .device) := by
  simp only [laneJwait, ha, joinPlace, if_neg some_, located, loaded, Nat.div_eq_of_lt formed, done, ne_eq, not_true_eq_false,
    if_false, mapLanes_const]

end

/-- Settles O27. -/
theorem spawning : Obligations.Spawning := by
  unfold Obligations.Spawning
  refine ⟨fun x n r pd a b s c f entry s1 h hu free ha aligned inside hb released W hW ch hch =>
      ⟨fun s2 placed u hu' nt => ?placed, fun full u hu' nt => ?full⟩,
    fun x d a s c f h hu ha u hu' nt => ?noJoin,
    fun x d a s c f v p s1 el s2 h hu ha some_ located loaded done formed u hu' nt => ?joined,
    fun x s c f h nt => ?yields⟩
  case placed =>
    subst hW hch hu'
    exact execSpawn_ends h hu (laneSpawn_placed free ha (codeAddress_of aligned inside) hb released placed) nt
  case full =>
    subst hW hch hu'
    exact execSpawn_ends h hu (laneSpawn_refused free ha (codeAddress_of aligned inside) hb released full) nt
  case noJoin =>
    subst hu'
    exact aloneEnds_of_laneFold h hu (rfl : exec _ s = execJwait x d a s) (laneJwait_none ha) nt
  case joined =>
    subst hu'
    refine aloneEnds_of_laneFold h hu (rfl : exec _ s = execJwait x d a s) ?_ nt
    rw [h.curWarp]
    exact laneJwait_done ha some_ located loaded done formed
  case yields =>
    exact aloneEnds_of_laneOnce h (usable_nil s c) (rfl : exec _ s = execYield x s) rfl (nt.modWarp fun _ => rfl)

end Sys2Proof.Machine
end

section
/-! SUPPORT. A state that refutes the statement about the end of a fibre and the reconvergence stack: a trap of an earlier `rcvwait`
is still owed where the next one finds no entry. -/
namespace Sys2Proof.Machine
open Sys2Proof.Claims

/-- A fibre of slot 0 of one sibling, ready at address 0. -/
def loneFibre : Fibre := { readyFibre 0 with lanes := [Lane.zero] }

/-- The instruction of the fibre of slot 0 of warp 0, at address 0. -/
def firstIssue : Issue := ⟨0, [0], 0, none, 0⟩

/-- That fibre is in execution, its stack is empty, and its warp owes it a trap; its launch has a trap vector. -/
def trapOwed : State := { State.reset with
  cur := some firstIssue
  warps := [(0, { Warp.absent with residence := .resident, fibres := [loneFibre], owed := [⟨0, 0, 0⟩] })]
  launches := [(0, { Launch.absent with lrec := { LaunchRec.zero with trapVec := 4 } })]
  ctxs := [(0, { Ctx.reset with state := .running })] }

theorem trapOwed_alone : Alone trapOwed firstIssue Lx.none loneFibre := ⟨rfl, rfl, by decide, by decide⟩

/-- There `rcvwait` raises the trap that is owed (R114, R276). -/
theorem rcvwait_trapOwed : ∃ t, exec (.rcvwait Lx.none) trapOwed = .next t ∧ (t.warp 0).owed = [] := ⟨_, rfl, by decide +kernel⟩

/-- Refutes O26: its clause about a `rcvwait` that finds no entry does not ask that the warp owes no trap, as its clauses about
the end of a fibre and about an entry do. A `rcvwait` raises the traps that are owed to fibres that are not parked (R114, R276),
and the clause says that of the warp its fibres and flags alone change. -/
theorem not_endsAndReconvergence : ¬ Obligations.EndsAndReconvergence := by
  unfold Obligations.EndsAndReconvergence
  rintro ⟨-, -, finds_none, -⟩
  obtain ⟨t, next, ends⟩ := finds_none Lx.none trapOwed firstIssue loneFibre trapOwed_alone rfl rfl
  obtain ⟨u, next', paid⟩ := rcvwait_trapOwed
  obtain rfl : t = u := Host.Outcome.next.inj (next.symm.trans next')
  have kept : (t.warp 0).owed = [⟨0, 0, 0⟩] := congrArg Warp.owed ends.warp
  exact absurd (kept.symm.trans paid) (by decide)

end Sys2Proof.Machine
end

section
/-! SUPPORT. Waits by counts, the register pool, tries of stage rings, timelines and the head of an ordered launch; and the
statement about them. -/
namespace Sys2Proof.Machine
open Sys2Proof.Claims

section
variable {s s1 u : State} {c : Issue} {e : Bool} {b : Nat} {a d : Reg} {cd : Pred} {q : BitVec 2} {g : Engine}

/-! ### Waiting, claiming and giving (R305, R306) -/

/-- A wait whose counts are reached goes on. -/
theorem wait_goes {n0 n1 n2 n3 : BitVec 6} (met : Uniform s c []) (nt : NoNumTraps s c)
    (loads : (s.warp c.warp).loads.length ≤ n0.toNat) (stores : storesOut s c.warp ≤ n1.toNat)
    (copies : (s.warp c.warp).cpas.length + (s.warp c.warp).copies.length ≤ n2.toNat)
    (tiles : tilesOut s (s.warp c.warp).blk ≤ n3.toNat) : Goes (.wait e n0 n1 n2 n3) s s c (nextPc c) := by
  have reached : countsReached s c.warp n0.toNat n1.toNat n2.toNat n3.toNat = true := by
    simp only [countsReached, loads, stores, copies, tiles, decide_true, Bool.and_self]
  exact goes_of_act (execWait e n0 n1 n2 n3 s) rfl rfl met (by simp only [reached, if_true]) nt

/-- A claim that the window and the pool have room for is granted, where no group has waited longer for the pool. -/
theorem claim_goes {n : BitVec 3} (met : Uniform s c []) (blk : (s.warp c.warp).blk = some b)
    (outside : inHandler (s.warp c.warp) c = false) (fits : (s.warp c.warp).window + 8 * n.toNat ≤ 64)
    (pooled : 8 * n.toNat ≤ (s.blk b).pool)
    (first : olderWaits s b (waitingSince s c) (fun why => match why with | .pool _ => true | _ => false) = false)
    (hu : u = (s.modBlk b fun B => { B with pool := B.pool - 8 * n.toNat }).modWarp c.warp fun W =>
      { W with window := W.window + 8 * n.toNat }) (nt : NoNumTraps u c) : Goes (.claim e n) s u c (nextPc c) := by
  subst hu
  refine goes_of_act (execClaim e n s) rfl rfl met ?_ nt
  simp only [inBlock, blk, outside, Nat.not_lt.mpr fits, Nat.not_lt.mpr pooled, decide_false, Bool.or_self, Bool.false_or,
    Bool.false_eq_true, if_false]
  exact if_neg (ne_true_of_eq_false first)

/-- Registers that no load will write are given back to the pool. -/
theorem give_goes {n : BitVec 3} (met : Uniform s c []) (blk : (s.warp c.warp).blk = some b)
    (outside : inHandler (s.warp c.warp) c = false) (enough : 8 * n.toNat + 8 ≤ (s.warp c.warp).window)
    (written : loadsHold (s.warp c.warp) ((s.warp c.warp).fibres.map (·.slot))
      [((s.warp c.warp).window - 8 * n.toNat, 8 * n.toNat)] [] = false) {less : Fibre → Fibre}
    (hless : less = fun f => { f with lanes := f.lanes.map (Lane.shrink ((s.warp c.warp).window - 8 * n.toNat)) })
    (hu : u = (s.modBlk b fun B => { B with pool := B.pool + 8 * n.toNat }).modWarp c.warp fun W =>
      { W with window := W.window - 8 * n.toNat, fibres := W.fibres.map less, ended := W.ended.map less })
    (nt : NoNumTraps u c) : Goes (.give e n) s u c (nextPc c) := by
  subst hless hu
  refine goes_of_act (execGive e n s) rfl rfl met ?_ nt
  simp only [inBlock, blk, outside, Nat.not_lt.mpr enough, decide_false, Bool.or_self, Bool.false_eq_true, if_false, written]
  exact congrArg (Prod.mk _) (State.modWarp_congr rfl)

/-! ### Tries of stage rings (R307) -/

/-- A token that is there, and that no group has waited longer for, is taken. -/
theorem qtryPop_goes (met : Uniform s c [plainUse false d]) (blk : (s.warp c.warp).blk = some b)
    (some_ : (ringAt s b q.toNat).count ≠ 0) (first : olderWaits s b s.next (· == .ringToken q.toNat) = false)
    (hu : u = (s.modBlk b fun B => { B with rings := modAt B.rings q.toNat fun R => { R with rd := R.rd + 1 } }).modWarp
      c.warp fun W => (W.setSreg d.toNat (token (ringAt s b q.toNat))).setCpred cd true) (nt : NoNumTraps u c) :
    Goes (.qtryPop e cd d q) s u c (nextPc c) := by
  subst hu
  refine goes_of_act (execQtryPop e cd d q s) rfl rfl met ?_ nt
  simp only [inBlock, blk, some_, first, decide_false, Bool.or_self, Bool.false_eq_true, if_false]
  rfl

/-- Otherwise the predicate is cleared, and nothing is taken. -/
theorem qtryPop_fails (met : Uniform s c [plainUse false d]) (blk : (s.warp c.warp).blk = some b)
    (unready : ¬((ringAt s b q.toNat).count ≠ 0 ∧ olderWaits s b s.next (· == .ringToken q.toNat) = false))
    (hu : u = s.modWarp c.warp fun W => W.setCpred cd false) (nt : NoNumTraps u c) :
    Goes (.qtryPop e cd d q) s u c (nextPc c) := by
  subst hu
  refine goes_of_act (execQtryPop e cd d q s) rfl rfl met ?_ nt
  have held : (decide ((ringAt s b q.toNat).count = 0) || olderWaits s b s.next (· == .ringToken q.toNat)) = true := by
    by_cases empty : (ringAt s b q.toNat).count = 0
    · simp [empty]
    · simpa [empty] using unready
  simp only [inBlock, blk, held, if_true]

/-- A token is pushed to a ring with room after the warp's stores, where no group has waited longer for the room. -/
theorem qtryPush_goes (met : Uniform s c [plainUse false a]) (blk : (s.warp c.warp).blk = some b)
    (room : (ringAt s b q.toNat).count < 16) (first : olderWaits s b s.next (· == .ringRoom q.toNat) = false)
    (stored : flushed s c.warp = (true, s1))
    (hu : u = (modRing s1 b q.toNat (·.push ((s.warp c.warp).sreg a.toNat))).modWarp c.warp fun W => W.setCpred cd true)
    (nt : NoNumTraps u c) : Goes (.qtryPush e cd q a) s u c (nextPc c) := by
  subst hu
  refine goes_of_act (execQtryPush e cd q a s) rfl rfl met ?_ nt
  simp only [inBlock, blk, Nat.not_le.mpr room, first, stored, decide_false, Bool.or_self, Bool.false_eq_true, if_false]

/-- A full ring takes no token, and the predicate is cleared. -/
theorem qtryPush_full (met : Uniform s c [plainUse false a]) (blk : (s.warp c.warp).blk = some b)
    (full : 16 ≤ (ringAt s b q.toNat).count) (hu : u = s.modWarp c.warp fun W => W.setCpred cd false) (nt : NoNumTraps u c) :
    Goes (.qtryPush e cd q a) s u c (nextPc c) := by
  subst hu
  refine goes_of_act (execQtryPush e cd q a s) rfl rfl met ?_ nt
  simp only [inBlock, blk, full, decide_true, Bool.true_or, if_true]

/-! ### Timelines (R308, R309) -/

/-- A timeline is read, and acquired at the scope of the commands that it counts. -/
theorem tlrd_goes (met : Uniform s c [plainUse true d]) (blk : (s.warp c.warp).blk = some b)
    (hu : u = acquireAt (s.modWarp c.warp fun W => W.setSval true d.toNat (timelineOf s g b)) (s.warp c.warp).core
      (timelineScope s g b)) (nt : NoNumTraps u c) : Goes (.tlrd e g d) s u c (nextPc c) := by
  subst hu
  exact goes_of_act (execTlrd e g d s) rfl rfl met (by simp only [inBlock, blk]) nt

/-- A timeline that has come to the value waited for lets its group go on. -/
theorem tlwait_goes (met : Uniform s c [plainUse true a]) (nt : NoNumTraps s c) (blk : (s.warp c.warp).blk = some b)
    (reached : (s.warp c.warp).sval true a.toNat ≤ timelineOf s g b) :
    Goes (.tlwait e g a) s (acquireAt s (s.warp c.warp).core (timelineScope s g b)) c (nextPc c) :=
  goes_of_act (execTlwait e g a s) rfl rfl met (by simp only [inBlock, blk, reached, if_true]) (nt.acquireAt _ _)

/-! ### The head of an ordered launch (R315) -/

/-- A spawned warp, and a launch that is not ordered, wait for no head. -/
theorem ordwait_unordered (met : Uniform s c []) (nt : NoNumTraps s c)
    (free : (s.warp c.warp).blk = none ∨ (s.launch (s.warp c.warp).launch).lrec.ordered = false) :
    Goes (.ordwait e) s s c (nextPc c) := by
  refine goes_of_act (execOrdwait e s) rfl rfl met ?_ nt
  cases blk : (s.warp c.warp).blk with
  | none => simp only
  | some b =>
    have unordered := free.resolve_left (by simp [blk])
    simp only [unordered, Bool.not_false, if_true]

/-- The head of an ordered launch goes on, and acquires at device scope. -/
theorem ordwait_head (met : Uniform s c []) (blk : (s.warp c.warp).blk = some b)
    (ordered : (s.launch (s.warp c.warp).launch).lrec.ordered = true) (head : isHead s b = true)
    (nt : NoNumTraps (acquire s (s.warp c.warp).core .device) c) :
    Goes (.ordwait e) s (acquire s (s.warp c.warp).core .device) c (nextPc c) :=
  goes_of_act (execOrdwait e s) rfl rfl met
    (by simp only [blk, ordered, head, Bool.not_true, Bool.false_eq_true, if_false, if_true]) nt

end

/-- Settles O36: each instruction once its checks are met. -/
theorem uniformQueues : Obligations.UniformQueues := by
  unfold Obligations.UniformQueues
  refine ⟨?wait, ?claim, ?give, ?pop, ?push, ?full, ?read, ?await, ?unordered, ?head⟩
  case wait => exact fun e n0 n1 n2 n3 s c met nt loads stores copies tiles => wait_goes met nt loads stores copies tiles
  case claim =>
    exact fun e n s c b met blk outside fits pooled first u hu nt => claim_goes met blk outside fits pooled first hu nt
  case give =>
    exact fun e n s c b met blk outside enough written less hless u hu nt =>
      give_goes met blk outside enough written hless hu nt
  case pop =>
    intro e cd d q s c b met blk ready hready
    subst hready
    exact ⟨fun ⟨some_, first⟩ u hu nt => qtryPop_goes met blk some_ first hu nt,
      fun unready u hu nt => qtryPop_fails met blk unready hu nt⟩
  case push =>
    exact fun e cd q a s c b s1 met blk room first stored u hu nt => qtryPush_goes met blk room first stored hu nt
  case full => exact fun e cd q a s c b met blk full u hu nt => qtryPush_full met blk full hu nt
  case read => exact fun e g d s c b met blk u hu nt => tlrd_goes met blk hu nt
  case await => exact fun e g a s c b met nt blk reached => tlwait_goes met nt blk reached
  case unordered => exact fun e s c met nt free => ordwait_unordered met nt free
  case head => exact fun e s c b met blk ordered head nt => ordwait_head met blk ordered head nt

end Sys2Proof.Machine
end

section
/-! SUPPORT. Completion, counters, tickets, pending tasks, join words, ended warps, the Shuttle's events and monitors; and the
statement about them. -/
namespace Sys2Proof.Machine
open Sys2Proof.Claims

/-! ### Launches, tasks and tickets (R40, R43, R384, R387) -/

section
variable {s s1 : State} {l c a : Nat}

/-- A launch that is not completing, not drained or being discarded stays as it is. -/
theorem launchComplete_waits
    (h : (s.launch l).state ≠ .completing ∨ launchDrained s l = false ∨ (s.ctx (s.launch l).ctx).discarding = true) :
    exec (.launchComplete l) s = .next s := by
  show execLaunchComplete l s = .next s
  refine if_pos ?_
  rcases h with h | h | h
  · simp [h]
  · simp [h]
  · simp [h]

/-- A retired block of a task whose writes are all performed counts both counters down, and is gone. -/
theorem taskComplete_counts {b : Nat} {t : Task} (task : (s.blk b).task = some t) (retired : (s.blk b).state = .retired)
    (untracked : ∀ e ∈ s.cores, ∀ x ∈ e.2.tracker, x.blk ≠ some b) (quiet : blocksQuiet s (fun q _ => q == b) = true) :
    exec (.taskComplete b) s = .next
      { decrementCounter (decrementCounter s (s.blk b).ctx t.succ1) (s.blk b).ctx t.succ2 with
        blocks := Tab.drop (decrementCounter (decrementCounter s (s.blk b).ctx t.succ1) (s.blk b).ctx t.succ2).blocks b } := by
  have clear : (s.cores.all fun e => e.2.tracker.all fun x => x.blk != some b) = true :=
    List.all_eq_true.mpr fun e he => List.all_eq_true.mpr fun x hx => bne_iff_ne.mpr (untracked e he x hx)
  show execTaskComplete b s = _
  unfold execTaskComplete
  simp only [task, retired, clear, quiet, bne_self_eq_false, Bool.not_true, Bool.or_self, Bool.false_eq_true, if_false]

/-- A counter of 0 is a TASK fault (R43). -/
theorem decrementCounter_zero {bs : List Byte} (there : a ≠ 0) (read : structRead s c a 8 = (.ok bs, s1)) (zero : leNat bs = 0) :
    decrementCounter s c a = taskFault s1 c 2 a := by
  simp only [decrementCounter, if_neg there, read, if_pos zero]

/-- One above 1 goes down by 1, and no task is enqueued. -/
theorem decrementCounter_counts {bs : List Byte} {u v : State} (there : a ≠ 0) (read : structRead s c a 8 = (.ok bs, s1))
    (more : 2 ≤ leNat bs) (written : structWrite s1 c a (leBytes 8 (leNat bs - 1)) = (.ok u, v)) :
    decrementCounter s c a = u := by
  have positive : leNat bs ≠ 0 := by omega
  have second : leNat bs ≠ 1 := by omega
  simp only [decrementCounter, if_neg there, read, if_neg positive, written, ne_eq, second, not_false_iff, if_true]

/-- The next ticket becomes the head once the writes of the last are performed. -/
theorem bakeryAdvance_advances (ordered : (s.launch l).lrec.ordered = true)
    (quiet : ticketQuiet s l (s.launch l).cur = true) (free : stageStays s l ((s.launch l).cur + 1) = false) :
    exec (.bakeryAdvance l) s = .next (applyStages (standAgain (s.modLaunch l fun L => { L with
      cur := L.cur + 1, retiredTickets := L.retiredTickets.filter (· != L.cur) }) l ((s.launch l).cur + 1)) l
        ((s.launch l).cur + 1)) := by
  show execBakeryAdvance l s = _
  exact if_neg (by simp [ordered, quiet, free])

/-! ### Pending tasks (R493) -/

/-- The oldest pending task that has room is enqueued. -/
theorem pendingEnqueueDrain_drains {p : Nat × Nat} {rest : List (Nat × Nat)} (runs : ctxRuns s c = true)
    (pending : (s.ctx c).pendEnq = p :: rest) (enqueued : enqueueObject s c p.1 (some p.2) = (.done, s1)) :
    exec (.pendingEnqueueDrain c) s = .next (s1.modCtx c fun C => { C with pendEnq := C.pendEnq.erase p }) := by
  show execPendingEnqueueDrain c s = _
  simp only [execPendingEnqueueDrain, runs, if_true, pending, drainPending, enqueued]

/-- A context that does not run, or that has none pending, enqueues nothing. -/
theorem pendingEnqueueDrain_idle (h : ctxRuns s c = false ∨ (s.ctx c).pendEnq = []) :
    exec (.pendingEnqueueDrain c) s = .next s := by
  show execPendingEnqueueDrain c s = _
  rcases h with stopped | none_
  · simp only [execPendingEnqueueDrain, stopped, Bool.false_eq_true, if_false]
  · simp only [execPendingEnqueueDrain, none_, drainPending, ite_self]

end

/-! ### Join words (R47) -/

/-- A join word of 48 bits with a child outstanding loses it, and counts a fault where its count has room. -/
theorem joinWord_eq {v : Nat} (some_ : v % 2 ^ 32 ≠ 0) (formed : v < 2 ^ 48) (faulted : Bool) :
    joinWord v faulted = if faulted ∧ v / 2 ^ 32 < 65535 then v - 1 + 2 ^ 32 else v - 1 := by
  cases faulted with
  | false =>
    simp only [joinWord, Bool.false_eq_true, if_false, false_and]
    omega
  | true =>
    simp only [joinWord, if_true, true_and]
    split
    · omega
    · omega

section
variable {s u : State} {idx : Nat} {j : JoinEnd}

/-- A child with no join word leaves its launch's count alone. -/
theorem joinEnd_uncounted (there : s.joins[idx]? = some j)
    (hu : u = if (Tab.find s.warps j.warp).isSome then drainAll s j.warp else landHome s j.core)
    (performed : joinWaits u j = false) (none_ : j.addr = 0) : joinEnd s idx = childDone u idx j.launch := by
  subst hu
  simp only [joinEnd, there, performed, Bool.false_eq_true, if_false, none_, if_true]

/-- A child with one takes itself off it, once its warp's stores are performed. -/
theorem joinEnd_counts {p : Place} {t t2 t3 : State} {v : Nat} (there : s.joins[idx]? = some j)
    (hu : u = if (Tab.find s.warps j.warp).isSome then drainAll s j.warp else landHome s j.core)
    (performed : joinWaits u j = false) (some_ : j.addr ≠ 0)
    (located : locate u (joinWarp u j) 0 .glob j.addr.toNat 0 8 .rmw true = (.ok p, t))
    (linked : linkCheck t p 8 .rmw = (none, t2)) (up : linkDown t2 p = false) (free : budgetHeld t2 j.ctx p true = false)
    (clean : poisoned t2 p 8 = false) (ht3 : t3 = landLines t2 (joinWarp u j).core (placeLines p 8))
    (hv : v = leNat (freshBytes t3 p (p.data 8 0) 8)) (outstanding : v % 2 ^ 32 ≠ 0) (formed : v < 2 ^ 48) :
    joinEnd s idx = childDone (chargeBytes (writePlace t3 (joinWarp u j).core p
      (wholeBytes (p.data 8 0) (leBytes 8 (if j.faulted ∧ v / 2 ^ 32 < 65535 then v - 1 + 2 ^ 32 else v - 1))))
      j.ctx p 8 true) idx j.launch := by
  rw [← joinWord_eq outstanding formed]
  subst hu ht3 hv
  simp only [joinEnd, there, performed, Bool.false_eq_true, if_false, some_, located, linked, up, free, Bool.or_self, clean,
    Nat.div_eq_of_lt formed, ne_eq, not_true_eq_false, outstanding, decide_false]

end

/-! ### The end of a warp (R52, R53) -/

theorem standAgain_unwatched (s : State) (l i : Nat) : (standAgain s l i).unwatched = s.unwatched :=
  List.foldlRecOn (motive := fun u : State => u.unwatched = s.unwatched) _ _ rfl fun u h e _ =>
    (writePhys_unwatched u none e.2.key e.2.kept).trans h

theorem retireBlock_unwatched (s : State) (b : Nat) : (retireBlock s b).unwatched = s.unwatched := by
  unfold retireBlock
  simp only
  split
  · rfl
  · refine (trace_unwatched _ _ _ _ _ _).trans ?_
    split
    · exact (standAgain_unwatched _ _ _).trans (refuse_unwatched _ _ _)
    · exact refuse_unwatched _ _ _

theorem retireIfDone_unwatched (s : State) (b : Nat) : (retireIfDone s b).unwatched = s.unwatched := by
  simp only [retireIfDone, apply_ite State.unwatched, retireBlock_unwatched, ite_self]

/-- A warp that is freed is not among those that are left. -/
theorem freeWarp_gone (s : State) (w : Nat) : ∀ e ∈ (freeWarp s w).warps, e.1 ≠ w := by
  have kept : (freeWarp s w).unwatched = (forgetWarps s [w]).unwatched := by
    unfold freeWarp
    simp only
    split
    · exact retireIfDone_unwatched _ _
    · rfl
  intro e he same
  have left : (e.1, e.2.unwatched) ∈ (forgetWarps s [w]).unwatched := kept ▸ List.mem_map_of_mem he
  obtain ⟨e', he', eq⟩ := List.mem_map.mp left
  have other := (List.mem_filter.mp he').2
  simp [(Prod.mk.inj eq).1, same] at other

/-- A warp that drains, whose fibres and faults are over, is gone once what it issued is performed, or the tracker takes it. -/
theorem warpEnd_gone {s u : State} {w : Nat} {W : Warp} (there : Tab.find s.warps w = some W) (drains : W.residence = .draining)
    (ended : W.fibres = []) (clear : W.faults = []) (hu : u = landHome s W.core)
    (done : (tracksOf u w = [] ∧ (∀ j ∈ u.joins, j.warp ≠ w) ∧ onWay u (·.warp == w) = false) ∨ (W.tailed = true
      ∧ (u.core W.core).tracker.length + (tracksOf u w).length ≤ 256)) :
    ∃ t, exec (.warpEnd w) s = .next t ∧ ∀ e ∈ t.warps, e.1 ≠ w := by
  subst hu
  show ∃ t, execWarpEnd w s = .next t ∧ _
  simp only [execWarpEnd, there, drains, ended, clear, ne_eq, not_true_eq_false, decide_false, Bool.or_self, Bool.false_eq_true,
    if_false]
  split
  · exact ⟨_, rfl, freeWarp_gone _ w⟩
  · next waits =>
    have tracked : W.tailed = true
        ∧ ((landHome s W.core).core W.core).tracker.length + (tracksOf (landHome s W.core) w).length ≤ 256 := by
      refine done.resolve_left fun ⟨stores, joins, away⟩ => waits ⟨stores, ?_, by rw [away]; rfl⟩
      rw [List.filter_eq_nil_iff.mpr fun j hj => by simpa using joins j hj]
      rfl
    obtain ⟨tailed, room⟩ := tracked
    rw [if_pos (by rw [tailed, Bool.true_and]; exact decide_eq_true room)]
    exact ⟨_, rfl, freeWarp_gone _ w⟩

/-! ### The Shuttle and monitors (R48, R266, R375) -/

section
variable {s : State} {core l : Nat}

/-- Children that do not gather issue nothing. -/
theorem spawnTimeout_none (none_ : gathered s core true (fun c => c.launch == l) = none) :
    exec (.spawnTimeout core l) s = .next s := by
  show execSpawnTimeout core l s = _
  simp only [execSpawnTimeout, none_]

/-- Those that do issue where there is room, and otherwise stay (log 62). -/
theorem spawnTimeout_gathered {cs : List Child} (gather : gathered s core true (fun c => c.launch == l) = some cs) :
    exec (.spawnTimeout core l) s = .next ((issueSpawned s core core cs).getD s) := by
  show execSpawnTimeout core l s = _
  simp only [execSpawnTimeout, gather]

/-- A spilled record returns to a Shuttle with room. -/
theorem spillReturn_returns {c : Child} {rest : List Child} (room : (s.core core).shuttle.length < shuttleSize)
    (spilled : takeSpilled (dieOf core) (s.launch l).ring = some (c, rest)) :
    exec (.spillReturn core l) s = .next (issueFull fullWarps core
      (((s.modLaunch l fun L => { L with ring := rest }).modCore core fun K =>
        { K with shuttle := K.shuttle ++ [{ c with core := core }] }).modCtx c.ctx fun C => { C with blockedSince := none })) := by
  show execSpillReturn core l s = _
  simp only [execSpillReturn, Nat.not_le.mpr room, if_false, spilled]

/-- An `mwait` whose limit has passed has expired. -/
theorem mwaitLimitExpire_expires {w k : Nat} {f : Fibre} {x : Wait} (hf : f ∈ (s.warp w).fibres)
    (waits : f.status = .waiting x) (watches : x.why = .monitor k) (due : k ≤ s.clock (s.warp w).core) :
    exec (.mwaitLimitExpire w) s = .next (s.modWarp w fun W => { W with
      monitor := W.monitor.map fun m => { m with expired := true } }) := by
  show execMwaitLimitExpire w s = _
  refine if_pos (List.any_eq_true.mpr ⟨f, hf, ?_⟩)
  simp only [waits, watches, due, decide_true]

end

/-- Settles O52: each event once what it waits for is there. -/
theorem completionsAndSpawnEvents : Obligations.CompletionsAndSpawnEvents := by
  unfold Obligations.CompletionsAndSpawnEvents
  refine ⟨?completes, fun s l h => launchComplete_waits h, ?task, ?counter, fun s l => bakeryAdvance_advances, ?pending,
    fun s c h => pendingEnqueueDrain_idle h, ?join, fun s w W u => warpEnd_gone, ?timeout, ?spill,
    fun s w f x k hf waits watches due => mwaitLimitExpire_expires hf waits watches due⟩
  case completes =>
    intro s l vs s1 state drained c hc kept latched lost hlost u1 hu1 u2 hu2 u3 hu3
    subst hc hlost hu1 hu2 hu3
    show execLaunchComplete l s = _
    unfold execLaunchComplete
    simp only [state, drained, kept, bne_self_eq_false, Bool.not_true, Bool.or_self, Bool.false_eq_true, if_false, latched]
  case task =>
    intro s b t u task retired untracked quiet hu
    subst hu
    exact taskComplete_counts task retired untracked quiet
  case counter =>
    exact fun s c a bs s1 there read => ⟨fun zero => decrementCounter_zero there read zero,
      fun u v more written => decrementCounter_counts there read more written⟩
  case pending => exact fun s c a rest s1 runs pending enqueued => pendingEnqueueDrain_drains runs pending enqueued
  case join =>
    refine fun s idx j u there hu performed => ⟨fun none_ => ?_, ?_⟩
    · exact congrArg Host.Outcome.next (joinEnd_uncounted there hu performed none_)
    · intro p t t2 t3 v some_ located linked up free clean ht3 hv outstanding formed
      exact congrArg Host.Outcome.next
        (joinEnd_counts there hu performed some_ located linked up free clean ht3 hv outstanding formed)
  case timeout =>
    refine fun s core l => ⟨spawnTimeout_none, fun cs gather => ⟨fun t issued => ?_, fun full => ?_⟩⟩
    · rw [spawnTimeout_gathered gather, issued, Option.getD_some]
    · rw [spawnTimeout_gathered gather, full, Option.getD_none]
  case spill =>
    intro s core l c rest room spilled u hu
    subst hu
    exact spillReturn_returns room spilled

end Sys2Proof.Machine
end

section
/-! SUPPORT. A state that refutes the statement about the Loom and issue: its table of warps names one warp twice, for two blocks
of a team. -/
namespace Sys2Proof.Machine
open Sys2Proof.Claims

/-- The member of a team at a position, whose block index is that position: it has room and has not started. -/
def readyMember (n : Nat) : Block :=
  { Block.absent with lin := n, pos := n, teamSize := 2, state := .ready, placed := true, nwarp := 1 }

/-- Blocks 0 and 1 are a team that may start, and warp 0 is listed first for block 0 and again for block 1. -/
def listedTwice : State := { State.reset with
  blocks := [(0, readyMember 0), (1, readyMember 1)]
  warps := [(0, { Warp.absent with blk := some 0 }), (0, { Warp.absent with blk := some 1 })]
  launches := [(0, { Launch.absent with state := .running, clocks := [(0, 0, 0, 0)] })]
  ctxs := [(0, { Ctx.reset with state := .running })] }

/-- There the start of block 1 starts warp 0 a second time, so that its fibres have the TIDs of block 1 (R24). -/
theorem blockStart_listedTwice :
    ∃ t, exec (.blockStart 0) listedTwice = .next t ∧ ((t.warp 0).fibres.map (·.tid)).head? = some 128 :=
  ⟨_, rfl, by decide +kernel⟩

/-- Refutes O51: its clause about the start of a block does not ask that the table of warps is in its canonical form, as its
clause about the oldest ready warp does. Where the table names a warp twice, for a block and for a later member of its team, that
member starts the warp again with its own TIDs (R24), and the clause says that they are the first block's. -/
theorem not_loomAndIssue : ¬ Obligations.LoomAndIssue := by
  unfold Obligations.LoomAndIssue
  rintro ⟨-, -, -, starts, -⟩
  obtain ⟨t, next, -, -, -, entered⟩ := starts listedTwice 0 rfl rfl rfl [0, 1] (by decide) (by decide) rfl _ rfl
    (fun ordered => absurd ordered (by decide)) (Or.inl rfl)
  obtain ⟨base, fibres⟩ := entered 0 _ rfl rfl
  obtain ⟨u, next', tids⟩ := blockStart_listedTwice
  obtain rfl : t = u := Host.Outcome.next.inj (next.symm.trans next')
  rw [fibres] at tids
  have first : some (0 : Word) = some 128 := tids
  exact absurd first (by decide)

end Sys2Proof.Machine
end
